-- ==== Sys2Proof/Word.lean ====
section
/-! DEFINITION. The block, its tag, and the small index types of the links (00_scope.md sections 4.1 to 4.5, R139). -/

namespace Sys2Proof

/-- The 4096 data bytes of a block, the first byte the most significant (R203's byte order). -/
abbrev Data := BitVec 32768

/-- A request tag of the volume link, 0 to 127 (R20). -/
abbrev Tag := Fin 128

/-- A bay slot, 0 to 63: shelf port × 16 + bay (00_scope.md 4.2). -/
abbrev Slot := Fin 64

/-- A shelf link, 0 to 3 (00_scope.md 1.2). -/
abbrev Port := Fin 4

/-- A block: 4096 data bytes and its 8-byte tag of guard, reference and application field (R139). -/
structure Block where
  data  : Data
  guard : BitVec 16
  ref   : BitVec 32
  app   : BitVec 16
  deriving DecidableEq, Repr

end Sys2Proof
end

