-- ==== Sys2Proof/Syntax.lean ====
section
/-! DEFINITION. The commands: one constructor per row of spec/opcode_table.json, with the row's operands. -/

namespace Sys2Proof

/-- The seven tuning bytes of a directive record, in tuning-bit order (11_record_formats.md 11.3). -/
structure TuningBytes where
  stepRows         : BitVec 8
  pace             : BitVec 8
  markInterval     : BitVec 8
  stainLimit       : BitVec 8
  captureMode      : BitVec 8
  degradedContinue : BitVec 8
  linkResetRestart : BitVec 8
  deriving DecidableEq, Repr

/-- A directive record but for its code, exactly as written (R191). -/
structure DirectiveArgs where
  seq        : BitVec 16
  bay        : BitVec 8
  pointer    : BitVec 8
  tuningMask : BitVec 16
  tuning     : TuningBytes
  eventMask  : BitVec 16
  deriving DecidableEq, Repr

/-- Which sending of which member operation, at which bay, an answer or a timer expiry belongs to (R128, R129).
The number is the model's own (log entry 4). -/
structure OpRef where
  slot    : Slot
  op      : Nat
  sending : Nat
  deriving DecidableEq, Repr

/-- A drive's answer to a READ: the blocks, or MEDIA with the first failing member block and the blocks before it (R126). -/
inductive ReadAnswer where
  | good (blocks : List Block)
  | media (first : Nat) (blocks : List Block)
  deriving DecidableEq, Repr

/-- A drive's answer to a WRITE or a FLUSH: done, or MEDIA with the first failing member block (R126, R131). -/
inductive WriteAnswer where
  | good
  | media (first : Nat)
  deriving DecidableEq, Repr

/-- A drive's answer to an INQUIRE (R126). -/
inductive InquireAnswer where
  | good (serial : BitVec 64) (capacity : Nat)
  | media
  deriving DecidableEq, Repr

/-- The commands. Requests and directives come over the volume link, the events of bays over the shelf links, and the
ends of member operations from the drives. A directive command is the one-block write to window block +0 that carries
its code (R189, R194). -/
inductive Instr where
  | powerOn
  | volumeLinkReset
  | readRequest (tag : Tag) (lba count : Nat)
  | writeRequest (tag : Tag) (lba : Nat) (blocks : List Block)
  | flushRequest (tag : Tag)
  | planPageWrite (tag : Tag) (first : Nat) (blocks : List Block)
  | windowWriteRefused (tag : Tag) (first : Nat) (blocks : List Block)
  | unknownDirective (tag : Tag) (code : BitVec 8) (args : DirectiveArgs)
  | selectBay (tag : Tag) (args : DirectiveArgs)
  | startChain (tag : Tag) (args : DirectiveArgs)
  | holdChain (tag : Tag) (args : DirectiveArgs)
  | releaseChain (tag : Tag) (args : DirectiveArgs)
  | pause (tag : Tag) (args : DirectiveArgs)
  | resume (tag : Tag) (args : DirectiveArgs)
  | dropPlan (tag : Tag) (args : DirectiveArgs)
  | stopChain (tag : Tag) (args : DirectiveArgs)
  | setTuning (tag : Tag) (args : DirectiveArgs)
  | clearEvents (tag : Tag) (args : DirectiveArgs)
  | setAttention (tag : Tag) (args : DirectiveArgs)
  | clearCapture (tag : Tag) (args : DirectiveArgs)
  | failMember (tag : Tag) (args : DirectiveArgs)
  | keepRemaps (tag : Tag) (args : DirectiveArgs)
  | clearHalt (tag : Tag) (args : DirectiveArgs)
  | restart (tag : Tag) (args : DirectiveArgs)
  | bayArrival (slot : Slot)
  | bayDeparture (slot : Slot)
  | linkDown (port : Port)
  | linkUp (port : Port) (bays : List (Fin 16))
  | memberOpTimeout (ref : OpRef)
  | hostReadMemberEnd (ref : OpRef) (ans : ReadAnswer)
  | hostWriteMemberReadEnd (ref : OpRef) (ans : ReadAnswer)
  | hostWriteMemberWriteEnd (ref : OpRef) (ans : WriteAnswer)
  | memberFlushEnd (ref : OpRef) (ans : WriteAnswer)
  | gatherReadEnd (ref : OpRef) (ans : ReadAnswer)
  | spillColumnWriteEnd (ref : OpRef) (ans : WriteAnswer)
  | spillRecordWriteEnd (ref : OpRef) (ans : WriteAnswer)
  | placeWriteEnd (ref : OpRef) (ans : WriteAnswer)
  | labelMemberWriteEnd (ref : OpRef) (ans : WriteAnswer)
  | planTableCopyEnd (ref : OpRef) (ans : WriteAnswer)
  | planAreaWriteEnd (ref : OpRef) (ans : WriteAnswer)
  | releasedLabelWriteEnd (ref : OpRef) (ans : WriteAnswer)
  | inquireEnd (ref : OpRef) (ans : InquireAnswer)
  | labelReadEnd (ref : OpRef) (ans : ReadAnswer)
  | planAreaReadEnd (ref : OpRef) (ans : ReadAnswer)
  | spillRecordReadEnd (ref : OpRef) (ans : ReadAnswer)
  | spillColumnReadEnd (ref : OpRef) (ans : ReadAnswer)
  | restorePlaceWriteEnd (ref : OpRef) (ans : WriteAnswer)
  | assemblyLabelWriteEnd (ref : OpRef) (ans : WriteAnswer)
  | writeBackEnd (ref : OpRef) (ans : WriteAnswer)
  | fillReadEnd (ref : OpRef) (ans : ReadAnswer)
  | spareSlotWriteEnd (ref : OpRef) (ans : WriteAnswer)
  | drainedOperationEnd (ref : OpRef)
  deriving DecidableEq, Repr

end Sys2Proof
end

