-- ==== Sys2Proof/Decode.lean ====
section
/-! DEFINITION. The reading of words. No row of spec/opcode_table.json gives bits ("fields": [] in each), so no word
spells a command; commands come as the links carry them. -/

namespace Sys2Proof

/-- The command a word spells by the table's bits: none, since the table gives no row any bits. -/
def decodeTableWord (_nbits _w : Nat) : Option Instr := none

end Sys2Proof
end

