-- ==== Sys2Proof/Config.lean ====
section
/-! DEFINITION. The fixed figures of the part. The manual leaves no value free, so no opaque constant stands here (log entry 6). -/

namespace Sys2Proof.Config

/-- First logical block of the control window (R10). -/
def windowBase : Nat := 2 ^ 40

/-- Entries of the request table (R21). -/
def maxRequests : Nat := 128

/-- Entries of the row lock table (R27). -/
def maxLocks : Nat := 160

/-- Places of a bay's wait list open to the host and mover classes (R127). -/
def waitLimit : Nat := 3840

/-- Issue slots of a bay (R128). -/
def issueSlots : Nat := 16

/-- Blocks of one staging slot (R16). -/
def stagingBlocks : Nat := 8192

/-- First member block of the data area (R4). -/
def dataBase : Nat := 16384

/-- First member block of the spill area (R19). -/
def spillBase : Nat := 1024

/-- Member block of the spill record (R19). -/
def spillRecordBlock : Nat := 1023

/-- First member block of the plan area (R19). -/
def planBase : Nat := 64

/-- First member block of the spare slots (R19). -/
def spareBase : Nat := 12288

/-- Blocks of one spare slot (R7). -/
def spareSize : Nat := 256

/-- Entries of a bay's remap table (R151). -/
def maxRemaps : Nat := 8

/-- HARD entries a label can carry (R155). -/
def maxHard : Nat := 256

/-- Where two-byte counters stop rising (R120, R148, R191). -/
def counterTop : Nat := 65535

/-- The reference of a parity block (R5). -/
def parityRef : BitVec 32 := 0xFFFFFFFF#32

/-- The reference of a poison block (R139). -/
def poisonRef : BitVec 32 := 0xFFFFFFFE#32

end Sys2Proof.Config
end

