-- ==== Sys2Proof/Machine/State.lean ====
section
/-! DEFINITION. The state of the engine, block by block, as plain data, and its value right after power-on. -/

namespace Sys2Proof.Machine

/-! ## Layouts (01_layouts_and_the_address_map.md) -/

/-- The part a layout plays in the current plan (R1). -/
inductive LayoutId where
  | only | old | new
  deriving DecidableEq, Repr

/-- A member list entry that is not VACANT: the bay slot and the serial expected there (R1). -/
structure Member where
  slot   : Slot
  serial : BitVec 64
  deriving DecidableEq, Repr

/-- A layout record (R1). N is the length of the member list and D is N − 1; a VACANT position is `none`. -/
structure Layout where
  id      : LayoutId
  unit    : Nat
  members : List (Option Member)
  rows    : Nat
  deriving DecidableEq, Repr

/-- The incoming record of a REPLACE (R2), with the serial its label copy carries (11.5). -/
structure Incoming where
  q      : Nat
  slot   : Slot
  serial : BitVec 64
  deriving DecidableEq, Repr

/-- One block's place in a layout: row, position, offset within the unit (R6). -/
structure Cell where
  row : Nat
  pos : Nat
  off : Nat
  deriving DecidableEq, Repr

/-- One unit of a layout: row and position. -/
structure RowUnit where
  row : Nat
  pos : Nat
  deriving DecidableEq, Repr

/-! ## Member operations (06_shelf_links_bays_and_members.md) -/

/-- The class of a member operation (3.10, R126). -/
inductive OpClass where
  | mark | host | mover
  deriving DecidableEq, Repr

/-- A staging slot (R47). -/
inductive Staging where
  | a | b
  deriving DecidableEq, Repr

/-- What a member operation asks of the drive (R126). -/
inductive OpKind where
  | read (first count : Nat)
  | write (first : Nat) (blocks : List Block)
  | flush
  | inquire
  deriving DecidableEq, Repr

/-- The block of the engine that handed an operation over and what for; `again` marks the one further issue after MEDIA
of a reserve-region write (R130). Each owner has its own end command. -/
inductive Owner where
  | hostRead (arrival part : Nat)
  | hostWriteRead (arrival row : Nat)
  | hostWriteWrite (arrival row : Nat)
  | hostFlush (arrival : Nat)
  | gather (slot : Staging)
  | spillColumn (slot : Staging) (again : Bool)
  | spillRecord (again : Bool)
  | place (slot : Staging)
  | label (again : Bool)
  | tableCopy (again : Bool)
  | planArea (index : Nat) (again : Bool)
  | releasedLabel (again : Bool)
  | inquire
  | labelRead
  | assemblyPlanRead
  | assemblySpillRead
  | assemblyColumnRead
  | restorePlace
  | assemblyLabel (again : Bool)
  | assemblyCopy (again : Bool)
  | writeBack
  | fillRead (slot : Slot) (row : Nat)
  | spareWrite (slot : Slot) (row : Nat)
  | drained (arrival : Option Nat)
  deriving DecidableEq, Repr

/-- A member operation (R126). `home` is the member row and offset of its first block when it lies in the data area,
before any remapping (R7). -/
structure MemberOp where
  id    : Nat
  slot  : Slot
  cls   : OpClass
  kind  : OpKind
  owner : Owner
  home  : Option (Nat × Nat)
  deriving DecidableEq, Repr

/-- An operation in an issue slot (R128): how often it has been sent, how many timers have expired (R129), and how many
MEDIA answers a FLUSH has had (R131). -/
structure Issued where
  op       : MemberOp
  sending  : Nat
  expiries : Nat
  medias   : Nat
  deriving DecidableEq, Repr

/-- How a member operation ends (R126). -/
inductive OpResult where
  | good (blocks : List Block)
  | inquired (serial : BitVec 64) (capacity : Nat)
  | media (first : Nat) (blocks : List Block)
  | timeout
  | gone
  deriving DecidableEq, Repr

/-! ## Fetching blocks (R32, R33, R37, R52, R153) -/

/-- What a reader knows of one block: its READ is under way, it came good, it came as poison, it has a tag error or did
not come, it was rebuilt from its row, or it cannot be had (with whether the volume was OFFLINE then, R33). -/
inductive CellState where
  | waiting (op : Nat)
  | got (b : Block)
  | poison (b : Block)
  | bad
  | rebuilt (b : Block)
  | lost (offline : Bool)
  deriving DecidableEq, Repr

/-- The blocks a reader has asked for under one layout, and the ones it must end up with. -/
structure Fetch where
  layout : Layout
  cells  : List (Cell × CellState)
  wanted : List Cell
  deriving DecidableEq, Repr

/-- Who reads and rebuilds: a part of a host read, a row of a host write, a step, or a fill. -/
inductive Reader where
  | part (arrival index : Nat)
  | row (arrival index : Nat)
  | step (slot : Staging)
  | fill (slot : Slot) (row : Nat)
  deriving DecidableEq, Repr

/-! ## Volume port, row locks and hold queue (02, 03) -/

/-- The kind of a request; `page` is a plan page write (R97). -/
inductive ReqKind where
  | read | write | flush | page
  deriving DecidableEq, Repr

/-- The states of an occupied request table entry (R21). -/
inductive ReqState where
  | window | held | queued | locking | issued | flushing | draining
  deriving DecidableEq, Repr

/-- A row lock key (R27). -/
structure Key where
  layout : LayoutId
  row    : Nat
  deriving DecidableEq, Repr

/-- The write path of a row (R35). -/
inductive WritePath where
  | parityMissing | fullRow | reconstructWrite | readModifyWrite
  deriving DecidableEq, Repr

/-- How far a row of a write part has gone: reading, writing, all member operations ended, finished (R36 to R38). -/
inductive RowStage where
  | reading | writing | ended | finished (offline : Bool)
  deriving DecidableEq, Repr

/-- One row of a write part: the new blocks of the request in it, its path, and its progress (R35 to R38). -/
structure RowWork where
  layout      : Layout
  row         : Nat
  news        : List (Cell × Block)
  path        : WritePath
  fetch       : Fetch
  stage       : RowStage
  outstanding : Nat
  deriving DecidableEq, Repr

/-- An entry of the request table (R21). `reads` are a READ's parts, `rows` the rows of a WRITE's parts; `lossTold` says
that the request has raised DATA_LOST (R146). -/
structure Entry where
  tag     : Tag
  kind    : ReqKind
  lba     : Nat
  count   : Nat
  blocks  : List Block
  arrival : Nat
  state   : ReqState
  keys    : List Key
  reads   : List Fetch
  rows    : List RowWork
  flushes : Option Nat
  lossTold : Bool
  deriving DecidableEq, Repr

/-- The status of a completion (R20). -/
inductive Status where
  | good | outOfRange | badTag | medium | notReady | busy | aborted | invalidField
  deriving DecidableEq, Repr

/-- A completion (R20). -/
structure Completion where
  tag     : Tag
  status  : Status
  failing : Option Nat
  marker  : Bool
  data    : List Block
  deriving DecidableEq, Repr

/-- The volume port (R21, R25). -/
structure PortState where
  entries     : List Entry
  nextArrival : Nat
  deriving DecidableEq, Repr

/-- A waiter of a row lock entry: a request or a settle step by arrival number, and whether it waits as a write (R27). -/
structure Waiter where
  arrival : Nat
  write   : Bool
  deriving DecidableEq, Repr

/-- An entry of the row lock table (R27). -/
structure LockEntry where
  key     : Key
  holder  : Option Nat
  readers : List Nat
  waiters : List Waiter
  deriving DecidableEq, Repr

/-- A request or settle step waiting for free entries of the row lock table (R27). -/
structure QueuedLock where
  arrival : Nat
  write   : Bool
  keys    : List Key
  deriving DecidableEq, Repr

/-- The row lock table (R27). -/
structure LockTable where
  entries : List LockEntry
  queued  : List QueuedLock
  deriving DecidableEq, Repr

/-- Why a request is held (R65). -/
inductive HoldReason where
  | step (front : Nat)
  | mark
  deriving DecidableEq, Repr

/-- An entry of the hold queue (R65). -/
structure HoldEntry where
  tag     : Tag
  arrival : Nat
  reason  : HoldReason
  deriving DecidableEq, Repr

/-! ## Mover (03_growth_steps_and_the_mover.md) -/

/-- The phase of the active plan (R46). -/
inductive Phase where
  | none | migrate | settle | rebuild | form
  deriving DecidableEq, Repr

/-- The stage of a step (R47); the record is removed on entering RETIRE (R61). -/
inductive Stage where
  | gather | freeze | spill | place | mark | retire | abandoned
  deriving DecidableEq, Repr

/-- A step record with its staging slot's contents (R47). `cells` of `fetch` are the blocks gathered, `built` the units
built at FREEZE, `lost` the cells where the step itself puts poison, `repairs` the repair blocks of R70, `handed` whether
its SPILL or PLACE writes have been handed over, `restore` whether assembly set it up (R183), `poisoned` the poison blocks of
`lost` whose place WRITE has ended GOOD, by bay (R59, R146). -/
structure Step where
  kind        : Phase
  front       : Nat
  rows        : Nat
  first       : Nat
  stop        : Nat
  source      : List RowUnit
  readSet     : List RowUnit
  stage       : Stage
  stained     : List RowUnit
  stains      : Nat
  pinned      : Bool
  spill       : Bool
  arrival     : Option Nat
  granted     : Bool
  outstanding : Nat
  fetch       : Fetch
  built       : List (RowUnit × List Block)
  lost        : List Cell
  repairs     : List (Cell × Block)
  handed      : Bool
  restore     : Bool
  poisoned    : List (Slot × Cell)
  deriving DecidableEq, Repr

/-- The mover (R46, R47). -/
structure MoverState where
  front : Nat
  phase : Phase
  slotA : Option Step
  slotB : Option Step
  deriving DecidableEq, Repr

/-! ## Mark unit (04_marks_spill_and_the_safe_row.md) -/

/-- The mark state (R79). -/
inductive MarkState where
  | off | initial | clean | dirty
  deriving DecidableEq, Repr

/-- Which of the plan unit's label writes a PLAN cause asks for (R83, R106, R108, R116). -/
inductive PlanWrite where
  | install | close | remove
  deriving DecidableEq, Repr

/-- The causes of a label write (R83). STEP carries F_s + W′ and FORCED carries F_s. -/
inductive CauseKind where
  | step (front : Nat)
  | forced (front : Nat)
  | band
  | plan (w : PlanWrite)
  | remaps (slot : Slot)
  | loss
  deriving DecidableEq, Repr

/-- A waiting cause and whether the label write in flight began after it arrived (R83). -/
structure Cause where
  kind   : CauseKind
  served : Bool
  deriving DecidableEq, Repr

/-- The kind of a plan record or label (R95). -/
inductive PlanKind where
  | empty | form | grow | replace
  deriving DecidableEq, Repr

/-- A member list entry of a label (11.5). -/
structure LabelEntry where
  member  : Option Member
  missing : Bool
  deriving DecidableEq, Repr

/-- A layout of a label (11.5). -/
structure LabelLayout where
  id      : LayoutId
  entries : List LabelEntry
  deriving DecidableEq, Repr

/-- The incoming record of a label (11.5). -/
structure LabelIncoming where
  record  : Incoming
  missing : Bool
  deriving DecidableEq, Repr

/-- A HARD remap entry of a label (11.5, R156). -/
structure HardEntry where
  serial : BitVec 64
  row    : Nat
  spare  : Nat
  deriving DecidableEq, Repr

/-- The fields of a label but for those that name the member it is written to (R80, 11.5). -/
structure Label where
  identity   : BitVec 64
  generation : Nat
  unit       : Nat
  layouts    : List LabelLayout
  rows       : Nat
  planKind   : PlanKind
  activeSlot : Nat
  phase      : Phase
  markState  : MarkState
  markFront  : Nat
  pointer    : Nat
  held       : Bool
  ended      : Bool
  hard       : List HardEntry
  capacity   : Nat
  incoming   : Option LabelIncoming
  deriving DecidableEq, Repr

/-- A label write in flight (R78, R80, R81); `assembly` marks the assembly label write (R186). -/
structure Flight where
  generation  : Nat
  front       : Nat
  noted       : Nat
  plan        : Option PlanWrite
  assembly    : Bool
  outstanding : Nat
  deriving DecidableEq, Repr

/-- The fields of the spill record (R92). -/
structure SpillRecord where
  front      : Nat
  rows       : Nat
  first      : Nat
  stop       : Nat
  generation : Nat
  deriving DecidableEq, Repr

/-- The spill record as the part knows it (R78); ASKED is a request waiting for a label write in flight (R92) and is
reported as NONE. -/
inductive SpillState where
  | none
  | asked (slot : Staging)
  | writing (slot : Staging) (record : SpillRecord) (outstanding : Nat)
  | standing (record : SpillRecord)
  deriving DecidableEq, Repr

/-- The mark unit (R78). `losses` names the bays whose loss no completed label write records yet, each with whether the
write in flight began at or after the loss (R38, R83); `judgeBand` asks for BAND to be judged after the releases (R83). -/
structure MarkUnit where
  front      : Nat
  state      : MarkState
  generation : Nat
  flight     : Option Flight
  causes     : List Cause
  unmarked   : Nat
  spill      : SpillState
  bar        : Option Nat
  losses     : List (Slot × Bool)
  judgeBand  : Bool
  deriving DecidableEq, Repr

/-! ## Plan unit (05_plans_and_the_plan_chain.md) -/

/-- The outcome of a plan (R95, 11.2). -/
inductive PlanOutcome where
  | none | done | dropped | badKind | noVolume | volumeExists | bayDuplicate | bayInUse | bayForeign | bayTooSmall
  | tooManyMembers | capacityLimit | layoutDegraded | badPosition
  deriving DecidableEq, Repr

/-- A plan record (R95); the array controller's fields as written (R97, R203). -/
structure PlanRecord where
  kind        : BitVec 8
  cont        : Bool
  quiet       : Bool
  unit        : BitVec 16
  listLength  : BitVec 8
  bays        : List (BitVec 8)
  position    : BitVec 8
  replacement : BitVec 8
  outcome     : PlanOutcome
  rowsDone    : Nat
  capacity    : Nat
  generation  : Nat
  deriving DecidableEq, Repr

/-- The status of the chain (R99). -/
inductive ChainStatus where
  | ended | active | due | held
  deriving DecidableEq, Repr

/-- Whose write of a record a record write is: a page write by arrival number, the copy of a refusal or of a plan dropped
while waiting, or the residue that ends an installed plan (R98, R101, R112). -/
inductive AreaSource where
  | page (arrival : Nat)
  | behind
  | ending
  deriving DecidableEq, Repr

/-- A write of one record to the plan areas (R98). -/
structure AreaWrite where
  index   : Nat
  source  : AreaSource
  content : Option PlanRecord
  begun   : Bool
  left    : Nat
  deriving DecidableEq, Repr

/-- A plan area operation waiting its turn at its bay: a table copy or a record's block (R98). -/
inductive AreaWhat where
  | copy (assembly : Bool)
  | record (index : Nat) (block : Block)
  deriving DecidableEq, Repr

/-- A plan area operation waiting its turn (R98). -/
structure AreaOp where
  slot : Slot
  what : AreaWhat
  deriving DecidableEq, Repr

/-- A role of a bay (R121). -/
inductive Role where
  | none | member | joining | foreign | failed | stale
  deriving DecidableEq, Repr

/-- Where the active plan stands between its fetch and its end: waiting for bays (R105), installing (R106), at work,
closing or being removed with the label write outstanding (R108, R116, R118), writing its residue (R112). -/
inductive PlanStage where
  | none | waiting | installing | working | closing (w : PlanWrite) | residue
  deriving DecidableEq, Repr

/-- The plan unit (R95, R99, R2, R110). `installed` says that the install label write has completed (R107); `copies`
counts table copies not ended (R107); `dropAsked`, `incomingLost` and `endChain` record a DROP-PLAN taken in PREPARING
(R115), an incoming bay lost (R118) and a STOP-CHAIN's drop (R117); `inPlace` is the role and listed serial the bay of a rebuild in place
had (R116); `keepHold` is the held flag that waits for the fetch of a DUE slot after assembly (R180);
`beforeFirst` marks a chain HELD ahead of slot 0 (R113, log entry 11); `planKind` is the kind of the active plan, from its
record at the fetch and from the chosen label after assembly (R95, R180, R187). -/
structure PlanUnit where
  table        : List PlanRecord
  pointer      : Nat
  status       : ChainStatus
  hold         : Bool
  active       : Option Nat
  layouts      : List Layout
  incoming     : Option Incoming
  identity     : BitVec 64
  capacity     : Nat
  stage        : PlanStage
  installed    : Bool
  copies       : Nat
  dropAsked    : Bool
  incomingLost : Bool
  endChain     : Bool
  inPlace      : Option (Role × BitVec 64)
  areaWrites   : List AreaWrite
  areaOps      : List AreaOp
  released     : Nat
  keepHold     : Bool
  beforeFirst  : Bool
  planKind     : PlanKind
  deriving DecidableEq, Repr

/-! ## Shelf unit (06) -/

/-- How far the arrival procedure of a bay has gone (R120). -/
inductive Readiness where
  | absent | inquiring | reading | ready | unready
  deriving DecidableEq, Repr

/-- A remap entry (R151). -/
structure Remap where
  row     : Nat
  spare   : Nat
  hard    : Bool
  filling : Bool
  deriving DecidableEq, Repr

/-- A bay record with its queues, arbiter counts and remap table (R120, R127, R128, R77, R151). `ident` is the serial and
capacity of the last INQUIRE; `label` is the whole label read at the last arrival, which assembly reads (R176); `scanDue`
marks a bay of a RESTART's scan whose INQUIRE waits for its drained operations (R137). -/
structure Bay where
  present     : Bool
  readiness   : Readiness
  reference   : Bool
  ident       : Option (BitVec 64 × Nat)
  labelFound  : Option (BitVec 64 × Nat)
  label       : Option Label
  role        : Role
  position    : Option Nat
  incoming    : Bool
  media       : Nat
  tagErrors   : Nat
  timeouts    : Nat
  remaps      : List Remap
  wait        : List MemberOp
  backlog     : List MemberOp
  issued      : List Issued
  contest     : Nat
  moverCount  : Nat
  scanDue     : Bool
  deriving DecidableEq, Repr

/-- The shelf unit (R120); `nextOp` numbers member operations (log entry 4). -/
structure ShelfUnit where
  bays   : Vector Bay 64
  nextOp : Nat
  deriving DecidableEq, Repr

/-! ## Integrity unit (07_block_tags_poison_and_remapping.md) -/

/-- The kinds of capture (R148). -/
inductive CaptureKind where
  | hostTag | memberTag | mediaRead | mediaWrite | timeout | poisonWritten
  deriving DecidableEq, Repr

/-- The capture record (R148). -/
structure Capture where
  kind  : CaptureKind
  slot  : Option Slot
  block : Option Nat
  row   : Option Nat
  lba   : Option Nat
  deriving DecidableEq, Repr

/-- The six capture counts (R148). -/
structure CaptureCounts where
  hostTag       : Nat
  memberTag     : Nat
  mediaRead     : Nat
  mediaWrite    : Nat
  timeout       : Nat
  poisonWritten : Nat
  deriving DecidableEq, Repr

/-- A repair candidate: the bay and member block read, its reader and its cell (R144). -/
structure Candidate where
  slot   : Slot
  block  : Nat
  reader : Reader
  cell   : Cell
  deriving DecidableEq, Repr

/-- An entry of the repair list (R145). -/
structure Repair where
  op    : Nat
  slot  : Slot
  first : Nat
  count : Nat
  deriving DecidableEq, Repr

/-- A fill of a spare slot (R153): the failed WRITE, the blocks in hand, and the reads for the others. -/
structure Fill where
  slot   : Slot
  row    : Nat
  spare  : Nat
  failed : MemberOp
  blocks : List (Option Block)
  fetch  : Fetch
  sent   : Bool
  deriving DecidableEq, Repr

/-- The integrity unit (R144, R145, R148, R153). -/
structure IntegrityUnit where
  capture    : Option Capture
  counts     : CaptureCounts
  candidates : List Candidate
  repairs    : List Repair
  held       : List MemberOp
  fills      : List Fill
  deriving DecidableEq, Repr

/-! ## Engine control (08_engine_states_and_faults.md) -/

/-- The engine state (R157). -/
inductive EngineState where
  | idle | waiting | preparing | running | paused | settling | closing | suspended | halted
  deriving DecidableEq, Repr

/-- The volume state (R168). -/
inductive VolumeState where
  | none | assembling | forming | online | degraded | offline
  deriving DecidableEq, Repr

/-- The cause of the last fault (R157). -/
inductive FaultCause where
  | none | memberLost | recoveryFailed
  deriving DecidableEq, Repr

/-- What began the last assembly (R157). -/
inductive StartCause where
  | power | restart | link
  deriving DecidableEq, Repr

/-- The seven tuning values (R196). -/
structure Tuning where
  stepRows         : Nat
  pace             : Nat
  markInterval     : Nat
  stainLimit       : Nat
  captureLatest    : Bool
  degradedContinue : Bool
  linkResetRestart : Bool
  deriving DecidableEq, Repr

/-- Engine control (R157). `lastReport` and `lastTolerance` are the previous report (R161); `faultFresh` and `faultWaits`
say which label write a pending fault waits for (R162). -/
structure EngineControl where
  state         : EngineState
  pauseRequest  : Bool
  pausedFrom    : Option EngineState
  faultPending  : Bool
  latch         : Bool
  saved         : Option EngineState
  cause         : FaultCause
  faultLayout   : Option (LayoutId × Nat)
  volume        : VolumeState
  startCause    : StartCause
  tuning        : Tuning
  lastReport    : List (LayoutId × Nat)
  lastTolerance : Nat
  faultFresh    : Bool
  faultWaits    : Option Nat
  deriving DecidableEq, Repr

/-! ## Window unit (10_the_control_window.md) -/

/-- A directive in the slot (R191). -/
structure Directive where
  code : BitVec 8
  args : DirectiveArgs
  deriving DecidableEq, Repr

/-- The outcome of a directive (R193). -/
inductive DirOutcome where
  | done | adjusted | refusedState | refusedArgument | refusedCode
  deriving DecidableEq, Repr

/-- The result record (R193). -/
structure ResultRecord where
  code    : BitVec 8
  seq     : BitVec 16
  outcome : DirOutcome
  deriving DecidableEq, Repr

/-- The twelve event flags (R197). -/
structure Events where
  memberLost           : Bool
  shelfChange          : Bool
  planDone             : Bool
  chainEnd             : Bool
  engineSuspended      : Bool
  engineHalted         : Bool
  dataError            : Bool
  dataLost             : Bool
  remapAdded           : Bool
  directiveOverwritten : Bool
  capacityChanged      : Bool
  recoveryDone         : Bool
  deriving DecidableEq, Repr

/-- The window unit (R191, R193, R195, R197, R199). `taken` says whether the current directive has been taken (R192). -/
structure WindowUnit where
  current    : Option Directive
  taken      : Bool
  waiting    : Option Directive
  result     : ResultRecord
  overwrites : Nat
  events     : Events
  mask       : BitVec 12
  selector   : Slot
  deriving DecidableEq, Repr

/-! ## Assembly (09_start_up_assembly_and_recovery.md) -/

/-- The stages of assembly (R173): idle when none runs; recovery has its three kinds of reads and writes (R182, R183). -/
inductive AsmStage where
  | idle | scan | loading | records | columns | placing | label
  deriving DecidableEq, Repr

/-- Assembly (R173 to R188). `linksPending` are the links still to report after power-on (R174); `chosen` is the chosen
label; `current` the current bays in ascending slot (R177); `wanted` the plan records still to be taken and `asked` the
next current bay to ask (R181); `reads` counts reads under way; `copies` table copies not ended (R186); `spills` the valid
spill record copies (R182); `recorded` the chosen label's record of missing positions (R187); `pages` the plan page
writes waiting (R173); `firstScan` whether the first scan since power-on has not yet set the presence references (R120). -/
structure Assembly where
  stage        : AsmStage
  linksPending : List Port
  scanSet      : List Slot
  chosen       : Option Label
  current      : List Slot
  wanted       : List Nat
  asked        : Nat
  reads        : Nat
  copies       : Nat
  labelDone    : Bool
  spills       : List (Slot × SpillRecord)
  restored     : Bool
  incomingLost : Bool
  pages        : List Nat
  firstScan    : Bool
  deriving DecidableEq, Repr

/-! ## The whole state -/

/-- Internal events of one command, taken one after another (log entry 5): an operation that ended without the drive's
answer, a held request released (R66), and readers, steps and fills to look at again. -/
inductive Ev where
  | opEnd (op : MemberOp) (res : OpResult)
  | release (arrival : Nat)
  | advance (arrival : Nat)
  | stepAdvance (slot : Staging)
  | fillAdvance (slot : Slot) (row : Nat)
  deriving DecidableEq, Repr

/-- Why the machine could stop with a fault: never, in this model. The manual's faults are changes of State. -/
inductive Fault where
  /-- Raised by nothing: every command has an effect the manual gives. Safe. -/
  | unreachable
  deriving DecidableEq, Repr

/-- Why a command could be refused. -/
inductive Refusal where
  /-- Raised by exec for a command that has no meaning yet; no command is in that case. Safe. -/
  | notModelled (mnemonic : String)
  deriving DecidableEq, Repr

/-- The engine. `pending` is the queue of commands, first in, first out; `todo` is empty between commands; `out` is the
volume link's completions in the order sent (log entry 1). -/
structure State where
  pending : List Instr
  todo    : List Ev
  out     : List Completion
  port    : PortState
  locks   : LockTable
  holds   : List HoldEntry
  mover   : MoverState
  mark    : MarkUnit
  plan    : PlanUnit
  shelf   : ShelfUnit
  integ   : IntegrityUnit
  ctl     : EngineControl
  win     : WindowUnit
  asm     : Assembly
  deriving DecidableEq, Repr

/-- A bay record at power-on (R120, R127, R77, R151). -/
def State.resetBay : Bay :=
  { present := false, readiness := .absent, reference := false, ident := none, labelFound := none, label := none,
    role := .none, position := none, incoming := false, media := 0, tagErrors := 0, timeouts := 0, remaps := [],
    wait := [], backlog := [], issued := [], contest := 0, moverCount := 0, scanDue := false }

/-- An EMPTY plan record (R96). -/
def State.resetRecord : PlanRecord :=
  { kind := 0#8, cont := false, quiet := false, unit := 0#16, listLength := 0#8, bays := List.replicate 32 0#8,
    position := 0#8, replacement := 0#8, outcome := .none, rowsDone := 0, capacity := 0, generation := 0 }

/-- No event flag set (R202). -/
def State.resetEvents : Events :=
  { memberLost := false, shelfChange := false, planDone := false, chainEnd := false, engineSuspended := false,
    engineHalted := false, dataError := false, dataLost := false, remapAdded := false, directiveOverwritten := false,
    capacityChanged := false, recoveryDone := false }

/-- The tuning values' defaults (R196). -/
def State.resetTuning : Tuning :=
  { stepRows := 8, pace := 4, markInterval := 16, stainLimit := 3, captureLatest := false, degradedContinue := false,
    linkResetRestart := false }

/-- The mark unit with no volume and nothing under way (R78). From power-on or RESTART until assembly has loaded a label, Fm,
the mark state and G hold 0, OFF and 0, which R78 gives only for the case that none is found (DESIGN CHOICE, log entry 49). -/
def State.resetMark : MarkUnit :=
  { front := 0, state := .off, generation := 0, flight := none, causes := [], unmarked := 0, spill := .none, bar := none,
    losses := [], judgeBand := false }

/-- The plan unit with no volume and no plan (R2, R96, R99, R110). It stands so too from power-on or RESTART until the choice:
the EMPTY table by log entry 34, identity 0 by log entry 2, and the reported capacity 0, so that volume READs and WRITEs then
complete OUT_OF_RANGE by check 3 of R22 ahead of NOT_READY (DESIGN CHOICE, log entry 50). -/
def State.resetPlan : PlanUnit :=
  { table := List.replicate 64 State.resetRecord, pointer := 0, status := .ended, hold := false, active := none,
    layouts := [], incoming := none, identity := 0#64, capacity := 0, stage := .none, installed := false, copies := 0,
    dropAsked := false, incomingLost := false, endChain := false, inPlace := none, areaWrites := [], areaOps := [],
    released := 0, keepHold := false, beforeFirst := false, planKind := .empty }

/-- The integrity unit with no error and no work (R145, R148). -/
def State.resetIntegrity : IntegrityUnit :=
  { capture := none,
    counts := { hostTag := 0, memberTag := 0, mediaRead := 0, mediaWrite := 0, timeout := 0, poisonWritten := 0 },
    candidates := [], repairs := [], held := [], fills := [] }

/-- Assembly at the beginning of its scan, before any bay is in the scan set (R173, R174). -/
def State.resetAssembly (links : List Port) : Assembly :=
  { stage := .scan, linksPending := links, scanSet := [], chosen := none, current := [], wanted := [], asked := 0,
    reads := 0, copies := 0, labelDone := false, spills := [], restored := false, incomingLost := false, pages := [], firstScan := true }

/-- The machine right after power-on: every block at its power-on values and assembly's scan waiting for the four shelf
links to report (R157, R173, R174, R202). -/
def State.reset : State :=
  { pending := [], todo := [], out := [],
    port := { entries := [], nextArrival := 0 },
    locks := { entries := [], queued := [] },
    holds := [],
    mover := { front := 0, phase := .none, slotA := none, slotB := none },
    mark := State.resetMark,
    plan := State.resetPlan,
    shelf := { bays := Vector.replicate 64 State.resetBay, nextOp := 0 },
    integ := State.resetIntegrity,
    ctl :=
      { state := .idle, pauseRequest := false, pausedFrom := none, faultPending := false, latch := false, saved := none,
        cause := .none, faultLayout := none, volume := .assembling, startCause := .power, tuning := State.resetTuning,
        lastReport := [], lastTolerance := 0, faultFresh := false, faultWaits := none },
    win :=
      { current := none, taken := false, waiting := none, result := { code := 0#8, seq := 0#16, outcome := .done },
        overwrites := 0, events := State.resetEvents, mask := 0xFFF#12, selector := 0 },
    asm := State.resetAssembly [0, 1, 2, 3] }

end Sys2Proof.Machine
end

