-- ==== Sys2Proof/Machine/Flags.lean ====
section
/-! DEFINITION. Event flags and the attention marker (R197, R41), and the saturating counters. -/

namespace Sys2Proof.Machine

/-- The twelve events (R197). -/
inductive Event where
  | memberLost | shelfChange | planDone | chainEnd | engineSuspended | engineHalted | dataError | dataLost | remapAdded
  | directiveOverwritten | capacityChanged | recoveryDone
  deriving DecidableEq, Repr

/-- The flags with one event's flag set; a flag already set stays set (R197). -/
def Events.set (f : Events) : Event → Events
  | .memberLost => { f with memberLost := true }
  | .shelfChange => { f with shelfChange := true }
  | .planDone => { f with planDone := true }
  | .chainEnd => { f with chainEnd := true }
  | .engineSuspended => { f with engineSuspended := true }
  | .engineHalted => { f with engineHalted := true }
  | .dataError => { f with dataError := true }
  | .dataLost => { f with dataLost := true }
  | .remapAdded => { f with remapAdded := true }
  | .directiveOverwritten => { f with directiveOverwritten := true }
  | .capacityChanged => { f with capacityChanged := true }
  | .recoveryDone => { f with recoveryDone := true }

/-- Whether an event's flag is set (R197). -/
def Events.has (f : Events) : Event → Bool
  | .memberLost => f.memberLost
  | .shelfChange => f.shelfChange
  | .planDone => f.planDone
  | .chainEnd => f.chainEnd
  | .engineSuspended => f.engineSuspended
  | .engineHalted => f.engineHalted
  | .dataError => f.dataError
  | .dataLost => f.dataLost
  | .remapAdded => f.remapAdded
  | .directiveOverwritten => f.directiveOverwritten
  | .capacityChanged => f.capacityChanged
  | .recoveryDone => f.recoveryDone

/-- The flags in event-bit order, bit 0 first (11.2). -/
def Events.toList (f : Events) : List Bool :=
  [f.memberLost, f.shelfChange, f.planDone, f.chainEnd, f.engineSuspended, f.engineHalted, f.dataError, f.dataLost,
   f.remapAdded, f.directiveOverwritten, f.capacityChanged, f.recoveryDone]

/-- The flags as a 12-bit number in event-bit order (11.2). -/
def Events.bits (f : Events) : BitVec 12 :=
  BitVec.ofNat 12 (f.toList.foldr (fun b n => 2 * n + (if b then 1 else 0)) 0)

/-- The flags whose bit is clear in a mask (R198). -/
def Events.clearMask (f : Events) (m : BitVec 16) : Events :=
  { memberLost := f.memberLost && !m.getLsbD 0
    shelfChange := f.shelfChange && !m.getLsbD 1
    planDone := f.planDone && !m.getLsbD 2
    chainEnd := f.chainEnd && !m.getLsbD 3
    engineSuspended := f.engineSuspended && !m.getLsbD 4
    engineHalted := f.engineHalted && !m.getLsbD 5
    dataError := f.dataError && !m.getLsbD 6
    dataLost := f.dataLost && !m.getLsbD 7
    remapAdded := f.remapAdded && !m.getLsbD 8
    directiveOverwritten := f.directiveOverwritten && !m.getLsbD 9
    capacityChanged := f.capacityChanged && !m.getLsbD 10
    recoveryDone := f.recoveryDone && !m.getLsbD 11 }

/-- A block of the engine raises an event (R197). -/
def raise (e : Event) (s : State) : State :=
  { s with win := { s.win with events := s.win.events.set e } }

/-- The attention marker a completion sent now carries (R41). -/
def marker (s : State) : Bool := (s.win.events.bits &&& s.win.mask) != 0#12

/-- A two-byte counter raised by one, stopping at 65535 (R120, R148, R191). -/
def bump (n : Nat) : Nat := if n < Config.counterTop then n + 1 else n

end Sys2Proof.Machine
end

