-- ==== Sys2Proof/Machine/Layouts.lean ====
section
/-! DEFINITION. Layouts and the address map (01_layouts_and_the_address_map.md): pure arithmetic over layout records. -/

namespace Sys2Proof.Machine

/-- N, the members of a layout (R1). -/
def Layout.n (l : Layout) : Nat := l.members.length

/-- D, the data units per row (R1). -/
def Layout.d (l : Layout) : Nat := l.n - 1

/-- U × D, the logical blocks of a row. -/
def Layout.rowBlocks (l : Layout) : Nat := l.unit * l.d

/-- C, the capacity of a layout. -/
def Layout.capacity (l : Layout) : Nat := l.rows * l.rowBlocks

/-- The parity position of a row (R5). -/
def Layout.parity (l : Layout) (row : Nat) : Nat := (l.n - 1) - row % l.n

/-- The position of a data index in a row (R5). -/
def Layout.dataPos (l : Layout) (row d : Nat) : Nat := (l.parity row + 1 + d) % l.n

/-- The data index of a position that is not the row's parity (R8). -/
def Layout.dataIndex (l : Layout) (row pos : Nat) : Nat := (pos + l.n + l.n - l.parity row - 1) % l.n

/-- The place of a logical block (R6). -/
def Layout.cellOf (l : Layout) (lba : Nat) : Cell :=
  let r := lba / l.rowBlocks
  let k := lba - r * l.rowBlocks
  let d := k / l.unit
  { row := r, pos := l.dataPos r d, off := k - d * l.unit }

/-- The logical block of a place, none for parity (R8). -/
def Layout.lbaOf (l : Layout) (c : Cell) : Option Nat :=
  if c.pos == l.parity c.row then none
  else some (c.row * l.rowBlocks + l.dataIndex c.row c.pos * l.unit + c.off)

/-- First member block of a row (R4). -/
def Layout.rowBase (l : Layout) (row : Nat) : Nat := Config.dataBase + row * l.unit

/-- The member block of a place before remapping (R6). -/
def Layout.blockOf (l : Layout) (c : Cell) : Nat := l.rowBase c.row + c.off

/-- The bay slot at a position, none when VACANT (R1). -/
def Layout.slotAt (l : Layout) (pos : Nat) : Option Slot := (l.members.getD pos none).map (·.slot)

/-- The position a bay slot holds in a layout. -/
def Layout.posOf (l : Layout) (slot : Slot) : Option Nat :=
  (List.range l.n).find? (fun p => l.slotAt p == some slot)

/-- The serial a layout records for a bay slot. -/
def Layout.serialOf (l : Layout) (slot : Slot) : Option (BitVec 64) :=
  (l.members.find? (fun m => m.map (·.slot) == some slot)).join.map (·.serial)

/-- Ceiling division. -/
def ceilDiv (a b : Nat) : Nat := (a + b - 1) / b

/-- F_end of a growth (R15). -/
def growthEnd (old new : Layout) : Nat := ceilDiv old.capacity new.rowBlocks

/-- W, the effective step size for a layout being written (R16). -/
def effectiveStep (wanted : Nat) (l : Layout) : Nat :=
  max 1 (min wanted (min 16 (Config.stagingBlocks / (l.unit * l.n))))

/-- E of a growth step (R17). -/
def stepStop (old new : Layout) (front rows : Nat) : Nat := min ((front + rows) * new.rowBlocks) old.capacity

/-- The source of a growth step: the OLD data units holding blocks Ls to E − 1, ascending by row and data index (R17). -/
def growthSource (old : Layout) (first stop : Nat) : List RowUnit :=
  (List.range ((stop - first) / old.unit)).map (fun i =>
    let c := old.cellOf (first + i * old.unit)
    { row := c.row, pos := c.pos })

/-- The safe row of a mark front (R86). -/
def safeRowOf (old new : Layout) (front : Nat) : Nat := front * new.d / old.d

/-- R of a forming layout: the smaller of floor(extent / U) and floor(2^40 / (U × D)) (R11). -/
def formRows (smallest unit d : Nat) : Nat := min ((smallest - Config.dataBase) / unit) (2 ^ 40 / (unit * d))

/-- The offsets of a unit. -/
def Layout.offsets (l : Layout) : List Nat := List.range l.unit

/-- Every place of a unit. -/
def Layout.unitCells (l : Layout) (u : RowUnit) : List Cell :=
  l.offsets.map (fun o => { row := u.row, pos := u.pos, off := o })

/-- The logical blocks of a run, in order. -/
def runOf (lba count : Nat) : List Nat := (List.range count).map (lba + ·)

/-- Lists of a place's row without repeats, in ascending order of first appearance. -/
def distinctRows (cs : List Cell) : List Nat := (cs.map (·.row)).eraseDups

/-- Ascending consecutive numbers gathered into runs of first and length (R33, R144). -/
def runsOf : List Nat → List (Nat × Nat)
  | [] => []
  | n :: ns =>
    match runsOf ns with
    | [] => [(n, 1)]
    | (m, k) :: rest => if m == n + 1 then (n, k + 1) :: rest else (n, 1) :: (m, k) :: rest

/-- Insertion of a number into an ascending list, leaving out repeats. -/
def insertAsc (n : Nat) : List Nat → List Nat
  | [] => [n]
  | m :: ms => if n < m then n :: m :: ms else if n == m then m :: ms else m :: insertAsc n ms

/-- The numbers of a list in ascending order without repeats. -/
def ascending (ns : List Nat) : List Nat := ns.foldl (fun acc n => insertAsc n acc) []

end Sys2Proof.Machine
end

