-- ==== Sys2Proof/Machine/Tags.lean ====
section
/-! DEFINITION. Guards (R140), tags (R139, R143), judgements of blocks (R142), and the fields of records (R203). -/

namespace Sys2Proof.Machine

/-- One bit of the guard's register: shift, and XOR with the generator when the top bit and the data bit differ (R140). -/
def crcBit (r : BitVec 16) (d : Bool) : BitVec 16 :=
  if r.msb == d then r <<< 1 else (r <<< 1) ^^^ 0x1021#16

/-- The register after the low `n` bits of `m`, the most significant of them first (R140). -/
def crcFrom : Nat → Nat → BitVec 16 → BitVec 16
  | 0, _, r => r
  | n + 1, m, r => crcFrom n m (crcBit r (m.testBit n))

/-- The guard of `n` bits of data, the register starting with all bits set (R140). -/
def crc (n m : Nat) : BitVec 16 := crcFrom n m 0xFFFF#16

/-- The guard of a block's data (R140). -/
def guardOf (d : Data) : BitVec 16 := crc 32768 d.toNat

/-- 4096 zero bytes. -/
def zeroData : Data := 0#32768

/-- A block with the tag the engine gives what it makes: a fresh guard, a reference, an application field (R143). -/
def makeBlock (d : Data) (ref : BitVec 32) (app : BitVec 16) : Block :=
  { data := d, guard := guardOf d, ref := ref, app := app }

/-- A poison block (R139, R143). -/
def poisonBlock : Block := makeBlock zeroData Config.poisonRef 0#16

/-- A zero data block of a logical address (R143). -/
def zeroBlock (lba : Nat) : Block := makeBlock zeroData (BitVec.ofNat 32 lba) 0#16

/-- The block of a reserve-region record written to a member block (R139, R143). -/
def recordBlock (d : Data) (memberBlock : Nat) : Block := makeBlock d (BitVec.ofNat 32 memberBlock) 0#16

/-- Whether a block's guard is the guard of its data. -/
def guardGood (b : Block) : Bool := b.guard == guardOf b.data

/-- The judgement of a block read from a member (R142). -/
inductive Judged where
  | good | poison | tagError
  deriving DecidableEq, Repr

/-- The judgement of a data block of logical address `lba` (R142, R32). -/
def judgeData (lba : Nat) (b : Block) : Judged :=
  if !guardGood b then .tagError
  else if b.ref == BitVec.ofNat 32 lba then .good
  else if b.ref == Config.poisonRef then .poison
  else .tagError

/-- The judgement of any other block, whose reference must be the expected one (R142). -/
def judgeOther (ref : BitVec 32) (b : Block) : Judged :=
  if guardGood b && b.ref == ref then .good else .tagError

/-- What a block counts for in a rebuild: poison counts as zero data with a zero application field (R143, R147). -/
def sourceOf (poison : Bool) (b : Block) : Data × BitVec 16 :=
  if poison then (zeroData, 0#16) else (b.data, b.app)

/-- The XOR of data and of application fields (R33, R36). -/
def xorAll (bs : List (Data × BitVec 16)) : Data × BitVec 16 :=
  bs.foldl (fun a b => (a.1 ^^^ b.1, a.2 ^^^ b.2)) (zeroData, 0#16)

/-- A parity block made of the row's data blocks at an offset (R5, R143). -/
def parityBlock (bs : List (Data × BitVec 16)) : Block :=
  makeBlock (xorAll bs).1 Config.parityRef (xorAll bs).2

/-! ## Fields of records (R203) -/

/-- Bytes `off` to `off + len − 1` of a block's data as an unsigned integer, most significant byte first (R203). -/
def fieldAt (d : Data) (off len : Nat) : Nat :=
  (d.toNat >>> (8 * (4096 - off - len))) % 2 ^ (8 * len)

/-- Data with one field set and every other byte zero (R203). -/
def putField (off len v : Nat) : Data :=
  BitVec.ofNat 32768 ((v % 2 ^ (8 * len)) <<< (8 * (4096 - off - len)))

/-- A record: its fields given by offset, length and value, every other byte zero (R203). -/
def buildRecord (fs : List (Nat × Nat × Nat)) : Data :=
  fs.foldl (fun d f => d ||| putField f.1 f.2.1 f.2.2) zeroData

/-- The guard over the first `n` bytes of a record (R204). -/
def recordGuard (d : Data) (n : Nat) : BitVec 16 := crc (8 * n) (d.toNat >>> (8 * (4096 - n)))

/-- The label guard: bytes 0 to 4093 of block 0, then all of block 1 (R204). -/
def labelGuard (d0 d1 : Data) : BitVec 16 :=
  crc (8 * 4094 + 32768) (((d0.toNat >>> 16) <<< 32768) + d1.toNat)

/-- A flag's value in a record (R203). -/
def bit (b : Bool) : Nat := if b then 1 else 0

end Sys2Proof.Machine
end

