-- ==== Sys2Proof/Machine/Ops.lean ====
section
/-! DEFINITION. The named operations over the state: bays, requests, row lock entries, captures, missing positions. -/

namespace Sys2Proof.Machine

/-! ## Bays -/

/-- A bay's record (R120). -/
def State.bay (s : State) (i : Slot) : Bay := s.shelf.bays[i.val]

/-- A bay's record replaced. -/
def State.setBay (s : State) (i : Slot) (b : Bay) : State :=
  { s with shelf := { s.shelf with bays := s.shelf.bays.set i.val b } }

/-- A bay's record changed. -/
def updBay (i : Slot) (f : Bay → Bay) (s : State) : State := s.setBay i (f (s.bay i))

/-- The 64 bay slots in ascending order. -/
def allSlots : List Slot := List.finRange 64

/-- A change made to every bay. -/
def updAllBays (f : Bay → Bay) (s : State) : State :=
  { s with shelf := { s.shelf with bays := s.shelf.bays.map f } }

/-- Whether a bay is present with the role MEMBER or JOINING: it receives label writes, plan area writes and flushes
(R40, R81, R98). -/
def State.serves (s : State) (i : Slot) : Bool :=
  (s.bay i).present && ((s.bay i).role == .member || (s.bay i).role == .joining)

/-- The present bays whose role is MEMBER or JOINING, ascending. -/
def State.serving (s : State) : List Slot := allSlots.filter s.serves

/-- Whether a bay is ready: present, inquired and its label read (R120). -/
def State.ready (s : State) (i : Slot) : Bool := (s.bay i).present && (s.bay i).readiness == .ready

/-- The slot of a bay of a port (00_scope.md 4.2). -/
def slotOf (p : Port) (b : Fin 16) : Slot := ⟨p.val * 16 + b.val, by omega⟩

/-! ## Internal events -/

/-- An internal event put behind those that wait. -/
def push (e : Ev) (s : State) : State := { s with todo := s.todo ++ [e] }

/-! ## Layouts in force -/

/-- The layout in force of an identity (R2). -/
def State.layout (s : State) (i : LayoutId) : Option Layout := s.plan.layouts.find? (·.id == i)

/-- Whether a GROW plan's layouts are in force (R2). -/
def State.growing (s : State) : Option (Layout × Layout) :=
  match s.layout .old, s.layout .new with
  | some o, some n => some (o, n)
  | _, _ => none

/-- The layout the mover writes: NEW in a growth, ONLY otherwise (R15, R16). -/
def State.written (s : State) : Option Layout :=
  match s.growing with
  | some (_, n) => some n
  | none => s.layout .only

/-- R, 0 when no layout is in force (R11). -/
def State.rows (s : State) : Nat := (s.plan.layouts.head?.map (·.rows)).getD 0

/-- F_end of the growth in force, 0 otherwise (R15). -/
def State.growthEnd (s : State) : Nat :=
  match s.growing with
  | some (o, n) => Sys2Proof.Machine.growthEnd o n
  | none => 0

/-- The end row of the phase (R15). -/
def State.endRow (s : State) : Nat :=
  match s.mover.phase with
  | .none => 0
  | .migrate => s.growthEnd
  | .settle | .rebuild | .form => s.rows

/-- The safe row of the persisted mark, during a growth (R86). -/
def State.safeRow (s : State) : Option Nat := s.growing.map (fun p => safeRowOf p.1 p.2 s.mark.front)

/-! ## Missing positions (R135, R14) -/

/-- Whether a bay's role makes its position missing (R135). -/
def State.roleMissing (s : State) (i : Slot) : Bool := (s.bay i).role == .failed || (s.bay i).role == .stale

/-- Whether a position of a layout is missing by its own bay: FAILED, STALE or VACANT (R135). -/
def State.posMissing (s : State) (l : Layout) (pos : Nat) : Bool :=
  match l.slotAt pos with
  | none => true
  | some i => s.roleMissing i

/-- Whether position q counts as missing for the incoming bay's failure (R135). -/
def State.incomingMissing (s : State) (l : Layout) (pos : Nat) : Bool :=
  match s.plan.incoming with
  | none => false
  | some inc => l.id == .only && pos == inc.q && s.mover.front > 0 && (s.bay inc.slot).role == .failed

/-- Whether a position of a layout in force is missing (R135). -/
def State.missing (s : State) (l : Layout) (pos : Nat) : Bool := s.posMissing l pos || s.incomingMissing l pos

/-- The missing count of a layout (R135). -/
def State.missingCount (s : State) (l : Layout) : Nat := ((List.range l.n).filter (s.missing l)).length

/-- The missing counts of the layouts in force (R136). -/
def State.counts (s : State) : List (LayoutId × Nat) := s.plan.layouts.map (fun l => (l.id, s.missingCount l))

/-- Whether a row of a position is served by the incoming bay: position q, below the front (R14). -/
def State.onIncoming (s : State) (l : Layout) (row pos : Nat) : Option Slot :=
  match s.plan.incoming with
  | none => none
  | some inc => if l.id == .only && pos == inc.q && row < s.mover.front then some inc.slot else none

/-- The bay that holds a position in a row (R6, R14). -/
def State.bayAt (s : State) (l : Layout) (row pos : Nat) : Option Slot :=
  match s.onIncoming l row pos with
  | some i => some i
  | none => l.slotAt pos

/-- Whether a position is missing in a row (R14, R135). -/
def State.missingInRow (s : State) (l : Layout) (row pos : Nat) : Bool :=
  match s.bayAt l row pos with
  | none => true
  | some i => s.roleMissing i

/-- The tolerance (R136). -/
def State.tolerance (s : State) : Nat := if s.ctl.tuning.degradedContinue then 1 else 0

/-! ## Remap entries (R7, R151) -/

/-- The remap entry that applies to a member row of a bay (R7, R151). -/
def State.remapOf (s : State) (i : Slot) (row : Nat) : Option Remap :=
  (s.bay i).remaps.find? (fun r => r.row == row && !r.filling)

/-- Whether a member row of a bay is being filled (R151). -/
def State.fillingAt (s : State) (i : Slot) (row : Nat) : Bool :=
  (s.bay i).remaps.any (fun r => r.row == row && r.filling)

/-- The member block of a place at a bay after remapping (R7). -/
def State.physical (s : State) (i : Slot) (unit row off : Nat) : Nat :=
  match s.remapOf i row with
  | some r => Config.spareBase + r.spare * Config.spareSize + off
  | none => Config.dataBase + row * unit + off

/-! ## Captures (R148, R149) -/

/-- The layout and position that a member row of a bay belongs to now (R8): during a growth NEW below the front and OLD
otherwise, an added bay always NEW. -/
def State.placeOf (s : State) (i : Slot) (row : Nat) : Option (Layout × Nat) :=
  match s.growing with
  | some (o, n) =>
    let inNew := (n.posOf i).map (fun p => (n, p))
    if row < s.mover.front then inNew
    else match o.posOf i with
      | some p => some (o, p)
      | none => inNew
  | none =>
    match s.layout .only with
    | none => none
    | some l =>
      match s.plan.incoming with
      | some inc => if inc.slot == i then some (l, inc.q) else (l.posOf i).map (fun p => (l, p))
      | none => (l.posOf i).map (fun p => (l, p))

/-- The member row and offset of a member block in the data area or in a spare slot named by an entry (R8). -/
def State.homeOf (s : State) (i : Slot) (block : Nat) : Option (Nat × Nat) :=
  match s.plan.layouts.head? with
  | none => none
  | some l =>
    if Config.dataBase ≤ block then
      let row := (block - Config.dataBase) / l.unit
      if row < l.rows then some (row, block - Config.dataBase - row * l.unit) else none
    else if Config.spareBase ≤ block && block < Config.spareBase + 8 * Config.spareSize then
      let sp := (block - Config.spareBase) / Config.spareSize
      ((s.bay i).remaps.find? (·.spare == sp)).map
        (fun r => (r.row, block - Config.spareBase - sp * Config.spareSize))
    else none

/-- The logical block of a member block now (R8). -/
def State.lbaAt (s : State) (i : Slot) (block : Nat) : Option Nat :=
  match s.homeOf i block with
  | none => none
  | some (row, off) =>
    match s.placeOf i row with
    | none => none
    | some (l, p) => l.lbaOf { row := row, pos := p, off := off }

/-- A kind's count raised by one, stopping at 65535 (R148). -/
def CaptureCounts.add (c : CaptureCounts) : CaptureKind → CaptureCounts
  | .hostTag => { c with hostTag := bump c.hostTag }
  | .memberTag => { c with memberTag := bump c.memberTag }
  | .mediaRead => { c with mediaRead := bump c.mediaRead }
  | .mediaWrite => { c with mediaWrite := bump c.mediaWrite }
  | .timeout => { c with timeout := bump c.timeout }
  | .poisonWritten => { c with poisonWritten := bump c.poisonWritten }

/-- A capture is taken: its count rises, FIRST fills an empty record and LATEST replaces it, DATA_ERROR is raised (R149). -/
def takeCapture (c : Capture) (s : State) : State :=
  raise .dataError
    { s with integ :=
      { s.integ with
        counts := s.integ.counts.add c.kind
        capture := if s.ctl.tuning.captureLatest || s.integ.capture.isNone then some c else s.integ.capture } }

/-- A capture of a member block, its row and logical address by R8 (R149). -/
def captureAt (k : CaptureKind) (i : Slot) (block : Nat) (s : State) : State :=
  takeCapture
    { kind := k, slot := some i, block := some block, row := (s.homeOf i block).map (·.1), lba := s.lbaAt i block } s

/-- Insertion of an item before any item of an equal or greater key. -/
def insertLeft {α : Type} (key : α → Nat) (a : α) : List α → List α
  | [] => [a]
  | b :: bs => if key a ≤ key b then a :: b :: bs else b :: insertLeft key a bs

/-- A list in ascending order of a key, equal keys kept in order. -/
def sortBy {α : Type} (key : α → Nat) (xs : List α) : List α := xs.foldr (insertLeft key) []

/-- A tag error: the bay's count rises and MEMBER_TAG is captured (R142). -/
def tagErrorAt (i : Slot) (block : Nat) (s : State) : State :=
  captureAt .memberTag i block (updBay i (fun b => { b with tagErrors := bump b.tagErrors }) s)

/-! ## Requests -/

/-- The entry of an arrival number. -/
def State.req (s : State) (arrival : Nat) : Option Entry := s.port.entries.find? (·.arrival == arrival)

/-- A request's entry changed. -/
def updReq (arrival : Nat) (f : Entry → Entry) (s : State) : State :=
  { s with port :=
    { s.port with entries := s.port.entries.map (fun e => if e.arrival == arrival then f e else e) } }

/-- A completion is sent with the marker of this moment (R20, R41). -/
def send (tag : Tag) (st : Status) (failing : Option Nat) (data : List Block) (s : State) : State :=
  { s with out := s.out ++ [{ tag := tag, status := st, failing := failing, marker := marker s, data := data }] }

/-- An entry is freed (R21). -/
def freeEntry (arrival : Nat) (s : State) : State :=
  { s with port := { s.port with entries := s.port.entries.filter (·.arrival != arrival) } }

/-! ## Row lock entries (R27) -/

/-- A lock entry in use: it has a holder, readers or waiters (R27). -/
def LockEntry.used (e : LockEntry) : Bool := e.holder.isSome || !e.readers.isEmpty || !e.waiters.isEmpty

/-- Every lock entry changed, the unused ones removed (R27). -/
def updLocks (f : LockEntry → LockEntry) (s : State) : State :=
  { s with locks := { s.locks with entries := (s.locks.entries.map f).filter LockEntry.used } }

/-- A lock entry without a given arrival number. -/
def LockEntry.without (a : Nat) (e : LockEntry) : LockEntry :=
  { e with
    holder := if e.holder == some a then none else e.holder
    readers := e.readers.filter (· != a)
    waiters := e.waiters.filter (·.arrival != a) }

/-- A request or settle step leaves the row lock table altogether: its keys given up, its waits and its place among the
queued ones (R29, R43, R71). -/
def leaveLocks (a : Nat) (s : State) : State :=
  let s := updLocks (LockEntry.without a) s
  { s with locks := { s.locks with queued := s.locks.queued.filter (·.arrival != a) } }

/-- One key given up (R29). -/
def giveUpKey (a : Nat) (k : Key) (s : State) : State :=
  updLocks (fun e => if e.key == k then e.without a else e) s

/-- Whether a reader belongs to a request: a part of a READ or a row of a WRITE. -/
def Reader.ofRequest (a : Nat) : Reader → Bool
  | .part b _ => b == a
  | .row b _ => b == a
  | .step _ => false
  | .fill _ _ => false

/-- The repair candidates of a request's readers are struck out, the readers having ended (R144). -/
def strikeRequest (a : Nat) (s : State) : State :=
  { s with integ := { s.integ with candidates := s.integ.candidates.filter (fun c => !c.reader.ofRequest a) } }

/-- The repair candidates of a reader are struck out (R144). -/
def strikeReader (r : Reader) (s : State) : State :=
  { s with integ := { s.integ with candidates := s.integ.candidates.filter (fun c => c.reader != r) } }

/-- A request completes: its keys and its readers' candidates are given up, its entry freed and its completion sent (R24,
R29, R144). -/
def complete (e : Entry) (st : Status) (failing : Option Nat) (data : List Block) (s : State) : State :=
  send e.tag st failing data (freeEntry e.arrival (leaveLocks e.arrival (strikeRequest e.arrival s)))

/-! ## Steps -/

/-- The step in a staging slot (R47). -/
def State.stepIn (s : State) : Staging → Option Step
  | .a => s.mover.slotA
  | .b => s.mover.slotB

/-- A staging slot's contents replaced. -/
def setStep (g : Staging) (v : Option Step) (s : State) : State :=
  match g with
  | .a => { s with mover := { s.mover with slotA := v } }
  | .b => { s with mover := { s.mover with slotB := v } }

/-- A step's record changed. -/
def updStep (g : Staging) (f : Step → Step) (s : State) : State := setStep g ((s.stepIn g).map f) s

/-- The steps the mover holds, with their slots. -/
def State.steps (s : State) : List (Staging × Step) :=
  (s.mover.slotA.map (fun t => (Staging.a, t))).toList ++ (s.mover.slotB.map (fun t => (Staging.b, t))).toList

/-- Past FREEZE: a step that has entered FREEZE and has not retired (R50). -/
def Stage.pastFreeze : Stage → Bool
  | .freeze | .spill | .place | .mark => true
  | .gather | .retire | .abandoned => false

/-- The mover is at rest: it holds no step past FREEZE (R72). -/
def State.atRest (s : State) : Bool := s.steps.all (fun p => !p.2.stage.pastFreeze)

/-- The mark state as F, Fm and the steps past FREEZE give it (R79). -/
def refreshMark (s : State) : State :=
  match s.mark.state with
  | .off | .initial => s
  | .clean | .dirty =>
    { s with mark :=
      { s.mark with state := if s.mover.front == s.mark.front && s.atRest then .clean else .dirty } }

end Sys2Proof.Machine
end

