-- ==== Sys2Proof/Machine/Shelf.lean ====
section
/-! DEFINITION. Member operations: handing over, wait lists, the pace arbiter, and the integrity unit's watch over
data-area operations (R76, R77, R126 to R128, R144, R145, R153). -/

namespace Sys2Proof.Machine

/-! ## The pace arbiter (R76, R77) -/

/-- The operation a free issue slot of a bay is granted to, and for a contested grant whether the mover gets it (R76). -/
def chooseOp (pace : Nat) (b : Bay) : Option (MemberOp × Option Bool) :=
  match b.wait.find? (·.cls == .mark), b.wait.find? (·.cls == .host), b.wait.find? (·.cls == .mover) with
  | some m, _, _ => some (m, none)
  | none, some h, none => some (h, none)
  | none, none, some v => some (v, none)
  | none, some h, some v =>
    if b.moverCount * 16 < pace * (b.contest + 1) then some (v, some true) else some (h, some false)
  | none, none, none => none

/-- The contest position and mover count after a grant (R77). -/
def afterGrant (contested : Option Bool) (b : Bay) : Bay :=
  match contested with
  | none => b
  | some m =>
    if b.contest + 1 == 16 then { b with contest := 0, moverCount := 0 }
    else { b with contest := b.contest + 1, moverCount := if m then b.moverCount + 1 else b.moverCount }

/-- Operations leave the backlog, oldest first, one for each place of the wait list that has fallen below 3840 (R127). -/
def refill (b : Bay) : Bay :=
  let n := Config.waitLimit - b.wait.length
  { b with wait := b.wait ++ b.backlog.take n, backlog := b.backlog.drop n }

/-- One grant at a bay, when an issue slot is free and an operation waits (R128). -/
def grantOne (pace : Nat) (b : Bay) : Bay :=
  if b.issued.length < Config.issueSlots then
    match chooseOp pace b with
    | none => b
    | some (op, contested) =>
      let b := { b with wait := b.wait.filter (·.id != op.id), issued := b.issued ++ [{ op := op, sending := 1, expiries := 0, medias := 0 }] }
      refill (afterGrant contested b)
  else b

/-- Grants at a bay until no slot is free or nothing waits: at most one for each of the 16 slots (R128). -/
def grantBay (pace : Nat) : Nat → Bay → Bay
  | 0, b => b
  | n + 1, b => grantBay pace n (grantOne pace b)

/-- The grants a bay's free slots allow now (R128). -/
def grants (i : Slot) (s : State) : State :=
  updBay i (grantBay s.ctl.tuning.pace Config.issueSlots) s

/-! ## Handing over (R126, R127) -/

/-- Whether an operation is one that a present bay with the role FAILED is still sent (R126). -/
def Owner.isScan : Owner → Bool
  | .inquire | .labelRead => true
  | _ => false

/-- An operation enters a bay's wait list, or its backlog (R127). -/
def waitIn (op : MemberOp) (b : Bay) : Bay :=
  if op.cls == .mark || b.wait.length < Config.waitLimit then { b with wait := b.wait ++ [op] }
  else { b with backlog := b.backlog ++ [op] }

/-- An operation is handed to the shelf unit: GONE at once at an absent or FAILED bay, else it waits for a grant (R126). -/
def enqueue (op : MemberOp) (s : State) : State :=
  let b := s.bay op.slot
  if !b.present || (b.role == .failed && !op.owner.isScan) then push (.opEnd op .gone) s
  else grants op.slot (updBay op.slot (waitIn op) s)

/-- First member block and number of blocks of an operation. -/
def OpKind.span : OpKind → Nat × Nat
  | .read f c => (f, c)
  | .write f bs => (f, bs.length)
  | .flush => (0, 0)
  | .inquire => (0, 0)

/-- Whether an operation is a WRITE. -/
def OpKind.isWrite : OpKind → Bool
  | .write _ _ => true
  | _ => false

/-- An operation moved to begin at another member block (R7). -/
def OpKind.moveTo (first : Nat) : OpKind → OpKind
  | .read _ c => .read first c
  | .write _ bs => .write first bs
  | k => k

/-- Whether two runs of member blocks overlap. -/
def overlaps (a b : Nat × Nat) : Bool := a.1 < b.1 + b.2 && b.1 < a.1 + a.2

/-- The stripe unit in force, 16 when no layout is. -/
def State.unit (s : State) : Nat := (s.plan.layouts.head?.map (·.unit)).getD 16

/-- The member rows a data-area operation touches. -/
def State.rowsOf (s : State) (op : MemberOp) : List Nat :=
  match op.home with
  | none => []
  | some (row, off) => (List.range ((off + op.kind.span.2 + s.unit - 1) / s.unit)).map (row + ·)

/-- A data-area operation redirected to the spare slot of its member row, where an entry applies (R7). -/
def redirect (s : State) (op : MemberOp) : MemberOp :=
  match op.home with
  | none => op
  | some (row, off) =>
    match s.remapOf op.slot row with
    | none => op
    | some r => { op with kind := op.kind.moveTo (Config.spareBase + r.spare * Config.spareSize + off) }

/-- Whether an operation is one of the fill's own for a member row of a bay (R153). -/
def Owner.fills (i : Slot) (row : Nat) : Owner → Bool
  | .fillRead j r => i == j && row == r
  | .spareWrite j r => i == j && row == r
  | _ => false

/-- Whether a unit the operation touches is being filled by another (R153). -/
def State.heldByFill (s : State) (op : MemberOp) : Bool :=
  (s.rowsOf op).any (fun r => s.fillingAt op.slot r && !op.owner.fills op.slot r)

/-- Whether a WRITE overlaps another's entry of the repair list at its bay (R145). -/
def State.heldByRepair (s : State) (op : MemberOp) : Bool :=
  op.kind.isWrite
    && s.integ.repairs.any (fun r => r.op != op.id && r.slot == op.slot && overlaps (r.first, r.count) op.kind.span)

/-- Repair candidates a WRITE covers are struck out (R144). -/
def strikeCovered (op : MemberOp) (s : State) : State :=
  if op.kind.isWrite then
    { s with integ :=
      { s.integ with candidates :=
        s.integ.candidates.filter (fun c => !(c.slot == op.slot && overlaps (c.block, 1) op.kind.span)) } }
  else s

/-- A write-back joins the repair list as it passes to the shelf unit (R145). -/
def noteRepair (op : MemberOp) (s : State) : State :=
  if op.owner == .writeBack then
    { s with integ :=
      { s.integ with repairs :=
        s.integ.repairs.filter (·.op != op.id) ++ [{ op := op.id, slot := op.slot, first := op.kind.span.1, count := op.kind.span.2 }] } }
  else s

/-- A data-area or spare-slot operation passes through the integrity unit: redirected, held behind a fill or a write-back,
or handed on to the shelf unit (R7, R144, R145, R153). -/
def handData (op : MemberOp) (s : State) : State :=
  let op := redirect s op
  let s := strikeCovered op s
  if s.heldByFill op || s.heldByRepair op then
    { s with integ := { s.integ with held := s.integ.held ++ [op] } }
  else enqueue op (noteRepair op s)

/-- The number the next operation takes, and the state with the number used (log entry 4). -/
def takeOp (s : State) : Nat × State :=
  (s.shelf.nextOp, { s with shelf := { s.shelf with nextOp := s.shelf.nextOp + 1 } })

/-- A reserve-region operation, FLUSH or INQUIRE is made and handed over. -/
def handReserve (i : Slot) (cls : OpClass) (kind : OpKind) (owner : Owner) (s : State) : State :=
  enqueue { id := (takeOp s).1, slot := i, cls := cls, kind := kind, owner := owner, home := none } (takeOp s).2

/-- A data-area operation of a unit is made and handed over; its member block is the one of R6 before remapping. -/
def handUnit (i : Slot) (cls : OpClass) (unit row off : Nat) (kind : Nat → OpKind) (owner : Owner) (s : State) : State :=
  handData
    { id := (takeOp s).1, slot := i, cls := cls, kind := kind (Config.dataBase + row * unit + off), owner := owner,
      home := some (row, off) } (takeOp s).2

/-- Rows `row` to `row + n − 1` cut at every row for which the bay has a remap entry (R59, R68): first row and length. -/
def cutRows (s : State) (i : Slot) (row n : Nat) : List (Nat × Nat) :=
  ((List.range n).map (row + ·)).foldl
    (fun acc r =>
      let special := (s.bay i).remaps.any (·.row == r)
      match acc.getLast? with
      | none => [(r, 1)]
      | some (r0, k) =>
        if special || (s.bay i).remaps.any (·.row == r0) then acc ++ [(r, 1)] else acc.dropLast ++ [(r0, k + 1)])
    []

/-- The step an operation of whole rows belongs to: a gathered column, a place write or a restored step's place write (R59,
R68, R183). -/
def Owner.columnStep : Owner → Option Staging
  | .gather g => some g
  | .place g => some g
  | .restorePlace => some .a
  | _ => none

/-- Rows `row` to `row + n − 1` of a column operation that begins at row `first`, as an operation of their own (R7, R59). -/
def OpKind.piece (unit first row n : Nat) : OpKind → Nat → OpKind
  | .read _ _, b => .read b (n * unit)
  | .write _ blocks, b => .write b ((blocks.drop ((row - first) * unit)).take (n * unit))
  | k, _ => k

/-- The places of some rows that waited for one operation wait for another. -/
def Fetch.reassign (op id row n : Nat) (f : Fetch) : Fetch :=
  { f with cells := f.cells.map (fun x =>
      if x.2 == .waiting op && decide (row ≤ x.1.row && x.1.row < row + n) then (x.1, .waiting id) else x) }

/-- One piece of a held column operation is handed over in its place: its step waits for one operation more, and the places
that waited for the whole wait for the piece (R7, R59, R68). -/
def handPiece (g : Staging) (op : MemberOp) (first : Nat) (cut : Nat × Nat) (s : State) : State :=
  let id := s.shelf.nextOp
  let s := updStep g (fun t =>
    { t with outstanding := t.outstanding + 1, fetch := t.fetch.reassign op.id id cut.1 cut.2 }) s
  handUnit op.slot op.cls s.unit cut.1 0 (op.kind.piece s.unit first cut.1 cut.2) op.owner s

/-- A held operation goes on; one of several rows that now covers a remapped row is cut there first, each piece going to its
own place (R7, R59, R68, R153). -/
def handHeld (op : MemberOp) (s : State) : State :=
  match op.owner.columnStep, op.home with
  | some g, some (row, 0) =>
    let cuts := cutRows s op.slot row (op.kind.span.2 / s.unit)
    if cuts.length ≤ 1 then handData op s
    else
      cuts.foldl (fun s c => handPiece g op row c s) (updStep g (fun t => { t with outstanding := t.outstanding - 1 }) s)
  | _, _ => handData op s

/-- The held operations go on, each held again if it still must be (R145, R153). -/
def releaseHeld (s : State) : State :=
  let ops := s.integ.held
  ops.foldl (fun s op => handHeld op s) { s with integ := { s.integ with held := [] } }

/-- The operations of a member row's unit that still wait at a bay come back to the integrity unit when its filling begins,
so that none reaches the drive before the unit has moved (R153; DEDUCED, log entry 9). They stand among the held ones in the
order they were handed over, so that a write-back stays ahead of a newer WRITE (R145), and the backlog takes the places they
leave (R127). -/
def recallUnit (i : Slot) (row : Nat) (s : State) : State :=
  let hit := fun (op : MemberOp) => (s.rowsOf op).contains row
  let ops := ((s.bay i).wait ++ (s.bay i).backlog).filter hit
  let s := updBay i (fun b =>
    refill { b with wait := b.wait.filter (fun o => !hit o), backlog := b.backlog.filter (fun o => !hit o) }) s
  { s with integ := { s.integ with held := sortBy (·.id) (s.integ.held ++ ops) } }

/-! ## Operations of a bay -/

/-- Every operation of a bay, waiting or issued. -/
def Bay.ops (b : Bay) : List MemberOp := b.issued.map (·.op) ++ b.wait ++ b.backlog

/-- Every operation of the engine not yet ended: at the bays and held in the integrity unit. -/
def State.allOps (s : State) : List MemberOp := allSlots.flatMap (fun i => (s.bay i).ops) ++ s.integ.held

/-- All operations of a bay end GONE; a drained one ends without a result (R124, R132, R137). -/
def endAllGone (i : Slot) (s : State) : State :=
  let ops := (s.bay i).ops
  let s := updBay i (fun b => { b with wait := [], backlog := [], issued := [] }) s
  ops.foldl (fun s op => push (.opEnd op .gone) s) s

/-- The issued operation an answer or a timer names, when it is the latest sending (R129). -/
def State.issuedAt (s : State) (r : OpRef) : Option Issued :=
  (s.bay r.slot).issued.find? (fun x => x.op.id == r.op && x.sending == r.sending)

/-- An operation leaves its issue slot, which is granted again (R128). -/
def freeIssue (i : Slot) (op : Nat) (s : State) : State :=
  grants i (updBay i (fun b => { b with issued := b.issued.filter (·.op.id != op) }) s)

/-- An issued operation is sent to the drive again in the same slot with a fresh timer (R129, R131). -/
def resend (i : Slot) (op : Nat) (f : Issued → Issued) (s : State) : State :=
  updBay i (fun b =>
    { b with issued := b.issued.map (fun x => if x.op.id == op then { f x with sending := x.sending + 1 } else x) }) s

end Sys2Proof.Machine
end

