-- ==== Sys2Proof/Machine/Holding.lean ====
section
/-! DEFINITION. Pieces, the hold question and the hold queue, and the row lock table (R9, R13, R24 to R31, R64 to R66,
R83, R90). -/

namespace Sys2Proof.Machine

/-! ## Causes of a label write (R83) -/

/-- A cause arrives at the mark unit and waits, without duplicates: one raised again counts from now, so that a write
already in flight does not serve it. The label write itself begins by `ruleLabel` (R83). -/
def raiseCause (k : CauseKind) (s : State) : State :=
  { s with mark :=
    { s.mark with causes :=
      if s.mark.causes.any (·.kind == k) then
        s.mark.causes.map (fun c => if c.kind == k then { c with served := false } else c)
      else s.mark.causes ++ [{ kind := k, served := false }] } }

/-! ## Pieces (R9, R13) -/

/-- The layout of a logical block: NEW below the boundary B of a growth, OLD above it, ONLY otherwise (R13, R14). -/
def State.layoutFor (s : State) (lba : Nat) : Option Layout :=
  match s.growing with
  | some (o, n) => if lba < s.mover.front * n.rowBlocks then some n else some o
  | none => s.layout .only

/-- The places of a run of logical blocks, in ascending order, each with its layout (R9). -/
def State.places (s : State) (lba count : Nat) : List (Layout × Cell × Nat) :=
  (runOf lba count).filterMap (fun a => (s.layoutFor a).map (fun l => (l, l.cellOf a, a)))

/-- The row lock keys of a run: NEW before OLD and ascending by row, which ascending addresses give (R27). -/
def State.keysFor (s : State) (lba count : Nat) : List Key :=
  ((s.places lba count).map (fun p => { layout := p.1.id, row := p.2.1.row : Key })).eraseDups

/-! ## The hold question (R26, R64, R90) -/

/-- Whether a step of a stage holds a request with a block in it (R64). -/
def Step.holdsKind (t : Step) (write : Bool) : Bool :=
  match t.stage with
  | .gather => write && t.pinned
  | .freeze | .spill => write
  | .place | .mark => true
  | .retire | .abandoned => false

/-- Whether a request has a block in a step (R64). -/
def State.hasBlockIn (s : State) (t : Step) (lba count : Nat) : Bool :=
  match t.kind with
  | .migrate => t.first < lba + count && lba < t.stop
  | .rebuild =>
    (s.places lba count).any (fun p => t.front ≤ p.2.1.row && p.2.1.row < t.front + t.rows)
  | .settle | .form | .none => false

/-- The front of the step that holds a request, the lower one when two hold it (R64). -/
def State.holdingStep (s : State) (write : Bool) (lba count : Nat) : Option Nat :=
  ((s.steps.filter (fun p => p.2.holdsKind write && s.hasBlockIn p.2 lba count)).map (·.2.front)).min?

/-- The unmarked band: its first block and the block after its last (R90). -/
def State.band (s : State) : Option (Nat × Nat) :=
  s.growing.map (fun p => (s.mark.front * p.2.rowBlocks, min (s.mover.front * p.2.rowBlocks) p.1.capacity))

/-- Whether a run has a block in the unmarked band (R90). -/
def State.inBand (s : State) (lba count : Nat) : Bool :=
  match s.band with
  | none => false
  | some (b, e) => lba < e && b < lba + count && b < e

/-- Whether some held request has a block in the unmarked band (R83, R89). -/
def State.bandHeld (s : State) : Bool :=
  s.holds.any (fun h => match s.req h.arrival with
    | none => false
    | some e => s.inBand e.lba e.count)

/-- The answer to the hold question: the reason to hold, if any (R26, R64, R90). -/
def State.holdReason (s : State) (e : Entry) : Option HoldReason :=
  match s.holdingStep (e.kind == .write) e.lba e.count with
  | some f => some (.step f)
  | none => if e.kind == .write && s.inBand e.lba e.count then some .mark else none

/-- An entry enters the hold queue at the place its arrival number gives (R65). -/
def insertHold (h : HoldEntry) : List HoldEntry → List HoldEntry
  | [] => [h]
  | x :: xs => if h.arrival < x.arrival then h :: x :: xs else x :: insertHold h xs

/-- A request is held whole; a write with a block in the band raises BAND (R26, R65, R90). -/
def holdRequest (e : Entry) (r : HoldReason) (s : State) : State :=
  let s := { s with holds := insertHold { tag := e.tag, arrival := e.arrival, reason := r } s.holds }
  let s := updReq e.arrival (fun e => { e with state := .held }) s
  if e.kind == .write && s.inBand e.lba e.count then raiseCause .band s else s

/-- The entries of a reason leave the hold queue in ascending arrival number, each to be asked afresh (R65, R66). -/
def releaseHolds (p : HoldReason → Bool) (s : State) : State :=
  let out := s.holds.filter (fun h => p h.reason)
  let s := { s with holds := s.holds.filter (fun h => !p h.reason) }
  out.foldl (fun s h => push (.release h.arrival) s) s

/-! ## Row locks (R27, R28, R30) -/

/-- The lock entry of a key. -/
def State.lockAt (s : State) (k : Key) : Option LockEntry := s.locks.entries.find? (·.key == k)

/-- Keys that have no entry yet (R27). -/
def State.newKeys (s : State) (ks : List Key) : List Key := ks.filter (fun k => (s.lockAt k).isNone)

/-- Whether the keys fit the free entries (R27). -/
def State.lockFits (s : State) (ks : List Key) : Bool :=
  s.locks.entries.length + (s.newKeys ks).length ≤ Config.maxLocks

/-- A waiter enters a list at the place its arrival number gives, once (R27). -/
def insertWaiter (w : Waiter) : List Waiter → List Waiter
  | [] => [w]
  | x :: xs =>
    if w.arrival < x.arrival then w :: x :: xs
    else if w.arrival == x.arrival then x :: xs
    else x :: insertWaiter w xs

/-- A request or settle step enters the waiter lists of all its keys (R27, R28). -/
def joinKeys (a : Nat) (write : Bool) (ks : List Key) (s : State) : State :=
  let fresh := (s.newKeys ks).map (fun k => { key := k, holder := none, readers := [], waiters := [] : LockEntry })
  let w : Waiter := { arrival := a, write := write }
  { s with locks :=
    { s.locks with entries :=
      (s.locks.entries ++ fresh).map (fun e =>
        if ks.contains e.key then { e with waiters := insertWaiter w e.waiters } else e) } }

/-- A queued place by arrival number (R27). -/
def insertQueued (q : QueuedLock) : List QueuedLock → List QueuedLock
  | [] => [q]
  | x :: xs => if q.arrival < x.arrival then q :: x :: xs else x :: insertQueued q xs

/-- A request's or settle step's keys are joined at once when they fit and none is queued ahead, else it is QUEUED (R27;
log entry 8). -/
def joinOrQueue (a : Nat) (write : Bool) (ks : List Key) (s : State) : State × Bool :=
  if s.lockFits ks && s.locks.queued.all (fun q => a < q.arrival) then (joinKeys a write ks s, true)
  else
    ({ s with locks :=
      { s.locks with queued := insertQueued { arrival := a, write := write, keys := ks } s.locks.queued } }, false)

/-- Whether a waiter may be granted one key (R28). -/
def LockEntry.grantable (e : LockEntry) (a : Nat) (write : Bool) : Bool :=
  e.holder.isNone
    && (if write then e.readers.isEmpty && e.waiters.all (fun w => a ≤ w.arrival)
        else e.waiters.all (fun w => !w.write || a ≤ w.arrival))

/-- Whether a waiter may be granted all its keys together (R28). -/
def State.grantable (s : State) (a : Nat) (write : Bool) (ks : List Key) : Bool :=
  ks.all (fun k => match s.lockAt k with
    | none => false
    | some e => e.grantable a write && e.waiters.any (·.arrival == a))

/-- A waiter is granted its keys: it leaves the waiter lists, a write becomes holder and a read a reader (R28). -/
def grantKeys (a : Nat) (write : Bool) (ks : List Key) (s : State) : State :=
  updLocks (fun e =>
    if ks.contains e.key then
      let e := e.without a
      if write then { e with holder := some a } else { e with readers := e.readers ++ [a] }
    else e) s

/-- One layout identity renamed in a key (R30). -/
def Key.rename (src dst : LayoutId) (k : Key) : Key := if k.layout == src then { k with layout := dst } else k

/-- One layout identity renamed in a layout record (R3). -/
def Layout.rename (src dst : LayoutId) (l : Layout) : Layout := if l.id == src then { l with id := dst } else l

/-- The layouts a request's parts and rows work under, changed. -/
def Entry.mapLayouts (f : Layout → Layout) (e : Entry) : Entry :=
  { e with
    reads := e.reads.map (fun x => { x with layout := f x.layout })
    rows := e.rows.map (fun w => { w with layout := f w.layout, fetch := { w.fetch with layout := f w.fetch.layout } }) }

/-- The layout in force that now bears a record's identity, or the record as it was. -/
def State.layoutNow (s : State) (l : Layout) : Layout := (s.layout l.id).getD l

/-- Work in progress goes on under the layouts now in force (R3, R30). -/
def syncLayouts (s : State) : State :=
  { s with
    port := { s.port with entries := s.port.entries.map (Entry.mapLayouts s.layoutNow) }
    integ :=
      { s.integ with fills :=
        s.integ.fills.map (fun f => { f with fetch := { f.fetch with layout := s.layoutNow f.fetch.layout } }) } }

/-- The row lock table and the requests' keys and parts renamed so that each keeps naming the same member rows (R30). -/
def renameKeys (src dst : LayoutId) (s : State) : State :=
  { s with
    locks :=
      { entries := s.locks.entries.map (fun e => { e with key := e.key.rename src dst })
        queued := s.locks.queued.map (fun q => { q with keys := q.keys.map (Key.rename src dst) }) }
    port :=
      { s.port with entries := s.port.entries.map (fun e =>
          Entry.mapLayouts (Layout.rename src dst) { e with keys := e.keys.map (Key.rename src dst) }) } }

/-- A request goes to the hold queue or to the row lock table, cut under the front and layouts in force (R26, R27). -/
def enterPath (a : Nat) (s : State) : State :=
  match s.req a with
  | none => s
  | some e =>
    match s.holdReason e with
    | some r => holdRequest e r s
    | none =>
      let ks := s.keysFor e.lba e.count
      let r := joinOrQueue a (e.kind == .write) ks s
      updReq a (fun e => { e with keys := ks, state := if r.2 then .locking else .queued }) r.1

/-- A released request is cut afresh and asked the hold question again, or completes NOT_READY when OFFLINE (R26, R66). -/
def releaseRequest (a : Nat) (s : State) : State :=
  match s.req a with
  | none => s
  | some e =>
    if e.state != .held then s
    else if s.ctl.volume == .offline then complete e .notReady none [] s
    else enterPath a s

end Sys2Proof.Machine
end

