-- ==== Sys2Proof/Machine/Operands.lean ====
section
/-! DEFINITION. The operand forms: the directive record (11.3), the plan record (11.4), the tuning values and their
clamping (R196), and the codes of enumerated fields (11.2). -/

namespace Sys2Proof.Machine

/-- A byte field of a record. -/
def byteAt (d : Data) (off : Nat) : BitVec 8 := BitVec.ofNat 8 (fieldAt d off 1)

/-- The directive record of a block written to window block +0 (11.3). -/
def directiveOf (d : Data) : Directive :=
  { code := byteAt d 0,
    args :=
      { seq := BitVec.ofNat 16 (fieldAt d 2 2), bay := byteAt d 4, pointer := byteAt d 5,
        tuningMask := BitVec.ofNat 16 (fieldAt d 6 2),
        tuning :=
          { stepRows := byteAt d 8, pace := byteAt d 9, markInterval := byteAt d 10, stainLimit := byteAt d 11,
            captureMode := byteAt d 12, degradedContinue := byteAt d 13, linkResetRestart := byteAt d 14 },
        eventMask := BitVec.ofNat 16 (fieldAt d 16 2) } }

/-- A written count clamped into 1 to `top` (R196). -/
def clampCount (top : Nat) (v : BitVec 8) : Nat := max 1 (min top v.toNat)

/-- Whether a written count was clamped (R196). -/
def countClamped (top : Nat) (v : BitVec 8) : Bool := v.toNat == 0 || v.toNat > top

/-- A written switch: above 1 becomes 1 (R196). -/
def clampSwitch (v : BitVec 8) : Bool := v.toNat != 0

/-- Whether a written switch was clamped (R196). -/
def switchClamped (v : BitVec 8) : Bool := v.toNat > 1

/-- The tuning values after SET-TUNING: each selected value taken and clamped, the others left (R196). -/
def tunedBy (m : BitVec 16) (v : TuningBytes) (t : Tuning) : Tuning :=
  { stepRows := if m.getLsbD 0 then clampCount 16 v.stepRows else t.stepRows
    pace := if m.getLsbD 1 then clampCount 16 v.pace else t.pace
    markInterval := if m.getLsbD 2 then clampCount 64 v.markInterval else t.markInterval
    stainLimit := if m.getLsbD 3 then clampCount 7 v.stainLimit else t.stainLimit
    captureLatest := if m.getLsbD 4 then clampSwitch v.captureMode else t.captureLatest
    degradedContinue := if m.getLsbD 5 then clampSwitch v.degradedContinue else t.degradedContinue
    linkResetRestart := if m.getLsbD 6 then clampSwitch v.linkResetRestart else t.linkResetRestart }

/-- Whether SET-TUNING clamps any selected value (R196). -/
def tuningAdjusted (m : BitVec 16) (v : TuningBytes) : Bool :=
  (m.getLsbD 0 && countClamped 16 v.stepRows) || (m.getLsbD 1 && countClamped 16 v.pace)
    || (m.getLsbD 2 && countClamped 64 v.markInterval) || (m.getLsbD 3 && countClamped 7 v.stainLimit)
    || (m.getLsbD 4 && switchClamped v.captureMode) || (m.getLsbD 5 && switchClamped v.degradedContinue)
    || (m.getLsbD 6 && switchClamped v.linkResetRestart)

/-- The seven tuning values in tuning-bit order (11.2). -/
def Tuning.toList (t : Tuning) : List Nat :=
  [t.stepRows, t.pace, t.markInterval, t.stainLimit, bit t.captureLatest, bit t.degradedContinue, bit t.linkResetRestart]

/-! ## Codes (11.2) -/

def engineCode : EngineState → Nat
  | .idle => 1 | .waiting => 2 | .preparing => 3 | .running => 4 | .paused => 5 | .settling => 6 | .closing => 7
  | .suspended => 8 | .halted => 9

def engineCodeOpt : Option EngineState → Nat
  | none => 0
  | some e => engineCode e

def volumeCode : VolumeState → Nat
  | .none => 1 | .assembling => 2 | .forming => 3 | .online => 4 | .degraded => 5 | .offline => 6

def faultCode : FaultCause → Nat
  | .none => 0 | .memberLost => 1 | .recoveryFailed => 2

def startCode : StartCause → Nat
  | .power => 1 | .restart => 2 | .link => 3

def layoutCode : LayoutId → Nat
  | .only => 1 | .old => 2 | .new => 3

def layoutOfCode : Nat → Option LayoutId
  | 1 => some .only | 2 => some .old | 3 => some .new | _ => none

def chainCode : ChainStatus → Nat
  | .ended => 1 | .active => 2 | .due => 3 | .held => 4

def kindCode : PlanKind → Nat
  | .empty => 0 | .form => 1 | .grow => 2 | .replace => 3

def kindOfCode : Nat → Option PlanKind
  | 0 => some .empty | 1 => some .form | 2 => some .grow | 3 => some .replace | _ => none

def outcomeCode : PlanOutcome → Nat
  | .none => 0 | .done => 1 | .dropped => 2 | .badKind => 3 | .noVolume => 4 | .volumeExists => 5 | .bayDuplicate => 6
  | .bayInUse => 7 | .bayForeign => 8 | .bayTooSmall => 9 | .tooManyMembers => 10 | .capacityLimit => 11
  | .layoutDegraded => 12 | .badPosition => 13

def outcomeOfCode : Nat → PlanOutcome
  | 1 => .done | 2 => .dropped | 3 => .badKind | 4 => .noVolume | 5 => .volumeExists | 6 => .bayDuplicate
  | 7 => .bayInUse | 8 => .bayForeign | 9 => .bayTooSmall | 10 => .tooManyMembers | 11 => .capacityLimit
  | 12 => .layoutDegraded | 13 => .badPosition | _ => .none

def phaseCode : Phase → Nat
  | .none => 0 | .migrate => 1 | .settle => 2 | .rebuild => 3 | .form => 4

def phaseOfCode : Nat → Option Phase
  | 0 => some .none | 1 => some .migrate | 2 => some .settle | 3 => some .rebuild | 4 => some .form | _ => none

def stageCode : Stage → Nat
  | .gather => 1 | .freeze => 2 | .spill => 3 | .place => 4 | .mark => 5 | .retire => 6 | .abandoned => 7

def markCode : MarkState → Nat
  | .off => 0 | .initial => 1 | .clean => 2 | .dirty => 3

/-- A label stores OFF, INITIAL or CLEAN only (R79, R175). -/
def markOfCode : Nat → Option MarkState
  | 0 => some .off | 1 => some .initial | 2 => some .clean | _ => none

def roleCode : Role → Nat
  | .none => 0 | .member => 1 | .joining => 2 | .foreign => 3 | .failed => 4 | .stale => 5

def readinessCode : Readiness → Nat
  | .absent => 0 | .inquiring => 1 | .reading => 2 | .ready => 3 | .unready => 4

def captureCode : CaptureKind → Nat
  | .hostTag => 1 | .memberTag => 2 | .mediaRead => 3 | .mediaWrite => 4 | .timeout => 5 | .poisonWritten => 6

def dirOutcomeCode : DirOutcome → Nat
  | .done => 0 | .adjusted => 1 | .refusedState => 2 | .refusedArgument => 3 | .refusedCode => 4

/-! ## Plan records (11.4, R97, R203) -/

/-- The bay list as kept: entries beyond the written length are zero (R203). -/
def keptBays (len : Nat) (bays : List (BitVec 8)) : List (BitVec 8) :=
  (bays.zip (List.range 32)).map (fun p => if p.2 < len then p.1 else 0#8)

/-- The bytes of a plan record but for its guard (11.4). -/
def recordBytes (r : PlanRecord) : Data :=
  buildRecord
    ([(0, 1, r.kind.toNat), (1, 1, bit r.cont + 2 * bit r.quiet), (2, 2, r.unit.toNat), (4, 1, r.listLength.toNat),
      (5, 1, r.position.toNat), (6, 1, r.replacement.toNat), (7, 1, outcomeCode r.outcome), (8, 8, r.rowsDone),
      (16, 8, r.capacity), (24, 8, r.generation)]
      ++ (r.bays.zip (List.range 32)).map (fun p => (32 + p.2, 1, p.1.toNat)))

/-- A plan record's block data with its guard (R204). -/
def recordData (r : PlanRecord) : Data :=
  recordBytes r ||| putField 64 2 (recordGuard (recordBytes r) 64).toNat

/-- The fields of a plan record as its bytes give them (11.4). -/
def recordOf (d : Data) : PlanRecord :=
  { kind := byteAt d 0, cont := (fieldAt d 1 1).testBit 0, quiet := (fieldAt d 1 1).testBit 1,
    unit := BitVec.ofNat 16 (fieldAt d 2 2), listLength := byteAt d 4,
    bays := keptBays (fieldAt d 4 1) ((List.range 32).map (fun j => byteAt d (32 + j))),
    position := byteAt d 5, replacement := byteAt d 6, outcome := outcomeOfCode (fieldAt d 7 1),
    rowsDone := fieldAt d 8 8, capacity := fieldAt d 16 8, generation := fieldAt d 24 8 }

/-- The record a plan page write leaves: the controller's fields, and the residue cleared (R97). -/
def pageRecordOf (d : Data) : PlanRecord :=
  { recordOf d with outcome := .none, rowsDone := 0, capacity := 0, generation := 0 }

/-- The bays a plan's list names, in order, as written (R95). -/
def PlanRecord.list (r : PlanRecord) : List (BitVec 8) := r.bays.take r.listLength.toNat

end Sys2Proof.Machine
end

