-- ==== Sys2Proof/Machine/Labels.lean ====
section
/-! DEFINITION. Labels: their bytes, their validation, their contents, and the beginning of a label write
(R80, R81, R83, R84, R85, R111, R155, R156, R175, R204, 11.5); the spill record's bytes (R92, 11.6). -/

namespace Sys2Proof.Machine

/-! ## Bytes (11.5) -/

/-- The signature: the eight ASCII characters FVLABEL1 (11.5). -/
def signature : Nat := 0x46564C4142454C31

/-- The bytes of a member list entry at an offset (11.5). -/
def entryFields (off : Nat) (e : LabelEntry) : List (Nat × Nat × Nat) :=
  match e.member with
  | none => [(off + 1, 1, bit e.missing + 2)]
  | some m => [(off, 1, m.slot.val), (off + 1, 1, bit e.missing), (off + 8, 8, m.serial.toNat)]

/-- The bytes of a member list at an offset, 16 bytes an entry (11.5). -/
def listFields (off : Nat) (es : List LabelEntry) : List (Nat × Nat × Nat) :=
  (es.zip (List.range 32)).flatMap (fun p => entryFields (off + 16 * p.2) p.1)

/-- The identity and N of a layout, and its member list (11.5). -/
def layoutFields (at_ list : Nat) : Option LabelLayout → List (Nat × Nat × Nat)
  | none => []
  | some l => [(at_, 1, layoutCode l.id), (at_ + 1, 1, l.entries.length)] ++ listFields list l.entries

/-- Block 0 of a label but for its guard, for the member at a position with its flag and serial (11.5). -/
def labelFields (l : Label) (position : Nat) (incoming : Bool) (serial : BitVec 64) : List (Nat × Nat × Nat) :=
  [(0, 8, signature), (8, 8, l.identity.toNat), (16, 8, l.generation), (24, 1, position), (25, 1, bit incoming),
   (32, 8, serial.toNat), (40, 2, l.unit), (42, 1, l.layouts.length), (44, 8, l.rows), (52, 1, kindCode l.planKind),
   (53, 1, l.activeSlot), (54, 1, phaseCode l.phase), (55, 1, markCode l.markState), (56, 8, l.markFront),
   (64, 1, l.pointer), (65, 1, bit l.held + 2 * bit l.ended), (66, 2, l.hard.length), (68, 8, l.capacity)]
    ++ (match l.incoming with
        | none => []
        | some i =>
          [(76, 1, 1), (77, 1, i.record.q), (78, 1, i.record.slot.val), (79, 1, bit i.missing),
           (80, 8, i.record.serial.toNat)])
    ++ layoutFields 88 96 l.layouts[0]? ++ layoutFields 90 608 l.layouts[1]?

/-- Block 1 of a label: its HARD remap entries (11.5). -/
def hardData (hs : List HardEntry) : Data :=
  buildRecord ((hs.zip (List.range 256)).flatMap (fun p =>
    [(16 * p.2, 8, p.1.serial.toNat), (16 * p.2 + 8, 6, p.1.row), (16 * p.2 + 14, 1, p.1.spare)]))

/-- The two blocks of one copy of a label (11.5, R204). -/
def labelBlocks (l : Label) (position : Nat) (incoming : Bool) (serial : BitVec 64) : List Block :=
  let d0 := buildRecord (labelFields l position incoming serial)
  let d1 := hardData l.hard
  [recordBlock (d0 ||| putField 4094 2 (labelGuard d0 d1).toNat) 0, recordBlock d1 1]

/-- A member list entry read from its bytes; no bay slot above 63 exists. -/
def entryOf (d : Data) (off : Nat) : Option LabelEntry :=
  let flags := fieldAt d (off + 1) 1
  if flags.testBit 1 then some { member := none, missing := flags.testBit 0 }
  else if h : fieldAt d off 1 < 64 then
    some { member := some { slot := ⟨fieldAt d off 1, h⟩, serial := BitVec.ofNat 64 (fieldAt d (off + 8) 8) },
           missing := flags.testBit 0 }
  else none

/-- All of a list of options, or none. -/
def allSome {α : Type} : List (Option α) → Option (List α)
  | [] => some []
  | none :: _ => none
  | some a :: rest => (allSome rest).map (a :: ·)

/-- A layout of a label read from its bytes (11.5). -/
def labelLayoutOf (d : Data) (at_ list : Nat) : Option LabelLayout :=
  match layoutOfCode (fieldAt d at_ 1) with
  | none => none
  | some i =>
    let n := fieldAt d (at_ + 1) 1
    if n ≤ 32 then
      (allSome ((List.range n).map (fun k => entryOf d (list + 16 * k)))).map (fun es => { id := i, entries := es })
    else none

/-- The layouts of a label read from its bytes (11.5). -/
def labelLayoutsOf (d : Data) : Option (List LabelLayout) :=
  match fieldAt d 42 1 with
  | 0 => some []
  | 1 => (labelLayoutOf d 88 96).map (fun l => [l])
  | 2 =>
    match labelLayoutOf d 88 96, labelLayoutOf d 90 608 with
    | some a, some b => some [a, b]
    | _, _ => none
  | _ => none

/-- The incoming record of a label read from its bytes: absent, present, or not a bay slot (11.5). -/
def labelIncomingOf (d : Data) : Option (Option LabelIncoming) :=
  if fieldAt d 76 1 == 0 then some none
  else if h : fieldAt d 78 1 < 64 then
    some (some { record := { q := fieldAt d 77 1, slot := ⟨fieldAt d 78 1, h⟩, serial := BitVec.ofNat 64 (fieldAt d 80 8) },
                 missing := (fieldAt d 79 1).testBit 0 })
  else none

/-- The HARD entries of block 1 (11.5). -/
def hardOf (d : Data) (n : Nat) : List HardEntry :=
  (List.range n).map (fun k =>
    { serial := BitVec.ofNat 64 (fieldAt d (16 * k) 8), row := fieldAt d (16 * k + 8) 6, spare := fieldAt d (16 * k + 14) 1 })

/-- The fields of a label read from its two blocks' data (11.5). -/
def labelOf (d0 d1 : Data) : Option Label :=
  match labelLayoutsOf d0, labelIncomingOf d0, kindOfCode (fieldAt d0 52 1), phaseOfCode (fieldAt d0 54 1),
      markOfCode (fieldAt d0 55 1) with
  | some ls, some inc, some k, some ph, some ms =>
    if fieldAt d0 66 2 ≤ Config.maxHard then
      some
        { identity := BitVec.ofNat 64 (fieldAt d0 8 8), generation := fieldAt d0 16 8, unit := fieldAt d0 40 2,
          layouts := ls, rows := fieldAt d0 44 8, planKind := k, activeSlot := fieldAt d0 53 1, phase := ph,
          markState := ms, markFront := fieldAt d0 56 8, pointer := fieldAt d0 64 1,
          held := (fieldAt d0 65 1).testBit 0, ended := (fieldAt d0 65 1).testBit 1,
          hard := hardOf d1 (fieldAt d0 66 2), capacity := fieldAt d0 68 8, incoming := inc }
    else none
  | _, _, _, _, _ => none

/-! ## Validation (R175, R1) -/

/-- The stripe units the part knows (R1). -/
def legalUnit (u : Nat) : Bool := [16, 32, 64, 128, 256].contains u

/-- The bay slots of a label's layout that are not VACANT. -/
def LabelLayout.slots (l : LabelLayout) : List Slot := l.entries.filterMap (fun e => e.member.map (·.slot))

/-- Whether a layout of a label is legal: 3 to 32 members and no bay slot twice (R1, R175). -/
def LabelLayout.legal (l : LabelLayout) : Bool := 3 ≤ l.entries.length && l.entries.length ≤ 32 && l.slots.Nodup

/-- A label's layout as a layout record. -/
def Label.record (l : Label) (x : LabelLayout) : Layout :=
  { id := x.id, unit := l.unit, members := x.entries.map (·.member), rows := l.rows }

/-- The end row of a label's plan and phase (R15). -/
def Label.endRow (l : Label) : Nat :=
  match l.phase with
  | .none => 0
  | .migrate =>
    match l.layouts with
    | [o, n] => Sys2Proof.Machine.growthEnd (l.record o) (l.record n)
    | _ => 0
  | .settle | .rebuild | .form => l.rows

/-- The label of a bay judged from the blocks its READ returned and the serial of its INQUIRE (R175). -/
def validLabel (bs : List Block) (serial : Option (BitVec 64)) : Option Label :=
  match bs with
  | b0 :: b1 :: _ =>
    if judgeOther 0#32 b0 == .good && judgeOther 1#32 b1 == .good && fieldAt b0.data 0 8 == signature
        && fieldAt b0.data 4094 2 == (labelGuard b0.data b1.data).toNat
        && serial == some (BitVec.ofNat 64 (fieldAt b0.data 32 8)) then
      match labelOf b0.data b1.data with
      | none => none
      | some l =>
        if (l.layouts.isEmpty || legalUnit l.unit) && l.layouts.all LabelLayout.legal && l.markFront ≤ l.endRow then some l
        else none
    else none
  | _ => none

/-! ## Contents (R80, R108, R116) -/

/-- The record of the active plan (R99). -/
def State.activeRecord (s : State) : Option PlanRecord := s.plan.active.bind (fun i => s.plan.table[i]?)

/-- The kind of the active plan, EMPTY when none is (R95, R99). -/
def State.activeKind (s : State) : PlanKind := if s.plan.active.isSome then s.plan.planKind else .empty

/-- Whether the active plan is installed: its layouts are in force (R2, R106). -/
def State.planInstalled (s : State) : Bool :=
  match s.plan.stage with
  | .none | .waiting => false
  | .installing | .working | .closing _ | .residue => true

/-- A layout with another member at a position. -/
def Layout.withMember (l : Layout) (q : Nat) (m : Option Member) : Layout := { l with members := l.members.set q m }

/-- The layout that will stand alone after closing (R3). -/
def State.closingLayout (s : State) : Option Layout :=
  match s.growing with
  | some (_, n) => some { n with id := .only }
  | none =>
    match s.layout .only, s.plan.incoming with
    | some l, some i => some (l.withMember i.q (some { slot := i.slot, serial := i.serial }))
    | o, _ => o

/-- The former ONLY layout, which a removal restores; none for a FORM (R3, R116). -/
def State.formerLayout (s : State) : Option Layout :=
  match s.growing with
  | some (o, _) => some { o with id := .only }
  | none =>
    if s.activeKind == .form then none
    else
      match s.layout .only, s.plan.incoming, s.plan.inPlace with
      | some l, some i, some former => some (l.withMember i.q (some { slot := i.slot, serial := former.2 }))
      | o, _, _ => o

/-- The chain pointer and status that a plan's end will leave (R112, R117). -/
def State.chainAfter (s : State) : Nat × ChainStatus :=
  if s.plan.endChain then (s.plan.pointer, .ended)
  else if s.plan.hold then (s.plan.pointer, .held)
  else match s.activeRecord with
    | some r => if r.cont then (s.plan.pointer + 1, .due) else (s.plan.pointer, .ended)
    | none => (s.plan.pointer, .ended)

/-- The held and ended flags of a label (R99). -/
def chainFlags (st : ChainStatus) (hold : Bool) : Bool × Bool :=
  (st == .held || (st == .active && hold), st == .ended)

/-- The placed front: F_s + W′ of a step in MARK, else F (R80). -/
def State.placedFront (s : State) : Nat :=
  match s.steps.find? (fun p => p.2.stage == .mark) with
  | some (_, t) => t.front + t.rows
  | none => s.mover.front

/-- A layout with its missing record, as a label carries it (R80, R177). -/
def labelLayout (l : Layout) (missing : Nat → Bool) : LabelLayout :=
  { id := l.id, entries := (l.members.zip (List.range l.n)).map (fun p => { member := p.1, missing := missing p.2 }) }

/-- The HARD entries of every bay that holds a position or the incoming record (R156). -/
def State.hardEntries (s : State) : List HardEntry :=
  (allSlots.flatMap (fun i =>
    let b := s.bay i
    match b.position, b.ident with
    | some _, some (serial, _) =>
      (b.remaps.filter (·.hard)).map (fun r => { serial := serial, row := r.row, spare := r.spare : HardEntry })
    | _, _ => [])).take Config.maxHard

/-- The state of the mark as a label stores it (R79). -/
def storedMark : MarkState → MarkState
  | .off => .off
  | .initial => .initial
  | .clean | .dirty => .clean

/-- The label of the state as it stands, with a generation and a mark front (R80). -/
def State.labelNow (s : State) (gen front : Nat) : Label :=
  { identity := s.plan.identity, generation := gen, unit := (s.plan.layouts.head?.map (·.unit)).getD 0,
    layouts := s.plan.layouts.map (fun l => labelLayout l (s.missing l)), rows := s.rows,
    planKind := s.activeKind, activeSlot := s.plan.active.getD 0, phase := s.mover.phase,
    markState := storedMark s.mark.state, markFront := front,
    pointer := s.plan.pointer, held := (chainFlags s.plan.status s.plan.hold).1,
    ended := (chainFlags s.plan.status s.plan.hold).2, hard := s.hardEntries, capacity := s.plan.capacity,
    incoming := s.plan.incoming.map (fun i => { record := i, missing := s.roleMissing i.slot }) }

/-- The label of a plan's end: one layout standing alone, no plan, mark front 0, mark state OFF (R108, R116). -/
def State.labelAlone (s : State) (gen : Nat) (l : Layout) (capacity : Nat) : Label :=
  let after := s.chainAfter
  { s.labelNow gen 0 with
    layouts := [labelLayout l (s.posMissing l)], planKind := .empty, activeSlot := 0, phase := .none, markState := .off,
    pointer := after.1, held := (chainFlags after.2 false).1, ended := (chainFlags after.2 false).2,
    capacity := capacity, incoming := none }

/-- A released label (R111). -/
def releasedLabel (gen : Nat) : Label :=
  { identity := 0#64, generation := gen, unit := 0, layouts := [], rows := 0, planKind := .empty, activeSlot := 0,
    phase := .none, markState := .off, markFront := 0, pointer := 0, held := false, ended := false, hard := [],
    capacity := 0, incoming := none }

/-- The reported capacity after the closing of the active plan (R110). -/
def State.closingCapacity (s : State) : Nat :=
  match s.activeKind with
  | .form | .grow => (s.closingLayout.map Layout.capacity).getD s.plan.capacity
  | .replace | .empty => s.plan.capacity

/-- The label a write carries, by the plan unit's request it serves (R80, R108, R116). -/
def State.labelFor (s : State) (gen front : Nat) : Option PlanWrite → Label
  | none => s.labelNow gen front
  | some .install => s.labelNow gen front
  | some .close =>
    match s.closingLayout with
    | none => releasedLabel gen
    | some l => s.labelAlone gen l s.closingCapacity
  | some .remove =>
    match s.formerLayout with
    | none => releasedLabel gen
    | some l => s.labelAlone gen l s.plan.capacity

/-- The position a label's own entries give a bay, and whether its incoming record does: that of the incoming record naming the
bay, else of the member list entry naming it, else 0 and clear, as fields that do not apply (R80, R203; log entry 56). -/
def Label.seat (l : Label) (i : Slot) : Nat × Bool :=
  match l.incoming.filter (fun x => x.record.slot == i) with
  | some x => (x.record.q, true)
  | none =>
    (((l.layouts.getLast?).bind (fun x =>
      (List.range x.entries.length).find? (fun p => x.entries[p]?.any (fun e => e.member.any (·.slot == i))))).getD 0, false)

/-- The copy of a label for one bay (R80). -/
def State.labelCopy (s : State) (l : Label) (i : Slot) : List Block :=
  labelBlocks l (l.seat i).1 (l.seat i).2 (((s.bay i).ident.map (·.1)).getD 0#64)

/-! ## Beginning a label write (R80, R81, R83 to R85) -/

/-- SOFT entries of a bay that are not filling become HARD (R155). -/
def hardenRemaps (i : Slot) (s : State) : State :=
  updBay i (fun b => { b with remaps := b.remaps.map (fun r => if r.filling then r else { r with hard := true }) }) s

/-- The bay a REMAPS cause names. -/
def CauseKind.remapsSlot : CauseKind → Option Slot
  | .remaps i => some i
  | _ => none

/-- The request of the plan unit a cause carries. -/
def CauseKind.planWrite : CauseKind → Option PlanWrite
  | .plan w => some w
  | _ => none

/-- The member WRITEs of a label, one for each present MEMBER or JOINING bay (R81). -/
def handLabels (l : Label) (owner : Owner) (s : State) : State :=
  let targets := s.serving
  let copies := targets.map (fun i => (i, s.labelCopy l i))
  copies.foldl (fun s c => handReserve c.1 .mark (.write 0 c.2) owner s) s

/-- A label write begins: it serves every waiting cause and every loss known by now (R80, R81, R83). -/
def beginLabel (s : State) : State :=
  let s := (s.mark.causes.filterMap (fun c => c.kind.remapsSlot)).foldl (fun s i => hardenRemaps i s) s
  let plan := (s.mark.causes.filterMap (fun c => c.kind.planWrite)).head?
  let gen := s.mark.generation + 1
  let front := match plan with
    | some .close | some .remove => 0
    | _ => s.placedFront
  let l := s.labelFor gen front plan
  let n := s.serving.length
  let s := { s with mark :=
    { s.mark with
      flight := some { generation := gen, front := front, noted := s.mark.unmarked, plan := plan, assembly := false, outstanding := n }
      causes := s.mark.causes.map (fun c => { c with served := true })
      losses := s.mark.losses.map (fun x => (x.1, true)) } }
  handLabels l (.label false) s

/-- The assembly label write: it carries F, and INITIAL only when that was loaded and no step restored (R186). -/
def beginAssemblyLabel (s : State) : State :=
  let gen := s.mark.generation + 1
  let l := { s.labelNow gen s.mover.front with
    markState := if s.asm.restored then (if s.planInstalled then .clean else .off) else storedMark s.mark.state }
  let n := s.serving.length
  let s := { s with mark :=
    { s.mark with
      flight := some { generation := gen, front := s.mover.front, noted := 0, plan := none, assembly := true, outstanding := n } } }
  handLabels l (.assemblyLabel false) s

/-- Whether the mark unit may begin a label write: none in flight, no RECOVERY_FAILED halt, the spill bar clear or the
step's own STEP cause waiting (R83, R84, R85). A cause (LOSS, REMAPS) still waiting when the removal of a FORM completes is
served though no volume is left: a label write to no bay, which completes at once (DEDUCED, log entry 57). -/
def State.mayBeginLabel (s : State) : Bool :=
  s.mark.flight.isNone && !(s.ctl.state == .halted && s.ctl.cause == .recoveryFailed) && s.ctl.volume != .assembling
    && (s.mark.bar.isNone || s.mark.causes.any (fun c => match c.kind with
      | .step _ => true
      | _ => false))

/-- A waiting cause and leave to begin: the next label write begins at once (R83). -/
def ruleLabel (s : State) : Option State :=
  if !s.mark.causes.isEmpty && !s.mark.judgeBand && s.mayBeginLabel then some (beginLabel s) else none

/-! ## The spill record (R92, 11.6) -/

/-- The bytes of a spill record but for its guard (11.6). -/
def spillBytes (r : SpillRecord) : Data :=
  buildRecord [(0, 8, r.front), (8, 1, r.rows), (16, 8, r.first), (24, 8, r.stop), (32, 8, r.generation)]

/-- The block of a spill record (R92, R204). -/
def spillBlock (r : SpillRecord) : Block :=
  recordBlock (spillBytes r ||| putField 40 2 (recordGuard (spillBytes r) 40).toNat) Config.spillRecordBlock

/-- A spill record read from its block, when the block is good and its guard correct (R182). -/
def spillOf (b : Block) : Option SpillRecord :=
  if judgeOther (BitVec.ofNat 32 Config.spillRecordBlock) b == .good
      && fieldAt b.data 40 2 == (recordGuard b.data 40).toNat then
    some { front := fieldAt b.data 0 8, rows := fieldAt b.data 8 1, first := fieldAt b.data 16 8,
           stop := fieldAt b.data 24 8, generation := fieldAt b.data 32 8 }
  else none

end Sys2Proof.Machine
end

