-- ==== Sys2Proof/Machine/Control.lean ====
section
/-! DEFINITION. Engine control: reports of the missing counts, faults, SUSPENDED and HALTED; the abandoning of steps; the
failure of a member (R71, R118, R124, R125, R132, R136, R161 to R163, R168). -/

namespace Sys2Proof.Machine

/-! ## Abandoning a step (R71) -/

/-- The record of an abandoned step, kept while its reads are in flight (R71). -/
def Step.abandon (t : Step) : Step :=
  { t with
    stage := .abandoned, stained := [], stains := 0, pinned := false, granted := false,
    fetch := { t.fetch with cells := [], wanted := [] }, built := [], lost := [], repairs := [] }

/-- A step in GATHER is abandoned: its holds released, a settle step's keys given up, its record kept until its operations
have ended (R71, R144). -/
def abandonStep (g : Staging) (t : Step) (s : State) : State :=
  let s := strikeReader (.step g) s
  let s := match t.arrival with
    | some a => leaveLocks a s
    | none => s
  let s := setStep g (some t.abandon) s
  releaseHolds (fun r => r == .step t.front) s

/-- The step in GATHER, if any, is abandoned (R71 to R74). -/
def abandonGather (s : State) : State :=
  (s.steps.filter (fun p => p.2.stage == .gather)).foldl (fun s p => abandonStep p.1 p.2 s) s

/-- An abandoned step whose operations have all ended leaves its slot (R71). -/
def ruleFreeSlot (s : State) : Option State :=
  (s.steps.find? (fun p => p.2.stage == .abandoned && p.2.outstanding == 0)).map (fun p => setStep p.1 none s)

/-! ## Volume state and faults (R161 to R163, R168) -/

/-- The volume state that counts give (R168). -/
def volumeOf (counts : List (LayoutId × Nat)) : VolumeState :=
  if counts.any (fun c => 2 ≤ c.2) then .offline else if counts.any (fun c => c.2 == 1) then .degraded else .online

/-- The volume state set from the counts, where the counts set it (R168). -/
def setVolume (s : State) : State :=
  match s.ctl.volume with
  | .none | .assembling | .forming => s
  | .online | .degraded | .offline =>
    if s.ctl.state == .halted && s.ctl.cause == .recoveryFailed then s
    else { s with ctl := { s.ctl with volume := volumeOf s.counts } }

/-- The first layout, in the order ONLY, OLD, NEW, whose count exceeds the tolerance (R161). -/
def firstExceeding (tol : Nat) (counts : List (LayoutId × Nat)) : Option (LayoutId × Nat) :=
  ([LayoutId.only, .old, .new].filterMap (fun i => counts.find? (fun c => c.1 == i && tol < c.2))).head?

/-- Whether a layout's count has risen since the previous report (R161). -/
def risen (last : List (LayoutId × Nat)) (c : LayoutId × Nat) : Bool :=
  match last.find? (·.1 == c.1) with
  | none => false
  | some p => p.2 < c.2

/-- A MEMBER_LOST fault is taken: pending when the latch is clear, to HALTED when it is set (R161 to R163, R170). -/
def takeFault (l : Option (LayoutId × Nat)) (s : State) : State :=
  if s.ctl.state == .idle then s
  else
    let s := if s.ctl.state == .halted && s.ctl.cause == .recoveryFailed then s
      else { s with ctl := { s.ctl with cause := .memberLost, faultLayout := l } }
    if s.ctl.latch then raise .engineHalted { s with ctl := { s.ctl with state := .halted } }
    else if s.ctl.faultPending then s
    else abandonGather { s with ctl := { s.ctl with faultPending := true, faultFresh := true, faultWaits := none } }

/-- The missing counts are reported to engine control (R136, R161, R168). -/
def reportCounts (s : State) : State :=
  let counts := s.counts
  let tol := s.tolerance
  let fell := tol < s.ctl.lastTolerance
  let fault := counts.any (fun c => tol < c.2 && (fell || risen s.ctl.lastReport c))
  let s := { s with ctl := { s.ctl with lastReport := counts, lastTolerance := tol } }
  let s := setVolume s
  if fault && s.ctl.volume != .assembling then takeFault (firstExceeding tol counts) s else s

/-- A missing count that has changed since the last report is reported: a role or the front has changed it (R135, R136). -/
def reportChange (s : State) : State := if s.counts == s.ctl.lastReport then s else reportCounts s

/-- The layouts in force have changed: each count is compared from now on with the one it holds now (R161), and the volume
state follows (R168). -/
def rebaseCounts (s : State) : State :=
  setVolume { s with ctl := { s.ctl with lastReport := s.counts, lastTolerance := s.tolerance } }

/-- Whether the label write a pending fault waits for has completed (R162). -/
def State.faultLabelDone (s : State) : Bool :=
  match s.ctl.faultWaits, s.mark.flight with
  | some g, some f => f.generation != g
  | _, _ => true

/-- The state that follows once the mover is at rest: CLOSING at the end row, SETTLING once migration has ended, else the
state as it is (R108, R159, R162). -/
def State.afterRest (s : State) : EngineState :=
  if s.endRow ≤ s.mover.front then .closing
  else if s.mover.phase == .settle then .settling
  else s.ctl.state

/-- The saved previous state and paused-from when a pending fault's work has finished (R162), none while it has not. -/
def State.suspension (s : State) : Option (EngineState × Option EngineState) :=
  match s.ctl.state with
  | .waiting => if s.faultLabelDone then some (.waiting, s.ctl.pausedFrom) else none
  | .paused => if s.faultLabelDone then some (.paused, s.ctl.pausedFrom) else none
  | .preparing =>
    if s.plan.installed && s.plan.copies == 0 then
      some (if s.plan.dropAsked then .idle else .running, s.ctl.pausedFrom)
    else none
  | .running | .settling =>
    if s.atRest && s.faultLabelDone then
      if s.ctl.pauseRequest && s.afterRest != .closing then some (.paused, some s.afterRest)
      else some (s.afterRest, s.ctl.pausedFrom)
    else none
  | .closing =>
    match s.plan.stage with
    | .closing _ => none
    | _ => some (.idle, s.ctl.pausedFrom)
  | .idle | .suspended | .halted => none

/-- The work in flight at a fault has finished: the engine enters SUSPENDED (R162). -/
def ruleSuspend (s : State) : Option State :=
  if !s.ctl.faultPending then none
  else if s.ctl.faultFresh then
    some { s with ctl := { s.ctl with faultFresh := false, faultWaits := s.mark.flight.map (·.generation) } }
  else s.suspension.map (fun r =>
    raise .engineSuspended
      { s with
        ctl :=
          { s.ctl with
            state := .suspended, saved := some r.1, pausedFrom := r.2, faultPending := false, pauseRequest := false,
            latch := true, faultWaits := none }
        plan := if s.plan.stage == .installing then { s.plan with stage := .working } else s.plan })

/-! ## Failure of a member (R118, R132) -/

/-- Whether the closing label write has begun (R109, R118). -/
def State.closeBegun (s : State) : Bool :=
  match s.mark.flight with
  | some f => f.plan == some .close
  | none => false

/-- The incoming bay of an installed REPLACE has failed before the closing label write began: the mover begins no further
step, and the plan is to be removed once the mover is at rest (R118). -/
def loseIncoming (s : State) : State :=
  match s.plan.stage with
  | .installing => { s with plan := { s.plan with incomingLost := true } }
  | .working => abandonGather { s with plan := { s.plan with incomingLost := true } }
  | .closing .close => if s.closeBegun then s else { s with plan := { s.plan with incomingLost := true } }
  | .none | .waiting | .closing _ | .residue => s

/-- Repair candidates at a bay are struck out (R144). -/
def strikeBay (i : Slot) (s : State) : State :=
  { s with integ := { s.integ with candidates := s.integ.candidates.filter (fun c => c.slot != i) } }

/-- Whether a failure raised a missing count (R132). -/
def anyRisen (before after : List (LayoutId × Nat)) : Bool := after.any (risen before)

/-- The incoming bay of a REPLACE fails with its closing label write begun: that label records position q as serving, so the
loss raises the count of the layout that will stand alone (R109, R132; DEDUCED, log entry 24). -/
def State.lateIncoming (s : State) (i : Slot) : Bool := s.closeBegun && s.plan.incoming.any (·.slot == i)

/-- A loss is noted for the rows that lack the bay's position (R38); LOSS is raised when a missing count has risen (R83, R132;
log entry 24). -/
def noteLoss (i : Slot) (rises : Bool) (s : State) : State :=
  let s := { s with mark := { s.mark with losses := s.mark.losses ++ [(i, false)] } }
  if rises then raiseCause .loss s else s

/-- A MEMBER or JOINING bay fails: FAILED, its operations GONE, MEMBER_LOST, the counts reported, the loss noted and LOSS
raised, and the plan unit told of an incoming bay (R38, R132). A bay of another role does not fail. -/
def failBay (i : Slot) (s : State) : State :=
  let b := s.bay i
  if b.role == .member || b.role == .joining then
    let before := s.counts
    let s := updBay i (fun b => { b with role := .failed }) s
    let s := strikeBay i s
    let s := endAllGone i s
    let s := raise .memberLost s
    let rises := anyRisen before s.counts || s.lateIncoming i
    let s := reportCounts s
    let s := if s.ctl.volume != .assembling then noteLoss i rises s else s
    if s.plan.incoming.any (·.slot == i) && s.ctl.volume != .assembling then loseIncoming s else s
  else s

/-! ## Presence (R124, R125) -/

/-- SHELF_CHANGE is raised when some bay's presence differs from its reference (R125); not before the first scan after
power-on has given the references their values (R120). -/
def shelfCheck (s : State) : State :=
  if !s.asm.firstScan && allSlots.any (fun i => (s.bay i).present != (s.bay i).reference) then raise .shelfChange s else s

/-- A departing bay's role when it was not MEMBER or JOINING (R124). -/
def departedRole : Role → Role
  | .stale => .failed
  | .foreign => .none
  | r => r

/-- A bay's departure but for the comparison of R125: absent, its operations GONE, its role changed (R124); before the choice
it leaves the scan set (R174). A bay already absent is left as it is (R119). -/
def takeOut (i : Slot) (s : State) : State :=
  let b := s.bay i
  if !b.present then s
  else
    let s := updBay i (fun b => { b with present := false, readiness := .absent, scanDue := false }) s
    let s := if s.asm.stage == .scan then { s with asm := { s.asm with scanSet := s.asm.scanSet.filter (· != i) } } else s
    if b.role == .member || b.role == .joining then failBay i s
    else updBay i (fun b => { b with role := departedRole b.role }) (endAllGone i (strikeBay i s))

/-- A bay departs, and presence is compared with the references (R124, R125). -/
def depart (i : Slot) (s : State) : State := if (s.bay i).present then shelfCheck (takeOut i s) else s

/-- A bay arrives: present, INQUIRING, and an INQUIRE handed over in the mark class (R122); before the choice it joins the
scan set (R174). The INQUIRE waits for drained operations of the bay (R137). Its label found stays as it was until the label is
read again, through a departure and an arrival that ends UNREADY (R120, R124; DEDUCED, log entry 60). -/
def arrive (i : Slot) (s : State) : State :=
  let s := updBay i (fun b => { b with present := true, readiness := .inquiring, label := none }) s
  let s := if s.asm.stage == .scan && !s.asm.scanSet.contains i then
      { s with asm := { s.asm with scanSet := s.asm.scanSet ++ [i] } }
    else s
  let s := handReserve i .mark .inquire .inquire s
  shelfCheck s

/-- An arrival report: for a bay already present, a departure and then an arrival, with one comparison, so that an exchange
raises no SHELF_CHANGE (R119, R125; log entry 16). -/
def arrival (i : Slot) (s : State) : State := arrive i (takeOut i s)

/-- Every bay's presence is copied into its reference (R120, R125). -/
def takeReferences (s : State) : State := updAllBays (fun b => { b with reference := b.present }) s

end Sys2Proof.Machine
end

