-- ==== Sys2Proof/Machine/Fetching.lean ====
section
/-! DEFINITION. Reading blocks for a reader, judging them, rebuilding what is bad or missing from the rest of its row, and
writing rebuilt blocks back (R32, R33, R37, R52, R142 to R144, R153). -/

namespace Sys2Proof.Machine

/-- What a reader knows of a place. -/
def Fetch.at (f : Fetch) (c : Cell) : Option CellState := (f.cells.find? (·.1 == c)).map (·.2)

/-- A place's state set or added. -/
def Fetch.put (f : Fetch) (c : Cell) (v : CellState) : Fetch :=
  if f.cells.any (·.1 == c) then { f with cells := f.cells.map (fun x => if x.1 == c then (c, v) else x) }
  else { f with cells := f.cells ++ [(c, v)] }

/-- The block a reader holds at a place, with whether it is poison. -/
def CellState.block : CellState → Option (Bool × Block)
  | .got b => some (false, b)
  | .poison b => some (true, b)
  | .rebuilt b => some (false, b)
  | .waiting _ | .bad | .lost _ => none

/-- Whether nothing more will become known of a place. -/
def CellState.final : CellState → Bool
  | .waiting _ | .bad => false
  | .got _ | .poison _ | .rebuilt _ | .lost _ => true

/-- A fetch with nothing asked for. -/
def Fetch.fresh (l : Layout) (wanted : List Cell) : Fetch := { layout := l, cells := [], wanted := wanted }

/-- Whether every READ has ended and every wanted block is in hand or known lost (R34, R52). -/
def Fetch.done (f : Fetch) : Bool :=
  f.cells.all (fun x => match x.2 with
    | .waiting _ => false
    | _ => true)
    && f.wanted.all (fun c => match f.at c with
      | none => false
      | some v => v.final)

/-- The judgement of a block at a place of a layout (R142). -/
def Layout.judge (l : Layout) (c : Cell) (b : Block) : Judged :=
  match l.lbaOf c with
  | none => judgeOther Config.parityRef b
  | some a => judgeData a b

/-! ## Asking (R32, R33, R51) -/

/-- One member READ of consecutive offsets of a unit; places not yet asked for wait for it (R33, R51). -/
def readRun (owner : Owner) (cls : OpClass) (row pos off len : Nat) (p : State × Fetch) : State × Fetch :=
  let s := p.1
  let f := p.2
  match s.bayAt f.layout row pos with
  | none => (s, f)
  | some i =>
    let id := s.shelf.nextOp
    let asked := ((List.range len).map (fun o => { row := row, pos := pos, off := off + o : Cell })).filter
      (fun c => (f.at c).isNone)
    (handUnit i cls f.layout.unit row off (fun b => .read b len) owner s,
     { f with cells := f.cells ++ asked.map (fun c => (c, .waiting id)) })

/-- Places marked as not to be had from their own member (a missing position). -/
def markBad (cs : List Cell) (f : Fetch) : Fetch := cs.foldl (fun f c => f.put c .bad) f

/-! ## Rebuilding (R33, R143) -/

/-- What is known of another place of a row during a rebuild. -/
inductive Known where
  | absent | waits | fails | known (poison : Bool) (b : Block)
  deriving DecidableEq, Repr

/-- What is known of a place: not asked for, under way, not to be had, or in hand. -/
def Fetch.knows (s : State) (f : Fetch) (c : Cell) : Known :=
  match f.at c with
  | none => if s.missingInRow f.layout c.row c.pos then .fails else .absent
  | some (.waiting _) => .waits
  | some .bad => .fails
  | some (.lost _) => .fails
  | some (.got b) => .known false b
  | some (.poison b) => .known true b
  | some (.rebuilt b) => .known false b

/-- The other places of a row at an offset (R33). -/
def Layout.others (l : Layout) (c : Cell) : List Cell :=
  ((List.range l.n).filter (· != c.pos)).map (fun p => { c with pos := p })

/-- The verdict on a bad block: more reads are needed, some are under way, it is lost, or it is rebuilt (R33). -/
inductive Verdict where
  | needs (cs : List Cell)
  | waits
  | lost
  | rebuilt (b : Block)
  deriving DecidableEq, Repr

/-- The block made from the D other blocks of a row at an offset (R33, R68, R143). -/
def rebuildBlock (l : Layout) (c : Cell) (srcs : List (Data × BitVec 16)) : Block :=
  match l.lbaOf c with
  | none => parityBlock srcs
  | some a => makeBlock (xorAll srcs).1 (BitVec.ofNat 32 a) (xorAll srcs).2

/-- The source a known block gives a rebuild, poison counting as zero data (R143). -/
def Known.source : Known → Option (Data × BitVec 16)
  | .known p b => some (sourceOf p b)
  | _ => none

/-- The verdict on a bad block (R33). -/
def Fetch.verdict (s : State) (f : Fetch) (c : Cell) : Verdict :=
  let os := f.layout.others c
  let ks := os.map (Fetch.knows s f)
  let need := os.filter (fun o => Fetch.knows s f o == .absent)
  if !need.isEmpty then .needs need
  else if ks.contains .waits then .waits
  else if ks.contains .fails then .lost
  else .rebuilt (rebuildBlock f.layout c (ks.filterMap Known.source))

/-- The places a reader rebuilds: the wanted ones that are bad, and the others where a READ of it has left a repair candidate
(R33, R142, R144). -/
def Fetch.mending (s : State) (r : Reader) (f : Fetch) : List Cell :=
  let bad := f.wanted.filter (fun c => f.at c == some .bad)
  let noted := (s.integ.candidates.filter (fun k => k.reader == r)).map (·.cell)
  bad ++ noted.filter (fun c => !bad.contains c && (match f.at c with
    | some .bad | some (.got _) | some (.poison _) => true
    | _ => false))

/-- The places a reader rebuilds, each with its verdict. -/
def Fetch.verdicts (s : State) (r : Reader) (f : Fetch) : List (Cell × Verdict) :=
  (f.mending s r).map (fun c => (c, Fetch.verdict s f c))

/-- A bad place becomes known; what a reader already holds of a place stays (log entry 51). -/
def Fetch.mend (f : Fetch) (c : Cell) (v : CellState) : Fetch := if f.at c == some .bad then f.put c v else f

/-! ## Write-backs (R144) -/

/-- The rebuilt candidates of one reader with the block each is written back with. -/
def backRuns : List (Candidate × Block) → List (Candidate × List Block)
  | [] => []
  | (c, b) :: rest =>
    match backRuns rest with
    | [] => [(c, [b])]
    | (d, bs) :: more =>
      if d.slot == c.slot && d.cell.row == c.cell.row && d.cell.pos == c.cell.pos && d.cell.off == c.cell.off + 1 then
        (c, b :: bs) :: more
      else (c, [b]) :: (d, bs) :: more

/-- Rebuilt candidates are written back, one WRITE for each run of consecutive blocks of a unit (R144). -/
def writeBacks (r : Reader) (cls : OpClass) (unit : Nat) (made : List (Cell × Block)) (s : State) : State :=
  let mine := s.integ.candidates.filterMap (fun k =>
    if k.reader == r then (made.find? (·.1 == k.cell)).map (fun m => (k, m.2)) else none)
  let s := { s with integ :=
    { s.integ with candidates :=
      s.integ.candidates.filter (fun k => !(k.reader == r && made.any (·.1 == k.cell))) } }
  (backRuns mine).foldl
    (fun s x => handUnit x.1.slot cls unit x.1.cell.row x.1.cell.off (fun b => .write b x.2) .writeBack s) s

/-- Candidates of a reader at a row and offset where it meets a second failure are struck out (R144). -/
def strikeLost (r : Reader) (cs : List Cell) (s : State) : State :=
  { s with integ :=
    { s.integ with candidates :=
      s.integ.candidates.filter (fun k =>
        !(k.reader == r && cs.any (fun c => c.row == k.cell.row && c.off == k.cell.off))) } }

/-- The reads a set of needed places asks for: one READ per position and row, covering the offsets concerned (R33). -/
def coveringReads (cs : List Cell) : List (Nat × Nat × Nat × Nat) :=
  let units := (cs.map (fun c => (c.row, c.pos))).eraseDups
  units.filterMap (fun u =>
    let offs := (cs.filter (fun c => c.row == u.1 && c.pos == u.2)).map (·.off)
    match offs.min?, offs.max? with
    | some lo, some hi => some (u.1, u.2, lo, hi + 1 - lo)
    | _, _ => none)

/-- A reader's bad blocks are taken as far as they can go: rebuilt and written back, given up as lost, or asked for from
the rest of their rows. Blocks the reader is about to overwrite are not written back (R33, R37, R52, R144). -/
def settleFetch (r : Reader) (owner : Owner) (cls : OpClass) (overwrites : Cell → Bool) (p : State × Fetch) :
    State × Fetch :=
  let s := p.1
  let f := p.2
  let vs := f.verdicts s r
  let made := vs.filterMap (fun v => match v.2 with
    | .rebuilt b => some (v.1, b)
    | _ => none)
  let gone := vs.filterMap (fun v => match v.2 with
    | .lost => some v.1
    | _ => none)
  let need := vs.flatMap (fun v => match v.2 with
    | .needs cs => cs
    | _ => [])
  let f := made.foldl (fun f m => f.mend m.1 (.rebuilt m.2)) f
  let f := gone.foldl (fun f c => f.mend c (.lost (s.ctl.volume == .offline))) f
  let s := writeBacks r cls f.layout.unit (made.filter (fun m => !overwrites m.1)) s
  let s := strikeLost r gone s
  (coveringReads need).foldl (fun p x => readRun owner cls x.1 x.2.1 x.2.2.1 x.2.2.2 p) (s, f)

/-! ## Answers (R32, R142) -/

/-- The blocks an ended READ returned, by index. -/
def OpResult.blocks : OpResult → List Block
  | .good bs => bs
  | .media _ bs => bs
  | .inquired _ _ | .timeout | .gone => []

/-- Whether a WRITE handed over at a bay, a write-back included, covers a member block and has not ended. -/
def State.writeOver (s : State) (i : Slot) (block : Nat) : Bool :=
  ((s.bay i).ops ++ s.integ.held.filter (·.slot == i)).any (fun op =>
    op.kind.isWrite && overlaps (block, 1) op.kind.span)

/-- Whether a bad block of an ended READ becomes a repair candidate: on a MEMBER or JOINING bay, unless the bay is gone or
a WRITE of it, a write-back included, has been handed over and has not ended (R144, R145; DEDUCED, log entry 15). -/
def State.mayRepair (s : State) (i : Slot) (block : Nat) (res : OpResult) : Bool :=
  ((s.bay i).role == .member || (s.bay i).role == .joining) && res != .gone && !s.writeOver i block

/-- A candidate is noted, unless its reader has it already (R144). -/
def noteCandidate (k : Candidate) (s : State) : State :=
  if s.integ.candidates.contains k then s
  else { s with integ := { s.integ with candidates := s.integ.candidates ++ [k] } }

/-- A READ's end at a place it covers: what it brought is put down where the reader waits for this READ; what the reader
already holds of another place stays. -/
def Fetch.take (f : Fetch) (op : Nat) (c : Cell) (v : CellState) : Fetch :=
  if f.at c == some (.waiting op) then f.put c v else f

/-- One place of an ended READ: its block is judged, or found not to have come (R142, R144). -/
def arriveCell (r : Reader) (op : MemberOp) (res : OpResult) (c : Cell) (p : State × Fetch) : State × Fetch :=
  let s := p.1
  let f := p.2
  let home := op.home.getD (c.row, 0)
  let idx := (c.row - home.1) * f.layout.unit + c.off - home.2
  let block := op.kind.span.1 + idx
  let note := fun (s : State) =>
    if s.mayRepair op.slot block res then noteCandidate { slot := op.slot, block := block, reader := r, cell := c } s else s
  match res.blocks[idx]? with
  | none => (note s, f.take op.id c .bad)
  | some b =>
    match f.layout.judge c b with
    | .good => (s, f.take op.id c (.got b))
    | .poison => (s, f.take op.id c (.poison b))
    | .tagError => (note (tagErrorAt op.slot block s), f.take op.id c .bad)

/-- The places that wait for an operation. -/
def Fetch.waitingFor (f : Fetch) (op : Nat) : List Cell :=
  f.cells.filterMap (fun x => if x.2 == .waiting op then some x.1 else none)

/-- The places a READ covers in ascending member block order, at the position of those that wait for it. -/
def Fetch.covered (f : Fetch) (op : MemberOp) : List Cell :=
  match op.home, (f.waitingFor op.id).head? with
  | some (row, off), some c =>
    (List.range op.kind.span.2).map (fun k =>
      { row := row + (off + k) / f.layout.unit, pos := c.pos, off := (off + k) % f.layout.unit })
  | _, _ => []

/-- A READ of a reader has ended: each place it covers is judged, in ascending member block order (R32, R37, R52, R142,
R149). -/
def arriveFetch (r : Reader) (op : MemberOp) (res : OpResult) (p : State × Fetch) : State × Fetch :=
  (p.2.covered op).foldl (fun q c => arriveCell r op res c q) p

/-- A READ whose reader has ended, drained by a link reset, abandoned or given up, has ended: its blocks are discarded, each
tag error among them being counted and captured against the block expected there now (R8, R43, R71, R142; log entry 52). -/
def judgeOrphan (op : MemberOp) (res : OpResult) (s : State) : State :=
  match op.home with
  | none => s
  | some (row, off) =>
    (res.blocks.zip (List.range op.kind.span.2)).foldl
      (fun s x =>
        let r := row + (off + x.2) / s.unit
        match s.placeOf op.slot r with
        | none => s
        | some (l, p) =>
          match l.judge { row := r, pos := p, off := (off + x.2) % s.unit } x.1 with
          | .good | .poison => s
          | .tagError => tagErrorAt op.slot (op.kind.span.1 + x.2) s)
      s

end Sys2Proof.Machine
end

