-- ==== Sys2Proof/Machine/RequestPath.lean ====
section
/-! DEFINITION. Volume requests from the grant of their row keys to their completion: reads, the four write paths, FLUSH,
and the freeing of DRAINING entries (R24, R28, R29, R31 to R40, R43). -/

namespace Sys2Proof.Machine

/-! ## Pieces (R9) -/

/-- One piece: consecutive blocks of one unit of one row of one layout (R9). -/
structure Piece where
  layout : Layout
  row    : Nat
  pos    : Nat
  off    : Nat
  len    : Nat
  deriving DecidableEq, Repr

/-- The pieces of a run (R9). -/
def piecesOf : List (Layout × Cell × Nat) → List Piece
  | [] => []
  | (l, c, _) :: rest =>
    match piecesOf rest with
    | [] => [{ layout := l, row := c.row, pos := c.pos, off := c.off, len := 1 }]
    | p :: ps =>
      if p.layout == l && p.row == c.row && p.pos == c.pos && p.off == c.off + 1 then
        { p with off := c.off, len := p.len + 1 } :: ps
      else { layout := l, row := c.row, pos := c.pos, off := c.off, len := 1 } :: p :: ps

/-- The layouts of a run's parts, NEW before OLD (R24). -/
def partLayouts (ps : List (Layout × Cell × Nat)) : List Layout := (ps.map (·.1)).eraseDups

/-! ## Reads (R32 to R34) -/

/-- A READ's part of a layout begins: one READ for each piece at a position not missing in its row (R32). -/
def beginPart (a idx : Nat) (l : Layout) (places : List (Layout × Cell × Nat)) (s : State) : State × Fetch :=
  let mine := places.filter (fun p => p.1 == l)
  (piecesOf mine).foldl
    (fun q p =>
      if q.1.missingInRow l p.row p.pos then
        (q.1, markBad ((List.range p.len).map (fun o => { row := p.row, pos := p.pos, off := p.off + o })) q.2)
      else readRun (.hostRead a idx) .host p.row p.pos p.off p.len q)
    (s, Fetch.fresh l (mine.map (·.2.1)))

/-- A READ begins its member operations (R31 case 4, R32). -/
def beginRead (e : Entry) (s : State) : State :=
  let places := s.places e.lba e.count
  let r := ((partLayouts places).zip (List.range 2)).foldl
    (fun (q : State × List Fetch) x =>
      let b := beginPart e.arrival x.2 x.1 places q.1
      (b.1, q.2 ++ [b.2]))
    (s, [])
  push (.advance e.arrival) (updReq e.arrival (fun e => { e with state := .issued, reads := r.2 }) r.1)

/-- The failing blocks of a READ and whether NOT_READY was recorded (R34). -/
def readFailures (fs : List Fetch) : List Nat × Bool :=
  fs.foldl
    (fun q f => f.wanted.foldl
      (fun q c => match f.at c with
        | some (.poison _) => (q.1 ++ ((f.layout.lbaOf c).toList), q.2)
        | some (.lost false) => (q.1 ++ ((f.layout.lbaOf c).toList), q.2)
        | some (.lost true) => (q.1, true)
        | _ => q) q)
    ([], false)

/-- The blocks of a READ in ascending logical order (R24). -/
def readData (fs : List Fetch) : List Block :=
  fs.flatMap (fun f => f.wanted.filterMap (fun c => ((f.at c).bind CellState.block).map (·.2)))

/-- Whether a READ is finished with a row: every READ of it has ended and every block of it is known (R29). -/
def Fetch.rowDone (f : Fetch) (row : Nat) : Bool :=
  Fetch.done { f with cells := f.cells.filter (·.1.row == row), wanted := f.wanted.filter (·.row == row) }

/-- A READ is taken as far as it can go: rebuilding, giving up the rows it is done with, completing (R29, R33, R34). -/
def advanceRead (e : Entry) (s : State) : State :=
  let r := (e.reads.zip (List.range e.reads.length)).foldl
    (fun (q : State × List Fetch) x =>
      let b := settleFetch (.part e.arrival x.2) (.hostRead e.arrival x.2) .host (fun _ => false) (q.1, x.1)
      (b.1, q.2 ++ [b.2]))
    (s, [])
  let s := updReq e.arrival (fun e => { e with reads := r.2 }) r.1
  let s := e.keys.foldl
    (fun s k => if r.2.all (fun f => f.layout.id != k.layout || f.rowDone k.row) then giveUpKey e.arrival k s else s) s
  if r.2.all Fetch.done then
    let fails := readFailures r.2
    if fails.2 then complete e .notReady none [] s
    else match fails.1.min? with
      | some a => complete e .medium (some a) [] s
      | none => complete e .good none (readData r.2) s
  else s

/-! ## Writes (R35 to R39) -/

/-- The offsets a row's new blocks affect, ascending (R35). -/
def affected (news : List (Cell × Block)) : List Nat := ascending (news.map (·.1.off))

/-- The data positions of a row. -/
def Layout.dataPositions (l : Layout) (row : Nat) : List Nat := (List.range l.n).filter (· != l.parity row)

/-- The write path of a row: the first line of R35's table that applies (R35). -/
def State.pathOf (s : State) (l : Layout) (row : Nat) (news : List (Cell × Block)) : WritePath :=
  if s.missingInRow l row (l.parity row) then .parityMissing
  else if news.length == l.rowBlocks then .fullRow
  else if news.any (fun n => s.missingInRow l row n.1.pos) then .reconstructWrite
  else .readModifyWrite

/-- The blocks a path reads (R35). -/
def State.pathReads (s : State) (l : Layout) (row : Nat) (news : List (Cell × Block)) : WritePath → List Cell
  | .parityMissing | .fullRow => []
  | .reconstructWrite =>
    ((List.range l.n).filter (fun p => !s.missingInRow l row p)).flatMap
      (fun p => (affected news).map (fun o => { row := row, pos := p, off := o }))
  | .readModifyWrite =>
    news.map (·.1) ++ (affected news).map (fun o => { row := row, pos := l.parity row, off := o })

/-- READs for a set of places of one row: one for each run of offsets of a position. -/
def readCells (owner : Owner) (cls : OpClass) (cs : List Cell) (p : State × Fetch) : State × Fetch :=
  let units := (cs.map (fun c => (c.row, c.pos))).eraseDups
  units.foldl
    (fun p u =>
      (runsOf (ascending ((cs.filter (fun c => c.row == u.1 && c.pos == u.2)).map (·.off)))).foldl
        (fun p r => readRun owner cls u.1 u.2 r.1 r.2 p) p)
    p

/-- One row of a write part begins: its path is chosen and its reads are handed over (R35). -/
def beginRow (a idx : Nat) (l : Layout) (row : Nat) (news : List (Cell × Block)) (s : State) : State × RowWork :=
  let path := s.pathOf l row news
  let want := s.pathReads l row news path
  let r := readCells (.hostWriteRead a idx) .host want (s, Fetch.fresh l want)
  (r.1, { layout := l, row := row, news := news, path := path, fetch := r.2, stage := .reading, outstanding := 0 })

/-- A WRITE begins its member operations, its rows each on its own (R31 case 4, R35, R36, R39). -/
def beginWrite (e : Entry) (s : State) : State :=
  let placed := (s.places e.lba e.count).zip e.blocks
  let rows := (placed.map (fun p => (p.1.1, p.1.2.1.row))).eraseDups
  let r := (rows.zip (List.range rows.length)).foldl
    (fun (q : State × List RowWork) x =>
      let news := (placed.filter (fun p => p.1.1 == x.1.1 && p.1.2.1.row == x.1.2)).map (fun p => (p.1.2.1, p.2))
      let b := beginRow e.arrival x.2 x.1.1 x.1.2 news q.1
      (b.1, q.2 ++ [b.2]))
    (s, [])
  push (.advance e.arrival) (updReq e.arrival (fun e => { e with state := .issued, rows := r.2 }) r.1)

/-- The new block of a row at a place, when the part writes it. -/
def RowWork.new (w : RowWork) (c : Cell) : Option Block := (w.news.find? (·.1 == c)).map (·.2)

/-- The old content of a place as a source, when the row has it (R36, R147). -/
def RowWork.old (w : RowWork) (c : Cell) : Option (Data × BitVec 16) :=
  ((w.fetch.at c).bind CellState.block).map (fun b => sourceOf b.1 b.2)

/-- A block's data and application field as a source. -/
def asSource (b : Block) : Data × BitVec 16 := (b.data, b.app)

/-- Whether every block the path reads at an offset is in hand (R37). -/
def RowWork.whole (w : RowWork) (off : Nat) : Bool :=
  (w.fetch.wanted.filter (·.off == off)).all (fun c => (w.old c).isSome)

/-- The sources whose XOR is the new parity at an offset (R36, R37): the new data on the full-row path; old parity, old
and new data on read-modify-write; the data after the write on reconstruct-write, the missing position's old content being
the XOR of the others; and after a second failure the data as it will stand, lost blocks counting as zero. -/
def RowWork.paritySources (w : RowWork) (off : Nat) : List (Data × BitVec 16) :=
  let l := w.layout
  let cell := fun p => ({ row := w.row, pos := p, off := off } : Cell)
  let datas := l.dataPositions w.row
  let parity := (w.old (cell (l.parity w.row))).toList
  let after := datas.filterMap (fun p => match w.new (cell p) with
    | some b => some (asSource b)
    | none => w.old (cell p))
  if w.path == .fullRow || !w.whole off then after
  else
    match w.path with
    | .readModifyWrite =>
      parity ++ (w.news.filter (·.1.off == off)).flatMap (fun n => [asSource n.2] ++ (w.old n.1).toList)
    | .reconstructWrite =>
      let olds := datas.filterMap (fun p => w.old (cell p))
      let lost := datas.filter (fun p => (w.old (cell p)).isNone && (w.new (cell p)).isNone)
      after ++ (if lost.isEmpty then [] else parity ++ olds)
    | .fullRow | .parityMissing => after

/-- The places where a row's second failure puts poison: data blocks not to be had and not written (R37). -/
def RowWork.poisons (w : RowWork) : List Cell :=
  ((affected w.news).filter (fun o => !w.whole o)).flatMap (fun o =>
    ((w.layout.dataPositions w.row).map (fun p => ({ row := w.row, pos := p, off := o } : Cell))).filter
      (fun c => (w.new c).isNone && (w.old c).isNone))

/-- The blocks a row writes: new data, new parity, poison (R35 to R37). -/
def RowWork.writes (w : RowWork) : List (Cell × Block) :=
  w.news
    ++ (if w.path == .parityMissing then []
        else (affected w.news).map (fun o =>
          ({ row := w.row, pos := w.layout.parity w.row, off := o }, parityBlock (w.paritySources o))))
    ++ w.poisons.map (fun c => (c, poisonBlock))

/-- Blocks of one row gathered into member WRITEs: position, first offset, blocks. -/
def writeRuns (l : Layout) (ws : List (Cell × Block)) : List (Nat × Nat × List Block) :=
  (List.range l.n).flatMap (fun p =>
    let mine := ws.filter (·.1.pos == p)
    (runsOf (ascending (mine.map (·.1.off)))).map (fun r =>
      (p, r.1, (List.range r.2).filterMap (fun k => (mine.find? (·.1.off == r.1 + k)).map (·.2)))))

/-- The member block of a place of a bay, or of a VACANT position. -/
def State.blockFor (s : State) (i : Option Slot) (unit row off : Nat) : Nat :=
  match i with
  | some i => s.physical i unit row off
  | none => Config.dataBase + row * unit + off

/-- Poison blocks put down: bay, place and logical address. Each is captured, in ascending member block order (R37, R59, R146,
R149). -/
def capturePoison (unit : Nat) (ps : List (Option Slot × Cell × Option Nat)) (s : State) : State :=
  let caps := ps.map (fun p =>
    { kind := .poisonWritten, slot := p.1, block := some (s.blockFor p.1 unit p.2.1.row p.2.1.off),
      row := some p.2.1.row, lba := p.2.2 : Capture })
  (sortBy (fun c => c.block.getD 0) caps).foldl (fun s c => takeCapture c s) s

/-- The bays of the places where a row's second failure puts poison. A block lost with a missing position is captured too,
though its bay receives nothing: no later READ tells of its loss (R37, R147; DEDUCED, log entry 28). -/
def State.poisonAt (s : State) (l : Layout) (cs : List Cell) : List (Option Slot × Cell × Option Nat) :=
  cs.map (fun c => (s.bayAt l c.row c.pos, c, l.lbaOf c))

/-- DATA_LOST is raised once for a request (R146). -/
def tellLoss (a : Nat) (s : State) : State :=
  if (s.req a).any (·.lossTold) then s else raise .dataLost (updReq a (fun e => { e with lossTold := true }) s)

/-- A row whose reads are done captures the poison it puts down and hands over its data and parity writes together (R36 to
R38, R146). -/
def handRow (a idx : Nat) (w : RowWork) (s : State) : State × RowWork :=
  let l := w.layout
  let runs := (writeRuns l w.writes).filter (fun r => !s.missingInRow l w.row r.1)
  let s := capturePoison l.unit (s.poisonAt l w.poisons) s
  let s := if w.poisons.isEmpty then s else tellLoss a s
  let s := runs.foldl
    (fun s r => match s.bayAt l w.row r.1 with
      | none => s
      | some i => handUnit i .host l.unit w.row r.2.1 (fun b => .write b r.2.2) (.hostWriteWrite a idx) s) s
  (s, { w with stage := .writing, outstanding := runs.length })

/-- Whether a row waits for a label write that records the loss of one of its missing positions (R38). -/
def State.lossWaits (s : State) (l : Layout) (row : Nat) : Bool :=
  (List.range l.n).any (fun p => match s.bayAt l row p with
    | none => false
    | some i => s.roleMissing i && s.mark.losses.any (·.1 == i))

/-- Whether the row's own writes will cover a place, so that a rebuilt block there is not written back (R37). -/
def RowWork.overwrites (w : RowWork) (c : Cell) : Bool :=
  (w.new c).isSome || (c.pos == w.layout.parity w.row && (affected w.news).contains c.off)

/-- A row of a write part is taken as far as it can go (R36 to R38, R29). -/
def advanceRow (a idx : Nat) (w : RowWork) (s : State) : State × RowWork :=
  match w.stage with
  | .reading =>
    let r := settleFetch (.row a idx) (.hostWriteRead a idx) .host w.overwrites (s, w.fetch)
    let w := { w with fetch := r.2 }
    if w.fetch.done then handRow a idx w r.1 else (r.1, w)
  | .writing =>
    if w.outstanding == 0 then
      (giveUpKey a { layout := w.layout.id, row := w.row } s, { w with stage := .ended })
    else (s, w)
  | .ended =>
    if s.lossWaits w.layout w.row then (s, w)
    else (s, { w with stage := .finished (s.ctl.volume == .offline) })
  | .finished _ => (s, w)

/-- A row taken through its stages until it can go no further: there are three passages at most (R36 to R38). -/
def driveRow (a idx : Nat) (w : RowWork) (s : State) : State × RowWork :=
  let r := advanceRow a idx w s
  let r := advanceRow a idx r.2 r.1
  advanceRow a idx r.2 r.1

/-- Whether a row has finished, and how (R38). -/
def RowWork.finishedAs (w : RowWork) : Option Bool :=
  match w.stage with
  | .finished o => some o
  | _ => none

/-- A WRITE is taken as far as it can go, and completes when its last row has finished; a DRAINING one sends nothing
(R24, R38, R43). -/
def advanceWrite (e : Entry) (s : State) : State :=
  let r := (e.rows.zip (List.range e.rows.length)).foldl
    (fun (q : State × List RowWork) x =>
      let b := driveRow e.arrival x.2 x.1 q.1
      (b.1, q.2 ++ [b.2]))
    (s, [])
  let s := updReq e.arrival (fun e => { e with rows := r.2 }) r.1
  if e.state == .issued && r.2.all (fun w => w.finishedAs.isSome) then
    complete e (if r.2.any (fun w => w.finishedAs == some true) then .notReady else .good) none [] s
  else s

/-! ## Grants (R28, R31) -/

/-- A granted request: NOT_READY, held, joined again under new keys, or ISSUED (R31). -/
def recheckGranted (a : Nat) (s : State) : State :=
  match s.req a with
  | none => s
  | some e =>
    if s.ctl.volume == .offline then complete e .notReady none [] s
    else
      match s.holdReason e with
      | some r => holdRequest e r (leaveLocks a s)
      | none =>
        let ks := s.keysFor e.lba e.count
        if ks != e.keys then
          let s := leaveLocks a s
          let r := joinOrQueue a (e.kind == .write) ks s
          updReq a (fun e => { e with keys := ks, state := if r.2 then .locking else .queued }) r.1
        else if e.kind == .write then beginWrite e s
        else beginRead e s

/-- The keys of a settle step's rows (R67). -/
def Step.keys (t : Step) : List Key := (List.range t.rows).map (fun i => { layout := .new, row := t.front + i })

/-- The requests and settle steps that wait for a grant: arrival number, as a write, keys (R28, R67). -/
def State.lockWaiters (s : State) : List (Nat × Bool × List Key) :=
  (s.port.entries.filter (·.state == .locking)).map (fun e => (e.arrival, e.kind == .write, e.keys))
    ++ s.steps.filterMap (fun p => match p.2.arrival with
      | some a => if p.2.stage == .gather && !p.2.granted then some (a, true, p.2.keys) else none
      | none => none)

/-- Of some waiters the one with the lowest arrival number. -/
def firstArrival (ws : List (Nat × Bool × List Key)) : Option (Nat × Bool × List Key) :=
  ws.foldl (fun b w => match b with
    | none => some w
    | some v => if w.1 < v.1 then some w else some v) none

/-- A waiter that may be granted all its keys is granted them, the earliest first (R28, R29, R31, R67). -/
def ruleGrant (s : State) : Option State :=
  (firstArrival (s.lockWaiters.filter (fun w => s.grantable w.1 w.2.1 w.2.2))).map (fun w =>
    let s := grantKeys w.1 w.2.1 w.2.2 s
    match s.steps.find? (fun p => p.2.arrival == some w.1) with
    | some (g, _) => updStep g (fun t => { t with granted := true }) s
    | none => recheckGranted w.1 s)

/-- The first queued request or settle step joins its entries as soon as enough are free (R27). -/
def ruleQueued (s : State) : Option State :=
  match s.locks.queued with
  | [] => none
  | q :: rest =>
    if s.lockFits q.keys then
      let s := { s with locks := { s.locks with queued := rest } }
      some (updReq q.arrival (fun e => { e with state := .locking }) (joinKeys q.arrival q.write q.keys s))
    else none

/-! ## FLUSH (R40) -/

/-- A FLUSH whose wait has ended hands a member FLUSH to every present MEMBER or JOINING bay; one whose flushes have all
ended completes (R40). -/
def ruleFlush (s : State) : Option State :=
  match s.port.entries.find? (fun e => e.kind == .flush && e.state == .flushing
      && (match e.flushes with
          | none => !s.port.entries.any (fun x => x.kind == .write && x.arrival < e.arrival)
          | some n => n == 0)) with
  | none => none
  | some e =>
    match e.flushes with
    | none =>
      let targets := s.serving
      let s := updReq e.arrival (fun e => { e with flushes := some targets.length }) s
      some (targets.foldl (fun s i => handReserve i .host .flush (.hostFlush e.arrival) s) s)
    | some _ => some (complete e (if s.ctl.volume == .offline then .notReady else .good) none [] s)

/-! ## DRAINING entries (R43, R45) -/

/-- The request an operation belongs to. -/
def Owner.arrival : Owner → Option Nat
  | .hostRead a _ | .hostWriteRead a _ | .hostWriteWrite a _ | .hostFlush a => some a
  | .drained a => a
  | _ => none

/-- Whether an entry still has member operations in progress (R43). -/
def State.requestBusy (s : State) (e : Entry) : Bool :=
  s.allOps.any (fun op => op.owner.arrival == some e.arrival)
    || e.rows.any (fun w => w.stage == .reading || (w.stage == .writing && w.outstanding != 0))
    || s.plan.areaWrites.any (fun w => w.source == .page e.arrival)

/-- A DRAINING entry is freed when the last of its member operations has ended (R43, R45). -/
def ruleDrained (s : State) : Option State :=
  (s.port.entries.find? (fun e => e.state == .draining && !s.requestBusy e)).map (fun e =>
    freeEntry e.arrival (leaveLocks e.arrival (strikeRequest e.arrival s)))

/-- A request is looked at again (R33 to R38). -/
def advanceRequest (a : Nat) (s : State) : State :=
  match s.req a with
  | none => s
  | some e =>
    match e.kind, e.state with
    | .read, .issued => advanceRead e s
    | .write, .issued => advanceWrite e s
    | .write, .draining => advanceWrite e s
    | _, _ => s

end Sys2Proof.Machine
end

