-- ==== Sys2Proof/Machine/Mover.lean ====
section
/-! DEFINITION. The mover: beginning, gathering, stains and recopies, FREEZE, SPILL, PLACE, MARK and RETIRE
(R46 to R63, R67 to R71, R87, R89, R92). -/

namespace Sys2Proof.Machine

/-! ## Beginning a step (R48, R49, R51, R67, R68) -/

/-- Whether the mover has leave to begin steps (R48, R72, R73, R74, R118). -/
def State.mayMove (s : State) : Bool :=
  (s.ctl.state == .running || s.ctl.state == .settling) && s.mover.phase != .none && !s.ctl.pauseRequest
    && !s.ctl.faultPending && !s.plan.incomingLost && !s.plan.dropAsked

/-- The row at which the next step would begin: F, or where the step past FREEZE ends (R48). -/
def State.beginRow (s : State) : Nat :=
  match s.steps.find? (fun p => p.2.stage.pastFreeze) with
  | some (_, t) => t.front + t.rows
  | none => s.mover.front

/-- The slot the next step takes: the one not held, A first (R48). -/
def State.freeSlot (s : State) : Option Staging :=
  if s.mover.slotA.isNone then some .a else if s.mover.slotB.isNone then some .b else none

/-- One member READ of a column: whole units of consecutive rows at one position (R68). -/
def readColumn (owner : Owner) (row pos n : Nat) (p : State × Fetch) : State × Fetch :=
  let s := p.1
  let f := p.2
  match s.bayAt f.layout row pos with
  | none => (s, f)
  | some i =>
    let id := s.shelf.nextOp
    let cells := ((List.range n).flatMap (fun k => f.layout.unitCells { row := row + k, pos := pos })).filter
      (fun c => (f.at c).isNone)
    (handUnit i .mover f.layout.unit row 0 (fun b => .read b (n * f.layout.unit)) owner s,
     { f with cells := f.cells ++ cells.map (fun c => (c, .waiting id)) })

/-- A unit of the read set read whole, unless it has been asked for already or its position is missing (R51). -/
def readUnit (owner : Owner) (u : RowUnit) (p : State × Fetch) : State × Fetch :=
  if p.1.missingInRow p.2.layout u.row u.pos || p.2.cells.any (fun x => x.1.row == u.row && x.1.pos == u.pos) then p
  else readRun owner .mover u.row u.pos 0 p.2.layout.unit p

/-- A source unit asked for: itself, or every other unit of its row when its position is missing (R51, R68). -/
def readSource (owner : Owner) (u : RowUnit) (p : State × Fetch) : State × Fetch :=
  if p.1.missingInRow p.2.layout u.row u.pos then
    let p := ((List.range p.2.layout.n).filter (· != u.pos)).foldl
      (fun p k => readUnit owner { row := u.row, pos := k } p) p
    (p.1, markBad (p.2.layout.unitCells u) p.2)
  else readUnit owner u p

/-- The units a fetch has a READ under way for. -/
def Fetch.reading (f : Fetch) : List RowUnit :=
  (f.cells.filterMap (fun x => match x.2 with
    | .waiting _ => some ({ row := x.1.row, pos := x.1.pos } : RowUnit)
    | _ => none)).eraseDups

/-- The number of member READs a fetch has under way. -/
def Fetch.underWay (f : Fetch) : Nat :=
  ((f.cells.filterMap (fun x => match x.2 with
    | .waiting op => some op
    | _ => none)).eraseDups).length

/-- A gathering step with its fetch as it now stands: the read set grows by the units asked for, and the outstanding
count follows (R47, R51). -/
def Step.fetched (t : Step) (f : Fetch) : Step :=
  { t with fetch := f, readSet := t.readSet ++ f.reading.filter (fun u => !t.readSet.contains u), outstanding := f.underWay }

/-- A step with the fields fixed when it begins (R47, R48, R16, R17). -/
def newStep (kind : Phase) (l : Layout) (front rows first stop : Nat) (source : List RowUnit) : Step :=
  { kind := kind, front := front, rows := rows, first := first, stop := stop, source := source, readSet := [],
    stage := .gather, stained := [], stains := 0, pinned := false, spill := false, arrival := none, granted := false,
    outstanding := 0, fetch := Fetch.fresh l (source.flatMap l.unitCells), built := [], lost := [], repairs := [],
    handed := false, restore := false, poisoned := [] }

/-- The step the mover would begin now (R48, R16 to R18). -/
def State.nextStep (s : State) (l : Layout) : Step :=
  let front := s.beginRow
  let rows := min (effectiveStep s.ctl.tuning.stepRows l) (s.endRow - front)
  match s.mover.phase, s.growing with
  | .migrate, some (o, n) =>
    let first := front * n.rowBlocks
    let stop := stepStop o n front rows
    let source := growthSource o first stop
    { newStep .migrate l front rows first stop source with fetch := Fetch.fresh o (source.flatMap o.unitCells) }
  | .rebuild, _ =>
    let q := (s.plan.incoming.map (·.q)).getD 0
    newStep .rebuild l front rows 0 0 ((List.range rows).map (fun i => { row := front + i, pos := q }))
  | k, _ => newStep k l front rows 0 0 []

/-- The reads a beginning step asks for (R51, R68). -/
def beginReads (g : Staging) (t : Step) (s : State) : State × Fetch :=
  match t.kind, s.plan.incoming with
  | .rebuild, some inc =>
    match s.bayAt t.fetch.layout t.front inc.q with
    | some i =>
      if s.roleMissing i then t.source.foldl (fun p u => readSource (.gather g) u p) (s, t.fetch)
      else (cutRows s i t.front t.rows).foldl (fun p r => readColumn (.gather g) r.1 inc.q r.2 p) (s, t.fetch)
    | none => t.source.foldl (fun p u => readSource (.gather g) u p) (s, t.fetch)
  | _, _ => t.source.foldl (fun p u => readSource (.gather g) u p) (s, t.fetch)

/-- A SETTLE step takes an arrival number and joins the row lock entries of its rows (R48, R67). -/
def settleJoin (g : Staging) (t : Step) (s : State) : State :=
  let a := s.port.nextArrival
  let s := { s with port := { s.port with nextArrival := a + 1 } }
  let s := setStep g (some { t with arrival := some a }) s
  (joinOrQueue a true t.keys s).1

/-- A step begins (R48, R51, R67 to R69). -/
def beginStep (g : Staging) (l : Layout) (s : State) : State :=
  let t := s.nextStep l
  if t.kind == .settle then settleJoin g t s
  else
    let r := beginReads g t s
    push (.stepAdvance g) (setStep g (some (t.fetched r.2)) r.1)

/-- The mover begins a step whenever R48's conditions hold (R48). -/
def ruleBegin (s : State) : Option State :=
  if s.mayMove && s.steps.all (fun p => p.2.stage != .gather) && s.beginRow < s.endRow then
    match s.freeSlot, s.written with
    | some g, some l => some (beginStep g l s)
    | _, _ => none
  else none

/-! ## Gathering, stains, recopies and pins (R52 to R55) -/

/-- A gathering step is taken as far as it can go with the blocks it has (R52). -/
def advanceStep (g : Staging) (s : State) : State :=
  match s.stepIn g with
  | none => s
  | some t =>
    if t.stage == .gather then
      let r := settleFetch (.step g) (.gather g) .mover (fun _ => false) (s, t.fetch)
      updStep g (fun t => t.fetched r.2) r.1
    else s

/-- A gather READ has ended: its blocks are judged and, when the step has been abandoned, discarded (R52, R71, R142). -/
def endGather (g : Staging) (op : MemberOp) (res : OpResult) (s : State) : State :=
  match s.stepIn g with
  | none => s
  | some t =>
    if t.stage == .gather then
      let r := arriveFetch (.step g) op res (s, t.fetch)
      push (.stepAdvance g) (updStep g (fun t => t.fetched r.2) r.1)
    else updStep g (fun t => { t with outstanding := t.outstanding - 1 }) (judgeOrphan op res s)

/-- Whether a step's gathering is finished (R52, R67, R69). -/
def Step.gathered (t : Step) : Bool :=
  match t.kind with
  | .settle => t.granted
  | .form => true
  | .migrate | .rebuild | .none => t.fetch.done

/-- What a step keeps of the blocks it holds when some units are to be read again: their blocks go, and what was rebuilt
or lost in their rows is to be made again (R54). -/
def Fetch.forget (f : Fetch) (us : List RowUnit) : Fetch :=
  { f with cells :=
    (f.cells.filter (fun x => !us.contains { row := x.1.row, pos := x.1.pos })).map (fun x =>
      match x.2 with
      | .rebuilt _ | .lost _ => if us.any (·.row == x.1.row) then (x.1, .bad) else x
      | _ => x) }

/-- A stained unit asked for again: as a source unit is, or, when it is none and its position is missing now, not at all (R51,
R54). -/
def rereadUnit (owner : Owner) (source : List RowUnit) (u : RowUnit) (p : State × Fetch) : State × Fetch :=
  if source.contains u then readSource owner u p else readUnit owner u p

/-- A recopy (R54), and the pin it may bring (R55). -/
def recopy (g : Staging) (t : Step) (s : State) : State :=
  let count := min 7 (t.stains + 1)
  let r := t.stained.foldl (fun p u => rereadUnit (.gather g) t.source u p) (s, t.fetch.forget t.stained)
  push (.stepAdvance g)
    (updStep g (fun t =>
      { t.fetched r.2 with
        stained := [], stains := count, pinned := t.pinned || s.ctl.tuning.stainLimit ≤ count }) r.1)

/-- A step whose gathering is finished with stains makes a recopy (R54). -/
def ruleRecopy (s : State) : Option State :=
  (s.steps.find? (fun p => p.2.stage == .gather && p.2.gathered && !p.2.stained.isEmpty)).map (fun p =>
    recopy p.1 p.2 s)

/-- A step takes the stain of a unit (R53). -/
def Step.stain (u : RowUnit) (t : Step) : Step :=
  if t.stained.contains u then t else { t with stained := t.stained ++ [u] }

/-- The units of a step's read set that a bay's member row holds. -/
def State.readAt (s : State) (t : Step) (i : Slot) (rows : List Nat) : List RowUnit :=
  t.readSet.filter (fun u => rows.contains u.row && s.bayAt t.fetch.layout u.row u.pos == some i)

/-- A host WRITE has ended at some member rows of a bay: it stains the gathering step's units there (R53). -/
def stainSteps (i : Slot) (rows : List Nat) (s : State) : State :=
  (s.steps.filter (fun p => p.2.stage == .gather)).foldl
    (fun s p => (s.readAt p.2 i rows).foldl (fun s u => updStep p.1 (Step.stain u) s) s) s

/-- The pin of a gathering step when the stain limit changes (R55). -/
def repin (s : State) : State :=
  (s.steps.filter (fun p => p.2.stage == .gather && s.ctl.tuning.stainLimit ≤ p.2.stains)).foldl
    (fun s p => updStep p.1 (fun t => { t with pinned := true }) s) s

/-! ## FREEZE (R56) -/

/-- Whether a row of a host write contains a block in a step (R56; DEDUCED, log entry 10). -/
def Step.meetsRow (t : Step) (w : RowWork) : Bool :=
  match t.kind with
  | .migrate => w.row * w.layout.rowBlocks < t.stop && t.first < (w.row + 1) * w.layout.rowBlocks
  | .rebuild => t.front ≤ w.row && w.row < t.front + t.rows
  | .settle | .form | .none => false

/-- Whether some issued host write has an unfinished row that contains a block in the step (R56). A host write that a link
reset has made DRAINING still counts: its member operations go on (R43; DEDUCED, log entry 53). -/
def State.writeMeets (s : State) (t : Step) : Bool :=
  s.port.entries.any (fun e => e.rows.any (fun w => w.finishedAs.isNone && t.meetsRow w))

/-- Whether an operation is one of a host write (R56). -/
def Owner.ofHostWrite : Owner → Bool
  | .hostWriteRead _ _ | .hostWriteWrite _ _ => true
  | _ => false

/-- Whether a member operation of a host write, a remapping included, is in flight on a unit of the step's read set (R56). -/
def State.hostWriteOn (s : State) (t : Step) : Bool :=
  (s.allOps.filter (·.owner.ofHostWrite)).any (fun op => !(s.readAt t op.slot (s.rowsOf op)).isEmpty)
    || (s.integ.fills.filter (·.failed.owner.ofHostWrite)).any (fun f => !(s.readAt t f.slot [f.row]).isEmpty)

/-- Whether a step may leave GATHER (R56, R49). -/
def State.mayFreeze (s : State) (t : Step) : Bool :=
  t.stage == .gather && t.gathered && t.stained.isEmpty && s.atRest
    && (t.kind == .settle || t.kind == .form || (!s.writeMeets t && !s.hostWriteOn t))

/-- A staged block as it is placed: whether it is poison, whether the step itself lost it, and the block (R52, R56). -/
structure Staged where
  poison : Bool
  lost   : Bool
  block  : Block
  deriving DecidableEq, Repr

/-- A gathered block as it is staged; a lost one is poison (R52). -/
def stagedOf : Option CellState → Staged
  | some (.got b) => { poison := false, lost := false, block := b }
  | some (.rebuilt b) => { poison := false, lost := false, block := b }
  | some (.poison b) => { poison := true, lost := false, block := b }
  | _ => { poison := true, lost := true, block := poisonBlock }

/-- A data block of a row being built: from the source, or a zero block of the zero tail or of an empty row (R17, R18). -/
def Step.dataBlock (t : Step) (lba : Nat) : Staged :=
  if t.kind == .migrate && lba < t.stop then stagedOf (t.fetch.at (t.fetch.layout.cellOf lba))
  else { poison := false, lost := false, block := zeroBlock lba }

/-- The parity block of staged data blocks (R56, R143). -/
def stagedParity (bs : List Staged) : Block := parityBlock (bs.map (fun b => sourceOf b.poison b.block))

/-- One row of the layout being written, built whole: data units then parity unit (R56, R67, R69). -/
def Step.buildRow (t : Step) (l : Layout) (row : Nat) : List (RowUnit × List Block) :=
  let lba := fun (d o : Nat) => row * l.rowBlocks + d * l.unit + o
  (List.range l.d).map (fun d =>
    ({ row := row, pos := l.dataPos row d }, l.offsets.map (fun o => (t.dataBlock (lba d o)).block)))
    ++ [({ row := row, pos := l.parity row },
        l.offsets.map (fun o => stagedParity ((List.range l.d).map (fun d => t.dataBlock (lba d o)))))]

/-- The places under the layout being written where the step itself puts poison (R52, R59). -/
def Step.lostPlaces (t : Step) (l : Layout) : List Cell :=
  ((runOf t.first (t.stop - t.first)).filter (fun a => (t.dataBlock a).lost)).map l.cellOf

/-- What a REBUILD step has for a place of a damaged offset: the block as it stands, or poison (R70). -/
def Step.standing (t : Step) (s : State) (c : Cell) : Staged :=
  match Fetch.knows s t.fetch c with
  | .known p b => { poison := p, lost := false, block := b }
  | _ => { poison := true, lost := true, block := poisonBlock }

/-- The data places of a row at an offset. -/
def Layout.dataCells (l : Layout) (c : Cell) : List Cell := (l.dataPositions c.row).map (fun p => { c with pos := p })

/-- The recomputed parity of a damaged offset (R70). -/
def Step.repairParity (t : Step) (s : State) (l : Layout) (c : Cell) : Block :=
  stagedParity ((l.dataCells c).map (t.standing s))

/-- A block of position q as a REBUILD step stages it (R68, R70). -/
def Step.columnBlock (t : Step) (s : State) (l : Layout) (c : Cell) : Block :=
  match t.fetch.at c with
  | some (.got b) | some (.poison b) | some (.rebuilt b) => b
  | _ => if c.pos == l.parity c.row then t.repairParity s l c else poisonBlock

/-- The places of position q a REBUILD step could not rebuild (R70). -/
def Step.damaged (t : Step) : List Cell :=
  t.fetch.wanted.filter (fun c => match t.fetch.at c with
    | some (.lost _) => true
    | _ => false)

/-- The poison a REBUILD step puts down: position q's lost data blocks and the other data blocks it cannot have (R70). -/
def Step.damagePoison (t : Step) (s : State) (l : Layout) : List Cell :=
  t.damaged.flatMap (fun c => (l.dataCells c).filter (fun d => (t.standing s d).lost))

/-- The repair blocks of a REBUILD step: the other poisoned data blocks and the recomputed parity (R70). -/
def Step.repairBlocks (t : Step) (s : State) (l : Layout) : List (Cell × Block) :=
  t.damaged.flatMap (fun c =>
    (((l.dataCells c).filter (fun d => d.pos != c.pos && (t.standing s d).lost)).map (fun d => (d, poisonBlock)))
      ++ (if l.parity c.row == c.pos then [] else [({ c with pos := l.parity c.row }, t.repairParity s l c)]))

/-- A step's staging once its rows are built (R56, R68, R70). -/
def Step.build (t : Step) (s : State) (l : Layout) : Step :=
  let t' :=
    if t.kind == .rebuild then
      { t with
        built := t.source.map (fun u => (u, (l.unitCells u).map (t.columnBlock s l)))
        lost := t.damagePoison s l, repairs := t.repairBlocks s l }
    else
      { t with
        built := (List.range t.rows).flatMap (fun i => t.buildRow l (t.front + i))
        lost := if t.kind == .migrate then t.lostPlaces l else [] }
  { t' with stage := .freeze, fetch := { t.fetch with cells := [], wanted := [] } }

/-- The mark state when a step enters FREEZE (R79). -/
def markFreeze : MarkState → MarkState
  | .off => .off
  | .initial | .clean | .dirty => .dirty

/-- A step whose last condition has come about enters FREEZE and builds its rows; it reads no more (R56, R144). -/
def ruleFreeze (s : State) : Option State :=
  match s.steps.find? (fun p => s.mayFreeze p.2), s.written with
  | some (g, t), some l =>
    some (setStep g (some (t.build s l))
      (strikeReader (.step g) { s with mark := { s.mark with state := markFreeze s.mark.state } }))
  | _, _ => none

/-! ## The pre-place decision and SPILL (R57, R58, R87, R92) -/

/-- The stage a step enters with a fresh set of writes to hand over. -/
def Step.enter (st : Stage) (t : Step) : Step := { t with stage := st, handed := false, outstanding := 0 }

/-- A built step's next stage: PLACE, or for a MIGRATE step the answer of the pre-place decision, a forced mark being
raised first when Fm lies below the step (R57, R87, R88). -/
def ruleDecide (s : State) : Option State :=
  match s.steps.find? (fun p => p.2.stage == .freeze) with
  | none => none
  | some (g, t) =>
    if t.kind == .migrate && s.safeRow.any (· ≤ t.front + t.rows - 1) then
      if s.mark.front == t.front then
        some (updStep g (fun t => { t.enter .spill with spill := true })
          { s with mark := { s.mark with bar := some t.front } })
      else if s.mark.causes.any (fun c => c.kind == .forced t.front) then none
      else some (raiseCause (.forced t.front) s)
    else some (updStep g (Step.enter .place) s)

/-- The staged blocks of some rows of a position, in row order (R58, R59). -/
def Step.column (t : Step) (pos row n : Nat) : List Block :=
  (List.range n).flatMap (fun k => ((t.built.find? (fun u => u.1 == { row := row + k, pos := pos })).map (·.2)).getD [])

/-- The positions of a layout that are not missing, with their bays. -/
def State.presentPositions (s : State) (l : Layout) : List (Nat × Slot) :=
  (List.range l.n).filterMap (fun p => if s.missing l p then none else (l.slotAt p).map (fun i => (p, i)))

/-- A step in SPILL hands over its spill columns (R58). -/
def handSpill (g : Staging) (t : Step) (l : Layout) (s : State) : State :=
  let targets := s.presentPositions l
  let s := updStep g (fun t => { t with handed := true, outstanding := targets.length }) s
  targets.foldl
    (fun s x => handReserve x.2 .mover (.write Config.spillBase (t.column x.1 t.front t.rows)) (.spillColumn g false) s) s

/-- A step in SPILL hands over its columns, then asks for the spill record when all have ended (R58, R92). -/
def ruleSpill (s : State) : Option State :=
  match s.steps.find? (fun p => p.2.stage == .spill), s.written with
  | some (g, t), some l =>
    if !t.handed then some (handSpill g t l s)
    else if t.outstanding == 0 then
      match s.mark.spill with
      | .none | .standing _ => some { s with mark := { s.mark with spill := .asked g } }
      | .asked _ | .writing _ _ _ => none
    else none
  | _, _ => none

/-- The spill record write begins when no label write is in flight; when all its WRITEs have ended the record stands and
the step enters PLACE (R92, R58). -/
def ruleSpillRecord (s : State) : Option State :=
  match s.mark.spill with
  | .asked g =>
    match s.mark.flight, s.stepIn g, s.written with
    | none, some t, some l =>
      let r : SpillRecord :=
        { front := t.front, rows := t.rows, first := t.first, stop := t.stop, generation := s.mark.generation }
      let targets := (s.presentPositions l).filter (fun x => (s.bay x.2).present)
      let s := { s with mark := { s.mark with spill := .writing g r targets.length } }
      some (targets.foldl
        (fun s x => handReserve x.2 .mark (.write Config.spillRecordBlock [spillBlock r]) (.spillRecord false) s) s)
    | _, _, _ => none
  | .writing g r 0 =>
    some (updStep g (Step.enter .place) { s with mark := { s.mark with spill := .standing r } })
  | .writing _ _ _ | .standing _ | .none => none

/-! ## PLACE (R59, R67, R70) -/

/-- One place write: bay, row, offset, blocks. -/
structure PlaceWrite where
  slot   : Slot
  row    : Nat
  off    : Nat
  blocks : List Block
  deriving DecidableEq, Repr

/-- The writes of one position's column at a bay, cut at remapped rows (R59). -/
def Step.columnWrites (t : Step) (s : State) (pos : Nat) (i : Slot) : List PlaceWrite :=
  (cutRows s i t.front t.rows).map (fun r => { slot := i, row := r.1, off := 0, blocks := t.column pos r.1 r.2 })

/-- The repair writes of a REBUILD step, none to a missing position (R70). -/
def Step.repairWrites (t : Step) (s : State) (l : Layout) : List PlaceWrite :=
  (distinctRows (t.repairs.map (·.1))).flatMap (fun row =>
    ((writeRuns l (t.repairs.filter (·.1.row == row))).filter (fun r => !s.missing l r.1)).filterMap (fun r =>
      (l.slotAt r.1).map (fun i => { slot := i, row := row, off := r.2.1, blocks := r.2.2 })))

/-- Every write of a step's PLACE (R59, R70). -/
def Step.placeWrites (t : Step) (s : State) (l : Layout) : List PlaceWrite :=
  match t.kind, s.plan.incoming with
  | .rebuild, some inc => t.columnWrites s inc.q inc.slot ++ t.repairWrites s l
  | _, _ => (s.presentPositions l).flatMap (fun x => t.columnWrites s x.1 x.2)

/-- Whether an issued host read has a member read in flight on blocks a place write covers (R59). The member reads of a host
read that a link reset has made DRAINING still count while they are in flight (R43; DEDUCED, log entry 53). -/
def State.readOn (s : State) (unit : Nat) (w : PlaceWrite) : Bool :=
  s.allOps.any (fun op => match op.owner with
    | .hostRead _ _ =>
      op.slot == w.slot && overlaps op.kind.span (s.physical w.slot unit w.row w.off, w.blocks.length)
    | _ => false)

/-- A step in PLACE hands over its place writes once no host read is in flight on their blocks (R59). -/
def rulePlace (s : State) : Option State :=
  match s.steps.find? (fun p => p.2.stage == .place && !p.2.handed), s.written with
  | some (g, t), some l =>
    let ws := t.placeWrites s l
    if ws.any (s.readOn l.unit) then none
    else
      let s := updStep g (fun t => { t with handed := true, outstanding := ws.length }) s
      some (ws.foldl
        (fun s w => handUnit w.slot .mover l.unit w.row w.off (fun b => .write b w.blocks) (.place g) s) s)
  | _, _ => none

/-- The bay a step places a block at: the incoming bay for position q of a REBUILD step (R59, R68). -/
def State.placeBay (s : State) (t : Step) (l : Layout) (pos : Nat) : Option Slot :=
  match t.kind, s.plan.incoming with
  | .rebuild, some inc => if pos == inc.q then some inc.slot else l.slotAt pos
  | _, _ => l.slotAt pos

/-- The poison blocks among a step's own that a place write carries (R59, R70). -/
def State.poisonIn (s : State) (t : Step) (l : Layout) (op : MemberOp) : List Cell :=
  t.lost.filter (fun c => match op.home with
    | none => false
    | some (row, off) =>
      let at_ := c.row * l.unit + c.off
      s.placeBay t l c.pos == some op.slot && row * l.unit + off ≤ at_ && at_ < row * l.unit + off + op.kind.span.2)

/-- A place write that has ended GOOD has written the step's poison that it carried (R59, R146). -/
def notePoison (g : Staging) (op : MemberOp) (res : OpResult) (s : State) : State :=
  match res, s.stepIn g, s.written with
  | .good _, some t, some l =>
    let cells := s.poisonIn t l op
    updStep g (fun t => { t with poisoned := t.poisoned ++ cells.map (fun c => (op.slot, c)) }) s
  | _, _, _ => s

/-- The poison a step has written, as it is captured (R59, R146, R149). -/
def Step.poisonWritten (t : Step) (l : Layout) : List (Option Slot × Cell × Option Nat) :=
  t.poisoned.map (fun x => (some x.1, x.2, l.lbaOf x.2))

/-- Whether a mark is due for a step whose PLACE has ended (R89). -/
def State.markDue (s : State) (t : Step) : Bool :=
  t.spill || s.ctl.tuning.markInterval ≤ s.mark.unmarked + 1
    || (t.kind == .migrate && t.front + t.rows == s.growthEnd) || s.bandHeld

/-! ## RETIRE (R61, R62, R79) -/

/-- The end of the MIGRATE phase begins the SETTLE phase, which is at its end too when F_end equals R (R46, R62, R108). -/
def endMigrate (s : State) : State :=
  if s.mover.phase == .migrate && s.mover.front == s.growthEnd then
    { s with mover := { s.mover with phase := .settle } }
  else s

/-- A step retires: the front passes it, its holds are released, its record leaves, an unmarked step is counted, the mark
state follows (R61, R79), and a missing count that rises with the front is reported (R118, R135, R136). -/
def retire (g : Staging) (t : Step) (marked : Bool) (s : State) : State :=
  let s := setStep g none { s with mover := { s.mover with front := t.front + t.rows } }
  let s := releaseHolds (fun r => r == .step t.front) s
  let s := if marked then s else { s with mark := { s.mark with unmarked := s.mark.unmarked + 1 } }
  let s := match s.mark.state with
    | .initial => s
    | _ => refreshMark s
  reportChange (endMigrate s)

/-- A step's PLACE ends when its last place write has ended: poison is captured, a SETTLE step gives up its keys, and it
enters MARK or retires (R59, R60, R61, R67, R89). -/
def endPlace (g : Staging) (t : Step) (l : Layout) (s : State) : State :=
  let ps := t.poisonWritten l
  let s := capturePoison l.unit ps s
  let s := if ps.isEmpty then s else raise .dataLost s
  let s := match t.arrival with
    | some a => leaveLocks a s
    | none => s
  if s.markDue t then raiseCause (.step (t.front + t.rows)) (updStep g (Step.enter .mark) s)
  else retire g t false s

/-- The end of PLACE, when it has come (R59). -/
def rulePlaced (s : State) : Option State :=
  match s.steps.find? (fun p => p.2.stage == .place && p.2.handed && p.2.outstanding == 0 && !p.2.restore), s.written with
  | some (g, t), some l => some (endPlace g t l s)
  | _, _ => none

/-- A member operation of a step other than a read has ended (R47, R58, R59). -/
def stepWriteEnded (g : Staging) (s : State) : State :=
  updStep g (fun t => { t with outstanding := t.outstanding - 1 }) s

/-- A spill column WRITE has ended: MEDIA once more, a second MEDIA fails the bay (R58, R130). -/
def endSpillColumn (g : Staging) (again : Bool) (op : MemberOp) (res : OpResult) (s : State) : State :=
  match res with
  | .media _ _ =>
    if again then stepWriteEnded g (failBay op.slot s)
    else handReserve op.slot .mover op.kind (.spillColumn g true) s
  | _ => stepWriteEnded g s

/-- One WRITE of the spill record has ended (R92). -/
def spillRecordEnded (s : State) : State :=
  match s.mark.spill with
  | .writing g r n => { s with mark := { s.mark with spill := .writing g r (n - 1) } }
  | _ => s

/-- A spill record WRITE has ended: MEDIA once more, a further failure fails the bay (R92, R81). -/
def endSpillRecord (again : Bool) (op : MemberOp) (res : OpResult) (s : State) : State :=
  match res with
  | .good _ | .inquired _ _ => spillRecordEnded s
  | .media _ _ =>
    if again then spillRecordEnded (failBay op.slot s)
    else handReserve op.slot .mark op.kind (.spillRecord true) s
  | .timeout | .gone => spillRecordEnded (failBay op.slot s)

end Sys2Proof.Machine
end

