-- ==== Sys2Proof/Machine/Remap.lean ====
section
/-! DEFINITION. Remap tables: the decision when a data-area WRITE ends MEDIA, and the filling of a spare slot
(R151 to R154). -/

namespace Sys2Proof.Machine

/-- The member row of the unit a WRITE's first failing block lies in (R152). -/
def State.failingRow (s : State) (op : MemberOp) (first : Nat) : Nat :=
  let home := op.home.getD (0, 0)
  let idx := min (first - op.kind.span.1) (op.kind.span.2 - 1)
  home.1 + (home.2 + idx) / s.unit

/-- The blocks a WRITE carries for one member row, by offset (R153). -/
def State.carried (s : State) (op : MemberOp) (row : Nat) : List (Option Block) :=
  let home := op.home.getD (0, 0)
  let blocks := match op.kind with
    | .write _ bs => bs
    | _ => []
  (List.range s.unit).map (fun o =>
    let at_ := row * s.unit + o
    let from_ := home.1 * s.unit + home.2
    if at_ < from_ then none else blocks[at_ - from_]?)

/-- The lowest free spare slot of a bay's table (R152). -/
def Bay.freeSpare (b : Bay) : Option Nat := (List.range 8).find? (fun n => !b.remaps.any (·.spare == n))

/-- A bay's remap entry of a member row taken out (R154). -/
def dropRemap (i : Slot) (row : Nat) (s : State) : State :=
  updBay i (fun b => { b with remaps := b.remaps.filter (fun r => !(r.row == row && r.filling)) }) s

/-- A fill's record changed. -/
def updFill (i : Slot) (row : Nat) (f : Fill → Fill) (s : State) : State :=
  { s with integ :=
    { s.integ with fills := s.integ.fills.map (fun x => if x.slot == i && x.row == row then f x else x) } }

/-- The fill of a bay's member row. -/
def State.fillOf (s : State) (i : Slot) (row : Nat) : Option Fill :=
  s.integ.fills.find? (fun x => x.slot == i && x.row == row)

/-- A fill's record taken out, with the candidates it has not rebuilt (R144). -/
def removeFill (i : Slot) (row : Nat) (s : State) : State :=
  let s := strikeReader (.fill i row) s
  { s with integ := { s.integ with fills := s.integ.fills.filter (fun x => !(x.slot == i && x.row == row)) } }

/-- A fill that cannot finish: its entry goes, the failed WRITE ends as a failed move, the held operations go on (R154). -/
def abortFill (f : Fill) (s : State) : State :=
  let s := dropRemap f.slot f.row (removeFill f.slot f.row s)
  releaseHeld (push (.opEnd f.failed .gone) s)

/-- The READs of a unit's other blocks, one for each run (R153). -/
def fillReads (f : Fill) (s : State) : State × Fetch :=
  let offs := f.fetch.wanted.map (·.off)
  let pos := (f.fetch.wanted.head?.map (·.pos)).getD 0
  (runsOf offs).foldl
    (fun p r =>
      let id := p.1.shelf.nextOp
      (handUnit f.slot f.failed.cls f.fetch.layout.unit f.row r.1 (fun b => .read b r.2) (.fillRead f.slot f.row) p.1,
       { p.2 with cells := p.2.cells ++ (List.range r.2).map (fun k =>
          ({ row := f.row, pos := pos, off := r.1 + k }, CellState.waiting id)) }))
    (s, f.fetch)

/-- A fill begins: the entry stands filling, the operations of the unit are held, the other blocks are asked for (R152,
R153). -/
def beginFill (op : MemberOp) (row spare : Nat) (l : Layout) (pos : Nat) (s : State) : State :=
  let s := updBay op.slot (fun b =>
    { b with remaps := b.remaps ++ [{ row := row, spare := spare, hard := false, filling := true }] }) s
  let s := recallUnit op.slot row s
  let blocks := s.carried op row
  let want := (blocks.zip (List.range blocks.length)).filterMap (fun x =>
    if x.1.isNone then some ({ row := row, pos := pos, off := x.2 } : Cell) else none)
  let f : Fill :=
    { slot := op.slot, row := row, spare := spare, failed := op, blocks := blocks, fetch := Fetch.fresh l want, sent := false }
  let r := fillReads f s
  push (.fillAdvance op.slot row)
    { r.1 with integ := { r.1.integ with fills := r.1.integ.fills ++ [{ f with fetch := r.2 }] } }

/-- The bay fails and the WRITE ends as a failed move (R152). -/
def failMove (op : MemberOp) (s : State) : State := push (.opEnd op .gone) (failBay op.slot s)

/-- The decision of R152 on a data-area or spare-slot WRITE that ended MEDIA at a MEMBER or JOINING bay (R152). -/
def remapDecision (op : MemberOp) (first : Nat) (s : State) : State :=
  let row := s.failingRow op first
  let b := s.bay op.slot
  if op.kind.span.1 < Config.dataBase || b.remaps.any (·.row == row) then failMove op s
  else match b.freeSpare, s.placeOf op.slot row with
    | some spare, some (l, pos) => beginFill op row spare l pos s
    | _, _ => failMove op s

/-- The unit of a fill with every block in hand, if it has them all (R153). -/
def Fill.unitBlocks (f : Fill) : Option (List Block) :=
  allSome ((f.blocks.zip (List.range f.blocks.length)).map (fun x =>
    match x.1 with
    | some b => some b
    | none => ((f.fetch.cells.find? (fun c => f.fetch.wanted.contains c.1 && c.1.off == x.2)).bind
        (fun c => c.2.block)).map (·.2)))

/-- A fill is taken as far as it can go: rebuilding, giving up, or writing the spare slot (R153, R154). -/
def advanceFill (i : Slot) (row : Nat) (s : State) : State :=
  match s.fillOf i row with
  | none => s
  | some f =>
    if f.sent then s
    else
      let r := settleFetch (.fill i row) (.fillRead i row) f.failed.cls (fun _ => false) (s, f.fetch)
      let f := { f with fetch := r.2 }
      let s := updFill i row (fun _ => f) r.1
      if f.fetch.wanted.any (fun c => match f.fetch.at c with
          | some (.lost _) => true
          | _ => false) then abortFill f (failBay i s)
      else if f.fetch.done then
        match f.unitBlocks with
        | none => s
        | some bs =>
          let s := updFill i row (fun f => { f with sent := true }) s
          handReserve i f.failed.cls (.write (Config.spareBase + f.spare * Config.spareSize) bs) (.spareWrite i row) s
      else s

/-- A fill's READ has ended: GONE or TIMEOUT at the unit's own bay ends the fill (R153, R154). -/
def endFillRead (i : Slot) (row : Nat) (op : MemberOp) (res : OpResult) (s : State) : State :=
  match s.fillOf i row with
  | none => judgeOrphan op res s
  | some f =>
    if op.slot == i && (res == .gone || res == .timeout) then abortFill f s
    else
      let r := arriveFetch (.fill i row) op res (s, f.fetch)
      push (.fillAdvance i row) (updFill i row (fun f => { f with fetch := r.2 }) r.1)

/-- The entry of a filled unit comes into force (R153). -/
def adoptRemap (i : Slot) (row : Nat) (s : State) : State :=
  if (s.bay i).remaps.any (fun r => r.row == row && r.filling) then
    raise .remapAdded
      (updBay i (fun b =>
        { b with remaps := b.remaps.map (fun r => if r.row == row then { r with filling := false } else r) }) s)
  else s

/-- A fill's spare-slot WRITE has ended (R153, R154). -/
def endSpareWrite (i : Slot) (row : Nat) (res : OpResult) (s : State) : State :=
  match s.fillOf i row with
  | none => s
  | some f =>
    match res with
    | .good _ | .inquired _ _ =>
      releaseHeld (push (.opEnd f.failed (.good [])) (adoptRemap i row (removeFill i row s)))
    | .media _ _ => abortFill f (failBay i s)
    | .timeout | .gone => abortFill f s

/-- A data-area WRITE has ended: MEDIA at a MEMBER or JOINING bay goes to the integrity unit, every other end to the
owner (R38, R59, R145, R152). -/
def endDataWrite (op : MemberOp) (res : OpResult) (owner : OpResult → State → State) (s : State) : State :=
  match res with
  | .media first _ =>
    if (s.bay op.slot).role == .member || (s.bay op.slot).role == .joining then remapDecision op first s
    else owner res s
  | _ => owner res s

/-- A host WRITE has ended for its row: it stains gathering steps, and the row goes on (R38, R53). -/
def endHostWrite (a idx : Nat) (op : MemberOp) (s : State) : State :=
  let s := stainSteps op.slot (s.rowsOf op) s
  push (.advance a)
    (updReq a (fun e =>
      { e with rows := (e.rows.zip (List.range e.rows.length)).map (fun x =>
          if x.2 == idx then { x.1 with outstanding := x.1.outstanding - 1 } else x.1) }) s)

/-- A write-back has ended: its entry leaves the repair list and the WRITEs behind it go on (R145). -/
def endWriteBack (op : MemberOp) (s : State) : State :=
  releaseHeld { s with integ := { s.integ with repairs := s.integ.repairs.filter (·.op != op.id) } }

end Sys2Proof.Machine
end

