-- ==== Sys2Proof/Machine/PlanUnit.lean ====
section
/-! DEFINITION. The plan unit: the plan area, fetch and verification, installation, closing, removal, residue and the
chain (R95 to R118, R134). -/

namespace Sys2Proof.Machine

/-! ## The plan area (R98) -/

/-- One record of the table replaced (R97). -/
def setRecord (i : Nat) (r : PlanRecord) (s : State) : State :=
  { s with plan := { s.plan with table := s.plan.table.set i r } }

/-- A record of the table. -/
def State.record (s : State) (i : Nat) : PlanRecord := s.plan.table.getD i State.resetRecord

/-- A write of one record joins those that wait (R98). -/
def queueRecord (w : AreaWrite) (s : State) : State :=
  { s with plan := { s.plan with areaWrites := s.plan.areaWrites ++ [w] } }

/-- The blocks of the whole plan table (R106). -/
def State.tableBlocks (s : State) : List Block :=
  (List.range 64).map (fun i => recordBlock (recordData (s.record i)) (Config.planBase + i))

/-- Whether an operation writes the plan area, and whether it is a table copy. -/
def Owner.areaCopy : Owner → Option Bool
  | .planArea _ _ => some false
  | .tableCopy _ | .assemblyCopy _ => some true
  | _ => none

/-- Whether a plan area operation may be issued at its bay now, given those ahead of it (R98). -/
def State.areaFree (s : State) (ahead : List AreaOp) (o : AreaOp) : Bool :=
  let flying := (s.bay o.slot).ops.filterMap (·.owner.areaCopy)
  let mine := ahead.filter (·.slot == o.slot)
  match o.what with
  | .copy _ => flying.isEmpty && mine.isEmpty
  | .record _ _ => !flying.contains true && mine.all (fun x => match x.what with
    | .copy _ => false
    | .record _ _ => true)

/-- A plan area operation is handed over; a copy holds the table as it stands now (R98). -/
def handArea (o : AreaOp) (s : State) : State :=
  match o.what with
  | .copy assembly =>
    handReserve o.slot .mark (.write Config.planBase s.tableBlocks)
      (if assembly then .assemblyCopy false else .tableCopy false) s
  | .record i b => handReserve o.slot .mark (.write (Config.planBase + i) [b]) (.planArea i false) s

/-- The first plan area operation that may be issued, by its place in the queue (R98). -/
def State.firstArea (s : State) (ahead : List AreaOp) : List AreaOp → Option (AreaOp × List AreaOp)
  | [] => none
  | o :: rest => if s.areaFree ahead o then some (o, ahead ++ rest) else s.firstArea (ahead ++ [o]) rest

/-- Plan area operations take their turns (R98). -/
def ruleArea (s : State) : Option State :=
  (s.firstArea [] s.plan.areaOps).map (fun r => handArea r.1 { s with plan := { s.plan with areaOps := r.2 } })

/-- The first of equal record writes marked as begun, with the number of its member WRITEs (R98). -/
def beginFirst (w : AreaWrite) (n : Nat) : List AreaWrite → List AreaWrite
  | [] => []
  | x :: rest => if x == w then { x with begun := true, left := n } :: rest else x :: beginFirst w n rest

/-- The first record write that has not begun and has none to the same record before it (R98). -/
def firstRecordWrite (seen : List Nat) : List AreaWrite → Option AreaWrite
  | [] => none
  | w :: rest => if !w.begun && !seen.contains w.index then some w else firstRecordWrite (w.index :: seen) rest

/-- A record write begins: the table takes its content, and a WRITE goes to every present MEMBER or JOINING bay (R98). -/
def beginRecord (w : AreaWrite) (s : State) : State :=
  let s := match w.content with
    | some r => setRecord w.index r s
    | none => s
  let b := recordBlock (recordData (s.record w.index)) (Config.planBase + w.index)
  let targets := s.serving
  { s with plan :=
    { s.plan with
      areaWrites := beginFirst w targets.length s.plan.areaWrites
      areaOps := s.plan.areaOps ++ targets.map (fun i => { slot := i, what := .record w.index b }) } }

/-- A waiting record write begins when its turn has come (R98). -/
def ruleRecord (s : State) : Option State :=
  (firstRecordWrite [] s.plan.areaWrites).map (fun w => beginRecord w s)

/-- A record write whose WRITEs have all ended leaves, and a page write with no other completes GOOD (R98). -/
def ruleRecordDone (s : State) : Option State :=
  (s.plan.areaWrites.find? (fun w => w.begun && w.left == 0)).map (fun w =>
    let s := { s with plan := { s.plan with areaWrites := s.plan.areaWrites.erase w } }
    match w.source with
    | .page a =>
      match s.req a with
      | some e =>
        if e.state == .window && !s.plan.areaWrites.any (·.source == .page a) then complete e .good none [] s else s
      | none => s
    | .behind | .ending => s)

/-- One WRITE of a record has ended (R98). -/
def recordWriteEnded (i : Nat) (s : State) : State :=
  { s with plan :=
    { s.plan with areaWrites :=
      s.plan.areaWrites.map (fun w => if w.index == i && w.begun then { w with left := w.left - 1 } else w) } }

/-- A reserve-region WRITE has ended: MEDIA once more in the mark class, a further failure fails the bay (R81, R98, R130). -/
def endReserveWrite (again : Bool) (retry : Owner) (op : MemberOp) (res : OpResult) (ended : State → State) (s : State) :
    State :=
  match res with
  | .good _ | .inquired _ _ => ended s
  | .media _ _ => if again then ended (failBay op.slot s) else handReserve op.slot .mark op.kind retry s
  | .timeout | .gone => ended (failBay op.slot s)

/-- A record's WRITE has ended (R98). -/
def endPlanArea (i : Nat) (again : Bool) (op : MemberOp) (res : OpResult) (s : State) : State :=
  endReserveWrite again (.planArea i true) op res (recordWriteEnded i) s

/-- A plan table copy has ended (R106, R107). -/
def endTableCopy (again : Bool) (op : MemberOp) (res : OpResult) (s : State) : State :=
  endReserveWrite again (.tableCopy true) op res
    (fun s => { s with plan := { s.plan with copies := s.plan.copies - 1 } }) s

/-! ## Verification (R102 to R104) -/

/-- A byte as a bay slot. -/
def slotOfByte (b : BitVec 8) : Option Slot := if h : b.toNat < 64 then some ⟨b.toNat, h⟩ else none

/-- A plan's listed bays that are bay slots, in order (R95). -/
def PlanRecord.slots (r : PlanRecord) : List Slot := r.list.filterMap slotOfByte

/-- Whether a bay is in use: MEMBER, JOINING, FAILED or STALE (5.4). -/
def State.inUse (s : State) (i : Slot) : Bool :=
  match (s.bay i).role with
  | .member | .joining | .failed | .stale => true
  | .none | .foreign => false

/-- A bay's capacity as inquired, 0 when none (R120). -/
def State.capacityOf (s : State) (i : Slot) : Nat := ((s.bay i).ident.map (·.2)).getD 0

/-- The smallest of some capacities. -/
def State.smallest (s : State) (is : List Slot) : Nat := ((is.map s.capacityOf).min?).getD 0

/-- The smallest joining capacity (R12, 5.4). -/
def State.joining (s : State) : Nat := Config.dataBase + s.rows * s.unit

/-- Check 1 of R102 on a bay list: 1 to 32 entries, every one a bay slot. -/
def PlanRecord.listGood (r : PlanRecord) : Bool :=
  1 ≤ r.listLength.toNat && r.listLength.toNat ≤ 32 && r.list.all (·.toNat < 64)

/-- The first failing check of a list, or none. -/
def firstRefusal : List (Bool × PlanOutcome) → Option PlanOutcome
  | [] => none
  | (ok, o) :: rest => if ok then firstRefusal rest else some o

/-- The checks of a FORM (R102). -/
def State.verifyForm (s : State) (r : PlanRecord) : Option PlanOutcome :=
  firstRefusal
    [(legalUnit r.unit.toNat && r.listGood, .badKind),
     (s.ctl.volume == .none, .volumeExists),
     (r.slots.Nodup, .bayDuplicate),
     (3 ≤ r.slots.length, .tooManyMembers),
     (!r.slots.any s.inUse, .bayInUse),
     (!r.slots.any (fun i => s.ready i && (s.bay i).role == .foreign), .bayForeign),
     (!r.slots.all s.ready || r.unit.toNat ≤ s.smallest r.slots - Config.dataBase, .bayTooSmall)]

/-- The ONLY layout's member count (R103, R104). -/
def State.onlyCount (s : State) : Nat := ((s.layout .only).map Layout.n).getD 0

/-- The missing positions of the ONLY layout other than one (R103, R104). -/
def State.missingOther (s : State) (q : Option Nat) : Bool :=
  match s.layout .only with
  | none => false
  | some l => (List.range l.n).any (fun p => some p != q && s.missing l p)

/-- The checks of a GROW (R103). -/
def State.verifyGrow (s : State) (r : PlanRecord) : Option PlanOutcome :=
  firstRefusal
    [(r.listGood, .badKind),
     (s.ctl.volume != .none, .noVolume),
     (r.slots.Nodup, .bayDuplicate),
     (s.onlyCount + r.slots.length ≤ 32, .tooManyMembers),
     (!r.slots.any s.inUse, .bayInUse),
     (!r.slots.any (fun i => s.ready i && (s.bay i).role == .foreign), .bayForeign),
     (r.slots.all (fun i => !s.ready i || s.joining ≤ s.capacityOf i), .bayTooSmall),
     (s.rows * s.unit * (s.onlyCount + r.slots.length - 1) ≤ 2 ^ 40, .capacityLimit),
     (!s.missingOther none, .layoutDegraded)]

/-- The checks of a REPLACE (R104). -/
def State.verifyReplace (s : State) (r : PlanRecord) : Option PlanOutcome :=
  match slotOfByte r.replacement with
  | none => some .badKind
  | some b =>
    let q := r.position.toNat
    let own := match s.layout .only with
      | none => false
      | some l => l.slotAt q == some b && s.roleMissing b
    firstRefusal
      [(s.ctl.volume != .none, .noVolume),
       (q < s.onlyCount, .badPosition),
       (!s.inUse b || own, .bayInUse),
       (!(s.ready b && (s.bay b).role == .foreign), .bayForeign),
       (!s.ready b || s.joining ≤ s.capacityOf b, .bayTooSmall),
       (!s.missingOther (some q), .layoutDegraded)]

/-- The refusal of a record that is not EMPTY, if any (R102 to R104). -/
def State.verify (s : State) (r : PlanRecord) : Option PlanOutcome :=
  match kindOfCode r.kind.toNat with
  | some .form => s.verifyForm r
  | some .grow => s.verifyGrow r
  | some .replace => s.verifyReplace r
  | some .empty | none => some .badKind

/-- The bays a plan names (R105). -/
def PlanRecord.named (r : PlanRecord) : List Slot :=
  match kindOfCode r.kind.toNat with
  | some .replace => (slotOfByte r.replacement).toList
  | _ => r.slots

/-! ## Residue and the chain (R101, R112) -/

/-- A record's residue is set in the table (R101, R112). -/
def setResidue (i : Nat) (o : PlanOutcome) (rowsDone capacity generation : Nat) (s : State) : State :=
  setRecord i { s.record i with outcome := o, rowsDone := rowsDone, capacity := capacity, generation := generation } s

/-- A record's copy is written behind, when a layout is in force (R101). -/
def writeBehind (i : Nat) (s : State) : State :=
  if s.plan.layouts.isEmpty then s
  else queueRecord { index := i, source := .behind, content := none, begun := false, left := 0 } s

/-- PLAN_DONE for a record, unless it is QUIET (R101, R112). -/
def planDone (i : Nat) (s : State) : State := if (s.record i).quiet then s else raise .planDone s

/-- The chain's pointer, status and hold flag set; CHAIN_END is raised when the chain stops (R101, R112). -/
def moveChain (p : Nat × ChainStatus) (s : State) : State :=
  let s := { s with plan := { s.plan with pointer := p.1, status := p.2, hold := false, keepHold := false, beforeFirst := false } }
  if p.2 == .ended || p.2 == .held then raise .chainEnd s else s

/-- No plan is active (R112). -/
def clearActive (s : State) : State :=
  { s with plan :=
    { s.plan with
      active := none, stage := .none, installed := false, dropAsked := false, incomingLost := false, endChain := false,
      inPlace := none, planKind := .empty } }

/-- A record refused at its fetch (R101). -/
def refuseFetched (i : Nat) (o : PlanOutcome) (s : State) : State :=
  let s := planDone i (setResidue i o 0 s.plan.capacity s.mark.generation s)
  let s := if (s.record i).cont then moveChain (i + 1, .due) s else moveChain (i, .ended) s
  writeBehind i s

/-- The engine state set to one other than SUSPENDED and HALTED, in which the latch is clear (R158, R163). -/
def setEngine (e : EngineState) (s : State) : State := { s with ctl := { s.ctl with state := e, latch := false } }

/-- A plan that was never installed ends: its residue, its copy behind, the chain, the engine; a saved state of PAUSED becoming
IDLE takes paused-from with it (R105, R116; log entry 59). -/
def endUninstalled (o : PlanOutcome) (s : State) : State :=
  match s.plan.active with
  | none => s
  | some i =>
    let s := planDone i (setResidue i o 0 s.plan.capacity s.mark.generation s)
    let s := clearActive (moveChain s.chainAfter s)
    let s := writeBehind i s
    if s.ctl.state == .suspended then { s with ctl := { s.ctl with saved := some .idle, pausedFrom := none } }
    else setEngine .idle s

/-! ## Installing (R106, R107, R2, R3) -/

/-- A role and position given to a bay by the plan unit (R134). -/
def giveRole (i : Slot) (r : Role) (p : Option Nat) (incoming : Bool) (s : State) : State :=
  updBay i (fun b => { b with role := r, position := p, incoming := incoming }) s

/-- A bay takes role NONE: no position, and its remap table emptied (R134, R151). -/
def roleNone (i : Slot) (s : State) : State :=
  updBay i (fun b => { b with role := .none, position := none, incoming := false, remaps := [] }) s

/-- A bay's serial as inquired, 0 when none. -/
def State.serialAt (s : State) (i : Slot) : BitVec 64 := ((s.bay i).ident.map (·.1)).getD 0#64

/-- The member entry of a bay. -/
def State.memberOf (s : State) (i : Slot) : Option Member := some { slot := i, serial := s.serialAt i }

/-- Roles and positions given to listed bays from a first position on (R106). -/
def giveRoles (r : Role) (first : Nat) (is : List Slot) (s : State) : State :=
  (is.zip (List.range is.length)).foldl (fun s x => giveRole x.1 r (some (first + x.2)) false s) s

/-- The mover takes up a plan (R46). -/
def startPhase (p : Phase) (s : State) : State := { s with mover := { s.mover with front := 0, phase := p } }

/-- A FORM plan's installation (R106, R11). -/
def installForm (r : PlanRecord) (s : State) : State :=
  let is := r.slots
  let u := r.unit.toNat
  let l : Layout :=
    { id := .only, unit := u, members := is.map s.memberOf, rows := formRows (s.smallest is) u (is.length - 1) }
  let ident := ((is.head?).map s.serialAt).getD 0#64
  let s := giveRoles .member 0 is s
  startPhase .form
    { s with
      plan := { s.plan with layouts := [l], identity := ident }
      ctl := { s.ctl with volume := .forming } }

/-- A GROW plan's installation (R106, R3, R30). -/
def installGrow (r : PlanRecord) (s : State) : State :=
  match s.layout .only with
  | none => s
  | some l =>
    let is := r.slots
    let s := giveRoles .joining l.n is s
    let s := { s with plan :=
      { s.plan with layouts :=
        [{ l with id := .old }, { l with id := .new, members := l.members ++ is.map s.memberOf }] } }
    startPhase .migrate (syncLayouts (renameKeys .only .old s))

/-- A REPLACE plan's installation, a rebuild in place included (R106, R2, R3). -/
def installReplace (r : PlanRecord) (s : State) : State :=
  match s.layout .only, slotOfByte r.replacement with
  | some l, some b =>
    let q := r.position.toNat
    let inc : Incoming := { q := q, slot := b, serial := s.serialAt b }
    let s :=
      if l.slotAt q == some b then
        { s with plan :=
          { s.plan with
            layouts := [l.withMember q none]
            inPlace := some ((s.bay b).role, (l.serialOf b).getD 0#64) } }
      else s
    let s := giveRole b .joining (some q) true { s with plan := { s.plan with incoming := some inc } }
    startPhase .rebuild (syncLayouts s)
  | _, _ => s

/-- The active plan is installed: roles, layouts, label and plan table copies at one event (R106). -/
def install (r : PlanRecord) (s : State) : State :=
  let s := match kindOfCode r.kind.toNat with
    | some .form => installForm r s
    | some .grow => installGrow r s
    | some .replace => installReplace r s
    | some .empty | none => s
  let fresh := r.named
  let s := setEngine .preparing
    { s with
      mark := { s.mark with state := .initial, front := 0 }
      plan :=
        { s.plan with
          stage := .installing, installed := false, copies := fresh.length,
          areaOps := s.plan.areaOps ++ fresh.map (fun i => { slot := i, what := .copy false }) } }
  rebaseCounts (raiseCause (.plan .install) s)

/-- The active plan's record shows outcome NONE until its residue is set (R96). -/
def clearOutcome (i : Nat) (s : State) : State := setRecord i { s.record i with outcome := .none } s

/-- An accepted record becomes the active plan (R101, R96). -/
def activate (i : Nat) (r : PlanRecord) (s : State) : State :=
  let s := { s with plan :=
    { s.plan with
      status := .active, active := some i, stage := .waiting, hold := s.plan.keepHold, keepHold := false,
      planKind := (kindOfCode r.kind.toNat).getD .empty } }
  let s := clearOutcome i s
  if r.named.all s.ready then install r s else setEngine .waiting s

/-- One passage of the fetch (R101). A fetch that waited at step 3 for a page write begins again from step 1, so that a record
the write has made EMPTY ends the chain as step 2 says (DEDUCED, log entry 54). -/
def fetchOnce (s : State) : Option State :=
  let i := s.plan.pointer
  if 64 ≤ i then some (moveChain (i, .ended) s)
  else
    let r := s.record i
    if r.kind == 0#8 then some (moveChain (i, .ended) s)
    else if s.plan.areaWrites.any (fun w => w.index == i && !w.begun && w.content.isSome) then none
    else match s.verify r with
      | some o => some (refuseFetched i o s)
      | none => some (activate i r s)

/-- The fetch of a DUE chain while the engine is IDLE (R101). -/
def ruleFetch (s : State) : Option State :=
  if s.plan.status == .due && s.ctl.state == .idle && s.ctl.volume != .assembling then fetchOnce s else none

/-- A waiting plan whose named bays are all ready is verified again (R105), unless a fault is pending (R158). -/
def ruleWaiting (s : State) : Option State :=
  if s.ctl.state == .waiting && s.plan.stage == .waiting && !s.ctl.faultPending && !s.plan.dropAsked then
    match s.activeRecord with
    | none => none
    | some r =>
      if r.named.all s.ready then
        match s.verify r with
        | some o => some (endUninstalled o s)
        | none => some (install r s)
      else none
  else none

/-- PREPARING ends when the install label write and every plan table copy have ended (R107). -/
def ruleInstalled (s : State) : Option State :=
  if s.ctl.state == .preparing && s.plan.stage == .installing && s.plan.installed && s.plan.copies == 0
      && !s.ctl.faultPending then
    some (setEngine .running { s with plan := { s.plan with stage := .working } })
  else none

/-! ## Rest, pause and the end of a phase (R108, R159) -/

/-- The state the engine goes to from a rest: CLOSING when the incoming bay was lost (R118). -/
def State.restNext (s : State) : EngineState := if s.plan.incomingLost then .closing else s.afterRest

/-- The mover's rest: the end of a phase moves the engine on, and a pause request takes effect (R62, R108, R159). -/
def ruleRest (s : State) : Option State :=
  if (s.ctl.state == .running || s.ctl.state == .settling) && s.plan.stage == .working && !s.ctl.faultPending && s.atRest
      && !s.plan.dropAsked then
    let next := s.restNext
    if next == .closing then some { s with ctl := { s.ctl with state := .closing, pauseRequest := false } }
    else if s.ctl.pauseRequest then
      some { s with ctl := { s.ctl with state := .paused, pauseRequest := false, pausedFrom := some next } }
    else if next == s.ctl.state then none
    else some (setEngine next s)
  else none

/-- A PAUSED engine whose plan has lost its incoming bay enters CLOSING, the mover being at rest; paused-from becomes none (R118;
log entry 59). -/
def ruleLostPaused (s : State) : Option State :=
  if s.ctl.state == .paused && s.plan.stage == .working && s.plan.incomingLost && !s.ctl.faultPending then
    some { s with ctl := { s.ctl with state := .closing, pausedFrom := none } }
  else none

/-! ## Drops and lost incoming bays (R115, R116, R118) -/

/-- The roles for the removal of a dropped plan (R116). -/
def dropRoles (s : State) : State :=
  allSlots.foldl
    (fun s i =>
      if (s.bay i).role == .joining then
        match s.plan.incoming, s.plan.inPlace with
        | some inc, some former =>
          if inc.slot == i then updBay i (fun b => { b with role := former.1, incoming := false }) s else roleNone i s
        | _, _ => roleNone i s
      else s) s

/-- The roles for the removal of a REPLACE that lost its incoming bay; a missing count this changes is reported (R118,
R136). -/
def lostRoles (s : State) : State :=
  match s.layout .only, s.plan.incoming with
  | some l, some inc =>
    match l.slotAt inc.q with
    | some i =>
      if 0 < s.mover.front && (s.bay i).role == .member then
        reportChange (updBay i (fun b => { b with role := .stale }) s)
      else s
    | none => s
  | _, _ => s

/-- The removal label write is asked for (R116, R118). -/
def askRemoval (s : State) : State :=
  raiseCause (.plan .remove) { s with plan := { s.plan with stage := .closing .remove } }

/-- A drop of an installed plan takes its effects: the mover's step abandoned, CLOSING unless SUSPENDED, roles, and the
removal label write; paused-from becomes none with the PAUSED state it belongs to (R116, R74; log entry 59). -/
def ruleDrop (s : State) : Option State :=
  if s.plan.dropAsked && !s.ctl.faultPending && s.ctl.state != .halted then
    match s.plan.stage with
    | .waiting => some (endUninstalled .dropped s)
    | .working =>
      let s := abandonGather s
      let s := if s.ctl.state == .suspended then { s with ctl := { s.ctl with saved := some .idle, pausedFrom := none } }
        else { s with ctl := { s.ctl with state := .closing, pauseRequest := false, pausedFrom := none } }
      some (askRemoval (dropRoles s))
    | .none | .installing | .closing _ | .residue => none
  else none

/-- An engine in CLOSING raises PLAN for the closing label write, or for the removal of a plan that has lost its incoming
bay (R108, R118); a closing not yet begun gives way to the removal. -/
def ruleClosing (s : State) : Option State :=
  match s.plan.stage with
  | .working =>
    if s.ctl.state == .closing then
      if s.plan.incomingLost then some (askRemoval (lostRoles s))
      else some (raiseCause (.plan .close) { s with plan := { s.plan with stage := .closing .close } })
    else none
  | .closing .close =>
    if s.plan.incomingLost && !s.closeBegun then
      some (askRemoval (lostRoles
        { s with mark := { s.mark with causes := s.mark.causes.filter (fun c => c.kind != .plan .close) } }))
    else none
  | .none | .waiting | .installing | .closing _ | .residue => none

/-! ## Released labels (R111) -/

/-- A released label is written to a bay that is present, its role being NONE (R111). -/
def handReleased (gen : Nat) (i : Slot) (s : State) : State :=
  if (s.bay i).present then
    let copy := labelBlocks (releasedLabel gen) 0 false (s.serialAt i)
    handReserve i .mark (.write 0 copy) (.releasedLabel false)
      { s with plan := { s.plan with released := s.plan.released + 1 } }
  else s

/-- A released label's WRITE has ended: MEDIA once more, any other end is its last (R111). -/
def endReleased (again : Bool) (op : MemberOp) (res : OpResult) (s : State) : State :=
  let ended := { s with plan := { s.plan with released := s.plan.released - 1 } }
  match res with
  | .media _ _ => if again then ended else handReserve op.slot .mark op.kind (.releasedLabel true) s
  | _ => ended

/-! ## Closing and removal (R109, R112, R116, R134) -/

/-- FAILED bays that hold no position of the layouts in force, and are not incoming, take role NONE (R134). An added bay of a
dropped GROW that came back STALE keeps that role and its position: neither R116 nor R134 names it (DEDUCED, log entry 55). -/
def releaseFailed (s : State) : State :=
  allSlots.foldl
    (fun s i =>
      let held := s.plan.layouts.any (fun l => (l.posOf i).isSome) || s.plan.incoming.any (·.slot == i)
      if (s.bay i).role == .failed && !held then roleNone i s else s) s

/-- Layouts replaced at a plan's end: the front, phase and mark state fall back, and the counts are compared afresh
(R3, R46, R79, R161). -/
def replaceLayouts (ls : List Layout) (s : State) : State :=
  let s := { s with
    plan := { s.plan with layouts := ls, incoming := none }
    mover := { s.mover with front := 0, phase := .none }
    mark := { s.mark with state := .off, front := 0 } }
  rebaseCounts (syncLayouts (releaseFailed s))

/-- The residue of an installed plan is set and its write-back begins (R112). -/
def beginResidue (o : PlanOutcome) (rowsDone gen : Nat) (s : State) : State :=
  match s.plan.active with
  | none => { s with plan := { s.plan with stage := .residue } }
  | some i =>
    let s := setResidue i o rowsDone s.plan.capacity gen s
    queueRecord { index := i, source := .ending, content := none, begun := false, left := 0 }
      { s with plan := { s.plan with stage := .residue } }

/-- JOINING bays become MEMBER at the positions they hold (R109). -/
def joinedToMember (s : State) : State :=
  updAllBays (fun b => if b.role == .joining then { b with role := .member, incoming := false } else b) s

/-- The new capacity comes into force (R110). -/
def newCapacity (c : Nat) (s : State) : State := raise .capacityChanged { s with plan := { s.plan with capacity := c } }

/-- The closing label write of a REPLACE has completed: the incoming bay holds q, the former bay leaves (R109). -/
def closeReplace (gen : Nat) (l : Layout) (s : State) : State :=
  match s.plan.incoming with
  | none => replaceLayouts [l] s
  | some inc =>
    let former := (s.layout .only).bind (fun o => o.slotAt inc.q)
    let s := updBay inc.slot (fun b => { b with incoming := false, position := some inc.q }) (joinedToMember s)
    match former with
    | none => replaceLayouts [l] s
    | some i =>
      if i == inc.slot then replaceLayouts [l] s
      else handReleased gen i (replaceLayouts [l] (roleNone i s))

/-- The closing label write has completed (R109, R110, R112, R30). -/
def completeClose (gen : Nat) (s : State) : State :=
  match s.closingLayout with
  | none => beginResidue .done s.rows gen s
  | some l =>
    let rows := s.rows
    let cap := s.closingCapacity
    let s := match s.activeKind with
      | .form =>
        let s := replaceLayouts [l] (newCapacity cap s)
        { s with ctl := { s.ctl with volume := volumeOf s.counts } }
      | .grow => replaceLayouts [l] (newCapacity cap (renameKeys .new .only (joinedToMember s)))
      | .replace | .empty => closeReplace gen l s
    beginResidue .done rows gen s

/-- The bays a removal has made NONE: those added by a GROW, or the incoming bay of a REPLACE (R116). -/
def State.removedBays (s : State) : List Slot :=
  match s.growing with
  | some (o, n) =>
    allSlots.filter (fun i => (n.posOf i).isSome && (o.posOf i).isNone && (s.bay i).role == .none)
  | none =>
    match s.plan.incoming with
    | some inc => if (s.bay inc.slot).role == .none then [inc.slot] else []
    | none => []

/-- The removal label write of a FORM has completed: the forming bays become NONE, those that came back STALE among them, and
nothing of the volume remains (R116, R134). -/
def removeForm (gen : Nat) (s : State) : State :=
  let bays := allSlots.filter (fun i => (s.bay i).role == .member || (s.bay i).role == .stale)
  let s := bays.foldl (fun s i => roleNone i s) s
  let s := replaceLayouts [] { s with ctl := { s.ctl with volume := .none } }
  let s := bays.foldl (fun s i => handReleased gen i s) s
  { s with
    mark := { s.mark with generation := 0 }
    plan := { s.plan with identity := 0#64 } }

/-- The removal label write has completed (R116, R118, R30). -/
def completeRemove (gen : Nat) (s : State) : State :=
  let rowsDone := s.mover.front
  let s :=
    if s.activeKind == .form then removeForm gen s
    else
      let gone := s.removedBays
      let ls := s.formerLayout.toList
      let s := match s.plan.incoming with
        | some inc => updBay inc.slot (fun b => { b with incoming := false }) s
        | none => s
      gone.foldl (fun s i => handReleased gen i s) (replaceLayouts ls (renameKeys .old .only s))
  beginResidue .dropped rowsDone gen s

/-- The plan ends when its residue and released labels are written (R112). -/
def rulePlanEnd (s : State) : Option State :=
  if s.plan.stage == .residue && s.plan.released == 0 && !s.plan.areaWrites.any (·.source == .ending)
      && !(s.ctl.faultPending && s.ctl.state == .closing) then
    let s := match s.plan.active with
      | some i => planDone i s
      | none => s
    let s := clearActive (moveChain s.chainAfter s)
    some (if s.ctl.state == .closing then setEngine .idle s else s)
  else none

end Sys2Proof.Machine
end

