-- ==== Sys2Proof/Machine/MarkUnit.lean ====
section
/-! DEFINITION. The mark unit: the ends of a label write's member WRITEs, its completion, and what its causes learn
(R81, R82, R83, R85, R91); the finish of a directive (R192, R193). -/

namespace Sys2Proof.Machine

/-- The current directive finishes: the result record takes it, and a pending directive becomes current (R192, R193). -/
def finishDirective (o : DirOutcome) (s : State) : State :=
  match s.win.current with
  | none => s
  | some d =>
    { s with win :=
      { s.win with
        result := { code := d.code, seq := d.args.seq, outcome := o }
        current := s.win.waiting, taken := false, waiting := none } }

/-- One member WRITE of the label write in flight has ended (R81). -/
def labelWriteEnded (s : State) : State :=
  { s with mark :=
    { s.mark with flight := s.mark.flight.map (fun f => { f with outstanding := f.outstanding - 1 }) } }

/-- A label's member WRITE has ended: MEDIA once more, a further failure fails the bay (R81). -/
def endLabel (again : Bool) (op : MemberOp) (res : OpResult) (s : State) : State :=
  endReserveWrite again (.label true) op res labelWriteEnded s

/-- The assembly label's member WRITE has ended (R186, R81). -/
def endAssemblyLabel (again : Bool) (op : MemberOp) (res : OpResult) (s : State) : State :=
  endReserveWrite again (.assemblyLabel true) op res labelWriteEnded s

/-- The mark unit adopts a completed label write (R82, R85, R92). -/
def adoptLabel (f : Flight) (s : State) : State :=
  refreshMark
    { s with mark :=
      { s.mark with
        front := f.front, generation := f.generation, unmarked := s.mark.unmarked - f.noted, flight := none
        bar := match s.mark.bar with
          | some b => if b < f.front then none else some b
          | none => none
        spill := match s.mark.spill with
          | .standing _ => .none
          | x => x } }

/-- Whether a completed label write satisfies a waiting cause; BAND is judged after the releases (R83). -/
def Cause.satisfied (f : Flight) (c : Cause) : Bool :=
  match c.kind with
  | .step n => n ≤ f.front
  | .forced n => n ≤ f.front
  | .plan _ | .remaps _ | .loss => c.served
  | .band => false

/-- A step in MARK whose mark a write carried retires (R60, R82). -/
def retireMarked (f : Flight) (s : State) : State :=
  match s.steps.find? (fun p => p.2.stage == .mark && p.2.front + p.2.rows ≤ f.front) with
  | some (g, t) => retire g t true s
  | none => s

/-- The write rows that wait for a loss are looked at again (R38, R82). -/
def wakeRows (s : State) : State :=
  (s.port.entries.filter (fun e => e.kind == .write && !e.rows.isEmpty)).foldl (fun s e => push (.advance e.arrival) s) s

/-- The plan unit learns that its label write has completed (R82, R107, R109, R116). -/
def tellPlan (gen : Nat) (w : PlanWrite) (s : State) : State :=
  match w with
  | .install => { s with plan := { s.plan with installed := true } }
  | .close => completeClose gen s
  | .remove => completeRemove gen s

/-- Whether a hold reason is one the completed label write releases: MARK, and STEP of a step whose mark it carried (R65, R82,
R91). -/
def State.labelReleases (s : State) (f : Flight) : HoldReason → Bool
  | .mark => true
  | .step n => s.steps.any (fun p => p.2.stage == .mark && p.2.front + p.2.rows ≤ f.front && p.2.front == n)

/-- The blocks whose causes a completed label write satisfies are told, in the order of R82; the held requests it releases
leave together, in ascending arrival number (R60, R65, R82, R83, R91). -/
def serveCauses (f : Flight) (s : State) : State :=
  let served := s.mark.causes.filter (Cause.satisfied f)
  let s := { s with mark :=
    { s.mark with
      causes := s.mark.causes.filter (fun c => !Cause.satisfied f c)
      losses := s.mark.losses.filter (fun x => !x.2), judgeBand := true } }
  let s := releaseHolds (s.labelReleases f) s
  let s := retireMarked f s
  let s := (served.filterMap (·.kind.planWrite)).foldl (fun s w => tellPlan f.generation w s) s
  let s := if served.any (fun c => c.kind.remapsSlot.isSome) then finishDirective .done s else s
  wakeRows s

/-- The assembly label write's completion: adopted, and nothing served (R186, R183). -/
def serveAssembly (s : State) : State :=
  let s := { s with asm := { s.asm with labelDone := true } }
  if s.asm.restored then raise .recoveryDone s else s

/-- A label write completes when every member WRITE it handed over has ended (R81, R82, R186). -/
def ruleLabelDone (s : State) : Option State :=
  match s.mark.flight with
  | none => none
  | some f =>
    if f.outstanding == 0 then
      some (if f.assembly then serveAssembly (adoptLabel f s) else serveCauses f (adoptLabel f s))
    else none

/-- After the releases of a completed label write BAND is judged: it goes when no held request lies in the band (R83). -/
def ruleBand (s : State) : Option State :=
  if s.mark.judgeBand then
    let s := { s with mark := { s.mark with judgeBand := false } }
    some (if s.bandHeld then s
      else { s with mark := { s.mark with causes := s.mark.causes.filter (fun c => c.kind != .band) } })
  else none

end Sys2Proof.Machine
end

