-- ==== Sys2Proof/Machine/Resets.lean ====
section
/-! DEFINITION. The resets: what a volume link reset drops and drains, what RESTART ends, and power-on
(R42 to R45, R75, R94, R137, R151, R157, R171, R172, R202). -/

namespace Sys2Proof.Machine

/-- Whether a request counts as issued (R42): a plan page write from its first record's member WRITEs on, between two of its
records too. -/
def State.isIssued (s : State) (e : Entry) : Bool :=
  match e.state with
  | .issued | .draining => true
  | .flushing => e.flushes.isSome
  | .window =>
    let left := s.plan.areaWrites.filter (·.source == .page e.arrival)
    left.any (·.begun) || (!left.isEmpty && left.length < e.count)
  | .held | .queued | .locking => false

/-- An issued request becomes DRAINING; a READ keeps nothing but its operations in flight (R43). -/
def Entry.drain (e : Entry) : Entry :=
  { e with state := .draining, reads := [], keys := if e.kind == .read then [] else e.keys }

/-- A request not issued is dropped: it leaves the hold queue, the row locks and the plan unit's queue (R43, R98). -/
def dropRequest (e : Entry) (s : State) : State :=
  let s := freeEntry e.arrival (leaveLocks e.arrival s)
  { s with
    holds := s.holds.filter (·.arrival != e.arrival)
    plan := { s.plan with areaWrites := s.plan.areaWrites.filter (·.source != .page e.arrival) }
    asm := { s.asm with pages := s.asm.pages.filter (· != e.arrival) } }

/-- A drained READ gives up its rows and its candidates (R43, R44, R144). -/
def drainRead (e : Entry) (s : State) : State := strikeRequest e.arrival (leaveLocks e.arrival s)

/-- A volume link reset at the volume port: requests not issued are dropped, issued ones drained, none completed (R43). -/
def dropRequests (s : State) : State :=
  let dropped := s.port.entries.filter (fun e => !s.isIssued e)
  let reads := s.port.entries.filter (fun e => s.isIssued e && e.kind == .read)
  let s := reads.foldl (fun s e => drainRead e s) s
  let s := dropped.foldl (fun s e => dropRequest e s) s
  { s with port := { s.port with entries := s.port.entries.map Entry.drain } }

/-- RESTART at the volume port: every outstanding request completes ABORTED, issued ones drain without issuing more
(R45). -/
def abortRequests (s : State) : State :=
  let outstanding := s.port.entries.filter (·.state != .draining)
  let issued := s.port.entries.filter s.isIssued
  let s := outstanding.foldl (fun s e => send e.tag .aborted none [] s) s
  { s with
    port := { s.port with entries := issued.map (fun e => { e.drain with rows := [], keys := [] }) }
    locks := { entries := [], queued := [] }
    holds := [] }

/-- The request a drained operation belongs to, a page write's record writes included (R45). -/
def State.drainedFor (s : State) (o : Owner) : Option Nat :=
  match o with
  | .planArea i _ =>
    (s.plan.areaWrites.find? (fun w => w.index == i && w.begun)).bind (fun w => match w.source with
      | .page a => some a
      | .behind | .ending => none)
  | _ => o.arrival

/-- A bay at RESTART: nothing waits, what is issued drains, the arbiter starts again, SOFT remaps go, its role is to be set
by assembly, and a present bay is to be scanned (R137, R77, R151, R120; log entry 12). -/
def State.restartBay (s : State) (b : Bay) : Bay :=
  { b with
    wait := [], backlog := []
    issued := b.issued.map (fun x => { x with op := { x.op with owner := .drained (s.drainedFor x.op.owner) } })
    contest := 0, moverCount := 0, remaps := b.remaps.filter (·.hard)
    role := .none, position := none, incoming := false, label := none
    readiness := if b.present then .inquiring else .absent
    scanDue := b.present }

/-- The shelf unit drains and rescans (R137). -/
def drainBays (s : State) : State := updAllBays s.restartBay s

/-- The present bays: the scan set of a RESTART (R174). -/
def State.presentBays (s : State) : List Slot := allSlots.filter (fun i => (s.bay i).present)

/-- Engine control at a reset taken as RESTART (R171). -/
def EngineControl.restart (c : EngineControl) (cause : StartCause) : EngineControl :=
  { c with
    state := .idle, pauseRequest := false, pausedFrom := none, faultPending := false, latch := false, saved := none,
    cause := .none, faultLayout := none, volume := .assembling, startCause := cause, lastReport := [],
    lastTolerance := 0, faultFresh := false, faultWaits := none }

/-- Every block but the volume port and the window unit takes RESTART, and assembly begins (R75, R94, R137, R148, R151,
R171, R173). -/
def restartBlocks (cause : StartCause) (s : State) : State :=
  let s := drainBays s
  { s with
    todo := []
    mover := { front := 0, phase := .none, slotA := none, slotB := none }
    mark := State.resetMark
    plan := State.resetPlan
    integ := State.resetIntegrity
    ctl := s.ctl.restart cause
    asm := { State.resetAssembly [] with scanSet := s.presentBays, firstScan := s.asm.firstScan } }

/-- The window unit's flags are cleared and its slot emptied (R202). -/
def clearWindow (s : State) : State :=
  { s with win := { s.win with current := none, taken := false, waiting := none, events := State.resetEvents } }

/-- RESTART taken as a directive (R202, R45, R171). -/
def restartTaken (d : Directive) (s : State) : State :=
  let s := clearWindow s
  let s := { s with win := { s.win with result := { code := d.code, seq := d.args.seq, outcome := .done } } }
  restartBlocks .restart (abortRequests s)

/-- A volume link reset (R43, R44, R172, R202). -/
def linkReset (s : State) : State :=
  let s := dropRequests s
  if s.ctl.tuning.linkResetRestart then restartBlocks .link (abortRequests (clearWindow s))
  else { s with win := { s.win with waiting := none } }

/-- Power-on: every block at its power-on values (R21, R66, R78, R127, R157, R173, R202); the model's own queue, record of
completions and operation number go on (log entry 1). -/
def powerOn (s : State) : State :=
  { State.reset with
    pending := s.pending, out := s.out
    shelf := { State.reset.shelf with nextOp := s.shelf.nextOp } }

/-- A present bay of a RESTART's scan is inquired once its last drained operation has ended (R137, R174). -/
def ruleScan (s : State) : Option State :=
  (allSlots.find? (fun i => (s.bay i).scanDue && (s.bay i).issued.isEmpty)).map (fun i =>
    handReserve i .mark .inquire .inquire (updBay i (fun b => { b with scanDue := false }) s))

end Sys2Proof.Machine
end

