-- ==== Sys2Proof/Machine/Directives.lean ====
section
/-! DEFINITION. The directives: the directive slot, the taking of each code by its owner, and the finish
(R100, R113 to R117, R133, R150, R155, R159, R160, R165 to R167, R191 to R196, R198, R199, R202). -/

namespace Sys2Proof.Machine

/-- What a directive leaves: the state, and its outcome when it finishes at once (R192). -/
abbrev Taken := State × Option DirOutcome

/-- A directive refused with nothing changed. -/
def refuse (o : DirOutcome) (s : State) : Taken := (s, some o)

/-- A directive that finishes DONE. -/
def done (s : State) : Taken := (s, some .done)

/-- SELECT-BAY (R195). -/
def takeSelectBay (a : DirectiveArgs) (s : State) : Taken :=
  match (if h : a.bay.toNat < 64 then some (⟨a.bay.toNat, h⟩ : Slot) else none) with
  | some i => done { s with win := { s.win with selector := i } }
  | none => refuse .refusedArgument s

/-- START-CHAIN; the fetch follows at the same event by `ruleFetch` (R100). -/
def takeStartChain (a : DirectiveArgs) (s : State) : Taken :=
  if s.ctl.state == .idle && (s.plan.status == .ended || s.plan.status == .held) then
    if 64 < a.pointer.toNat then refuse .refusedArgument s
    else done { s with plan :=
      { s.plan with
        pointer := a.pointer.toNat, status := .due, hold := false, keepHold := false, beforeFirst := false } }
  else refuse .refusedState s

/-- The effect of HOLD-CHAIN on an active plan (R113). -/
def holdActive (s : State) : State := { s with plan := { s.plan with hold := true } }

/-- HOLD-CHAIN (R113). -/
def takeHoldChain (s : State) : Taken :=
  match s.plan.status with
  | .active => done (holdActive s)
  | .due =>
    done (raise .chainEnd
      { s with plan :=
        { s.plan with
          status := .held, pointer := s.plan.pointer - 1, keepHold := false, beforeFirst := s.plan.pointer == 0 } })
  | .held => done s
  | .ended => refuse .refusedState s

/-- RELEASE-CHAIN; the fetch follows at the same event by `ruleFetch` (R114). -/
def takeReleaseChain (s : State) : Taken :=
  match s.plan.status with
  | .held =>
    done { s with plan :=
      { s.plan with
        pointer := if s.plan.beforeFirst then s.plan.pointer else s.plan.pointer + 1, status := .due,
        beforeFirst := false } }
  | .active => if s.plan.hold then done { s with plan := { s.plan with hold := false } } else refuse .refusedState s
  | .due | .ended => refuse .refusedState s

/-- PAUSE, or none where it is refused (R159, R167, R72). -/
def pauseEffect (s : State) : Option State :=
  match s.ctl.state with
  | .running | .settling =>
    if s.ctl.pauseRequest then some s
    else some (abandonGather { s with ctl := { s.ctl with pauseRequest := true } })
  | .suspended =>
    match s.ctl.saved with
    | some .running => some { s with ctl := { s.ctl with saved := some .paused, pausedFrom := some .running } }
    | some .settling => some { s with ctl := { s.ctl with saved := some .paused, pausedFrom := some .settling } }
    | some .paused => some s
    | _ => none
  | .idle | .waiting | .preparing | .paused | .closing | .halted => none

/-- PAUSE (R159, R167). -/
def takePause (s : State) : Taken :=
  match pauseEffect s with
  | some s => done s
  | none => refuse .refusedState s

/-- Whether some layout in force has a missing count above the tolerance (R165). -/
def State.overTolerance (s : State) : Bool := s.counts.any (fun c => s.tolerance < c.2)

/-- SUSPENDED left for the saved previous state, or for CLOSING when the incoming bay was lost, paused-from becoming none then
(R165, R118; log entry 59). -/
def leaveSuspended (s : State) : State :=
  let lost := s.plan.incomingLost && s.plan.stage == .working
  let next := if lost then .closing else s.ctl.saved.getD .idle
  { s with ctl :=
    { s.ctl with state := next, saved := none, latch := false, pausedFrom := if lost then none else s.ctl.pausedFrom } }

/-- RESUME (R160, R165). -/
def takeResume (s : State) : Taken :=
  match s.ctl.state with
  | .paused =>
    if s.ctl.faultPending then refuse .refusedState s
    else done { s with ctl := { s.ctl with state := s.ctl.pausedFrom.getD .running, pausedFrom := none } }
  | .suspended => if s.overTolerance then refuse .refusedState s else done (leaveSuspended s)
  | .idle | .waiting | .preparing | .running | .settling | .closing | .halted => refuse .refusedState s

/-- Whether DROP-PLAN would be taken (R115). -/
def State.mayDrop (s : State) : Bool :=
  match s.ctl.state with
  | .waiting | .preparing => true
  | .running | .paused => s.mark.state == .initial
  | .suspended => s.plan.active.isSome && (s.plan.stage == .waiting || s.mark.state == .initial)
  | .idle | .settling | .closing | .halted => false

/-- A drop is asked for; its effects follow by `ruleDrop` as soon as they may (R115, R116). -/
def askDrop (s : State) : State := { s with plan := { s.plan with dropAsked := true } }

/-- DROP-PLAN (R115). -/
def takeDropPlan (s : State) : Taken := if s.mayDrop then done (askDrop s) else refuse .refusedState s

/-- STOP-CHAIN (R117). -/
def takeStopChain (s : State) : Taken :=
  if s.mayDrop then done (askDrop { s with plan := { s.plan with endChain := true } })
  else match s.plan.status with
    | .active => done ((pauseEffect (holdActive s)).getD (holdActive s))
    | .due | .held => done (moveChain (s.plan.pointer, .ended) s)
    | .ended => refuse .refusedState s

/-- SET-TUNING: the selected values clamped and put in force, pins and the report following (R196, R55, R136). -/
def takeSetTuning (a : DirectiveArgs) (s : State) : Taken :=
  let before := s.ctl.tuning.degradedContinue
  let s := { s with ctl := { s.ctl with tuning := tunedBy a.tuningMask a.tuning s.ctl.tuning } }
  let s := repin s
  let s := if s.ctl.tuning.degradedContinue != before then reportCounts s else s
  (s, some (if tuningAdjusted a.tuningMask a.tuning then .adjusted else .done))

/-- CLEAR-EVENTS (R198, R125). -/
def takeClearEvents (a : DirectiveArgs) (s : State) : Taken :=
  let s := { s with win := { s.win with events := s.win.events.clearMask a.eventMask } }
  done (if a.eventMask.getLsbD 1 then takeReferences s else s)

/-- SET-ATTENTION (R199). -/
def takeSetAttention (a : DirectiveArgs) (s : State) : Taken :=
  done { s with win := { s.win with mask := a.eventMask.truncate 12 } }

/-- CLEAR-CAPTURE (R150). -/
def takeClearCapture (s : State) : Taken :=
  done { s with integ :=
    { s.integ with
      capture := none
      counts := { hostTag := 0, memberTag := 0, mediaRead := 0, mediaWrite := 0, timeout := 0, poisonWritten := 0 } } }

/-- FAIL-MEMBER (R133). -/
def takeFailMember (s : State) : Taken :=
  let i := s.win.selector
  if (s.bay i).role == .member || (s.bay i).role == .joining then done (failBay i s) else refuse .refusedArgument s

/-- The HARD entries of all bays with the selected bay's SOFT ones (R155). -/
def State.hardAfter (s : State) (i : Slot) : Nat :=
  ((allSlots.map (fun j => ((s.bay j).remaps.filter (·.hard)).length)).sum)
    + ((s.bay i).remaps.filter (fun r => !r.hard)).length

/-- KEEP-REMAPS: it finishes when the label write that serves it completes (R155). -/
def takeKeepRemaps (s : State) : Taken :=
  let i := s.win.selector
  if s.ctl.state == .halted && s.ctl.cause == .recoveryFailed then refuse .refusedState s
  else if ((s.bay i).role == .member || (s.bay i).role == .joining) && s.hardAfter i ≤ Config.maxHard then
    (raiseCause (.remaps i) s, none)
  else refuse .refusedArgument s

/-- The saved previous state and paused-from after CLEAR-HALT (R166). -/
def clearedHalt (c : EngineControl) : EngineControl :=
  match c.saved with
  | some .running => { c with state := .suspended, saved := some .paused, pausedFrom := some .running }
  | some .settling => { c with state := .suspended, saved := some .paused, pausedFrom := some .settling }
  | _ => { c with state := .suspended }

/-- CLEAR-HALT (R166). -/
def takeClearHalt (s : State) : Taken :=
  if s.ctl.state == .halted && s.ctl.cause == .memberLost then done { s with ctl := clearedHalt s.ctl }
  else refuse .refusedState s

/-- A directive that is not RESTART is taken by its owner, outside assembly (R192, R194). -/
def takeByCode (d : Directive) (s : State) : Taken :=
  match d.code.toNat with
  | 1 => takeSelectBay d.args s
  | 2 => takeStartChain d.args s
  | 3 => takeHoldChain s
  | 4 => takeReleaseChain s
  | 5 => takePause s
  | 6 => takeResume s
  | 7 => takeDropPlan s
  | 8 => takeStopChain s
  | 9 => takeSetTuning d.args s
  | 10 => takeClearEvents d.args s
  | 11 => takeSetAttention d.args s
  | 12 => takeClearCapture s
  | 13 => takeFailMember s
  | 14 => takeKeepRemaps s
  | 15 => takeClearHalt s
  | _ => refuse .refusedCode s

/-- A directive that has become current is taken (R192): an unknown code, then the refusals of assembly, then RESTART,
then its owner. -/
def takeDirective (d : Directive) (s : State) : State :=
  let s := { s with win := { s.win with taken := true } }
  let n := d.code.toNat
  if n == 0 || 16 < n then finishDirective .refusedCode s
  else if n == 16 then restartTaken d s
  else if s.ctl.volume == .assembling then finishDirective .refusedState s
  else
    match takeByCode d s with
    | (s, some o) => finishDirective o s
    | (s, none) => s

/-- The current directive is taken as soon as it has become current (R192). -/
def ruleTake (s : State) : Option State :=
  match s.win.current with
  | some d => if s.win.taken then none else some (takeDirective d s)
  | none => none

/-- A directive is placed in the slot (R191). -/
def placeDirective (d : Directive) (s : State) : State :=
  match s.win.current, s.win.waiting with
  | none, _ => { s with win := { s.win with current := some d, taken := false } }
  | some _, none => { s with win := { s.win with waiting := some d } }
  | some _, some _ =>
    raise .directiveOverwritten
      { s with win := { s.win with waiting := some d, overwrites := bump s.win.overwrites } }

end Sys2Proof.Machine
end

