-- ==== Sys2Proof/Machine/Pages.lean ====
section
/-! DEFINITION. The control window's blocks as a READ returns them: the result record, the six status pages and the plan
pages (R190, R193, R200, R201, 11.3, 11.8). -/

namespace Sys2Proof.Machine

/-- A list of consecutive one-item fields from an offset, each of a length. -/
def runFields (off len : Nat) (vs : List Nat) : List (Nat × Nat × Nat) :=
  (vs.zip (List.range vs.length)).map (fun p => (off + len * p.2, len, p.1))

/-- The code and sequence of a directive that may be absent (R193). -/
def dirFields (codeAt seqAt : Nat) : Option Directive → List (Nat × Nat × Nat)
  | none => []
  | some d => [(codeAt, 1, d.code.toNat), (seqAt, 2, d.args.seq.toNat)]

/-- Block +0: the result record (R193, 11.3). -/
def State.resultPage (s : State) : Data :=
  let w := s.win
  buildRecord
    ([(0, 1, w.result.code.toNat), (1, 1, dirOutcomeCode w.result.outcome), (2, 2, w.result.seq.toNat),
      (4, 1, if w.current.isNone then 0 else if w.waiting.isNone then 1 else 2), (12, 2, w.overwrites)]
      ++ dirFields 5 6 w.current ++ dirFields 8 10 w.waiting ++ runFields 16 1 s.ctl.tuning.toList)

/-- The missing count of a layout in force, 0 when it is not. -/
def State.countOf (s : State) (i : LayoutId) : Nat := ((s.layout i).map s.missingCount).getD 0

/-- Page +1: the engine (R200). -/
def State.enginePage (s : State) : Data :=
  let c := s.ctl
  buildRecord
    [(0, 1, engineCode c.state), (1, 1, bit c.pauseRequest), (2, 1, engineCodeOpt c.pausedFrom),
     (3, 1, bit c.faultPending), (4, 1, bit c.latch), (5, 1, engineCodeOpt c.saved), (6, 1, faultCode c.cause),
     (7, 1, (c.faultLayout.map (fun l => layoutCode l.1)).getD 0), (8, 1, (c.faultLayout.map (·.2)).getD 0),
     (9, 1, startCode c.startCause), (10, 1, chainCode s.plan.status), (11, 1, s.plan.pointer),
     (12, 1, bit s.plan.hold), (13, 1, s.plan.active.getD 0), (14, 1, kindCode s.activeKind), (15, 1, s.tolerance),
     (16, 1, s.countOf .only), (17, 1, s.countOf .old), (18, 1, s.countOf .new)]

/-- A staging slot of the front page (11.8). -/
def slotFields (off : Nat) : Option Step → List (Nat × Nat × Nat)
  | none => []
  | some t =>
    [(off, 1, 1), (off + 1, 1, phaseCode t.kind), (off + 2, 1, t.rows), (off + 3, 1, stageCode t.stage),
     (off + 4, 1, t.stains), (off + 5, 1, bit t.pinned + 2 * bit t.spill), (off + 6, 2, t.stained.length),
     (off + 8, 8, t.front), (off + 16, 4, t.outstanding)]

/-- The effective step size the next step would take, 0 with no phase (R16, R200, R203). -/
def State.nextSize (s : State) : Nat :=
  if s.mover.phase == .none then 0 else (s.written.map (effectiveStep s.ctl.tuning.stepRows)).getD 0

/-- The spill record's reported state and step front (R78). -/
def spillFields : SpillState → List (Nat × Nat × Nat)
  | .none | .asked _ => []
  | .writing _ r _ => [(4, 1, 1), (72, 8, r.front)]
  | .standing r => [(4, 1, 2), (72, 8, r.front)]

/-- Page +2: the front (R200). -/
def State.frontPage (s : State) : Data :=
  let m := s.mark
  buildRecord
    ([(0, 1, phaseCode s.mover.phase), (1, 1, markCode m.state), (2, 1, bit m.flight.isSome), (3, 1, bit m.bar.isSome),
      (5, 1, s.nextSize), (6, 1, m.unmarked), (8, 8, s.mover.front), (16, 8, s.endRow), (24, 8, s.growthEnd),
      (32, 8, m.front), (40, 8, m.generation), (48, 8, (m.flight.map (·.generation)).getD 0),
      (56, 8, (m.flight.map (·.front)).getD 0), (64, 8, m.bar.getD 0), (80, 8, s.safeRow.getD 0)]
      ++ spillFields m.spill ++ slotFields 96 s.mover.slotA ++ slotFields 128 s.mover.slotB)

/-- Page +3: the events (R200). -/
def State.eventsPage (s : State) : Data :=
  buildRecord [(0, 2, s.win.events.bits.toNat), (2, 2, s.win.mask.toNat), (4, 1, bit (marker s))]

/-- The capture counts in capture-kind order (11.8). -/
def CaptureCounts.toList (c : CaptureCounts) : List Nat :=
  [c.hostTag, c.memberTag, c.mediaRead, c.mediaWrite, c.timeout, c.poisonWritten]

/-- The fields of a capture record that is not empty (R201). -/
def captureFields : Option Capture → List (Nat × Nat × Nat)
  | none => []
  | some c =>
    [(0, 1, 1), (1, 1, captureCode c.kind), (2, 1, (c.slot.map (·.val)).getD 0),
     (3, 1, bit c.row.isSome + 2 * bit c.lba.isSome), (8, 8, c.block.getD 0), (16, 8, c.row.getD 0), (24, 8, c.lba.getD 0)]

/-- Page +4: the capture record (R201). -/
def State.capturePage (s : State) : Data :=
  buildRecord
    (captureFields s.integ.capture ++ [(4, 1, bit s.ctl.tuning.captureLatest)] ++ runFields 32 2 s.integ.counts.toList)

/-- The remap entries of the member page (11.8). -/
def remapFields (rs : List Remap) : List (Nat × Nat × Nat) :=
  ((rs.take 8).zip (List.range 8)).flatMap (fun p =>
    [(64 + 16 * p.2, 6, p.1.row), (70 + 16 * p.2, 1, p.1.spare), (71 + 16 * p.2, 1, bit p.1.hard + 2 * bit p.1.filling)])

/-- Page +5: the selected bay (R201). -/
def State.memberPage (s : State) : Data :=
  let b := s.bay s.win.selector
  buildRecord
    ([(0, 1, s.win.selector.val), (1, 1, bit b.present), (2, 1, readinessCode b.readiness), (3, 1, bit b.reference),
      (4, 1, roleCode b.role), (5, 1, b.position.getD 0),
      (6, 1, bit b.incoming + 2 * bit b.labelFound.isSome + 4 * bit b.ident.isSome), (7, 1, b.remaps.length),
      (8, 8, (b.ident.map (·.1.toNat)).getD 0), (16, 8, (b.ident.map (·.2)).getD 0),
      (24, 8, (b.labelFound.map (·.1.toNat)).getD 0), (32, 8, (b.labelFound.map (·.2)).getD 0),
      (40, 2, b.media), (42, 2, b.tagErrors), (44, 2, b.timeouts), (46, 2, b.issued.length), (48, 2, b.wait.length),
      (50, 2, b.backlog.length)] ++ remapFields b.remaps)

/-- A layout in force with its missing record, when there is one at an index. -/
def State.pageLayout (s : State) (k : Nat) : Option LabelLayout :=
  s.plan.layouts[k]?.map (fun l => labelLayout l (s.missing l))

/-- Page +6: the volume (R201). -/
def State.volumePage (s : State) : Data :=
  buildRecord
    ([(0, 1, volumeCode s.ctl.volume), (1, 1, s.plan.layouts.length),
      (2, 2, (s.plan.layouts.head?.map (·.unit)).getD 0), (8, 8, s.plan.identity.toNat), (16, 8, s.plan.capacity),
      (24, 8, s.rows), (32, 8, (s.growing.map (fun p => p.2.capacity)).getD 0)]
      ++ (match s.plan.incoming with
          | none => []
          | some i => [(40, 1, 1), (41, 1, i.q), (42, 1, i.slot.val), (48, 8, i.serial.toNat)])
      ++ layoutFields 64 128 (s.pageLayout 0) ++ layoutFields 66 640 (s.pageLayout 1))

/-- The data of window block +i (R190). -/
def State.windowData (s : State) (i : Nat) : Data :=
  match i with
  | 0 => s.resultPage
  | 1 => s.enginePage
  | 2 => s.frontPage
  | 3 => s.eventsPage
  | 4 => s.capturePage
  | 5 => s.memberPage
  | 6 => s.volumePage
  | _ => if 64 ≤ i then recordData (s.record (i - 64)) else zeroData

/-- Window block +i with its tag (R190). -/
def State.windowBlock (s : State) (i : Nat) : Block := makeBlock (s.windowData i) (BitVec.ofNat 32 i) 0#16

end Sys2Proof.Machine
end

