-- ==== Sys2Proof/Machine/Assembly.lean ====
section
/-! DEFINITION. Arrivals to their end, plan page writes, and assembly: scan, choice, matching, loading, recovery, the
assembly label and the end (R97, R122, R123, R173 to R188). -/

namespace Sys2Proof.Machine

/-! ## Arrivals (R122, R123, R175) -/

/-- The serial the layouts in force record for a bay's own position (R123). -/
def State.listedSerial (s : State) (i : Slot) : Option (BitVec 64) :=
  (s.plan.layouts.filterMap (fun l => l.serialOf i)).head?

/-- The role at the end of an arrival (R123). -/
def State.arrivalRole (s : State) (i : Slot) : Role :=
  let b := s.bay i
  let this := fun (l : BitVec 64 × Nat) => s.ctl.volume != .none && l.1 != 0#64 && l.1 == s.plan.identity
  match b.role with
  | .failed | .stale =>
    if b.position.isSome then
      if b.labelFound.any this && b.ident.isSome && b.ident.map (·.1) == s.listedSerial i then .stale else .failed
    else b.role
  | .none | .foreign =>
    match b.labelFound with
    | none => .none
    | some l => if l.1 == 0#64 || this l then .none else .foreign
  | .member | .joining => b.role

/-- The serial and capacity of an INQUIRE are recorded; a different serial clears the counters and empties the remap table
(R122, R151). -/
def recordInquire (i : Slot) (serial : BitVec 64) (capacity : Nat) (s : State) : State :=
  updBay i (fun b =>
    let b := if b.ident.map (·.1) == some serial then b
      else { b with media := 0, tagErrors := 0, timeouts := 0, remaps := [] }
    { b with ident := some (serial, capacity) }) s

/-- An INQUIRE has ended: the label is read next, or the bay stays UNREADY (R122). -/
def endInquire (i : Slot) (res : OpResult) (s : State) : State :=
  match res with
  | .inquired serial cap =>
    let s := updBay i (fun b => { b with readiness := .reading }) (recordInquire i serial cap s)
    handReserve i .mark (.read 0 2) .labelRead s
  | .good _ | .media _ _ | .timeout =>
    updBay i (fun b => { b with readiness := .unready, role := if b.position.isSome then b.role else .none }) s
  | .gone => s

/-- The returned blocks of a reserve-region READ that have tag errors are counted and captured (R142). -/
def judgeReserve (i : Slot) (first : Nat) (bs : List Block) (s : State) : State :=
  (bs.zip (List.range bs.length)).foldl
    (fun s x =>
      if judgeOther (BitVec.ofNat 32 (first + x.2)) x.1 == .good then s else tagErrorAt i (first + x.2) s) s

/-- A label READ has ended: the label is judged, the bay is READY, and its role set unless assembly is to set it (R122,
R123, R175). -/
def endLabelRead (i : Slot) (res : OpResult) (s : State) : State :=
  match res with
  | .gone => s
  | _ =>
    let s := judgeReserve i 0 (res.blocks.take 2) s
    let found := match res with
      | .good bs => validLabel bs ((s.bay i).ident.map (·.1))
      | _ => none
    let s := updBay i (fun b =>
      { b with label := found, labelFound := found.map (fun l => (l.identity, l.generation)), readiness := .ready }) s
    if s.asm.stage == .scan then s else updBay i (fun b => { b with role := s.arrivalRole i }) s

/-! ## Plan page writes (R97, R98, R173) -/

/-- The records of a plan page write: their slots and contents (R97). -/
def pageRecords (lba : Nat) (blocks : List Block) : List (Nat × PlanRecord) :=
  (blocks.zip (List.range blocks.length)).map (fun x => (lba + x.2 - Config.windowBase - 64, pageRecordOf x.1.data))

/-- A plan page write is taken by the plan unit: refused when it names the active slot, taken into the table at once when
no layout is in force, else queued record by record (R97, R98). -/
def takePage (a : Nat) (s : State) : State :=
  match s.req a with
  | none => s
  | some e =>
    let rs := pageRecords e.lba e.blocks
    if rs.any (fun r => s.plan.active == some r.1) then complete e .invalidField none [] s
    else if s.plan.layouts.isEmpty then
      complete e .good none [] (rs.foldl (fun s r => setRecord r.1 r.2 s) s)
    else
      rs.foldl (fun s r =>
        queueRecord { index := r.1, source := .page a, content := some r.2, begun := false, left := 0 } s) s

/-- The plan page writes that waited for the end of assembly are taken (R173, R187). -/
def takePages (s : State) : State :=
  let ps := s.asm.pages
  ps.foldl (fun s a => takePage a s) { s with asm := { s.asm with pages := [] } }

/-! ## The choice (R174, R176) -/

/-- Whether the choice may be made: every link reported, every bay of the scan set READY or UNREADY (R174). -/
def State.mayChoose (s : State) : Bool :=
  s.asm.stage == .scan && s.asm.linksPending.isEmpty
    && s.asm.scanSet.all (fun i => (s.bay i).readiness == .ready || (s.bay i).readiness == .unready)

/-- The scan set in ascending bay slot. -/
def State.scanned (s : State) : List Slot := allSlots.filter s.asm.scanSet.contains

/-- The valid label a scanned bay gave, an UNREADY bay none (R174). -/
def State.scanLabel (s : State) (i : Slot) : Option Label :=
  if (s.bay i).readiness == .ready then (s.bay i).label else none

/-- The labels of the scan set that name a volume, with their bays (R176). -/
def State.scanLabels (s : State) : List (Slot × Label) :=
  s.scanned.filterMap (fun i => (s.scanLabel i).bind (fun l => if l.identity == 0#64 then none else some (i, l)))

/-- The newest generation of an identity (R176). -/
def newestOf (ls : List (Slot × Label)) (v : BitVec 64) : Nat :=
  (((ls.filter (·.2.identity == v)).map (·.2.generation)).max?).getD 0

/-- The number of bays with an identity's newest label (R176). -/
def newestCount (ls : List (Slot × Label)) (v : BitVec 64) : Nat :=
  (ls.filter (fun x => x.2.identity == v && x.2.generation == newestOf ls v)).length

/-- Whether the first identity is preferred to the second: newer, then on more bays, then lower (R176). -/
def preferred (ls : List (Slot × Label)) (v w : BitVec 64) : Bool :=
  let a := newestOf ls v
  let b := newestOf ls w
  b < a || (a == b && (newestCount ls w < newestCount ls v
    || (newestCount ls w == newestCount ls v && v.toNat < w.toNat)))

/-- The chosen label: the chosen identity's newest, at the lowest bay slot (R176). -/
def chosenLabel (ls : List (Slot × Label)) : Option Label :=
  let v := ls.foldl (fun (best : Option (BitVec 64)) x => match best with
    | none => some x.2.identity
    | some w => if preferred ls x.2.identity w then some x.2.identity else some w) none
  v.bind (fun v => (ls.find? (fun x => x.2.identity == v && x.2.generation == newestOf ls v)).map (·.2))

/-! ## Matching (R177 to R179) -/

/-- The scanned bay whose drive gave a serial, the lowest when two did (R178). -/
def State.driveOf (s : State) (serial : BitVec 64) : Option Slot :=
  s.scanned.find? (fun i => (s.bay i).readiness == .ready && (s.bay i).ident.map (·.1) == some serial)

/-- What a matched bay's label says of it (R177, R178). -/
inductive Standing where
  | current | behind | blank | other
  deriving DecidableEq, Repr

/-- Whether the chosen label records a serial's position as missing (R177). -/
def Label.recordsMissing (l : Label) (serial : BitVec 64) : Bool :=
  l.layouts.any (fun x => x.entries.any (fun e => e.missing && e.member.any (·.serial == serial)))
    || l.incoming.any (fun i => i.record.serial == serial && i.missing)

/-- The standing of a bay under the chosen label (R177, R178). -/
def State.standing (s : State) (chosen : Label) (i : Slot) (serial : BitVec 64) : Standing :=
  match s.scanLabel i with
  | none => .blank
  | some l =>
    if l.identity == 0#64 then .blank
    else if l.identity != chosen.identity then .other
    else if l.generation == chosen.generation
        || (l.generation + 1 == chosen.generation && !chosen.recordsMissing serial) then .current
    else .behind

/-- The bay an entry's drive was found in, with its standing; a drive of another volume is not found (R178). -/
def State.matchOf (s : State) (chosen : Label) (serial : BitVec 64) : Option (Slot × Standing) :=
  match s.driveOf serial with
  | none => none
  | some i => match s.standing chosen i serial with
    | .other => none
    | x => some (i, x)

/-- The members the chosen label names, the incoming one included. -/
def Label.named (l : Label) : List Member :=
  l.layouts.flatMap (fun x => x.entries.filterMap (·.member))
    ++ (l.incoming.map (fun i => ({ slot := i.record.slot, serial := i.record.serial } : Member))).toList

/-- The bays in which drives the chosen label names were found (R178). -/
def State.matched (s : State) (chosen : Label) : List Slot :=
  chosen.named.filterMap (fun m => (s.matchOf chosen m.serial).map (·.1))

/-- An entry as matched: the bay found, else the recorded bay as FAILED, else VACANT (R178). -/
def State.matchEntry (s : State) (chosen : Label) (e : LabelEntry) : Option (Member × Option Standing) :=
  match e.member with
  | none => none
  | some m =>
    match s.matchOf chosen m.serial with
    | some (i, x) => some ({ m with slot := i }, some x)
    | none => if (s.matched chosen).contains m.slot then none else some (m, none)

/-- Whether a label carries an installed plan (R180). -/
def Label.installed (l : Label) : Bool := l.planKind != .empty && l.markState != .off

/-- The layouts of the chosen label with the members as matched (R178, R180). -/
def State.matchedLayouts (s : State) (chosen : Label) : List Layout :=
  chosen.layouts.map (fun x =>
    { id := x.id, unit := chosen.unit, rows := chosen.rows,
      members := x.entries.map (fun e => (s.matchEntry chosen e).map (·.1)) })

/-- The role of a standing at a position, given the role of a current bay there (R178). -/
def roleOf (current : Role) : Option Standing → Role
  | some .current => current
  | some .behind | some .blank => .stale
  | some .other | none => .failed

/-- The first position of NEW that an installed GROW adds (R178). -/
def Label.firstAdded (l : Label) : Option Nat :=
  match l.layouts with
  | [o, _] => if l.installed then some o.entries.length else none
  | _ => none

/-- The roles and positions the chosen label gives: bay, role, position, incoming flag (R178, R179). -/
def State.matchedRoles (s : State) (chosen : Label) : List (Slot × Role × Nat × Bool) :=
  let replacing := chosen.installed && chosen.planKind == .replace
  let q := chosen.incoming.map (·.record.q)
  let placed := match chosen.layouts.getLast? with
    | none => []
    | some x =>
      (x.entries.zip (List.range x.entries.length)).filterMap (fun p =>
        (s.matchEntry chosen p.1).map (fun m =>
          let current := if chosen.firstAdded.any (· ≤ p.2) then .joining else .member
          let r := roleOf current m.2
          (m.1.slot, if replacing && q == some p.2 && r == .member then .stale else r, p.2, false)))
  let incoming := match chosen.incoming with
    | none => []
    | some i =>
      match s.matchEntry chosen { member := some { slot := i.record.slot, serial := i.record.serial }, missing := false } with
      | none => []
      | some m => [(m.1.slot, if m.2 == some .current then .joining else .failed, i.record.q, true)]
  placed ++ incoming

/-- The incoming record as matched (R178, R179; log entry 13). -/
def State.matchedIncoming (s : State) (chosen : Label) : Option Incoming :=
  chosen.incoming.bind (fun i =>
    (s.matchEntry chosen { member := some { slot := i.record.slot, serial := i.record.serial }, missing := false }).map
      (fun m => { i.record with slot := m.1.slot }))

/-- The current bays among those matched, ascending (R177, R181). -/
def State.currentBays (s : State) (chosen : Label) : List Slot :=
  allSlots.filter (fun i => chosen.named.any (fun m => s.matchOf chosen m.serial == some (i, .current)))

/-- Whether a scanned bay's label names another volume (R176). -/
def State.foreignTo (s : State) (chosen : Label) (i : Slot) : Bool :=
  (s.scanLabel i).any (fun l => l.identity != 0#64 && l.identity != chosen.identity)

/-- Every bay's role, position and remap table set at the choice (R176, R178, R180, R151). -/
def setRoles (chosen : Label) (s : State) : State :=
  let roles := s.matchedRoles chosen
  let matched := s.matched chosen
  allSlots.foldl
    (fun t i =>
      let serial := (s.bay i).ident.map (·.1)
      let hard := if matched.contains i then
          (chosen.hard.filter (fun h => serial == some h.serial)).map (fun h =>
            { row := h.row, spare := h.spare, hard := true, filling := false : Remap })
        else []
      match roles.find? (·.1 == i) with
      | some (_, r, p, inc) =>
        updBay i (fun b => { b with role := r, position := some p, incoming := inc, remaps := hard.take 8 }) t
      | none =>
        let r := if s.asm.scanSet.contains i && s.foreignTo chosen i then Role.foreign else .none
        updBay i (fun b => { b with role := r, position := none, incoming := false, remaps := [] }) t)
    s

/-! ## Loading (R180, R181) -/

/-- The chain as the label's pointer and flags give it (R180). -/
def loadChain (l : Label) (p : PlanUnit) : PlanUnit :=
  if l.planKind != .empty then
    if l.installed then
      { p with pointer := l.activeSlot, status := .active, hold := l.held, active := some l.activeSlot, stage := .working,
               installed := true, planKind := l.planKind }
    else { p with pointer := l.activeSlot, status := .due, keepHold := l.held }
  else
    { p with pointer := l.pointer, status := if l.ended then .ended else if l.held then .held else .due }

/-- The state of the chosen label loaded by its owners, and the plan areas to be read (R180, R181). -/
def loadLabel (chosen : Label) (s : State) : State :=
  let layouts := s.matchedLayouts chosen
  let incoming := s.matchedIncoming chosen
  let current := s.currentBays chosen
  let lost := chosen.installed && chosen.planKind == .replace
    && !((s.matchedRoles chosen).any (fun r => r.2.2.2 && r.2.1 == .joining))
  let s := setRoles chosen s
  { s with
    plan := loadChain chosen
      { State.resetPlan with
        layouts := layouts, incoming := incoming, identity := chosen.identity, capacity := chosen.capacity }
    mover := { front := chosen.markFront, phase := chosen.phase, slotA := none, slotB := none }
    mark :=
      { State.resetMark with front := chosen.markFront, state := chosen.markState, generation := chosen.generation }
    asm :=
      { s.asm with
        stage := .loading, chosen := some chosen, current := current, wanted := List.range 64, asked := 0, reads := 0,
        incomingLost := lost } }

/-- No volume is chosen: the volume is NONE, every scanned bay NONE, and assembly ends (R176, R187). -/
def chooseNone (s : State) : State :=
  let s := updAllBays (fun b => { b with role := .none, position := none, incoming := false, remaps := [] }) s
  takePages
    { s with
      ctl := { s.ctl with volume := .none, state := .idle, latch := false, lastReport := [], lastTolerance := s.tolerance }
      plan := State.resetPlan
      mark := State.resetMark
      asm := { s.asm with stage := .idle } }

/-- The choice (R174, R176, R178); at the first scan since power-on the presence references take their values (R120). -/
def ruleChoice (s : State) : Option State :=
  if s.mayChoose then
    let s := if s.asm.firstScan then { takeReferences s with asm := { s.asm with firstScan := false } } else s
    some (match chosenLabel s.scanLabels with
      | none => chooseNone s
      | some l => loadLabel l s)
  else none

/-- One READ for each run of the records still wanted (R181). -/
def askRecords (i : Slot) (s : State) : State :=
  let runs := runsOf s.asm.wanted
  let s := { s with asm := { s.asm with asked := s.asm.asked + 1, reads := runs.length } }
  runs.foldl (fun s r => handReserve i .mark (.read (Config.planBase + r.1) r.2) .assemblyPlanRead s) s

/-- The records no bay has supplied: EMPTY, or for the active slot the label's kind alone (R181). -/
def supplyRecords (s : State) : State :=
  match s.asm.chosen with
  | none => s
  | some l =>
    if l.planKind != .empty && s.asm.wanted.contains l.activeSlot then
      setRecord l.activeSlot { State.resetRecord with kind := BitVec.ofNat 8 (kindCode l.planKind) } s
    else s

/-- The table as loaded: the records no bay has supplied set, and the active plan's record showing outcome NONE (R96, R181). -/
def fillRecords (s : State) : State :=
  let s := supplyRecords s
  match s.plan.active with
  | none => s
  | some i => clearOutcome i s

/-- Loading goes on bay by bay, then recovery begins (R181, R182). -/
def ruleLoading (s : State) : Option State :=
  if s.asm.stage == .loading && s.asm.reads == 0 then
    match s.asm.current[s.asm.asked]? with
    | some i =>
      if s.asm.wanted.isEmpty then some { fillRecords s with asm := { s.asm with stage := .records, asked := 0 } }
      else some (askRecords i s)
    | none => some { fillRecords s with asm := { s.asm with stage := .records, asked := 0 } }
  else none

/-- A record of a plan area block, when the block and the record's own guard are good (R181, R204). -/
def areaRecord (i : Nat) (b : Block) : Option PlanRecord :=
  if judgeOther (BitVec.ofNat 32 (Config.planBase + i)) b == .good
      && fieldAt b.data 64 2 == (recordGuard b.data 64).toNat then some (recordOf b.data) else none

/-- A record read from a plan area is taken when it is still wanted (R181); nothing is taken from an invalid block. -/
def takeAreaRecord (k : Nat) (found : Option PlanRecord) (s : State) : State :=
  match found with
  | some r =>
    if s.asm.wanted.contains k then
      setRecord k r { s with asm := { s.asm with wanted := s.asm.wanted.filter (· != k) } }
    else s
  | none => s

/-- A plan area READ of assembly has ended (R181). -/
def endPlanRead (op : MemberOp) (res : OpResult) (s : State) : State :=
  if s.asm.stage != .loading then s
  else
    let s := judgeReserve op.slot op.kind.span.1 res.blocks s
    let first := op.kind.span.1 - Config.planBase
    let s := (res.blocks.zip (List.range op.kind.span.2)).foldl (fun s x => takeAreaRecord (first + x.2) (areaRecord (first + x.2) x.1) s) s
    { s with asm := { s.asm with reads := s.asm.reads - 1 } }

/-! ## Recovery (R182 to R185) -/

/-- The current bays at NEW positions (R182). -/
def State.newBays (s : State) : List (Nat × Slot) :=
  match s.growing with
  | none => []
  | some (_, n) =>
    (List.range n.n).filterMap (fun p =>
      (n.slotAt p).bind (fun i => if s.asm.current.contains i then some (p, i) else none))

/-- Whether a spill record is to be looked for: an installed GROW in phase MIGRATE (R182). -/
def State.mayRestore (s : State) : Bool := s.planInstalled && s.growing.isSome && s.mover.phase == .migrate

/-- Whether a spill record is valid against the state as loaded (R182). -/
def State.spillValid (s : State) (r : SpillRecord) : Bool :=
  match s.growing with
  | none => false
  | some (o, n) =>
    r.generation == s.mark.generation && r.front == s.mark.front && 1 ≤ r.rows
      && r.rows ≤ min 16 (min (Config.stagingBlocks / (n.unit * n.n)) (Sys2Proof.Machine.growthEnd o n - s.mark.front))
      && r.first == r.front * n.rowBlocks && r.stop == stepStop o n r.front r.rows

/-- The plan unit hands over the table copies of the assembly label (R186). -/
def handCopies (s : State) : State :=
  let targets := s.serving
  { s with
    plan := { s.plan with areaOps := s.plan.areaOps ++ targets.map (fun i => { slot := i, what := .copy true }) }
    asm := { s.asm with stage := .label, copies := targets.length, labelDone := false } }

/-- Recovery has ended: the assembly label write and the table copies begin (R186). -/
def beginAssemblyEnd (s : State) : State := beginAssemblyLabel (handCopies s)

/-- The first passage of the recovery stage: the spill record READs, or on to the assembly label (R182, R185). -/
def beginRecovery (s : State) : State :=
  if s.mayRestore then
    let bays := s.newBays.map (·.2)
    let s := { s with asm := { s.asm with asked := 1, reads := bays.length } }
    bays.foldl (fun s i => handReserve i .mark (.read Config.spillRecordBlock 1) .assemblySpillRead s) s
  else beginAssemblyEnd s

/-- A spill record READ has ended (R182). -/
def endSpillRead (op : MemberOp) (res : OpResult) (s : State) : State :=
  if s.asm.stage != .records then s
  else
    let s := judgeReserve op.slot Config.spillRecordBlock (res.blocks.take 1) s
    let found := match (res.blocks.head?).bind spillOf with
      | some r => if s.spillValid r then [(op.slot, r)] else []
      | none => []
    { s with asm := { s.asm with reads := s.asm.reads - 1, spills := s.asm.spills ++ found } }

/-- The valid copy at the lowest bay slot (R182). -/
def State.spillChosen (s : State) : Option SpillRecord :=
  (allSlots.filterMap (fun i => s.asm.spills.find? (·.1 == i))).head?.map (·.2)

/-- The NEW positions with a usable column (R183). -/
def State.usable (s : State) : List (Nat × Slot) := s.newBays.filter (fun p => s.asm.spills.any (·.1 == p.2))

/-- A place of a restored step by position and index in its column. -/
def columnCell (n : Layout) (front pos k : Nat) : Cell := { row := front + k / n.unit, pos := pos, off := k % n.unit }

/-- The restored step as set up in slot A, its usable columns asked for (R183). The spec names no class for these READs; as a
step's they are handed over in the mover class (DEDUCED, log entry 58). -/
def beginRestore (r : SpillRecord) (o n : Layout) (s : State) : State :=
  let source := growthSource o r.first r.stop
  let len := r.rows * n.unit
  let wanted := (List.range n.n).flatMap (fun p => (List.range len).map (columnCell n r.front p))
  let usable := s.usable
  let lack := (List.range n.n).filter (fun p => !usable.any (·.1 == p))
  let f := markBad (lack.flatMap (fun p => (List.range len).map (columnCell n r.front p))) (Fetch.fresh n wanted)
  let x := usable.foldl
    (fun (q : State × Fetch) u =>
      let id := q.1.shelf.nextOp
      (handReserve u.2 .mover (.read Config.spillBase len) .assemblyColumnRead q.1,
       { q.2 with cells := q.2.cells ++ (List.range len).map (fun k => (columnCell n r.front u.1 k, CellState.waiting id)) }))
    (s, f)
  let t : Step :=
    { newStep .migrate n r.front r.rows r.first r.stop source with
      stage := .place, spill := true, handed := true, restore := true, outstanding := usable.length, fetch := x.2 }
  let s := setStep .a (some t) x.1
  { s with
    mark := { s.mark with state := markFreeze s.mark.state }
    asm := { s.asm with stage := .columns, reads := usable.length } }

/-- The spill record READs have all ended: the step is restored, or assembly continues from the mark (R182, R185). -/
def ruleRecords (s : State) : Option State :=
  if s.asm.stage == .records then
    if s.asm.asked == 0 then some (beginRecovery s)
    else if s.asm.reads == 0 then
      match s.spillChosen, s.growing with
      | some r, some (o, n) => some (beginRestore r o n s)
      | _, _ => some (beginAssemblyEnd s)
    else none
  else none

/-- One place of an ended column READ is judged; no write-back is made (R183). -/
def arriveColumn (op : MemberOp) (res : OpResult) (front : Nat) (c : Cell) (p : State × Fetch) : State × Fetch :=
  let idx := (c.row - front) * p.2.layout.unit + c.off
  match res.blocks[idx]? with
  | none => (p.1, p.2.put c .bad)
  | some b =>
    match p.2.layout.judge c b with
    | .good => (p.1, p.2.put c (.got b))
    | .poison => (p.1, p.2.put c (.poison b))
    | .tagError => (tagErrorAt op.slot (Config.spillBase + idx) p.1, p.2.put c .bad)

/-- A spill column READ has ended (R183). -/
def endColumnRead (op : MemberOp) (res : OpResult) (s : State) : State :=
  match s.mover.slotA with
  | none => s
  | some t =>
    if s.asm.stage != .columns then s
    else
      let r := (t.fetch.waitingFor op.id).foldl (fun q c => arriveColumn op res t.front c q) (s, t.fetch)
      let s := updStep .a (fun t => { t with fetch := r.2, outstanding := t.outstanding - 1 }) r.1
      { s with asm := { s.asm with reads := s.asm.reads - 1 } }

/-- The places of a restored step that could not be had. -/
def Fetch.unobtained (f : Fetch) : List Cell := f.wanted.filter (fun c => f.at c == some .bad)

/-- Whether two places of one row and offset could not be had (R183, R184). -/
def Fetch.twoGone (f : Fetch) : Bool :=
  let bad := f.unobtained
  bad.any (fun c => bad.any (fun d => d.row == c.row && d.off == c.off && d.pos != c.pos))

/-- A restored block: as read, or rebuilt from the other columns (R183, R143). -/
def restoredBlock (f : Fetch) (c : Cell) : Block :=
  match f.at c with
  | some (.got b) | some (.poison b) | some (.rebuilt b) => b
  | _ =>
    rebuildBlock f.layout c ((f.layout.others c).filterMap (fun o => ((f.at o).bind CellState.block).map
      (fun b => sourceOf b.1 b.2)))

/-- Recovery fails: the volume OFFLINE, the engine HALTED with cause RECOVERY_FAILED, the mark state as loaded (R184, R170,
R78). -/
def recoveryFails (s : State) : State :=
  let s := setStep .a none s
  takePages (raise .engineHalted
    { s with
      ctl :=
        { s.ctl with
          state := .halted, volume := .offline, cause := .recoveryFailed, faultLayout := none, latch := true,
          saved := some .running, lastReport := s.counts, lastTolerance := s.tolerance }
      mark := { s.mark with state := (s.asm.chosen.map (·.markState)).getD s.mark.state }
      asm := { s.asm with stage := .idle } })

/-- The restored step's rows are placed (R183, R59). -/
def placeRestored (t : Step) (n : Layout) (s : State) : State :=
  let units := (List.range n.n).flatMap (fun p =>
    (List.range t.rows).map (fun k => ({ row := t.front + k, pos := p } : RowUnit)))
  let t := { t with
    built := units.map (fun u => (u, (n.unitCells u).map (restoredBlock t.fetch))), fetch := Fetch.fresh n [] }
  let targets := (List.range n.n).filterMap (fun p =>
    (n.slotAt p).bind (fun i => if s.serves i then some (p, i) else none))
  let ws := targets.flatMap (fun x => t.columnWrites s x.1 x.2)
  let s := setStep .a (some { t with outstanding := ws.length }) s
  let s := { s with asm := { s.asm with stage := .placing } }
  ws.foldl (fun s w => handUnit w.slot .mover n.unit w.row w.off (fun b => .write b w.blocks) .restorePlace s) s

/-- The column READs have all ended: recovery is judged, and the step placed (R183, R184). -/
def ruleColumns (s : State) : Option State :=
  if s.asm.stage == .columns && s.asm.reads == 0 then
    match s.mover.slotA, s.growing with
    | some t, some (_, n) => some (if t.fetch.twoGone then recoveryFails s else placeRestored t n s)
    | _, _ => none
  else none

/-- The last place write of a restored step has ended: the front passes it and the assembly label begins (R183, R186). -/
def ruleRestored (s : State) : Option State :=
  if s.asm.stage == .placing then
    match s.mover.slotA with
    | none => none
    | some t =>
      if t.outstanding == 0 then
        let s := { s with
          mover := { s.mover with front := t.front + t.rows, slotA := none }
          asm := { s.asm with restored := true } }
        some (beginAssemblyEnd s)
      else none
  else none

/-! ## The end of assembly (R186, R187) -/

/-- A table copy of the assembly label has ended (R186, R98). -/
def endAssemblyCopy (again : Bool) (op : MemberOp) (res : OpResult) (s : State) : State :=
  endReserveWrite again (.assemblyCopy true) op res (fun s => { s with asm := { s.asm with copies := s.asm.copies - 1 } }) s

/-- The engine state and phase the loaded plan and front give (R187). -/
def State.tableState (s : State) : EngineState × Phase :=
  if !s.planInstalled then (.idle, s.mover.phase)
  else match s.mover.phase with
    | .none => (.idle, .none)
    | .migrate =>
      if s.mover.front < s.growthEnd then (.running, .migrate)
      else if s.mover.front < s.rows then (.settling, .settle)
      else (.closing, .migrate)
    | .settle => if s.mover.front < s.rows then (.settling, .settle) else (.closing, .settle)
    | .rebuild => if s.plan.incomingLost || s.rows ≤ s.mover.front then (.closing, .rebuild) else (.running, .rebuild)
    | .form => if s.mover.front < s.rows then (.running, .form) else (.closing, .form)

/-- Whether the chosen label recorded a position as missing (R187). -/
def Label.recorded (l : Label) (i : LayoutId) (pos : Nat) : Bool :=
  match l.layouts.find? (·.id == i) with
  | none => false
  | some x => (x.entries[pos]?).any (fun e => e.missing || e.member.isNone)

/-- The layouts with a newly missing position (R187). -/
def State.newlyMissing (s : State) : List Layout :=
  match s.asm.chosen with
  | none => []
  | some l =>
    s.plan.layouts.filter (fun x => (List.range x.n).any (fun p =>
      s.missing x p && !l.recorded x.id p && !(l.incoming.any (·.record.q == p))))

/-- The volume state at the end of assembly (R187, R168). -/
def State.endVolume (s : State) : VolumeState :=
  if s.planInstalled && s.activeKind == .form then .forming else volumeOf s.counts

/-- The end of assembly (R187). -/
def endAssembly (s : State) : State :=
  let lost := s.asm.incomingLost || (s.plan.incoming.any (fun i => (s.bay i.slot).role == .failed))
  let s := { s with plan := { s.plan with incomingLost := lost } }
  let r := s.tableState
  let news := s.newlyMissing
  let counts := s.counts
  let s := { s with
    mover := { s.mover with phase := r.2 }
    ctl :=
      { s.ctl with
        volume := s.endVolume, state := r.1, latch := false, lastReport := counts, lastTolerance := s.tolerance }
    asm := { s.asm with stage := .idle } }
  let s := if news.isEmpty then s else raise .memberLost s
  let beyond := news.any (fun l => s.tolerance < s.missingCount l)
  let s := if beyond && r.1 != .idle then
      raise .engineSuspended
        { s with ctl :=
          { s.ctl with
            state := .suspended, saved := some r.1, latch := true, cause := .memberLost,
            faultLayout := firstExceeding s.tolerance counts } }
    else s
  takePages s

/-- Assembly ends when the assembly label and every table copy have ended (R186, R187). -/
def ruleAssemblyEnd (s : State) : Option State :=
  if s.asm.stage == .label && s.asm.labelDone && s.asm.copies == 0 then some (endAssembly s) else none

end Sys2Proof.Machine
end

