-- ==== Sys2Proof/Machine/Ends.lean ====
section
/-! DEFINITION. The ends of member operations: what a drive's answer or a timer does at the shelf unit, and what the block
that handed the operation over does with its end (R126, R129 to R131, R149). -/

namespace Sys2Proof.Machine

/-- A READ of a host read's part has ended (R32); a drained one is discarded once judged (R43, R142). -/
def endHostRead (a part : Nat) (op : MemberOp) (res : OpResult) (s : State) : State :=
  match s.req a with
  | none => s
  | some e =>
    match e.reads[part]? with
    | none => judgeOrphan op res s
    | some f =>
      let r := arriveFetch (.part a part) op res (s, f)
      push (.advance a) (updReq a (fun e => { e with reads := e.reads.set part r.2 }) r.1)

/-- A READ of a write path's row has ended (R37). -/
def endHostWriteRead (a row : Nat) (op : MemberOp) (res : OpResult) (s : State) : State :=
  match s.req a with
  | none => s
  | some e =>
    match e.rows[row]? with
    | none => s
    | some w =>
      let r := arriveFetch (.row a row) op res (s, w.fetch)
      push (.advance a) (updReq a (fun e => { e with rows := e.rows.set row { w with fetch := r.2 } }) r.1)

/-- A member FLUSH has ended: it counts whatever its outcome; a second refusal fails the bay (R40, R131). -/
def endHostFlush (a : Nat) (op : MemberOp) (res : OpResult) (s : State) : State :=
  let s := match res with
    | .media _ _ => failBay op.slot s
    | _ => s
  updReq a (fun e => { e with flushes := e.flushes.map (· - 1) }) s

/-- The owner of an operation learns its end (R126). -/
def ownerEnd (op : MemberOp) (res : OpResult) (s : State) : State :=
  match op.owner with
  | .hostRead a part => endHostRead a part op res s
  | .hostWriteRead a row => endHostWriteRead a row op res s
  | .hostWriteWrite a row => endDataWrite op res (fun _ s => endHostWrite a row op s) s
  | .hostFlush a => endHostFlush a op res s
  | .gather g => endGather g op res s
  | .spillColumn g again => endSpillColumn g again op res s
  | .spillRecord again => endSpillRecord again op res s
  | .place g => endDataWrite op res (fun res s => stepWriteEnded g (notePoison g op res s)) s
  | .label again => endLabel again op res s
  | .tableCopy again => endTableCopy again op res s
  | .planArea i again => endPlanArea i again op res s
  | .releasedLabel again => endReleased again op res s
  | .inquire => endInquire op.slot res s
  | .labelRead => endLabelRead op.slot res s
  | .assemblyPlanRead => endPlanRead op res s
  | .assemblySpillRead => endSpillRead op res s
  | .assemblyColumnRead => endColumnRead op res s
  | .restorePlace => endDataWrite op res (fun _ s => stepWriteEnded .a s) s
  | .assemblyLabel again => endAssemblyLabel again op res s
  | .assemblyCopy again => endAssemblyCopy again op res s
  | .writeBack => endDataWrite op res (fun _ s => endWriteBack op s) s
  | .fillRead i row => endFillRead i row op res s
  | .spareWrite i row => endSpareWrite i row res s
  | .drained _ => s

/-! ## Classes of owners, one for each end command -/

/-- Which end command an operation's answer belongs to. -/
inductive OwnerClass where
  | hostRead | hostWriteRead | hostWriteWrite | hostFlush | gather | spillColumn | spillRecord | place | label | tableCopy
  | planArea | releasedLabel | inquire | labelRead | assemblyPlanRead | assemblySpillRead | assemblyColumnRead
  | restorePlace | assemblyLabel | writeBack | fillRead | spareWrite | drained
  deriving DecidableEq, Repr

/-- The end command of an owner; the assembly label's row takes the assembly table copies with it. -/
def Owner.kind : Owner → OwnerClass
  | .hostRead _ _ => .hostRead
  | .hostWriteRead _ _ => .hostWriteRead
  | .hostWriteWrite _ _ => .hostWriteWrite
  | .hostFlush _ => .hostFlush
  | .gather _ => .gather
  | .spillColumn _ _ => .spillColumn
  | .spillRecord _ => .spillRecord
  | .place _ => .place
  | .label _ => .label
  | .tableCopy _ => .tableCopy
  | .planArea _ _ => .planArea
  | .releasedLabel _ => .releasedLabel
  | .inquire => .inquire
  | .labelRead => .labelRead
  | .assemblyPlanRead => .assemblyPlanRead
  | .assemblySpillRead => .assemblySpillRead
  | .assemblyColumnRead => .assemblyColumnRead
  | .restorePlace => .restorePlace
  | .assemblyLabel _ => .assemblyLabel
  | .assemblyCopy _ => .assemblyLabel
  | .writeBack => .writeBack
  | .fillRead _ _ => .fillRead
  | .spareWrite _ _ => .spareWrite
  | .drained _ => .drained

/-- Whether an operation has been drained by RESTART (R137). -/
def Owner.isDrained : Owner → Bool
  | .drained _ => true
  | _ => false

/-! ## Answers (R126, R130, R131) -/

/-- A MEDIA answer: the bay's count rises, and the error is captured (R130, R149). -/
def mediaAt (k : CaptureKind) (i : Slot) (first : Nat) (s : State) : State :=
  captureAt k i first (updBay i (fun b => { b with media := bump b.media }) s)

/-- Whether an operation is a READ. -/
def OpKind.isRead : OpKind → Bool
  | .read _ _ => true
  | _ => false

/-- A drive's answer as an end of an operation. -/
def readResult : ReadAnswer → OpResult
  | .good bs => .good bs
  | .media f bs => .media f bs

/-- A drive's answer to a WRITE or FLUSH as an end. -/
def writeResult : WriteAnswer → OpResult
  | .good => .good []
  | .media f => .media f []

/-- A drive's answer to an INQUIRE as an end. -/
def inquireResult : InquireAnswer → OpResult
  | .good serial cap => .inquired serial cap
  | .media => .media 0 []

/-- The capture kind of a MEDIA answer (R149). -/
def mediaKind : OpKind → CaptureKind
  | .read _ _ | .inquire => .mediaRead
  | .write _ _ | .flush => .mediaWrite

/-- The block a MEDIA answer or a timeout is captured at: member block 0 for FLUSH and INQUIRE (R149). -/
def mediaBlock (k : OpKind) (first : Nat) : Nat :=
  match k with
  | .read _ _ | .write _ _ => first
  | .flush | .inquire => 0

/-- A MEDIA answer to an issued operation is counted and captured (R130, R149). -/
def noteMedia (x : Issued) (res : OpResult) (s : State) : State :=
  match res with
  | .media first _ => mediaAt (mediaKind x.op.kind) x.op.slot (mediaBlock x.op.kind first) s
  | _ => s

/-- What an answer does before the block that handed the operation over learns of it: the issue slot is freed and granted
again, a MEDIA to a WRITE, FLUSH or INQUIRE being counted and captured first (R128, R130, R149). -/
def Issued.heard (x : Issued) (res : OpResult) (s : State) : State :=
  freeIssue x.op.slot x.op.id (if x.op.kind.isRead then s else noteMedia x res s)

/-- What an answer does after that: the MEDIA of a READ is captured behind the tag errors of the blocks it returned, which lie
below the block that failed (R149). -/
def Issued.told (x : Issued) (res : OpResult) (s : State) : State := if x.op.kind.isRead then noteMedia x res s else s

/-- An answer has come for an issued operation: its slot is freed, its owner learns the end, MEDIA is counted and captured
(R126, R128, R130, R149). -/
def answered (x : Issued) (res : OpResult) (s : State) : State := x.told res (ownerEnd x.op res (x.heard res s))

/-- A FLUSH answered MEDIA for the first time is sent once more in its slot (R131). -/
def flushAgain (x : Issued) (s : State) : State :=
  resend x.op.slot x.op.id (fun y => { y with medias := y.medias + 1 })
    (mediaAt .mediaWrite x.op.slot 0 s)

/-- Whether an answer belongs to an issued operation of a class, at its latest sending (R129). -/
def State.awaited (s : State) (c : OwnerClass) (r : OpRef) : Option Issued :=
  (s.issuedAt r).bind (fun x => if x.op.owner.kind == c then some x else none)

/-- An answer of a class: taken when it belongs to an issued operation of that class, else discarded (R124, R129). -/
def takeAnswer (c : OwnerClass) (r : OpRef) (res : OpResult) (s : State) : State :=
  match s.awaited c r with
  | none => s
  | some x => answered x res s

/-- A FLUSH's answer: the first MEDIA sends it again (R131). -/
def takeFlushAnswer (r : OpRef) (res : OpResult) (s : State) : State :=
  match s.awaited .hostFlush r with
  | none => s
  | some x =>
    match res with
    | .media _ _ => if x.medias == 0 then flushAgain x s else answered x res s
    | _ => answered x res s

/-- A drained operation ends: its slot is freed and nothing else (R137). -/
def takeDrained (r : OpRef) (s : State) : State :=
  match s.awaited .drained r with
  | none => s
  | some x => freeIssue x.op.slot x.op.id s

/-! ## The timer (R129, R137) -/

/-- The first block of an operation as a timeout captures it (R149). -/
def OpKind.firstBlock : OpKind → Nat
  | .read f _ => f
  | .write f _ => f
  | .flush | .inquire => 0

/-- The second expiry: the operation ends TIMEOUT, and a MEMBER or JOINING bay fails, its other operations ending GONE
(R129). -/
def timedOut (x : Issued) (s : State) : State :=
  let i := x.op.slot
  let s := updBay i (fun b => { b with issued := b.issued.filter (·.op.id != x.op.id) }) s
  grants i (ownerEnd x.op .timeout (failBay i s))

/-- The timer of an issued operation expires: counted and captured, then sent again or ended; a drained operation only
ends (R129, R137). -/
def expire (r : OpRef) (s : State) : State :=
  match s.issuedAt r with
  | none => s
  | some x =>
    let i := x.op.slot
    if x.op.owner.isDrained then freeIssue i x.op.id s
    else
      let s := captureAt .timeout i x.op.kind.firstBlock (updBay i (fun b => { b with timeouts := bump b.timeouts }) s)
      if x.expiries == 0 then resend i x.op.id (fun y => { y with expiries := 1 }) s else timedOut x s

end Sys2Proof.Machine
end

