-- ==== Sys2Proof/Machine/Settle.lean ====
section
/-! DEFINITION. What follows from a command at the same event: the waiting internal events one after another, then every
rule whose condition holds, until nothing more follows (log entry 5). -/

namespace Sys2Proof.Machine

/-- One internal event is taken. -/
def takeEv (e : Ev) (s : State) : State :=
  match e with
  | .opEnd op res => ownerEnd op res s
  | .release a => releaseRequest a s
  | .advance a => advanceRequest a s
  | .stepAdvance g => advanceStep g s
  | .fillAdvance i row => advanceFill i row s

/-- The oldest internal event is taken first (log entry 5). -/
def ruleTodo (s : State) : Option State :=
  match s.todo with
  | [] => none
  | e :: rest => some (takeEv e { s with todo := rest })

/-- The rules in the order they are looked at (log entry 5). -/
def rules : List (State → Option State) :=
  [ruleTodo, ruleBand, ruleTake, ruleGrant, ruleQueued, ruleLabelDone, rulePlaced, ruleRecordDone, ruleInstalled, ruleRest,
   ruleLostPaused, ruleDrop, ruleClosing, rulePlanEnd, ruleWaiting, ruleFetch, ruleRecopy, ruleFreeze, ruleDecide,
   ruleSpill, ruleSpillRecord, rulePlace, ruleLabel, ruleFreeSlot, ruleBegin, ruleRecord, ruleArea, ruleFlush,
   ruleDrained, ruleScan, ruleChoice, ruleLoading, ruleRecords, ruleColumns, ruleRestored, ruleAssemblyEnd, ruleSuspend]

/-- The first rule of a list that applies. -/
def firstRule (rs : List (State → Option State)) (s : State) : Option State :=
  match rs with
  | [] => none
  | r :: rest => match r s with
    | some t => some t
    | none => firstRule rest s

/-- Rules are applied until none applies, at most so many times. -/
def settleFor : Nat → State → State
  | 0, s => s
  | n + 1, s => match firstRule rules s with
    | none => s
    | some t => settleFor n t

/-- The bound on what one command can bring about (log entry 5). -/
def settleBound : Nat := 1000000

/-- Everything that follows from a command at its event. -/
def settle (s : State) : State := settleFor settleBound s

end Sys2Proof.Machine
end

