-- ==== Sys2Proof/Machine/Requests.lean ====
section
/-! DEFINITION. Requests and power: the arrival checks of R22, window accesses (R189), and the commands POWER_ON,
VOLUME_LINK_RESET, READ_REQUEST, WRITE_REQUEST, FLUSH_REQUEST, PLAN_PAGE_WRITE and WINDOW_WRITE_REFUSED. -/

namespace Sys2Proof.Machine

/-- A state as an outcome: every command of the engine leads to a next state. -/
abbrev Result := Host.Outcome State Fault Refusal

/-! ## Arrival checks (R22, R141) -/

/-- Check 1: no room in the request table, or an entry draining (R22). -/
def State.busy (s : State) : Bool := Config.maxRequests ≤ s.port.entries.length || s.port.entries.any (·.state == .draining)

/-- Whether a tag belongs to an occupied entry (R22). -/
def State.tagUsed (s : State) (tag : Tag) : Bool := s.port.entries.any (·.tag == tag)

/-- Where the blocks of a READ or WRITE lie (R22, check 3). -/
inductive Access where
  | volume | window | outside
  deriving DecidableEq, Repr

/-- Check 3: a volume request, a window access, or out of range (R22). -/
def State.access (s : State) (lba count : Nat) : Access :=
  if lba + count ≤ s.plan.capacity then .volume
  else if Config.windowBase ≤ lba && lba + count ≤ Config.windowBase + 128 then .window
  else .outside

/-- Whether a host block's guard and reference are right (R141). -/
def hostBlockGood (lba : Nat) (b : Block) : Bool := guardGood b && b.ref == BitVec.ofNat 32 lba

/-- The lowest block of a WRITE whose tag is wrong (R141, R149). -/
def badBlock (lba : Nat) (bs : List Block) : Option Nat :=
  ((bs.zip (List.range bs.length)).find? (fun x => !hostBlockGood (lba + x.2) x.1)).map (fun x => lba + x.2)

/-- Whether the volume answers NOT_READY to an arrival (R22, R168). -/
def State.notReady (s : State) : Bool :=
  match s.ctl.volume with
  | .none | .assembling | .forming | .offline => true
  | .online | .degraded => false

/-- The refusals of checks 1 and 2, in order (R22). -/
def State.refusal12 (s : State) (tag : Tag) (badField : Bool) : Option Status :=
  if s.busy then some .busy else if s.tagUsed tag || badField then some .invalidField else none

/-- An arrival number is given, and the entry occupies its place in the table (R22, R25). -/
def accept (tag : Tag) (k : ReqKind) (lba count : Nat) (bs : List Block) (st : ReqState) (s : State) : State :=
  { s with port :=
    { entries := s.port.entries ++
        [{ tag := tag, kind := k, lba := lba, count := count, blocks := bs, arrival := s.port.nextArrival, state := st,
           keys := [], reads := [], rows := [], flushes := none, lossTold := false }]
      nextArrival := s.port.nextArrival + 1 } }

/-- An accepted window access that is finished at once takes its arrival number and leaves no entry (R22, R23, R25). -/
def acceptPassing (s : State) : State := { s with port := { s.port with nextArrival := s.port.nextArrival + 1 } }

/-! ## Reads and flushes -/

/-- A READ request arrives (R22, R190). -/
def readArrival (tag : Tag) (lba count : Nat) (s : State) : State :=
  match s.refusal12 tag (count == 0 || 256 < count) with
  | some st => send tag st none [] s
  | none =>
    match s.access lba count with
    | .outside => send tag .outOfRange none [] s
    | .window =>
      send tag .good none ((runOf (lba - Config.windowBase) count).map s.windowBlock) (acceptPassing s)
    | .volume =>
      if s.notReady then send tag .notReady none [] s
      else enterPath s.port.nextArrival (accept tag .read lba count [] .locking s)

/-- A FLUSH request arrives (R22, R40). -/
def flushArrival (tag : Tag) (s : State) : State :=
  match s.refusal12 tag false with
  | some st => send tag st none [] s
  | none =>
    if s.notReady then send tag .notReady none [] s
    else accept tag .flush 0 0 [] .flushing s

/-! ## Writes (R22, R141, R189) -/

/-- A WRITE is refused BAD_TAG: HOST_TAG is captured (R22, R141, R149). -/
def refuseTag (tag : Tag) (lba : Nat) (s : State) : State :=
  send tag .badTag none []
    (takeCapture { kind := .hostTag, slot := none, block := none, row := none, lba := some lba } s)

/-- A plan page write is accepted: during assembly it waits for its end (R97, R173, R189). -/
def pageArrival (tag : Tag) (lba : Nat) (bs : List Block) (s : State) : State :=
  let a := s.port.nextArrival
  let s := accept tag .page lba bs.length bs .window s
  if s.ctl.volume == .assembling then { s with asm := { s.asm with pages := s.asm.pages ++ [a] } } else takePage a s

/-- A directive write is placed; its completion is sent when all that follows at the event has come about (R189, R191). -/
def directiveWrite (tag : Tag) (d : Directive) (s : State) : State :=
  send tag .good none [] (settle (placeDirective d (acceptPassing s)))

/-- A window WRITE goes by the window blocks it names (R189). -/
def windowWrite (tag : Tag) (lba : Nat) (bs : List Block) (s : State) : State :=
  if lba == Config.windowBase then directiveWrite tag (directiveOf ((bs.map (·.data)).headD zeroData)) s
  else if Config.windowBase + 64 ≤ lba then pageArrival tag lba bs s
  else send tag .invalidField none [] (acceptPassing s)

/-- A WRITE request arrives (R22). -/
def writeArrival (tag : Tag) (lba : Nat) (bs : List Block) (s : State) : State :=
  let count := bs.length
  match s.refusal12 tag (count == 0 || 256 < count || (lba == Config.windowBase && 1 < count)) with
  | some st => send tag st none [] s
  | none =>
    match s.access lba count, badBlock lba bs with
    | .outside, _ => send tag .outOfRange none [] s
    | _, some a => refuseTag tag a s
    | .window, none => windowWrite tag lba bs s
    | .volume, none =>
      if s.notReady then send tag .notReady none [] s
      else enterPath s.port.nextArrival (accept tag .write lba count bs .locking s)

/-- A directive arrives: the one-block write to window block +0 that carries it, its tag being good (R22, R189, R191). -/
def directiveArrival (tag : Tag) (d : Directive) (s : State) : State :=
  match s.refusal12 tag false with
  | some st => send tag st none [] s
  | none => directiveWrite tag d s

/-! ## The commands -/

/-- POWER_ON (R173): every block at its power-on values, and assembly begins. -/
def execPowerOn (s : State) : Result := .next (settle (powerOn s))

/-- VOLUME_LINK_RESET (R43, R44, R172, R202). -/
def execVolumeLinkReset (s : State) : Result := .next (settle (linkReset s))

/-- READ_REQUEST (R22). -/
def execReadRequest (tag : Tag) (lba count : Nat) (s : State) : Result := .next (settle (readArrival tag lba count s))

/-- WRITE_REQUEST (R22). -/
def execWriteRequest (tag : Tag) (lba : Nat) (blocks : List Block) (s : State) : Result :=
  .next (settle (writeArrival tag lba blocks s))

/-- FLUSH_REQUEST (R22, R40). -/
def execFlushRequest (tag : Tag) (s : State) : Result := .next (settle (flushArrival tag s))

/-- PLAN_PAGE_WRITE (R97, R98): a WRITE of window blocks from +64 + first. -/
def execPlanPageWrite (tag : Tag) (first : Nat) (blocks : List Block) (s : State) : Result :=
  .next (settle (writeArrival tag (Config.windowBase + 64 + first) blocks s))

/-- WINDOW_WRITE_REFUSED (R189): a WRITE that begins in window blocks +1 to +63. -/
def execWindowWriteRefused (tag : Tag) (first : Nat) (blocks : List Block) (s : State) : Result :=
  .next (settle (writeArrival tag (Config.windowBase + first) blocks s))

end Sys2Proof.Machine
end

