-- ==== Sys2Proof/Machine/DirectiveCommands.lean ====
section
/-! DEFINITION. The directive commands: each is the one-block write to window block +0 that carries its code (R189, R191,
R194). The effect of a code is its owner's, in Directives.lean. -/

namespace Sys2Proof.Machine

/-- UNKNOWN_DIRECTIVE (R192): a code outside 0x01 to 0x10. -/
def execUnknownDirective (tag : Tag) (code : BitVec 8) (args : DirectiveArgs) (s : State) : Result :=
  .next (settle (directiveArrival tag { code := code, args := args } s))

/-- SELECT_BAY (R195): code 0x01. -/
def execSelectBay (tag : Tag) (args : DirectiveArgs) (s : State) : Result :=
  .next (settle (directiveArrival tag { code := 1#8, args := args } s))

/-- START_CHAIN (R100, R101): code 0x02. -/
def execStartChain (tag : Tag) (args : DirectiveArgs) (s : State) : Result :=
  .next (settle (directiveArrival tag { code := 2#8, args := args } s))

/-- HOLD_CHAIN (R113): code 0x03. -/
def execHoldChain (tag : Tag) (args : DirectiveArgs) (s : State) : Result :=
  .next (settle (directiveArrival tag { code := 3#8, args := args } s))

/-- RELEASE_CHAIN (R114): code 0x04. -/
def execReleaseChain (tag : Tag) (args : DirectiveArgs) (s : State) : Result :=
  .next (settle (directiveArrival tag { code := 4#8, args := args } s))

/-- PAUSE (R159, R167): code 0x05. -/
def execPause (tag : Tag) (args : DirectiveArgs) (s : State) : Result :=
  .next (settle (directiveArrival tag { code := 5#8, args := args } s))

/-- RESUME (R160, R165): code 0x06. -/
def execResume (tag : Tag) (args : DirectiveArgs) (s : State) : Result :=
  .next (settle (directiveArrival tag { code := 6#8, args := args } s))

/-- DROP_PLAN (R115, R116): code 0x07. -/
def execDropPlan (tag : Tag) (args : DirectiveArgs) (s : State) : Result :=
  .next (settle (directiveArrival tag { code := 7#8, args := args } s))

/-- STOP_CHAIN (R117): code 0x08. -/
def execStopChain (tag : Tag) (args : DirectiveArgs) (s : State) : Result :=
  .next (settle (directiveArrival tag { code := 8#8, args := args } s))

/-- SET_TUNING (R196): code 0x09. -/
def execSetTuning (tag : Tag) (args : DirectiveArgs) (s : State) : Result :=
  .next (settle (directiveArrival tag { code := 9#8, args := args } s))

/-- CLEAR_EVENTS (R198): code 0x0A. -/
def execClearEvents (tag : Tag) (args : DirectiveArgs) (s : State) : Result :=
  .next (settle (directiveArrival tag { code := 10#8, args := args } s))

/-- SET_ATTENTION (R199): code 0x0B. -/
def execSetAttention (tag : Tag) (args : DirectiveArgs) (s : State) : Result :=
  .next (settle (directiveArrival tag { code := 11#8, args := args } s))

/-- CLEAR_CAPTURE (R150): code 0x0C. -/
def execClearCapture (tag : Tag) (args : DirectiveArgs) (s : State) : Result :=
  .next (settle (directiveArrival tag { code := 12#8, args := args } s))

/-- FAIL_MEMBER (R133): code 0x0D. -/
def execFailMember (tag : Tag) (args : DirectiveArgs) (s : State) : Result :=
  .next (settle (directiveArrival tag { code := 13#8, args := args } s))

/-- KEEP_REMAPS (R155): code 0x0E. -/
def execKeepRemaps (tag : Tag) (args : DirectiveArgs) (s : State) : Result :=
  .next (settle (directiveArrival tag { code := 14#8, args := args } s))

/-- CLEAR_HALT (R166): code 0x0F. -/
def execClearHalt (tag : Tag) (args : DirectiveArgs) (s : State) : Result :=
  .next (settle (directiveArrival tag { code := 15#8, args := args } s))

/-- RESTART (R171, R202): code 0x10. -/
def execRestart (tag : Tag) (args : DirectiveArgs) (s : State) : Result :=
  .next (settle (directiveArrival tag { code := 16#8, args := args } s))

end Sys2Proof.Machine
end

