-- ==== Sys2Proof/Machine/MemberCommands.lean ====
section
/-! DEFINITION. The commands of the shelf links and the drives: arrivals, departures, links, the timer, and the end of each
kind of member operation (R119, R122, R124, R126, R129, R137). An answer that belongs to no operation in an issue slot is
discarded (R124, R129; log entry 14). -/

namespace Sys2Proof.Machine

/-! ## Shelf links (R119, R174) -/

/-- The 16 bay slots of a port, ascending (00_scope.md 4.2). -/
def portSlots (p : Port) : List Slot := (List.finRange 16).map (slotOf p)

/-- A shelf link's first report since power-on has come (R174). -/
def reported (p : Port) (s : State) : State :=
  { s with asm := { s.asm with linksPending := s.asm.linksPending.filter (· != p) } }

/-- A link down: each present bay of the port departs (R119). -/
def linkDownAt (p : Port) (s : State) : State := (portSlots p).foldl (fun s i => depart i s) (reported p s)

/-- A link up: an arrival for each occupied bay it names (R119, R174). -/
def linkUpAt (p : Port) (bays : List (Fin 16)) (s : State) : State :=
  bays.foldl (fun s b => arrival (slotOf p b) s) (reported p s)

/-- BAY_ARRIVAL (R122, R119). -/
def execBayArrival (slot : Slot) (s : State) : Result := .next (settle (arrival slot s))

/-- BAY_DEPARTURE (R124). -/
def execBayDeparture (slot : Slot) (s : State) : Result := .next (settle (depart slot s))

/-- LINK_DOWN (R119). -/
def execLinkDown (port : Port) (s : State) : Result := .next (settle (linkDownAt port s))

/-- LINK_UP (R119, R174). -/
def execLinkUp (port : Port) (bays : List (Fin 16)) (s : State) : Result := .next (settle (linkUpAt port bays s))

/-- MEMBER_OP_TIMEOUT (R129). -/
def execMemberOpTimeout (ref : OpRef) (s : State) : Result := .next (settle (expire ref s))

/-! ## Ends of member operations -/

/-- HOST_READ_MEMBER_END (R32). -/
def execHostReadMemberEnd (ref : OpRef) (ans : ReadAnswer) (s : State) : Result :=
  .next (settle (takeAnswer .hostRead ref (readResult ans) s))

/-- HOST_WRITE_MEMBER_READ_END (R37). -/
def execHostWriteMemberReadEnd (ref : OpRef) (ans : ReadAnswer) (s : State) : Result :=
  .next (settle (takeAnswer .hostWriteRead ref (readResult ans) s))

/-- HOST_WRITE_MEMBER_WRITE_END (R38, R152). -/
def execHostWriteMemberWriteEnd (ref : OpRef) (ans : WriteAnswer) (s : State) : Result :=
  .next (settle (takeAnswer .hostWriteWrite ref (writeResult ans) s))

/-- MEMBER_FLUSH_END (R131, R40). -/
def execMemberFlushEnd (ref : OpRef) (ans : WriteAnswer) (s : State) : Result := .next (settle (takeFlushAnswer ref (writeResult ans) s))

/-- GATHER_READ_END (R52). -/
def execGatherReadEnd (ref : OpRef) (ans : ReadAnswer) (s : State) : Result :=
  .next (settle (takeAnswer .gather ref (readResult ans) s))

/-- SPILL_COLUMN_WRITE_END (R58). -/
def execSpillColumnWriteEnd (ref : OpRef) (ans : WriteAnswer) (s : State) : Result :=
  .next (settle (takeAnswer .spillColumn ref (writeResult ans) s))

/-- SPILL_RECORD_WRITE_END (R92). -/
def execSpillRecordWriteEnd (ref : OpRef) (ans : WriteAnswer) (s : State) : Result :=
  .next (settle (takeAnswer .spillRecord ref (writeResult ans) s))

/-- PLACE_WRITE_END (R59). -/
def execPlaceWriteEnd (ref : OpRef) (ans : WriteAnswer) (s : State) : Result :=
  .next (settle (takeAnswer .place ref (writeResult ans) s))

/-- LABEL_MEMBER_WRITE_END (R81, R82). -/
def execLabelMemberWriteEnd (ref : OpRef) (ans : WriteAnswer) (s : State) : Result :=
  .next (settle (takeAnswer .label ref (writeResult ans) s))

/-- PLAN_TABLE_COPY_END (R107, R98). -/
def execPlanTableCopyEnd (ref : OpRef) (ans : WriteAnswer) (s : State) : Result :=
  .next (settle (takeAnswer .tableCopy ref (writeResult ans) s))

/-- PLAN_AREA_WRITE_END (R98, R112). -/
def execPlanAreaWriteEnd (ref : OpRef) (ans : WriteAnswer) (s : State) : Result :=
  .next (settle (takeAnswer .planArea ref (writeResult ans) s))

/-- RELEASED_LABEL_WRITE_END (R111). -/
def execReleasedLabelWriteEnd (ref : OpRef) (ans : WriteAnswer) (s : State) : Result :=
  .next (settle (takeAnswer .releasedLabel ref (writeResult ans) s))

/-- INQUIRE_END (R122). -/
def execInquireEnd (ref : OpRef) (ans : InquireAnswer) (s : State) : Result :=
  .next (settle (takeAnswer .inquire ref (inquireResult ans) s))

/-- LABEL_READ_END (R122, R175). -/
def execLabelReadEnd (ref : OpRef) (ans : ReadAnswer) (s : State) : Result :=
  .next (settle (takeAnswer .labelRead ref (readResult ans) s))

/-- PLAN_AREA_READ_END (R181). -/
def execPlanAreaReadEnd (ref : OpRef) (ans : ReadAnswer) (s : State) : Result :=
  .next (settle (takeAnswer .assemblyPlanRead ref (readResult ans) s))

/-- SPILL_RECORD_READ_END (R182). -/
def execSpillRecordReadEnd (ref : OpRef) (ans : ReadAnswer) (s : State) : Result :=
  .next (settle (takeAnswer .assemblySpillRead ref (readResult ans) s))

/-- SPILL_COLUMN_READ_END (R183). -/
def execSpillColumnReadEnd (ref : OpRef) (ans : ReadAnswer) (s : State) : Result :=
  .next (settle (takeAnswer .assemblyColumnRead ref (readResult ans) s))

/-- RESTORE_PLACE_WRITE_END (R183, R59). -/
def execRestorePlaceWriteEnd (ref : OpRef) (ans : WriteAnswer) (s : State) : Result :=
  .next (settle (takeAnswer .restorePlace ref (writeResult ans) s))

/-- ASSEMBLY_LABEL_WRITE_END (R186). -/
def execAssemblyLabelWriteEnd (ref : OpRef) (ans : WriteAnswer) (s : State) : Result :=
  .next (settle (takeAnswer .assemblyLabel ref (writeResult ans) s))

/-- WRITE_BACK_END (R145, R152). -/
def execWriteBackEnd (ref : OpRef) (ans : WriteAnswer) (s : State) : Result :=
  .next (settle (takeAnswer .writeBack ref (writeResult ans) s))

/-- FILL_READ_END (R153). -/
def execFillReadEnd (ref : OpRef) (ans : ReadAnswer) (s : State) : Result :=
  .next (settle (takeAnswer .fillRead ref (readResult ans) s))

/-- SPARE_SLOT_WRITE_END (R153, R154). -/
def execSpareSlotWriteEnd (ref : OpRef) (ans : WriteAnswer) (s : State) : Result :=
  .next (settle (takeAnswer .spareWrite ref (writeResult ans) s))

/-- DRAINED_OPERATION_END (R137): the result is discarded and the slot freed. -/
def execDrainedOperationEnd (ref : OpRef) (s : State) : Result := .next (settle (takeDrained ref s))

end Sys2Proof.Machine
end

