-- ==== Sys2Proof/Machine/Dispatch.lean ====
section
/-! DEFINITION. The dispatch: each command's meaning, one arm per row of spec/opcode_table.json. -/

namespace Sys2Proof.Machine

def exec (i : Instr) (s : State) : Host.Outcome State Fault Refusal :=
  match i with
  | .powerOn => Sys2Proof.Machine.execPowerOn s
  | .volumeLinkReset => Sys2Proof.Machine.execVolumeLinkReset s
  | .readRequest tag lba count => Sys2Proof.Machine.execReadRequest tag lba count s
  | .writeRequest tag lba blocks => Sys2Proof.Machine.execWriteRequest tag lba blocks s
  | .flushRequest tag => Sys2Proof.Machine.execFlushRequest tag s
  | .planPageWrite tag first blocks => Sys2Proof.Machine.execPlanPageWrite tag first blocks s
  | .windowWriteRefused tag first blocks => Sys2Proof.Machine.execWindowWriteRefused tag first blocks s
  | .unknownDirective tag code args => Sys2Proof.Machine.execUnknownDirective tag code args s
  | .selectBay tag args => Sys2Proof.Machine.execSelectBay tag args s
  | .startChain tag args => Sys2Proof.Machine.execStartChain tag args s
  | .holdChain tag args => Sys2Proof.Machine.execHoldChain tag args s
  | .releaseChain tag args => Sys2Proof.Machine.execReleaseChain tag args s
  | .pause tag args => Sys2Proof.Machine.execPause tag args s
  | .resume tag args => Sys2Proof.Machine.execResume tag args s
  | .dropPlan tag args => Sys2Proof.Machine.execDropPlan tag args s
  | .stopChain tag args => Sys2Proof.Machine.execStopChain tag args s
  | .setTuning tag args => Sys2Proof.Machine.execSetTuning tag args s
  | .clearEvents tag args => Sys2Proof.Machine.execClearEvents tag args s
  | .setAttention tag args => Sys2Proof.Machine.execSetAttention tag args s
  | .clearCapture tag args => Sys2Proof.Machine.execClearCapture tag args s
  | .failMember tag args => Sys2Proof.Machine.execFailMember tag args s
  | .keepRemaps tag args => Sys2Proof.Machine.execKeepRemaps tag args s
  | .clearHalt tag args => Sys2Proof.Machine.execClearHalt tag args s
  | .restart tag args => Sys2Proof.Machine.execRestart tag args s
  | .bayArrival slot => Sys2Proof.Machine.execBayArrival slot s
  | .bayDeparture slot => Sys2Proof.Machine.execBayDeparture slot s
  | .linkDown port => Sys2Proof.Machine.execLinkDown port s
  | .linkUp port bays => Sys2Proof.Machine.execLinkUp port bays s
  | .memberOpTimeout ref => Sys2Proof.Machine.execMemberOpTimeout ref s
  | .hostReadMemberEnd ref ans => Sys2Proof.Machine.execHostReadMemberEnd ref ans s
  | .hostWriteMemberReadEnd ref ans => Sys2Proof.Machine.execHostWriteMemberReadEnd ref ans s
  | .hostWriteMemberWriteEnd ref ans => Sys2Proof.Machine.execHostWriteMemberWriteEnd ref ans s
  | .memberFlushEnd ref ans => Sys2Proof.Machine.execMemberFlushEnd ref ans s
  | .gatherReadEnd ref ans => Sys2Proof.Machine.execGatherReadEnd ref ans s
  | .spillColumnWriteEnd ref ans => Sys2Proof.Machine.execSpillColumnWriteEnd ref ans s
  | .spillRecordWriteEnd ref ans => Sys2Proof.Machine.execSpillRecordWriteEnd ref ans s
  | .placeWriteEnd ref ans => Sys2Proof.Machine.execPlaceWriteEnd ref ans s
  | .labelMemberWriteEnd ref ans => Sys2Proof.Machine.execLabelMemberWriteEnd ref ans s
  | .planTableCopyEnd ref ans => Sys2Proof.Machine.execPlanTableCopyEnd ref ans s
  | .planAreaWriteEnd ref ans => Sys2Proof.Machine.execPlanAreaWriteEnd ref ans s
  | .releasedLabelWriteEnd ref ans => Sys2Proof.Machine.execReleasedLabelWriteEnd ref ans s
  | .inquireEnd ref ans => Sys2Proof.Machine.execInquireEnd ref ans s
  | .labelReadEnd ref ans => Sys2Proof.Machine.execLabelReadEnd ref ans s
  | .planAreaReadEnd ref ans => Sys2Proof.Machine.execPlanAreaReadEnd ref ans s
  | .spillRecordReadEnd ref ans => Sys2Proof.Machine.execSpillRecordReadEnd ref ans s
  | .spillColumnReadEnd ref ans => Sys2Proof.Machine.execSpillColumnReadEnd ref ans s
  | .restorePlaceWriteEnd ref ans => Sys2Proof.Machine.execRestorePlaceWriteEnd ref ans s
  | .assemblyLabelWriteEnd ref ans => Sys2Proof.Machine.execAssemblyLabelWriteEnd ref ans s
  | .writeBackEnd ref ans => Sys2Proof.Machine.execWriteBackEnd ref ans s
  | .fillReadEnd ref ans => Sys2Proof.Machine.execFillReadEnd ref ans s
  | .spareSlotWriteEnd ref ans => Sys2Proof.Machine.execSpareSlotWriteEnd ref ans s
  | .drainedOperationEnd ref => Sys2Proof.Machine.execDrainedOperationEnd ref s

end Sys2Proof.Machine
end

