-- ==== Sys2Proof/Safety.lean ====
section
/-! DEFINITION. What counts as a safe step, and the predicates the statements speak of. -/

namespace Sys2Proof.Machine

/-- A step is safe when the engine goes on (every command has an effect, so every step is). -/
def Safe (s : State) : Prop := ∃ t, step s = .next t

/-- A settled state: nothing more follows from what has come about (log entry 5). -/
def State.Settled (s : State) : Prop := firstRule rules s = none

/-- The counted tuning values lie in their ranges (R196). -/
def Tuning.Legal (t : Tuning) : Prop :=
  (1 ≤ t.stepRows ∧ t.stepRows ≤ 16) ∧ (1 ≤ t.pace ∧ t.pace ≤ 16) ∧ (1 ≤ t.markInterval ∧ t.markInterval ≤ 64)
    ∧ (1 ≤ t.stainLimit ∧ t.stainLimit ≤ 7)

/-- What no command may break: the tuning ranges (R196), the sizes of the request table and of the row lock table
(R21, R27), the tags and the arrival numbers of occupied entries being different (R22, R25) and the numbers given before,
and the overwrite count (R191). -/
structure State.Sound (s : State) : Prop where
  tuning     : s.ctl.tuning.Legal
  entries    : s.port.entries.length ≤ Config.maxRequests
  tags       : (s.port.entries.map (·.tag)).Nodup
  numbers    : (s.port.entries.map (·.arrival)).Nodup
  arrivals   : ∀ e ∈ s.port.entries, e.arrival < s.port.nextArrival
  locks      : s.locks.entries.length ≤ Config.maxLocks
  overwrites : s.win.overwrites ≤ Config.counterTop

/-- An engine state that is not one of the two stopped ones. -/
def EngineState.Going (e : EngineState) : Prop := e ≠ .suspended ∧ e ≠ .halted

/-- The law of the fault latch: set exactly in SUSPENDED and HALTED; neither is ever saved or paused from (R157, R163). -/
structure LatchLaw (state : EngineState) (latch : Bool) (saved pausedFrom : Option EngineState) : Prop where
  stopped    : latch = true ↔ state = .suspended ∨ state = .halted
  savedGoing : ∀ e, saved = some e → e.Going
  fromGoing  : ∀ e, pausedFrom = some e → e.Going

/-- The bounds of a bay's counters, issue slots and arbiter counts (R120, R128, R77). -/
structure BayBounds (media tagErrors timeouts issued contest moverCount : Nat) : Prop where
  mediaTop  : media ≤ Config.counterTop
  tagTop    : tagErrors ≤ Config.counterTop
  timeTop   : timeouts ≤ Config.counterTop
  slots     : issued ≤ Config.issueSlots
  cycle     : contest ≤ 15
  share     : moverCount ≤ contest

/-- A bay record within its bounds. -/
def Bay.Fit (b : Bay) : Prop := BayBounds b.media b.tagErrors b.timeouts b.issued.length b.contest b.moverCount

/-- The six capture counts stop at 65535 (R148). -/
def CaptureCounts.Fit (c : CaptureCounts) : Prop :=
  c.hostTag ≤ Config.counterTop ∧ c.memberTag ≤ Config.counterTop ∧ c.mediaRead ≤ Config.counterTop
    ∧ c.mediaWrite ≤ Config.counterTop ∧ c.timeout ≤ Config.counterTop ∧ c.poisonWritten ≤ Config.counterTop

/-- What no command may break in the shelf unit, the integrity unit and engine control. -/
structure State.Fit (s : State) : Prop where
  bays   : ∀ i, (s.bay i).Fit
  counts : s.integ.counts.Fit
  ctl    : LatchLaw s.ctl.state s.ctl.latch s.ctl.saved s.ctl.pausedFrom

/-! ## Directive commands -/

/-- The request tag and the directive a directive command carries (R189, R194); the other commands carry none. -/
def carried : Instr → Option (Tag × Directive)
  | .unknownDirective g code a => some (g, { code := code, args := a })
  | .selectBay g a => some (g, { code := 1#8, args := a })
  | .startChain g a => some (g, { code := 2#8, args := a })
  | .holdChain g a => some (g, { code := 3#8, args := a })
  | .releaseChain g a => some (g, { code := 4#8, args := a })
  | .pause g a => some (g, { code := 5#8, args := a })
  | .resume g a => some (g, { code := 6#8, args := a })
  | .dropPlan g a => some (g, { code := 7#8, args := a })
  | .stopChain g a => some (g, { code := 8#8, args := a })
  | .setTuning g a => some (g, { code := 9#8, args := a })
  | .clearEvents g a => some (g, { code := 10#8, args := a })
  | .setAttention g a => some (g, { code := 11#8, args := a })
  | .clearCapture g a => some (g, { code := 12#8, args := a })
  | .failMember g a => some (g, { code := 13#8, args := a })
  | .keepRemaps g a => some (g, { code := 14#8, args := a })
  | .clearHalt g a => some (g, { code := 15#8, args := a })
  | .restart g a => some (g, { code := 16#8, args := a })
  | .powerOn | .volumeLinkReset | .readRequest _ _ _ | .writeRequest _ _ _ | .flushRequest _ | .planPageWrite _ _ _
  | .windowWriteRefused _ _ _ | .bayArrival _ | .bayDeparture _ | .linkDown _ | .linkUp _ _ | .memberOpTimeout _
  | .hostReadMemberEnd _ _ | .hostWriteMemberReadEnd _ _ | .hostWriteMemberWriteEnd _ _ | .memberFlushEnd _ _
  | .gatherReadEnd _ _ | .spillColumnWriteEnd _ _ | .spillRecordWriteEnd _ _ | .placeWriteEnd _ _
  | .labelMemberWriteEnd _ _ | .planTableCopyEnd _ _ | .planAreaWriteEnd _ _ | .releasedLabelWriteEnd _ _
  | .inquireEnd _ _ | .labelReadEnd _ _ | .planAreaReadEnd _ _ | .spillRecordReadEnd _ _ | .spillColumnReadEnd _ _
  | .restorePlaceWriteEnd _ _ | .assemblyLabelWriteEnd _ _ | .writeBackEnd _ _ | .fillReadEnd _ _
  | .spareSlotWriteEnd _ _ | .drainedOperationEnd _ => none

/-- A settled state whose volume port would accept a window access with a tag (R22, checks 1 and 2). -/
structure State.Accepts (s : State) (tag : Tag) : Prop where
  settled : s.Settled
  room    : s.busy = false
  fresh   : s.tagUsed tag = false

/-- A state that accepts a tag and whose directive slot is empty, so that a directive is taken at once (R191). -/
structure State.Ready (s : State) (tag : Tag) : Prop extends s.Accepts tag where
  current : s.win.current = none
  waiting : s.win.waiting = none

/-- The state in which a directive placed in the empty slot is taken: its request has its arrival number, and it is the
current directive (R25, R191, R192). -/
def State.holding (s : State) (d : Directive) : State :=
  { s with
    port := { s.port with nextArrival := s.port.nextArrival + 1 }
    win := { s.win with current := some d, taken := true } }

/-- The state in which a directive placed in the empty slot has been taken and finished, with nothing else changed
(R191 to R193). -/
def State.reporting (s : State) (d : Directive) (o : DirOutcome) : State :=
  { s with
    port := { s.port with nextArrival := s.port.nextArrival + 1 }
    win := { s.win with
      current := none, taken := false, waiting := none
      result := { code := d.code, seq := d.args.seq, outcome := o } } }

/-- What a directive that leaves a state leads to: whatever follows from that state, then its request's GOOD completion
(R189, R191). -/
def afterDirective (tag : Tag) (u : State) : State := settle (send tag .good none [] (settleFor (settleBound - 1) u))

/-! ## Answers of drives -/

/-- An operation in an issue slot answered at its latest sending, with the owner an end command belongs to (R126, R129). -/
def State.Awaits (s : State) (r : OpRef) (x : Issued) (o : Owner) : Prop := s.issuedAt r = some x ∧ x.op.owner = o

/-- The state in which an answered operation has left its issue slot and the grants its slot allows have been made (R128). -/
def State.freed (s : State) (x : Issued) : State :=
  grants x.op.slot (updBay x.op.slot (fun b => { b with issued := b.issued.filter (fun y => y.op.id != x.op.id) }) s)

/-- A state in which the MEDIA answer of a WRITE or FLUSH of a bay has been counted at the bay and captured as MEDIA_WRITE at a
member block, and nothing else has changed (R130, R149). -/
structure State.MediaWritten (s : State) (i : Slot) (block : Nat) (u : State) : Prop where
  counts : u.integ.counts = { s.integ.counts with
    mediaWrite := if s.integ.counts.mediaWrite < 65535 then s.integ.counts.mediaWrite + 1 else s.integ.counts.mediaWrite }
  bay    : u.bay i = { s.bay i with media := if (s.bay i).media < 65535 then (s.bay i).media + 1 else (s.bay i).media }
  others : ∀ j, j ≠ i → u.bay j = s.bay j
  record : u.integ.capture = if s.ctl.tuning.captureLatest || s.integ.capture.isNone then
      some { kind := .mediaWrite, slot := some i, block := some block, row := (s.homeOf i block).map (·.1), lba := s.lbaAt i block }
    else s.integ.capture
  rest   : u = { s with
    shelf := u.shelf, integ := { s.integ with counts := u.integ.counts, capture := u.integ.capture }
    win := { s.win with events := { s.win.events with dataError := true } } }

/-- A state in which the MEDIA answer of a READ or INQUIRE of a bay has been counted at the bay and captured as MEDIA_READ at a
member block, and nothing else has changed (R130, R149). -/
structure State.MediaRead (s : State) (i : Slot) (block : Nat) (u : State) : Prop where
  counts : u.integ.counts = { s.integ.counts with
    mediaRead := if s.integ.counts.mediaRead < 65535 then s.integ.counts.mediaRead + 1 else s.integ.counts.mediaRead }
  bay    : u.bay i = { s.bay i with media := if (s.bay i).media < 65535 then (s.bay i).media + 1 else (s.bay i).media }
  others : ∀ j, j ≠ i → u.bay j = s.bay j
  record : u.integ.capture = if s.ctl.tuning.captureLatest || s.integ.capture.isNone then
      some { kind := .mediaRead, slot := some i, block := some block, row := (s.homeOf i block).map (·.1), lba := s.lbaAt i block }
    else s.integ.capture
  rest   : u = { s with
    shelf := u.shelf, integ := { s.integ with counts := u.integ.counts, capture := u.integ.capture }
    win := { s.win with events := { s.win.events with dataError := true } } }

/-- The command an answer's end stands for does nothing where no operation of its class is issued under the reference. -/
def State.Unasked (s : State) (c : OwnerClass) (r : OpRef) : Prop := s.Settled ∧ s.awaited c r = none

/-! ## The pace arbiter -/

/-- The mover's share of the contested grants of the cycle so far, rounded up (R76, R77). -/
def Bay.Paced (pace : Nat) (b : Bay) : Prop := b.moverCount = (pace * b.contest + 15) / 16

/-! ## Events -/

/-- An event's bit (11.2). -/
def Event.index : Event → Nat
  | .memberLost => 0 | .shelfChange => 1 | .planDone => 2 | .chainEnd => 3 | .engineSuspended => 4 | .engineHalted => 5
  | .dataError => 6 | .dataLost => 7 | .remapAdded => 8 | .directiveOverwritten => 9 | .capacityChanged => 10
  | .recoveryDone => 11

end Sys2Proof.Machine
end

