-- ==== Sys2Proof/WellFormed.lean ====
section
/-! DEFINITION. What the links can carry: the checks a command meets before it can stand for something a partner sends.
The types already bound tags, bay slots, ports and record fields. A meaning does not depend on these checks: it is total. -/

namespace Sys2Proof

/-- A READ answer holds at most 8192 blocks, the largest read handed over (a spill column of R183, one staging slot). -/
def ReadAnswer.wellFormed : ReadAnswer → Bool
  | .good bs => bs.length ≤ Config.stagingBlocks
  | .media _ bs => bs.length ≤ Config.stagingBlocks

/-- The checks, command by command: a request's first block lies in R20's range, a plan page write begins in the plan
pages, a refused window write begins in +1 to +63, an unknown code lies outside 0x01 to 0x10, a link names no bay twice. -/
def Instr.wellFormed : Instr → Bool
  | .readRequest _ lba _ => lba < Config.windowBase + 128
  | .writeRequest _ lba _ => lba < Config.windowBase + 128
  | .planPageWrite _ i _ => i < 64
  | .windowWriteRefused _ i _ => 1 ≤ i && i ≤ 63
  | .unknownDirective _ c _ => c.toNat == 0 || c.toNat > 16
  | .linkUp _ bays => bays.Nodup
  | .hostReadMemberEnd _ a => a.wellFormed
  | .hostWriteMemberReadEnd _ a => a.wellFormed
  | .gatherReadEnd _ a => a.wellFormed
  | .labelReadEnd _ a => a.wellFormed
  | .planAreaReadEnd _ a => a.wellFormed
  | .spillRecordReadEnd _ a => a.wellFormed
  | .spillColumnReadEnd _ a => a.wellFormed
  | .fillReadEnd _ a => a.wellFormed
  | .inquireEnd _ (.good _ cap) => cap < 2 ^ 64
  | .inquireEnd _ .media => true
  | .powerOn | .volumeLinkReset | .flushRequest _ => true
  | .selectBay _ _ | .startChain _ _ | .holdChain _ _ | .releaseChain _ _ | .pause _ _ | .resume _ _ => true
  | .dropPlan _ _ | .stopChain _ _ | .setTuning _ _ | .clearEvents _ _ | .setAttention _ _ | .clearCapture _ _ => true
  | .failMember _ _ | .keepRemaps _ _ | .clearHalt _ _ | .restart _ _ => true
  | .bayArrival _ | .bayDeparture _ | .linkDown _ | .memberOpTimeout _ => true
  | .hostWriteMemberWriteEnd _ _ | .memberFlushEnd _ _ | .spillColumnWriteEnd _ _ | .spillRecordWriteEnd _ _ => true
  | .placeWriteEnd _ _ | .labelMemberWriteEnd _ _ | .planTableCopyEnd _ _ | .planAreaWriteEnd _ _ => true
  | .releasedLabelWriteEnd _ _ | .restorePlaceWriteEnd _ _ | .assemblyLabelWriteEnd _ _ => true
  | .writeBackEnd _ _ | .spareSlotWriteEnd _ _ | .drainedOperationEnd _ => true

end Sys2Proof
end

