-- ==== Sys2Proof/Certificates/Slice0/Obligations.lean ====
section
/-! DEFINITION. The statements for the provers (OBLIGATIONS.json gives their titles and their places in spec/). -/

section
open Sys2Proof Sys2Proof.Machine

/-! ## The machine -/

/-- A step carries out the command at the front of the queue on the state with the queue's rest.
On an empty queue a step idles (the model's choice: log entry 5). -/
def Obligations.StepRunsCommands : Prop :=
  (∀ (s : State) (c : Instr) (rest : List Instr), s.pending = c :: rest → step s = exec c { s with pending := rest })
  ∧ (∀ s : State, s.pending = [] → step s = .next s)

/-- Every command completes in every state: the queue behind it is left as it is, completions already sent stay, and the
number of the next member operation never falls.
Arrival numbers rise with each acceptance and are never set back but by power-on; an entry of the request table after a
command was there before it with the same tag and number, or took the number that was next (R25, R21). -/
def Obligations.CommandsComplete : Prop :=
  (∀ (c : Instr) (s : State), ∃ t, exec c s = .next t ∧ t.pending = s.pending ∧ s.out <+: t.out
      ∧ s.shelf.nextOp ≤ t.shelf.nextOp)
  ∧ (∀ (c : Instr) (s : State), c ≠ .powerOn → ∃ t, exec c s = .next t
      ∧ s.port.nextArrival ≤ t.port.nextArrival
      ∧ ∀ e ∈ t.port.entries, (∃ f ∈ s.port.entries, f.tag = e.tag ∧ f.arrival = e.arrival)
          ∨ (e.arrival = s.port.nextArrival ∧ s.port.nextArrival < t.port.nextArrival))

/-- Every step keeps the tuning values in their ranges, the request table within 128 entries of different tags and
arrival numbers, all given before, the row lock table within 160 entries, and the overwrite count at 65535 or below
(R196, R21, R22, R25, R27, R191). -/
def Obligations.StepKeepsSound : Prop := ∀ s t : State, s.Sound → step s = .next t → t.Sound

/-- Every step keeps the fault latch set exactly in SUSPENDED and HALTED, every bay's counters at 65535 or below with at
most 16 issued operations and its arbiter counts within the cycle, and the six capture counts at 65535 or below
(R163, R120, R128, R77, R148). -/
def Obligations.StepKeepsFit : Prop := ∀ s t : State, s.Fit → step s = .next t → t.Fit

/-- A command that carries no directive and is neither power-on nor a volume link reset leaves the directive slot, the
result record, the overwrite count, the mask, the selector and the tuning values as they are when no directive is current,
and clears no event flag (R193, R195 to R199). -/
def Obligations.WindowUnitKept : Prop :=
  ∀ (c : Instr) (s : State), c.wellFormed = true → carried c = none → c ≠ .powerOn → c ≠ .volumeLinkReset →
    (∀ tag b, c ≠ .writeRequest tag (2 ^ 40) [b]) → s.win.current = none →
    ∃ t, exec c s = .next t ∧ t.win = { s.win with events := t.win.events } ∧ t.ctl.tuning = s.ctl.tuning
      ∧ ∀ e, s.win.events.has e = true → t.win.events.has e = true

/-! ## Power and resets -/

/-- POWER_ON puts every block at its power-on values whatever the state; the queue of commands, the record of completions
and the operation number, which are the model's own, go on (log entry 1).
The power-on values: tuning defaults, an empty slot with result code 0, sequence 0 and DONE, overwrite
count 0, no flag, a full mask, selector 0, the engine IDLE with nothing pending and cause NONE, start cause POWER, the
volume ASSEMBLING, 64 EMPTY plan records, no layout, capacity 0, arrival number 0, empty tables, every bay absent and ABSENT
with its arbiter counts 0, an empty capture record with counts 0, and the mark unit at rest
(R157, R196, R202, R96, R25, R21, R27, R77, R148, R78). The spec gives them but for four the model chose: the table is EMPTY
before assembly has loaded it (log entry 34; R96 says so where no volume is found), and until then the capacity is 0 (log
entry 50; R110 likewise) and Fm and G are 0 (log entry 49; R78 likewise).
The machine after power-on meets both invariants. -/
def Obligations.ResetState : Prop :=
  (∀ s : State, exec .powerOn s = .next
      { State.reset with
        pending := s.pending, out := s.out, shelf := { State.reset.shelf with nextOp := s.shelf.nextOp } })
  ∧ (let s := State.reset
    s.ctl.tuning =
        { stepRows := 8, pace := 4, markInterval := 16, stainLimit := 3, captureLatest := false, degradedContinue := false,
          linkResetRestart := false }
    ∧ s.win =
        { current := none, taken := false, waiting := none, result := { code := 0#8, seq := 0#16, outcome := .done },
          overwrites := 0, events := s.win.events, mask := 0xFFF#12, selector := 0 }
    ∧ (∀ e, s.win.events.has e = false)
    ∧ s.ctl.state = .idle ∧ s.ctl.pauseRequest = false ∧ s.ctl.faultPending = false ∧ s.ctl.latch = false
    ∧ s.ctl.cause = .none ∧ s.ctl.startCause = .power ∧ s.ctl.volume = .assembling
    ∧ s.plan.table.length = 64 ∧ (∀ r ∈ s.plan.table, r = State.resetRecord) ∧ s.plan.layouts = [] ∧ s.plan.capacity = 0
    ∧ s.port = { entries := [], nextArrival := 0 } ∧ s.locks = { entries := [], queued := [] } ∧ s.holds = []
    ∧ (∀ i, (s.bay i).present = false ∧ (s.bay i).readiness = .absent ∧ (s.bay i).contest = 0 ∧ (s.bay i).moverCount = 0)
    ∧ s.integ.capture = none ∧ s.integ.counts.toList = [0, 0, 0, 0, 0, 0]
    ∧ s.mark.front = 0 ∧ s.mark.generation = 0 ∧ s.mark.flight = none ∧ s.mark.causes = [] ∧ s.mark.unmarked = 0
    ∧ s.mark.bar = none ∧ s.mark.spill = .none)
  ∧ (State.reset.Sound ∧ State.reset.Fit ∧ State.reset.out = [])

/-- A volume link reset ends every outstanding request without a completion: before what follows, the entries left are those
of issued requests, all DRAINING, with their tags and arrival numbers, and no completion has been sent; the engine and the
current directive go on when link-reset-restart is off. The requests that are dropped and the READs that drain leave the row
lock table and the places of those queued for it; every other number in it stays, a drained WRITE's and a settle step's among
them. The dropped requests leave the hold queue, which is empty then, holding none but held requests; a dropped page write
leaves the queue of record writes and of those that wait for assembly; the repair candidates of the drained READs are struck.
Nothing else changes before what follows (R43, R44, R144, R202, R172).
A volume link reset with link-reset-restart off and no request outstanding discards a pending directive, without a
result and without counting it, and changes nothing else (R202, R172, R43). -/
def Obligations.LinkResetDrains : Prop :=
  (∀ s : State, s.Sound → s.ctl.tuning.linkResetRestart = false → ∃ u, exec .volumeLinkReset s = .next (settle u)
      ∧ u.out = s.out ∧ (∀ e ∈ u.port.entries, e.state = .draining)
      ∧ (∀ e ∈ u.port.entries, ∃ f ∈ s.port.entries, s.isIssued f = true ∧ f.tag = e.tag ∧ f.arrival = e.arrival)
      ∧ (∀ f ∈ s.port.entries, s.isIssued f = true → ∃ e ∈ u.port.entries, e.tag = f.tag ∧ e.arrival = f.arrival)
      ∧ u.port.nextArrival = s.port.nextArrival
      ∧ (let dropped : Nat → Bool := fun a => s.port.entries.any (fun f => f.arrival == a && !s.isIssued f)
        let gone : Nat → Bool := fun a => s.port.entries.any (fun f => f.arrival == a && (!s.isIssued f || f.kind == .read))
        let left : LockEntry → LockEntry := fun e =>
          { e with
            holder := if e.holder.any gone then none else e.holder
            readers := e.readers.filter (fun a => !gone a), waiters := e.waiters.filter (fun w => !gone w.arrival) }
        (∀ e ∈ u.locks.entries, ∃ f ∈ s.locks.entries, e = left f)
        ∧ (∀ f ∈ s.locks.entries, (left f).used = true → left f ∈ u.locks.entries)
        ∧ u.locks.queued = s.locks.queued.filter (fun q => !gone q.arrival)
        ∧ u.holds = s.holds.filter (fun h => !dropped h.arrival)
        ∧ ((∀ h ∈ s.holds, ∃ f ∈ s.port.entries, f.arrival = h.arrival ∧ f.state = .held) → u.holds = [])
        ∧ u.plan.areaWrites = s.plan.areaWrites.filter (fun w => match w.source with | .page a => !dropped a | _ => true)
        ∧ u.asm.pages = s.asm.pages.filter (fun a => !dropped a)
        ∧ u.integ.candidates = s.integ.candidates.filter (fun c =>
            !s.port.entries.any (fun f => s.isIssued f && f.kind == .read && c.reader.ofRequest f.arrival)))
      ∧ u = { s with
          port := u.port, locks := u.locks, holds := u.holds, integ := { s.integ with candidates := u.integ.candidates }
          plan := { s.plan with areaWrites := u.plan.areaWrites }, asm := { s.asm with pages := u.asm.pages }
          win := { s.win with waiting := none } })
  ∧ (∀ s : State, s.Settled → s.port.entries = [] → s.ctl.tuning.linkResetRestart = false →
      exec .volumeLinkReset s = .next { s with win := { s.win with waiting := none } })

/-- A volume link reset with link-reset-restart on sends no completion, empties the slot and clears the flags, keeps result
record, overwrite count, mask and selector, and begins assembly with start cause LINK (R172, R202, R171). That the plan unit then
stands with an EMPTY table, identity 0 and no plan is log entries 34 and 2, and the mark unit's front and generation 0 log
entry 49; the spec gives those values only where no volume is found. -/
def Obligations.LinkResetTakenAsRestart : Prop :=
  ∀ s : State, s.ctl.tuning.linkResetRestart = true → ∃ u, exec .volumeLinkReset s = .next (settle u)
    ∧ u.out = s.out ∧ (∀ e ∈ u.port.entries, e.state = .draining)
    ∧ u.win = { s.win with current := none, taken := false, waiting := none, events := State.resetEvents }
    ∧ u.ctl.state = .idle ∧ u.ctl.volume = .assembling ∧ u.ctl.startCause = .link ∧ u.ctl.latch = false
    ∧ u.ctl.tuning = s.ctl.tuning ∧ u.plan = State.resetPlan ∧ u.mark = State.resetMark ∧ u.asm.stage = .scan
    ∧ ∀ i, i ∈ u.asm.scanSet ↔ (s.bay i).present = true

/-! ## Requests and the window -/

/-- A READ is refused in the order of the checks: BUSY, INVALID_FIELD, OUT_OF_RANGE, NOT_READY, each with nothing changed
but the completion (R22).
A WRITE is refused in the order of the checks: BUSY, INVALID_FIELD, OUT_OF_RANGE, BAD_TAG at the lowest failing block
with its capture as HOST_TAG, NOT_READY (R22, R141, R149).
A FLUSH skips the range check: it is refused BUSY, INVALID_FIELD for a used tag, or NOT_READY (R22). -/
def Obligations.RequestsRefused : Prop :=
  (∀ (s : State) (tag : Tag) (lba count : Nat), s.Settled →
      (s.busy = true → exec (.readRequest tag lba count) s = .next (send tag .busy none [] s))
      ∧ (s.busy = false → (s.tagUsed tag = true ∨ count = 0 ∨ 256 < count) →
        exec (.readRequest tag lba count) s = .next (send tag .invalidField none [] s))
      ∧ (s.busy = false → s.tagUsed tag = false → 1 ≤ count → count ≤ 256 →
        (s.plan.capacity < lba + count → ¬(2 ^ 40 ≤ lba ∧ lba + count ≤ 2 ^ 40 + 128) →
          exec (.readRequest tag lba count) s = .next (send tag .outOfRange none [] s))
        ∧ (lba + count ≤ s.plan.capacity → s.ctl.volume ≠ .online → s.ctl.volume ≠ .degraded →
          exec (.readRequest tag lba count) s = .next (send tag .notReady none [] s))))
  ∧ (∀ (s : State) (tag : Tag) (lba : Nat) (bs : List Block), s.Settled →
      (s.busy = true → exec (.writeRequest tag lba bs) s = .next (send tag .busy none [] s))
      ∧ (s.busy = false → (s.tagUsed tag = true ∨ bs.length = 0 ∨ 256 < bs.length ∨ (lba = 2 ^ 40 ∧ 1 < bs.length)) →
        exec (.writeRequest tag lba bs) s = .next (send tag .invalidField none [] s))
      ∧ (s.busy = false → s.tagUsed tag = false → 1 ≤ bs.length → bs.length ≤ 256 → ¬(lba = 2 ^ 40 ∧ 1 < bs.length) →
        (s.plan.capacity < lba + bs.length → ¬(2 ^ 40 ≤ lba ∧ lba + bs.length ≤ 2 ^ 40 + 128) →
          exec (.writeRequest tag lba bs) s = .next (send tag .outOfRange none [] s))
        ∧ ((lba + bs.length ≤ s.plan.capacity ∨ (2 ^ 40 ≤ lba ∧ lba + bs.length ≤ 2 ^ 40 + 128)) →
          (∀ (j : Nat) (h : j < bs.length), hostBlockGood (lba + j) bs[j] = false →
              (∀ (k : Nat) (hk : k < j), hostBlockGood (lba + k) bs[k] = true) →
            exec (.writeRequest tag lba bs) s = .next (send tag .badTag none []
              (takeCapture { kind := .hostTag, slot := none, block := none, row := none, lba := some (lba + j) } s)))
          ∧ ((∀ (j : Nat) (h : j < bs.length), hostBlockGood (lba + j) bs[j] = true) → lba + bs.length ≤ s.plan.capacity →
              s.ctl.volume ≠ .online → s.ctl.volume ≠ .degraded →
            exec (.writeRequest tag lba bs) s = .next (send tag .notReady none [] s)))))
  ∧ (∀ (s : State) (tag : Tag), s.Settled →
      (s.busy = true → exec (.flushRequest tag) s = .next (send tag .busy none [] s))
      ∧ (s.busy = false → s.tagUsed tag = true → exec (.flushRequest tag) s = .next (send tag .invalidField none [] s))
      ∧ (s.busy = false → s.tagUsed tag = false → s.ctl.volume ≠ .online → s.ctl.volume ≠ .degraded →
        exec (.flushRequest tag) s = .next (send tag .notReady none [] s)))

/-- A READ of the window returns its blocks in order, built from this state, with status GOOD, and changes nothing but the
arrival number and the completion (R190, R23, R25).
What the window blocks show: the result record, the overwrite count, the engine state, the event flags, the mask and the
marker, the capture counts, the selected bay's counters, and the volume state (R193, R200, R201). -/
def Obligations.WindowReads : Prop :=
  (∀ (s : State) (tag : Tag) (lba count : Nat), s.Accepts tag → 1 ≤ count → count ≤ 256 → s.plan.capacity ≤ 2 ^ 40 →
      2 ^ 40 ≤ lba → lba + count ≤ 2 ^ 40 + 128 →
      exec (.readRequest tag lba count) s = .next (send tag .good none
          ((List.range count).map (fun j => s.windowBlock (lba - 2 ^ 40 + j)))
          { s with port := { s.port with nextArrival := s.port.nextArrival + 1 } })
      ∧ ∀ i, (s.windowBlock i).guard = guardOf (s.windowBlock i).data ∧ (s.windowBlock i).ref = BitVec.ofNat 32 i
          ∧ (s.windowBlock i).app = 0#16 ∧ (7 ≤ i → i < 64 → (s.windowBlock i).data = zeroData))
  ∧ (∀ s : State, s.Sound → s.Fit →
      fieldAt s.resultPage 0 1 = s.win.result.code.toNat
      ∧ fieldAt s.resultPage 1 1 = dirOutcomeCode s.win.result.outcome
      ∧ fieldAt s.resultPage 2 2 = s.win.result.seq.toNat
      ∧ fieldAt s.resultPage 12 2 = s.win.overwrites
      ∧ fieldAt s.resultPage 16 1 = s.ctl.tuning.stepRows
      ∧ fieldAt s.enginePage 0 1 = engineCode s.ctl.state
      ∧ fieldAt s.enginePage 4 1 = (if s.ctl.latch then 1 else 0)
      ∧ fieldAt s.eventsPage 0 2 = s.win.events.bits.toNat
      ∧ fieldAt s.eventsPage 2 2 = s.win.mask.toNat
      ∧ fieldAt s.eventsPage 4 1 = (if marker s then 1 else 0)
      ∧ fieldAt s.capturePage 32 2 = s.integ.counts.hostTag
      ∧ fieldAt s.capturePage 42 2 = s.integ.counts.poisonWritten
      ∧ fieldAt s.memberPage 0 1 = s.win.selector.val
      ∧ fieldAt s.memberPage 4 1 = roleCode (s.bay s.win.selector).role
      ∧ fieldAt s.memberPage 40 2 = (s.bay s.win.selector).media
      ∧ fieldAt s.memberPage 42 2 = (s.bay s.win.selector).tagErrors
      ∧ fieldAt s.memberPage 44 2 = (s.bay s.win.selector).timeouts
      ∧ fieldAt s.volumePage 0 1 = volumeCode s.ctl.volume)

/-- An accepted volume request takes its place in the table with the next arrival number and goes to the hold question and
the row locks, a FLUSH to its procedure; what follows is settled (R22, R25, R26, R40). -/
def Obligations.VolumeRequestsEnter : Prop :=
  ∀ (s : State) (tag : Tag), s.Accepts tag → (s.ctl.volume = .online ∨ s.ctl.volume = .degraded) →
    (∀ lba count, 1 ≤ count → count ≤ 256 → lba + count ≤ s.plan.capacity →
      exec (.readRequest tag lba count) s = .next (settle (enterPath s.port.nextArrival
        { s with port :=
          { entries := s.port.entries ++
              [{ tag := tag, kind := .read, lba := lba, count := count, blocks := [], arrival := s.port.nextArrival,
                 state := .locking, keys := [], reads := [], rows := [], flushes := none, lossTold := false }]
            nextArrival := s.port.nextArrival + 1 } })))
    ∧ (∀ (lba : Nat) (bs : List Block), 1 ≤ bs.length → bs.length ≤ 256 → lba + bs.length ≤ s.plan.capacity →
        lba < 2 ^ 40 → (∀ (j : Nat) (h : j < bs.length), hostBlockGood (lba + j) bs[j] = true) →
      exec (.writeRequest tag lba bs) s = .next (settle (enterPath s.port.nextArrival
        { s with port :=
          { entries := s.port.entries ++
              [{ tag := tag, kind := .write, lba := lba, count := bs.length, blocks := bs, arrival := s.port.nextArrival,
                 state := .locking, keys := [], reads := [], rows := [], flushes := none, lossTold := false }]
            nextArrival := s.port.nextArrival + 1 } })))
    ∧ exec (.flushRequest tag) s = .next (settle
        { s with port :=
          { entries := s.port.entries ++
              [{ tag := tag, kind := .flush, lba := 0, count := 0, blocks := [], arrival := s.port.nextArrival,
                 state := .flushing, keys := [], reads := [], rows := [], flushes := none, lossTold := false }]
            nextArrival := s.port.nextArrival + 1 } })

/-- The hold question of a request of one block or more. A step holds it when it has a block in the step and the step is in
PLACE or MARK, or, of a write, in FREEZE or SPILL or a pinned GATHER; of two steps the one of the lower front. A write that no
step holds is held for the mark when it has a block in the unmarked band. A held request stands in the hold queue in ascending
arrival number, holds no row, and raises BAND when it is a write with a block in the band; any other takes its keys and joins
the row lock table, or queues for it while they do not fit. Nothing else changes. A release takes the entries of its reasons
out in the order of the queue; each is asked afresh, or completes NOT_READY with the volume OFFLINE (R26, R27, R64, R65, R66,
R90). -/
def Obligations.HoldQuestion : Prop :=
  (∀ (s : State) (a : Nat) (e : Entry), s.req a = some e → 1 ≤ e.count →
    let u := enterPath a s
    let holds (t : Step) : Prop :=
      ((t.kind = .migrate ∧ t.first < e.lba + e.count ∧ e.lba < t.stop)
        ∨ (t.kind = .rebuild ∧ ∃ p ∈ s.places e.lba e.count, t.front ≤ p.2.1.row ∧ p.2.1.row < t.front + t.rows))
      ∧ (t.stage = .place ∨ t.stage = .mark
        ∨ (e.kind = .write ∧ (t.stage = .freeze ∨ t.stage = .spill ∨ (t.stage = .gather ∧ t.pinned = true))))
    let banded : Prop := e.kind = .write ∧ ∃ o n b, s.growing = some (o, n) ∧ e.lba ≤ b ∧ b < e.lba + e.count
      ∧ s.mark.front * n.rowBlocks ≤ b ∧ b < s.mover.front * n.rowBlocks ∧ b < o.capacity
    let held (r : HoldReason) : Prop :=
      (∃ before after, s.holds = before ++ after
        ∧ u.holds = before ++ [{ tag := e.tag, arrival := a, reason := r }] ++ after
        ∧ (∀ x ∈ before, x.arrival ≤ a) ∧ (∀ x, after.head? = some x → a < x.arrival))
      ∧ u = { s with
          holds := u.holds
          port := { s.port with
            entries := s.port.entries.map (fun x => if x.arrival = a then { x with state := .held } else x) }
          mark := { s.mark with causes := u.mark.causes } }
      ∧ (banded → ∃ c ∈ u.mark.causes, c.kind = .band ∧ c.served = false)
      ∧ (∀ c ∈ u.mark.causes, c.kind ≠ .band → c ∈ s.mark.causes) ∧ (∀ c ∈ s.mark.causes, c.kind ≠ .band → c ∈ u.mark.causes)
      ∧ (¬banded → u.mark.causes = s.mark.causes)
    (∀ g t, s.stepIn g = some t → holds t → (∀ k v, s.stepIn k = some v → holds v → t.front ≤ v.front) →
      held (.step t.front))
    ∧ ((∀ g t, s.stepIn g = some t → ¬holds t) →
      (banded → held .mark)
      ∧ (¬banded → u.holds = s.holds ∧ u.mark = s.mark ∧ u.todo = s.todo ∧ u.out = s.out
        ∧ ∃ e', u.req a = some e' ∧ e'.keys = s.keysFor e.lba e.count
          ∧ ((s.locks.entries.length + (s.newKeys e'.keys).length ≤ 160 ∧ ∀ q ∈ s.locks.queued, a < q.arrival) →
            e'.state = .locking ∧ u.locks.queued = s.locks.queued)
          ∧ (¬(s.locks.entries.length + (s.newKeys e'.keys).length ≤ 160 ∧ ∀ q ∈ s.locks.queued, a < q.arrival) →
            e'.state = .queued ∧ u.locks.entries = s.locks.entries
            ∧ ∃ before after, s.locks.queued = before ++ after ∧ (∀ q ∈ before, q.arrival ≤ a)
              ∧ u.locks.queued = before ++ [{ arrival := a, write := e.kind == .write, keys := e'.keys }] ++ after))))
  ∧ (∀ (s : State) (p : HoldReason → Bool),
      releaseHolds p s = { s with
        holds := s.holds.filter (fun h => !p h.reason)
        todo := s.todo ++ (s.holds.filter (fun h => p h.reason)).map (fun h => Ev.release h.arrival) })
  ∧ (∀ (s : State) (a : Nat) (e : Entry), s.req a = some e →
      (e.state = .held → s.ctl.volume = .offline → takeEv (.release a) s = complete e .notReady none [] s)
      ∧ (e.state = .held → s.ctl.volume ≠ .offline → takeEv (.release a) s = enterPath a s)
      ∧ (e.state ≠ .held → takeEv (.release a) s = s))

/-- The path of a row of a WRITE is the first of: parity missing; full row; some written position missing (reconstruct-write);
read-modify-write. The parity-missing and full-row paths read nothing; reconstruct-write reads every position that is not
missing, and read-modify-write the written blocks and the parity, each at the offsets the row's new blocks are at (R35, R36).
The parity a row writes at an offset is the XOR of the row's data blocks at it as they stand after the write, whichever path
made it from what it read: with every wanted block there in hand, on read-modify-write from the old parity and the old and
new blocks of the written places, on reconstruct-write with at most one position unread. It carries a fresh guard, the parity
reference and the XOR of the application fields. Where a second block is not to be had, that XOR is taken with zero for each
data block neither read nor written, and exactly those become poison (R36, R37, R143, R147). -/
def Obligations.WritePaths : Prop :=
  (∀ (s : State) (l : Layout) (row : Nat) (news : List (Cell × Block)),
      let lost (p : Nat) : Prop := s.missingInRow l row p = true
      let reads := s.pathReads l row news (s.pathOf l row news)
      (lost (l.parity row) → s.pathOf l row news = .parityMissing ∧ reads = [])
      ∧ (¬lost (l.parity row) →
        (news.length = l.rowBlocks → s.pathOf l row news = .fullRow ∧ reads = [])
        ∧ (news.length ≠ l.rowBlocks → (∃ n ∈ news, lost n.1.pos) →
          s.pathOf l row news = .reconstructWrite
          ∧ ∀ c, c ∈ reads ↔ c.row = row ∧ c.pos < l.n ∧ ¬lost c.pos ∧ ∃ n ∈ news, n.1.off = c.off)
        ∧ (news.length ≠ l.rowBlocks → (∀ n ∈ news, ¬lost n.1.pos) →
          s.pathOf l row news = .readModifyWrite
          ∧ ∀ c, c ∈ reads ↔ (∃ n ∈ news, n.1 = c) ∨ (c.row = row ∧ c.pos = l.parity row ∧ ∃ n ∈ news, n.1.off = c.off))))
  ∧ (∀ (w : RowWork) (off : Nat) (old : Nat → Data × BitVec 16),
      let l := w.layout
      let cell (p : Nat) : Cell := { row := w.row, pos := p, off := off }
      let ds := l.dataPositions w.row
      let after (p : Nat) : Data × BitVec 16 := match w.new (cell p) with | some b => (b.data, b.app) | none => old p
      (w.news.map (·.1)).Nodup → (∀ n ∈ w.news, n.1.row = w.row ∧ n.1.pos ∈ ds) → (∃ n ∈ w.news, n.1.off = off) →
      w.path ≠ .parityMissing →
      (w.whole off = true →
        (∀ p ∈ ds, ∀ x, w.old (cell p) = some x → x = old p) →
        (∀ x, w.old (cell (l.parity w.row)) = some x → x = xorAll (ds.map old)) →
        (w.path = .fullRow → ∀ p ∈ ds, (w.new (cell p)).isSome = true) →
        (w.path = .readModifyWrite → (w.old (cell (l.parity w.row))).isSome = true
          ∧ ∀ p ∈ ds, (w.new (cell p)).isSome = true → (w.old (cell p)).isSome = true) →
        (w.path = .reconstructWrite → ∃ q, ∀ p, (p ∈ ds ∨ p = l.parity w.row) → p ≠ q → (w.old (cell p)).isSome = true) →
        xorAll (w.paritySources off) = xorAll (ds.map after) ∧ ∀ p, cell p ∉ w.poisons)
      ∧ (w.whole off = false →
        (∀ p ∈ ds, w.old (cell p) = none ∨ w.old (cell p) = some (old p)) →
        xorAll (w.paritySources off) = xorAll (ds.map (fun p =>
          if (w.new (cell p)).isNone && (w.old (cell p)).isNone then (zeroData, 0#16) else after p))
        ∧ ∀ p, cell p ∈ w.poisons ↔ p ∈ ds ∧ w.new (cell p) = none ∧ w.old (cell p) = none)
      ∧ (cell (l.parity w.row), parityBlock (w.paritySources off)) ∈ w.writes
      ∧ (∀ n ∈ w.news, n ∈ w.writes) ∧ (∀ c ∈ w.poisons, (c, poisonBlock) ∈ w.writes))

/-- A block that is bad or at a missing position, of a row whose other places are known: it is rebuilt as the XOR of the others,
which is its own content whenever the row's parity matches, with the tag of the place; it needs reads while some other place
has not been asked for, and it is lost when none is to come and one is not to be had (R33, R143). -/
def Obligations.RebuildVerdict : Prop :=
  ∀ (s : State) (f : Fetch) (c : Cell) (src : Nat → Data × BitVec 16), c.pos < f.layout.n →
    let at_ (p : Nat) : Cell := { c with pos := p }
    let has (p : Nat) (k : Known) : Prop := p < f.layout.n ∧ p ≠ c.pos ∧ Fetch.knows s f (at_ p) = k
    ((∃ p, has p .absent) →
      ∃ cs, Fetch.verdict s f c = .needs cs ∧ ∀ d, d ∈ cs ↔ ∃ p, d = at_ p ∧ has p .absent)
    ∧ ((∀ p, ¬has p .absent) → (∃ p, has p .waits) → Fetch.verdict s f c = .waits)
    ∧ ((∀ p, ¬has p .absent) → (∀ p, ¬has p .waits) → (∃ p, has p .fails) → Fetch.verdict s f c = .lost)
    ∧ ((∀ p, p < f.layout.n → p ≠ c.pos → ∃ poison b, Fetch.knows s f (at_ p) = .known poison b
          ∧ src p = if poison then (zeroData, 0#16) else (b.data, b.app)) →
        xorAll ((List.range f.layout.n).map src) = (zeroData, 0#16) →
      ∃ b, Fetch.verdict s f c = .rebuilt b ∧ b.data = (src c.pos).1 ∧ b.app = (src c.pos).2 ∧ b.guard = guardOf b.data
        ∧ b.ref = (match f.layout.lbaOf c with | some a => BitVec.ofNat 32 a | none => 0xFFFFFFFF#32))

/-- A request whose member operations have brought what they can. A READ with a block still to come completes nothing. When
every block is known it completes NOT_READY if a block was lost with the volume OFFLINE, else MEDIUM naming its lowest lost or
poison block, else GOOD with its blocks in order. The rows of a WRITE whose writes have ended give up their keys, and finish
once no label write is still to record the loss of one of their missing positions; a row that finishes with the volume OFFLINE
makes the request NOT_READY, and it completes when the last row has finished. A completion takes the entry, its keys, its
places in the lock table and its repair candidates with it (R24, R29, R34, R38, R144). -/
def Obligations.RequestEnds : Prop :=
  ∀ (s : State) (e : Entry), s.req e.arrival = some e → e.state = .issued →
    let a := e.arrival
    let u := advanceRequest a s
    let ended (st : Status) (failing : Option Nat) (data : List Block) : Prop :=
      u.out = s.out ++ [{ tag := e.tag, status := st, failing := failing, marker := marker s, data := data }]
      ∧ u.req a = none
      ∧ (∀ l ∈ u.locks.entries, l.holder ≠ some a ∧ a ∉ l.readers ∧ ∀ w ∈ l.waiters, w.arrival ≠ a)
      ∧ (∀ k ∈ u.integ.candidates, ∀ i, k.reader ≠ .part a i ∧ k.reader ≠ .row a i)
      ∧ u = { s with port := u.port, locks := u.locks, integ := { s.integ with candidates := u.integ.candidates }, out := u.out }
    (e.kind = .read → (∀ f ∈ e.reads, ∀ c ∈ f.wanted, f.at c ≠ some .bad) →
        (∀ k ∈ s.integ.candidates, ∀ i, k.reader ≠ .part a i) →
      let known (f : Fetch) : Prop :=
        (∀ x ∈ f.cells, ∀ id, x.2 ≠ .waiting id) ∧ ∀ c ∈ f.wanted, ∃ v, f.at c = some v ∧ ∀ id, v ≠ .waiting id
      let failing (b : Nat) : Prop := ∃ f ∈ e.reads, ∃ c ∈ f.wanted, f.layout.lbaOf c = some b
        ∧ ((∃ x, f.at c = some (.poison x)) ∨ f.at c = some (.lost false))
      ((∃ f ∈ e.reads, ¬known f) → u.out = s.out ∧ ∃ v, u.req a = some v ∧ v.state = .issued ∧ v.reads = e.reads)
      ∧ ((∀ f ∈ e.reads, known f) →
        ((∃ f ∈ e.reads, ∃ c ∈ f.wanted, f.at c = some (.lost true)) → ended .notReady none [])
        ∧ ((∀ f ∈ e.reads, ∀ c ∈ f.wanted, f.at c ≠ some (.lost true)) →
          (∀ b, failing b → (∀ c, failing c → b ≤ c) → ended .medium (some b) [])
          ∧ ((∀ b, ¬failing b) → (∀ f ∈ e.reads, ∀ c ∈ f.wanted, ∃ b, f.layout.lbaOf c = some b) →
            ∃ data, ended .good none data
              ∧ List.Forall₂ (fun (x : Fetch × Cell) b => x.1.at x.2 = some (.got b) ∨ x.1.at x.2 = some (.rebuilt b))
                  (e.reads.flatMap (fun f => f.wanted.map (fun c => (f, c)))) data))))
    ∧ (e.kind = .write → (∀ w ∈ e.rows, w.stage ≠ .reading) →
      let ran (w : RowWork) : Prop := w.stage = .ended ∨ (w.stage = .writing ∧ w.outstanding = 0)
      let waits (w : RowWork) : Prop :=
        ∃ p i, p < w.layout.n ∧ s.bayAt w.layout w.row p = some i ∧ s.roleMissing i = true ∧ ∃ x ∈ s.mark.losses, x.1 = i
      ((∃ w ∈ e.rows, (∀ o, w.stage ≠ .finished o) ∧ (ran w → waits w)) →
        u.out = s.out ∧ ∃ v, u.req a = some v ∧ v.state = .issued
          ∧ List.Forall₂ (fun w x => (¬ran w → x = w) ∧ (ran w → waits w → x = { w with stage := .ended })
              ∧ (ran w → ¬waits w → x = { w with stage := .finished (s.ctl.volume == .offline) })) e.rows v.rows
          ∧ ∀ w ∈ e.rows, w.stage = .writing → w.outstanding = 0 →
              ∀ l ∈ u.locks.entries, l.key = { layout := w.layout.id, row := w.row } → l.holder ≠ some a)
      ∧ ((∀ w ∈ e.rows, (∃ o, w.stage = .finished o) ∨ (ran w ∧ ¬waits w)) →
        (((∃ w ∈ e.rows, w.stage = .finished true) ∨ (s.ctl.volume = .offline ∧ ∃ w ∈ e.rows, ran w)) → ended .notReady none [])
        ∧ (¬((∃ w ∈ e.rows, w.stage = .finished true) ∨ (s.ctl.volume = .offline ∧ ∃ w ∈ e.rows, ran w)) → ended .good none [])))

/-- The one-block WRITE to window block +0 is the directive command whose code its record carries (R189, R191, R194).
A WRITE that begins in window blocks +1 to +63, with good tags and inside the window, is refused INVALID_FIELD; it takes
an arrival number and changes nothing else. A WRITE that begins there, or in the plan pages, is this command, or that of a
plan page write (R189, R23, R25). -/
def Obligations.WindowWriteByPlace : Prop :=
  (∀ (s : State) (tag : Tag) (b : Block) (c : Instr), carried c = some (tag, directiveOf b.data) →
      hostBlockGood (2 ^ 40) b = true → s.plan.capacity ≤ 2 ^ 40 → exec (.writeRequest tag (2 ^ 40) [b]) s = exec c s)
  ∧ (∀ (s : State) (tag : Tag) (first : Nat) (bs : List Block), s.Accepts tag → 1 ≤ first → first ≤ 63 →
      1 ≤ bs.length → first + bs.length ≤ 128 → s.plan.capacity ≤ 2 ^ 40 →
      (∀ (j : Nat) (h : j < bs.length), hostBlockGood (2 ^ 40 + first + j) bs[j] = true) →
      exec (.windowWriteRefused tag first bs) s = .next (send tag .invalidField none []
          { s with port := { s.port with nextArrival := s.port.nextArrival + 1 } })
      ∧ exec (.writeRequest tag (2 ^ 40 + first) bs) s = exec (.windowWriteRefused tag first bs) s
      ∧ ∀ page, exec (.writeRequest tag (2 ^ 40 + 64 + page) bs) s = exec (.planPageWrite tag page bs) s)

/-- A plan page write with good tags: in assembly it waits in the table for its end; else it is refused INVALID_FIELD when it
names the active plan's record, taken into the table at once and completed GOOD when no layout is in force, each record with
its residue cleared, and otherwise its record writes wait their turns. Nothing else changes before what follows, but that a
completed one leaves the row lock table and the repair candidates (R97, R98, R173). -/
def Obligations.PlanPageWriteTaken : Prop :=
  ∀ (s : State) (tag : Tag) (first : Nat) (bs : List Block), s.Accepts tag → s.Sound → 1 ≤ bs.length →
    first + bs.length ≤ 64 → s.plan.capacity ≤ 2 ^ 40 →
    (∀ (j : Nat) (h : j < bs.length), hostBlockGood (2 ^ 40 + 64 + first + j) bs[j] = true) →
    let a := s.port.nextArrival
    let e : Entry :=
      { tag := tag, kind := .page, lba := 2 ^ 40 + 64 + first, count := bs.length, blocks := bs, arrival := a, state := .window,
        keys := [], reads := [], rows := [], flushes := none, lossTold := false }
    let passed (st : Status) : State :=
      { s with
        out := s.out ++ [{ tag := tag, status := st, failing := none, marker := marker s, data := [] }]
        port := { s.port with nextArrival := a + 1 }
        locks := (leaveLocks a s).locks
        integ := { s.integ with candidates := s.integ.candidates.filter (fun c => !c.reader.ofRequest a) } }
    let waits : State := { s with port := { entries := s.port.entries ++ [e], nextArrival := a + 1 } }
    (s.ctl.volume = .assembling →
      exec (.planPageWrite tag first bs) s = .next (settle { waits with asm := { s.asm with pages := s.asm.pages ++ [a] } }))
    ∧ (s.ctl.volume ≠ .assembling → (∃ j, j < bs.length ∧ s.plan.active = some (first + j)) →
      exec (.planPageWrite tag first bs) s = .next (settle (passed .invalidField)))
    ∧ (s.ctl.volume ≠ .assembling → (∀ j, j < bs.length → s.plan.active ≠ some (first + j)) →
      (s.plan.layouts = [] →
        ∃ table, exec (.planPageWrite tag first bs) s
            = .next (settle { passed .good with plan := { s.plan with table := table } })
          ∧ table.length = s.plan.table.length
          ∧ (∀ k, k < first ∨ first + bs.length ≤ k → table[k]? = s.plan.table[k]?)
          ∧ (∀ (j : Nat) (h : j < bs.length), first + j < s.plan.table.length →
              table[first + j]? = some (pageRecordOf bs[j].data)))
      ∧ (s.plan.layouts ≠ [] →
        exec (.planPageWrite tag first bs) s = .next (settle
          { waits with plan := { s.plan with areaWrites := s.plan.areaWrites ++ (List.range bs.length).map (fun j =>
            { index := first + j, source := .page a,
              content := some (pageRecordOf (bs.getD j { data := zeroData, guard := 0#16, ref := 0#32, app := 0#16 }).data),
              begun := false, left := 0 }) } })))

/-! ## Directives -/

/-- A directive that arrives when the slot holds a current directive (a KEEP-REMAPS that waits) becomes pending, or
replaces the pending one with the overwrite count raised and DIRECTIVE_OVERWRITTEN set; the write completes GOOD with the
marker as it stands then (R191, R41). -/
def Obligations.DirectivePlacedBehindCurrent : Prop :=
  ∀ (c : Instr) (s : State) (tag : Tag) (d cur : Directive), carried c = some (tag, d) → s.Accepts tag →
    s.win.current = some cur →
    (s.win.waiting = none →
      exec c s = .next (send tag .good none []
        { s with
          port := { s.port with nextArrival := s.port.nextArrival + 1 }
          win := { s.win with waiting := some d } }))
    ∧ (∀ old, s.win.waiting = some old →
      exec c s = .next (send tag .good none []
        { s with
          port := { s.port with nextArrival := s.port.nextArrival + 1 }
          win := { s.win with
            waiting := some d
            overwrites := if s.win.overwrites < 65535 then s.win.overwrites + 1 else s.win.overwrites
            events := { s.win.events with directiveOverwritten := true } } }))

/-- A directive write that fails the arrival checks is refused BUSY or INVALID_FIELD and reaches no slot (R22).
A directive of a code outside 0x01 to 0x10 finishes REFUSED_CODE with nothing else changed, in assembly too (R192).
While the volume is ASSEMBLING every directive of codes 0x01 to 0x0F finishes REFUSED_STATE with nothing else changed
(R192, R173). -/
def Obligations.DirectivesRefused : Prop :=
  (∀ (c : Instr) (s : State) (tag : Tag) (d : Directive), carried c = some (tag, d) → s.Settled →
      ((128 ≤ s.port.entries.length ∨ ∃ e ∈ s.port.entries, e.state = .draining) →
        exec c s = .next (send tag .busy none [] s))
      ∧ (s.port.entries.length < 128 → (∀ e ∈ s.port.entries, e.state ≠ .draining) → (∃ e ∈ s.port.entries, e.tag = tag) →
        exec c s = .next (send tag .invalidField none [] s)))
  ∧ (∀ (s : State) (tag : Tag) (code : BitVec 8) (a : DirectiveArgs), s.Ready tag → (code.toNat = 0 ∨ 16 < code.toNat) →
      exec (.unknownDirective tag code a) s
        = .next (send tag .good none [] (s.reporting { code := code, args := a } .refusedCode)))
  ∧ (∀ (c : Instr) (s : State) (tag : Tag) (d : Directive), carried c = some (tag, d) → s.Ready tag →
      1 ≤ d.code.toNat → d.code.toNat ≤ 15 → s.ctl.volume = .assembling →
      exec c s = .next (send tag .good none [] (s.reporting d .refusedState)))

/-- A directive of codes 0x01 to 0x0F but KEEP-REMAPS finishes at the event it is taken: the result record shows its code
and sequence, the slot is empty, the overwrite count is as it was, and its write has completed GOOD (R192, R193). -/
def Obligations.DirectiveFinishesAtOnce : Prop :=
  ∀ (c : Instr) (s : State) (tag : Tag) (d : Directive), carried c = some (tag, d) → s.Ready tag →
    d.code ≠ 14#8 → d.code ≠ 16#8 →
    ∃ t, exec c s = .next t ∧ t.win.result.code = d.code ∧ t.win.result.seq = d.args.seq
      ∧ t.win.current = none ∧ t.win.waiting = none ∧ t.win.overwrites = s.win.overwrites
      ∧ (d.code ≠ 1#8 → t.win.selector = s.win.selector) ∧ (d.code ≠ 11#8 → t.win.mask = s.win.mask)
      ∧ (d.code ≠ 9#8 → t.ctl.tuning = s.ctl.tuning)
      ∧ ∃ marked, { tag := tag, status := .good, failing := none, marker := marked, data := [] } ∈ t.out

/-- SELECT-BAY sets the selector for an argument of 0 to 63 and finishes DONE; above 63 it finishes REFUSED_ARGUMENT and
leaves the selector (R195).
FAIL-MEMBER fails the selected bay when its role is MEMBER or JOINING, before what follows: FAILED, its operations gone
from the bay, MEMBER_LOST raised, the result DONE, no completion and no other bay touched; at a bay of another role it is
REFUSED_ARGUMENT with nothing changed (R133, R132).
KEEP-REMAPS raises the cause REMAPS of the selected bay and stays current until the label write that serves it, its
write completing GOOD; in a halt of cause RECOVERY_FAILED it is REFUSED_STATE, and with another role or more than 256 HARD
entries to carry REFUSED_ARGUMENT (R155). -/
def Obligations.SelectedBayDirectives : Prop :=
  (∀ (s : State) (tag : Tag) (a : DirectiveArgs), s.Ready tag → s.ctl.volume ≠ .assembling →
      exec (.selectBay tag a) s = .next (send tag .good none []
        (if h : a.bay.toNat < 64 then
          { s.reporting { code := 1#8, args := a } .done with
            win := { (s.reporting { code := 1#8, args := a } .done).win with selector := ⟨a.bay.toNat, h⟩ } }
        else s.reporting { code := 1#8, args := a } .refusedArgument)))
  ∧ (∀ (s : State) (tag : Tag) (a : DirectiveArgs), s.Ready tag → s.ctl.volume ≠ .assembling →
      (((s.bay s.win.selector).role = .member ∨ (s.bay s.win.selector).role = .joining) →
        ∃ u, exec (.failMember tag a) s = .next (afterDirective tag u)
          ∧ u.bay s.win.selector =
              { s.bay s.win.selector with role := .failed, wait := [], backlog := [], issued := [] }
          ∧ (∀ j, j ≠ s.win.selector → u.bay j = s.bay j)
          ∧ u.win.events.memberLost = true ∧ u.win.current = none
          ∧ u.win.result = { code := 13#8, seq := a.seq, outcome := .done } ∧ u.out = s.out
          ∧ u.ctl.tuning = s.ctl.tuning)
      ∧ (((s.bay s.win.selector).role ≠ .member ∧ (s.bay s.win.selector).role ≠ .joining) →
        exec (.failMember tag a) s
          = .next (send tag .good none [] (s.reporting { code := 13#8, args := a } .refusedArgument))))
  ∧ (∀ (s : State) (tag : Tag) (a : DirectiveArgs), s.Ready tag → s.ctl.volume ≠ .assembling →
      ((s.ctl.state = .halted ∧ s.ctl.cause = .recoveryFailed) →
        exec (.keepRemaps tag a) s
          = .next (send tag .good none [] (s.reporting { code := 14#8, args := a } .refusedState)))
      ∧ (¬(s.ctl.state = .halted ∧ s.ctl.cause = .recoveryFailed) →
        (((s.bay s.win.selector).role = .member ∨ (s.bay s.win.selector).role = .joining) ∧
            s.hardAfter s.win.selector ≤ 256 →
          exec (.keepRemaps tag a) s
            = .next (afterDirective tag (raiseCause (.remaps s.win.selector) (s.holding { code := 14#8, args := a }))))
        ∧ (¬(((s.bay s.win.selector).role = .member ∨ (s.bay s.win.selector).role = .joining) ∧
            s.hardAfter s.win.selector ≤ 256) →
          exec (.keepRemaps tag a) s
            = .next (send tag .good none [] (s.reporting { code := 14#8, args := a } .refusedArgument)))))

/-- START-CHAIN in IDLE with the chain ENDED or HELD sets the pointer, clears the hold flag and makes the chain DUE before
what follows; a pointer above 64 is REFUSED_ARGUMENT, any other state REFUSED_STATE, with nothing changed (R100). That a
pointer above 64 in a state that refuses is REFUSED_STATE is the model's reading (log entry 31): R100 names both refusals and
no order.
HOLD-CHAIN sets the hold flag of an ACTIVE chain, makes a DUE chain HELD with CHAIN_END raised and the pointer back at
the record before, is DONE with no effect on a HELD chain, and REFUSED_STATE on an ENDED one (R113; the pointer 0 of a DUE
chain: log entry 11).
RELEASE-CHAIN makes a HELD chain DUE at the next pointer and clears the hold flag of an ACTIVE one; an ACTIVE chain
without the flag, a DUE and an ENDED one refuse it (R114; after a hold ahead of slot 0: log entry 11). -/
def Obligations.ChainDirectives : Prop :=
  (∀ (s : State) (tag : Tag) (a : DirectiveArgs), s.Ready tag → s.ctl.volume ≠ .assembling →
      ((s.ctl.state = .idle ∧ (s.plan.status = .ended ∨ s.plan.status = .held)) →
        (a.pointer.toNat ≤ 64 →
          exec (.startChain tag a) s = .next (afterDirective tag
            { s.reporting { code := 2#8, args := a } .done with
              plan := { s.plan with
                pointer := a.pointer.toNat, status := .due, hold := false, keepHold := false, beforeFirst := false } }))
        ∧ (64 < a.pointer.toNat →
          exec (.startChain tag a) s
            = .next (send tag .good none [] (s.reporting { code := 2#8, args := a } .refusedArgument))))
      ∧ (¬(s.ctl.state = .idle ∧ (s.plan.status = .ended ∨ s.plan.status = .held)) →
        exec (.startChain tag a) s
          = .next (send tag .good none [] (s.reporting { code := 2#8, args := a } .refusedState))))
  ∧ (∀ (s : State) (tag : Tag) (a : DirectiveArgs), s.Ready tag → s.ctl.volume ≠ .assembling →
      exec (.holdChain tag a) s = .next
        (match s.plan.status with
        | .active => afterDirective tag
            { s.reporting { code := 3#8, args := a } .done with plan := { s.plan with hold := true } }
        | .due => afterDirective tag
            { s.reporting { code := 3#8, args := a } .done with
              plan := { s.plan with
                status := .held, pointer := s.plan.pointer - 1, keepHold := false, beforeFirst := s.plan.pointer == 0 }
              win := { (s.reporting { code := 3#8, args := a } .done).win with
                events := { s.win.events with chainEnd := true } } }
        | .held => send tag .good none [] (s.reporting { code := 3#8, args := a } .done)
        | .ended => send tag .good none [] (s.reporting { code := 3#8, args := a } .refusedState)))
  ∧ (∀ (s : State) (tag : Tag) (a : DirectiveArgs), s.Ready tag → s.ctl.volume ≠ .assembling →
      exec (.releaseChain tag a) s = .next
        (match s.plan.status, s.plan.hold with
        | .held, _ => afterDirective tag
            { s.reporting { code := 4#8, args := a } .done with
              plan := { s.plan with
                pointer := if s.plan.beforeFirst then s.plan.pointer else s.plan.pointer + 1, status := .due,
                beforeFirst := false } }
        | .active, true => afterDirective tag
            { s.reporting { code := 4#8, args := a } .done with plan := { s.plan with hold := false } }
        | .active, false => send tag .good none [] (s.reporting { code := 4#8, args := a } .refusedState)
        | .due, _ => send tag .good none [] (s.reporting { code := 4#8, args := a } .refusedState)
        | .ended, _ => send tag .good none [] (s.reporting { code := 4#8, args := a } .refusedState)))

/-- PAUSE: in RUNNING and SETTLING it sets the pause request and the mover gives up a step it is gathering, and with the
request set already it is DONE with no effect; in SUSPENDED with RUNNING or SETTLING saved it makes PAUSED the saved state,
with PAUSED saved it is DONE with no effect; everywhere else it is REFUSED_STATE (R159, R167, R72).
RESUME takes a PAUSED engine with no fault pending to its paused-from state, and a SUSPENDED engine with every missing
count within the tolerance to its saved previous state with the latch cleared, or to CLOSING when its REPLACE has lost the
incoming bay; every other RESUME is REFUSED_STATE (R160, R165, R118). -/
def Obligations.PauseAndResume : Prop :=
  (∀ (s : State) (tag : Tag) (a : DirectiveArgs), s.Ready tag → s.ctl.volume ≠ .assembling →
      ((s.ctl.state = .running ∨ s.ctl.state = .settling) →
        (s.ctl.pauseRequest = true →
          exec (.pause tag a) s = .next (send tag .good none [] (s.reporting { code := 5#8, args := a } .done)))
        ∧ (s.ctl.pauseRequest = false → (∀ p ∈ s.steps, p.2.stage ≠ .gather) →
          exec (.pause tag a) s = .next (afterDirective tag
            { s.reporting { code := 5#8, args := a } .done with ctl := { s.ctl with pauseRequest := true } }))
        ∧ (s.ctl.pauseRequest = false → ∃ u, exec (.pause tag a) s = .next (afterDirective tag u)
            ∧ u.ctl = { s.ctl with pauseRequest := true } ∧ (∀ p ∈ u.steps, p.2.stage ≠ .gather)
            ∧ u.win = (s.reporting { code := 5#8, args := a } .done).win ∧ u.out = s.out ∧ u.shelf = s.shelf))
      ∧ (s.ctl.state = .suspended →
        (∀ e, s.ctl.saved = some e → (e = .running ∨ e = .settling) →
          exec (.pause tag a) s = .next (afterDirective tag
            { s.reporting { code := 5#8, args := a } .done with
              ctl := { s.ctl with saved := some .paused, pausedFrom := some e } }))
        ∧ (s.ctl.saved = some .paused →
          exec (.pause tag a) s = .next (send tag .good none [] (s.reporting { code := 5#8, args := a } .done)))
        ∧ ((s.ctl.saved ≠ some .running ∧ s.ctl.saved ≠ some .settling ∧ s.ctl.saved ≠ some .paused) →
          exec (.pause tag a) s = .next (send tag .good none [] (s.reporting { code := 5#8, args := a } .refusedState))))
      ∧ ((s.ctl.state ≠ .running ∧ s.ctl.state ≠ .settling ∧ s.ctl.state ≠ .suspended) →
        exec (.pause tag a) s = .next (send tag .good none [] (s.reporting { code := 5#8, args := a } .refusedState))))
  ∧ (∀ (s : State) (tag : Tag) (a : DirectiveArgs), s.Ready tag → s.ctl.volume ≠ .assembling →
      (∀ e, s.ctl.state = .paused → s.ctl.faultPending = false → s.ctl.pausedFrom = some e →
        exec (.resume tag a) s = .next (afterDirective tag
          { s.reporting { code := 6#8, args := a } .done with ctl := { s.ctl with state := e, pausedFrom := none } }))
      ∧ (∀ e, s.ctl.state = .suspended → (∀ l ∈ s.plan.layouts, s.missingCount l ≤ s.tolerance) →
          s.ctl.saved = some e → ¬(s.plan.incomingLost = true ∧ s.plan.stage = .working) →
        exec (.resume tag a) s = .next (afterDirective tag
          { s.reporting { code := 6#8, args := a } .done with
            ctl := { s.ctl with state := e, saved := none, latch := false } }))
      ∧ (s.ctl.state = .suspended → (∀ l ∈ s.plan.layouts, s.missingCount l ≤ s.tolerance) →
          s.plan.incomingLost = true → s.plan.stage = .working →
        exec (.resume tag a) s = .next (afterDirective tag
          { s.reporting { code := 6#8, args := a } .done with
            ctl := { s.ctl with state := .closing, saved := none, latch := false, pausedFrom := none } }))
      ∧ (((s.ctl.state = .paused ∧ s.ctl.faultPending = true)
          ∨ (s.ctl.state = .suspended ∧ ∃ l ∈ s.plan.layouts, s.tolerance < s.missingCount l)
          ∨ (s.ctl.state ≠ .paused ∧ s.ctl.state ≠ .suspended)) →
        exec (.resume tag a) s = .next (send tag .good none [] (s.reporting { code := 6#8, args := a } .refusedState))))

/-- DROP-PLAN is taken, and the drop asked for, in WAITING and PREPARING, in RUNNING and PAUSED with the mark state INITIAL,
and in SUSPENDED with an active plan that waits or whose mark state is INITIAL; elsewhere it is REFUSED_STATE (R115).
STOP-CHAIN where DROP-PLAN is taken asks for the drop and for the chain's end; of a plan that cannot be dropped it sets
the hold flag, and the engine pauses where a PAUSE would be taken; with no active plan it ends a DUE or HELD chain at its
pointer and raises CHAIN_END; an ENDED chain refuses it (R117). -/
def Obligations.DropAndStop : Prop :=
  (∀ (s : State) (tag : Tag) (a : DirectiveArgs), s.Ready tag → s.ctl.volume ≠ .assembling →
      ((s.ctl.state = .waiting ∨ s.ctl.state = .preparing
          ∨ ((s.ctl.state = .running ∨ s.ctl.state = .paused) ∧ s.mark.state = .initial)
          ∨ (s.ctl.state = .suspended ∧ s.plan.active ≠ none ∧ (s.plan.stage = .waiting ∨ s.mark.state = .initial))) →
        exec (.dropPlan tag a) s = .next (afterDirective tag
          { s.reporting { code := 7#8, args := a } .done with plan := { s.plan with dropAsked := true } }))
      ∧ (¬(s.ctl.state = .waiting ∨ s.ctl.state = .preparing
          ∨ ((s.ctl.state = .running ∨ s.ctl.state = .paused) ∧ s.mark.state = .initial)
          ∨ (s.ctl.state = .suspended ∧ s.plan.active ≠ none ∧ (s.plan.stage = .waiting ∨ s.mark.state = .initial))) →
        exec (.dropPlan tag a) s
          = .next (send tag .good none [] (s.reporting { code := 7#8, args := a } .refusedState))))
  ∧ (∀ (s : State) (tag : Tag) (a : DirectiveArgs), s.Ready tag → s.ctl.volume ≠ .assembling →
      (s.mayDrop = true →
        exec (.stopChain tag a) s = .next (afterDirective tag
          { s.reporting { code := 8#8, args := a } .done with
            plan := { s.plan with endChain := true, dropAsked := true } }))
      ∧ (s.mayDrop = false →
        (s.plan.status = .active → s.ctl.state = .running → s.ctl.pauseRequest = false →
            (∀ p ∈ s.steps, p.2.stage ≠ .gather) →
          exec (.stopChain tag a) s = .next (afterDirective tag
            { s.reporting { code := 8#8, args := a } .done with
              plan := { s.plan with hold := true }, ctl := { s.ctl with pauseRequest := true } }))
        ∧ (s.plan.status = .active → (s.ctl.state = .idle ∨ s.ctl.state = .paused ∨ s.ctl.state = .closing
              ∨ s.ctl.state = .halted) →
          exec (.stopChain tag a) s = .next (afterDirective tag
            { s.reporting { code := 8#8, args := a } .done with plan := { s.plan with hold := true } }))
        ∧ (s.plan.status = .active →
          exec (.stopChain tag a) s = .next (afterDirective tag
            (finishDirective .done ((pauseEffect (holdActive (s.holding { code := 8#8, args := a }))).getD
              (holdActive (s.holding { code := 8#8, args := a }))))))
        ∧ ((s.plan.status = .due ∨ s.plan.status = .held) →
          exec (.stopChain tag a) s = .next (afterDirective tag
            { s.reporting { code := 8#8, args := a } .done with
              plan := { s.plan with status := .ended, hold := false, keepHold := false, beforeFirst := false }
              win := { (s.reporting { code := 8#8, args := a } .done).win with
                events := { s.win.events with chainEnd := true } } }))
        ∧ (s.plan.status = .ended →
          exec (.stopChain tag a) s
            = .next (send tag .good none [] (s.reporting { code := 8#8, args := a } .refusedState)))))

/-- SET-TUNING puts each selected value in force, clamped into its range, leaves the others, and finishes ADJUSTED exactly
when a selected value was clamped, DONE otherwise; slot, selector, mask and overwrite count are untouched (R196). -/
def Obligations.SetTuningClamps : Prop :=
  ∀ (s : State) (tag : Tag) (a : DirectiveArgs), s.Ready tag → s.ctl.volume ≠ .assembling →
    let m := a.tuningMask
    let v := a.tuning
    let old := s.ctl.tuning
    ∃ t, exec (.setTuning tag a) s = .next t
      ∧ t.ctl.tuning =
        { stepRows := if m.getLsbD 0 then max 1 (min 16 v.stepRows.toNat) else old.stepRows
          pace := if m.getLsbD 1 then max 1 (min 16 v.pace.toNat) else old.pace
          markInterval := if m.getLsbD 2 then max 1 (min 64 v.markInterval.toNat) else old.markInterval
          stainLimit := if m.getLsbD 3 then max 1 (min 7 v.stainLimit.toNat) else old.stainLimit
          captureLatest := if m.getLsbD 4 then decide (1 ≤ v.captureMode.toNat) else old.captureLatest
          degradedContinue := if m.getLsbD 5 then decide (1 ≤ v.degradedContinue.toNat) else old.degradedContinue
          linkResetRestart := if m.getLsbD 6 then decide (1 ≤ v.linkResetRestart.toNat) else old.linkResetRestart }
      ∧ t.win.result.code = 9#8 ∧ t.win.result.seq = a.seq
      ∧ (t.win.result.outcome = .adjusted ∨ t.win.result.outcome = .done)
      ∧ (t.win.result.outcome = .adjusted ↔
          (m.getLsbD 0 = true ∧ (v.stepRows.toNat = 0 ∨ 16 < v.stepRows.toNat))
          ∨ (m.getLsbD 1 = true ∧ (v.pace.toNat = 0 ∨ 16 < v.pace.toNat))
          ∨ (m.getLsbD 2 = true ∧ (v.markInterval.toNat = 0 ∨ 64 < v.markInterval.toNat))
          ∨ (m.getLsbD 3 = true ∧ (v.stainLimit.toNat = 0 ∨ 7 < v.stainLimit.toNat))
          ∨ (m.getLsbD 4 = true ∧ 1 < v.captureMode.toNat)
          ∨ (m.getLsbD 5 = true ∧ 1 < v.degradedContinue.toNat)
          ∨ (m.getLsbD 6 = true ∧ 1 < v.linkResetRestart.toNat))
      ∧ t.win.current = none ∧ t.win.waiting = none ∧ t.win.selector = s.win.selector ∧ t.win.mask = s.win.mask
      ∧ t.win.overwrites = s.win.overwrites ∧ t.pending = s.pending
      ∧ ∃ marked, { tag := tag, status := .good, failing := none, marker := marked, data := [] } ∈ t.out

/-- CLEAR-EVENTS clears the flags its mask names and leaves the others, finishes DONE, and changes nothing else when the
mask does not name SHELF_CHANGE; when it does, every bay's presence is copied into its reference, and nothing else changes
before what follows (R198, R125). -/
def Obligations.ClearEventsByMask : Prop :=
  ∀ (s : State) (tag : Tag) (a : DirectiveArgs), s.Ready tag → s.ctl.volume ≠ .assembling →
    let u : State :=
      { s.reporting { code := 10#8, args := a } .done with
        win := { (s.reporting { code := 10#8, args := a } .done).win with events := s.win.events.clearMask a.eventMask } }
    (∀ e, u.win.events.has e = (s.win.events.has e && !a.eventMask.getLsbD e.index))
    ∧ (a.eventMask.getLsbD 1 = false → exec (.clearEvents tag a) s = .next (send tag .good none [] u))
    ∧ (a.eventMask.getLsbD 1 = true → ∃ r,
        exec (.clearEvents tag a) s = .next (afterDirective tag r) ∧ r = { u with shelf := r.shelf }
        ∧ r.shelf.nextOp = s.shelf.nextOp ∧ ∀ i, r.bay i = { s.bay i with reference := (s.bay i).present })

/-- SET-ATTENTION replaces the mask and finishes DONE; the mask decides the marker of every completion sent: set when a flag
is set whose bit the mask has; raising and clearing do not look at it; it has every bit set at power-on and is kept by
RESTART and by a volume link reset; the events page shows the flags whatever the mask (R199). -/
def Obligations.AttentionMask : Prop :=
  (∀ (s : State) (tag : Tag) (a : DirectiveArgs), s.Ready tag → s.ctl.volume ≠ .assembling →
    exec (.setAttention tag a) s = .next (send tag .good none []
      { s.reporting { code := 11#8, args := a } .done with
        win := { (s.reporting { code := 11#8, args := a } .done).win with mask := BitVec.ofNat 12 a.eventMask.toNat } }))
  ∧ (∀ (s : State) (tag : Tag) (st : Status) (failing : Option Nat) (data : List Block),
      ∃ marked, (send tag st failing data s).out
          = s.out ++ [{ tag := tag, status := st, failing := failing, marker := marked, data := data }]
        ∧ (marked = true ↔ ∃ e, s.win.events.has e = true ∧ s.win.mask.getLsbD e.index = true))
  ∧ (∀ (s : State) (m : BitVec 12) (e : Event),
      (raise e { s with win := { s.win with mask := m } }).win = { (raise e s).win with mask := m })
  ∧ (∀ (s : State) (m : BitVec 12) (a : DirectiveArgs),
      (takeClearEvents a { s with win := { s.win with mask := m } }).1.win = { (takeClearEvents a s).1.win with mask := m })
  ∧ (∀ i : Nat, i < 12 → State.reset.win.mask.getLsbD i = true)
  ∧ (∀ s : State, ∃ t, exec .powerOn s = .next t ∧ ∀ i : Nat, i < 12 → t.win.mask.getLsbD i = true)
  ∧ (∀ (s : State) (tag : Tag) (a : DirectiveArgs), s.Ready tag →
      ∃ t, exec (.restart tag a) s = .next t ∧ t.win.mask = s.win.mask)
  ∧ (∀ s : State, s.Settled → ∃ t, exec .volumeLinkReset s = .next t ∧ t.win.mask = s.win.mask)
  ∧ (∀ s : State, fieldAt s.eventsPage 0 2 = s.win.events.bits.toNat)

/-- CLEAR-CAPTURE empties the record and zeroes the six counts, finishes DONE and leaves bays, flags and mode; a change of
the capture mode leaves the record, and the next capture goes by the mode then: LATEST replaces, FIRST fills an empty record
only (R150). -/
def Obligations.ClearCapture : Prop :=
  (∀ (s : State) (tag : Tag) (a : DirectiveArgs), s.Ready tag → s.ctl.volume ≠ .assembling →
    exec (.clearCapture tag a) s = .next (send tag .good none []
      { s.reporting { code := 12#8, args := a } .done with
        integ := { s.integ with
          capture := none
          counts := { hostTag := 0, memberTag := 0, mediaRead := 0, mediaWrite := 0, timeout := 0,
                      poisonWritten := 0 } } }))
  ∧ (∀ (s : State) (a : DirectiveArgs), (takeSetTuning a s).1.integ.capture = s.integ.capture)
  ∧ (∀ (s : State) (c : Capture), s.ctl.tuning.captureLatest = true → (takeCapture c s).integ.capture = some c)
  ∧ (∀ (s : State) (c : Capture), s.ctl.tuning.captureLatest = false →
      (takeCapture c s).integ.capture = some (s.integ.capture.getD c))

/-- CLEAR-HALT in HALTED with cause MEMBER_LOST moves the engine to SUSPENDED with the latch kept and no event raised; a
saved RUNNING or SETTLING becomes PAUSED with paused-from that state, any other saved state is kept; it finishes DONE. With
cause RECOVERY_FAILED, or outside HALTED, it is REFUSED_STATE and changes nothing. No step begins in SUSPENDED or in PAUSED (R166). -/
def Obligations.ClearHaltLeavesHalt : Prop :=
  ∀ (s : State) (tag : Tag) (a : DirectiveArgs), s.Ready tag → s.ctl.volume ≠ .assembling →
    (s.ctl.state = .halted → s.ctl.cause = .memberLost →
      (∀ e, s.ctl.saved = some e → (e = .running ∨ e = .settling) →
        exec (.clearHalt tag a) s = .next (afterDirective tag
          { s.reporting { code := 15#8, args := a } .done with
            ctl := { s.ctl with state := .suspended, saved := some .paused, pausedFrom := some e } }))
      ∧ ((s.ctl.saved ≠ some .running ∧ s.ctl.saved ≠ some .settling) →
        exec (.clearHalt tag a) s = .next (afterDirective tag
          { s.reporting { code := 15#8, args := a } .done with ctl := { s.ctl with state := .suspended } })))
    ∧ (¬(s.ctl.state = .halted ∧ s.ctl.cause = .memberLost) →
      exec (.clearHalt tag a) s
        = .next (send tag .good none [] (s.reporting { code := 15#8, args := a } .refusedState)))
    ∧ (∀ u : State, (u.ctl.state = .suspended ∨ u.ctl.state = .paused) → ruleBegin u = none)

/-- RESTART, in every volume state: before what follows, every request not already draining has completed ABORTED in table
order with the marker clear, the slot is empty, every flag is clear, the result is RESTART's with DONE, mask, selector,
overwrite count and tuning are kept, the engine is IDLE and the volume ASSEMBLING with start cause RESTART (R202, R45,
R171). The table order and the marker of the ABORTED completions are the model's order within one event (log entry 5); the
EMPTY table, the identity 0 and the clear plan fields until assembly loads them are log entries 34 and 2, the mark unit's
front and generation 0 log entry 49. -/
def Obligations.RestartBeginsAssembly : Prop :=
  ∀ (s : State) (tag : Tag) (a : DirectiveArgs), s.Ready tag →
    ∃ u, exec (.restart tag a) s = .next (afterDirective tag u)
      ∧ u.out = s.out ++ (s.port.entries.filter (·.state != .draining)).map
          (fun e => { tag := e.tag, status := .aborted, failing := none, marker := false, data := [] })
      ∧ u.win =
        { s.win with
          current := none, taken := false, waiting := none
          result := { code := 16#8, seq := a.seq, outcome := .done }, events := State.resetEvents }
      ∧ u.ctl.state = .idle ∧ u.ctl.volume = .assembling ∧ u.ctl.startCause = .restart ∧ u.ctl.latch = false
      ∧ u.ctl.cause = .none ∧ u.ctl.saved = none ∧ u.ctl.tuning = s.ctl.tuning
      ∧ (∀ e ∈ u.port.entries, e.state = .draining) ∧ u.locks.entries = [] ∧ u.holds = []
      ∧ u.port.nextArrival = s.port.nextArrival + 1
      ∧ u.plan = State.resetPlan ∧ u.mark = State.resetMark ∧ u.integ = State.resetIntegrity
      ∧ u.mover = State.reset.mover ∧ u.asm.stage = .scan
      ∧ (∀ i, i ∈ u.asm.scanSet ↔ (s.bay i).present = true)
      ∧ (∀ i, (u.bay i).wait = [] ∧ (u.bay i).backlog = [] ∧ (u.bay i).contest = 0 ∧ (u.bay i).moverCount = 0
          ∧ (u.bay i).reference = (s.bay i).reference ∧ (u.bay i).media = (s.bay i).media
          ∧ (u.bay i).tagErrors = (s.bay i).tagErrors ∧ (u.bay i).timeouts = (s.bay i).timeouts
          ∧ (u.bay i).issued.length = (s.bay i).issued.length)

/-! ## Shelf links -/

/-- A report of an arrival at an absent bay with nothing waiting: it is present and INQUIRING with no label known, joins the
scan set before the choice, is sent an INQUIRE in the mark class as soon as a slot is free, and SHELF_CHANGE is raised when
some presence differs from its reference; no other bay and nothing else changes before what follows (R119, R122, R125, R174).
A report of an arrival at a present bay is a departure and an arrival: its operations end GONE and it is asked afresh. Before
the first scan has set the references SHELF_CHANGE is not raised (the model's choice, log entry 3), and after an exchange the
presences are compared once (log entry 16).
The departure of a bay: absent, its operations ending GONE, a MEMBER or JOINING bay failing with MEMBER_LOST, a STALE one
becoming FAILED, a FOREIGN one NONE, and SHELF_CHANGE raised when some presence differs from its reference, but for the time
before the first scan has set the references (the model's choice, log entry 3); the departure of an absent bay is nothing
(R119, R124, R125, R132). -/
def Obligations.BaysArriveAndDepart : Prop :=
  (∀ (s : State) (i : Slot),
      let op : MemberOp := { id := s.shelf.nextOp, slot := i, cls := .mark, kind := .inquire, owner := .inquire, home := none }
      let asked : Issued := { op := op, sending := 1, expiries := 0, medias := 0 }
      let b := s.bay i
      (b.present = false → b.wait = [] → b.backlog = [] → ∃ u, exec (.bayArrival i) s = .next (settle u)
        ∧ u.bay i = (if b.issued.length < 16 then
              { b with present := true, readiness := .inquiring, label := none, issued := b.issued ++ [asked] }
            else { b with present := true, readiness := .inquiring, label := none, wait := [op] })
        ∧ (∀ j, j ≠ i → u.bay j = s.bay j) ∧ u.shelf.nextOp = s.shelf.nextOp + 1
        ∧ (∀ j, j ∈ u.asm.scanSet ↔ j ∈ s.asm.scanSet ∨ (s.asm.stage = .scan ∧ j = i))
        ∧ (u.win.events.shelfChange = true ↔ s.win.events.shelfChange = true
            ∨ (s.asm.firstScan = false ∧ ∃ j, (u.bay j).present ≠ (s.bay j).reference))
        ∧ u = { s with
            shelf := u.shelf, asm := { s.asm with scanSet := u.asm.scanSet }
            win := { s.win with events := { s.win.events with shelfChange := u.win.events.shelfChange } } })
      ∧ (b.present = true → b.role ≠ .member → b.role ≠ .joining → ∃ u, exec (.bayArrival i) s = .next (settle u)
        ∧ u.bay i = { b with
            present := true, readiness := .inquiring, label := none, scanDue := false, wait := [], backlog := []
            issued := [asked]
            role := (match b.role with | .stale => .failed | .foreign => .none | r => r) }
        ∧ (∀ j, j ≠ i → u.bay j = s.bay j)
        ∧ u.todo = s.todo ++ b.ops.map (fun o => Ev.opEnd o .gone)
        ∧ (∀ j, j ∈ u.asm.scanSet ↔ j ∈ s.asm.scanSet ∨ (s.asm.stage = .scan ∧ j = i))
        ∧ (u.win.events.shelfChange = true ↔ s.win.events.shelfChange = true
            ∨ (s.asm.firstScan = false ∧ ∃ j, (u.bay j).present ≠ (s.bay j).reference))
        ∧ u.integ.candidates = s.integ.candidates.filter (fun c => c.slot != i)
        ∧ u = { s with
            shelf := u.shelf, todo := u.todo, asm := { s.asm with scanSet := u.asm.scanSet }
            integ := { s.integ with candidates := u.integ.candidates }
            win := { s.win with events := { s.win.events with shelfChange := u.win.events.shelfChange } } })
      ∧ (b.present = true → (b.role = .member ∨ b.role = .joining) → ∃ u, exec (.bayArrival i) s = .next (settle u)
        ∧ u.bay i = { b with
            present := true, readiness := .inquiring, label := none, scanDue := false, wait := [], backlog := []
            issued := [asked], role := .failed }
        ∧ (∀ j, j ≠ i → u.bay j = s.bay j) ∧ u.win.events.memberLost = true ∧ u.out = s.out))
  ∧ (∀ (s : State) (i : Slot),
      let b := s.bay i
      (b.present = false → s.Settled → exec (.bayDeparture i) s = .next s)
      ∧ (b.present = true → b.role ≠ .member → b.role ≠ .joining → ∃ u, exec (.bayDeparture i) s = .next (settle u)
        ∧ u.bay i = { b with
            present := false, readiness := .absent, scanDue := false, wait := [], backlog := [], issued := []
            role := (match b.role with | .stale => .failed | .foreign => .none | r => r) }
        ∧ (∀ j, j ≠ i → u.bay j = s.bay j)
        ∧ u.todo = s.todo ++ b.ops.map (fun o => Ev.opEnd o .gone)
        ∧ (∀ j, j ∈ u.asm.scanSet ↔ j ∈ s.asm.scanSet ∧ (s.asm.stage = .scan → j ≠ i))
        ∧ (u.win.events.shelfChange = true ↔ s.win.events.shelfChange = true
            ∨ (s.asm.firstScan = false ∧ ∃ j, (u.bay j).present ≠ (s.bay j).reference))
        ∧ u.integ.candidates = s.integ.candidates.filter (fun c => c.slot != i)
        ∧ u = { s with
            shelf := u.shelf, todo := u.todo, asm := { s.asm with scanSet := u.asm.scanSet }
            integ := { s.integ with candidates := u.integ.candidates }
            win := { s.win with events := { s.win.events with shelfChange := u.win.events.shelfChange } } })
      ∧ (b.present = true → (b.role = .member ∨ b.role = .joining) → ∃ u, exec (.bayDeparture i) s = .next (settle u)
        ∧ u.bay i = { b with
            present := false, readiness := .absent, scanDue := false, wait := [], backlog := [], issued := []
            role := .failed }
        ∧ (∀ j, j ≠ i → u.bay j = s.bay j) ∧ u.win.events.memberLost = true ∧ u.out = s.out
        ∧ (s.asm.firstScan = false → b.reference = true → u.win.events.shelfChange = true)))

/-- A link that goes down takes every present bay of its port out, a link that comes up reports an arrival for each occupied
bay it names; both are the link's first report when assembly waits for one; the bays of the other ports do not change
(R119, R174). -/
def Obligations.LinksReportBays : Prop :=
  ∀ (s : State) (p : Port),
    (∃ u, exec (.linkDown p) s = .next (settle u)
      ∧ (∀ k : Fin 16, (s.bay (slotOf p k)).present = true →
          (u.bay (slotOf p k)).present = false ∧ (u.bay (slotOf p k)).readiness = .absent
            ∧ (u.bay (slotOf p k)).ops = [])
      ∧ (∀ k : Fin 16, (s.bay (slotOf p k)).present = false → u.bay (slotOf p k) = s.bay (slotOf p k))
      ∧ (∀ j, (∀ k : Fin 16, j ≠ slotOf p k) → u.bay j = s.bay j)
      ∧ u.asm.linksPending = s.asm.linksPending.filter (· != p) ∧ u.out = s.out ∧ u.shelf.nextOp = s.shelf.nextOp)
    ∧ (∀ ks : List (Fin 16), ∃ u, exec (.linkUp p ks) s = .next (settle u)
      ∧ (∀ k ∈ ks, (u.bay (slotOf p k)).present = true ∧ (u.bay (slotOf p k)).readiness = .inquiring)
      ∧ (∀ j, (∀ k ∈ ks, j ≠ slotOf p k) → u.bay j = s.bay j)
      ∧ u.asm.linksPending = s.asm.linksPending.filter (· != p) ∧ u.out = s.out
      ∧ u.shelf.nextOp = s.shelf.nextOp + ks.length)

/-! ## Timers and answers of drives -/

/-- A timer's first expiry is counted and captured and the operation is sent again in its slot with a fresh timer; the second
ends it TIMEOUT, a MEMBER or JOINING bay failing; a drained operation's expiry only frees its slot (R129, R137, R149).
A drained operation's end frees its slot, whose grants go on, and does nothing else. An answer or a timer that belongs to
no operation in an issue slot at its latest sending, or to one of another kind, does nothing (R124, R129, R137; log entry
14). -/
def Obligations.TimersAndStrayAnswers : Prop :=
  (∀ (s : State) (r : OpRef) (x : Issued), s.issuedAt r = some x →
      let i := x.op.slot
      let first := x.op.kind.firstBlock
      let late : Capture :=
        { kind := .timeout, slot := some i, block := some first, row := (s.homeOf i first).map (·.1), lba := s.lbaAt i first }
      let noted : IntegrityUnit :=
        { s.integ with
          counts := { s.integ.counts with timeout := if s.integ.counts.timeout < 65535 then s.integ.counts.timeout + 1 else s.integ.counts.timeout }
          capture := if s.ctl.tuning.captureLatest || s.integ.capture.isNone then some late else s.integ.capture }
      let count := if (s.bay i).timeouts < 65535 then (s.bay i).timeouts + 1 else (s.bay i).timeouts
      (x.op.owner.isDrained = false → x.expiries = 0 → ∃ u, exec (.memberOpTimeout r) s = .next (settle u)
        ∧ u.bay i = { s.bay i with
            timeouts := count
            issued := (s.bay i).issued.map (fun y =>
              if y.op.id = x.op.id then { y with sending := y.sending + 1, expiries := 1 } else y) }
        ∧ (∀ j, j ≠ i → u.bay j = s.bay j)
        ∧ u = { s with
            shelf := u.shelf, integ := noted, win := { s.win with events := { s.win.events with dataError := true } } })
      ∧ (x.op.owner.isDrained = false → x.expiries ≠ 0 →
        ∃ v, exec (.memberOpTimeout r) s = .next (settle (grants i (ownerEnd x.op .timeout (failBay i v))))
        ∧ v.bay i = { s.bay i with
            timeouts := count, issued := (s.bay i).issued.filter (fun y => y.op.id != x.op.id) }
        ∧ (∀ j, j ≠ i → v.bay j = s.bay j)
        ∧ v = { s with
            shelf := v.shelf, integ := noted, win := { s.win with events := { s.win.events with dataError := true } } }
        ∧ ((s.bay i).role = .member ∨ (s.bay i).role = .joining →
            (failBay i v).bay i = { v.bay i with role := .failed, wait := [], backlog := [], issued := [] })
        ∧ ((s.bay i).role ≠ .member → (s.bay i).role ≠ .joining → failBay i v = v))
      ∧ (x.op.owner.isDrained = true → ∃ u, exec (.memberOpTimeout r) s = .next (settle u)
        ∧ u = s.freed x
        ∧ (∀ y ∈ (u.bay i).issued, (y ∈ (s.bay i).issued ∧ y.op.id ≠ x.op.id)
            ∨ y.op ∈ (s.bay i).wait ++ (s.bay i).backlog)
        ∧ (u.bay i).timeouts = (s.bay i).timeouts ∧ (∀ j, j ≠ i → u.bay j = s.bay j) ∧ u = { s with shelf := u.shelf }))
  ∧ (∀ (s : State) (r : OpRef),
      (∀ x a, s.Awaits r x (.drained a) →
        exec (.drainedOperationEnd r) s = .next (settle (freeIssue x.op.slot x.op.id s))
        ∧ freeIssue x.op.slot x.op.id s = { s with shelf := (freeIssue x.op.slot x.op.id s).shelf })
      ∧ (∀ (k : OwnerClass) (c : Instr), s.Unasked k r →
        ((k = .drained ∧ c = .drainedOperationEnd r)
          ∨ (∃ ans, (k, c) ∈ [(OwnerClass.hostRead, Instr.hostReadMemberEnd r ans), (.hostWriteRead, .hostWriteMemberReadEnd r ans),
              (.gather, .gatherReadEnd r ans), (.fillRead, .fillReadEnd r ans), (.labelRead, .labelReadEnd r ans),
              (.assemblyPlanRead, .planAreaReadEnd r ans), (.assemblySpillRead, .spillRecordReadEnd r ans),
              (.assemblyColumnRead, .spillColumnReadEnd r ans)])
          ∨ (∃ ans, (k, c) ∈ [(OwnerClass.hostWriteWrite, Instr.hostWriteMemberWriteEnd r ans), (.hostFlush, .memberFlushEnd r ans),
              (.spillColumn, .spillColumnWriteEnd r ans), (.spillRecord, .spillRecordWriteEnd r ans),
              (.place, .placeWriteEnd r ans), (.label, .labelMemberWriteEnd r ans), (.tableCopy, .planTableCopyEnd r ans),
              (.planArea, .planAreaWriteEnd r ans), (.releasedLabel, .releasedLabelWriteEnd r ans),
              (.restorePlace, .restorePlaceWriteEnd r ans), (.assemblyLabel, .assemblyLabelWriteEnd r ans),
              (.writeBack, .writeBackEnd r ans), (.spareWrite, .spareSlotWriteEnd r ans)])
          ∨ (∃ ans, k = .inquire ∧ c = .inquireEnd r ans)) →
        exec c s = .next s)
      ∧ (s.Settled → s.issuedAt r = none → exec (.memberOpTimeout r) s = .next s))

/-- A READ's answer: its slot is freed, and the reader it was for takes the blocks: a host read, a host write's row, a step, a
fill. Of every place the READ covers at which its reader waits for it, the block returned is judged, and one not returned is
bad; each tag error returned is counted; what the reader holds of another place stays. The blocks of a READ whose reader has
ended are judged and discarded (what they are judged against: log entry 52). A MEDIA is counted at the bay and
captured as MEDIA_READ behind those (R32, R37, R52, R128, R130, R142, R149, R153). -/
def Obligations.ReadAnswers : Prop :=
  ∀ (s : State) (r : OpRef) (x : Issued) (ans : ReadAnswer) (first count : Nat), x.op.kind = .read first count →
    let i := x.op.slot
    let res := readResult ans
    let v := s.freed x
    let late (u w : State) : Prop := match ans with | .good _ => w = u | .media f _ => u.MediaRead i f w
    (∀ a part e f, s.Awaits r x (.hostRead a part) → s.req a = some e → e.reads[part]? = some f →
      let q := arriveFetch (.part a part) x.op res (v, f)
      ∃ z, exec (.hostReadMemberEnd r ans) s = .next (settle z)
        ∧ late (push (.advance a)
            (updReq a (fun e => { e with reads := e.reads.set part q.2 }) q.1)) z)
    ∧ (∀ a row e w, s.Awaits r x (.hostWriteRead a row) → s.req a = some e → e.rows[row]? = some w →
      let q := arriveFetch (.row a row) x.op res (v, w.fetch)
      ∃ z, exec (.hostWriteMemberReadEnd r ans) s = .next (settle z)
        ∧ late (push (.advance a)
            (updReq a (fun e => { e with rows := e.rows.set row { w with fetch := q.2 } }) q.1)) z)
    ∧ (∀ g t, s.Awaits r x (.gather g) → s.stepIn g = some t → t.stage = .gather →
      let q := arriveFetch (.step g) x.op res (v, t.fetch)
      ∃ z, exec (.gatherReadEnd r ans) s = .next (settle z)
        ∧ late (push (.stepAdvance g)
            (updStep g (fun t => t.fetched q.2) q.1)) z)
    ∧ (∀ j row f, s.Awaits r x (.fillRead j row) → s.fillOf j row = some f →
      let q := arriveFetch (.fill j row) x.op res (v, f.fetch)
      ∃ z, exec (.fillReadEnd r ans) s = .next (settle z)
        ∧ late (push (.fillAdvance j row)
            (updFill j row (fun f => { f with fetch := q.2 }) q.1)) z)
    ∧ ((∃ a part e, s.Awaits r x (.hostRead a part) ∧ s.req a = some e ∧ e.reads[part]? = none) →
      ∃ z, exec (.hostReadMemberEnd r ans) s = .next (settle z) ∧ late (judgeOrphan x.op res v) z)
    ∧ (∀ g t, s.Awaits r x (.gather g) → s.stepIn g = some t → t.stage ≠ .gather →
      ∃ z, exec (.gatherReadEnd r ans) s = .next (settle z)
        ∧ late (updStep g (fun t => { t with outstanding := t.outstanding - 1 }) (judgeOrphan x.op res v)) z)
    ∧ (∀ j row, s.Awaits r x (.fillRead j row) → s.fillOf j row = none →
      ∃ z, exec (.fillReadEnd r ans) s = .next (settle z) ∧ late (judgeOrphan x.op res v) z)
    ∧ (∀ y ∈ (v.bay i).issued, (y ∈ (s.bay i).issued ∧ y.op.id ≠ x.op.id) ∨ y.op ∈ (s.bay i).wait ++ (s.bay i).backlog)
    ∧ v = { s with shelf := v.shelf } ∧ (∀ j, j ≠ i → v.bay j = s.bay j)
    ∧ (∀ (k : Reader) (u : State) (f : Fetch) (row off pos : Nat), x.op.home = some (row, off) →
        (∃ c ∈ f.waitingFor x.op.id, c.pos = pos) → (∀ c ∈ f.waitingFor x.op.id, c.pos = pos) →
        let q := arriveFetch k x.op res (u, f)
        let at_ (n : Nat) : Cell := { row := row + (off + n) / f.layout.unit, pos := pos, off := (off + n) % f.layout.unit }
        let bad := (List.range count).filter (fun n => res.blocks[n]?.any (fun b => f.layout.judge (at_ n) b == .tagError))
        (∀ n, n < count → f.at (at_ n) = some (.waiting x.op.id) →
          (res.blocks[n]? = none → q.2.at (at_ n) = some .bad)
          ∧ (∀ b, res.blocks[n]? = some b → q.2.at (at_ n) = some
              (match f.layout.judge (at_ n) b with | .good => .got b | .poison => .poison b | .tagError => .bad)))
        ∧ (∀ c, f.at c ≠ some (.waiting x.op.id) → q.2.at c = f.at c)
        ∧ ((u.bay i).tagErrors ≤ 65535 → (q.1.bay i).tagErrors = min 65535 ((u.bay i).tagErrors + bad.length))
        ∧ (u.integ.counts.memberTag ≤ 65535 →
            q.1.integ.counts = { u.integ.counts with memberTag := min 65535 (u.integ.counts.memberTag + bad.length) })
        ∧ (∀ j, j ≠ i → q.1.bay j = u.bay j) ∧ q.1.port = u.port ∧ q.1.mover = u.mover ∧ q.1.out = u.out)

/-- A data-area WRITE's answer: its slot is freed; GOOD goes to its owner (a host write's row, a step's place write, a restored
step, a write-back); MEDIA raises the bay's media count, is captured as MEDIA_WRITE and raises DATA_ERROR, and goes at a MEMBER
or JOINING bay to the integrity unit's decision, at any other bay to the owner. A host write's row counts its WRITE off, the
units it wrote stain the steps in GATHER that read them, and the request is looked at again; a place write is counted off its
step, and the poison of the step that a GOOD one carried is noted as written (R38, R53, R59, R128, R130, R145, R149, R152,
R183). -/
def Obligations.DataWriteAnswers : Prop :=
  (∀ (s : State) (r : OpRef) (x : Issued) (c : WriteAnswer → Instr) (o : Owner) (ended : OpResult → State → State) (f : Nat)
      (bs : List Block), s.Awaits r x o → x.op.kind = .write f bs →
    ((∃ a row, o = .hostWriteWrite a row ∧ c = .hostWriteMemberWriteEnd r ∧ ended = fun _ => endHostWrite a row x.op)
      ∨ (∃ g, o = .place g ∧ c = .placeWriteEnd r
          ∧ ended = fun res t => updStep g (fun t => { t with outstanding := t.outstanding - 1 }) (notePoison g x.op res t))
      ∨ (o = .restorePlace ∧ c = .restorePlaceWriteEnd r
          ∧ ended = fun _ => updStep .a (fun t => { t with outstanding := t.outstanding - 1 }))
      ∨ (o = .writeBack ∧ c = .writeBackEnd r
          ∧ ended = fun _ t => releaseHeld { t with integ :=
              { t.integ with repairs := (t.integ.repairs.filter (fun k => k.op != x.op.id)) } })) →
    let i := x.op.slot
    exec (c .good) s = .next (settle (ended (.good []) (s.freed x)))
    ∧ ∀ first, ∃ u, s.MediaWritten i first u
      ∧ (((s.bay i).role = .member ∨ (s.bay i).role = .joining) →
        exec (c (.media first)) s = .next (settle (remapDecision x.op first (u.freed x))))
      ∧ ((s.bay i).role ≠ .member → (s.bay i).role ≠ .joining →
        exec (c (.media first)) s = .next (settle (ended (.media first []) (u.freed x)))))
  ∧ (∀ (s : State) (a idx : Nat) (op : MemberOp),
      let t := endHostWrite a idx op s
      t = { s with port := t.port, mover := t.mover, todo := s.todo ++ [.advance a] }
      ∧ t.port.nextArrival = s.port.nextArrival
      ∧ t.port.entries = s.port.entries.map (fun e => if e.arrival = a then
          { e with rows := e.rows.modify idx (fun w => { w with outstanding := w.outstanding - 1 }) } else e)
      ∧ (∀ g p, s.stepIn g = some p → p.stage ≠ .gather → t.stepIn g = some p)
      ∧ (∀ g p, s.stepIn g = some p → p.stage = .gather → ∃ us, t.stepIn g = some { p with stained := p.stained ++ us }
          ∧ ∀ u, u ∈ p.stained ++ us ↔ u ∈ p.stained ∨ (u ∈ p.readSet ∧ u.row ∈ s.rowsOf op
              ∧ s.bayAt p.fetch.layout u.row u.pos = some op.slot)))
  ∧ (∀ (s : State) (g : Staging) (op : MemberOp) (res : OpResult) (t : Step) (l : Layout),
      s.stepIn g = some t → s.written = some l →
      (∀ bs, res = .good bs → (notePoison g op res s).stepIn g
        = some { t with poisoned := t.poisoned ++ (s.poisonIn t l op).map (fun c => (op.slot, c)) })
      ∧ ((∀ bs, res ≠ .good bs) → notePoison g op res s = s))

/-- A reserve-region WRITE's answer: GOOD counts it off its owner's writes; the first MEDIA hands it over once more; a second
fails the bay and counts it off, a released label's only counts it off (R58, R81, R92, R98, R106, R107, R111, R130, R186).
A member FLUSH: GOOD counts it off its request; the first MEDIA counts, captures as MEDIA_WRITE of block 0 and sends it
once more in its slot, the expiries it has had still counting (log entry 35: R129 and R131 do not say); the second fails the bay
and counts it off (R40, R131). -/
def Obligations.ReserveWriteAnswers : Prop :=
  (∀ (s : State) (r : OpRef) (x : Issued) (c : WriteAnswer → Instr) (o : Bool → Owner) (cls : OpClass)
      (ended : State → State) (again : Bool), s.Awaits r x (o again) →
      ((∃ g, o = .spillColumn g ∧ c = .spillColumnWriteEnd r ∧ cls = .mover
            ∧ ended = updStep g (fun t => { t with outstanding := t.outstanding - 1 }))
        ∨ (o = .spillRecord ∧ c = .spillRecordWriteEnd r ∧ cls = .mark ∧ ended = spillRecordEnded)
        ∨ (((o = .label ∧ c = .labelMemberWriteEnd r) ∨ (o = .assemblyLabel ∧ c = .assemblyLabelWriteEnd r)) ∧ cls = .mark
            ∧ ended = fun t => { t with mark :=
                { t.mark with flight := (t.mark.flight.map (fun f => { f with outstanding := f.outstanding - 1 })) } })
        ∨ (o = .tableCopy ∧ c = .planTableCopyEnd r ∧ cls = .mark
            ∧ ended = fun t => { t with plan := { t.plan with copies := t.plan.copies - 1 } })
        ∨ (o = .assemblyCopy ∧ c = .assemblyLabelWriteEnd r ∧ cls = .mark
            ∧ ended = fun t => { t with asm := { t.asm with copies := t.asm.copies - 1 } })
        ∨ (∃ k, o = .planArea k ∧ c = .planAreaWriteEnd r ∧ cls = .mark
            ∧ ended = fun t => { t with plan := { t.plan with areaWrites :=
                (t.plan.areaWrites.map (fun w => if w.index == k && w.begun then { w with left := w.left - 1 } else w)) } })
        ∨ (o = .releasedLabel ∧ c = .releasedLabelWriteEnd r ∧ cls = .mark
            ∧ ended = fun t => { t with plan := { t.plan with released := t.plan.released - 1 } })) →
      ∀ f bs, x.op.kind = .write f bs →
      let i := x.op.slot
      exec (c .good) s = .next (settle (ended (s.freed x)))
      ∧ ∀ first, ∃ u, s.MediaWritten i first u
        ∧ (again = false →
          exec (c (.media first)) s = .next (settle (handReserve i cls x.op.kind (o true) (u.freed x))))
        ∧ (again = true → (o ≠ .releasedLabel →
            exec (c (.media first)) s = .next (settle (ended (failBay i (u.freed x)))))
          ∧ (o = .releasedLabel → exec (c (.media first)) s = .next (settle (ended (u.freed x))))))
  ∧ (∀ (s : State) (r : OpRef) (x : Issued) (a : Nat), s.Awaits r x (.hostFlush a) → x.op.kind = .flush →
      let off := updReq a (fun e => { e with flushes := e.flushes.map (· - 1) })
      exec (.memberFlushEnd r .good) s = .next (settle (off (s.freed x)))
      ∧ ∀ first,
        (x.medias = 0 → ∃ u, exec (.memberFlushEnd r (.media first)) s = .next (settle u)
          ∧ u.bay x.op.slot = { s.bay x.op.slot with
              media := if (s.bay x.op.slot).media < 65535 then (s.bay x.op.slot).media + 1 else (s.bay x.op.slot).media,
              issued := (s.bay x.op.slot).issued.map (fun y =>
                if y.op.id = x.op.id then { y with sending := y.sending + 1, medias := y.medias + 1 } else y) }
          ∧ (∀ j, j ≠ x.op.slot → u.bay j = s.bay j)
          ∧ u.integ.counts = { s.integ.counts with
              mediaWrite := if s.integ.counts.mediaWrite < 65535 then s.integ.counts.mediaWrite + 1 else s.integ.counts.mediaWrite }
          ∧ u.port = s.port
          ∧ u = { s with
              shelf := u.shelf, integ := { s.integ with counts := u.integ.counts, capture := u.integ.capture }
              win := { s.win with events := { s.win.events with dataError := true } } })
        ∧ (x.medias ≠ 0 → ∃ u, s.MediaWritten x.op.slot 0 u
          ∧ exec (.memberFlushEnd r (.media first)) s = .next (settle (off (failBay x.op.slot (u.freed x))))))

/-- The INQUIRE and the label READ of an arrival. A GOOD INQUIRE records serial and capacity, a serial other than the one
recorded clearing the three counters and the remap table, and the label is read next; MEDIA leaves the bay UNREADY, and a bay
that holds a position its role, which the model reads against the letter of R122, role NONE (log entry 33). The label READ makes
it READY with the label it found, and outside the scan with the role of its arrival (R122, R123, R151, R175). -/
def Obligations.ArrivalAnswers : Prop :=
  ∀ (s : State) (r : OpRef) (x : Issued),
    (s.Awaits r x .inquire → x.op.kind = .inquire →
      (∀ serial cap, ∃ v, exec (.inquireEnd r (.good serial cap)) s
          = .next (settle (handReserve x.op.slot .mark (.read 0 2) .labelRead v))
        ∧ (v.bay x.op.slot).readiness = .reading ∧ (v.bay x.op.slot).ident = some (serial, cap)
        ∧ ((s.bay x.op.slot).ident.map (·.1) = some serial →
            (v.bay x.op.slot).media = (s.bay x.op.slot).media ∧ (v.bay x.op.slot).remaps = (s.bay x.op.slot).remaps)
        ∧ ((s.bay x.op.slot).ident.map (·.1) ≠ some serial →
            (v.bay x.op.slot).media = 0 ∧ (v.bay x.op.slot).tagErrors = 0 ∧ (v.bay x.op.slot).timeouts = 0
              ∧ (v.bay x.op.slot).remaps = []))
      ∧ ∃ u, s.MediaRead x.op.slot 0 u ∧ exec (.inquireEnd r .media) s = .next (settle (updBay x.op.slot
          (fun b => { b with
            readiness := .unready, role := (if b.position.isSome then b.role else .none) })
          (u.freed x))))
    ∧ (s.Awaits r x .labelRead → x.op.kind.isRead = true → ∀ ans, ∃ w, exec (.labelReadEnd r ans) s
        = .next (settle (if s.asm.stage = .scan then w
            else updBay x.op.slot (fun b => { b with role := w.arrivalRole x.op.slot }) w))
      ∧ (w.bay x.op.slot).readiness = .ready ∧ (w.bay x.op.slot).role = (s.bay x.op.slot).role
      ∧ (w.bay x.op.slot).labelFound = (w.bay x.op.slot).label.map (fun l => (l.identity, l.generation))
      ∧ (∀ bs, ans = .good bs →
          (w.bay x.op.slot).label = validLabel bs ((s.bay x.op.slot).ident.map (·.1)))
      ∧ (∀ first bs, ans = .media first bs → (w.bay x.op.slot).label = none))

/-- The reads of assembly, each counted off the reads under way, its tag errors counted and a MEDIA captured behind them. A plan
area READ gives the table every record still wanted of which the block and the record's own guard are good, and no other; a
spill record READ a copy when it is valid: a good record of generation G and front F, of 1 to 16 rows that fit the staging
blocks and F_end, with the block bounds of R17; a spill column READ each place that waits for it. One that ends outside its
stage is discarded (R17, R47, R142, R181, R182, R183, R204). -/
def Obligations.AssemblyReadAnswers : Prop :=
  ∀ (s : State) (r : OpRef) (x : Issued) (ans : ReadAnswer), x.op.kind.isRead = true →
    let i := x.op.slot
    let bs := (readResult ans).blocks
    let v := s.freed x
    let late (u w : State) : Prop := match ans with | .good _ => w = u | .media f _ => u.MediaRead i f w
    let read (u : State) : Prop :=
      u = { v with shelf := u.shelf, integ := u.integ, win := u.win, plan := u.plan, asm := u.asm, mover := u.mover }
      ∧ (∀ j, j ≠ i → u.bay j = v.bay j) ∧ u.bay i = { v.bay i with tagErrors := (u.bay i).tagErrors }
    (s.Awaits r x .assemblyPlanRead → ∀ k0, x.op.kind.span.1 = Config.planBase + k0 →
      let got (k : Nat) : Option PlanRecord :=
        if k0 ≤ k ∧ k < k0 + x.op.kind.span.2 then (bs[k - k0]?).bind (areaRecord k) else none
      (s.asm.stage = .loading → ∃ u z, exec (.planAreaReadEnd r ans) s = .next (settle z) ∧ late u z ∧ read u
        ∧ u.mover = s.mover ∧ u.plan = { s.plan with table := u.plan.table }
        ∧ u.plan.table.length = s.plan.table.length
        ∧ (∀ k, k < s.plan.table.length → u.plan.table[k]? =
            if s.asm.wanted.contains k then (got k).orElse (fun _ => s.plan.table[k]?) else s.plan.table[k]?)
        ∧ u.asm = { s.asm with reads := s.asm.reads - 1, wanted := s.asm.wanted.filter (fun k => (got k).isNone) })
      ∧ (s.asm.stage ≠ .loading → ∃ z, exec (.planAreaReadEnd r ans) s = .next (settle z) ∧ late v z))
    ∧ (s.Awaits r x .assemblySpillRead →
      let valid (c : SpillRecord) : Prop := ∃ o n, s.growing = some (o, n) ∧ c.generation = s.mark.generation
        ∧ c.front = s.mark.front ∧ 1 ≤ c.rows ∧ c.rows ≤ 16 ∧ c.rows ≤ 8192 / (n.unit * n.n)
        ∧ c.rows ≤ growthEnd o n - s.mark.front ∧ c.first = c.front * n.rowBlocks
        ∧ c.stop = min ((c.front + c.rows) * n.rowBlocks) o.capacity
      (s.asm.stage = .records → ∃ u z, exec (.spillRecordReadEnd r ans) s = .next (settle z) ∧ late u z ∧ read u
        ∧ u.mover = s.mover ∧ u.plan = s.plan ∧ u.asm = { s.asm with reads := s.asm.reads - 1, spills := u.asm.spills }
        ∧ (∀ c, (bs.head?).bind spillOf = some c → valid c → u.asm.spills = s.asm.spills ++ [(i, c)])
        ∧ ((∀ c, (bs.head?).bind spillOf = some c → ¬valid c) → u.asm.spills = s.asm.spills))
      ∧ (s.asm.stage ≠ .records → ∃ z, exec (.spillRecordReadEnd r ans) s = .next (settle z) ∧ late v z))
    ∧ (s.Awaits r x .assemblyColumnRead →
      (∀ t, s.asm.stage = .columns → s.mover.slotA = some t →
        ∃ u z f, exec (.spillColumnReadEnd r ans) s = .next (settle z) ∧ late u z ∧ read u
        ∧ u.mover = { s.mover with slotA := some { t with fetch := f, outstanding := t.outstanding - 1 } }
        ∧ u.plan = s.plan ∧ u.asm = { s.asm with reads := s.asm.reads - 1 }
        ∧ (∀ c ∈ t.fetch.waitingFor x.op.id, f.at c = some
            (match bs[(c.row - t.front) * t.fetch.layout.unit + c.off]? with
            | none => .bad
            | some b => match t.fetch.layout.judge c b with | .good => .got b | .poison => .poison b | .tagError => .bad))
        ∧ (∀ c, c ∉ t.fetch.waitingFor x.op.id → f.at c = t.fetch.at c))
      ∧ ((s.asm.stage ≠ .columns ∨ s.mover.slotA = none) →
        ∃ z, exec (.spillColumnReadEnd r ans) s = .next (settle z) ∧ late v z))

/-! ## The address map, growth steps and the safe row -/

/-- The address map and its inverse: a logical block's place is in its row, at a position other than the row's parity, and the
reverse arithmetic gives the block back; every place that is not parity is the place of the block it gives; a parity place
has no logical block; the parity position begins at the last, moves one lower each row and returns after N rows (R5, R6,
R8). -/
def Obligations.AddressMapInverse : Prop :=
  ∀ l : Layout, 2 ≤ l.n → 1 ≤ l.unit →
    (∀ a, (l.cellOf a).row = a / (l.unit * l.d) ∧ (l.cellOf a).pos < l.n ∧ (l.cellOf a).off < l.unit
      ∧ (l.cellOf a).pos ≠ l.parity (l.cellOf a).row ∧ l.lbaOf (l.cellOf a) = some a
      ∧ (a < l.capacity → (l.cellOf a).row < l.rows))
    ∧ (∀ c : Cell, c.pos < l.n → c.off < l.unit → c.pos ≠ l.parity c.row →
        ∃ a, l.lbaOf c = some a ∧ l.cellOf a = c ∧ (c.row < l.rows → a < l.capacity))
    ∧ (∀ c : Cell, c.pos = l.parity c.row → l.lbaOf c = none)
    ∧ l.parity 0 = l.n - 1
    ∧ ∀ row, l.parity row < l.n ∧ l.parity (row + l.n) = l.parity row
        ∧ l.parity (row + 1) = (if l.parity row = 0 then l.n - 1 else l.parity row - 1)

/-- A growth's end row and a step's size, range and source: F_end is the first row past the old data, between 1 and R; the
effective size is the largest of 1 and the least of the size wanted, 16 and 8192 / (U × N), which is 1 to 16 and fits a staging
slot; a step's range is not empty, ends at the old capacity at the latest, and
its source is whole OLD units that hold exactly the range, in the rows R17 names (R15, R16, R17). -/
def Obligations.GrowthStepArithmetic : Prop :=
  ∀ o n : Layout, o.unit = n.unit → o.rows = n.rows → 1 ≤ n.unit → n.unit ≤ 256 → 1 ≤ n.rows → 2 ≤ o.n → o.n < n.n →
    n.n ≤ 32 →
    (1 ≤ growthEnd o n ∧ growthEnd o n ≤ n.rows ∧ o.capacity ≤ growthEnd o n * n.rowBlocks
      ∧ (growthEnd o n - 1) * n.rowBlocks < o.capacity)
    ∧ (∀ wanted, effectiveStep wanted n = max 1 (min wanted (min 16 (8192 / (n.unit * n.n)))))
    ∧ (∀ wanted, 1 ≤ wanted → 1 ≤ effectiveStep wanted n ∧ effectiveStep wanted n ≤ wanted ∧ effectiveStep wanted n ≤ 16
      ∧ effectiveStep wanted n * (n.unit * n.n) ≤ 8192)
    ∧ (∀ front w, 1 ≤ w → front + w ≤ growthEnd o n →
      let first := front * n.rowBlocks
      let stop := stepStop o n front w
      first < stop ∧ stop ≤ o.capacity
      ∧ (front + w < growthEnd o n → stop = (front + w) * n.rowBlocks)
      ∧ (growthSource o first stop).length * o.unit = stop - first
      ∧ (∀ u ∈ growthSource o first stop, front * n.d / o.d ≤ u.row ∧ u.row ≤ (stop - 1) / (o.unit * o.d))
      ∧ (∀ a, first ≤ a → a < stop →
          ({ row := (o.cellOf a).row, pos := (o.cellOf a).pos } : RowUnit) ∈ growthSource o first stop))

/-- The safe row of the persisted mark: defined while OLD and NEW are in force, floor(Fm × D_new / D_old), at least Fm,
greater for every greater Fm, and reported on the front page (R86). -/
def Obligations.SafeRowOfMark : Prop :=
  ∀ s : State, (s.growing = none → s.safeRow = none ∧ fieldAt s.frontPage 80 8 = 0)
    ∧ ∀ o n, s.growing = some (o, n) → 2 ≤ o.n → o.n < n.n →
      s.safeRow = some (s.mark.front * n.d / o.d) ∧ s.mark.front ≤ s.mark.front * n.d / o.d
      ∧ (∀ t : State, t.growing = some (o, n) → s.mark.front < t.mark.front →
          ∃ a b, s.safeRow = some a ∧ t.safeRow = some b ∧ a < b)
      ∧ (s.mark.front * n.d / o.d < 2 ^ 64 → fieldAt s.frontPage 80 8 = s.mark.front * n.d / o.d)

/-! ## The mover -/

/-- When the mover begins a step, and the record it begins with. The row is F, or the one behind the step past FREEZE. A step
begins exactly when the engine is RUNNING or SETTLING in a phase, nothing bars it, no step gathers, a slot is free and the row
lies below the end row. It takes slot A when that is free, its size is fixed by the tuning in force, and the rest of the record
is empty. A MIGRATE step asks in the mover class for each source unit whole, or in place of one at a missing position for every
other unit of its row that is not missing, no unit twice, and counts its operations; a REBUILD step does so of position q's
units while that position is missing, and else reads the column, cut at remapped rows; a FORM step reads nothing; a SETTLE step
takes the next arrival number and joins the row lock entries of its rows, or queues for them (R48, R49, R51, R67 to R69). -/
def Obligations.MoverBegins : Prop :=
  ∀ (s : State) (row : Nat) (l : Layout), s.written = some l → 1 ≤ l.unit →
    (∀ o n, s.growing = some (o, n) → 1 ≤ o.unit) →
    let frozen (g : Staging) (t : Step) : Prop :=
      s.stepIn g = some t ∧ (t.stage = .freeze ∨ t.stage = .spill ∨ t.stage = .place ∨ t.stage = .mark)
    (∀ g h t v, frozen g t → frozen h v → g = h) →
    (∃ g t, frozen g t ∧ row = t.front + t.rows) ∨ ((∀ g t, ¬frozen g t) ∧ row = s.mover.front) →
    let rows := min (effectiveStep s.ctl.tuning.stepRows l) (s.endRow - row)
    let g : Staging := if s.mover.slotA = none then .a else .b
    ((ruleBegin s).isSome = true ↔
      (s.ctl.state = .running ∨ s.ctl.state = .settling) ∧ s.mover.phase ≠ .none ∧ s.ctl.pauseRequest = false
        ∧ s.ctl.faultPending = false ∧ s.plan.incomingLost = false ∧ s.plan.dropAsked = false
        ∧ (∀ h t, s.stepIn h = some t → t.stage ≠ .gather) ∧ (s.mover.slotA = none ∨ s.mover.slotB = none)
        ∧ row < s.endRow)
    ∧ ∀ u, ruleBegin s = some u → ∃ t, u.stepIn g = some t ∧ (∀ h, h ≠ g → u.stepIn h = s.stepIn h)
      ∧ t.kind = s.mover.phase ∧ t.front = row ∧ t.rows = rows ∧ t.stage = .gather ∧ t.stained = [] ∧ t.stains = 0
      ∧ t.pinned = false ∧ t.spill = false ∧ t.handed = false ∧ u.mover.front = s.mover.front ∧ u.mover.phase = s.mover.phase
      ∧ u.out = s.out ∧ u.holds = s.holds ∧ u.mark = s.mark ∧ u.plan = s.plan ∧ u.ctl = s.ctl ∧ u.win = s.win
      ∧ (t.kind ≠ .settle → t.arrival = none ∧ u.port = s.port ∧ u.locks = s.locks)
      ∧ (let asks (m : Layout) : Prop :=
          (∀ v : RowUnit, v ∈ t.readSet ↔ s.missingInRow m v.row v.pos = false ∧
            (v ∈ t.source ∨ (v.pos < m.n ∧ ∃ w ∈ t.source, w.row = v.row ∧ w.pos ≠ v.pos ∧ s.missingInRow m w.row w.pos = true)))
          ∧ t.readSet.Nodup ∧ t.outstanding = t.readSet.length
          ∧ (let v := t.readSet.foldl (fun (x : State) w => match s.bayAt m w.row w.pos with
                | some i => handUnit i .mover m.unit w.row 0 (fun b => .read b m.unit) (.gather g) x
                | none => x) s
             u.shelf = v.shelf ∧ u.integ = v.integ ∧ u.todo = v.todo ++ [.stepAdvance g])
         (∀ o n, s.mover.phase = .migrate → s.growing = some (o, n) →
            t.first = row * n.rowBlocks ∧ t.stop = min ((row + rows) * n.rowBlocks) o.capacity
            ∧ t.source = growthSource o t.first t.stop ∧ asks o)
         ∧ (∀ inc, s.mover.phase = .rebuild → s.plan.incoming = some inc →
            t.source = (List.range rows).map (fun k => { row := row + k, pos := inc.q })
            ∧ (∀ i, s.bayAt l row inc.q = some i → s.roleMissing i = true → asks l)
            ∧ (s.bayAt l row inc.q = none → asks l)
            ∧ (∀ i, s.bayAt l row inc.q = some i → s.roleMissing i = false → s.mover.front ≤ row →
                let v := (cutRows s i row rows).foldl (fun (x : State) r =>
                  handUnit i .mover l.unit r.1 0 (fun b => .read b (r.2 * l.unit)) (.gather g) x) s
                u.shelf = v.shelf ∧ u.integ = v.integ ∧ u.todo = v.todo ++ [.stepAdvance g])))
      ∧ (s.mover.phase = .form → t.source = [] ∧ t.readSet = [] ∧ t.outstanding = 0 ∧ u.shelf = s.shelf ∧ u.integ = s.integ
        ∧ u.todo = s.todo ++ [.stepAdvance g])
      ∧ (s.mover.phase = .settle → t.source = [] ∧ t.readSet = [] ∧ t.outstanding = 0 ∧ u.shelf = s.shelf ∧ u.integ = s.integ
        ∧ u.todo = s.todo ∧ t.granted = false ∧ t.arrival = some s.port.nextArrival
        ∧ u.port = { s.port with nextArrival := s.port.nextArrival + 1 }
        ∧ (let a := s.port.nextArrival
           let keys : List Key := (List.range rows).map (fun k => { layout := .new, row := row + k })
           ((s.locks.entries.length + (s.newKeys keys).length ≤ 160 ∧ ∀ q ∈ s.locks.queued, a < q.arrival) →
              u.locks.queued = s.locks.queued ∧ ∀ k ∈ keys, ∃ e ∈ u.locks.entries, e.key = k ∧ ∃ w ∈ e.waiters, w.arrival = a)
           ∧ (¬(s.locks.entries.length + (s.newKeys keys).length ≤ 160 ∧ ∀ q ∈ s.locks.queued, a < q.arrival) →
              u.locks.entries = s.locks.entries
              ∧ ∃ before after, s.locks.queued = before ++ after ∧ (∀ q ∈ before, q.arrival ≤ a)
                ∧ u.locks.queued = before ++ [{ arrival := a, write := true, keys := keys }] ++ after)))

/-- Stains, recopies and pins. A host write's member WRITE that ends at some rows of a bay stains each unit of a gathering
step's read set that the bay holds there, at the end of the list and once. A gathered step with stains is recopied: the list
is emptied, the count rises to at most 7, the step is pinned when the count reaches the stain limit, and each stained unit that
is not missing is asked for again whole, in one READ; where a stained source unit is missing, the units of its row that it does
not hold are asked for. What it held of stained units goes, and what it had rebuilt or lost in their rows is to be made again.
A lowered limit pins a gathering step whose count has reached it (R51, R53, R54, R55). -/
def Obligations.StainsAndRecopies : Prop :=
  (∀ (s : State) (i : Slot) (rows : List Nat) (g : Staging) (t : Step), s.stepIn g = some t →
    ∃ v, (stainSteps i rows s).stepIn g = some v ∧ v = { t with stained := v.stained }
      ∧ (t.stage ≠ .gather → v = t)
      ∧ (t.stage = .gather →
        (∀ w, w ∈ v.stained ↔ w ∈ t.stained
          ∨ (w ∈ t.readSet ∧ w.row ∈ rows ∧ s.bayAt t.fetch.layout w.row w.pos = some i))
        ∧ (∃ more, v.stained = t.stained ++ more) ∧ (t.stained.Nodup → v.stained.Nodup)))
  ∧ (∀ (s : State) (g : Staging) (t : Step), s.stepIn g = some t → ∃ v, (repin s).stepIn g = some v
      ∧ v = { t with pinned := v.pinned }
      ∧ (v.pinned = true ↔ t.pinned = true ∨ (t.stage = .gather ∧ s.ctl.tuning.stainLimit ≤ t.stains)))
  ∧ (∀ (s : State) (g : Staging) (t : Step), s.stepIn g = some t → t.stage = .gather → t.stained ≠ [] →
      (t.kind = .migrate ∨ t.kind = .rebuild) → t.fetch.done = true → 1 ≤ t.fetch.layout.unit →
      (∀ h v, h ≠ g → s.stepIn h = some v → v.stage ≠ .gather) →
      let m := t.fetch.layout
      let held (w : RowUnit) : Prop := ∃ x ∈ t.fetch.cells, x.1.row = w.row ∧ x.1.pos = w.pos
      let gone (w : RowUnit) : Prop := s.missingInRow m w.row w.pos = true
      ∃ (u : State) (v : Step) (again : List RowUnit), ruleRecopy s = some u ∧ u.stepIn g = some v ∧ (∀ h, h ≠ g → u.stepIn h = s.stepIn h)
        ∧ v = { t with
            stained := [], stains := min 7 (t.stains + 1), pinned := v.pinned
            readSet := v.readSet, outstanding := v.outstanding, fetch := v.fetch }
        ∧ (v.pinned = true ↔ t.pinned = true ∨ s.ctl.tuning.stainLimit ≤ min 7 (t.stains + 1))
        ∧ (∀ w, w ∈ again ↔ ¬gone w ∧ (w ∈ t.stained
            ∨ (¬held w ∧ w.pos < m.n ∧ ∃ x ∈ t.stained, x ∈ t.source ∧ gone x ∧ x.row = w.row ∧ x.pos ≠ w.pos)))
        ∧ again.Nodup ∧ v.outstanding = again.length ∧ (∀ w, w ∈ v.readSet ↔ w ∈ t.readSet ∨ w ∈ again)
        ∧ (let z := again.foldl (fun (x : State) w => match s.bayAt m w.row w.pos with
              | some i => handUnit i .mover m.unit w.row 0 (fun b => .read b m.unit) (.gather g) x
              | none => x) s
           u = { s with mover := u.mover, shelf := z.shelf, integ := z.integ, todo := z.todo ++ [.stepAdvance g] })
        ∧ (∀ w ∈ again, ∀ o, o < m.unit → ∃ id, v.fetch.at { row := w.row, pos := w.pos, off := o } = some (.waiting id)
            ∧ s.shelf.nextOp ≤ id)
        ∧ (∀ c, ({ row := c.row, pos := c.pos } : RowUnit) ∉ t.stained → ({ row := c.row, pos := c.pos } : RowUnit) ∉ again →
            (∃ w ∈ t.stained, w.row = c.row) → ((∃ b, t.fetch.at c = some (.rebuilt b)) ∨ ∃ o, t.fetch.at c = some (.lost o)) →
            v.fetch.at c = some .bad)
        ∧ (∀ c, ({ row := c.row, pos := c.pos } : RowUnit) ∉ t.stained → ({ row := c.row, pos := c.pos } : RowUnit) ∉ again →
            (∀ w ∈ t.stained, w.row ≠ c.row) → v.fetch.at c = t.fetch.at c))

/-- FREEZE and what it builds, and the pre-place decision. A gathering step freezes exactly when its gathering is finished with
no stains, no step is past FREEZE, and, for a MIGRATE or REBUILD step, no unfinished row of a host write has a block in the step
and no operation of a host write, a remapping included, is on a unit of its read set. It then builds its rows: a data place of a
MIGRATE step below the old capacity has the block gathered for its logical address, or poison where that block was lost; every
other data place a zero block; the parity place the parity of the row's data, poison counting as zero; a REBUILD step has for
each place of position q the block gathered, or, where that is lost, the parity of the row's data as it stands for a parity place
and poison for a data place. The mark state leaves INITIAL and CLEAN for DIRTY. A built MIGRATE step whose last row is not below
the safe row of the mark spills when Fm is its front, and else asks once for a forced mark and waits; every other step enters
PLACE (R52, R56, R57, R67 to R70, R79, R87, R88). -/
def Obligations.FreezeAndDecide : Prop :=
  (∀ (s : State) (l : Layout) (g : Staging) (t : Step), s.written = some l → s.stepIn g = some t → t.stage = .gather →
      (∀ h v, h ≠ g → s.stepIn h = some v → v.stage ≠ .gather) →
    let finished : Prop :=
      (t.kind = .settle → t.granted = true)
      ∧ (t.kind = .migrate ∨ t.kind = .rebuild →
          (∀ x ∈ t.fetch.cells, ∀ id, x.2 ≠ .waiting id)
          ∧ ∀ c ∈ t.fetch.wanted, ∃ v, t.fetch.at c = some v ∧ v ≠ .bad ∧ ∀ id, v ≠ .waiting id)
    let meets (w : RowWork) : Prop :=
      (t.kind = .migrate ∧ ∃ b, t.first ≤ b ∧ b < t.stop ∧ w.row * w.layout.rowBlocks ≤ b ∧ b < (w.row + 1) * w.layout.rowBlocks)
      ∨ (t.kind = .rebuild ∧ t.front ≤ w.row ∧ w.row < t.front + t.rows)
    let reads (i : Slot) (row : Nat) : Prop :=
      ∃ x ∈ t.readSet, x.row = row ∧ s.bayAt t.fetch.layout x.row x.pos = some i
    let writes (op : MemberOp) : Prop := ∃ a k, op.owner = .hostWriteRead a k ∨ op.owner = .hostWriteWrite a k
    let have_ (a : Nat) : Bool × Block :=
      if t.kind = .migrate ∧ a < t.stop then
        match t.fetch.at (t.fetch.layout.cellOf a) with
        | some (.got b) => (false, b)
        | some (.rebuilt b) => (false, b)
        | some (.poison b) => (true, b)
        | _ => (true, poisonBlock)
      else (false, zeroBlock a)
    (t.kind ≠ .none → t.first < t.stop ∨ t.kind ≠ .migrate → (∀ e ∈ s.port.entries, ∀ w ∈ e.rows, 1 ≤ w.layout.rowBlocks) →
      ((ruleFreeze s).isSome = true ↔ finished ∧ t.stained = []
        ∧ (∀ h v, s.stepIn h = some v → v.stage ≠ .freeze ∧ v.stage ≠ .spill ∧ v.stage ≠ .place ∧ v.stage ≠ .mark)
        ∧ (t.kind = .migrate ∨ t.kind = .rebuild →
            (∀ e ∈ s.port.entries, ∀ w ∈ e.rows, (∀ o, w.stage ≠ .finished o) → ¬meets w)
            ∧ (∀ op ∈ s.allOps, writes op → ∀ row ∈ s.rowsOf op, ¬reads op.slot row)
            ∧ (∀ f ∈ s.integ.fills, writes f.failed → ¬reads f.slot f.row))))
    ∧ ∀ u, ruleFreeze s = some u → ∃ v, u.stepIn g = some v ∧ (∀ h, h ≠ g → u.stepIn h = s.stepIn h)
      ∧ v = { t with stage := .freeze, built := v.built, lost := v.lost, repairs := v.repairs, fetch := v.fetch }
      ∧ u = { s with
          mover := u.mover
          mark := { s.mark with state := if s.mark.state = .off then .off else .dirty }
          integ := { s.integ with candidates := s.integ.candidates.filter (fun c => c.reader != .step g) } }
      ∧ (t.kind ≠ .rebuild → 2 ≤ l.n → ∀ row, t.front ≤ row → row < t.front + t.rows → ∀ o, o < l.unit →
          let lba (d : Nat) : Nat := row * l.rowBlocks + d * l.unit + o
          (∀ d, d < l.d → (v.column (l.dataPos row d) row 1)[o]? = some (have_ (lba d)).2)
          ∧ (v.column (l.parity row) row 1)[o]? = some (parityBlock ((List.range l.d).map (fun d =>
              if (have_ (lba d)).1 then (zeroData, 0#16) else ((have_ (lba d)).2.data, (have_ (lba d)).2.app)))))
      ∧ (t.kind = .migrate → ∀ c, c ∈ v.lost ↔ ∃ a, t.first ≤ a ∧ a < t.stop ∧ c = l.cellOf a
          ∧ ∀ b, t.fetch.at (t.fetch.layout.cellOf a) ≠ some (.got b) ∧ t.fetch.at (t.fetch.layout.cellOf a) ≠ some (.rebuilt b)
            ∧ t.fetch.at (t.fetch.layout.cellOf a) ≠ some (.poison b))
      ∧ (t.kind = .rebuild → ∀ x ∈ t.source, ∀ o, o < l.unit →
          let c : Cell := { row := x.row, pos := x.pos, off := o }
          (∀ b, t.fetch.at c = some (.got b) ∨ t.fetch.at c = some (.rebuilt b) ∨ t.fetch.at c = some (.poison b) →
            (v.column x.pos x.row 1)[o]? = some b)
          ∧ (∀ k, t.fetch.at c = some (.lost k) → x.pos ≠ l.parity x.row → (v.column x.pos x.row 1)[o]? = some poisonBlock)
          ∧ (∀ k, t.fetch.at c = some (.lost k) → x.pos = l.parity x.row →
            (v.column x.pos x.row 1)[o]? = some (parityBlock ((l.dataPositions x.row).map (fun p =>
              match Fetch.knows s t.fetch { c with pos := p } with
              | .known false b => (b.data, b.app)
              | _ => (zeroData, 0#16))))))
  )
  ∧ (∀ (s : State) (g : Staging) (t : Step), s.stepIn g = some t → t.stage = .freeze → 1 ≤ t.rows →
      (∀ h v, h ≠ g → s.stepIn h = some v → v.stage ≠ .freeze) →
    let mustSpill : Prop :=
      t.kind = .migrate ∧ ∃ o n, s.growing = some (o, n) ∧ s.mark.front * n.d / o.d < t.front + t.rows
    let entered (stage : Stage) (spill : Bool) (bar : Option Nat) : Prop :=
      ∃ u, ruleDecide s = some u ∧ u.stepIn g = some { t with stage := stage, handed := false, outstanding := 0, spill := spill }
        ∧ (∀ h, h ≠ g → u.stepIn h = s.stepIn h) ∧ u = { s with mover := u.mover, mark := { s.mark with bar := bar } }
    (¬mustSpill → entered .place t.spill s.mark.bar)
    ∧ (mustSpill → s.mark.front = t.front → entered .spill true (some t.front))
    ∧ (mustSpill → s.mark.front ≠ t.front → (∀ c ∈ s.mark.causes, c.kind ≠ .forced t.front) →
        ruleDecide s = some { s with
          mark := { s.mark with causes := s.mark.causes ++ [{ kind := .forced t.front, served := false }] } })
    ∧ (mustSpill → s.mark.front ≠ t.front → (∃ c ∈ s.mark.causes, c.kind = .forced t.front) → ruleDecide s = none))

/-- SPILL, PLACE and the end of a step. A step in SPILL hands a WRITE of its column at member block 1024 to each position that is
not missing, in position order and the mover class; when all have ended it asks for the spill record, which is written in the
mark class to each present one of them once no label write is in flight, naming the step and the generation of the mark; when
those have ended the record stands and the step enters PLACE. A step in PLACE waits while a host read is in flight on blocks it
will write, then hands its writes over, each present position's column cut at remapped rows. When they have ended, poison
written is captured and DATA_LOST raised, a SETTLE step gives up its keys, and the step enters MARK with its STEP cause waiting
when a mark is due: it spilled, the interval is reached, it ends the migration, or a held request lies in the unmarked band.
Otherwise it retires: F passes it, its record goes, the requests held for it are released in order, it counts as unmarked, the
mark state follows, a migration that has reached its end row becomes SETTLE, and a missing count that has changed with the front
is reported (R46, R58 to R62, R65, R79, R89, R92). -/
def Obligations.SpillPlaceRetire : Prop :=
  ∀ (s : State) (l : Layout) (g : Staging) (t : Step), s.written = some l → s.stepIn g = some t →
    let others (stage : Stage) : Prop := ∀ h v, h ≠ g → s.stepIn h = some v → v.stage ≠ stage
    let step (u : State) (v : Step) : Prop := u.stepIn g = some v ∧ ∀ h, h ≠ g → u.stepIn h = s.stepIn h
    (t.stage = .spill → others .spill →
      (t.handed = false → ∃ (u : State) (targets : List (Nat × Slot)), ruleSpill s = some u
        ∧ (∀ p i, (p, i) ∈ targets ↔ p < l.n ∧ s.missing l p = false ∧ l.slotAt p = some i)
        ∧ targets.Pairwise (fun x y => x.1 < y.1)
        ∧ step u { t with handed := true, outstanding := targets.length }
        ∧ (let z := targets.foldl (fun (x : State) p =>
              handReserve p.2 .mover (.write 1024 (t.column p.1 t.front t.rows)) (.spillColumn g false) x) s
           u = { s with mover := u.mover, shelf := z.shelf, todo := z.todo }))
      ∧ (t.handed = true → t.outstanding ≠ 0 → ruleSpill s = none)
      ∧ (t.handed = true → t.outstanding = 0 → (s.mark.spill = .none ∨ ∃ r, s.mark.spill = .standing r) →
          ruleSpill s = some { s with mark := { s.mark with spill := .asked g } })
      ∧ (s.mark.spill = .asked g → s.mark.flight ≠ none → ruleSpillRecord s = none)
      ∧ (s.mark.spill = .asked g → s.mark.flight = none → ∃ (u : State) (targets : List Slot), ruleSpillRecord s = some u
        ∧ (let r : SpillRecord :=
             { front := t.front, rows := t.rows, first := t.first, stop := t.stop, generation := s.mark.generation }
           let z := targets.foldl (fun (x : State) i =>
             handReserve i .mark (.write 1023 [spillBlock r]) (.spillRecord false) x) s
           (∀ i, i ∈ targets ↔ ∃ p, p < l.n ∧ s.missing l p = false ∧ l.slotAt p = some i ∧ (s.bay i).present = true)
           ∧ u = { s with mark := { s.mark with spill := .writing g r targets.length }, shelf := z.shelf, todo := z.todo }))
      ∧ (∀ r, s.mark.spill = .writing g r 0 → ∃ u, ruleSpillRecord s = some u
        ∧ step u { t with stage := .place, handed := false, outstanding := 0 }
        ∧ u = { s with mover := u.mover, mark := { s.mark with spill := .standing r } })
      ∧ (∀ r n, s.mark.spill = .writing g r (n + 1) → ruleSpillRecord s = none))
    ∧ (t.stage = .place → others .place →
      (t.handed = false → (t.kind ≠ .rebuild → ∀ w, w ∈ t.placeWrites s l ↔ ∃ p i r n, p < l.n ∧ s.missing l p = false
          ∧ l.slotAt p = some i ∧ (r, n) ∈ cutRows s i t.front t.rows
          ∧ w = { slot := i, row := r, off := 0, blocks := t.column p r n })
        ∧ ((∃ w ∈ t.placeWrites s l, ∃ op ∈ s.allOps, (∃ a k, op.owner = .hostRead a k) ∧ op.slot = w.slot
              ∧ op.kind.span.1 < s.physical w.slot l.unit w.row w.off + w.blocks.length
              ∧ s.physical w.slot l.unit w.row w.off < op.kind.span.1 + op.kind.span.2) → rulePlace s = none)
        ∧ ((∀ w ∈ t.placeWrites s l, ∀ op ∈ s.allOps, (∃ a k, op.owner = .hostRead a k) → op.slot = w.slot →
              op.kind.span.1 < s.physical w.slot l.unit w.row w.off + w.blocks.length →
              ¬s.physical w.slot l.unit w.row w.off < op.kind.span.1 + op.kind.span.2) →
            ∃ u, rulePlace s = some u ∧ step u { t with handed := true, outstanding := (t.placeWrites s l).length }
              ∧ (let z := (t.placeWrites s l).foldl (fun (x : State) w =>
                   handUnit w.slot .mover l.unit w.row w.off (fun b => .write b w.blocks) (.place g) x) s
                 u = { s with mover := u.mover, shelf := z.shelf, integ := z.integ, todo := z.todo })))
      ∧ (t.handed = true → t.outstanding = 0 → t.restore = false →
        let due : Prop := t.spill = true ∨ s.ctl.tuning.markInterval ≤ s.mark.unmarked + 1
          ∨ (t.kind = .migrate ∧ t.front + t.rows = s.growthEnd)
          ∨ ∃ h ∈ s.holds, ∃ e, s.req h.arrival = some e ∧ s.inBand e.lba e.count = true
        let kept (w : State) : Prop :=
          w = { s with todo := w.todo, locks := w.locks, holds := w.holds, mover := w.mover, mark := w.mark, win := w.win
                       integ := { s.integ with capture := w.integ.capture, counts := w.integ.counts } }
          ∧ (t.poisoned = [] → w.win = s.win ∧ w.integ = s.integ)
          ∧ (t.poisoned ≠ [] → w.win = { s.win with events := { s.win.events with dataError := true, dataLost := true } }
              ∧ w.integ.capture ≠ none
              ∧ (s.integ.counts.poisonWritten ≤ 65535 →
                  w.integ.counts.poisonWritten = min 65535 (s.integ.counts.poisonWritten + t.poisoned.length)))
          ∧ (t.arrival = none → w.locks = s.locks)
          ∧ (∀ a, t.arrival = some a →
              (∀ e ∈ w.locks.entries, e.holder ≠ some a ∧ a ∉ e.readers ∧ ∀ x ∈ e.waiters, x.arrival ≠ a)
              ∧ ∀ q ∈ w.locks.queued, q.arrival ≠ a)
        (due → ∃ u, rulePlaced s = some u ∧ kept u ∧ step u { t with stage := .mark, handed := false, outstanding := 0 }
          ∧ u.mover.front = s.mover.front ∧ u.mover.phase = s.mover.phase ∧ u.holds = s.holds ∧ u.todo = s.todo
          ∧ u.mark = { s.mark with causes := u.mark.causes }
          ∧ (∃ c ∈ u.mark.causes, c.kind = .step (t.front + t.rows) ∧ c.served = false)
          ∧ ∀ c, c.kind ≠ .step (t.front + t.rows) → (c ∈ u.mark.causes ↔ c ∈ s.mark.causes))
        ∧ (¬due → ∃ (u w : State), rulePlaced s = some u ∧ u = (if w.counts = s.ctl.lastReport then w else reportCounts w) ∧ kept w
          ∧ w.stepIn g = none ∧ (∀ h, h ≠ g → w.stepIn h = s.stepIn h)
          ∧ w.mover.front = t.front + t.rows
          ∧ (s.mover.phase = .migrate → t.front + t.rows = s.growthEnd → w.mover.phase = .settle)
          ∧ (¬(s.mover.phase = .migrate ∧ t.front + t.rows = s.growthEnd) → w.mover.phase = s.mover.phase)
          ∧ w.holds = s.holds.filter (fun h => h.reason != .step t.front)
          ∧ w.todo = s.todo ++ (s.holds.filter (fun h => h.reason == .step t.front)).map (fun h => Ev.release h.arrival)
          ∧ w.mark = { s.mark with unmarked := s.mark.unmarked + 1, state := w.mark.state }
          ∧ ((s.mark.state = .off ∨ s.mark.state = .initial) → w.mark.state = s.mark.state)
          ∧ ((s.mark.state = .clean ∨ s.mark.state = .dirty) →
              (w.mark.state = .clean ↔ t.front + t.rows = s.mark.front
                ∧ ∀ h v, h ≠ g → s.stepIn h = some v →
                    v.stage ≠ .freeze ∧ v.stage ≠ .spill ∧ v.stage ≠ .place ∧ v.stage ≠ .mark)
              ∧ (w.mark.state = .clean ∨ w.mark.state = .dirty)))))

/-! ## Row locks, labels and the arbiter -/

/-- A grant is all of a waiter's keys together: a write becomes the only holder of each entry, with no readers, a read one of
its readers, with no holder; no waiter of an earlier arrival number that it would pass is left in them, the granted one
leaves every waiter list, and the entries of other keys stay as they are (R27, R28). -/
def Obligations.GrantTakesAllKeys : Prop :=
  ∀ (s : State) (a : Nat) (write : Bool) (ks : List Key), (s.locks.entries.map (·.key)).Nodup →
    s.grantable a write ks = true →
    let t := grantKeys a write ks s
    (∀ k ∈ ks, ∃ e ∈ t.locks.entries, e.key = k)
    ∧ (∀ e ∈ t.locks.entries, e.key ∈ ks →
        (write = true → e.holder = some a ∧ e.readers = [] ∧ ∀ w ∈ e.waiters, a < w.arrival)
        ∧ (write = false → e.holder = none ∧ a ∈ e.readers ∧ ∀ w ∈ e.waiters, w.write = true → a < w.arrival))
    ∧ (∀ e, e.key ∉ ks → e.used = true → (e ∈ t.locks.entries ↔ e ∈ s.locks.entries))
    ∧ t = { s with locks := { s.locks with entries := t.locks.entries } }

/-- Label writes (R65, R80 to R85, R91, R155, R192). One begins at once when a cause waits, none is in flight, the engine is not
HALTED with RECOVERY_FAILED, and no spill bar is set or a STEP cause waits. The SOFT entries of each bay a REMAPS cause names become
HARD unless filling; the write notes G + 1, u and the placed front (F_s + W' of a step in MARK, else F; 0 for a closing or removing
write), serves every waiting cause and known loss, and hands the label in the mark class to each present MEMBER or JOINING bay, each
copy with the seat its own entries give the bay. The label carries the identity, the layouts with their missing positions, the
plan, phase, mark state (CLEAN for DIRTY), chain, capacity and incoming record as they stand, or for a closing or removal write the
layout that will stand alone, no plan and the chain as the plan's end will leave it. At its completion the STEP and FORCED causes
that the mark front reaches and the PLAN, REMAPS and LOSS causes it serves go; MARK holds and those of the marked step are released
in order; that step retires, the plan unit is told, a KEEP-REMAPS finishes DONE with the pending directive promoted, and the rows
that wait for a loss are looked at; then BAND goes unless a held request still lies in the unmarked band.
A completed label write as the mark unit adopts it: the mark front and generation it carried, the unmarked steps it noted
taken off, no write in flight, a STANDING spill record gone, the spill bar gone when the mark front has passed it, and the
mark state CLEAN or DIRTY by R79; nothing else changes (R82, R85, R92). -/
def Obligations.LabelWrites : Prop :=
  ((∀ (s : State),
      let leave : Prop := s.mark.causes ≠ [] ∧ s.mark.judgeBand = false ∧ s.mark.flight = none
        ∧ ¬(s.ctl.state = .halted ∧ s.ctl.cause = .recoveryFailed) ∧ s.ctl.volume ≠ .assembling
        ∧ (s.mark.bar = none ∨ ∃ c ∈ s.mark.causes, ∃ n, c.kind = .step n)
      let entries (l : Layout) (missing : Nat → Bool) : LabelLayout :=
        { id := l.id, entries := (l.members.zip (List.range l.n)).map (fun p => { member := p.1, missing := missing p.2 }) }
      let state : MarkState := if s.mark.state = .off then .off else if s.mark.state = .initial then .initial else .clean
      let now (h : State) (front : Nat) : Label :=
        { identity := s.plan.identity, generation := s.mark.generation + 1, unit := (s.plan.layouts.head?.map (·.unit)).getD 0
          layouts := s.plan.layouts.map (fun l => entries l (s.missing l)), rows := s.rows, planKind := s.activeKind
          activeSlot := s.plan.active.getD 0, phase := s.mover.phase, markState := state, markFront := front
          pointer := s.plan.pointer, held := s.plan.status == .held || (s.plan.status == .active && s.plan.hold)
          ended := s.plan.status == .ended, hard := h.hardEntries, capacity := s.plan.capacity
          incoming := s.plan.incoming.map (fun i => { record := i, missing := s.roleMissing i.slot }) }
      let alone (h : State) (l : Layout) (capacity : Nat) : Label :=
        { now h 0 with
          layouts := [entries l (s.posMissing l)], planKind := .empty, activeSlot := 0, phase := .none, markState := .off
          pointer := s.chainAfter.1, held := s.chainAfter.2 == .held, ended := s.chainAfter.2 == .ended
          capacity := capacity, incoming := none }
      (¬leave → ruleLabel s = none)
      ∧ (leave → ∃ (u h : State) (l : Label) (f : Flight) (targets : List Slot), ruleLabel s = some u
        ∧ h = { s with shelf := { s.shelf with bays := h.shelf.bays } }
        ∧ (∀ i, (∃ c ∈ s.mark.causes, c.kind = .remaps i) → h.bay i = { s.bay i with
              remaps := (s.bay i).remaps.map (fun r => { r with hard := r.hard || !r.filling }) })
        ∧ (∀ i, (∀ c ∈ s.mark.causes, c.kind ≠ .remaps i) → h.bay i = s.bay i)
        ∧ (∀ i, i ∈ targets ↔ (s.bay i).present = true ∧ ((s.bay i).role = .member ∨ (s.bay i).role = .joining))
        ∧ targets.Pairwise (· < ·)
        ∧ f.generation = s.mark.generation + 1 ∧ f.noted = s.mark.unmarked ∧ f.assembly = false ∧ f.outstanding = targets.length
        ∧ ((∀ c ∈ s.mark.causes, ∀ w, c.kind ≠ .plan w) → f.plan = none)
        ∧ (∀ w, (∃ c ∈ s.mark.causes, c.kind = .plan w) → (∀ c ∈ s.mark.causes, ∀ x, c.kind = .plan x → x = w) → f.plan = some w)
        ∧ ((f.plan = some .close ∨ f.plan = some .remove) → f.front = 0)
        ∧ (f.plan ≠ some .close → f.plan ≠ some .remove →
            (∀ g t, s.stepIn g = some t → t.stage = .mark → (∀ x v, x ≠ g → s.stepIn x = some v → v.stage ≠ .mark) →
              f.front = t.front + t.rows)
            ∧ ((∀ g t, s.stepIn g = some t → t.stage ≠ .mark) → f.front = s.mover.front))
        ∧ ((f.plan = none ∨ f.plan = some .install) → l = now h f.front)
        ∧ (f.plan = some .close → ∀ x, s.closingLayout = some x → l = alone h x s.closingCapacity)
        ∧ (f.plan = some .remove → ∀ x, s.formerLayout = some x → l = alone h x s.plan.capacity)
        ∧ (f.plan = some .remove → s.formerLayout = none → l = releasedLabel (s.mark.generation + 1))
        ∧ u.mark = { s.mark with
            flight := some f, causes := s.mark.causes.map (fun c => { c with served := true })
            losses := s.mark.losses.map (fun x => (x.1, true)) }
        ∧ (let z := targets.foldl (fun (x : State) i => handReserve i .mark
              (.write 0 (labelBlocks l (l.seat i).1 (l.seat i).2 (match (s.bay i).ident with
                | some x => x.1
                | none => 0#64))) (.label false) x) h
           u = { s with mark := u.mark, shelf := z.shelf, todo := z.todo })))
    ∧ (∀ (s : State) (f : Flight), s.mark.flight = some f →
      (f.outstanding ≠ 0 → ruleLabelDone s = none)
      ∧ (f.outstanding = 0 → f.assembly = false →
        let a := adoptLabel f s
        let satisfied (c : Cause) : Prop := (∃ n, (c.kind = .step n ∨ c.kind = .forced n) ∧ n ≤ f.front)
          ∨ (c.served = true ∧ (c.kind = .loss ∨ (∃ w, c.kind = .plan w) ∨ ∃ i, c.kind = .remaps i))
        let marked (g : Staging) (t : Step) : Prop := a.stepIn g = some t ∧ t.stage = .mark ∧ t.front + t.rows ≤ f.front
        let freed (r : HoldReason) : Prop := r = .mark ∨ ∃ g t, marked g t ∧ r = .step t.front
        ∃ (v w x y u : State), ruleLabelDone s = some u
          ∧ v = { a with mark := v.mark, holds := v.holds, todo := v.todo }
          ∧ v.mark = { a.mark with causes := v.mark.causes, losses := a.mark.losses.filter (fun x => !x.2), judgeBand := true }
          ∧ (∀ c, c ∈ v.mark.causes ↔ c ∈ a.mark.causes ∧ ¬satisfied c)
          ∧ (∀ h, h ∈ v.holds ↔ h ∈ a.holds ∧ ¬freed h.reason) ∧ v.holds.Sublist a.holds
          ∧ (∃ out : List HoldEntry, v.todo = a.todo ++ out.map (fun h => Ev.release h.arrival) ∧ out.Sublist a.holds
              ∧ ∀ h, h ∈ out ↔ h ∈ a.holds ∧ freed h.reason)
          ∧ ((∀ g t, ¬marked g t) → w = v)
          ∧ (∀ g t, marked g t → (∀ x r, marked x r → x = g) → w = retire g t true v)
          ∧ ((∀ c ∈ a.mark.causes, ∀ p, c.kind = .plan p → c.served = false) → x = w)
          ∧ (∀ p, a.mark.causes.filter (fun c => c.kind.planWrite.isSome && c.served) = [{ kind := .plan p, served := true }] →
              (p = .install → x = { w with plan := { w.plan with installed := true } })
              ∧ (p = .close → x = completeClose f.generation w) ∧ (p = .remove → x = completeRemove f.generation w))
          ∧ ((∀ c ∈ a.mark.causes, ∀ i, c.kind = .remaps i → c.served = false) → y = x)
          ∧ ((∃ c ∈ a.mark.causes, (∃ i, c.kind = .remaps i) ∧ c.served = true) →
              (x.win.current = none → y = x)
              ∧ ∀ d, x.win.current = some d → y = { x with win := { x.win with
                  result := { code := d.code, seq := d.args.seq, outcome := .done }
                  current := x.win.waiting, taken := false, waiting := none } })
          ∧ (let rows := y.port.entries.filter (fun e => e.kind == .write && !e.rows.isEmpty)
             u = { y with todo := y.todo ++ rows.map (fun e => Ev.advance e.arrival) })))
    ∧ ∀ (s : State), s.mark.judgeBand = true →
        let held : Prop := ∃ h ∈ s.holds, ∃ e, s.req h.arrival = some e ∧ s.inBand e.lba e.count = true
        (held → ruleBand s = some { s with mark := { s.mark with judgeBand := false } })
        ∧ (¬held → ruleBand s = some { s with mark := { s.mark with
            judgeBand := false, causes := s.mark.causes.filter (fun c => c.kind != .band) } }))
  ∧ (∀ (s : State) (f : Flight), let t := adoptLabel f s
      t.mark.front = f.front ∧ t.mark.generation = f.generation ∧ t.mark.unmarked = s.mark.unmarked - f.noted
      ∧ t.mark.flight = none
      ∧ (∀ r, s.mark.spill = .standing r → t.mark.spill = .none)
      ∧ ((∀ r, s.mark.spill ≠ .standing r) → t.mark.spill = s.mark.spill)
      ∧ (∀ b, s.mark.bar = some b → t.mark.bar = if b < f.front then none else some b)
      ∧ ((s.mark.state = .off ∨ s.mark.state = .initial) → t.mark.state = s.mark.state)
      ∧ ((s.mark.state = .clean ∨ s.mark.state = .dirty) →
          (t.mark.state = .clean ↔ s.mover.front = f.front ∧ s.atRest = true)
          ∧ (t.mark.state ≠ .clean → t.mark.state = .dirty))
      ∧ t = { s with mark :=
          { s.mark with
            front := t.mark.front, generation := t.mark.generation, unmarked := t.mark.unmarked, flight := none
            bar := t.mark.bar, spill := t.mark.spill, state := t.mark.state } })

/-- The arbiter: a waiting mark-class operation is granted first; of host and mover alone the oldest; of both, the mover's
oldest when g × 16 < pace × (c + 1), else the host's. Under one pace the mover's count is its rounded-up share of the
contested grants of the cycle, which every contested grant keeps, and of a whole cycle of 16 it gets pace (R76, R77). -/
def Obligations.ArbiterShare : Prop :=
  ∀ (pace : Nat) (b : Bay), 1 ≤ pace → pace ≤ 16 →
    (∀ m, b.wait.find? (·.cls == .mark) = some m → chooseOp pace b = some (m, none))
    ∧ (b.wait.find? (·.cls == .mark) = none →
      (∀ h, b.wait.find? (·.cls == .host) = some h → b.wait.find? (·.cls == .mover) = none →
        chooseOp pace b = some (h, none))
      ∧ (∀ v, b.wait.find? (·.cls == .host) = none → b.wait.find? (·.cls == .mover) = some v →
        chooseOp pace b = some (v, none))
      ∧ (∀ h v, b.wait.find? (·.cls == .host) = some h → b.wait.find? (·.cls == .mover) = some v →
        (b.moverCount * 16 < pace * (b.contest + 1) → chooseOp pace b = some (v, some true))
        ∧ (pace * (b.contest + 1) ≤ b.moverCount * 16 → chooseOp pace b = some (h, some false))))
    ∧ afterGrant none b = b
    ∧ (b.contest ≤ 15 → b.Paced pace → ∀ op mv, chooseOp pace b = some (op, some mv) →
        (afterGrant (some mv) b).contest = (b.contest + 1) % 16 ∧ (afterGrant (some mv) b).Paced pace
        ∧ (b.contest < 15 → (afterGrant (some mv) b).moverCount = b.moverCount + (if mv then 1 else 0))
        ∧ (b.contest = 15 → b.moverCount + (if mv then 1 else 0) = pace))

/-! ## Faults, volume state and plans -/

/-- Faults and the volume state (R71, R136, R161 to R163, R168). A report of the missing counts sets the volume OFFLINE, DEGRADED or
ONLINE while it is in service, and takes a fault when some layout's count exceeds the tolerance and has risen, or the tolerance has
fallen, since the previous report. The fault layout is the first of ONLY, OLD, NEW above the tolerance. A fault does nothing in
IDLE; with the latch set it makes the engine HALTED and raises ENGINE_HALTED, the cause staying RECOVERY_FAILED where it is that
halt's; with the latch clear it becomes pending, and the step in GATHER is abandoned with its holds. A pending fault enters SUSPENDED,
with ENGINE_SUSPENDED, the latch set and the pause request gone, once the label write in flight at the fault has completed (WAITING,
PAUSED), PREPARING has ended, the mover is at rest too (RUNNING, SETTLING) or the closing or removal label write has completed
(CLOSING), the saved state being WAITING, PAUSED, RUNNING or IDLE, CLOSING or SETTLING where a phase has ended, PAUSED where a pause
was asked, or IDLE. -/
def Obligations.FaultsTaken : Prop :=
  (∀ (s : State), (s.ctl.lastReport.map (·.1)).Nodup → (s.counts.map (·.1)).Nodup →
    let tol : Nat := if s.ctl.tuning.degradedContinue = true then 1 else 0
    let v : State := { s with ctl := { s.ctl with
      lastReport := s.counts, lastTolerance := tol, volume := (reportCounts s).ctl.volume } }
    let fault : Prop := ∃ c ∈ s.counts, tol < c.2 ∧ (tol < s.ctl.lastTolerance ∨ ∃ p ∈ s.ctl.lastReport, p.1 = c.1 ∧ p.2 < c.2)
    (s.ctl.volume = .none ∨ s.ctl.volume = .assembling ∨ s.ctl.volume = .forming ∨
        (s.ctl.state = .halted ∧ s.ctl.cause = .recoveryFailed) → (reportCounts s).ctl.volume = s.ctl.volume)
    ∧ (s.ctl.volume = .online ∨ s.ctl.volume = .degraded ∨ s.ctl.volume = .offline →
        ¬(s.ctl.state = .halted ∧ s.ctl.cause = .recoveryFailed) →
        ((∃ c ∈ s.counts, 2 ≤ c.2) → (reportCounts s).ctl.volume = .offline)
        ∧ ((∀ c ∈ s.counts, c.2 < 2) → (∃ c ∈ s.counts, c.2 = 1) → (reportCounts s).ctl.volume = .degraded)
        ∧ ((∀ c ∈ s.counts, c.2 = 0) → (reportCounts s).ctl.volume = .online))
    ∧ (¬fault ∨ s.ctl.volume = .assembling → reportCounts s = v)
    ∧ (fault → s.ctl.volume ≠ .assembling → ∃ l, reportCounts s = takeFault (some l) v ∧ l ∈ s.counts ∧ tol < l.2
        ∧ ∀ c ∈ s.counts, tol < c.2 → l.1 = .only ∨ (c.1 ≠ .only ∧ (l.1 = .old ∨ c.1 = .new))))
  ∧ (∀ (s : State) (l : Option (LayoutId × Nat)), let u := takeFault l s
    let kept : Prop := s.ctl.state = .halted ∧ s.ctl.cause = .recoveryFailed
    let cause : FaultCause := if s.ctl.state = .halted ∧ s.ctl.cause = .recoveryFailed then .recoveryFailed else .memberLost
    let layout := if s.ctl.state = .halted ∧ s.ctl.cause = .recoveryFailed then s.ctl.faultLayout else l
    (s.ctl.state = .idle → u = s)
    ∧ (s.ctl.state ≠ .idle → s.ctl.latch = true → u = { s with
        ctl := { s.ctl with state := .halted, cause := cause, faultLayout := layout }
        win := { s.win with events := { s.win.events with engineHalted := true } } })
    ∧ (s.ctl.state ≠ .idle → s.ctl.latch = false → s.ctl.faultPending = true →
        u = { s with ctl := { s.ctl with cause := cause, faultLayout := layout } })
    ∧ (s.ctl.state ≠ .idle → s.ctl.latch = false → s.ctl.faultPending = false →
        u.ctl = { s.ctl with cause := cause, faultLayout := layout, faultPending := true, faultFresh := true, faultWaits := none }
        ∧ (∀ g, (s.stepIn g = none → u.stepIn g = none) ∧ ∀ t, s.stepIn g = some t →
            (t.stage ≠ .gather → u.stepIn g = some t)
            ∧ (t.stage = .gather → ∃ v, u.stepIn g = some v ∧ v.stage = .abandoned ∧ v.outstanding = t.outstanding))
        ∧ (∀ h, h ∈ u.holds ↔ h ∈ s.holds ∧ ∀ g t, s.stepIn g = some t → t.stage = .gather → h.reason ≠ .step t.front)
        ∧ u = { s with
            ctl := u.ctl, mover := u.mover, holds := u.holds, todo := u.todo, locks := u.locks
            integ := { s.integ with candidates := u.integ.candidates } })
    ∧ (kept → cause = .recoveryFailed))
  ∧ ∀ (s : State), (s.ctl.faultPending = false → ruleSuspend s = none)
    ∧ (s.ctl.faultPending = true → s.ctl.faultFresh = true → ruleSuspend s = some { s with ctl := { s.ctl with
        faultFresh := false, faultWaits := s.mark.flight.map (·.generation) } })
    ∧ (s.ctl.faultPending = true → s.ctl.faultFresh = false →
      let labelled : Prop := ∀ g f, s.ctl.faultWaits = some g → s.mark.flight = some f → f.generation ≠ g
      let rest : Prop := ∀ g t, s.stepIn g = some t → t.stage ≠ .freeze ∧ t.stage ≠ .spill ∧ t.stage ≠ .place ∧ t.stage ≠ .mark
      let prepared : Prop := s.plan.installed = true ∧ s.plan.copies = 0
      let enters (saved : EngineState) (from? : Option EngineState) : Prop := ruleSuspend s = some { s with
        ctl := { s.ctl with
          state := .suspended, saved := some saved, pausedFrom := from?, faultPending := false, pauseRequest := false
          latch := true, faultWaits := none }
        plan := { s.plan with stage := if s.plan.stage = .installing then .working else s.plan.stage }
        win := { s.win with events := { s.win.events with engineSuspended := true } } }
      let ran : Prop := s.ctl.state = .running ∨ s.ctl.state = .settling
      let next : EngineState := if s.endRow ≤ s.mover.front then .closing
        else if s.mover.phase = .settle then .settling else s.ctl.state
      (s.ctl.state = .waiting → (labelled → enters .waiting s.ctl.pausedFrom) ∧ (¬labelled → ruleSuspend s = none))
      ∧ (s.ctl.state = .paused → (labelled → enters .paused s.ctl.pausedFrom) ∧ (¬labelled → ruleSuspend s = none))
      ∧ (s.ctl.state = .preparing →
          (prepared → s.plan.dropAsked = true → enters .idle s.ctl.pausedFrom)
          ∧ (prepared → s.plan.dropAsked = false → enters .running s.ctl.pausedFrom) ∧ (¬prepared → ruleSuspend s = none))
      ∧ (ran → (¬(rest ∧ labelled) → ruleSuspend s = none)
          ∧ (rest → labelled → s.ctl.pauseRequest = true → next ≠ .closing → enters .paused (some next))
          ∧ (rest → labelled → (s.ctl.pauseRequest = false ∨ next = .closing) → enters next s.ctl.pausedFrom))
      ∧ (s.ctl.state = .closing → ((∃ w, s.plan.stage = .closing w) → ruleSuspend s = none)
          ∧ ((∀ w, s.plan.stage ≠ .closing w) → enters .idle s.ctl.pausedFrom))
      ∧ (s.ctl.state = .idle ∨ s.ctl.state = .suspended ∨ s.ctl.state = .halted → ruleSuspend s = none))

/-- Verification (R102 to R104). The checks of a kind are made in order and the first that fails gives the refusal; with none
failing the record is accepted. For a FORM: field ranges, no volume, no bay twice, 3 bays or more, none in use, none FOREIGN
among the ready ones, and, all being ready, the smallest capacity less 16384 at least the stripe unit. For a GROW: field ranges,
a volume, no bay twice, at most 32 members after it, none in use, none FOREIGN, each ready one at least the smallest joining
capacity 16384 + R x U, the capacity limit, and no missing position. For a REPLACE of position q by bay b: b a bay slot, a volume,
q below N, b not in use unless it is itself position q's FAILED or STALE bay, b not FOREIGN, large enough, and no other position
missing. Any other kind code is BAD_KIND.
The fetch and the wait for bays (R101, R105). A DUE chain with the engine IDLE and the volume not ASSEMBLING is fetched: at
pointer 64 or at an EMPTY record the chain is ENDED with CHAIN_END, the record left as it is; a page write that has not taken its
content makes the fetch wait; a refused record gets its residue (the refusal, 0 rows, the reported capacity, G), PLAN_DONE unless
QUIET, its copy written behind when a layout is in force, and the chain goes on to the next slot, still DUE, with CONT, or is
ENDED there with CHAIN_END; an accepted one becomes the active plan showing outcome NONE, the chain ACTIVE, and is installed when
every bay it names is ready, else the engine is WAITING. A waiting plan stays while some named bay is not ready; with all ready it
is verified again and installed, or it ends as a refusal, the chain following CONT and the engine IDLE. -/
def Obligations.PlansFetched : Prop :=
  (∀ (s : State) (r : PlanRecord),
      let judged (checks : List (Prop × PlanOutcome)) : Prop :=
        (s.verify r = none ↔ ∀ c ∈ checks, c.1)
          ∧ ∀ o, s.verify r = some o ↔ ∃ (n : Nat) (c : Prop × PlanOutcome), checks[n]? = some c ∧ ¬c.1 ∧ c.2 = o ∧ ∀ (m : Nat) (d : Prop × PlanOutcome), m < n → checks[m]? = some d → d.1
      let inUse (i : Slot) : Prop :=
        (s.bay i).role = .member ∨ (s.bay i).role = .joining ∨ (s.bay i).role = .failed ∨ (s.bay i).role = .stale
      let listed : Prop := 1 ≤ r.listLength.toNat ∧ r.listLength.toNat ≤ 32 ∧ ∀ b ∈ r.bays.take r.listLength.toNat, b.toNat < 64
      let named (i : Slot) : Prop := ∃ b ∈ r.bays.take r.listLength.toNat, b.toNat = i.val
      let blocks (i : Slot) : Nat := match (s.bay i).ident with
        | some x => x.2
        | none => 0
      let foreign (i : Slot) : Prop := s.ready i = true ∧ (s.bay i).role = .foreign
      (r.kind.toNat = 1 → judged
        [((r.unit.toNat = 16 ∨ r.unit.toNat = 32 ∨ r.unit.toNat = 64 ∨ r.unit.toNat = 128 ∨ r.unit.toNat = 256) ∧ listed, .badKind),
         (s.ctl.volume = .none, .volumeExists),
         (r.slots.Nodup, .bayDuplicate),
         (3 ≤ r.slots.length, .tooManyMembers),
         ((∀ i, named i → ¬inUse i), .bayInUse),
         ((∀ i, named i → ¬foreign i), .bayForeign),
         (((∀ i, named i → s.ready i = true) → ∀ i, named i → 16384 + r.unit.toNat ≤ blocks i), .bayTooSmall)])
      ∧ (r.kind.toNat = 2 → ∀ l, s.layout .only = some l → judged
        [(listed, .badKind),
         (s.ctl.volume ≠ .none, .noVolume),
         (r.slots.Nodup, .bayDuplicate),
         (l.n + r.slots.length ≤ 32, .tooManyMembers),
         ((∀ i, named i → ¬inUse i), .bayInUse),
         ((∀ i, named i → ¬foreign i), .bayForeign),
         ((∀ i, named i → s.ready i = true → 16384 + s.rows * s.unit ≤ blocks i), .bayTooSmall),
         (s.rows * s.unit * (l.n + r.slots.length - 1) ≤ 2 ^ 40, .capacityLimit),
         ((∀ p, p < l.n → s.missing l p = false), .layoutDegraded)])
      ∧ (r.kind.toNat = 3 → 64 ≤ r.replacement.toNat → s.verify r = some .badKind)
      ∧ (r.kind.toNat = 3 → ∀ (b : Slot) l, r.replacement.toNat = b.val → s.layout .only = some l → judged
        [(s.ctl.volume ≠ .none, .noVolume),
         (r.position.toNat < l.n, .badPosition),
         (inUse b → l.slotAt r.position.toNat = some b ∧ ((s.bay b).role = .failed ∨ (s.bay b).role = .stale), .bayInUse),
         (¬foreign b, .bayForeign),
         (s.ready b = true → 16384 + s.rows * s.unit ≤ blocks b, .bayTooSmall),
         ((∀ p, p < l.n → p ≠ r.position.toNat → s.missing l p = false), .layoutDegraded)])
      ∧ (r.kind.toNat ≠ 1 → r.kind.toNat ≠ 2 → r.kind.toNat ≠ 3 → s.verify r = some .badKind)
      ∧ (s.layout .only = none → (r.kind.toNat = 2 → s.ctl.volume = .none → listed → s.verify r = some .noVolume)
          ∧ (r.kind.toNat = 3 → s.ctl.volume = .none → r.replacement.toNat < 64 → s.verify r = some .noVolume)))
  ∧ (∀ (s : State), s.plan.table.length = 64 →
      (s.plan.status = .due → s.ctl.state = .idle → s.ctl.volume ≠ .assembling →
        let i := s.plan.pointer
        let r := s.record i
        let quietDone (u : State) : Prop :=
          u.win = { s.win with events := { s.win.events with
            planDone := s.win.events.planDone || !r.quiet, chainEnd := s.win.events.chainEnd || !r.cont } }
        ((64 ≤ i ∨ r.kind = 0#8) → ruleFetch s = some { s with
            plan := { s.plan with status := .ended, hold := false, keepHold := false, beforeFirst := false }
            win := { s.win with events := { s.win.events with chainEnd := true } } })
        ∧ (i < 64 → r.kind ≠ 0#8 →
          ((∃ w ∈ s.plan.areaWrites, w.index = i ∧ w.begun = false ∧ w.content ≠ none) → ruleFetch s = none)
          ∧ ((∀ w ∈ s.plan.areaWrites, w.index = i → w.content ≠ none → w.begun = true) →
            (∀ o, s.verify r = some o → ∃ (u : State), ruleFetch s = some u ∧ quietDone u
              ∧ u.record i = { r with outcome := o, rowsDone := 0, capacity := s.plan.capacity, generation := s.mark.generation }
              ∧ (∀ j, j ≠ i → u.record j = s.record j)
              ∧ (s.plan.layouts = [] → u.plan.areaWrites = s.plan.areaWrites)
              ∧ (s.plan.layouts ≠ [] → u.plan.areaWrites
                  = s.plan.areaWrites ++ [{ index := i, source := .behind, content := none, begun := false, left := 0 }])
              ∧ u = { s with win := u.win, plan := { s.plan with
                  table := u.plan.table, areaWrites := u.plan.areaWrites, hold := false, keepHold := false, beforeFirst := false
                  pointer := if r.cont = true then i + 1 else i, status := if r.cont = true then .due else .ended } })
            ∧ (s.verify r = none → ∃ (a : State), (∀ j, j ≠ i → a.record j = s.record j) ∧ a.record i = { r with outcome := .none }
              ∧ a = { s with plan := { s.plan with
                  table := a.plan.table, status := .active, active := some i, stage := .waiting, hold := s.plan.keepHold
                  keepHold := false, planKind := a.plan.planKind } }
              ∧ (r.kind.toNat = 1 → a.plan.planKind = .form) ∧ (r.kind.toNat = 2 → a.plan.planKind = .grow)
              ∧ (r.kind.toNat = 3 → a.plan.planKind = .replace)
              ∧ ((∀ b ∈ r.named, s.ready b = true) → ruleFetch s = some (install r a))
              ∧ ((∃ b ∈ r.named, s.ready b = false) →
                  ruleFetch s = some { a with ctl := { s.ctl with state := .waiting, latch := false } })))))
      ∧ (∀ i, s.ctl.state = .waiting → s.plan.stage = .waiting → s.plan.active = some i → i < 64 → s.ctl.faultPending = false →
          s.plan.dropAsked = false →
        let r := s.record i
        ((∃ b ∈ r.named, s.ready b = false) → ruleWaiting s = none)
        ∧ ((∀ b ∈ r.named, s.ready b = true) → s.verify r = none → ruleWaiting s = some (install r s))
        ∧ ((∀ b ∈ r.named, s.ready b = true) → ∀ o, s.verify r = some o → ∃ (u : State), ruleWaiting s = some u
          ∧ u.record i = { r with outcome := o, rowsDone := 0, capacity := s.plan.capacity, generation := s.mark.generation }
          ∧ (∀ j, j ≠ i → u.record j = s.record j)
          ∧ u.plan.active = none ∧ u.ctl = { s.ctl with state := .idle, latch := false }
          ∧ (r.quiet = false → u.win.events.planDone = true)
          ∧ (r.quiet = true → u.win.events.planDone = s.win.events.planDone)
          ∧ (s.plan.endChain = true → u.plan.pointer = s.plan.pointer ∧ u.plan.status = .ended ∧ u.win.events.chainEnd = true)
          ∧ (s.plan.endChain = false → s.plan.hold = true →
              u.plan.pointer = s.plan.pointer ∧ u.plan.status = .held ∧ u.plan.hold = false ∧ u.win.events.chainEnd = true)
          ∧ (s.plan.endChain = false → s.plan.hold = false → r.cont = true →
              u.plan.pointer = s.plan.pointer + 1 ∧ u.plan.status = .due ∧ u.win.events.chainEnd = s.win.events.chainEnd)
          ∧ (s.plan.endChain = false → s.plan.hold = false → r.cont = false →
              u.plan.pointer = s.plan.pointer ∧ u.plan.status = .ended ∧ u.win.events.chainEnd = true)
          ∧ u.plan.layouts = s.plan.layouts ∧ u.shelf = s.shelf ∧ u.mover = s.mover ∧ u.mark = s.mark ∧ u.port = s.port)))

/-- Installation (R2, R3, R30, R46, R79, R106) and the end of PREPARING (R107). Installing puts the engine in PREPARING, F to 0 and
the mover in its phase, the mark state to INITIAL with mark front 0, the PLAN cause of the install label write in wait, and one plan
table copy in wait for each bay the plan names; the capacity and the table stay. A FORM gives its bays MEMBER at positions 0 on,
makes the volume FORMING, its identity the serial of position 0, and one ONLY layout whose R follows from the smallest capacity. A
GROW gives its bays JOINING at positions N_old on, and OLD and NEW take the place of ONLY, the lock keys renamed to OLD. A REPLACE
gives its bay JOINING and makes it the incoming bay of position q; in a rebuild in place position q becomes VACANT. No other bay
changes. PREPARING ends, in RUNNING, once the install label and every copy have ended. -/
def Obligations.PlanInstalled : Prop :=
  (∀ (s : State) (r : PlanRecord),
    let u := install r s
    let serial (i : Slot) : BitVec 64 := match (s.bay i).ident with
      | some x => x.1
      | none => 0#64
    let blocks (i : Slot) : Nat := match (s.bay i).ident with
      | some x => x.2
      | none => 0
    let member (i : Slot) : Option Member := some { slot := i, serial := serial i }
    let common (p : Phase) : Prop :=
      u.ctl.state = .preparing ∧ u.ctl.latch = false ∧ u.mover = { s.mover with front := 0, phase := p }
        ∧ u.mark = { s.mark with state := .initial, front := 0, causes := u.mark.causes }
        ∧ (∃ c ∈ u.mark.causes, c.kind = .plan .install ∧ c.served = false)
        ∧ (∀ c, c.kind ≠ .plan .install → (c ∈ u.mark.causes ↔ c ∈ s.mark.causes))
        ∧ u.plan = { s.plan with
            stage := .installing, installed := false, copies := r.named.length
            areaOps := s.plan.areaOps ++ r.named.map (fun i => { slot := i, what := .copy false })
            layouts := u.plan.layouts, identity := u.plan.identity, incoming := u.plan.incoming, inPlace := u.plan.inPlace }
        ∧ u.win = s.win ∧ u.holds = s.holds ∧ u.out = s.out
    (r.kind.toNat = 1 → r.slots.Nodup →
      common .form ∧ u.ctl.volume = .forming ∧ (∀ i, r.slots.head? = some i → u.plan.identity = serial i)
      ∧ (∀ n i, r.slots[n]? = some i → u.bay i = { s.bay i with role := .member, position := some n, incoming := false })
      ∧ (∀ i, i ∉ r.slots → u.bay i = s.bay i) ∧ u.plan.incoming = s.plan.incoming ∧ u.plan.inPlace = s.plan.inPlace
      ∧ ∀ m, (∀ i ∈ r.slots, m ≤ blocks i) → (∃ i ∈ r.slots, blocks i = m) →
          u.plan.layouts = [{ id := .only, unit := r.unit.toNat, members := r.slots.map member
                              rows := min ((m - 16384) / r.unit.toNat) (2 ^ 40 / (r.unit.toNat * (r.slots.length - 1))) }])
    ∧ (r.kind.toNat = 2 → r.slots.Nodup → ∀ l, s.layout .only = some l →
      common .migrate ∧ u.plan.identity = s.plan.identity
      ∧ (∀ n i, r.slots[n]? = some i → u.bay i = { s.bay i with role := .joining, position := some (l.n + n), incoming := false })
      ∧ (∀ i, i ∉ r.slots → u.bay i = s.bay i) ∧ u.plan.incoming = s.plan.incoming ∧ u.plan.inPlace = s.plan.inPlace
      ∧ u.plan.layouts = [{ l with id := .old }, { l with id := .new, members := l.members ++ r.slots.map member }]
      ∧ u.locks.entries = s.locks.entries.map (fun e =>
          { e with key := if e.key.layout = .only then { e.key with layout := .old } else e.key }))
    ∧ (r.kind.toNat = 3 → ∀ l (b : Slot), s.layout .only = some l → r.replacement.toNat = b.val →
      common .rebuild ∧ u.plan.identity = s.plan.identity
      ∧ u.plan.incoming = some { q := r.position.toNat, slot := b, serial := serial b }
      ∧ u.bay b = { s.bay b with role := .joining, position := some r.position.toNat, incoming := true }
      ∧ (∀ i, i ≠ b → u.bay i = s.bay i) ∧ u.locks = s.locks
      ∧ (l.slotAt r.position.toNat = some b →
          u.plan.layouts = [{ l with members := l.members.set r.position.toNat none }]
          ∧ ∃ x, u.plan.inPlace = some ((s.bay b).role, x) ∧ (∀ y, l.serialOf b = some y → x = y))
      ∧ (l.slotAt r.position.toNat ≠ some b → u.plan.layouts = s.plan.layouts ∧ u.plan.inPlace = s.plan.inPlace)))
  ∧ ∀ (s : State), s.ctl.state = .preparing → s.plan.stage = .installing → s.ctl.faultPending = false →
      (s.plan.installed = true → s.plan.copies = 0 → ruleInstalled s = some { s with
        ctl := { s.ctl with state := .running, latch := false }, plan := { s.plan with stage := .working } })
      ∧ (s.plan.installed = false → ruleInstalled s = none) ∧ (s.plan.copies ≠ 0 → ruleInstalled s = none)

/-- The end of a phase, a pause, a drop and a lost incoming bay (R73, R74, R105, R108, R115 to R118, R134, R159). With the mover at
rest an engine RUNNING or SETTLING enters CLOSING when its phase has reached its end row or the incoming bay is lost, and the pause
request lapses; else PAUSED when a pause is asked, with the state to return to; else SETTLING once the phase is SETTLE. CLOSING asks
for the closing label write, or for the removal label write when the incoming bay is lost, position q's old MEMBER becoming STALE
where F is above 0 and the counts reported; a PAUSED engine then enters CLOSING too. A drop of an installed plan abandons the step
in GATHER with its holds, puts the engine in CLOSING (or the saved state of SUSPENDED to IDLE), makes each JOINING bay NONE without
position or remaps, or gives the bay of a rebuild in place its former role, and asks for the removal label write. -/
def Obligations.PlanClosing : Prop :=
  let past (s : State) : Prop := ∃ g t, s.stepIn g = some t ∧ (t.stage = .freeze ∨ t.stage = .spill ∨ t.stage = .place ∨ t.stage = .mark)
  let asks (s u : State) (w : PlanWrite) : Prop := u.plan = { s.plan with stage := .closing w }
    ∧ u.mark = { s.mark with causes := u.mark.causes } ∧ (∃ c ∈ u.mark.causes, c.kind = .plan w ∧ c.served = false)
    ∧ (∀ c, c.kind ≠ .plan .close → c.kind ≠ .plan .remove → (c ∈ u.mark.causes ↔ c ∈ s.mark.causes))
  (∀ (s : State), (s.ctl.state = .running ∨ s.ctl.state = .settling) → s.plan.stage = .working → s.ctl.faultPending = false →
      s.plan.dropAsked = false →
    let done : Prop := s.plan.incomingLost = true ∨ s.endRow ≤ s.mover.front
    (past s → ruleRest s = none)
    ∧ (¬past s → done → ruleRest s = some { s with ctl := { s.ctl with state := .closing, pauseRequest := false } })
    ∧ (¬past s → ¬done → s.ctl.pauseRequest = true → ruleRest s = some { s with ctl := { s.ctl with
        state := .paused, pauseRequest := false
        pausedFrom := some (if s.mover.phase = .settle then .settling else s.ctl.state) } })
    ∧ (¬past s → ¬done → s.ctl.pauseRequest = false → s.ctl.state = .running → s.mover.phase = .settle →
        ruleRest s = some { s with ctl := { s.ctl with state := .settling, latch := false } })
    ∧ (¬past s → ¬done → s.ctl.pauseRequest = false → (s.ctl.state = .settling ∨ s.mover.phase ≠ .settle) → ruleRest s = none))
  ∧ (∀ (s : State), s.ctl.state = .paused → s.plan.stage = .working → s.ctl.faultPending = false →
      (s.plan.incomingLost = true → ruleLostPaused s = some { s with ctl := { s.ctl with state := .closing, pausedFrom := none } })
      ∧ (s.plan.incomingLost = false → ruleLostPaused s = none))
  ∧ (∀ (s : State), s.ctl.state = .closing → s.plan.stage = .working → s.plan.incomingLost = false →
      ∃ (u : State), ruleClosing s = some u ∧ asks s u .close ∧ u = { s with plan := u.plan, mark := u.mark })
  ∧ (∀ (s : State) l inc, ((s.ctl.state = .closing ∧ s.plan.stage = .working) ∨ (s.plan.stage = .closing .close ∧ s.closeBegun = false)) →
      s.plan.incomingLost = true → s.layout .only = some l → s.plan.incoming = some inc →
      let older (i : Slot) : Prop := l.slotAt inc.q = some i ∧ 0 < s.mover.front ∧ (s.bay i).role = .member
      ∃ (u w x : State), ruleClosing s = some u ∧ u = { x with plan := u.plan, mark := u.mark } ∧ asks x u .remove
        ∧ (∀ i, older i → w.bay i = { s.bay i with role := .stale }) ∧ (∀ i, ¬older i → w.bay i = s.bay i)
        ∧ w = { s with shelf := { s.shelf with bays := w.shelf.bays }, mark := { s.mark with causes := w.mark.causes } }
        ∧ (s.plan.stage = .working → w.mark = s.mark)
        ∧ (s.plan.stage = .closing .close → w.mark.causes = s.mark.causes.filter (fun c => c.kind != .plan .close))
        ∧ ((∃ i, older i) → x = if w.counts = s.ctl.lastReport then w else reportCounts w) ∧ ((¬∃ i, older i) → x = w))
  ∧ (∀ (s : State), s.plan.dropAsked = true → s.ctl.faultPending = false → s.ctl.state ≠ .halted →
    (s.plan.stage = .working → ∃ (u : State), ruleDrop s = some u ∧ asks s u .remove
      ∧ (∀ g, (s.stepIn g = none → u.stepIn g = none) ∧ ∀ t, s.stepIn g = some t →
          (t.stage ≠ .gather → u.stepIn g = some t)
          ∧ (t.stage = .gather → ∃ v, u.stepIn g = some v ∧ v.stage = .abandoned ∧ v.outstanding = t.outstanding))
      ∧ (∀ h, h ∈ u.holds ↔ h ∈ s.holds ∧ ∀ g t, s.stepIn g = some t → t.stage = .gather → h.reason ≠ .step t.front)
      ∧ (s.ctl.state = .suspended → u.ctl = { s.ctl with saved := some .idle, pausedFrom := none })
      ∧ (s.ctl.state ≠ .suspended → u.ctl = { s.ctl with state := .closing, pauseRequest := false, pausedFrom := none })
      ∧ (∀ i, (s.bay i).role ≠ .joining → u.bay i = s.bay i)
      ∧ (∀ i inc former, (s.bay i).role = .joining → s.plan.incoming = some inc → s.plan.inPlace = some former → inc.slot = i →
          u.bay i = { s.bay i with role := former.1, incoming := false })
      ∧ (∀ i, (s.bay i).role = .joining → (∀ inc, s.plan.incoming = some inc → inc.slot = i → s.plan.inPlace = none) →
          u.bay i = { s.bay i with role := .none, position := none, incoming := false, remaps := [] })
      ∧ u.mover.front = s.mover.front ∧ u.mover.phase = s.mover.phase ∧ u.port = s.port ∧ u.win = s.win)
    ∧ (∀ i, s.plan.stage = .waiting → s.plan.active = some i → i < 64 → s.plan.table.length = 64 →
      let r := s.record i
      ∃ (u : State), ruleDrop s = some u
        ∧ u.record i = { r with outcome := .dropped, rowsDone := 0, capacity := s.plan.capacity, generation := s.mark.generation }
        ∧ (∀ j, j ≠ i → u.record j = s.record j) ∧ u.plan.active = none ∧ u.plan.stage = .none
        ∧ (s.ctl.state = .suspended → u.ctl = { s.ctl with saved := some .idle, pausedFrom := none })
        ∧ (s.ctl.state ≠ .suspended → u.ctl = { s.ctl with state := .idle, latch := false })
        ∧ u.win.events.planDone = (s.win.events.planDone || !r.quiet)
        ∧ u.plan.layouts = s.plan.layouts ∧ u.shelf = s.shelf ∧ u.mark = s.mark
        ∧ (let p := if s.plan.endChain = true then (s.plan.pointer, ChainStatus.ended)
             else if s.plan.hold = true then (s.plan.pointer, .held)
             else if r.cont = true then (s.plan.pointer + 1, .due) else (s.plan.pointer, .ended)
           u.plan.pointer = p.1 ∧ u.plan.status = p.2 ∧ u.plan.hold = false)))

/-- The end of a plan (R3, R30, R46, R79, R109 to R112, R116, R118, R134, R168). When the closing label write completes, the layout
that stands alone (the formed one, NEW as ONLY, or ONLY with the incoming bay at position q) takes the place of the others, there
is no incoming bay, F is 0 with phase none and the mark state OFF; a FORM or GROW brings the capacity R x U x D into force with
CAPACITY_CHANGED, and the volume follows the missing counts. JOINING bays become MEMBER, the incoming bay holds q, the former bay
of q and each FAILED bay without a position become NONE with no position and no remaps. When the removal label write completes the
former layout is back, or for a FORM no layout, no volume, identity 0 and G 0, its bays NONE. Each bay that leaves is written a
released label if it is present. The residue (DONE with R rows, or DROPPED with the front reached; the capacity; the generation)
is set and its write-back begins; once it and every released label have ended the plan ends: PLAN_DONE unless QUIET, and the chain
goes on, is HELD or is ENDED; an engine in CLOSING becomes IDLE. -/
def Obligations.PlanEnds : Prop :=
  (∀ (s : State) (gen i : Nat), s.plan.table.length = 64 → s.plan.active = some i → i < 64 →
    let ended (u : State) (ls : List Layout) (o : PlanOutcome) (rows : Nat) : Prop :=
      u.plan.layouts = ls ∧ u.plan.incoming = none ∧ u.mover = { s.mover with front := 0, phase := .none }
        ∧ u.mark = { s.mark with front := 0, state := .off, generation := u.mark.generation } ∧ u.plan.stage = .residue
        ∧ u.record i = { s.record i with outcome := o, rowsDone := rows, capacity := u.plan.capacity, generation := gen }
        ∧ (∀ j, j ≠ i → u.record j = s.record j)
        ∧ u.plan.areaWrites = s.plan.areaWrites ++ [{ index := i, source := .ending, content := none, begun := false, left := 0 }]
    let grown (u : State) (c : Nat) : Prop :=
      u.plan.capacity = c ∧ u.win = { s.win with events := { s.win.events with capacityChanged := true } }
    let byCounts (u : State) : Prop :=
      ((∃ c ∈ u.counts, 2 ≤ c.2) → u.ctl.volume = .offline)
        ∧ ((∀ c ∈ u.counts, c.2 < 2) → (∃ c ∈ u.counts, c.2 = 1) → u.ctl.volume = .degraded)
        ∧ ((∀ c ∈ u.counts, c.2 = 0) → u.ctl.volume = .online)
    let inService : Prop := (s.ctl.volume = .online ∨ s.ctl.volume = .degraded ∨ s.ctl.volume = .offline)
      ∧ ¬(s.ctl.state = .halted ∧ s.ctl.cause = .recoveryFailed)
    let gone (v : State) (j : Slot) : Prop :=
      v.bay j = { s.bay j with role := .none, position := none, incoming := false, remaps := [] }
    let unheld (ls : List Layout) (j : Slot) : Prop := (s.bay j).role = .failed ∧ ∀ l ∈ ls, ∀ p, p < l.n → l.slotAt p ≠ some j
    let released (u v : State) (targets : List Slot) : Prop :=
      let z := targets.foldl (fun (x : State) j =>
        handReserve j .mark (.write 0 (labelBlocks (releasedLabel gen) 0 false (v.serialAt j))) (.releasedLabel false) x) v
      targets.Nodup ∧ u.shelf = z.shelf ∧ v.todo = s.todo ∧ u.todo = z.todo ∧ u.plan.released = s.plan.released + targets.length
    (∀ l, s.activeKind = .form → s.growing = none → s.layout .only = some l → s.plan.incoming = none →
      let u := completeClose gen s
      ended u [l] .done s.rows ∧ grown u (l.rows * l.unit * (l.n - 1)) ∧ byCounts u
        ∧ (∀ j, unheld [l] j → gone u j) ∧ ∀ j, ¬unheld [l] j → u.bay j = s.bay j)
    ∧ (∀ o n, s.activeKind = .grow → s.growing = some (o, n) →
      let u := completeClose gen s
      let l : Layout := { n with id := .only }
      ended u [l] .done s.rows ∧ grown u (l.rows * l.unit * (l.n - 1)) ∧ (inService → byCounts u)
        ∧ (∀ j, (s.bay j).role = .joining → u.bay j = { s.bay j with role := .member, incoming := false })
        ∧ (∀ j, unheld [l] j → gone u j)
        ∧ ∀ j, (s.bay j).role ≠ .joining → ¬unheld [l] j → u.bay j = s.bay j)
    ∧ (∀ l inc, s.activeKind = .replace → s.growing = none → s.layout .only = some l → s.plan.incoming = some inc → inc.q < l.n →
        (∀ j, (s.bay j).role = .joining → j = inc.slot) →
      let u := completeClose gen s
      let m : Layout := { l with members := l.members.set inc.q (some { slot := inc.slot, serial := inc.serial }) }
      let former (j : Slot) : Prop := l.slotAt inc.q = some j ∧ j ≠ inc.slot
      ended u [m] .done s.rows ∧ u.plan.capacity = s.plan.capacity ∧ u.win = s.win ∧ (inService → byCounts u)
        ∧ ∃ v targets, released u v targets ∧ (∀ j, j ∈ targets ↔ former j ∧ (s.bay j).present = true)
        ∧ ((s.bay inc.slot).role = .joining →
            v.bay inc.slot = { s.bay inc.slot with role := .member, position := some inc.q, incoming := false })
        ∧ ((s.bay inc.slot).role ≠ .joining → v.bay inc.slot = { s.bay inc.slot with position := some inc.q, incoming := false })
        ∧ (∀ j, former j → gone v j) ∧ (∀ j, j ≠ inc.slot → unheld [m] j → gone v j)
        ∧ ∀ j, j ≠ inc.slot → ¬former j → ¬unheld [m] j → v.bay j = s.bay j)
    ∧ (s.activeKind = .form →
      let u := completeRemove gen s
      ended u [] .dropped s.mover.front ∧ u.ctl.volume = .none ∧ u.mark.generation = 0 ∧ u.plan.identity = 0#64
        ∧ u.plan.capacity = s.plan.capacity ∧ u.win = s.win
        ∧ ∃ v targets, released u v targets
        ∧ (∀ j, j ∈ targets ↔ ((s.bay j).role = .member ∨ (s.bay j).role = .stale) ∧ (s.bay j).present = true)
        ∧ (∀ j, (s.bay j).role = .member ∨ (s.bay j).role = .stale ∨ (s.bay j).role = .failed → gone v j)
        ∧ ∀ j, (s.bay j).role ≠ .member → (s.bay j).role ≠ .stale → (s.bay j).role ≠ .failed → v.bay j = s.bay j)
    ∧ (∀ o n, s.activeKind = .grow → s.growing = some (o, n) → s.plan.incoming = none →
      let u := completeRemove gen s
      let l : Layout := { o with id := .only }
      ended u [l] .dropped s.mover.front ∧ u.plan.capacity = s.plan.capacity ∧ u.win = s.win ∧ (inService → byCounts u)
        ∧ ∃ v targets, released u v targets
        ∧ (∀ j, j ∈ targets ↔ (∃ p, p < n.n ∧ n.slotAt p = some j) ∧ (∀ p, p < o.n → o.slotAt p ≠ some j)
              ∧ (s.bay j).role = .none ∧ (s.bay j).present = true)
        ∧ (∀ j, unheld [l] j → gone v j) ∧ ∀ j, ¬unheld [l] j → v.bay j = s.bay j)
    ∧ (∀ l inc, s.activeKind = .replace → s.growing = none → s.layout .only = some l → s.plan.incoming = some inc →
      let u := completeRemove gen s
      let back : Layout := match s.plan.inPlace with
        | some former => { l with members := l.members.set inc.q (some { slot := inc.slot, serial := former.2 }) }
        | none => l
      ended u [back] .dropped s.mover.front ∧ u.plan.capacity = s.plan.capacity ∧ u.win = s.win ∧ (inService → byCounts u)
        ∧ ∃ v targets, released u v targets
        ∧ (∀ j, j ∈ targets ↔ j = inc.slot ∧ (s.bay j).role = .none ∧ (s.bay j).present = true)
        ∧ (∀ j, unheld [back] j → gone v j)
        ∧ (∀ j, j ≠ inc.slot → ¬unheld [back] j → v.bay j = s.bay j)
        ∧ (¬unheld [back] inc.slot → v.bay inc.slot = { s.bay inc.slot with incoming := false })))
  ∧ ∀ (s : State) i, s.plan.stage = .residue → s.plan.table.length = 64 → s.plan.active = some i → i < 64 →
    let waits : Prop := s.plan.released ≠ 0 ∨ (∃ w ∈ s.plan.areaWrites, w.source = .ending)
      ∨ (s.ctl.faultPending = true ∧ s.ctl.state = .closing)
    let r := s.record i
    let p := if s.plan.endChain = true then (s.plan.pointer, ChainStatus.ended)
      else if s.plan.hold = true then (s.plan.pointer, .held)
      else if r.cont = true then (s.plan.pointer + 1, .due) else (s.plan.pointer, .ended)
    (waits → rulePlanEnd s = none)
    ∧ (¬waits → ∃ (u : State), rulePlanEnd s = some u ∧ u.plan.active = none ∧ u.plan.stage = .none
      ∧ u.plan.pointer = p.1 ∧ u.plan.status = p.2 ∧ u.plan.hold = false ∧ u.plan.table = s.plan.table
      ∧ u.win.events.planDone = (s.win.events.planDone || !r.quiet)
      ∧ ((p.2 = .ended ∨ p.2 = .held) → u.win.events.chainEnd = true)
      ∧ (p.2 = .due → u.win.events.chainEnd = s.win.events.chainEnd)
      ∧ (s.ctl.state = .closing → u.ctl = { s.ctl with state := .idle, latch := false })
      ∧ (s.ctl.state ≠ .closing → u.ctl = s.ctl) ∧ u.shelf = s.shelf ∧ u.mark = s.mark ∧ u.mover = s.mover)

/-! ## Assembly and recovery -/

/-- The choice of the volume and the role at an arrival's end (R120, R123, R174, R176, R187). The choice is made when every link has
reported and every scanned bay is READY or UNREADY. Of the valid labels of the READY scanned bays that name an identity, that of the
highest generation is chosen; between identities sharing it the one more bays hold it of, then the lower; and the copy of the lowest
bay slot. At the first scan the references take their values. With no such label the volume is NONE, no layouts are in force, the
table is EMPTY, the chain ENDED at 0, every bay NONE, the engine IDLE, and the page writes that waited are taken. An arriving bay
with a FAILED or STALE position becomes STALE there when its drive carries this volume's identity and the serial its position
records, else FAILED; one without takes FOREIGN where its label names another identity, else NONE. -/
def Obligations.AssemblyChoice : Prop :=
  (∀ ls : List (Slot × Label), (ls = [] → chosenLabel ls = none) ∧ (ls ≠ [] →
    let bays (m : Label) : Nat := ls.countP (fun (x : Slot × Label) => x.2.identity == m.identity && x.2.generation == m.generation)
    ∃ k i l, ls[k]? = some (i, l) ∧ chosenLabel ls = some l
      ∧ (∀ (j : Nat) (x : Slot × Label), j < k → ls[j]? = some x → x.2.identity = l.identity → x.2.generation ≠ l.generation)
      ∧ ∀ x ∈ ls, x.2.generation < l.generation ∨ (x.2.generation = l.generation
          ∧ (bays x.2 < bays l ∨ (bays x.2 = bays l ∧ l.identity.toNat ≤ x.2.identity.toNat)))))
  ∧ (∀ (s : State),
    (∀ i l, (i, l) ∈ s.scanLabels ↔ i ∈ s.asm.scanSet ∧ (s.bay i).readiness = .ready ∧ (s.bay i).label = some l ∧ l.identity ≠ 0#64)
    ∧ s.scanLabels.Pairwise (fun a b => a.1 < b.1)
    ∧ (let ready : Prop := s.asm.stage = .scan ∧ s.asm.linksPending = []
        ∧ ∀ i ∈ s.asm.scanSet, (s.bay i).readiness = .ready ∨ (s.bay i).readiness = .unready
      (¬ready → ruleChoice s = none)
      ∧ (ready → ∃ r : State, r = { s with shelf := r.shelf, asm := { s.asm with firstScan := false } }
        ∧ r.shelf = { s.shelf with bays := r.shelf.bays }
        ∧ (∀ i, r.bay i = { s.bay i with
            reference := if s.asm.firstScan = true then (s.bay i).present else (s.bay i).reference })
        ∧ (∀ l, chosenLabel s.scanLabels = some l → ruleChoice s = some (loadLabel l r))
        ∧ (chosenLabel s.scanLabels = none → ∃ v : State, ruleChoice s = some (takePages v)
          ∧ v.shelf = { s.shelf with bays := v.shelf.bays }
          ∧ (∀ i, v.bay i = { r.bay i with role := .none, position := none, incoming := false, remaps := [] })
          ∧ v.plan.layouts = [] ∧ v.plan.incoming = none ∧ v.plan.identity = 0#64 ∧ v.plan.capacity = 0
          ∧ v.plan.pointer = 0 ∧ v.plan.status = .ended ∧ v.plan.active = none ∧ v.plan.stage = .none
          ∧ v.plan.table = List.replicate 64 State.resetRecord ∧ v.mark.generation = 0 ∧ v.mark.state = .off ∧ v.mark.front = 0
          ∧ v = { s with
              shelf := v.shelf, plan := v.plan, mark := v.mark
              asm := { s.asm with stage := .idle, firstScan := false }
              ctl := { s.ctl with
                volume := .none, state := .idle, latch := false, lastReport := []
                lastTolerance := if s.ctl.tuning.degradedContinue = true then 1 else 0 } }))))
  ∧ ∀ (s : State) (i : Slot), let b := s.bay i
    let this (v : BitVec 64) : Prop := s.ctl.volume ≠ .none ∧ v ≠ 0#64 ∧ v = s.plan.identity
    let listed (serial : BitVec 64) : Prop :=
      ∃ l m, l ∈ s.plan.layouts ∧ some m ∈ l.members ∧ m.slot = i ∧ m.serial = serial
    (b.role = .failed ∨ b.role = .stale → b.position.isSome = true →
      ((∀ v g serial c, b.labelFound = some (v, g) → b.ident = some (serial, c) → ¬(this v ∧ listed serial)) →
          s.arrivalRole i = .failed)
      ∧ (∀ v g serial c, b.labelFound = some (v, g) → b.ident = some (serial, c) → this v → listed serial →
          (∀ x, listed x → x = serial) → s.arrivalRole i = .stale))
    ∧ (b.role = .none ∨ b.role = .foreign →
        (s.arrivalRole i = .foreign ↔ ∃ v g, b.labelFound = some (v, g) ∧ v ≠ 0#64 ∧ ¬this v)
        ∧ ((∀ v g, b.labelFound = some (v, g) → v = 0#64 ∨ this v) → s.arrivalRole i = .none))
    ∧ (b.role = .member ∨ b.role = .joining → s.arrivalRole i = b.role)
    ∧ (b.role = .failed ∨ b.role = .stale → b.position = none → s.arrivalRole i = b.role)

/-- Matching and loading (R99, R151, R177 to R181). A named member is found in the lowest READY scanned bay whose INQUIRE gave its
serial, unless the label there names another identity. A found bay is current when its label has the chosen generation, or the one
before with its serial not recorded missing. Each layout entry takes the bay found; an entry not found keeps its recorded bay, or is
VACANT when a found drive sits there. The positions of the last layout and the incoming record give their bays roles: MEMBER when
current, JOINING at a position an installed growth adds and for the incoming record, STALE at q of an installed REPLACE; STALE
behind or with no volume's label (for the incoming record FAILED); FAILED when not found. A found bay takes the label's HARD entries
of its drive, at most 8; a bay given no role is FOREIGN where it was scanned with another identity's label, else NONE. Chain, front,
phase, Fm, mark state and G come from the label, and the current bays' plan areas are to be read: in ascending bay order, one
mark-class READ for each run of the records still wanted; those none supplies are EMPTY, the active slot's of the label's kind, and
the active record shows outcome NONE. -/
def Obligations.AssemblyMatched : Prop :=
  (∀ (s : State) (l : Label), let u := loadLabel l s
    let label (i : Slot) (m : Label) : Prop := (s.bay i).readiness = .ready ∧ (s.bay i).label = some m
    let drive (serial : BitVec 64) (i : Slot) : Prop :=
      i ∈ s.asm.scanSet ∧ (s.bay i).readiness = .ready ∧ ∃ c, (s.bay i).ident = some (serial, c)
    let foreign (i : Slot) : Prop := ∃ m, label i m ∧ m.identity ≠ 0#64 ∧ m.identity ≠ l.identity
    let found (serial : BitVec 64) (i : Slot) : Prop := drive serial i ∧ (∀ j, j < i → ¬drive serial j) ∧ ¬foreign i
    let recorded (serial : BitVec 64) : Prop :=
      (∃ x ∈ l.layouts, ∃ e ∈ x.entries, e.missing = true ∧ ∃ m, e.member = some m ∧ m.serial = serial)
      ∨ ∃ c, l.incoming = some c ∧ c.record.serial = serial ∧ c.missing = true
    let current (serial : BitVec 64) (i : Slot) : Prop := ∃ m, label i m ∧ m.identity ≠ 0#64 ∧ m.identity = l.identity
      ∧ (m.generation = l.generation ∨ (m.generation + 1 = l.generation ∧ ¬recorded serial))
    let named (serial : BitVec 64) : Prop :=
      (∃ x ∈ l.layouts, ∃ e ∈ x.entries, ∃ m, e.member = some m ∧ m.serial = serial)
      ∨ ∃ c, l.incoming = some c ∧ c.record.serial = serial
    let taken (i : Slot) : Prop := ∃ serial, named serial ∧ found serial i
    let installed : Prop := l.planKind ≠ .empty ∧ l.markState ≠ .off
    let adds (p : Nat) : Prop := installed ∧ ∃ o n, l.layouts = [o, n] ∧ o.entries.length ≤ p
    let replaces (p : Nat) : Prop := installed ∧ l.planKind = .replace ∧ ∃ c, l.incoming = some c ∧ c.record.q = p
    -- bay i, as recorded or as found, stands for a member, with the role given
    let stands (m : Member) (i : Slot) : Prop := found m.serial i ∨ ((∀ j, ¬found m.serial j) ∧ ¬taken m.slot ∧ i = m.slot)
    let seat (i : Slot) (r : Role) (p : Nat) (inc : Bool) : Prop :=
      (inc = false ∧ ∃ x e m, l.layouts.getLast? = some x ∧ x.entries[p]? = some e ∧ e.member = some m ∧ stands m i
        ∧ (found m.serial i → current m.serial i → (adds p → r = .joining) ∧ (¬adds p → replaces p → r = .stale)
            ∧ (¬adds p → ¬replaces p → r = .member))
        ∧ (found m.serial i → ¬current m.serial i → r = .stale) ∧ (¬found m.serial i → r = .failed))
      ∨ (inc = true ∧ ∃ c, l.incoming = some c ∧ p = c.record.q
        ∧ stands { slot := c.record.slot, serial := c.record.serial } i
        ∧ (found c.record.serial i ∧ current c.record.serial i → r = .joining)
        ∧ (¬(found c.record.serial i ∧ current c.record.serial i) → r = .failed))
    (u.plan.layouts.length = l.layouts.length
      ∧ ∀ (k : Nat) (x : LabelLayout), l.layouts[k]? = some x → ∃ y, u.plan.layouts[k]? = some y
        ∧ y.id = x.id ∧ y.unit = l.unit ∧ y.rows = l.rows ∧ y.members.length = x.entries.length
        ∧ ∀ (p : Nat) (e : LabelEntry), x.entries[p]? = some e → (e.member = none → y.members[p]? = some none)
          ∧ ∀ m, e.member = some m → (∀ i, stands m i → y.members[p]? = some (some { m with slot := i }))
            ∧ ((∀ i, ¬stands m i) → y.members[p]? = some none))
    ∧ (∀ i, (∀ r p inc, ¬seat i r p inc) → (foreign i ∧ i ∈ s.asm.scanSet → (u.bay i).role = .foreign)
        ∧ (¬(foreign i ∧ i ∈ s.asm.scanSet) → (u.bay i).role = .none)
        ∧ u.bay i = { s.bay i with role := (u.bay i).role, position := none, incoming := false, remaps := [] })
    ∧ (∀ i, (∃ r p inc, seat i r p inc) → ∃ r p inc, seat i r p inc
        ∧ (taken i → u.bay i = { s.bay i with
            role := r, position := some p, incoming := inc
            remaps := ((l.hard.filter (fun h => (s.bay i).ident.map (·.1) == some h.serial)).map (fun h =>
              { row := h.row, spare := h.spare, hard := true, filling := false : Remap })).take 8 })
        ∧ (¬taken i → u.bay i = { s.bay i with role := r, position := some p, incoming := inc, remaps := [] }))
    ∧ (l.incoming = none → u.plan.incoming = none)
    ∧ (∀ c, l.incoming = some c → let m : Member := { slot := c.record.slot, serial := c.record.serial }
        (∀ i, stands m i → u.plan.incoming = some { c.record with slot := i })
        ∧ ((∀ i, ¬stands m i) → u.plan.incoming = none))
    ∧ (∀ i, i ∈ u.asm.current ↔ ∃ serial, named serial ∧ found serial i ∧ current serial i) ∧ u.asm.current.Pairwise (· < ·)
    ∧ (u.asm.incomingLost = true ↔ installed ∧ l.planKind = .replace
        ∧ ¬∃ c i, l.incoming = some c ∧ found c.record.serial i ∧ current c.record.serial i)
    ∧ (let p : PlanUnit := { State.resetPlan with
          layouts := u.plan.layouts, incoming := u.plan.incoming, identity := l.identity, capacity := l.capacity }
       (installed → u.plan = { p with
          pointer := l.activeSlot, status := .active, hold := l.held, active := some l.activeSlot, stage := .working
          installed := true, planKind := l.planKind })
       ∧ (l.planKind ≠ .empty → l.markState = .off →
          u.plan = { p with pointer := l.activeSlot, status := .due, keepHold := l.held })
       ∧ (l.planKind = .empty → l.ended = true → u.plan = { p with pointer := l.pointer, status := .ended })
       ∧ (l.planKind = .empty → l.ended = false → l.held = true → u.plan = { p with pointer := l.pointer, status := .held })
       ∧ (l.planKind = .empty → l.ended = false → l.held = false → u.plan = { p with pointer := l.pointer, status := .due }))
    ∧ u = { s with
        shelf := { s.shelf with bays := u.shelf.bays }, plan := u.plan
        mover := { front := l.markFront, phase := l.phase, slotA := none, slotB := none }
        mark := { State.resetMark with front := l.markFront, state := l.markState, generation := l.generation }
        asm := { s.asm with
          stage := .loading, chosen := some l, current := u.asm.current, wanted := List.range 64, asked := 0, reads := 0
          incomingLost := u.asm.incomingLost } })
  ∧ ∀ (s : State),
    (s.asm.stage ≠ .loading ∨ s.asm.reads ≠ 0 → ruleLoading s = none)
    ∧ (s.asm.stage = .loading → s.asm.reads = 0 →
      (∀ i, s.asm.current[s.asm.asked]? = some i → s.asm.wanted ≠ [] → ∃ runs : List (Nat × Nat),
        runs.flatMap (fun r => List.range' r.1 r.2) = s.asm.wanted
        ∧ runs.IsChain (fun a b => a.1 + a.2 ≠ b.1) ∧ (∀ r ∈ runs, 1 ≤ r.2)
        ∧ ruleLoading s = some (runs.foldl
          (fun (x : State) r => handReserve i .mark (.read (Config.planBase + r.1) r.2) .assemblyPlanRead x)
          { s with asm := { s.asm with asked := s.asm.asked + 1, reads := runs.length } }))
      ∧ ((s.asm.wanted = [] ∨ s.asm.current[s.asm.asked]? = none) → s.plan.table.length = 64 →
        ∃ u : State, ruleLoading s = some u
        ∧ u = { s with plan := { s.plan with table := u.plan.table }, asm := { s.asm with stage := .records, asked := 0 } }
        ∧ ∀ k, k < 64 → let r : PlanRecord :=
              match s.asm.chosen with
              | none => s.record k
              | some l => if l.planKind ≠ .empty ∧ k = l.activeSlot ∧ s.asm.wanted.contains k = true then
                  { State.resetRecord with kind := BitVec.ofNat 8 (kindCode l.planKind) } else s.record k
            u.record k = if s.plan.active = some k then { r with outcome := .none } else r))

/-- Recovery (R33, R143, R170, R182 to R185; log entry 58). With an installed growth in MIGRATE one mark-class READ of block 1023
goes to each current bay at a NEW position; when all have ended, the valid copy of the lowest bay sets up a step in staging slot A,
in PLACE and naming its front, rows and blocks, and one READ of W' x U blocks from block 1024 goes to each usable bay, current with
a valid copy. A NEW position without one has every block unobtained. When the columns have ended, two unobtained blocks at one row
and offset fail recovery: OFFLINE, HALTED with RECOVERY_FAILED, the latch set, RUNNING saved, ENGINE_HALTED raised and the mark
state as loaded; nothing is written. Otherwise the step takes every block read, poison kept, rebuilds each other from the rest of
its row and offset, and is written, cut at remapped rows, to each NEW position whose bay is present and MEMBER or JOINING; when the
writes have ended the front passes it. In every other case recovery ends at once, the front as loaded. -/
def Obligations.AssemblyRecovers : Prop :=
  (∀ (s : State),
    let restorable : Prop := (s.plan.stage ≠ .none ∧ s.plan.stage ≠ .waiting) ∧ (∃ g, s.growing = some g) ∧ s.mover.phase = .migrate
    (s.asm.stage ≠ .records → ruleRecords s = none)
    ∧ (s.asm.stage = .records → s.asm.asked = 0 → ¬restorable → ruleRecords s = some (beginAssemblyEnd s))
    ∧ (s.asm.stage = .records → s.asm.asked ≠ 0 → s.asm.reads ≠ 0 → ruleRecords s = none)
    ∧ (s.asm.stage = .records → s.asm.asked ≠ 0 → s.asm.reads = 0 → (s.asm.spills = [] ∨ s.growing = none) →
        ruleRecords s = some (beginAssemblyEnd s))
    ∧ ∀ (o n : Layout), s.growing = some (o, n) → s.asm.stage = .records →
      let held (ok : Slot → Bool) : List (Nat × Slot) := (List.range n.n).filterMap (fun p =>
        ((n.slotAt p).filter (fun i => s.asm.current.contains i && ok i)).map (fun i => (p, i)))
      (s.asm.asked = 0 → restorable → ruleRecords s = some ((held (fun _ => true)).foldl
          (fun (x : State) p => handReserve p.2 .mark (.read 1023 1) .assemblySpillRead x)
          { s with asm := { s.asm with asked := 1, reads := (held (fun _ => true)).length } }))
      ∧ (∀ i r, s.asm.asked ≠ 0 → s.asm.reads = 0 → (i, r) ∈ s.asm.spills → (∀ x ∈ s.asm.spills, i ≤ x.1) →
          (∀ x ∈ s.asm.spills, x.1 = i → x.2 = r) →
        let cols := held (fun i => s.asm.spills.any (fun x => x.1 == i))
        let cell (p k : Nat) : Cell := { row := r.front + k / n.unit, pos := p, off := k % n.unit }
        let z := cols.foldl (fun (x : State) p => handReserve p.2 .mover (.read 1024 (r.rows * n.unit)) .assemblyColumnRead x) s
        ∃ (u : State) (t : Step), ruleRecords s = some u ∧ u.stepIn .a = some t ∧ u.stepIn .b = s.stepIn .b
          ∧ t.kind = .migrate ∧ t.stage = .place ∧ t.front = r.front ∧ t.rows = r.rows ∧ t.first = r.first ∧ t.stop = r.stop
          ∧ t.spill = true ∧ t.handed = true ∧ t.restore = true ∧ t.outstanding = cols.length ∧ t.fetch.layout = n
          ∧ (∀ c, c ∈ t.fetch.wanted ↔ ∃ p k, p < n.n ∧ k < r.rows * n.unit ∧ c = cell p k)
          ∧ (∀ j p i, cols[j]? = some (p, i) → ∀ k, k < r.rows * n.unit →
              t.fetch.at (cell p k) = some (.waiting (s.shelf.nextOp + j)))
          ∧ (∀ p, p < n.n → (∀ x ∈ cols, x.1 ≠ p) → ∀ k, k < r.rows * n.unit → t.fetch.at (cell p k) = some .bad)
          ∧ u = { s with
              shelf := z.shelf, todo := z.todo, mover := u.mover
              mark := { s.mark with state := if s.mark.state = .off then .off else .dirty }
              asm := { s.asm with stage := .columns, reads := cols.length } }))
  ∧ (∀ (s : State), (s.asm.stage ≠ .columns ∨ s.asm.reads ≠ 0 → ruleColumns s = none)
    ∧ ∀ (o n : Layout) (t : Step), s.asm.stage = .columns → s.asm.reads = 0 → s.stepIn .a = some t → s.growing = some (o, n) →
      let bad (c : Cell) : Prop := c ∈ t.fetch.wanted ∧ t.fetch.at c = some .bad
      let fails : Prop := ∃ c d, bad c ∧ bad d ∧ c.row = d.row ∧ c.off = d.off ∧ c.pos ≠ d.pos
      (fails → ∃ v : State, ruleColumns s = some (takePages v)
        ∧ v = { s with
          mover := { s.mover with slotA := none }
          ctl := { s.ctl with
            state := .halted, volume := .offline, cause := .recoveryFailed, faultLayout := none, latch := true
            saved := some .running, lastReport := s.counts
            lastTolerance := if s.ctl.tuning.degradedContinue = true then 1 else 0 }
          mark := { s.mark with state := match s.asm.chosen with | some l => l.markState | none => s.mark.state }
          win := { s.win with events := { s.win.events with engineHalted := true } }
          asm := { s.asm with stage := .idle } })
      ∧ (¬fails → t.fetch.layout = n → ∃ (u : State) (v : Step) (ws : List PlaceWrite), ruleColumns s = some u
        ∧ u.stepIn .a = some v ∧ u.stepIn .b = s.stepIn .b
        ∧ v = { t with built := v.built, fetch := Fetch.fresh n [], outstanding := ws.length }
        ∧ (∀ p k off, p < n.n → k < t.rows → off < n.unit → let c : Cell := { row := t.front + k, pos := p, off := off }
            (∀ b, t.fetch.at c = some (.got b) ∨ t.fetch.at c = some (.poison b) ∨ t.fetch.at c = some (.rebuilt b) →
              (v.column p (t.front + k) 1)[off]? = some b)
            ∧ (t.fetch.at c = some .bad → ∀ src : Nat → Data × BitVec 16,
              (∀ q, q < n.n → q ≠ p → ∃ b, (t.fetch.at { c with pos := q } = some (.got b) ∧ src q = (b.data, b.app))
                ∨ (t.fetch.at { c with pos := q } = some (.poison b) ∧ src q = (zeroData, 0#16))) →
              ∃ b, (v.column p (t.front + k) 1)[off]? = some b ∧ b.guard = guardOf b.data
                ∧ (b.data, b.app) = xorAll (((List.range n.n).filter (· != p)).map src)
                ∧ b.ref = (match n.lbaOf c with | some a => BitVec.ofNat 32 a | none => 0xFFFFFFFF#32)))
        ∧ (∀ w, w ∈ ws ↔ ∃ p i r m, p < n.n ∧ n.slotAt p = some i ∧ (s.bay i).present = true
            ∧ ((s.bay i).role = .member ∨ (s.bay i).role = .joining) ∧ (r, m) ∈ cutRows s i t.front t.rows
            ∧ w = { slot := i, row := r, off := 0, blocks := v.column p r m })
        ∧ (let z := ws.foldl (fun (x : State) w =>
              handUnit w.slot .mover n.unit w.row w.off (fun b => .write b w.blocks) .restorePlace x) s
           u = { s with
             mover := u.mover, shelf := z.shelf, integ := z.integ, todo := z.todo
             asm := { s.asm with stage := .placing } })))
  ∧ ∀ (s : State) (t : Step), s.asm.stage = .placing → s.stepIn .a = some t →
    (t.outstanding ≠ 0 → ruleRestored s = none)
    ∧ (t.outstanding = 0 → ruleRestored s = some (beginAssemblyEnd { s with
        mover := { s.mover with front := t.front + t.rows, slotA := none }, asm := { s.asm with restored := true } }))

/-- The end of assembly (R80, R82, R161, R168, R179, R186, R187; log entry 56). When recovery has ended, one label write of
generation G + 1 begins, with the mark front F and the mark state INITIAL where it was loaded and nothing restored, OFF with no plan
installed and CLEAN otherwise, and goes in the mark class to each present MEMBER or JOINING bay, and each is to be given a table copy.
Assembly ends when that write has completed and every copy has ended. The volume is FORMING while a FORM is installed, else as the
missing counts give, and the engine state and phase are those of the loaded plan and front: IDLE, RUNNING, SETTLING or CLOSING. A
position missing now that the chosen label did not record so, q of an incoming record apart, raises MEMBER_LOST; where a layout with
such a position has a count above the tolerance and the engine is not IDLE, it is SUSPENDED with that state saved, the latch set,
cause MEMBER_LOST, the layout the first of ONLY, OLD, NEW above the tolerance, and ENGINE_SUSPENDED raised. The page writes that
waited are then taken. -/
def Obligations.AssemblyEnds : Prop :=
  (∀ (s : State), (s.mark.state = .off ↔ s.plan.stage = .none ∨ s.plan.stage = .waiting) →
    let state : MarkState := if s.plan.stage = .none ∨ s.plan.stage = .waiting then .off
      else if s.mark.state = .initial ∧ s.asm.restored = false then .initial else .clean
    let l : Label :=
      { identity := s.plan.identity, generation := s.mark.generation + 1, unit := (s.plan.layouts.head?.map (·.unit)).getD 0
        layouts := s.plan.layouts.map (fun x =>
          { id := x.id, entries := (x.members.zip (List.range x.n)).map (fun p => { member := p.1, missing := s.missing x p.2 }) })
        rows := s.rows, planKind := if s.plan.active.isSome = true then s.plan.planKind else .empty
        activeSlot := s.plan.active.getD 0, phase := s.mover.phase, markState := state, markFront := s.mover.front
        pointer := s.plan.pointer, held := s.plan.status == .held || (s.plan.status == .active && s.plan.hold)
        ended := s.plan.status == .ended, hard := s.hardEntries, capacity := s.plan.capacity
        incoming := s.plan.incoming.map (fun i => { record := i, missing := s.roleMissing i.slot }) }
    ∃ targets : List Slot, targets.Pairwise (· < ·)
      ∧ (∀ i, i ∈ targets ↔ (s.bay i).present = true ∧ ((s.bay i).role = .member ∨ (s.bay i).role = .joining))
      ∧ (let z := targets.foldl (fun (x : State) i => handReserve i .mark
            (.write 0 (labelBlocks l (l.seat i).1 (l.seat i).2 (match (s.bay i).ident with
              | some x => x.1
              | none => 0#64))) (.assemblyLabel false) x) s
         beginAssemblyEnd s = { s with
           shelf := z.shelf, todo := z.todo
           mark := { s.mark with flight := some { generation := s.mark.generation + 1, front := s.mover.front, noted := 0, plan := none, assembly := true, outstanding := targets.length } }
           plan := { s.plan with areaOps := s.plan.areaOps ++ targets.map (fun i => { slot := i, what := .copy true }) }
           asm := { s.asm with stage := .label, copies := targets.length, labelDone := false } }))
  ∧ ∀ (s : State), let ended : Prop := s.asm.stage = .label ∧ s.asm.labelDone = true ∧ s.asm.copies = 0
    (¬ended → ruleAssemblyEnd s = none)
    ∧ (ended → (s.counts.map (·.1)).Nodup →
      let tol : Nat := if s.ctl.tuning.degradedContinue = true then 1 else 0
      let lost : Prop := s.asm.incomingLost = true ∨ ∃ c, s.plan.incoming = some c ∧ (s.bay c.slot).role = .failed
      let planned : Prop := s.plan.stage ≠ .none ∧ s.plan.stage ≠ .waiting
      let F := s.mover.front
      let recorded (l : Label) (x : Layout) (p : Nat) : Prop :=
        ∃ y e, l.layouts.find? (fun y => y.id == x.id) = some y ∧ y.entries[p]? = some e ∧ (e.missing = true ∨ e.member = none)
      let news (x : Layout) : Prop := x ∈ s.plan.layouts ∧ ∃ l p, s.asm.chosen = some l ∧ p < x.n ∧ s.missing x p = true
        ∧ ¬recorded l x p ∧ ∀ c, l.incoming = some c → c.record.q ≠ p
      ∃ (st : EngineState) (ph : Phase) (v : State), ruleAssemblyEnd s = some (takePages v)
        ∧ (¬planned ∨ s.mover.phase = .none → st = .idle ∧ ph = s.mover.phase)
        ∧ (planned → s.mover.phase = .migrate → (F < s.growthEnd → st = .running ∧ ph = .migrate)
            ∧ (s.growthEnd ≤ F → F < s.rows → st = .settling ∧ ph = .settle)
            ∧ (s.growthEnd ≤ F → s.rows ≤ F → st = .closing ∧ ph = .migrate))
        ∧ (planned → s.mover.phase = .settle →
            (F < s.rows → st = .settling) ∧ (s.rows ≤ F → st = .closing) ∧ ph = .settle)
        ∧ (planned → s.mover.phase = .rebuild →
            (¬lost → F < s.rows → st = .running) ∧ (lost ∨ s.rows ≤ F → st = .closing) ∧ ph = .rebuild)
        ∧ (planned → s.mover.phase = .form → (F < s.rows → st = .running) ∧ (s.rows ≤ F → st = .closing) ∧ ph = .form)
        ∧ (planned → s.plan.active ≠ none → s.plan.planKind = .form → v.ctl.volume = .forming)
        ∧ (¬(planned ∧ s.plan.active ≠ none ∧ s.plan.planKind = .form) →
            ((∃ c ∈ s.counts, 2 ≤ c.2) → v.ctl.volume = .offline)
            ∧ ((∀ c ∈ s.counts, c.2 < 2) → (∃ c ∈ s.counts, c.2 = 1) → v.ctl.volume = .degraded)
            ∧ ((∀ c ∈ s.counts, c.2 = 0) → v.ctl.volume = .online))
        ∧ (v.plan.incomingLost = true ↔ lost)
        ∧ (v.win.events.memberLost = true ↔ s.win.events.memberLost = true ∨ ∃ x, news x)
        ∧ (let faults : Prop := st ≠ .idle ∧ ∃ x, news x ∧ tol < s.missingCount x
           (¬faults → v.ctl = { s.ctl with
              state := st, volume := v.ctl.volume, latch := false, lastReport := s.counts, lastTolerance := tol }
            ∧ v.win = { s.win with events := { s.win.events with memberLost := v.win.events.memberLost } })
           ∧ (faults → (∃ c ∈ s.counts, v.ctl.faultLayout = some c ∧ tol < c.2
                ∧ ∀ d ∈ s.counts, tol < d.2 → c.1 = .only ∨ (d.1 ≠ .only ∧ (c.1 = .old ∨ d.1 = .new)))
              ∧ v.ctl = { s.ctl with
                state := .suspended, saved := some st, latch := true, cause := .memberLost, faultLayout := v.ctl.faultLayout
                volume := v.ctl.volume, lastReport := s.counts, lastTolerance := tol }
              ∧ v.win = { s.win with events := { s.win.events with
                memberLost := v.win.events.memberLost, engineSuspended := true } }))
        ∧ v = { s with
            mover := { s.mover with phase := ph }, ctl := v.ctl, win := v.win
            plan := { s.plan with incomingLost := v.plan.incomingLost }
            asm := { s.asm with stage := .idle } })

/-! ## Integrity and records -/

/-- A block that a READ of one data-area block returns is judged by its guard and reference: good and poison blocks are taken
as they are; any other is bad, the bay's tag error count rises and MEMBER_TAG is captured (R32, R142, R149). -/
def Obligations.ReturnedBlockJudged : Prop :=
  ∀ (r : Reader) (op : MemberOp) (c : Cell) (b : Block) (s : State) (f : Fetch), op.home = some (c.row, c.off) →
      f.at c = some (.waiting op.id) →
    let q := arriveCell r op (.good [b]) c (s, f)
    let good := b.guard = guardOf b.data ∧
      b.ref = (match f.layout.lbaOf c with | some a => BitVec.ofNat 32 a | none => 0xFFFFFFFF#32)
    let poison := b.guard = guardOf b.data ∧ b.ref = 0xFFFFFFFE#32 ∧ ∃ a, f.layout.lbaOf c = some a
    (good → q.1 = s ∧ q.2.at c = some (.got b))
    ∧ (¬good → poison → q.1 = s ∧ q.2.at c = some (.poison b))
    ∧ (¬good → ¬poison → q.2.at c = some .bad
        ∧ (q.1.bay op.slot).tagErrors
            = (if (s.bay op.slot).tagErrors < 65535 then (s.bay op.slot).tagErrors + 1 else (s.bay op.slot).tagErrors)
        ∧ q.1.integ.counts = { s.integ.counts with
            memberTag := if s.integ.counts.memberTag < 65535 then s.integ.counts.memberTag + 1 else s.integ.counts.memberTag }
        ∧ (∀ j, j ≠ op.slot → q.1.bay j = s.bay j)
        ∧ q.1.win = { s.win with events := { s.win.events with dataError := true } })
    ∧ (∀ d, d ≠ c → q.2.at d = f.at d)

/-- The decision on a data-area WRITE that ended MEDIA: the bay fails and the WRITE ends as a failed move when it was in a
spare slot, its unit has an entry already, or no spare slot is free; otherwise the unit gets a SOFT entry, filling, in the
lowest-numbered free spare slot (R152).
The spare-slot WRITE of a fill: GOOD brings the remap entry into force and raises REMAP_ADDED, the failed WRITE ending GOOD
and the held operations going on; MEDIA fails the bay, and the entry goes with the failed WRITE ending as a failed move
(R153, R154). -/
def Obligations.RemapAndFill : Prop :=
  (∀ (s : State) (op : MemberOp) (first : Nat),
      let row := s.failingRow op first
      let remaps := (s.bay op.slot).remaps
      ((op.kind.span.1 < 16384 ∨ (∃ m ∈ remaps, m.row = row) ∨ ∀ k, k < 8 → ∃ m ∈ remaps, m.spare = k) →
        remapDecision op first s = push (.opEnd op .gone) (failBay op.slot s))
      ∧ (∀ k, 16384 ≤ op.kind.span.1 → (∀ m ∈ remaps, m.row ≠ row) → k < 8 → (∀ m ∈ remaps, m.spare ≠ k) →
          (∀ j, j < k → ∃ m ∈ remaps, m.spare = j) → (s.placeOf op.slot row).isSome = true →
          let t := remapDecision op first s
          (t.bay op.slot).remaps = remaps ++ [{ row := row, spare := k, hard := false, filling := true }]
          ∧ (t.bay op.slot).role = (s.bay op.slot).role
          ∧ (∀ j, j ≠ op.slot → t.bay j = s.bay j) ∧ t.out = s.out ∧ t.port = s.port ∧ t.ctl = s.ctl ∧ t.win = s.win))
  ∧ (∀ (s : State) (r : OpRef) (x : Issued) (i : Slot) (row : Nat) (f : Fill), s.Awaits r x (.spareWrite i row) →
      s.fillOf i row = some f → (∃ first bs, x.op.kind = .write first bs) →
      (∃ u, exec (.spareSlotWriteEnd r .good) s = .next (settle (releaseHeld u))
        ∧ u.todo = s.todo ++ [.opEnd f.failed (.good [])] ∧ u.fillOf i row = none
        ∧ (u.bay i).remaps = (s.bay i).remaps.map (fun m => if m.row == row then { m with filling := false } else m)
        ∧ (u.win.events.remapAdded = true ↔ s.win.events.remapAdded = true
            ∨ ∃ m ∈ (s.bay i).remaps, m.row = row ∧ m.filling = true))
      ∧ (∀ first, ∃ u, s.MediaWritten x.op.slot first u
        ∧ exec (.spareSlotWriteEnd r (.media first)) s = .next (settle (abortFill f (failBay i (u.freed x))))))

/-- A plan record written to a plan area block reads back as it is: kind, flags, unit, bay list, positions, outcome, rows,
capacity and generation; and the record a plan page write of the same block leaves is it with the residue cleared (R97,
R181, R203, R204). -/
def Obligations.PlanRecordRoundTrip : Prop :=
  ∀ (k : Nat) (r : PlanRecord), k < 64 → r.bays.length = 32 →
    (∀ j, r.listLength.toNat ≤ j → j < 32 → r.bays[j]? = some 0#8) →
    r.rowsDone < 2 ^ 64 → r.capacity < 2 ^ 64 → r.generation < 2 ^ 64 →
    areaRecord k (recordBlock (recordData r) (Config.planBase + k)) = some r
    ∧ pageRecordOf (recordData r) = { r with outcome := .none, rowsDone := 0, capacity := 0, generation := 0 }

end
end

