-- ==== Sys2Proof/Laws/State.lean ====
section
/-! SUPPORT. One lemma per field for each named update of the state: the fields it leaves as they are. -/

namespace Sys2Proof.Machine

/-! ### `State.withQueue` -/

@[simp] theorem State.withQueue_todo (s : State) (q : List Instr) : (s.withQueue q).todo = s.todo := rfl
@[simp] theorem State.withQueue_out (s : State) (q : List Instr) : (s.withQueue q).out = s.out := rfl
@[simp] theorem State.withQueue_port (s : State) (q : List Instr) : (s.withQueue q).port = s.port := rfl
@[simp] theorem State.withQueue_locks (s : State) (q : List Instr) : (s.withQueue q).locks = s.locks := rfl
@[simp] theorem State.withQueue_holds (s : State) (q : List Instr) : (s.withQueue q).holds = s.holds := rfl
@[simp] theorem State.withQueue_mover (s : State) (q : List Instr) : (s.withQueue q).mover = s.mover := rfl
@[simp] theorem State.withQueue_mark (s : State) (q : List Instr) : (s.withQueue q).mark = s.mark := rfl
@[simp] theorem State.withQueue_plan (s : State) (q : List Instr) : (s.withQueue q).plan = s.plan := rfl
@[simp] theorem State.withQueue_shelf (s : State) (q : List Instr) : (s.withQueue q).shelf = s.shelf := rfl
@[simp] theorem State.withQueue_integ (s : State) (q : List Instr) : (s.withQueue q).integ = s.integ := rfl
@[simp] theorem State.withQueue_ctl (s : State) (q : List Instr) : (s.withQueue q).ctl = s.ctl := rfl
@[simp] theorem State.withQueue_win (s : State) (q : List Instr) : (s.withQueue q).win = s.win := rfl
@[simp] theorem State.withQueue_asm (s : State) (q : List Instr) : (s.withQueue q).asm = s.asm := rfl

/-! ### `State.setBay` -/

@[simp] theorem State.setBay_pending (s : State) (i : Slot) (b : Bay) : (s.setBay i b).pending = s.pending := rfl
@[simp] theorem State.setBay_todo (s : State) (i : Slot) (b : Bay) : (s.setBay i b).todo = s.todo := rfl
@[simp] theorem State.setBay_out (s : State) (i : Slot) (b : Bay) : (s.setBay i b).out = s.out := rfl
@[simp] theorem State.setBay_port (s : State) (i : Slot) (b : Bay) : (s.setBay i b).port = s.port := rfl
@[simp] theorem State.setBay_locks (s : State) (i : Slot) (b : Bay) : (s.setBay i b).locks = s.locks := rfl
@[simp] theorem State.setBay_holds (s : State) (i : Slot) (b : Bay) : (s.setBay i b).holds = s.holds := rfl
@[simp] theorem State.setBay_mover (s : State) (i : Slot) (b : Bay) : (s.setBay i b).mover = s.mover := rfl
@[simp] theorem State.setBay_mark (s : State) (i : Slot) (b : Bay) : (s.setBay i b).mark = s.mark := rfl
@[simp] theorem State.setBay_plan (s : State) (i : Slot) (b : Bay) : (s.setBay i b).plan = s.plan := rfl
@[simp] theorem State.setBay_integ (s : State) (i : Slot) (b : Bay) : (s.setBay i b).integ = s.integ := rfl
@[simp] theorem State.setBay_ctl (s : State) (i : Slot) (b : Bay) : (s.setBay i b).ctl = s.ctl := rfl
@[simp] theorem State.setBay_win (s : State) (i : Slot) (b : Bay) : (s.setBay i b).win = s.win := rfl
@[simp] theorem State.setBay_asm (s : State) (i : Slot) (b : Bay) : (s.setBay i b).asm = s.asm := rfl

/-! ### `updBay` -/

@[simp] theorem updBay_pending (i : Slot) (f : Bay → Bay) (s : State) : (updBay i f s).pending = s.pending := rfl
@[simp] theorem updBay_todo (i : Slot) (f : Bay → Bay) (s : State) : (updBay i f s).todo = s.todo := rfl
@[simp] theorem updBay_out (i : Slot) (f : Bay → Bay) (s : State) : (updBay i f s).out = s.out := rfl
@[simp] theorem updBay_port (i : Slot) (f : Bay → Bay) (s : State) : (updBay i f s).port = s.port := rfl
@[simp] theorem updBay_locks (i : Slot) (f : Bay → Bay) (s : State) : (updBay i f s).locks = s.locks := rfl
@[simp] theorem updBay_holds (i : Slot) (f : Bay → Bay) (s : State) : (updBay i f s).holds = s.holds := rfl
@[simp] theorem updBay_mover (i : Slot) (f : Bay → Bay) (s : State) : (updBay i f s).mover = s.mover := rfl
@[simp] theorem updBay_mark (i : Slot) (f : Bay → Bay) (s : State) : (updBay i f s).mark = s.mark := rfl
@[simp] theorem updBay_plan (i : Slot) (f : Bay → Bay) (s : State) : (updBay i f s).plan = s.plan := rfl
@[simp] theorem updBay_integ (i : Slot) (f : Bay → Bay) (s : State) : (updBay i f s).integ = s.integ := rfl
@[simp] theorem updBay_ctl (i : Slot) (f : Bay → Bay) (s : State) : (updBay i f s).ctl = s.ctl := rfl
@[simp] theorem updBay_win (i : Slot) (f : Bay → Bay) (s : State) : (updBay i f s).win = s.win := rfl
@[simp] theorem updBay_asm (i : Slot) (f : Bay → Bay) (s : State) : (updBay i f s).asm = s.asm := rfl

/-! ### `updAllBays` -/

@[simp] theorem updAllBays_pending (f : Bay → Bay) (s : State) : (updAllBays f s).pending = s.pending := rfl
@[simp] theorem updAllBays_todo (f : Bay → Bay) (s : State) : (updAllBays f s).todo = s.todo := rfl
@[simp] theorem updAllBays_out (f : Bay → Bay) (s : State) : (updAllBays f s).out = s.out := rfl
@[simp] theorem updAllBays_port (f : Bay → Bay) (s : State) : (updAllBays f s).port = s.port := rfl
@[simp] theorem updAllBays_locks (f : Bay → Bay) (s : State) : (updAllBays f s).locks = s.locks := rfl
@[simp] theorem updAllBays_holds (f : Bay → Bay) (s : State) : (updAllBays f s).holds = s.holds := rfl
@[simp] theorem updAllBays_mover (f : Bay → Bay) (s : State) : (updAllBays f s).mover = s.mover := rfl
@[simp] theorem updAllBays_mark (f : Bay → Bay) (s : State) : (updAllBays f s).mark = s.mark := rfl
@[simp] theorem updAllBays_plan (f : Bay → Bay) (s : State) : (updAllBays f s).plan = s.plan := rfl
@[simp] theorem updAllBays_integ (f : Bay → Bay) (s : State) : (updAllBays f s).integ = s.integ := rfl
@[simp] theorem updAllBays_ctl (f : Bay → Bay) (s : State) : (updAllBays f s).ctl = s.ctl := rfl
@[simp] theorem updAllBays_win (f : Bay → Bay) (s : State) : (updAllBays f s).win = s.win := rfl
@[simp] theorem updAllBays_asm (f : Bay → Bay) (s : State) : (updAllBays f s).asm = s.asm := rfl

/-! ### `push` -/

@[simp] theorem push_pending (e : Ev) (s : State) : (push e s).pending = s.pending := rfl
@[simp] theorem push_out (e : Ev) (s : State) : (push e s).out = s.out := rfl
@[simp] theorem push_port (e : Ev) (s : State) : (push e s).port = s.port := rfl
@[simp] theorem push_locks (e : Ev) (s : State) : (push e s).locks = s.locks := rfl
@[simp] theorem push_holds (e : Ev) (s : State) : (push e s).holds = s.holds := rfl
@[simp] theorem push_mover (e : Ev) (s : State) : (push e s).mover = s.mover := rfl
@[simp] theorem push_mark (e : Ev) (s : State) : (push e s).mark = s.mark := rfl
@[simp] theorem push_plan (e : Ev) (s : State) : (push e s).plan = s.plan := rfl
@[simp] theorem push_shelf (e : Ev) (s : State) : (push e s).shelf = s.shelf := rfl
@[simp] theorem push_integ (e : Ev) (s : State) : (push e s).integ = s.integ := rfl
@[simp] theorem push_ctl (e : Ev) (s : State) : (push e s).ctl = s.ctl := rfl
@[simp] theorem push_win (e : Ev) (s : State) : (push e s).win = s.win := rfl
@[simp] theorem push_asm (e : Ev) (s : State) : (push e s).asm = s.asm := rfl

/-! ### `raise` -/

@[simp] theorem raise_pending (e : Event) (s : State) : (raise e s).pending = s.pending := rfl
@[simp] theorem raise_todo (e : Event) (s : State) : (raise e s).todo = s.todo := rfl
@[simp] theorem raise_out (e : Event) (s : State) : (raise e s).out = s.out := rfl
@[simp] theorem raise_port (e : Event) (s : State) : (raise e s).port = s.port := rfl
@[simp] theorem raise_locks (e : Event) (s : State) : (raise e s).locks = s.locks := rfl
@[simp] theorem raise_holds (e : Event) (s : State) : (raise e s).holds = s.holds := rfl
@[simp] theorem raise_mover (e : Event) (s : State) : (raise e s).mover = s.mover := rfl
@[simp] theorem raise_mark (e : Event) (s : State) : (raise e s).mark = s.mark := rfl
@[simp] theorem raise_plan (e : Event) (s : State) : (raise e s).plan = s.plan := rfl
@[simp] theorem raise_shelf (e : Event) (s : State) : (raise e s).shelf = s.shelf := rfl
@[simp] theorem raise_integ (e : Event) (s : State) : (raise e s).integ = s.integ := rfl
@[simp] theorem raise_ctl (e : Event) (s : State) : (raise e s).ctl = s.ctl := rfl
@[simp] theorem raise_asm (e : Event) (s : State) : (raise e s).asm = s.asm := rfl

/-! ### `send` -/

@[simp] theorem send_pending (g : Tag) (st : Status) (fl : Option Nat) (d : List Block) (s : State) : (send g st fl d s).pending = s.pending := rfl
@[simp] theorem send_todo (g : Tag) (st : Status) (fl : Option Nat) (d : List Block) (s : State) : (send g st fl d s).todo = s.todo := rfl
@[simp] theorem send_port (g : Tag) (st : Status) (fl : Option Nat) (d : List Block) (s : State) : (send g st fl d s).port = s.port := rfl
@[simp] theorem send_locks (g : Tag) (st : Status) (fl : Option Nat) (d : List Block) (s : State) : (send g st fl d s).locks = s.locks := rfl
@[simp] theorem send_holds (g : Tag) (st : Status) (fl : Option Nat) (d : List Block) (s : State) : (send g st fl d s).holds = s.holds := rfl
@[simp] theorem send_mover (g : Tag) (st : Status) (fl : Option Nat) (d : List Block) (s : State) : (send g st fl d s).mover = s.mover := rfl
@[simp] theorem send_mark (g : Tag) (st : Status) (fl : Option Nat) (d : List Block) (s : State) : (send g st fl d s).mark = s.mark := rfl
@[simp] theorem send_plan (g : Tag) (st : Status) (fl : Option Nat) (d : List Block) (s : State) : (send g st fl d s).plan = s.plan := rfl
@[simp] theorem send_shelf (g : Tag) (st : Status) (fl : Option Nat) (d : List Block) (s : State) : (send g st fl d s).shelf = s.shelf := rfl
@[simp] theorem send_integ (g : Tag) (st : Status) (fl : Option Nat) (d : List Block) (s : State) : (send g st fl d s).integ = s.integ := rfl
@[simp] theorem send_ctl (g : Tag) (st : Status) (fl : Option Nat) (d : List Block) (s : State) : (send g st fl d s).ctl = s.ctl := rfl
@[simp] theorem send_win (g : Tag) (st : Status) (fl : Option Nat) (d : List Block) (s : State) : (send g st fl d s).win = s.win := rfl
@[simp] theorem send_asm (g : Tag) (st : Status) (fl : Option Nat) (d : List Block) (s : State) : (send g st fl d s).asm = s.asm := rfl

/-! ### `updReq` -/

@[simp] theorem updReq_pending (a : Nat) (f : Entry → Entry) (s : State) : (updReq a f s).pending = s.pending := rfl
@[simp] theorem updReq_todo (a : Nat) (f : Entry → Entry) (s : State) : (updReq a f s).todo = s.todo := rfl
@[simp] theorem updReq_out (a : Nat) (f : Entry → Entry) (s : State) : (updReq a f s).out = s.out := rfl
@[simp] theorem updReq_locks (a : Nat) (f : Entry → Entry) (s : State) : (updReq a f s).locks = s.locks := rfl
@[simp] theorem updReq_holds (a : Nat) (f : Entry → Entry) (s : State) : (updReq a f s).holds = s.holds := rfl
@[simp] theorem updReq_mover (a : Nat) (f : Entry → Entry) (s : State) : (updReq a f s).mover = s.mover := rfl
@[simp] theorem updReq_mark (a : Nat) (f : Entry → Entry) (s : State) : (updReq a f s).mark = s.mark := rfl
@[simp] theorem updReq_plan (a : Nat) (f : Entry → Entry) (s : State) : (updReq a f s).plan = s.plan := rfl
@[simp] theorem updReq_shelf (a : Nat) (f : Entry → Entry) (s : State) : (updReq a f s).shelf = s.shelf := rfl
@[simp] theorem updReq_integ (a : Nat) (f : Entry → Entry) (s : State) : (updReq a f s).integ = s.integ := rfl
@[simp] theorem updReq_ctl (a : Nat) (f : Entry → Entry) (s : State) : (updReq a f s).ctl = s.ctl := rfl
@[simp] theorem updReq_win (a : Nat) (f : Entry → Entry) (s : State) : (updReq a f s).win = s.win := rfl
@[simp] theorem updReq_asm (a : Nat) (f : Entry → Entry) (s : State) : (updReq a f s).asm = s.asm := rfl

/-! ### `freeEntry` -/

@[simp] theorem freeEntry_pending (a : Nat) (s : State) : (freeEntry a s).pending = s.pending := rfl
@[simp] theorem freeEntry_todo (a : Nat) (s : State) : (freeEntry a s).todo = s.todo := rfl
@[simp] theorem freeEntry_out (a : Nat) (s : State) : (freeEntry a s).out = s.out := rfl
@[simp] theorem freeEntry_locks (a : Nat) (s : State) : (freeEntry a s).locks = s.locks := rfl
@[simp] theorem freeEntry_holds (a : Nat) (s : State) : (freeEntry a s).holds = s.holds := rfl
@[simp] theorem freeEntry_mover (a : Nat) (s : State) : (freeEntry a s).mover = s.mover := rfl
@[simp] theorem freeEntry_mark (a : Nat) (s : State) : (freeEntry a s).mark = s.mark := rfl
@[simp] theorem freeEntry_plan (a : Nat) (s : State) : (freeEntry a s).plan = s.plan := rfl
@[simp] theorem freeEntry_shelf (a : Nat) (s : State) : (freeEntry a s).shelf = s.shelf := rfl
@[simp] theorem freeEntry_integ (a : Nat) (s : State) : (freeEntry a s).integ = s.integ := rfl
@[simp] theorem freeEntry_ctl (a : Nat) (s : State) : (freeEntry a s).ctl = s.ctl := rfl
@[simp] theorem freeEntry_win (a : Nat) (s : State) : (freeEntry a s).win = s.win := rfl
@[simp] theorem freeEntry_asm (a : Nat) (s : State) : (freeEntry a s).asm = s.asm := rfl

/-! ### `updLocks` -/

@[simp] theorem updLocks_pending (f : LockEntry → LockEntry) (s : State) : (updLocks f s).pending = s.pending := rfl
@[simp] theorem updLocks_todo (f : LockEntry → LockEntry) (s : State) : (updLocks f s).todo = s.todo := rfl
@[simp] theorem updLocks_out (f : LockEntry → LockEntry) (s : State) : (updLocks f s).out = s.out := rfl
@[simp] theorem updLocks_port (f : LockEntry → LockEntry) (s : State) : (updLocks f s).port = s.port := rfl
@[simp] theorem updLocks_holds (f : LockEntry → LockEntry) (s : State) : (updLocks f s).holds = s.holds := rfl
@[simp] theorem updLocks_mover (f : LockEntry → LockEntry) (s : State) : (updLocks f s).mover = s.mover := rfl
@[simp] theorem updLocks_mark (f : LockEntry → LockEntry) (s : State) : (updLocks f s).mark = s.mark := rfl
@[simp] theorem updLocks_plan (f : LockEntry → LockEntry) (s : State) : (updLocks f s).plan = s.plan := rfl
@[simp] theorem updLocks_shelf (f : LockEntry → LockEntry) (s : State) : (updLocks f s).shelf = s.shelf := rfl
@[simp] theorem updLocks_integ (f : LockEntry → LockEntry) (s : State) : (updLocks f s).integ = s.integ := rfl
@[simp] theorem updLocks_ctl (f : LockEntry → LockEntry) (s : State) : (updLocks f s).ctl = s.ctl := rfl
@[simp] theorem updLocks_win (f : LockEntry → LockEntry) (s : State) : (updLocks f s).win = s.win := rfl
@[simp] theorem updLocks_asm (f : LockEntry → LockEntry) (s : State) : (updLocks f s).asm = s.asm := rfl

/-! ### `leaveLocks` -/

@[simp] theorem leaveLocks_pending (a : Nat) (s : State) : (leaveLocks a s).pending = s.pending := rfl
@[simp] theorem leaveLocks_todo (a : Nat) (s : State) : (leaveLocks a s).todo = s.todo := rfl
@[simp] theorem leaveLocks_out (a : Nat) (s : State) : (leaveLocks a s).out = s.out := rfl
@[simp] theorem leaveLocks_port (a : Nat) (s : State) : (leaveLocks a s).port = s.port := rfl
@[simp] theorem leaveLocks_holds (a : Nat) (s : State) : (leaveLocks a s).holds = s.holds := rfl
@[simp] theorem leaveLocks_mover (a : Nat) (s : State) : (leaveLocks a s).mover = s.mover := rfl
@[simp] theorem leaveLocks_mark (a : Nat) (s : State) : (leaveLocks a s).mark = s.mark := rfl
@[simp] theorem leaveLocks_plan (a : Nat) (s : State) : (leaveLocks a s).plan = s.plan := rfl
@[simp] theorem leaveLocks_shelf (a : Nat) (s : State) : (leaveLocks a s).shelf = s.shelf := rfl
@[simp] theorem leaveLocks_integ (a : Nat) (s : State) : (leaveLocks a s).integ = s.integ := rfl
@[simp] theorem leaveLocks_ctl (a : Nat) (s : State) : (leaveLocks a s).ctl = s.ctl := rfl
@[simp] theorem leaveLocks_win (a : Nat) (s : State) : (leaveLocks a s).win = s.win := rfl
@[simp] theorem leaveLocks_asm (a : Nat) (s : State) : (leaveLocks a s).asm = s.asm := rfl

/-! ### `giveUpKey` -/

@[simp] theorem giveUpKey_pending (a : Nat) (k : Key) (s : State) : (giveUpKey a k s).pending = s.pending := rfl
@[simp] theorem giveUpKey_todo (a : Nat) (k : Key) (s : State) : (giveUpKey a k s).todo = s.todo := rfl
@[simp] theorem giveUpKey_out (a : Nat) (k : Key) (s : State) : (giveUpKey a k s).out = s.out := rfl
@[simp] theorem giveUpKey_port (a : Nat) (k : Key) (s : State) : (giveUpKey a k s).port = s.port := rfl
@[simp] theorem giveUpKey_holds (a : Nat) (k : Key) (s : State) : (giveUpKey a k s).holds = s.holds := rfl
@[simp] theorem giveUpKey_mover (a : Nat) (k : Key) (s : State) : (giveUpKey a k s).mover = s.mover := rfl
@[simp] theorem giveUpKey_mark (a : Nat) (k : Key) (s : State) : (giveUpKey a k s).mark = s.mark := rfl
@[simp] theorem giveUpKey_plan (a : Nat) (k : Key) (s : State) : (giveUpKey a k s).plan = s.plan := rfl
@[simp] theorem giveUpKey_shelf (a : Nat) (k : Key) (s : State) : (giveUpKey a k s).shelf = s.shelf := rfl
@[simp] theorem giveUpKey_integ (a : Nat) (k : Key) (s : State) : (giveUpKey a k s).integ = s.integ := rfl
@[simp] theorem giveUpKey_ctl (a : Nat) (k : Key) (s : State) : (giveUpKey a k s).ctl = s.ctl := rfl
@[simp] theorem giveUpKey_win (a : Nat) (k : Key) (s : State) : (giveUpKey a k s).win = s.win := rfl
@[simp] theorem giveUpKey_asm (a : Nat) (k : Key) (s : State) : (giveUpKey a k s).asm = s.asm := rfl

/-! ### `takeCapture` -/

@[simp] theorem takeCapture_pending (c : Capture) (s : State) : (takeCapture c s).pending = s.pending := rfl
@[simp] theorem takeCapture_todo (c : Capture) (s : State) : (takeCapture c s).todo = s.todo := rfl
@[simp] theorem takeCapture_out (c : Capture) (s : State) : (takeCapture c s).out = s.out := rfl
@[simp] theorem takeCapture_port (c : Capture) (s : State) : (takeCapture c s).port = s.port := rfl
@[simp] theorem takeCapture_locks (c : Capture) (s : State) : (takeCapture c s).locks = s.locks := rfl
@[simp] theorem takeCapture_holds (c : Capture) (s : State) : (takeCapture c s).holds = s.holds := rfl
@[simp] theorem takeCapture_mover (c : Capture) (s : State) : (takeCapture c s).mover = s.mover := rfl
@[simp] theorem takeCapture_mark (c : Capture) (s : State) : (takeCapture c s).mark = s.mark := rfl
@[simp] theorem takeCapture_plan (c : Capture) (s : State) : (takeCapture c s).plan = s.plan := rfl
@[simp] theorem takeCapture_shelf (c : Capture) (s : State) : (takeCapture c s).shelf = s.shelf := rfl
@[simp] theorem takeCapture_ctl (c : Capture) (s : State) : (takeCapture c s).ctl = s.ctl := rfl
@[simp] theorem takeCapture_asm (c : Capture) (s : State) : (takeCapture c s).asm = s.asm := rfl

/-! ### `setStep` -/

@[simp] theorem setStep_pending (g : Staging) (v : Option Step) (s : State) : (setStep g v s).pending = s.pending := by cases g <;> rfl
@[simp] theorem setStep_todo (g : Staging) (v : Option Step) (s : State) : (setStep g v s).todo = s.todo := by cases g <;> rfl
@[simp] theorem setStep_out (g : Staging) (v : Option Step) (s : State) : (setStep g v s).out = s.out := by cases g <;> rfl
@[simp] theorem setStep_port (g : Staging) (v : Option Step) (s : State) : (setStep g v s).port = s.port := by cases g <;> rfl
@[simp] theorem setStep_locks (g : Staging) (v : Option Step) (s : State) : (setStep g v s).locks = s.locks := by cases g <;> rfl
@[simp] theorem setStep_holds (g : Staging) (v : Option Step) (s : State) : (setStep g v s).holds = s.holds := by cases g <;> rfl
@[simp] theorem setStep_mark (g : Staging) (v : Option Step) (s : State) : (setStep g v s).mark = s.mark := by cases g <;> rfl
@[simp] theorem setStep_plan (g : Staging) (v : Option Step) (s : State) : (setStep g v s).plan = s.plan := by cases g <;> rfl
@[simp] theorem setStep_shelf (g : Staging) (v : Option Step) (s : State) : (setStep g v s).shelf = s.shelf := by cases g <;> rfl
@[simp] theorem setStep_integ (g : Staging) (v : Option Step) (s : State) : (setStep g v s).integ = s.integ := by cases g <;> rfl
@[simp] theorem setStep_ctl (g : Staging) (v : Option Step) (s : State) : (setStep g v s).ctl = s.ctl := by cases g <;> rfl
@[simp] theorem setStep_win (g : Staging) (v : Option Step) (s : State) : (setStep g v s).win = s.win := by cases g <;> rfl
@[simp] theorem setStep_asm (g : Staging) (v : Option Step) (s : State) : (setStep g v s).asm = s.asm := by cases g <;> rfl

/-! ### `updStep` -/

@[simp] theorem updStep_pending (g : Staging) (f : Step → Step) (s : State) : (updStep g f s).pending = s.pending := by cases g <;> rfl
@[simp] theorem updStep_todo (g : Staging) (f : Step → Step) (s : State) : (updStep g f s).todo = s.todo := by cases g <;> rfl
@[simp] theorem updStep_out (g : Staging) (f : Step → Step) (s : State) : (updStep g f s).out = s.out := by cases g <;> rfl
@[simp] theorem updStep_port (g : Staging) (f : Step → Step) (s : State) : (updStep g f s).port = s.port := by cases g <;> rfl
@[simp] theorem updStep_locks (g : Staging) (f : Step → Step) (s : State) : (updStep g f s).locks = s.locks := by cases g <;> rfl
@[simp] theorem updStep_holds (g : Staging) (f : Step → Step) (s : State) : (updStep g f s).holds = s.holds := by cases g <;> rfl
@[simp] theorem updStep_mark (g : Staging) (f : Step → Step) (s : State) : (updStep g f s).mark = s.mark := by cases g <;> rfl
@[simp] theorem updStep_plan (g : Staging) (f : Step → Step) (s : State) : (updStep g f s).plan = s.plan := by cases g <;> rfl
@[simp] theorem updStep_shelf (g : Staging) (f : Step → Step) (s : State) : (updStep g f s).shelf = s.shelf := by cases g <;> rfl
@[simp] theorem updStep_integ (g : Staging) (f : Step → Step) (s : State) : (updStep g f s).integ = s.integ := by cases g <;> rfl
@[simp] theorem updStep_ctl (g : Staging) (f : Step → Step) (s : State) : (updStep g f s).ctl = s.ctl := by cases g <;> rfl
@[simp] theorem updStep_win (g : Staging) (f : Step → Step) (s : State) : (updStep g f s).win = s.win := by cases g <;> rfl
@[simp] theorem updStep_asm (g : Staging) (f : Step → Step) (s : State) : (updStep g f s).asm = s.asm := by cases g <;> rfl

/-! ### `accept` -/

@[simp] theorem accept_pending (g : Tag) (k : ReqKind) (lba c : Nat) (bs : List Block) (st : ReqState) (s : State) : (accept g k lba c bs st s).pending = s.pending := rfl
@[simp] theorem accept_todo (g : Tag) (k : ReqKind) (lba c : Nat) (bs : List Block) (st : ReqState) (s : State) : (accept g k lba c bs st s).todo = s.todo := rfl
@[simp] theorem accept_out (g : Tag) (k : ReqKind) (lba c : Nat) (bs : List Block) (st : ReqState) (s : State) : (accept g k lba c bs st s).out = s.out := rfl
@[simp] theorem accept_locks (g : Tag) (k : ReqKind) (lba c : Nat) (bs : List Block) (st : ReqState) (s : State) : (accept g k lba c bs st s).locks = s.locks := rfl
@[simp] theorem accept_holds (g : Tag) (k : ReqKind) (lba c : Nat) (bs : List Block) (st : ReqState) (s : State) : (accept g k lba c bs st s).holds = s.holds := rfl
@[simp] theorem accept_mover (g : Tag) (k : ReqKind) (lba c : Nat) (bs : List Block) (st : ReqState) (s : State) : (accept g k lba c bs st s).mover = s.mover := rfl
@[simp] theorem accept_mark (g : Tag) (k : ReqKind) (lba c : Nat) (bs : List Block) (st : ReqState) (s : State) : (accept g k lba c bs st s).mark = s.mark := rfl
@[simp] theorem accept_plan (g : Tag) (k : ReqKind) (lba c : Nat) (bs : List Block) (st : ReqState) (s : State) : (accept g k lba c bs st s).plan = s.plan := rfl
@[simp] theorem accept_shelf (g : Tag) (k : ReqKind) (lba c : Nat) (bs : List Block) (st : ReqState) (s : State) : (accept g k lba c bs st s).shelf = s.shelf := rfl
@[simp] theorem accept_integ (g : Tag) (k : ReqKind) (lba c : Nat) (bs : List Block) (st : ReqState) (s : State) : (accept g k lba c bs st s).integ = s.integ := rfl
@[simp] theorem accept_ctl (g : Tag) (k : ReqKind) (lba c : Nat) (bs : List Block) (st : ReqState) (s : State) : (accept g k lba c bs st s).ctl = s.ctl := rfl
@[simp] theorem accept_win (g : Tag) (k : ReqKind) (lba c : Nat) (bs : List Block) (st : ReqState) (s : State) : (accept g k lba c bs st s).win = s.win := rfl
@[simp] theorem accept_asm (g : Tag) (k : ReqKind) (lba c : Nat) (bs : List Block) (st : ReqState) (s : State) : (accept g k lba c bs st s).asm = s.asm := rfl

/-! ### `acceptPassing` -/

@[simp] theorem acceptPassing_pending (s : State) : (acceptPassing s).pending = s.pending := rfl
@[simp] theorem acceptPassing_todo (s : State) : (acceptPassing s).todo = s.todo := rfl
@[simp] theorem acceptPassing_out (s : State) : (acceptPassing s).out = s.out := rfl
@[simp] theorem acceptPassing_locks (s : State) : (acceptPassing s).locks = s.locks := rfl
@[simp] theorem acceptPassing_holds (s : State) : (acceptPassing s).holds = s.holds := rfl
@[simp] theorem acceptPassing_mover (s : State) : (acceptPassing s).mover = s.mover := rfl
@[simp] theorem acceptPassing_mark (s : State) : (acceptPassing s).mark = s.mark := rfl
@[simp] theorem acceptPassing_plan (s : State) : (acceptPassing s).plan = s.plan := rfl
@[simp] theorem acceptPassing_shelf (s : State) : (acceptPassing s).shelf = s.shelf := rfl
@[simp] theorem acceptPassing_integ (s : State) : (acceptPassing s).integ = s.integ := rfl
@[simp] theorem acceptPassing_ctl (s : State) : (acceptPassing s).ctl = s.ctl := rfl
@[simp] theorem acceptPassing_win (s : State) : (acceptPassing s).win = s.win := rfl
@[simp] theorem acceptPassing_asm (s : State) : (acceptPassing s).asm = s.asm := rfl

/-! ### What the updates write -/

@[simp] theorem State.withQueue_pending (s : State) (q : List Instr) : (s.withQueue q).pending = q := rfl
@[simp] theorem push_todo (e : Ev) (s : State) : (push e s).todo = s.todo ++ [e] := rfl
@[simp] theorem raise_events (e : Event) (s : State) : (raise e s).win.events = s.win.events.set e := rfl
@[simp] theorem send_out (g : Tag) (st : Status) (fl : Option Nat) (d : List Block) (s : State) :
    (send g st fl d s).out = s.out ++ [{ tag := g, status := st, failing := fl, marker := marker s, data := d }] := rfl
@[simp] theorem updBay_nextOp (i : Slot) (f : Bay → Bay) (s : State) :
    (updBay i f s).shelf.nextOp = s.shelf.nextOp := rfl
@[simp] theorem State.setBay_bay_same (s : State) (i : Slot) (b : Bay) : (s.setBay i b).bay i = b := by
  simp [State.setBay, State.bay]
theorem State.setBay_bay_ne (s : State) {i j : Slot} (b : Bay) (h : j ≠ i) : (s.setBay i b).bay j = s.bay j := by
  have hv : i.val ≠ j.val := fun e => h (Fin.ext e.symm)
  simp [State.setBay, State.bay, Vector.getElem_set_ne, hv]
@[simp] theorem updBay_bay_same (i : Slot) (f : Bay → Bay) (s : State) : (updBay i f s).bay i = f (s.bay i) := by
  simp [updBay]
theorem updBay_bay_ne {i j : Slot} (f : Bay → Bay) (s : State) (h : j ≠ i) : (updBay i f s).bay j = s.bay j :=
  State.setBay_bay_ne s (f (s.bay i)) h

end Sys2Proof.Machine
end

