-- ==== Sys2Proof/Laws/Keeps.lean ====
section
/-! SUPPORT. The relation that everything following from a command keeps, and its closure under the named updates. -/

namespace Sys2Proof.Machine

/-- What an entry of the request table never changes: its tag and its arrival number (R21, R25). -/
def Entry.key (e : Entry) : Tag × Nat := (e.tag, e.arrival)

/-- What no operation outside the window unit's own directives changes: the queue of commands stays, completions and
numbers only grow, no request enters the table, the lock table stays within its bound, the tuning values and the window
unit stay but for flags that are raised. -/
structure Keeps (s t : State) : Prop where
  pending : t.pending = s.pending
  out     : s.out <+: t.out
  ops     : s.shelf.nextOp ≤ t.shelf.nextOp
  arrival : s.port.nextArrival ≤ t.port.nextArrival
  tags    : (t.port.entries.map Entry.key).Sublist (s.port.entries.map Entry.key)
  locks   : t.locks.entries.length ≤ max Config.maxLocks s.locks.entries.length
  tuning  : t.ctl.tuning = s.ctl.tuning
  window  : t.win = { s.win with events := t.win.events }
  events  : ∀ e, s.win.events.has e = true → t.win.events.has e = true

theorem Keeps.refl (s : State) : Keeps s s :=
  ⟨rfl, List.prefix_rfl, le_rfl, le_rfl, List.Sublist.refl _, le_max_right _ _, rfl, rfl, fun _ h => h⟩

theorem Keeps.trans {s t u : State} (h : Keeps s t) (g : Keeps t u) : Keeps s u where
  pending := g.pending.trans h.pending
  out := h.out.trans g.out
  ops := h.ops.trans g.ops
  arrival := h.arrival.trans g.arrival
  tags := g.tags.trans h.tags
  locks := by have := h.locks; have := g.locks; omega
  tuning := g.tuning.trans h.tuning
  window := by have h1 := h.window; have h2 := g.window; rw [h2]; simp only []; rw [h1]
  events := fun e he => g.events e (h.events e he)

/-- An update that leaves queue, completions, ports, locks, numbers, tuning and window as they are. -/
theorem Keeps.upd {s0 s : State} {todo holds mover mark plan integ asm} {shelf : ShelfUnit} {ctl : EngineControl}
    (h : Keeps s0 s) (hs : shelf.nextOp = s.shelf.nextOp) (hc : ctl.tuning = s.ctl.tuning) :
    Keeps s0 (State.mk s.pending todo s.out s.port s.locks holds mover mark plan shelf integ ctl s.win asm) :=
  ⟨h.pending, h.out, by simpa [hs] using h.ops, h.arrival, h.tags, h.locks, by simpa [hc] using h.tuning, h.window, h.events⟩

/-- An update of the request table that adds no entry. -/
theorem Keeps.updPort {s0 s : State} {todo holds mover mark plan integ asm} {port : PortState} {locks : LockTable}
    {shelf : ShelfUnit} {ctl : EngineControl} (h : Keeps s0 s)
    (ha : s.port.nextArrival ≤ port.nextArrival)
    (ht : (port.entries.map Entry.key).Sublist (s.port.entries.map Entry.key))
    (hl : locks.entries.length ≤ s.locks.entries.length)
    (hs : shelf.nextOp = s.shelf.nextOp) (hc : ctl.tuning = s.ctl.tuning) :
    Keeps s0 (State.mk s.pending todo s.out port locks holds mover mark plan shelf integ ctl s.win asm) :=
  ⟨h.pending, h.out, by simpa [hs] using h.ops, h.arrival.trans ha, ht.trans h.tags, by have := h.locks; simp only []; omega,
   by simpa [hc] using h.tuning, h.window, h.events⟩

/-- The parts of a state that `Keeps` looks at. -/
def KeepsParts (s0 : State) (pending : List Instr) (out : List Completion) (port : PortState) (locks : LockTable)
    (shelf : ShelfUnit) (ctl : EngineControl) (win : WindowUnit) : Prop :=
  Keeps s0 { State.reset with pending, out, port, locks, shelf, ctl, win }

theorem keeps_mk {s0 : State} {pending todo out port locks holds mover mark plan shelf integ ctl win asm} :
    Keeps s0 (State.mk pending todo out port locks holds mover mark plan shelf integ ctl win asm)
      ↔ KeepsParts s0 pending out port locks shelf ctl win :=
  ⟨fun h => ⟨h.pending, h.out, h.ops, h.arrival, h.tags, h.locks, h.tuning, h.window, h.events⟩,
   fun h => ⟨h.pending, h.out, h.ops, h.arrival, h.tags, h.locks, h.tuning, h.window, h.events⟩⟩

theorem Keeps.parts {s0 s : State} {shelf : ShelfUnit} {ctl : EngineControl} (h : Keeps s0 s)
    (hs : shelf.nextOp = s.shelf.nextOp) (hc : ctl.tuning = s.ctl.tuning) :
    KeepsParts s0 s.pending s.out s.port s.locks shelf ctl s.win := Keeps.upd h hs hc

theorem Keeps.partsOp {s0 s : State} (h : Keeps s0 s) {bays : Vector Bay 64} {ctl : EngineControl}
    (hc : ctl.tuning = s.ctl.tuning) :
    KeepsParts s0 s.pending s.out s.port s.locks ⟨bays, s.shelf.nextOp + 1⟩ ctl s.win :=
  ⟨h.pending, h.out, h.ops.trans (Nat.le_succ _), h.arrival, h.tags, h.locks, hc.trans h.tuning, h.window, h.events⟩

theorem Keeps.partsPort {s0 s : State} {port : PortState} {locks : LockTable} {shelf : ShelfUnit} {ctl : EngineControl}
    (h : Keeps s0 s)
    (ha : s.port.nextArrival ≤ port.nextArrival)
    (ht : (port.entries.map Entry.key).Sublist (s.port.entries.map Entry.key))
    (hl : locks.entries.length ≤ s.locks.entries.length)
    (hs : shelf.nextOp = s.shelf.nextOp) (hc : ctl.tuning = s.ctl.tuning) :
    KeepsParts s0 s.pending s.out port locks shelf ctl s.win := Keeps.updPort h ha ht hl hs hc

/-! ## Iteration -/

theorem foldl_keeps {α : Type} {s0 : State} (f : State → α → State)
    (hf : ∀ s a, Keeps s0 s → Keeps s0 (f s a)) (l : List α) : ∀ s, Keeps s0 s → Keeps s0 (l.foldl f s) := by
  induction l with
  | nil => intro s h; exact h
  | cons a l ih => intro s h; exact ih _ (hf s a h)

theorem foldl_fst_keeps {α β : Type} {s0 : State} (f : State × β → α → State × β)
    (hf : ∀ p a, Keeps s0 p.1 → Keeps s0 (f p a).1) (l : List α) :
    ∀ p, Keeps s0 p.1 → Keeps s0 (l.foldl f p).1 := by
  induction l with
  | nil => intro s h; exact h
  | cons a l ih => intro s h; exact ih _ (hf s a h)

/-! ## The named updates -/

theorem Events.has_set (f : Events) (a e : Event) (h : f.has e = true) : (f.set a).has e = true := by
  cases a <;> cases e <;> simp_all [Events.set, Events.has]

theorem raise_keeps {s0 s : State} (e : Event) (h : Keeps s0 s) : Keeps s0 (raise e s) :=
  h.trans ⟨rfl, List.prefix_rfl, le_rfl, le_rfl, List.Sublist.refl _, le_max_right _ _, rfl, rfl,
    fun a ha => Events.has_set _ e a ha⟩

theorem send_keeps {s0 s : State} (g : Tag) (st : Status) (fl : Option Nat) (d : List Block) (h : Keeps s0 s) :
    Keeps s0 (send g st fl d s) :=
  h.trans ⟨rfl, List.prefix_append _ _, le_rfl, le_rfl, List.Sublist.refl _, le_max_right _ _, rfl, rfl, fun _ ha => ha⟩

theorem push_keeps {s0 s : State} (e : Ev) (h : Keeps s0 s) : Keeps s0 (push e s) := h.upd rfl rfl

theorem setBay_keeps {s0 s : State} (i : Slot) (b : Bay) (h : Keeps s0 s) : Keeps s0 (s.setBay i b) := h.upd rfl rfl

theorem updBay_keeps {s0 s : State} (i : Slot) (f : Bay → Bay) (h : Keeps s0 s) : Keeps s0 (updBay i f s) := h.upd rfl rfl

theorem updAllBays_keeps {s0 s : State} (f : Bay → Bay) (h : Keeps s0 s) : Keeps s0 (updAllBays f s) := h.upd rfl rfl

theorem takeCapture_keeps {s0 s : State} (c : Capture) (h : Keeps s0 s) : Keeps s0 (takeCapture c s) :=
  raise_keeps _ (h.upd rfl rfl)

theorem captureAt_keeps {s0 s : State} (k : CaptureKind) (i : Slot) (b : Nat) (h : Keeps s0 s) :
    Keeps s0 (captureAt k i b s) := takeCapture_keeps _ h

theorem tagErrorAt_keeps {s0 s : State} (i : Slot) (b : Nat) (h : Keeps s0 s) : Keeps s0 (tagErrorAt i b s) :=
  captureAt_keeps _ _ _ (updBay_keeps _ _ h)

theorem updReq_keeps {s0 s : State} (a : Nat) (f : Entry → Entry) (hf : ∀ e, (f e).key = e.key) (h : Keeps s0 s) :
    Keeps s0 (updReq a f s) := by
  refine h.updPort le_rfl ?_ le_rfl rfl rfl
  have : (updReq a f s).port.entries.map Entry.key = s.port.entries.map Entry.key := by
    simp only [updReq, List.map_map]
    refine List.map_congr_left (fun e _ => ?_)
    simp only [Function.comp]; split
    · exact hf e
    · rfl
  exact this ▸ List.Sublist.refl _

theorem freeEntry_keeps {s0 s : State} (a : Nat) (h : Keeps s0 s) : Keeps s0 (freeEntry a s) :=
  h.updPort le_rfl (List.Sublist.map _ List.filter_sublist) le_rfl rfl rfl

theorem updLocks_keeps {s0 s : State} (f : LockEntry → LockEntry) (h : Keeps s0 s) : Keeps s0 (updLocks f s) :=
  h.updPort le_rfl (List.Sublist.refl _) (by simpa using List.length_filter_le LockEntry.used (s.locks.entries.map f)) rfl rfl

theorem leaveLocks_keeps {s0 s : State} (a : Nat) (h : Keeps s0 s) : Keeps s0 (leaveLocks a s) :=
  (updLocks_keeps (LockEntry.without a) h).updPort le_rfl (List.Sublist.refl _) le_rfl rfl rfl

theorem giveUpKey_keeps {s0 s : State} (a : Nat) (k : Key) (h : Keeps s0 s) : Keeps s0 (giveUpKey a k s) :=
  updLocks_keeps _ h

theorem strikeRequest_keeps {s0 s : State} (a : Nat) (h : Keeps s0 s) : Keeps s0 (strikeRequest a s) := h.upd rfl rfl

theorem strikeReader_keeps {s0 s : State} (r : Reader) (h : Keeps s0 s) : Keeps s0 (strikeReader r s) := h.upd rfl rfl

theorem complete_keeps {s0 s : State} (e : Entry) (st : Status) (fl : Option Nat) (d : List Block) (h : Keeps s0 s) :
    Keeps s0 (complete e st fl d s) :=
  send_keeps _ _ _ _ (freeEntry_keeps _ (leaveLocks_keeps _ (strikeRequest_keeps _ h)))

theorem setStep_keeps {s0 s : State} (g : Staging) (v : Option Step) (h : Keeps s0 s) : Keeps s0 (setStep g v s) := by
  cases g <;> exact h.upd rfl rfl

theorem updStep_keeps {s0 s : State} (g : Staging) (f : Step → Step) (h : Keeps s0 s) : Keeps s0 (updStep g f s) :=
  setStep_keeps _ _ h

theorem refreshMark_keeps {s0 s : State} (h : Keeps s0 s) : Keeps s0 (refreshMark s) := by
  unfold refreshMark
  split <;> first | exact h | exact h.upd rfl rfl

end Sys2Proof.Machine
end

