-- ==== Sys2Proof/Laws/KeepsShelf.lean ====
section
/-! SUPPORT. The relation Keeps through the shelf unit and the hold queue. -/

set_option linter.unusedTactic false
set_option linter.unreachableTactic false
set_option linter.unusedSimpArgs false
set_option linter.unnecessarySeqFocus false

namespace Sys2Proof.Machine

/-! ### Shelf -/

theorem grants_keeps {s0 s : State} (i : Slot) (h : Keeps s0 s) : Keeps s0 (grants i s) := by
  unfold grants
  (try dsimp only)
  (repeat' (first | with_reducible assumption | (intro _; rfl) | with_reducible apply updBay_keeps | (with_reducible refine foldl_keeps _ (fun _ _ _ => ?_) _ _ ?_) | (with_reducible refine foldl_fst_keeps _ (fun _ _ _ => ?_) _ _ ?_) | (simp only [keeps_mk]) | (with_reducible refine Keeps.parts ?_ ?_ ?_) | (with_reducible rfl) | (with_reducible rfl) | (intro _) | split))

theorem enqueue_keeps {s0 s : State} (op : MemberOp) (h : Keeps s0 s) : Keeps s0 (enqueue op s) := by
  unfold enqueue
  (try dsimp only)
  (repeat' (first | with_reducible assumption | (intro _; rfl) | with_reducible apply push_keeps | with_reducible apply updBay_keeps | with_reducible apply grants_keeps | (with_reducible refine foldl_keeps _ (fun _ _ _ => ?_) _ _ ?_) | (with_reducible refine foldl_fst_keeps _ (fun _ _ _ => ?_) _ _ ?_) | (simp only [keeps_mk]) | (with_reducible refine Keeps.parts ?_ ?_ ?_) | (with_reducible rfl) | (with_reducible rfl) | (intro _) | split))

theorem strikeCovered_keeps {s0 s : State} (op : MemberOp) (h : Keeps s0 s) : Keeps s0 (strikeCovered op s) := by
  unfold strikeCovered
  (try dsimp only)
  (repeat' (first | with_reducible assumption | (intro _; rfl) | (with_reducible refine foldl_keeps _ (fun _ _ _ => ?_) _ _ ?_) | (with_reducible refine foldl_fst_keeps _ (fun _ _ _ => ?_) _ _ ?_) | (simp only [keeps_mk]) | (with_reducible refine Keeps.parts ?_ ?_ ?_) | (with_reducible rfl) | (with_reducible rfl) | (intro _) | split))

theorem noteRepair_keeps {s0 s : State} (op : MemberOp) (h : Keeps s0 s) : Keeps s0 (noteRepair op s) := by
  unfold noteRepair
  (try dsimp only)
  (repeat' (first | with_reducible assumption | (intro _; rfl) | (with_reducible refine foldl_keeps _ (fun _ _ _ => ?_) _ _ ?_) | (with_reducible refine foldl_fst_keeps _ (fun _ _ _ => ?_) _ _ ?_) | (simp only [keeps_mk]) | (with_reducible refine Keeps.parts ?_ ?_ ?_) | (with_reducible rfl) | (with_reducible rfl) | (intro _) | split))

theorem handData_keeps {s0 s : State} (op : MemberOp) (h : Keeps s0 s) : Keeps s0 (handData op s) := by
  unfold handData
  (try dsimp only)
  (repeat' (first | with_reducible assumption | (intro _; rfl) | with_reducible apply enqueue_keeps | with_reducible apply strikeCovered_keeps | with_reducible apply noteRepair_keeps | (with_reducible refine foldl_keeps _ (fun _ _ _ => ?_) _ _ ?_) | (with_reducible refine foldl_fst_keeps _ (fun _ _ _ => ?_) _ _ ?_) | (simp only [keeps_mk]) | (with_reducible refine Keeps.parts ?_ ?_ ?_) | (with_reducible rfl) | (with_reducible rfl) | (intro _) | split))

theorem takeOp_keeps {s0 s : State} (h : Keeps s0 s) : Keeps s0 (takeOp s).2 := keeps_mk.mpr (h.partsOp rfl)

theorem handReserve_keeps {s0 s : State} (i : Slot) (cls : OpClass) (kind : OpKind) (owner : Owner) (h : Keeps s0 s) : Keeps s0 (handReserve i cls kind owner s) := by
  unfold handReserve
  (try dsimp only)
  (repeat' (first | with_reducible assumption | (intro _; rfl) | with_reducible apply enqueue_keeps | with_reducible apply takeOp_keeps | (with_reducible refine foldl_keeps _ (fun _ _ _ => ?_) _ _ ?_) | (with_reducible refine foldl_fst_keeps _ (fun _ _ _ => ?_) _ _ ?_) | (simp only [keeps_mk]) | (with_reducible refine Keeps.parts ?_ ?_ ?_) | (with_reducible rfl) | (with_reducible rfl) | (intro _) | split))

theorem handUnit_keeps {s0 s : State} (i : Slot) (cls : OpClass) (unit row off : Nat) (kind : Nat → OpKind) (owner : Owner) (h : Keeps s0 s) : Keeps s0 (handUnit i cls unit row off kind owner s) := by
  unfold handUnit
  (try dsimp only)
  (repeat' (first | with_reducible assumption | (intro _; rfl) | with_reducible apply handData_keeps | with_reducible apply takeOp_keeps | (with_reducible refine foldl_keeps _ (fun _ _ _ => ?_) _ _ ?_) | (with_reducible refine foldl_fst_keeps _ (fun _ _ _ => ?_) _ _ ?_) | (simp only [keeps_mk]) | (with_reducible refine Keeps.parts ?_ ?_ ?_) | (with_reducible rfl) | (with_reducible rfl) | (intro _) | split))

theorem handPiece_keeps {s0 s : State} (g : Staging) (op : MemberOp) (first : Nat) (cut : Nat × Nat) (h : Keeps s0 s) : Keeps s0 (handPiece g op first cut s) := by
  unfold handPiece
  (try dsimp only)
  (repeat' (first | with_reducible assumption | (intro _; rfl) | with_reducible apply handUnit_keeps | with_reducible apply updStep_keeps | (with_reducible refine foldl_keeps _ (fun _ _ _ => ?_) _ _ ?_) | (with_reducible refine foldl_fst_keeps _ (fun _ _ _ => ?_) _ _ ?_) | (simp only [keeps_mk]) | (with_reducible refine Keeps.parts ?_ ?_ ?_) | (with_reducible rfl) | (with_reducible rfl) | (intro _) | split))

theorem handHeld_keeps {s0 s : State} (op : MemberOp) (h : Keeps s0 s) : Keeps s0 (handHeld op s) := by
  unfold handHeld
  (try dsimp only)
  (repeat' (first | with_reducible assumption | (intro _; rfl) | with_reducible apply handPiece_keeps | with_reducible apply updStep_keeps | with_reducible apply handData_keeps | with_reducible apply handUnit_keeps | (with_reducible refine foldl_keeps _ (fun _ _ _ => ?_) _ _ ?_) | (with_reducible refine foldl_fst_keeps _ (fun _ _ _ => ?_) _ _ ?_) | (simp only [keeps_mk]) | (with_reducible refine Keeps.parts ?_ ?_ ?_) | (with_reducible rfl) | (with_reducible rfl) | (intro _) | split))

theorem releaseHeld_keeps {s0 s : State}  (h : Keeps s0 s) : Keeps s0 (releaseHeld s) := by
  unfold releaseHeld
  (try dsimp only)
  (repeat' (first | with_reducible assumption | (intro _; rfl) | with_reducible apply handHeld_keeps | (with_reducible refine foldl_keeps _ (fun _ _ _ => ?_) _ _ ?_) | (with_reducible refine foldl_fst_keeps _ (fun _ _ _ => ?_) _ _ ?_) | (simp only [keeps_mk]) | (with_reducible refine Keeps.parts ?_ ?_ ?_) | (with_reducible rfl) | (with_reducible rfl) | (intro _) | split))

theorem recallUnit_keeps {s0 s : State} (i : Slot) (row : Nat) (h : Keeps s0 s) : Keeps s0 (recallUnit i row s) := by
  unfold recallUnit
  (try dsimp only)
  (repeat' (first | with_reducible assumption | (intro _; rfl) | with_reducible apply updBay_keeps | (with_reducible refine foldl_keeps _ (fun _ _ _ => ?_) _ _ ?_) | (with_reducible refine foldl_fst_keeps _ (fun _ _ _ => ?_) _ _ ?_) | (simp only [keeps_mk]) | (with_reducible refine Keeps.parts ?_ ?_ ?_) | (with_reducible rfl) | (with_reducible rfl) | (intro _) | split))

theorem endAllGone_keeps {s0 s : State} (i : Slot) (h : Keeps s0 s) : Keeps s0 (endAllGone i s) := by
  unfold endAllGone
  (try dsimp only)
  (repeat' (first | with_reducible assumption | (intro _; rfl) | with_reducible apply push_keeps | with_reducible apply updBay_keeps | (with_reducible refine foldl_keeps _ (fun _ _ _ => ?_) _ _ ?_) | (with_reducible refine foldl_fst_keeps _ (fun _ _ _ => ?_) _ _ ?_) | (simp only [keeps_mk]) | (with_reducible refine Keeps.parts ?_ ?_ ?_) | (with_reducible rfl) | (with_reducible rfl) | (intro _) | split))

theorem freeIssue_keeps {s0 s : State} (i : Slot) (op : Nat) (h : Keeps s0 s) : Keeps s0 (freeIssue i op s) := by
  unfold freeIssue
  (try dsimp only)
  (repeat' (first | with_reducible assumption | (intro _; rfl) | with_reducible apply updBay_keeps | with_reducible apply grants_keeps | (with_reducible refine foldl_keeps _ (fun _ _ _ => ?_) _ _ ?_) | (with_reducible refine foldl_fst_keeps _ (fun _ _ _ => ?_) _ _ ?_) | (simp only [keeps_mk]) | (with_reducible refine Keeps.parts ?_ ?_ ?_) | (with_reducible rfl) | (with_reducible rfl) | (intro _) | split))

theorem resend_keeps {s0 s : State} (i : Slot) (op : Nat) (f : Issued → Issued) (h : Keeps s0 s) : Keeps s0 (resend i op f s) := by
  unfold resend
  (try dsimp only)
  (repeat' (first | with_reducible assumption | (intro _; rfl) | with_reducible apply updBay_keeps | (with_reducible refine foldl_keeps _ (fun _ _ _ => ?_) _ _ ?_) | (with_reducible refine foldl_fst_keeps _ (fun _ _ _ => ?_) _ _ ?_) | (simp only [keeps_mk]) | (with_reducible refine Keeps.parts ?_ ?_ ?_) | (with_reducible rfl) | (with_reducible rfl) | (intro _) | split))

/-! ### Holding -/

theorem raiseCause_keeps {s0 s : State} (k : CauseKind) (h : Keeps s0 s) : Keeps s0 (raiseCause k s) := by
  unfold raiseCause
  (try dsimp only)
  (repeat' (first | with_reducible assumption | (intro _; rfl) | (with_reducible refine foldl_keeps _ (fun _ _ _ => ?_) _ _ ?_) | (with_reducible refine foldl_fst_keeps _ (fun _ _ _ => ?_) _ _ ?_) | (simp only [keeps_mk]) | (with_reducible refine Keeps.parts ?_ ?_ ?_) | (with_reducible rfl) | (with_reducible rfl) | (intro _) | split))

theorem holdRequest_keeps {s0 s : State} (e : Entry) (r : HoldReason) (h : Keeps s0 s) : Keeps s0 (holdRequest e r s) := by
  unfold holdRequest
  (try dsimp only)
  (repeat' (first | with_reducible assumption | (intro _; rfl) | with_reducible apply updReq_keeps | with_reducible apply raiseCause_keeps | (with_reducible refine foldl_keeps _ (fun _ _ _ => ?_) _ _ ?_) | (with_reducible refine foldl_fst_keeps _ (fun _ _ _ => ?_) _ _ ?_) | (simp only [keeps_mk]) | (with_reducible refine Keeps.parts ?_ ?_ ?_) | (with_reducible rfl) | (with_reducible rfl) | (intro _) | split))

theorem releaseHolds_keeps {s0 s : State} (p : HoldReason → Bool) (h : Keeps s0 s) : Keeps s0 (releaseHolds p s) := by
  unfold releaseHolds
  (try dsimp only)
  (repeat' (first | with_reducible assumption | (intro _; rfl) | with_reducible apply push_keeps | (with_reducible refine foldl_keeps _ (fun _ _ _ => ?_) _ _ ?_) | (with_reducible refine foldl_fst_keeps _ (fun _ _ _ => ?_) _ _ ?_) | (simp only [keeps_mk]) | (with_reducible refine Keeps.parts ?_ ?_ ?_) | (with_reducible rfl) | (with_reducible rfl) | (intro _) | split))

theorem joinKeys_keeps {s0 s : State} (a : Nat) (write : Bool) (ks : List Key) (hf : s.lockFits ks = true)
    (h : Keeps s0 s) : Keeps s0 (joinKeys a write ks s) := by
  refine ⟨h.pending, h.out, h.ops, h.arrival, h.tags, ?_, h.tuning, h.window, h.events⟩
  have := h.locks
  simp only [State.lockFits, decide_eq_true_eq] at hf
  simp only [joinKeys, List.length_map, List.length_append]
  omega

theorem joinOrQueue_keeps {s0 s : State} (a : Nat) (write : Bool) (ks : List Key) (h : Keeps s0 s) :
    Keeps s0 (joinOrQueue a write ks s).1 := by
  unfold joinOrQueue
  split
  · rename_i hc
    exact joinKeys_keeps _ _ _ (by simp only [Bool.and_eq_true] at hc; exact hc.1) h
  · exact keeps_mk.mpr (h.partsPort le_rfl (List.Sublist.refl _) le_rfl rfl rfl)

theorem grantKeys_keeps {s0 s : State} (a : Nat) (write : Bool) (ks : List Key) (h : Keeps s0 s) : Keeps s0 (grantKeys a write ks s) := by
  unfold grantKeys
  (try dsimp only)
  (repeat' (first | with_reducible assumption | (intro _; rfl) | with_reducible apply updLocks_keeps | (with_reducible refine foldl_keeps _ (fun _ _ _ => ?_) _ _ ?_) | (with_reducible refine foldl_fst_keeps _ (fun _ _ _ => ?_) _ _ ?_) | (simp only [keeps_mk]) | (with_reducible refine Keeps.parts ?_ ?_ ?_) | (with_reducible rfl) | (with_reducible rfl) | (intro _) | split))

theorem syncLayouts_keeps {s0 s : State} (h : Keeps s0 s) : Keeps s0 (syncLayouts s) := by
  refine keeps_mk.mpr (h.partsPort le_rfl ?_ le_rfl rfl rfl)
  have : (s.port.entries.map (Entry.mapLayouts s.layoutNow)).map Entry.key = s.port.entries.map Entry.key := by
    rw [List.map_map]; rfl
  exact this ▸ List.Sublist.refl _

theorem renameKeys_keeps {s0 s : State} (src dst : LayoutId) (h : Keeps s0 s) : Keeps s0 (renameKeys src dst s) := by
  refine keeps_mk.mpr (h.partsPort le_rfl ?_ ?_ rfl rfl)
  · have : (s.port.entries.map (fun e =>
        Entry.mapLayouts (Layout.rename src dst) { e with keys := e.keys.map (Key.rename src dst) })).map Entry.key
          = s.port.entries.map Entry.key := by
      rw [List.map_map]; rfl
    exact this ▸ List.Sublist.refl _
  · exact le_of_eq (by simp)

theorem enterPath_keeps {s0 s : State} (a : Nat) (h : Keeps s0 s) : Keeps s0 (enterPath a s) := by
  unfold enterPath
  (try dsimp only)
  (repeat' (first | with_reducible assumption | (intro _; rfl) | with_reducible apply updReq_keeps | with_reducible apply holdRequest_keeps | with_reducible apply joinOrQueue_keeps | (with_reducible refine foldl_keeps _ (fun _ _ _ => ?_) _ _ ?_) | (with_reducible refine foldl_fst_keeps _ (fun _ _ _ => ?_) _ _ ?_) | (simp only [keeps_mk]) | (with_reducible refine Keeps.parts ?_ ?_ ?_) | (with_reducible rfl) | (with_reducible rfl) | (intro _) | split))

theorem releaseRequest_keeps {s0 s : State} (a : Nat) (h : Keeps s0 s) : Keeps s0 (releaseRequest a s) := by
  unfold releaseRequest
  (try dsimp only)
  (repeat' (first | with_reducible assumption | (intro _; rfl) | with_reducible apply complete_keeps | with_reducible apply enterPath_keeps | (with_reducible refine foldl_keeps _ (fun _ _ _ => ?_) _ _ ?_) | (with_reducible refine foldl_fst_keeps _ (fun _ _ _ => ?_) _ _ ?_) | (simp only [keeps_mk]) | (with_reducible refine Keeps.parts ?_ ?_ ?_) | (with_reducible rfl) | (with_reducible rfl) | (intro _) | split))
end Sys2Proof.Machine
end

