-- ==== Sys2Proof/Laws/KeepsControl.lean ====
section
/-! SUPPORT. The relation Keeps through labels, engine control and fetching. -/

set_option linter.unusedTactic false
set_option linter.unreachableTactic false
set_option linter.unusedSimpArgs false
set_option linter.unnecessarySeqFocus false

namespace Sys2Proof.Machine

/-! ### Labels -/

theorem hardenRemaps_keeps {s0 s : State} (i : Slot) (h : Keeps s0 s) : Keeps s0 (hardenRemaps i s) := by
  unfold hardenRemaps
  (try dsimp only)
  (repeat' (first | with_reducible assumption | (intro _; rfl) | with_reducible apply updBay_keeps | (with_reducible refine foldl_keeps _ (fun _ _ _ => ?_) _ _ ?_) | (with_reducible refine foldl_fst_keeps _ (fun _ _ _ => ?_) _ _ ?_) | (simp only [keeps_mk]) | (with_reducible refine Keeps.parts ?_ ?_ ?_) | (with_reducible rfl) | (with_reducible rfl) | (intro _) | split))

theorem handLabels_keeps {s0 s : State} (l : Label) (owner : Owner) (h : Keeps s0 s) : Keeps s0 (handLabels l owner s) := by
  unfold handLabels
  (try dsimp only)
  (repeat' (first | with_reducible assumption | (intro _; rfl) | with_reducible apply handReserve_keeps | (with_reducible refine foldl_keeps _ (fun _ _ _ => ?_) _ _ ?_) | (with_reducible refine foldl_fst_keeps _ (fun _ _ _ => ?_) _ _ ?_) | (simp only [keeps_mk]) | (with_reducible refine Keeps.parts ?_ ?_ ?_) | (with_reducible rfl) | (with_reducible rfl) | (intro _) | split))

theorem beginLabel_keeps {s0 s : State}  (h : Keeps s0 s) : Keeps s0 (beginLabel s) := by
  unfold beginLabel
  (try dsimp only)
  (repeat' (first | with_reducible assumption | (intro _; rfl) | with_reducible apply hardenRemaps_keeps | with_reducible apply handLabels_keeps | (with_reducible refine foldl_keeps _ (fun _ _ _ => ?_) _ _ ?_) | (with_reducible refine foldl_fst_keeps _ (fun _ _ _ => ?_) _ _ ?_) | (simp only [keeps_mk]) | (with_reducible refine Keeps.parts ?_ ?_ ?_) | (with_reducible rfl) | (with_reducible rfl) | (intro _) | split))

theorem beginAssemblyLabel_keeps {s0 s : State}  (h : Keeps s0 s) : Keeps s0 (beginAssemblyLabel s) := by
  unfold beginAssemblyLabel
  (try dsimp only)
  (repeat' (first | with_reducible assumption | (intro _; rfl) | with_reducible apply handLabels_keeps | (with_reducible refine foldl_keeps _ (fun _ _ _ => ?_) _ _ ?_) | (with_reducible refine foldl_fst_keeps _ (fun _ _ _ => ?_) _ _ ?_) | (simp only [keeps_mk]) | (with_reducible refine Keeps.parts ?_ ?_ ?_) | (with_reducible rfl) | (with_reducible rfl) | (intro _) | split))

theorem ruleLabel_keeps {s0 s : State} {t : State}  (h : Keeps s0 s) (e : ruleLabel s = some t) : Keeps s0 t := by
  unfold ruleLabel at e
  (try dsimp only at e)
  (repeat' split at e) <;> (try simp only [Option.map_eq_some_iff, Option.some.injEq, reduceCtorEq] at e) <;> (try obtain ⟨_, -, rfl⟩ := e) <;> (try subst e)
  all_goals (repeat' (first | with_reducible assumption | (intro _; rfl) | with_reducible apply beginLabel_keeps | (with_reducible refine foldl_keeps _ (fun _ _ _ => ?_) _ _ ?_) | (with_reducible refine foldl_fst_keeps _ (fun _ _ _ => ?_) _ _ ?_) | (simp only [keeps_mk]) | (with_reducible refine Keeps.parts ?_ ?_ ?_) | (with_reducible rfl) | (with_reducible rfl) | (intro _) | split))

/-! ### Control -/

theorem abandonStep_keeps {s0 s : State} (g : Staging) (t : Step) (h : Keeps s0 s) : Keeps s0 (abandonStep g t s) := by
  unfold abandonStep
  (try dsimp only)
  (repeat' (first | with_reducible assumption | (intro _; rfl) | with_reducible apply leaveLocks_keeps | with_reducible apply setStep_keeps | with_reducible apply releaseHolds_keeps | with_reducible apply strikeReader_keeps | (with_reducible refine foldl_keeps _ (fun _ _ _ => ?_) _ _ ?_) | (with_reducible refine foldl_fst_keeps _ (fun _ _ _ => ?_) _ _ ?_) | (simp only [keeps_mk]) | (with_reducible refine Keeps.parts ?_ ?_ ?_) | (with_reducible rfl) | (with_reducible rfl) | (intro _) | split))

theorem abandonGather_keeps {s0 s : State}  (h : Keeps s0 s) : Keeps s0 (abandonGather s) := by
  unfold abandonGather
  (try dsimp only)
  (repeat' (first | with_reducible assumption | (intro _; rfl) | with_reducible apply abandonStep_keeps | (with_reducible refine foldl_keeps _ (fun _ _ _ => ?_) _ _ ?_) | (with_reducible refine foldl_fst_keeps _ (fun _ _ _ => ?_) _ _ ?_) | (simp only [keeps_mk]) | (with_reducible refine Keeps.parts ?_ ?_ ?_) | (with_reducible rfl) | (with_reducible rfl) | (intro _) | split))

theorem ruleFreeSlot_keeps {s0 s : State} {t : State}  (h : Keeps s0 s) (e : ruleFreeSlot s = some t) : Keeps s0 t := by
  unfold ruleFreeSlot at e
  (try dsimp only at e)
  (repeat' split at e) <;> (try simp only [Option.map_eq_some_iff, Option.some.injEq, reduceCtorEq] at e) <;> (try obtain ⟨_, -, rfl⟩ := e) <;> (try subst e)
  all_goals (repeat' (first | with_reducible assumption | (intro _; rfl) | with_reducible apply setStep_keeps | (with_reducible refine foldl_keeps _ (fun _ _ _ => ?_) _ _ ?_) | (with_reducible refine foldl_fst_keeps _ (fun _ _ _ => ?_) _ _ ?_) | (simp only [keeps_mk]) | (with_reducible refine Keeps.parts ?_ ?_ ?_) | (with_reducible rfl) | (with_reducible rfl) | (intro _) | split))

theorem setVolume_keeps {s0 s : State}  (h : Keeps s0 s) : Keeps s0 (setVolume s) := by
  unfold setVolume
  (try dsimp only)
  (repeat' (first | with_reducible assumption | (intro _; rfl) | (with_reducible refine foldl_keeps _ (fun _ _ _ => ?_) _ _ ?_) | (with_reducible refine foldl_fst_keeps _ (fun _ _ _ => ?_) _ _ ?_) | (simp only [keeps_mk]) | (with_reducible refine Keeps.parts ?_ ?_ ?_) | (with_reducible rfl) | (with_reducible rfl) | (intro _) | split))

theorem takeFault_keeps {s0 s : State} (l : Option (LayoutId × Nat)) (h : Keeps s0 s) : Keeps s0 (takeFault l s) := by
  unfold takeFault
  (try dsimp only)
  (repeat' (first | with_reducible assumption | (intro _; rfl) | with_reducible apply raise_keeps | with_reducible apply abandonGather_keeps | (with_reducible refine foldl_keeps _ (fun _ _ _ => ?_) _ _ ?_) | (with_reducible refine foldl_fst_keeps _ (fun _ _ _ => ?_) _ _ ?_) | (simp only [keeps_mk]) | (with_reducible refine Keeps.parts ?_ ?_ ?_) | (with_reducible rfl) | (with_reducible rfl) | (intro _) | split))

theorem reportCounts_keeps {s0 s : State}  (h : Keeps s0 s) : Keeps s0 (reportCounts s) := by
  unfold reportCounts
  (try dsimp only)
  (repeat' (first | with_reducible assumption | (intro _; rfl) | with_reducible apply setVolume_keeps | with_reducible apply takeFault_keeps | (with_reducible refine foldl_keeps _ (fun _ _ _ => ?_) _ _ ?_) | (with_reducible refine foldl_fst_keeps _ (fun _ _ _ => ?_) _ _ ?_) | (simp only [keeps_mk]) | (with_reducible refine Keeps.parts ?_ ?_ ?_) | (with_reducible rfl) | (with_reducible rfl) | (intro _) | split))

theorem reportChange_keeps {s0 s : State}  (h : Keeps s0 s) : Keeps s0 (reportChange s) := by
  unfold reportChange
  (try dsimp only)
  (repeat' (first | with_reducible assumption | (intro _; rfl) | with_reducible apply reportCounts_keeps | (with_reducible refine foldl_keeps _ (fun _ _ _ => ?_) _ _ ?_) | (with_reducible refine foldl_fst_keeps _ (fun _ _ _ => ?_) _ _ ?_) | (simp only [keeps_mk]) | (with_reducible refine Keeps.parts ?_ ?_ ?_) | (with_reducible rfl) | (with_reducible rfl) | (intro _) | split))

theorem rebaseCounts_keeps {s0 s : State}  (h : Keeps s0 s) : Keeps s0 (rebaseCounts s) := by
  unfold rebaseCounts
  (try dsimp only)
  (repeat' (first | with_reducible assumption | (intro _; rfl) | with_reducible apply setVolume_keeps | (with_reducible refine foldl_keeps _ (fun _ _ _ => ?_) _ _ ?_) | (with_reducible refine foldl_fst_keeps _ (fun _ _ _ => ?_) _ _ ?_) | (simp only [keeps_mk]) | (with_reducible refine Keeps.parts ?_ ?_ ?_) | (with_reducible rfl) | (with_reducible rfl) | (intro _) | split))

theorem ruleSuspend_keeps {s0 s : State} {t : State}  (h : Keeps s0 s) (e : ruleSuspend s = some t) : Keeps s0 t := by
  unfold ruleSuspend at e
  (try dsimp only at e)
  (repeat' split at e) <;> (try simp only [Option.map_eq_some_iff, Option.some.injEq, reduceCtorEq] at e) <;> (try obtain ⟨_, -, rfl⟩ := e) <;> (try subst e)
  all_goals (repeat' (first | with_reducible assumption | (intro _; rfl) | with_reducible apply raise_keeps | (with_reducible refine foldl_keeps _ (fun _ _ _ => ?_) _ _ ?_) | (with_reducible refine foldl_fst_keeps _ (fun _ _ _ => ?_) _ _ ?_) | (simp only [keeps_mk]) | (with_reducible refine Keeps.parts ?_ ?_ ?_) | (with_reducible rfl) | (with_reducible rfl) | (intro _) | split))

theorem loseIncoming_keeps {s0 s : State}  (h : Keeps s0 s) : Keeps s0 (loseIncoming s) := by
  unfold loseIncoming
  (try dsimp only)
  (repeat' (first | with_reducible assumption | (intro _; rfl) | with_reducible apply abandonGather_keeps | (with_reducible refine foldl_keeps _ (fun _ _ _ => ?_) _ _ ?_) | (with_reducible refine foldl_fst_keeps _ (fun _ _ _ => ?_) _ _ ?_) | (simp only [keeps_mk]) | (with_reducible refine Keeps.parts ?_ ?_ ?_) | (with_reducible rfl) | (with_reducible rfl) | (intro _) | split))

theorem strikeBay_keeps {s0 s : State} (i : Slot) (h : Keeps s0 s) : Keeps s0 (strikeBay i s) := by
  unfold strikeBay
  (try dsimp only)
  (repeat' (first | with_reducible assumption | (intro _; rfl) | (with_reducible refine foldl_keeps _ (fun _ _ _ => ?_) _ _ ?_) | (with_reducible refine foldl_fst_keeps _ (fun _ _ _ => ?_) _ _ ?_) | (simp only [keeps_mk]) | (with_reducible refine Keeps.parts ?_ ?_ ?_) | (with_reducible rfl) | (with_reducible rfl) | (intro _) | split))

theorem noteLoss_keeps {s0 s : State} (i : Slot) (b : Bool) (h : Keeps s0 s) : Keeps s0 (noteLoss i b s) := by
  unfold noteLoss
  (try dsimp only)
  (repeat' (first | with_reducible assumption | (intro _; rfl) | with_reducible apply raiseCause_keeps | (with_reducible refine foldl_keeps _ (fun _ _ _ => ?_) _ _ ?_) | (with_reducible refine foldl_fst_keeps _ (fun _ _ _ => ?_) _ _ ?_) | (simp only [keeps_mk]) | (with_reducible refine Keeps.parts ?_ ?_ ?_) | (with_reducible rfl) | (with_reducible rfl) | (intro _) | split))

theorem failBay_keeps {s0 s : State} (i : Slot) (h : Keeps s0 s) : Keeps s0 (failBay i s) := by
  unfold failBay
  (try dsimp only)
  (repeat' (first | with_reducible assumption | (intro _; rfl) | with_reducible apply noteLoss_keeps | with_reducible apply raise_keeps | with_reducible apply updBay_keeps | with_reducible apply endAllGone_keeps | with_reducible apply raiseCause_keeps | with_reducible apply reportCounts_keeps | with_reducible apply loseIncoming_keeps | with_reducible apply strikeBay_keeps | (with_reducible refine foldl_keeps _ (fun _ _ _ => ?_) _ _ ?_) | (with_reducible refine foldl_fst_keeps _ (fun _ _ _ => ?_) _ _ ?_) | (simp only [keeps_mk]) | (with_reducible refine Keeps.parts ?_ ?_ ?_) | (with_reducible rfl) | (with_reducible rfl) | (intro _) | split))

theorem shelfCheck_keeps {s0 s : State}  (h : Keeps s0 s) : Keeps s0 (shelfCheck s) := by
  unfold shelfCheck
  (try dsimp only)
  (repeat' (first | with_reducible assumption | (intro _; rfl) | with_reducible apply raise_keeps | (with_reducible refine foldl_keeps _ (fun _ _ _ => ?_) _ _ ?_) | (with_reducible refine foldl_fst_keeps _ (fun _ _ _ => ?_) _ _ ?_) | (simp only [keeps_mk]) | (with_reducible refine Keeps.parts ?_ ?_ ?_) | (with_reducible rfl) | (with_reducible rfl) | (intro _) | split))

theorem takeOut_keeps {s0 s : State} (i : Slot) (h : Keeps s0 s) : Keeps s0 (takeOut i s) := by
  unfold takeOut
  (try dsimp only)
  (repeat' (first | with_reducible assumption | (intro _; rfl) | with_reducible apply updBay_keeps | with_reducible apply endAllGone_keeps | with_reducible apply strikeBay_keeps | with_reducible apply failBay_keeps | (with_reducible refine foldl_keeps _ (fun _ _ _ => ?_) _ _ ?_) | (with_reducible refine foldl_fst_keeps _ (fun _ _ _ => ?_) _ _ ?_) | (simp only [keeps_mk]) | (with_reducible refine Keeps.parts ?_ ?_ ?_) | (with_reducible rfl) | (with_reducible rfl) | (intro _) | split))

theorem depart_keeps {s0 s : State} (i : Slot) (h : Keeps s0 s) : Keeps s0 (depart i s) := by
  unfold depart
  (try dsimp only)
  (repeat' (first | with_reducible assumption | (intro _; rfl) | with_reducible apply shelfCheck_keeps | with_reducible apply takeOut_keeps | (with_reducible refine foldl_keeps _ (fun _ _ _ => ?_) _ _ ?_) | (with_reducible refine foldl_fst_keeps _ (fun _ _ _ => ?_) _ _ ?_) | (simp only [keeps_mk]) | (with_reducible refine Keeps.parts ?_ ?_ ?_) | (with_reducible rfl) | (with_reducible rfl) | (intro _) | split))

theorem arrive_keeps {s0 s : State} (i : Slot) (h : Keeps s0 s) : Keeps s0 (arrive i s) := by
  unfold arrive
  (try dsimp only)
  (repeat' (first | with_reducible assumption | (intro _; rfl) | with_reducible apply updBay_keeps | with_reducible apply handReserve_keeps | with_reducible apply shelfCheck_keeps | (with_reducible refine foldl_keeps _ (fun _ _ _ => ?_) _ _ ?_) | (with_reducible refine foldl_fst_keeps _ (fun _ _ _ => ?_) _ _ ?_) | (simp only [keeps_mk]) | (with_reducible refine Keeps.parts ?_ ?_ ?_) | (with_reducible rfl) | (with_reducible rfl) | (intro _) | split))

theorem arrival_keeps {s0 s : State} (i : Slot) (h : Keeps s0 s) : Keeps s0 (arrival i s) := by
  unfold arrival
  (try dsimp only)
  (repeat' (first | with_reducible assumption | (intro _; rfl) | with_reducible apply takeOut_keeps | with_reducible apply arrive_keeps | (with_reducible refine foldl_keeps _ (fun _ _ _ => ?_) _ _ ?_) | (with_reducible refine foldl_fst_keeps _ (fun _ _ _ => ?_) _ _ ?_) | (simp only [keeps_mk]) | (with_reducible refine Keeps.parts ?_ ?_ ?_) | (with_reducible rfl) | (with_reducible rfl) | (intro _) | split))

theorem takeReferences_keeps {s0 s : State}  (h : Keeps s0 s) : Keeps s0 (takeReferences s) := by
  unfold takeReferences
  (try dsimp only)
  (repeat' (first | with_reducible assumption | (intro _; rfl) | with_reducible apply updAllBays_keeps | (with_reducible refine foldl_keeps _ (fun _ _ _ => ?_) _ _ ?_) | (with_reducible refine foldl_fst_keeps _ (fun _ _ _ => ?_) _ _ ?_) | (simp only [keeps_mk]) | (with_reducible refine Keeps.parts ?_ ?_ ?_) | (with_reducible rfl) | (with_reducible rfl) | (intro _) | split))

/-! ### Fetching -/

theorem readRun_keeps {s0 : State} {p : State × Fetch} (owner : Owner) (cls : OpClass) (row pos off len : Nat) (h : Keeps s0 p.1) : Keeps s0 (readRun owner cls row pos off len p).1 := by
  unfold readRun
  (try dsimp only)
  (repeat' (first | with_reducible assumption | (intro _; rfl) | with_reducible apply handUnit_keeps | (with_reducible refine foldl_keeps _ (fun _ _ _ => ?_) _ _ ?_) | (with_reducible refine foldl_fst_keeps _ (fun _ _ _ => ?_) _ _ ?_) | (simp only [keeps_mk]) | (with_reducible refine Keeps.parts ?_ ?_ ?_) | (with_reducible rfl) | (with_reducible rfl) | (intro _) | split))

theorem writeBacks_keeps {s0 s : State} (r : Reader) (cls : OpClass) (unit : Nat) (made : List (Cell × Block)) (h : Keeps s0 s) : Keeps s0 (writeBacks r cls unit made s) := by
  unfold writeBacks
  (try dsimp only)
  (repeat' (first | with_reducible assumption | (intro _; rfl) | with_reducible apply handUnit_keeps | (with_reducible refine foldl_keeps _ (fun _ _ _ => ?_) _ _ ?_) | (with_reducible refine foldl_fst_keeps _ (fun _ _ _ => ?_) _ _ ?_) | (simp only [keeps_mk]) | (with_reducible refine Keeps.parts ?_ ?_ ?_) | (with_reducible rfl) | (with_reducible rfl) | (intro _) | split))

theorem strikeLost_keeps {s0 s : State} (r : Reader) (cs : List Cell) (h : Keeps s0 s) : Keeps s0 (strikeLost r cs s) := by
  unfold strikeLost
  (try dsimp only)
  (repeat' (first | with_reducible assumption | (intro _; rfl) | (with_reducible refine foldl_keeps _ (fun _ _ _ => ?_) _ _ ?_) | (with_reducible refine foldl_fst_keeps _ (fun _ _ _ => ?_) _ _ ?_) | (simp only [keeps_mk]) | (with_reducible refine Keeps.parts ?_ ?_ ?_) | (with_reducible rfl) | (with_reducible rfl) | (intro _) | split))

theorem settleFetch_keeps {s0 : State} {p : State × Fetch} (r : Reader) (owner : Owner) (cls : OpClass) (overwrites : Cell → Bool) (h : Keeps s0 p.1) : Keeps s0 (settleFetch r owner cls overwrites p).1 := by
  unfold settleFetch
  (try dsimp only)
  (repeat' (first | with_reducible assumption | (intro _; rfl) | with_reducible apply readRun_keeps | with_reducible apply writeBacks_keeps | with_reducible apply strikeLost_keeps | (with_reducible refine foldl_keeps _ (fun _ _ _ => ?_) _ _ ?_) | (with_reducible refine foldl_fst_keeps _ (fun _ _ _ => ?_) _ _ ?_) | (simp only [keeps_mk]) | (with_reducible refine Keeps.parts ?_ ?_ ?_) | (with_reducible rfl) | (with_reducible rfl) | (intro _) | split))

theorem noteCandidate_keeps {s0 s : State} (k : Candidate) (h : Keeps s0 s) : Keeps s0 (noteCandidate k s) := by
  unfold noteCandidate
  (try dsimp only)
  (repeat' (first | with_reducible assumption | (intro _; rfl) | (with_reducible refine foldl_keeps _ (fun _ _ _ => ?_) _ _ ?_) | (with_reducible refine foldl_fst_keeps _ (fun _ _ _ => ?_) _ _ ?_) | (simp only [keeps_mk]) | (with_reducible refine Keeps.parts ?_ ?_ ?_) | (with_reducible rfl) | (with_reducible rfl) | (intro _) | split))

theorem arriveCell_keeps {s0 : State} {p : State × Fetch} (r : Reader) (op : MemberOp) (res : OpResult) (c : Cell) (h : Keeps s0 p.1) : Keeps s0 (arriveCell r op res c p).1 := by
  unfold arriveCell
  (try dsimp only)
  (repeat' (first | with_reducible assumption | (intro _; rfl) | with_reducible apply tagErrorAt_keeps | with_reducible apply noteCandidate_keeps | (with_reducible refine foldl_keeps _ (fun _ _ _ => ?_) _ _ ?_) | (with_reducible refine foldl_fst_keeps _ (fun _ _ _ => ?_) _ _ ?_) | (simp only [keeps_mk]) | (with_reducible refine Keeps.parts ?_ ?_ ?_) | (with_reducible rfl) | (with_reducible rfl) | (intro _) | split))

theorem arriveFetch_keeps {s0 : State} {p : State × Fetch} (r : Reader) (op : MemberOp) (res : OpResult) (h : Keeps s0 p.1) : Keeps s0 (arriveFetch r op res p).1 := by
  unfold arriveFetch
  (try dsimp only)
  (repeat' (first | with_reducible assumption | (intro _; rfl) | with_reducible apply arriveCell_keeps | (with_reducible refine foldl_keeps _ (fun _ _ _ => ?_) _ _ ?_) | (with_reducible refine foldl_fst_keeps _ (fun _ _ _ => ?_) _ _ ?_) | (simp only [keeps_mk]) | (with_reducible refine Keeps.parts ?_ ?_ ?_) | (with_reducible rfl) | (with_reducible rfl) | (intro _) | split))

theorem judgeOrphan_keeps {s0 s : State} (op : MemberOp) (res : OpResult) (h : Keeps s0 s) : Keeps s0 (judgeOrphan op res s) := by
  unfold judgeOrphan
  (try dsimp only)
  (repeat' (first | with_reducible assumption | (intro _; rfl) | with_reducible apply tagErrorAt_keeps | (with_reducible refine foldl_keeps _ (fun _ _ _ => ?_) _ _ ?_) | (with_reducible refine foldl_fst_keeps _ (fun _ _ _ => ?_) _ _ ?_) | (simp only [keeps_mk]) | (with_reducible refine Keeps.parts ?_ ?_ ?_) | (with_reducible rfl) | (with_reducible rfl) | (intro _) | split))

end Sys2Proof.Machine
end

