-- ==== Sys2Proof/Laws/KeepsRequest.lean ====
section
/-! SUPPORT. The relation Keeps through the request path. -/

set_option linter.unusedTactic false
set_option linter.unreachableTactic false
set_option linter.unusedSimpArgs false
set_option linter.unnecessarySeqFocus false

namespace Sys2Proof.Machine

/-! ### RequestPath -/

theorem beginPart_keeps {s0 s : State} (a idx : Nat) (l : Layout) (places : List (Layout × Cell × Nat)) (h : Keeps s0 s) : Keeps s0 (beginPart a idx l places s).1 := by
  unfold beginPart
  (try dsimp only)
  (repeat' (first | with_reducible assumption | (intro _; rfl) | with_reducible apply readRun_keeps | (with_reducible refine foldl_keeps _ (fun _ _ _ => ?_) _ _ ?_) | (with_reducible refine foldl_fst_keeps _ (fun _ _ _ => ?_) _ _ ?_) | (simp only [keeps_mk]) | (with_reducible refine Keeps.parts ?_ ?_ ?_) | (with_reducible rfl) | (with_reducible rfl) | (intro _) | split))

theorem beginRead_keeps {s0 s : State} (e : Entry) (h : Keeps s0 s) : Keeps s0 (beginRead e s) := by
  unfold beginRead
  (try dsimp only)
  (repeat' (first | with_reducible assumption | (intro _; rfl) | with_reducible apply push_keeps | with_reducible apply updReq_keeps | with_reducible apply beginPart_keeps | (with_reducible refine foldl_keeps _ (fun _ _ _ => ?_) _ _ ?_) | (with_reducible refine foldl_fst_keeps _ (fun _ _ _ => ?_) _ _ ?_) | (simp only [keeps_mk]) | (with_reducible refine Keeps.parts ?_ ?_ ?_) | (with_reducible rfl) | (with_reducible rfl) | (intro _) | split))

theorem advanceRead_keeps {s0 s : State} (e : Entry) (h : Keeps s0 s) : Keeps s0 (advanceRead e s) := by
  unfold advanceRead
  (try dsimp only)
  (repeat' (first | with_reducible assumption | (intro _; rfl) | with_reducible apply updReq_keeps | with_reducible apply giveUpKey_keeps | with_reducible apply complete_keeps | with_reducible apply settleFetch_keeps | (with_reducible refine foldl_keeps _ (fun _ _ _ => ?_) _ _ ?_) | (with_reducible refine foldl_fst_keeps _ (fun _ _ _ => ?_) _ _ ?_) | (simp only [keeps_mk]) | (with_reducible refine Keeps.parts ?_ ?_ ?_) | (with_reducible rfl) | (with_reducible rfl) | (intro _) | split))

theorem readCells_keeps {s0 : State} {p : State × Fetch} (owner : Owner) (cls : OpClass) (cs : List Cell) (h : Keeps s0 p.1) : Keeps s0 (readCells owner cls cs p).1 := by
  unfold readCells
  (try dsimp only)
  (repeat' (first | with_reducible assumption | (intro _; rfl) | with_reducible apply readRun_keeps | (with_reducible refine foldl_keeps _ (fun _ _ _ => ?_) _ _ ?_) | (with_reducible refine foldl_fst_keeps _ (fun _ _ _ => ?_) _ _ ?_) | (simp only [keeps_mk]) | (with_reducible refine Keeps.parts ?_ ?_ ?_) | (with_reducible rfl) | (with_reducible rfl) | (intro _) | split))

theorem beginRow_keeps {s0 s : State} (a idx : Nat) (l : Layout) (row : Nat) (news : List (Cell × Block)) (h : Keeps s0 s) : Keeps s0 (beginRow a idx l row news s).1 := by
  unfold beginRow
  (try dsimp only)
  (repeat' (first | with_reducible assumption | (intro _; rfl) | with_reducible apply readCells_keeps | (with_reducible refine foldl_keeps _ (fun _ _ _ => ?_) _ _ ?_) | (with_reducible refine foldl_fst_keeps _ (fun _ _ _ => ?_) _ _ ?_) | (simp only [keeps_mk]) | (with_reducible refine Keeps.parts ?_ ?_ ?_) | (with_reducible rfl) | (with_reducible rfl) | (intro _) | split))

theorem beginWrite_keeps {s0 s : State} (e : Entry) (h : Keeps s0 s) : Keeps s0 (beginWrite e s) := by
  unfold beginWrite
  (try dsimp only)
  (repeat' (first | with_reducible assumption | (intro _; rfl) | with_reducible apply push_keeps | with_reducible apply updReq_keeps | with_reducible apply beginRow_keeps | (with_reducible refine foldl_keeps _ (fun _ _ _ => ?_) _ _ ?_) | (with_reducible refine foldl_fst_keeps _ (fun _ _ _ => ?_) _ _ ?_) | (simp only [keeps_mk]) | (with_reducible refine Keeps.parts ?_ ?_ ?_) | (with_reducible rfl) | (with_reducible rfl) | (intro _) | split))

theorem capturePoison_keeps {s0 s : State} (unit : Nat) (ps : List (Option Slot × Cell × Option Nat)) (h : Keeps s0 s) : Keeps s0 (capturePoison unit ps s) := by
  unfold capturePoison
  (try dsimp only)
  (repeat' (first | with_reducible assumption | (intro _; rfl) | with_reducible apply raise_keeps | with_reducible apply takeCapture_keeps | (with_reducible refine foldl_keeps _ (fun _ _ _ => ?_) _ _ ?_) | (with_reducible refine foldl_fst_keeps _ (fun _ _ _ => ?_) _ _ ?_) | (simp only [keeps_mk]) | (with_reducible refine Keeps.parts ?_ ?_ ?_) | (with_reducible rfl) | (with_reducible rfl) | (intro _) | split))

theorem tellLoss_keeps {s0 s : State} (a : Nat) (h : Keeps s0 s) : Keeps s0 (tellLoss a s) := by
  unfold tellLoss
  (try dsimp only)
  (repeat' (first | with_reducible assumption | (intro _; rfl) | with_reducible apply raise_keeps | with_reducible apply updReq_keeps | (with_reducible refine foldl_keeps _ (fun _ _ _ => ?_) _ _ ?_) | (with_reducible refine foldl_fst_keeps _ (fun _ _ _ => ?_) _ _ ?_) | (simp only [keeps_mk]) | (with_reducible refine Keeps.parts ?_ ?_ ?_) | (with_reducible rfl) | (with_reducible rfl) | (intro _) | split))

theorem handRow_keeps {s0 s : State} (a idx : Nat) (w : RowWork) (h : Keeps s0 s) : Keeps s0 (handRow a idx w s).1 := by
  unfold handRow
  (try dsimp only)
  (repeat' (first | with_reducible assumption | (intro _; rfl) | with_reducible apply tellLoss_keeps | with_reducible apply handUnit_keeps | with_reducible apply capturePoison_keeps | (with_reducible refine foldl_keeps _ (fun _ _ _ => ?_) _ _ ?_) | (with_reducible refine foldl_fst_keeps _ (fun _ _ _ => ?_) _ _ ?_) | (simp only [keeps_mk]) | (with_reducible refine Keeps.parts ?_ ?_ ?_) | (with_reducible rfl) | (with_reducible rfl) | (intro _) | split))

theorem advanceRow_keeps {s0 s : State} (a idx : Nat) (w : RowWork) (h : Keeps s0 s) : Keeps s0 (advanceRow a idx w s).1 := by
  unfold advanceRow
  (try dsimp only)
  (repeat' (first | with_reducible assumption | (intro _; rfl) | with_reducible apply giveUpKey_keeps | with_reducible apply settleFetch_keeps | with_reducible apply handRow_keeps | (with_reducible refine foldl_keeps _ (fun _ _ _ => ?_) _ _ ?_) | (with_reducible refine foldl_fst_keeps _ (fun _ _ _ => ?_) _ _ ?_) | (simp only [keeps_mk]) | (with_reducible refine Keeps.parts ?_ ?_ ?_) | (with_reducible rfl) | (with_reducible rfl) | (intro _) | split))

theorem driveRow_keeps {s0 s : State} (a idx : Nat) (w : RowWork) (h : Keeps s0 s) : Keeps s0 (driveRow a idx w s).1 := by
  unfold driveRow
  (try dsimp only)
  (repeat' (first | with_reducible assumption | (intro _; rfl) | with_reducible apply advanceRow_keeps | (with_reducible refine foldl_keeps _ (fun _ _ _ => ?_) _ _ ?_) | (with_reducible refine foldl_fst_keeps _ (fun _ _ _ => ?_) _ _ ?_) | (simp only [keeps_mk]) | (with_reducible refine Keeps.parts ?_ ?_ ?_) | (with_reducible rfl) | (with_reducible rfl) | (intro _) | split))

theorem advanceWrite_keeps {s0 s : State} (e : Entry) (h : Keeps s0 s) : Keeps s0 (advanceWrite e s) := by
  unfold advanceWrite
  (try dsimp only)
  (repeat' (first | with_reducible assumption | (intro _; rfl) | with_reducible apply updReq_keeps | with_reducible apply complete_keeps | with_reducible apply driveRow_keeps | (with_reducible refine foldl_keeps _ (fun _ _ _ => ?_) _ _ ?_) | (with_reducible refine foldl_fst_keeps _ (fun _ _ _ => ?_) _ _ ?_) | (simp only [keeps_mk]) | (with_reducible refine Keeps.parts ?_ ?_ ?_) | (with_reducible rfl) | (with_reducible rfl) | (intro _) | split))

theorem recheckGranted_keeps {s0 s : State} (a : Nat) (h : Keeps s0 s) : Keeps s0 (recheckGranted a s) := by
  unfold recheckGranted
  (try dsimp only)
  (repeat' (first | with_reducible assumption | (intro _; rfl) | with_reducible apply updReq_keeps | with_reducible apply leaveLocks_keeps | with_reducible apply complete_keeps | with_reducible apply holdRequest_keeps | with_reducible apply joinOrQueue_keeps | with_reducible apply beginRead_keeps | with_reducible apply beginWrite_keeps | (with_reducible refine foldl_keeps _ (fun _ _ _ => ?_) _ _ ?_) | (with_reducible refine foldl_fst_keeps _ (fun _ _ _ => ?_) _ _ ?_) | (simp only [keeps_mk]) | (with_reducible refine Keeps.parts ?_ ?_ ?_) | (with_reducible rfl) | (with_reducible rfl) | (intro _) | split))

theorem ruleGrant_keeps {s0 s : State} {t : State}  (h : Keeps s0 s) (e : ruleGrant s = some t) : Keeps s0 t := by
  unfold ruleGrant at e
  (try dsimp only at e)
  (repeat' split at e) <;> (try simp only [Option.map_eq_some_iff, Option.some.injEq, reduceCtorEq] at e) <;> (try obtain ⟨_, -, rfl⟩ := e) <;> (try subst e)
  all_goals (repeat' (first | with_reducible assumption | (intro _; rfl) | with_reducible apply updStep_keeps | with_reducible apply grantKeys_keeps | with_reducible apply recheckGranted_keeps | (with_reducible refine foldl_keeps _ (fun _ _ _ => ?_) _ _ ?_) | (with_reducible refine foldl_fst_keeps _ (fun _ _ _ => ?_) _ _ ?_) | (simp only [keeps_mk]) | (with_reducible refine Keeps.parts ?_ ?_ ?_) | (with_reducible rfl) | (with_reducible rfl) | (intro _) | split))

theorem ruleQueued_keeps {s0 s : State} {t : State} (h : Keeps s0 s) (e : ruleQueued s = some t) : Keeps s0 t := by
  unfold ruleQueued at e
  split at e
  · cases e
  · split at e
    · rename_i q rest _ hf
      obtain rfl := Option.some.inj e
      have h' : Keeps s0 { s with locks := { s.locks with queued := rest } } :=
        keeps_mk.mpr (h.partsPort le_rfl (List.Sublist.refl _) le_rfl rfl rfl)
      exact updReq_keeps _ _ (fun _ => rfl) (joinKeys_keeps _ _ _ hf h')
    · cases e

theorem ruleFlush_keeps {s0 s : State} {t : State}  (h : Keeps s0 s) (e : ruleFlush s = some t) : Keeps s0 t := by
  unfold ruleFlush at e
  (try dsimp only at e)
  (repeat' split at e) <;> (try simp only [Option.map_eq_some_iff, Option.some.injEq, reduceCtorEq] at e) <;> (try obtain ⟨_, -, rfl⟩ := e) <;> (try subst e)
  all_goals (repeat' (first | with_reducible assumption | (intro _; rfl) | with_reducible apply updReq_keeps | with_reducible apply complete_keeps | with_reducible apply handReserve_keeps | (with_reducible refine foldl_keeps _ (fun _ _ _ => ?_) _ _ ?_) | (with_reducible refine foldl_fst_keeps _ (fun _ _ _ => ?_) _ _ ?_) | (simp only [keeps_mk]) | (with_reducible refine Keeps.parts ?_ ?_ ?_) | (with_reducible rfl) | (with_reducible rfl) | (intro _) | split))

theorem ruleDrained_keeps {s0 s : State} {t : State}  (h : Keeps s0 s) (e : ruleDrained s = some t) : Keeps s0 t := by
  unfold ruleDrained at e
  (try dsimp only at e)
  (repeat' split at e) <;> (try simp only [Option.map_eq_some_iff, Option.some.injEq, reduceCtorEq] at e) <;> (try obtain ⟨_, -, rfl⟩ := e) <;> (try subst e)
  all_goals (repeat' (first | with_reducible assumption | (intro _; rfl) | with_reducible apply strikeRequest_keeps | with_reducible apply freeEntry_keeps | with_reducible apply leaveLocks_keeps | (with_reducible refine foldl_keeps _ (fun _ _ _ => ?_) _ _ ?_) | (with_reducible refine foldl_fst_keeps _ (fun _ _ _ => ?_) _ _ ?_) | (simp only [keeps_mk]) | (with_reducible refine Keeps.parts ?_ ?_ ?_) | (with_reducible rfl) | (with_reducible rfl) | (intro _) | split))

theorem advanceRequest_keeps {s0 s : State} (a : Nat) (h : Keeps s0 s) : Keeps s0 (advanceRequest a s) := by
  unfold advanceRequest
  (try dsimp only)
  (repeat' (first | with_reducible assumption | (intro _; rfl) | with_reducible apply advanceRead_keeps | with_reducible apply advanceWrite_keeps | (with_reducible refine foldl_keeps _ (fun _ _ _ => ?_) _ _ ?_) | (with_reducible refine foldl_fst_keeps _ (fun _ _ _ => ?_) _ _ ?_) | (simp only [keeps_mk]) | (with_reducible refine Keeps.parts ?_ ?_ ?_) | (with_reducible rfl) | (with_reducible rfl) | (intro _) | split))
end Sys2Proof.Machine
end

