-- ==== Sys2Proof/Laws/KeepsMover.lean ====
section
/-! SUPPORT. The relation Keeps through the mover and remapping. -/

set_option linter.unusedTactic false
set_option linter.unreachableTactic false
set_option linter.unusedSimpArgs false
set_option linter.unnecessarySeqFocus false

namespace Sys2Proof.Machine

/-! ### Mover -/

theorem readColumn_keeps {s0 : State} {p : State × Fetch} (owner : Owner) (row pos n : Nat) (h : Keeps s0 p.1) : Keeps s0 (readColumn owner row pos n p).1 := by
  unfold readColumn
  (try dsimp only)
  (repeat' (first | with_reducible assumption | (intro _; rfl) | with_reducible apply handUnit_keeps | (with_reducible refine foldl_keeps _ (fun _ _ _ => ?_) _ _ ?_) | (with_reducible refine foldl_fst_keeps _ (fun _ _ _ => ?_) _ _ ?_) | (simp only [keeps_mk]) | (with_reducible refine Keeps.parts ?_ ?_ ?_) | (with_reducible rfl) | (with_reducible rfl) | (intro _) | split))

theorem readUnit_keeps {s0 : State} {p : State × Fetch} (owner : Owner) (u : RowUnit) (h : Keeps s0 p.1) : Keeps s0 (readUnit owner u p).1 := by
  unfold readUnit
  (try dsimp only)
  (repeat' (first | with_reducible assumption | (intro _; rfl) | with_reducible apply readRun_keeps | (with_reducible refine foldl_keeps _ (fun _ _ _ => ?_) _ _ ?_) | (with_reducible refine foldl_fst_keeps _ (fun _ _ _ => ?_) _ _ ?_) | (simp only [keeps_mk]) | (with_reducible refine Keeps.parts ?_ ?_ ?_) | (with_reducible rfl) | (with_reducible rfl) | (intro _) | split))

theorem readSource_keeps {s0 : State} {p : State × Fetch} (owner : Owner) (u : RowUnit) (h : Keeps s0 p.1) : Keeps s0 (readSource owner u p).1 := by
  unfold readSource
  (try dsimp only)
  (repeat' (first | with_reducible assumption | (intro _; rfl) | with_reducible apply readUnit_keeps | (with_reducible refine foldl_keeps _ (fun _ _ _ => ?_) _ _ ?_) | (with_reducible refine foldl_fst_keeps _ (fun _ _ _ => ?_) _ _ ?_) | (simp only [keeps_mk]) | (with_reducible refine Keeps.parts ?_ ?_ ?_) | (with_reducible rfl) | (with_reducible rfl) | (intro _) | split))

theorem rereadUnit_keeps {s0 : State} {p : State × Fetch} (owner : Owner) (source : List RowUnit) (u : RowUnit) (h : Keeps s0 p.1) : Keeps s0 (rereadUnit owner source u p).1 := by
  unfold rereadUnit
  (try dsimp only)
  (repeat' (first | with_reducible assumption | (intro _; rfl) | with_reducible apply readUnit_keeps | with_reducible apply readSource_keeps | (with_reducible refine foldl_keeps _ (fun _ _ _ => ?_) _ _ ?_) | (with_reducible refine foldl_fst_keeps _ (fun _ _ _ => ?_) _ _ ?_) | (simp only [keeps_mk]) | (with_reducible refine Keeps.parts ?_ ?_ ?_) | (with_reducible rfl) | (with_reducible rfl) | (intro _) | split))

theorem beginReads_keeps {s0 s : State} (g : Staging) (t : Step) (h : Keeps s0 s) : Keeps s0 (beginReads g t s).1 := by
  unfold beginReads
  (try dsimp only)
  (repeat' (first | with_reducible assumption | (intro _; rfl) | with_reducible apply readColumn_keeps | with_reducible apply readSource_keeps | (with_reducible refine foldl_keeps _ (fun _ _ _ => ?_) _ _ ?_) | (with_reducible refine foldl_fst_keeps _ (fun _ _ _ => ?_) _ _ ?_) | (simp only [keeps_mk]) | (with_reducible refine Keeps.parts ?_ ?_ ?_) | (with_reducible rfl) | (with_reducible rfl) | (intro _) | split))

theorem settleJoin_keeps {s0 s : State} (g : Staging) (t : Step) (h : Keeps s0 s) : Keeps s0 (settleJoin g t s) := by
  have h' : Keeps s0 { s with port := { s.port with nextArrival := s.port.nextArrival + 1 } } :=
    keeps_mk.mpr (h.partsPort (Nat.le_succ _) (List.Sublist.refl _) le_rfl rfl rfl)
  exact joinOrQueue_keeps _ _ _ (setStep_keeps _ _ h')

theorem beginStep_keeps {s0 s : State} (g : Staging) (l : Layout) (h : Keeps s0 s) : Keeps s0 (beginStep g l s) := by
  unfold beginStep
  (try dsimp only)
  (repeat' (first | with_reducible assumption | (intro _; rfl) | with_reducible apply push_keeps | with_reducible apply setStep_keeps | with_reducible apply beginReads_keeps | with_reducible apply settleJoin_keeps | (with_reducible refine foldl_keeps _ (fun _ _ _ => ?_) _ _ ?_) | (with_reducible refine foldl_fst_keeps _ (fun _ _ _ => ?_) _ _ ?_) | (simp only [keeps_mk]) | (with_reducible refine Keeps.parts ?_ ?_ ?_) | (with_reducible rfl) | (with_reducible rfl) | (intro _) | split))

theorem ruleBegin_keeps {s0 s : State} {t : State}  (h : Keeps s0 s) (e : ruleBegin s = some t) : Keeps s0 t := by
  unfold ruleBegin at e
  (try dsimp only at e)
  (repeat' split at e) <;> (try simp only [Option.map_eq_some_iff, Option.some.injEq, reduceCtorEq] at e) <;> (try obtain ⟨_, -, rfl⟩ := e) <;> (try subst e)
  all_goals (repeat' (first | with_reducible assumption | (intro _; rfl) | with_reducible apply beginStep_keeps | (with_reducible refine foldl_keeps _ (fun _ _ _ => ?_) _ _ ?_) | (with_reducible refine foldl_fst_keeps _ (fun _ _ _ => ?_) _ _ ?_) | (simp only [keeps_mk]) | (with_reducible refine Keeps.parts ?_ ?_ ?_) | (with_reducible rfl) | (with_reducible rfl) | (intro _) | split))

theorem advanceStep_keeps {s0 s : State} (g : Staging) (h : Keeps s0 s) : Keeps s0 (advanceStep g s) := by
  unfold advanceStep
  (try dsimp only)
  (repeat' (first | with_reducible assumption | (intro _; rfl) | with_reducible apply updStep_keeps | with_reducible apply settleFetch_keeps | (with_reducible refine foldl_keeps _ (fun _ _ _ => ?_) _ _ ?_) | (with_reducible refine foldl_fst_keeps _ (fun _ _ _ => ?_) _ _ ?_) | (simp only [keeps_mk]) | (with_reducible refine Keeps.parts ?_ ?_ ?_) | (with_reducible rfl) | (with_reducible rfl) | (intro _) | split))

theorem endGather_keeps {s0 s : State} (g : Staging) (op : MemberOp) (res : OpResult) (h : Keeps s0 s) : Keeps s0 (endGather g op res s) := by
  unfold endGather
  (try dsimp only)
  (repeat' (first | with_reducible assumption | (intro _; rfl) | with_reducible apply judgeOrphan_keeps | with_reducible apply push_keeps | with_reducible apply updStep_keeps | with_reducible apply arriveFetch_keeps | (with_reducible refine foldl_keeps _ (fun _ _ _ => ?_) _ _ ?_) | (with_reducible refine foldl_fst_keeps _ (fun _ _ _ => ?_) _ _ ?_) | (simp only [keeps_mk]) | (with_reducible refine Keeps.parts ?_ ?_ ?_) | (with_reducible rfl) | (with_reducible rfl) | (intro _) | split))

theorem recopy_keeps {s0 s : State} (g : Staging) (t : Step) (h : Keeps s0 s) : Keeps s0 (recopy g t s) := by
  unfold recopy
  (try dsimp only)
  (repeat' (first | with_reducible assumption | (intro _; rfl) | with_reducible apply rereadUnit_keeps | with_reducible apply push_keeps | with_reducible apply updStep_keeps | with_reducible apply readRun_keeps | (with_reducible refine foldl_keeps _ (fun _ _ _ => ?_) _ _ ?_) | (with_reducible refine foldl_fst_keeps _ (fun _ _ _ => ?_) _ _ ?_) | (simp only [keeps_mk]) | (with_reducible refine Keeps.parts ?_ ?_ ?_) | (with_reducible rfl) | (with_reducible rfl) | (intro _) | split))

theorem ruleRecopy_keeps {s0 s : State} {t : State}  (h : Keeps s0 s) (e : ruleRecopy s = some t) : Keeps s0 t := by
  unfold ruleRecopy at e
  (try dsimp only at e)
  (repeat' split at e) <;> (try simp only [Option.map_eq_some_iff, Option.some.injEq, reduceCtorEq] at e) <;> (try obtain ⟨_, -, rfl⟩ := e) <;> (try subst e)
  all_goals (repeat' (first | with_reducible assumption | (intro _; rfl) | with_reducible apply recopy_keeps | (with_reducible refine foldl_keeps _ (fun _ _ _ => ?_) _ _ ?_) | (with_reducible refine foldl_fst_keeps _ (fun _ _ _ => ?_) _ _ ?_) | (simp only [keeps_mk]) | (with_reducible refine Keeps.parts ?_ ?_ ?_) | (with_reducible rfl) | (with_reducible rfl) | (intro _) | split))

theorem stainSteps_keeps {s0 s : State} (i : Slot) (rows : List Nat) (h : Keeps s0 s) : Keeps s0 (stainSteps i rows s) := by
  unfold stainSteps
  (try dsimp only)
  (repeat' (first | with_reducible assumption | (intro _; rfl) | with_reducible apply updStep_keeps | (with_reducible refine foldl_keeps _ (fun _ _ _ => ?_) _ _ ?_) | (with_reducible refine foldl_fst_keeps _ (fun _ _ _ => ?_) _ _ ?_) | (simp only [keeps_mk]) | (with_reducible refine Keeps.parts ?_ ?_ ?_) | (with_reducible rfl) | (with_reducible rfl) | (intro _) | split))

theorem repin_keeps {s0 s : State}  (h : Keeps s0 s) : Keeps s0 (repin s) := by
  unfold repin
  (try dsimp only)
  (repeat' (first | with_reducible assumption | (intro _; rfl) | with_reducible apply updStep_keeps | (with_reducible refine foldl_keeps _ (fun _ _ _ => ?_) _ _ ?_) | (with_reducible refine foldl_fst_keeps _ (fun _ _ _ => ?_) _ _ ?_) | (simp only [keeps_mk]) | (with_reducible refine Keeps.parts ?_ ?_ ?_) | (with_reducible rfl) | (with_reducible rfl) | (intro _) | split))

theorem ruleFreeze_keeps {s0 s : State} {t : State}  (h : Keeps s0 s) (e : ruleFreeze s = some t) : Keeps s0 t := by
  unfold ruleFreeze at e
  (try dsimp only at e)
  (repeat' split at e) <;> (try simp only [Option.map_eq_some_iff, Option.some.injEq, reduceCtorEq] at e) <;> (try obtain ⟨_, -, rfl⟩ := e) <;> (try subst e)
  all_goals (repeat' (first | with_reducible assumption | (intro _; rfl) | with_reducible apply strikeReader_keeps | with_reducible apply setStep_keeps | (with_reducible refine foldl_keeps _ (fun _ _ _ => ?_) _ _ ?_) | (with_reducible refine foldl_fst_keeps _ (fun _ _ _ => ?_) _ _ ?_) | (simp only [keeps_mk]) | (with_reducible refine Keeps.parts ?_ ?_ ?_) | (with_reducible rfl) | (with_reducible rfl) | (intro _) | split))

theorem ruleDecide_keeps {s0 s : State} {t : State}  (h : Keeps s0 s) (e : ruleDecide s = some t) : Keeps s0 t := by
  unfold ruleDecide at e
  (try dsimp only at e)
  (repeat' split at e) <;> (try simp only [Option.map_eq_some_iff, Option.some.injEq, reduceCtorEq] at e) <;> (try obtain ⟨_, -, rfl⟩ := e) <;> (try subst e)
  all_goals (repeat' (first | with_reducible assumption | (intro _; rfl) | with_reducible apply updStep_keeps | with_reducible apply raiseCause_keeps | (with_reducible refine foldl_keeps _ (fun _ _ _ => ?_) _ _ ?_) | (with_reducible refine foldl_fst_keeps _ (fun _ _ _ => ?_) _ _ ?_) | (simp only [keeps_mk]) | (with_reducible refine Keeps.parts ?_ ?_ ?_) | (with_reducible rfl) | (with_reducible rfl) | (intro _) | split))

theorem handSpill_keeps {s0 s : State} (g : Staging) (t : Step) (l : Layout) (h : Keeps s0 s) : Keeps s0 (handSpill g t l s) := by
  unfold handSpill
  (try dsimp only)
  (repeat' (first | with_reducible assumption | (intro _; rfl) | with_reducible apply updStep_keeps | with_reducible apply handReserve_keeps | (with_reducible refine foldl_keeps _ (fun _ _ _ => ?_) _ _ ?_) | (with_reducible refine foldl_fst_keeps _ (fun _ _ _ => ?_) _ _ ?_) | (simp only [keeps_mk]) | (with_reducible refine Keeps.parts ?_ ?_ ?_) | (with_reducible rfl) | (with_reducible rfl) | (intro _) | split))

theorem ruleSpill_keeps {s0 s : State} {t : State}  (h : Keeps s0 s) (e : ruleSpill s = some t) : Keeps s0 t := by
  unfold ruleSpill at e
  (try dsimp only at e)
  (repeat' split at e) <;> (try simp only [Option.map_eq_some_iff, Option.some.injEq, reduceCtorEq] at e) <;> (try obtain ⟨_, -, rfl⟩ := e) <;> (try subst e)
  all_goals (repeat' (first | with_reducible assumption | (intro _; rfl) | with_reducible apply handSpill_keeps | (with_reducible refine foldl_keeps _ (fun _ _ _ => ?_) _ _ ?_) | (with_reducible refine foldl_fst_keeps _ (fun _ _ _ => ?_) _ _ ?_) | (simp only [keeps_mk]) | (with_reducible refine Keeps.parts ?_ ?_ ?_) | (with_reducible rfl) | (with_reducible rfl) | (intro _) | split))

theorem ruleSpillRecord_keeps {s0 s : State} {t : State}  (h : Keeps s0 s) (e : ruleSpillRecord s = some t) : Keeps s0 t := by
  unfold ruleSpillRecord at e
  (try dsimp only at e)
  (repeat' split at e) <;> (try simp only [Option.map_eq_some_iff, Option.some.injEq, reduceCtorEq] at e) <;> (try obtain ⟨_, -, rfl⟩ := e) <;> (try subst e)
  all_goals (repeat' (first | with_reducible assumption | (intro _; rfl) | with_reducible apply updStep_keeps | with_reducible apply handReserve_keeps | (with_reducible refine foldl_keeps _ (fun _ _ _ => ?_) _ _ ?_) | (with_reducible refine foldl_fst_keeps _ (fun _ _ _ => ?_) _ _ ?_) | (simp only [keeps_mk]) | (with_reducible refine Keeps.parts ?_ ?_ ?_) | (with_reducible rfl) | (with_reducible rfl) | (intro _) | split))

theorem rulePlace_keeps {s0 s : State} {t : State}  (h : Keeps s0 s) (e : rulePlace s = some t) : Keeps s0 t := by
  unfold rulePlace at e
  (try dsimp only at e)
  (repeat' split at e) <;> (try simp only [Option.map_eq_some_iff, Option.some.injEq, reduceCtorEq] at e) <;> (try obtain ⟨_, -, rfl⟩ := e) <;> (try subst e)
  all_goals (repeat' (first | with_reducible assumption | (intro _; rfl) | with_reducible apply updStep_keeps | with_reducible apply handUnit_keeps | (with_reducible refine foldl_keeps _ (fun _ _ _ => ?_) _ _ ?_) | (with_reducible refine foldl_fst_keeps _ (fun _ _ _ => ?_) _ _ ?_) | (simp only [keeps_mk]) | (with_reducible refine Keeps.parts ?_ ?_ ?_) | (with_reducible rfl) | (with_reducible rfl) | (intro _) | split))

theorem endMigrate_keeps {s0 s : State}  (h : Keeps s0 s) : Keeps s0 (endMigrate s) := by
  unfold endMigrate
  (try dsimp only)
  (repeat' (first | with_reducible assumption | (intro _; rfl) | (with_reducible refine foldl_keeps _ (fun _ _ _ => ?_) _ _ ?_) | (with_reducible refine foldl_fst_keeps _ (fun _ _ _ => ?_) _ _ ?_) | (simp only [keeps_mk]) | (with_reducible refine Keeps.parts ?_ ?_ ?_) | (with_reducible rfl) | (with_reducible rfl) | (intro _) | split))

theorem retire_keeps {s0 s : State} (g : Staging) (t : Step) (marked : Bool) (h : Keeps s0 s) : Keeps s0 (retire g t marked s) := by
  unfold retire
  (try dsimp only)
  (repeat' (first | with_reducible assumption | (intro _; rfl) | with_reducible apply reportChange_keeps | with_reducible apply setStep_keeps | with_reducible apply refreshMark_keeps | with_reducible apply releaseHolds_keeps | with_reducible apply endMigrate_keeps | (with_reducible refine foldl_keeps _ (fun _ _ _ => ?_) _ _ ?_) | (with_reducible refine foldl_fst_keeps _ (fun _ _ _ => ?_) _ _ ?_) | (simp only [keeps_mk]) | (with_reducible refine Keeps.parts ?_ ?_ ?_) | (with_reducible rfl) | (with_reducible rfl) | (intro _) | split))

theorem notePoison_keeps {s0 s : State} (g : Staging) (op : MemberOp) (res : OpResult) (h : Keeps s0 s) : Keeps s0 (notePoison g op res s) := by
  unfold notePoison
  (try dsimp only)
  (repeat' (first | with_reducible assumption | (intro _; rfl) | with_reducible apply updStep_keeps | (with_reducible refine foldl_keeps _ (fun _ _ _ => ?_) _ _ ?_) | (with_reducible refine foldl_fst_keeps _ (fun _ _ _ => ?_) _ _ ?_) | (simp only [keeps_mk]) | (with_reducible refine Keeps.parts ?_ ?_ ?_) | (with_reducible rfl) | (with_reducible rfl) | (intro _) | split))

theorem endPlace_keeps {s0 s : State} (g : Staging) (t : Step) (l : Layout) (h : Keeps s0 s) : Keeps s0 (endPlace g t l s) := by
  unfold endPlace
  (try dsimp only)
  (repeat' (first | with_reducible assumption | (intro _; rfl) | with_reducible apply raise_keeps | with_reducible apply leaveLocks_keeps | with_reducible apply updStep_keeps | with_reducible apply raiseCause_keeps | with_reducible apply capturePoison_keeps | with_reducible apply retire_keeps | (with_reducible refine foldl_keeps _ (fun _ _ _ => ?_) _ _ ?_) | (with_reducible refine foldl_fst_keeps _ (fun _ _ _ => ?_) _ _ ?_) | (simp only [keeps_mk]) | (with_reducible refine Keeps.parts ?_ ?_ ?_) | (with_reducible rfl) | (with_reducible rfl) | (intro _) | split))

theorem rulePlaced_keeps {s0 s : State} {t : State}  (h : Keeps s0 s) (e : rulePlaced s = some t) : Keeps s0 t := by
  unfold rulePlaced at e
  (try dsimp only at e)
  (repeat' split at e) <;> (try simp only [Option.map_eq_some_iff, Option.some.injEq, reduceCtorEq] at e) <;> (try obtain ⟨_, -, rfl⟩ := e) <;> (try subst e)
  all_goals (repeat' (first | with_reducible assumption | (intro _; rfl) | with_reducible apply endPlace_keeps | (with_reducible refine foldl_keeps _ (fun _ _ _ => ?_) _ _ ?_) | (with_reducible refine foldl_fst_keeps _ (fun _ _ _ => ?_) _ _ ?_) | (simp only [keeps_mk]) | (with_reducible refine Keeps.parts ?_ ?_ ?_) | (with_reducible rfl) | (with_reducible rfl) | (intro _) | split))

theorem stepWriteEnded_keeps {s0 s : State} (g : Staging) (h : Keeps s0 s) : Keeps s0 (stepWriteEnded g s) := by
  unfold stepWriteEnded
  (try dsimp only)
  (repeat' (first | with_reducible assumption | (intro _; rfl) | with_reducible apply updStep_keeps | (with_reducible refine foldl_keeps _ (fun _ _ _ => ?_) _ _ ?_) | (with_reducible refine foldl_fst_keeps _ (fun _ _ _ => ?_) _ _ ?_) | (simp only [keeps_mk]) | (with_reducible refine Keeps.parts ?_ ?_ ?_) | (with_reducible rfl) | (with_reducible rfl) | (intro _) | split))

theorem endSpillColumn_keeps {s0 s : State} (g : Staging) (again : Bool) (op : MemberOp) (res : OpResult) (h : Keeps s0 s) : Keeps s0 (endSpillColumn g again op res s) := by
  unfold endSpillColumn
  (try dsimp only)
  (repeat' (first | with_reducible assumption | (intro _; rfl) | with_reducible apply handReserve_keeps | with_reducible apply failBay_keeps | with_reducible apply stepWriteEnded_keeps | (with_reducible refine foldl_keeps _ (fun _ _ _ => ?_) _ _ ?_) | (with_reducible refine foldl_fst_keeps _ (fun _ _ _ => ?_) _ _ ?_) | (simp only [keeps_mk]) | (with_reducible refine Keeps.parts ?_ ?_ ?_) | (with_reducible rfl) | (with_reducible rfl) | (intro _) | split))

theorem spillRecordEnded_keeps {s0 s : State}  (h : Keeps s0 s) : Keeps s0 (spillRecordEnded s) := by
  unfold spillRecordEnded
  (try dsimp only)
  (repeat' (first | with_reducible assumption | (intro _; rfl) | (with_reducible refine foldl_keeps _ (fun _ _ _ => ?_) _ _ ?_) | (with_reducible refine foldl_fst_keeps _ (fun _ _ _ => ?_) _ _ ?_) | (simp only [keeps_mk]) | (with_reducible refine Keeps.parts ?_ ?_ ?_) | (with_reducible rfl) | (with_reducible rfl) | (intro _) | split))

theorem endSpillRecord_keeps {s0 s : State} (again : Bool) (op : MemberOp) (res : OpResult) (h : Keeps s0 s) : Keeps s0 (endSpillRecord again op res s) := by
  unfold endSpillRecord
  (try dsimp only)
  (repeat' (first | with_reducible assumption | (intro _; rfl) | with_reducible apply handReserve_keeps | with_reducible apply failBay_keeps | with_reducible apply spillRecordEnded_keeps | (with_reducible refine foldl_keeps _ (fun _ _ _ => ?_) _ _ ?_) | (with_reducible refine foldl_fst_keeps _ (fun _ _ _ => ?_) _ _ ?_) | (simp only [keeps_mk]) | (with_reducible refine Keeps.parts ?_ ?_ ?_) | (with_reducible rfl) | (with_reducible rfl) | (intro _) | split))

/-! ### Remap -/

theorem dropRemap_keeps {s0 s : State} (i : Slot) (row : Nat) (h : Keeps s0 s) : Keeps s0 (dropRemap i row s) := by
  unfold dropRemap
  (try dsimp only)
  (repeat' (first | with_reducible assumption | (intro _; rfl) | with_reducible apply updBay_keeps | (with_reducible refine foldl_keeps _ (fun _ _ _ => ?_) _ _ ?_) | (with_reducible refine foldl_fst_keeps _ (fun _ _ _ => ?_) _ _ ?_) | (simp only [keeps_mk]) | (with_reducible refine Keeps.parts ?_ ?_ ?_) | (with_reducible rfl) | (with_reducible rfl) | (intro _) | split))

theorem updFill_keeps {s0 s : State} (i : Slot) (row : Nat) (f : Fill → Fill) (h : Keeps s0 s) : Keeps s0 (updFill i row f s) := by
  unfold updFill
  (try dsimp only)
  (repeat' (first | with_reducible assumption | (intro _; rfl) | (with_reducible refine foldl_keeps _ (fun _ _ _ => ?_) _ _ ?_) | (with_reducible refine foldl_fst_keeps _ (fun _ _ _ => ?_) _ _ ?_) | (simp only [keeps_mk]) | (with_reducible refine Keeps.parts ?_ ?_ ?_) | (with_reducible rfl) | (with_reducible rfl) | (intro _) | split))

theorem removeFill_keeps {s0 s : State} (i : Slot) (row : Nat) (h : Keeps s0 s) : Keeps s0 (removeFill i row s) := by
  unfold removeFill
  (try dsimp only)
  (repeat' (first | with_reducible assumption | (intro _; rfl) | with_reducible apply strikeReader_keeps | (with_reducible refine foldl_keeps _ (fun _ _ _ => ?_) _ _ ?_) | (with_reducible refine foldl_fst_keeps _ (fun _ _ _ => ?_) _ _ ?_) | (simp only [keeps_mk]) | (with_reducible refine Keeps.parts ?_ ?_ ?_) | (with_reducible rfl) | (with_reducible rfl) | (intro _) | split))

theorem abortFill_keeps {s0 s : State} (f : Fill) (h : Keeps s0 s) : Keeps s0 (abortFill f s) := by
  unfold abortFill
  (try dsimp only)
  (repeat' (first | with_reducible assumption | (intro _; rfl) | with_reducible apply push_keeps | with_reducible apply releaseHeld_keeps | with_reducible apply dropRemap_keeps | with_reducible apply removeFill_keeps | (with_reducible refine foldl_keeps _ (fun _ _ _ => ?_) _ _ ?_) | (with_reducible refine foldl_fst_keeps _ (fun _ _ _ => ?_) _ _ ?_) | (simp only [keeps_mk]) | (with_reducible refine Keeps.parts ?_ ?_ ?_) | (with_reducible rfl) | (with_reducible rfl) | (intro _) | split))

theorem fillReads_keeps {s0 s : State} (f : Fill) (h : Keeps s0 s) : Keeps s0 (fillReads f s).1 := by
  unfold fillReads
  (try dsimp only)
  (repeat' (first | with_reducible assumption | (intro _; rfl) | with_reducible apply handUnit_keeps | (with_reducible refine foldl_keeps _ (fun _ _ _ => ?_) _ _ ?_) | (with_reducible refine foldl_fst_keeps _ (fun _ _ _ => ?_) _ _ ?_) | (simp only [keeps_mk]) | (with_reducible refine Keeps.parts ?_ ?_ ?_) | (with_reducible rfl) | (with_reducible rfl) | (intro _) | split))

theorem beginFill_keeps {s0 s : State} (op : MemberOp) (row spare : Nat) (l : Layout) (pos : Nat) (h : Keeps s0 s) : Keeps s0 (beginFill op row spare l pos s) := by
  unfold beginFill
  (try dsimp only)
  (repeat' (first | with_reducible assumption | (intro _; rfl) | with_reducible apply push_keeps | with_reducible apply updBay_keeps | with_reducible apply recallUnit_keeps | with_reducible apply fillReads_keeps | (with_reducible refine foldl_keeps _ (fun _ _ _ => ?_) _ _ ?_) | (with_reducible refine foldl_fst_keeps _ (fun _ _ _ => ?_) _ _ ?_) | (simp only [keeps_mk]) | (with_reducible refine Keeps.parts ?_ ?_ ?_) | (with_reducible rfl) | (with_reducible rfl) | (intro _) | split))

theorem failMove_keeps {s0 s : State} (op : MemberOp) (h : Keeps s0 s) : Keeps s0 (failMove op s) := by
  unfold failMove
  (try dsimp only)
  (repeat' (first | with_reducible assumption | (intro _; rfl) | with_reducible apply push_keeps | with_reducible apply failBay_keeps | (with_reducible refine foldl_keeps _ (fun _ _ _ => ?_) _ _ ?_) | (with_reducible refine foldl_fst_keeps _ (fun _ _ _ => ?_) _ _ ?_) | (simp only [keeps_mk]) | (with_reducible refine Keeps.parts ?_ ?_ ?_) | (with_reducible rfl) | (with_reducible rfl) | (intro _) | split))

theorem remapDecision_keeps {s0 s : State} (op : MemberOp) (first : Nat) (h : Keeps s0 s) : Keeps s0 (remapDecision op first s) := by
  unfold remapDecision
  (try dsimp only)
  (repeat' (first | with_reducible assumption | (intro _; rfl) | with_reducible apply beginFill_keeps | with_reducible apply failMove_keeps | (with_reducible refine foldl_keeps _ (fun _ _ _ => ?_) _ _ ?_) | (with_reducible refine foldl_fst_keeps _ (fun _ _ _ => ?_) _ _ ?_) | (simp only [keeps_mk]) | (with_reducible refine Keeps.parts ?_ ?_ ?_) | (with_reducible rfl) | (with_reducible rfl) | (intro _) | split))

theorem advanceFill_keeps {s0 s : State} (i : Slot) (row : Nat) (h : Keeps s0 s) : Keeps s0 (advanceFill i row s) := by
  unfold advanceFill
  (try dsimp only)
  (repeat' (first | with_reducible assumption | (intro _; rfl) | with_reducible apply handReserve_keeps | with_reducible apply failBay_keeps | with_reducible apply settleFetch_keeps | with_reducible apply updFill_keeps | with_reducible apply abortFill_keeps | (with_reducible refine foldl_keeps _ (fun _ _ _ => ?_) _ _ ?_) | (with_reducible refine foldl_fst_keeps _ (fun _ _ _ => ?_) _ _ ?_) | (simp only [keeps_mk]) | (with_reducible refine Keeps.parts ?_ ?_ ?_) | (with_reducible rfl) | (with_reducible rfl) | (intro _) | split))

theorem endFillRead_keeps {s0 s : State} (i : Slot) (row : Nat) (op : MemberOp) (res : OpResult) (h : Keeps s0 s) : Keeps s0 (endFillRead i row op res s) := by
  unfold endFillRead
  (try dsimp only)
  (repeat' (first | with_reducible assumption | (intro _; rfl) | with_reducible apply judgeOrphan_keeps | with_reducible apply push_keeps | with_reducible apply arriveFetch_keeps | with_reducible apply updFill_keeps | with_reducible apply abortFill_keeps | (with_reducible refine foldl_keeps _ (fun _ _ _ => ?_) _ _ ?_) | (with_reducible refine foldl_fst_keeps _ (fun _ _ _ => ?_) _ _ ?_) | (simp only [keeps_mk]) | (with_reducible refine Keeps.parts ?_ ?_ ?_) | (with_reducible rfl) | (with_reducible rfl) | (intro _) | split))

theorem adoptRemap_keeps {s0 s : State} (i : Slot) (row : Nat) (h : Keeps s0 s) : Keeps s0 (adoptRemap i row s) := by
  unfold adoptRemap
  (try dsimp only)
  (repeat' (first | with_reducible assumption | (intro _; rfl) | with_reducible apply raise_keeps | with_reducible apply updBay_keeps | (with_reducible refine foldl_keeps _ (fun _ _ _ => ?_) _ _ ?_) | (with_reducible refine foldl_fst_keeps _ (fun _ _ _ => ?_) _ _ ?_) | (simp only [keeps_mk]) | (with_reducible refine Keeps.parts ?_ ?_ ?_) | (with_reducible rfl) | (with_reducible rfl) | (intro _) | split))

theorem endSpareWrite_keeps {s0 s : State} (i : Slot) (row : Nat) (res : OpResult) (h : Keeps s0 s) : Keeps s0 (endSpareWrite i row res s) := by
  unfold endSpareWrite
  (try dsimp only)
  (repeat' (first | with_reducible assumption | (intro _; rfl) | with_reducible apply push_keeps | with_reducible apply releaseHeld_keeps | with_reducible apply failBay_keeps | with_reducible apply removeFill_keeps | with_reducible apply abortFill_keeps | with_reducible apply adoptRemap_keeps | (with_reducible refine foldl_keeps _ (fun _ _ _ => ?_) _ _ ?_) | (with_reducible refine foldl_fst_keeps _ (fun _ _ _ => ?_) _ _ ?_) | (simp only [keeps_mk]) | (with_reducible refine Keeps.parts ?_ ?_ ?_) | (with_reducible rfl) | (with_reducible rfl) | (intro _) | split))

theorem endDataWrite_keeps {s0 s : State} (op : MemberOp) (res : OpResult) (owner : OpResult → State → State)
    (hf : ∀ r s, Keeps s0 s → Keeps s0 (owner r s)) (h : Keeps s0 s) : Keeps s0 (endDataWrite op res owner s) := by
  unfold endDataWrite
  split
  · split
    · exact remapDecision_keeps _ _ h
    · exact hf _ _ h
  · exact hf _ _ h

theorem endHostWrite_keeps {s0 s : State} (a idx : Nat) (op : MemberOp) (h : Keeps s0 s) : Keeps s0 (endHostWrite a idx op s) := by
  unfold endHostWrite
  (try dsimp only)
  (repeat' (first | with_reducible assumption | (intro _; rfl) | with_reducible apply push_keeps | with_reducible apply updReq_keeps | with_reducible apply stainSteps_keeps | (with_reducible refine foldl_keeps _ (fun _ _ _ => ?_) _ _ ?_) | (with_reducible refine foldl_fst_keeps _ (fun _ _ _ => ?_) _ _ ?_) | (simp only [keeps_mk]) | (with_reducible refine Keeps.parts ?_ ?_ ?_) | (with_reducible rfl) | (with_reducible rfl) | (intro _) | split))

theorem endWriteBack_keeps {s0 s : State} (op : MemberOp) (h : Keeps s0 s) : Keeps s0 (endWriteBack op s) := by
  unfold endWriteBack
  (try dsimp only)
  (repeat' (first | with_reducible assumption | (intro _; rfl) | with_reducible apply releaseHeld_keeps | (with_reducible refine foldl_keeps _ (fun _ _ _ => ?_) _ _ ?_) | (with_reducible refine foldl_fst_keeps _ (fun _ _ _ => ?_) _ _ ?_) | (simp only [keeps_mk]) | (with_reducible refine Keeps.parts ?_ ?_ ?_) | (with_reducible rfl) | (with_reducible rfl) | (intro _) | split))
end Sys2Proof.Machine
end

