-- ==== Sys2Proof/Laws/KeepsPlan.lean ====
section
/-! SUPPORT. The relation Keeps through the plan unit. -/

set_option linter.unusedTactic false
set_option linter.unreachableTactic false
set_option linter.unusedSimpArgs false
set_option linter.unnecessarySeqFocus false

namespace Sys2Proof.Machine

/-! ### PlanUnit -/

theorem setRecord_keeps {s0 s : State} (i : Nat) (r : PlanRecord) (h : Keeps s0 s) : Keeps s0 (setRecord i r s) := by
  unfold setRecord
  (try dsimp only)
  (repeat' (first | with_reducible assumption | (intro _; rfl) | (with_reducible refine foldl_keeps _ (fun _ _ _ => ?_) _ _ ?_) | (with_reducible refine foldl_fst_keeps _ (fun _ _ _ => ?_) _ _ ?_) | (simp only [keeps_mk]) | (with_reducible refine Keeps.parts ?_ ?_ ?_) | (with_reducible rfl) | (with_reducible rfl) | (intro _) | split))

theorem queueRecord_keeps {s0 s : State} (w : AreaWrite) (h : Keeps s0 s) : Keeps s0 (queueRecord w s) := by
  unfold queueRecord
  (try dsimp only)
  (repeat' (first | with_reducible assumption | (intro _; rfl) | (with_reducible refine foldl_keeps _ (fun _ _ _ => ?_) _ _ ?_) | (with_reducible refine foldl_fst_keeps _ (fun _ _ _ => ?_) _ _ ?_) | (simp only [keeps_mk]) | (with_reducible refine Keeps.parts ?_ ?_ ?_) | (with_reducible rfl) | (with_reducible rfl) | (intro _) | split))

theorem handArea_keeps {s0 s : State} (o : AreaOp) (h : Keeps s0 s) : Keeps s0 (handArea o s) := by
  unfold handArea
  (try dsimp only)
  (repeat' (first | with_reducible assumption | (intro _; rfl) | with_reducible apply handReserve_keeps | (with_reducible refine foldl_keeps _ (fun _ _ _ => ?_) _ _ ?_) | (with_reducible refine foldl_fst_keeps _ (fun _ _ _ => ?_) _ _ ?_) | (simp only [keeps_mk]) | (with_reducible refine Keeps.parts ?_ ?_ ?_) | (with_reducible rfl) | (with_reducible rfl) | (intro _) | split))

theorem ruleArea_keeps {s0 s : State} {t : State}  (h : Keeps s0 s) (e : ruleArea s = some t) : Keeps s0 t := by
  unfold ruleArea at e
  (try dsimp only at e)
  (repeat' split at e) <;> (try simp only [Option.map_eq_some_iff, Option.some.injEq, reduceCtorEq] at e) <;> (try obtain ⟨_, -, rfl⟩ := e) <;> (try subst e)
  all_goals (repeat' (first | with_reducible assumption | (intro _; rfl) | with_reducible apply handArea_keeps | (with_reducible refine foldl_keeps _ (fun _ _ _ => ?_) _ _ ?_) | (with_reducible refine foldl_fst_keeps _ (fun _ _ _ => ?_) _ _ ?_) | (simp only [keeps_mk]) | (with_reducible refine Keeps.parts ?_ ?_ ?_) | (with_reducible rfl) | (with_reducible rfl) | (intro _) | split))

theorem beginRecord_keeps {s0 s : State} (w : AreaWrite) (h : Keeps s0 s) : Keeps s0 (beginRecord w s) := by
  unfold beginRecord
  (try dsimp only)
  (repeat' (first | with_reducible assumption | (intro _; rfl) | with_reducible apply setRecord_keeps | (with_reducible refine foldl_keeps _ (fun _ _ _ => ?_) _ _ ?_) | (with_reducible refine foldl_fst_keeps _ (fun _ _ _ => ?_) _ _ ?_) | (simp only [keeps_mk]) | (with_reducible refine Keeps.parts ?_ ?_ ?_) | (with_reducible rfl) | (with_reducible rfl) | (intro _) | split))

theorem ruleRecord_keeps {s0 s : State} {t : State}  (h : Keeps s0 s) (e : ruleRecord s = some t) : Keeps s0 t := by
  unfold ruleRecord at e
  (try dsimp only at e)
  (repeat' split at e) <;> (try simp only [Option.map_eq_some_iff, Option.some.injEq, reduceCtorEq] at e) <;> (try obtain ⟨_, -, rfl⟩ := e) <;> (try subst e)
  all_goals (repeat' (first | with_reducible assumption | (intro _; rfl) | with_reducible apply beginRecord_keeps | (with_reducible refine foldl_keeps _ (fun _ _ _ => ?_) _ _ ?_) | (with_reducible refine foldl_fst_keeps _ (fun _ _ _ => ?_) _ _ ?_) | (simp only [keeps_mk]) | (with_reducible refine Keeps.parts ?_ ?_ ?_) | (with_reducible rfl) | (with_reducible rfl) | (intro _) | split))

theorem ruleRecordDone_keeps {s0 s : State} {t : State}  (h : Keeps s0 s) (e : ruleRecordDone s = some t) : Keeps s0 t := by
  unfold ruleRecordDone at e
  (try dsimp only at e)
  (repeat' split at e) <;> (try simp only [Option.map_eq_some_iff, Option.some.injEq, reduceCtorEq] at e) <;> (try obtain ⟨_, -, rfl⟩ := e) <;> (try subst e)
  all_goals (repeat' (first | with_reducible assumption | (intro _; rfl) | with_reducible apply complete_keeps | (with_reducible refine foldl_keeps _ (fun _ _ _ => ?_) _ _ ?_) | (with_reducible refine foldl_fst_keeps _ (fun _ _ _ => ?_) _ _ ?_) | (simp only [keeps_mk]) | (with_reducible refine Keeps.parts ?_ ?_ ?_) | (with_reducible rfl) | (with_reducible rfl) | (intro _) | split))

theorem recordWriteEnded_keeps {s0 s : State} (i : Nat) (h : Keeps s0 s) : Keeps s0 (recordWriteEnded i s) := by
  unfold recordWriteEnded
  (try dsimp only)
  (repeat' (first | with_reducible assumption | (intro _; rfl) | (with_reducible refine foldl_keeps _ (fun _ _ _ => ?_) _ _ ?_) | (with_reducible refine foldl_fst_keeps _ (fun _ _ _ => ?_) _ _ ?_) | (simp only [keeps_mk]) | (with_reducible refine Keeps.parts ?_ ?_ ?_) | (with_reducible rfl) | (with_reducible rfl) | (intro _) | split))

theorem endReserveWrite_keeps {s0 s : State} (again : Bool) (retry : Owner) (op : MemberOp) (res : OpResult)
    (ended : State → State) (hf : ∀ s, Keeps s0 s → Keeps s0 (ended s)) (h : Keeps s0 s) :
    Keeps s0 (endReserveWrite again retry op res ended s) := by
  unfold endReserveWrite
  (repeat' (first | with_reducible assumption | apply hf | with_reducible apply handReserve_keeps |
    with_reducible apply failBay_keeps | split))

theorem endPlanArea_keeps {s0 s : State} (i : Nat) (again : Bool) (op : MemberOp) (res : OpResult) (h : Keeps s0 s) : Keeps s0 (endPlanArea i again op res s) := by
  unfold endPlanArea
  (try dsimp only)
  (repeat' (first | with_reducible assumption | (intro _; rfl) | with_reducible apply recordWriteEnded_keeps | with_reducible apply endReserveWrite_keeps | (with_reducible refine foldl_keeps _ (fun _ _ _ => ?_) _ _ ?_) | (with_reducible refine foldl_fst_keeps _ (fun _ _ _ => ?_) _ _ ?_) | (simp only [keeps_mk]) | (with_reducible refine Keeps.parts ?_ ?_ ?_) | (with_reducible rfl) | (with_reducible rfl) | (intro _) | split))

theorem endTableCopy_keeps {s0 s : State} (again : Bool) (op : MemberOp) (res : OpResult) (h : Keeps s0 s) : Keeps s0 (endTableCopy again op res s) := by
  unfold endTableCopy
  (try dsimp only)
  (repeat' (first | with_reducible assumption | (intro _; rfl) | with_reducible apply endReserveWrite_keeps | (with_reducible refine foldl_keeps _ (fun _ _ _ => ?_) _ _ ?_) | (with_reducible refine foldl_fst_keeps _ (fun _ _ _ => ?_) _ _ ?_) | (simp only [keeps_mk]) | (with_reducible refine Keeps.parts ?_ ?_ ?_) | (with_reducible rfl) | (with_reducible rfl) | (intro _) | split))

theorem setResidue_keeps {s0 s : State} (i : Nat) (o : PlanOutcome) (rowsDone capacity generation : Nat) (h : Keeps s0 s) : Keeps s0 (setResidue i o rowsDone capacity generation s) := by
  unfold setResidue
  (try dsimp only)
  (repeat' (first | with_reducible assumption | (intro _; rfl) | with_reducible apply setRecord_keeps | (with_reducible refine foldl_keeps _ (fun _ _ _ => ?_) _ _ ?_) | (with_reducible refine foldl_fst_keeps _ (fun _ _ _ => ?_) _ _ ?_) | (simp only [keeps_mk]) | (with_reducible refine Keeps.parts ?_ ?_ ?_) | (with_reducible rfl) | (with_reducible rfl) | (intro _) | split))

theorem writeBehind_keeps {s0 s : State} (i : Nat) (h : Keeps s0 s) : Keeps s0 (writeBehind i s) := by
  unfold writeBehind
  (try dsimp only)
  (repeat' (first | with_reducible assumption | (intro _; rfl) | with_reducible apply queueRecord_keeps | (with_reducible refine foldl_keeps _ (fun _ _ _ => ?_) _ _ ?_) | (with_reducible refine foldl_fst_keeps _ (fun _ _ _ => ?_) _ _ ?_) | (simp only [keeps_mk]) | (with_reducible refine Keeps.parts ?_ ?_ ?_) | (with_reducible rfl) | (with_reducible rfl) | (intro _) | split))

theorem planDone_keeps {s0 s : State} (i : Nat) (h : Keeps s0 s) : Keeps s0 (planDone i s) := by
  unfold planDone
  (try dsimp only)
  (repeat' (first | with_reducible assumption | (intro _; rfl) | with_reducible apply raise_keeps | (with_reducible refine foldl_keeps _ (fun _ _ _ => ?_) _ _ ?_) | (with_reducible refine foldl_fst_keeps _ (fun _ _ _ => ?_) _ _ ?_) | (simp only [keeps_mk]) | (with_reducible refine Keeps.parts ?_ ?_ ?_) | (with_reducible rfl) | (with_reducible rfl) | (intro _) | split))

theorem moveChain_keeps {s0 s : State} (p : Nat × ChainStatus) (h : Keeps s0 s) : Keeps s0 (moveChain p s) := by
  unfold moveChain
  (try dsimp only)
  (repeat' (first | with_reducible assumption | (intro _; rfl) | with_reducible apply raise_keeps | (with_reducible refine foldl_keeps _ (fun _ _ _ => ?_) _ _ ?_) | (with_reducible refine foldl_fst_keeps _ (fun _ _ _ => ?_) _ _ ?_) | (simp only [keeps_mk]) | (with_reducible refine Keeps.parts ?_ ?_ ?_) | (with_reducible rfl) | (with_reducible rfl) | (intro _) | split))

theorem clearActive_keeps {s0 s : State}  (h : Keeps s0 s) : Keeps s0 (clearActive s) := by
  unfold clearActive
  (try dsimp only)
  (repeat' (first | with_reducible assumption | (intro _; rfl) | (with_reducible refine foldl_keeps _ (fun _ _ _ => ?_) _ _ ?_) | (with_reducible refine foldl_fst_keeps _ (fun _ _ _ => ?_) _ _ ?_) | (simp only [keeps_mk]) | (with_reducible refine Keeps.parts ?_ ?_ ?_) | (with_reducible rfl) | (with_reducible rfl) | (intro _) | split))

theorem refuseFetched_keeps {s0 s : State} (i : Nat) (o : PlanOutcome) (h : Keeps s0 s) : Keeps s0 (refuseFetched i o s) := by
  unfold refuseFetched
  (try dsimp only)
  (repeat' (first | with_reducible assumption | (intro _; rfl) | with_reducible apply setResidue_keeps | with_reducible apply writeBehind_keeps | with_reducible apply planDone_keeps | with_reducible apply moveChain_keeps | (with_reducible refine foldl_keeps _ (fun _ _ _ => ?_) _ _ ?_) | (with_reducible refine foldl_fst_keeps _ (fun _ _ _ => ?_) _ _ ?_) | (simp only [keeps_mk]) | (with_reducible refine Keeps.parts ?_ ?_ ?_) | (with_reducible rfl) | (with_reducible rfl) | (intro _) | split))

theorem setEngine_keeps {s0 s : State} (e : EngineState) (h : Keeps s0 s) : Keeps s0 (setEngine e s) := by
  unfold setEngine
  (try dsimp only)
  (repeat' (first | with_reducible assumption | (intro _; rfl) | (with_reducible refine foldl_keeps _ (fun _ _ _ => ?_) _ _ ?_) | (with_reducible refine foldl_fst_keeps _ (fun _ _ _ => ?_) _ _ ?_) | (simp only [keeps_mk]) | (with_reducible refine Keeps.parts ?_ ?_ ?_) | (with_reducible rfl) | (with_reducible rfl) | (intro _) | split))

theorem endUninstalled_keeps {s0 s : State} (o : PlanOutcome) (h : Keeps s0 s) : Keeps s0 (endUninstalled o s) := by
  unfold endUninstalled
  (try dsimp only)
  (repeat' (first | with_reducible assumption | (intro _; rfl) | with_reducible apply setResidue_keeps | with_reducible apply writeBehind_keeps | with_reducible apply planDone_keeps | with_reducible apply moveChain_keeps | with_reducible apply clearActive_keeps | with_reducible apply setEngine_keeps | (with_reducible refine foldl_keeps _ (fun _ _ _ => ?_) _ _ ?_) | (with_reducible refine foldl_fst_keeps _ (fun _ _ _ => ?_) _ _ ?_) | (simp only [keeps_mk]) | (with_reducible refine Keeps.parts ?_ ?_ ?_) | (with_reducible rfl) | (with_reducible rfl) | (intro _) | split))

theorem giveRole_keeps {s0 s : State} (i : Slot) (r : Role) (p : Option Nat) (incoming : Bool) (h : Keeps s0 s) : Keeps s0 (giveRole i r p incoming s) := by
  unfold giveRole
  (try dsimp only)
  (repeat' (first | with_reducible assumption | (intro _; rfl) | with_reducible apply updBay_keeps | (with_reducible refine foldl_keeps _ (fun _ _ _ => ?_) _ _ ?_) | (with_reducible refine foldl_fst_keeps _ (fun _ _ _ => ?_) _ _ ?_) | (simp only [keeps_mk]) | (with_reducible refine Keeps.parts ?_ ?_ ?_) | (with_reducible rfl) | (with_reducible rfl) | (intro _) | split))

theorem roleNone_keeps {s0 s : State} (i : Slot) (h : Keeps s0 s) : Keeps s0 (roleNone i s) := by
  unfold roleNone
  (try dsimp only)
  (repeat' (first | with_reducible assumption | (intro _; rfl) | with_reducible apply updBay_keeps | (with_reducible refine foldl_keeps _ (fun _ _ _ => ?_) _ _ ?_) | (with_reducible refine foldl_fst_keeps _ (fun _ _ _ => ?_) _ _ ?_) | (simp only [keeps_mk]) | (with_reducible refine Keeps.parts ?_ ?_ ?_) | (with_reducible rfl) | (with_reducible rfl) | (intro _) | split))

theorem giveRoles_keeps {s0 s : State} (r : Role) (first : Nat) (is : List Slot) (h : Keeps s0 s) : Keeps s0 (giveRoles r first is s) := by
  unfold giveRoles
  (try dsimp only)
  (repeat' (first | with_reducible assumption | (intro _; rfl) | with_reducible apply giveRole_keeps | (with_reducible refine foldl_keeps _ (fun _ _ _ => ?_) _ _ ?_) | (with_reducible refine foldl_fst_keeps _ (fun _ _ _ => ?_) _ _ ?_) | (simp only [keeps_mk]) | (with_reducible refine Keeps.parts ?_ ?_ ?_) | (with_reducible rfl) | (with_reducible rfl) | (intro _) | split))

theorem startPhase_keeps {s0 s : State} (p : Phase) (h : Keeps s0 s) : Keeps s0 (startPhase p s) := by
  unfold startPhase
  (try dsimp only)
  (repeat' (first | with_reducible assumption | (intro _; rfl) | (with_reducible refine foldl_keeps _ (fun _ _ _ => ?_) _ _ ?_) | (with_reducible refine foldl_fst_keeps _ (fun _ _ _ => ?_) _ _ ?_) | (simp only [keeps_mk]) | (with_reducible refine Keeps.parts ?_ ?_ ?_) | (with_reducible rfl) | (with_reducible rfl) | (intro _) | split))

theorem installForm_keeps {s0 s : State} (r : PlanRecord) (h : Keeps s0 s) : Keeps s0 (installForm r s) := by
  unfold installForm
  (try dsimp only)
  (repeat' (first | with_reducible assumption | (intro _; rfl) | with_reducible apply giveRoles_keeps | with_reducible apply startPhase_keeps | (with_reducible refine foldl_keeps _ (fun _ _ _ => ?_) _ _ ?_) | (with_reducible refine foldl_fst_keeps _ (fun _ _ _ => ?_) _ _ ?_) | (simp only [keeps_mk]) | (with_reducible refine Keeps.parts ?_ ?_ ?_) | (with_reducible rfl) | (with_reducible rfl) | (intro _) | split))

theorem installGrow_keeps {s0 s : State} (r : PlanRecord) (h : Keeps s0 s) : Keeps s0 (installGrow r s) := by
  unfold installGrow
  (try dsimp only)
  (repeat' (first | with_reducible assumption | (intro _; rfl) | with_reducible apply syncLayouts_keeps | with_reducible apply renameKeys_keeps | with_reducible apply giveRoles_keeps | with_reducible apply startPhase_keeps | (with_reducible refine foldl_keeps _ (fun _ _ _ => ?_) _ _ ?_) | (with_reducible refine foldl_fst_keeps _ (fun _ _ _ => ?_) _ _ ?_) | (simp only [keeps_mk]) | (with_reducible refine Keeps.parts ?_ ?_ ?_) | (with_reducible rfl) | (with_reducible rfl) | (intro _) | split))

theorem installReplace_keeps {s0 s : State} (r : PlanRecord) (h : Keeps s0 s) : Keeps s0 (installReplace r s) := by
  unfold installReplace
  (try dsimp only)
  (repeat' (first | with_reducible assumption | (intro _; rfl) | with_reducible apply syncLayouts_keeps | with_reducible apply giveRole_keeps | with_reducible apply startPhase_keeps | (with_reducible refine foldl_keeps _ (fun _ _ _ => ?_) _ _ ?_) | (with_reducible refine foldl_fst_keeps _ (fun _ _ _ => ?_) _ _ ?_) | (simp only [keeps_mk]) | (with_reducible refine Keeps.parts ?_ ?_ ?_) | (with_reducible rfl) | (with_reducible rfl) | (intro _) | split))

theorem install_keeps {s0 s : State} (r : PlanRecord) (h : Keeps s0 s) : Keeps s0 (install r s) := by
  unfold install
  (try dsimp only)
  (repeat' (first | with_reducible assumption | (intro _; rfl) | with_reducible apply raiseCause_keeps | with_reducible apply rebaseCounts_keeps | with_reducible apply setEngine_keeps | with_reducible apply installForm_keeps | with_reducible apply installGrow_keeps | with_reducible apply installReplace_keeps | (with_reducible refine foldl_keeps _ (fun _ _ _ => ?_) _ _ ?_) | (with_reducible refine foldl_fst_keeps _ (fun _ _ _ => ?_) _ _ ?_) | (simp only [keeps_mk]) | (with_reducible refine Keeps.parts ?_ ?_ ?_) | (with_reducible rfl) | (with_reducible rfl) | (intro _) | split))

theorem clearOutcome_keeps {s0 s : State} (i : Nat) (h : Keeps s0 s) : Keeps s0 (clearOutcome i s) := by
  unfold clearOutcome
  (try dsimp only)
  (repeat' (first | with_reducible assumption | (intro _; rfl) | with_reducible apply setRecord_keeps | (with_reducible refine foldl_keeps _ (fun _ _ _ => ?_) _ _ ?_) | (with_reducible refine foldl_fst_keeps _ (fun _ _ _ => ?_) _ _ ?_) | (simp only [keeps_mk]) | (with_reducible refine Keeps.parts ?_ ?_ ?_) | (with_reducible rfl) | (with_reducible rfl) | (intro _) | split))

theorem activate_keeps {s0 s : State} (i : Nat) (r : PlanRecord) (h : Keeps s0 s) : Keeps s0 (activate i r s) := by
  unfold activate
  (try dsimp only)
  (repeat' (first | with_reducible assumption | (intro _; rfl) | with_reducible apply clearOutcome_keeps | with_reducible apply setEngine_keeps | with_reducible apply install_keeps | (with_reducible refine foldl_keeps _ (fun _ _ _ => ?_) _ _ ?_) | (with_reducible refine foldl_fst_keeps _ (fun _ _ _ => ?_) _ _ ?_) | (simp only [keeps_mk]) | (with_reducible refine Keeps.parts ?_ ?_ ?_) | (with_reducible rfl) | (with_reducible rfl) | (intro _) | split))

theorem fetchOnce_keeps {s0 s : State} {t : State}  (h : Keeps s0 s) (e : fetchOnce s = some t) : Keeps s0 t := by
  unfold fetchOnce at e
  (try dsimp only at e)
  (repeat' split at e) <;> (try simp only [Option.map_eq_some_iff, Option.some.injEq, reduceCtorEq] at e) <;> (try obtain ⟨_, -, rfl⟩ := e) <;> (try subst e)
  all_goals (repeat' (first | with_reducible assumption | (intro _; rfl) | with_reducible apply moveChain_keeps | with_reducible apply refuseFetched_keeps | with_reducible apply activate_keeps | (with_reducible refine foldl_keeps _ (fun _ _ _ => ?_) _ _ ?_) | (with_reducible refine foldl_fst_keeps _ (fun _ _ _ => ?_) _ _ ?_) | (simp only [keeps_mk]) | (with_reducible refine Keeps.parts ?_ ?_ ?_) | (with_reducible rfl) | (with_reducible rfl) | (intro _) | split))

theorem ruleFetch_keeps {s0 s : State} {t : State}  (h : Keeps s0 s) (e : ruleFetch s = some t) : Keeps s0 t := by
  unfold ruleFetch at e
  (try dsimp only at e)
  (repeat' split at e) <;> (try simp only [Option.map_eq_some_iff, Option.some.injEq, reduceCtorEq] at e) <;> (try obtain ⟨_, -, rfl⟩ := e) <;> (try subst e)
  all_goals (repeat' (first | with_reducible assumption | (intro _; rfl) | with_reducible apply fetchOnce_keeps | (with_reducible refine foldl_keeps _ (fun _ _ _ => ?_) _ _ ?_) | (with_reducible refine foldl_fst_keeps _ (fun _ _ _ => ?_) _ _ ?_) | (simp only [keeps_mk]) | (with_reducible refine Keeps.parts ?_ ?_ ?_) | (with_reducible rfl) | (with_reducible rfl) | (intro _) | split))

theorem ruleWaiting_keeps {s0 s : State} {t : State}  (h : Keeps s0 s) (e : ruleWaiting s = some t) : Keeps s0 t := by
  unfold ruleWaiting at e
  (try dsimp only at e)
  (repeat' split at e) <;> (try simp only [Option.map_eq_some_iff, Option.some.injEq, reduceCtorEq] at e) <;> (try obtain ⟨_, -, rfl⟩ := e) <;> (try subst e)
  all_goals (repeat' (first | with_reducible assumption | (intro _; rfl) | with_reducible apply endUninstalled_keeps | with_reducible apply install_keeps | (with_reducible refine foldl_keeps _ (fun _ _ _ => ?_) _ _ ?_) | (with_reducible refine foldl_fst_keeps _ (fun _ _ _ => ?_) _ _ ?_) | (simp only [keeps_mk]) | (with_reducible refine Keeps.parts ?_ ?_ ?_) | (with_reducible rfl) | (with_reducible rfl) | (intro _) | split))

theorem ruleInstalled_keeps {s0 s : State} {t : State}  (h : Keeps s0 s) (e : ruleInstalled s = some t) : Keeps s0 t := by
  unfold ruleInstalled at e
  (try dsimp only at e)
  (repeat' split at e) <;> (try simp only [Option.map_eq_some_iff, Option.some.injEq, reduceCtorEq] at e) <;> (try obtain ⟨_, -, rfl⟩ := e) <;> (try subst e)
  all_goals (repeat' (first | with_reducible assumption | (intro _; rfl) | with_reducible apply setEngine_keeps | (with_reducible refine foldl_keeps _ (fun _ _ _ => ?_) _ _ ?_) | (with_reducible refine foldl_fst_keeps _ (fun _ _ _ => ?_) _ _ ?_) | (simp only [keeps_mk]) | (with_reducible refine Keeps.parts ?_ ?_ ?_) | (with_reducible rfl) | (with_reducible rfl) | (intro _) | split))

theorem ruleRest_keeps {s0 s : State} {t : State}  (h : Keeps s0 s) (e : ruleRest s = some t) : Keeps s0 t := by
  unfold ruleRest at e
  (try dsimp only at e)
  (repeat' split at e) <;> (try simp only [Option.map_eq_some_iff, Option.some.injEq, reduceCtorEq] at e) <;> (try obtain ⟨_, -, rfl⟩ := e) <;> (try subst e)
  all_goals (repeat' (first | with_reducible assumption | (intro _; rfl) | with_reducible apply setEngine_keeps | (with_reducible refine foldl_keeps _ (fun _ _ _ => ?_) _ _ ?_) | (with_reducible refine foldl_fst_keeps _ (fun _ _ _ => ?_) _ _ ?_) | (simp only [keeps_mk]) | (with_reducible refine Keeps.parts ?_ ?_ ?_) | (with_reducible rfl) | (with_reducible rfl) | (intro _) | split))

theorem ruleLostPaused_keeps {s0 s : State} {t : State}  (h : Keeps s0 s) (e : ruleLostPaused s = some t) : Keeps s0 t := by
  unfold ruleLostPaused at e
  (try dsimp only at e)
  (repeat' split at e) <;> (try simp only [Option.map_eq_some_iff, Option.some.injEq, reduceCtorEq] at e) <;> (try obtain ⟨_, -, rfl⟩ := e) <;> (try subst e)
  all_goals (repeat' (first | with_reducible assumption | (intro _; rfl) | (with_reducible refine foldl_keeps _ (fun _ _ _ => ?_) _ _ ?_) | (with_reducible refine foldl_fst_keeps _ (fun _ _ _ => ?_) _ _ ?_) | (simp only [keeps_mk]) | (with_reducible refine Keeps.parts ?_ ?_ ?_) | (with_reducible rfl) | (with_reducible rfl) | (intro _) | split))

theorem dropRoles_keeps {s0 s : State}  (h : Keeps s0 s) : Keeps s0 (dropRoles s) := by
  unfold dropRoles
  (try dsimp only)
  (repeat' (first | with_reducible assumption | (intro _; rfl) | with_reducible apply updBay_keeps | with_reducible apply roleNone_keeps | (with_reducible refine foldl_keeps _ (fun _ _ _ => ?_) _ _ ?_) | (with_reducible refine foldl_fst_keeps _ (fun _ _ _ => ?_) _ _ ?_) | (simp only [keeps_mk]) | (with_reducible refine Keeps.parts ?_ ?_ ?_) | (with_reducible rfl) | (with_reducible rfl) | (intro _) | split))

theorem lostRoles_keeps {s0 s : State}  (h : Keeps s0 s) : Keeps s0 (lostRoles s) := by
  unfold lostRoles
  (try dsimp only)
  (repeat' (first | with_reducible assumption | (intro _; rfl) | with_reducible apply reportChange_keeps | with_reducible apply updBay_keeps | (with_reducible refine foldl_keeps _ (fun _ _ _ => ?_) _ _ ?_) | (with_reducible refine foldl_fst_keeps _ (fun _ _ _ => ?_) _ _ ?_) | (simp only [keeps_mk]) | (with_reducible refine Keeps.parts ?_ ?_ ?_) | (with_reducible rfl) | (with_reducible rfl) | (intro _) | split))

theorem askRemoval_keeps {s0 s : State}  (h : Keeps s0 s) : Keeps s0 (askRemoval s) := by
  unfold askRemoval
  (try dsimp only)
  (repeat' (first | with_reducible assumption | (intro _; rfl) | with_reducible apply raiseCause_keeps | (with_reducible refine foldl_keeps _ (fun _ _ _ => ?_) _ _ ?_) | (with_reducible refine foldl_fst_keeps _ (fun _ _ _ => ?_) _ _ ?_) | (simp only [keeps_mk]) | (with_reducible refine Keeps.parts ?_ ?_ ?_) | (with_reducible rfl) | (with_reducible rfl) | (intro _) | split))

theorem ruleDrop_keeps {s0 s : State} {t : State}  (h : Keeps s0 s) (e : ruleDrop s = some t) : Keeps s0 t := by
  unfold ruleDrop at e
  (try dsimp only at e)
  (repeat' split at e) <;> (try simp only [Option.map_eq_some_iff, Option.some.injEq, reduceCtorEq] at e) <;> (try obtain ⟨_, -, rfl⟩ := e) <;> (try subst e)
  all_goals (repeat' (first | with_reducible assumption | (intro _; rfl) | with_reducible apply abandonGather_keeps | with_reducible apply endUninstalled_keeps | with_reducible apply dropRoles_keeps | with_reducible apply askRemoval_keeps | (with_reducible refine foldl_keeps _ (fun _ _ _ => ?_) _ _ ?_) | (with_reducible refine foldl_fst_keeps _ (fun _ _ _ => ?_) _ _ ?_) | (simp only [keeps_mk]) | (with_reducible refine Keeps.parts ?_ ?_ ?_) | (with_reducible rfl) | (with_reducible rfl) | (intro _) | split))

theorem ruleClosing_keeps {s0 s : State} {t : State}  (h : Keeps s0 s) (e : ruleClosing s = some t) : Keeps s0 t := by
  unfold ruleClosing at e
  (try dsimp only at e)
  (repeat' split at e) <;> (try simp only [Option.map_eq_some_iff, Option.some.injEq, reduceCtorEq] at e) <;> (try obtain ⟨_, -, rfl⟩ := e) <;> (try subst e)
  all_goals (repeat' (first | with_reducible assumption | (intro _; rfl) | with_reducible apply raiseCause_keeps | with_reducible apply lostRoles_keeps | with_reducible apply askRemoval_keeps | (with_reducible refine foldl_keeps _ (fun _ _ _ => ?_) _ _ ?_) | (with_reducible refine foldl_fst_keeps _ (fun _ _ _ => ?_) _ _ ?_) | (simp only [keeps_mk]) | (with_reducible refine Keeps.parts ?_ ?_ ?_) | (with_reducible rfl) | (with_reducible rfl) | (intro _) | split))

theorem handReleased_keeps {s0 s : State} (gen : Nat) (i : Slot) (h : Keeps s0 s) : Keeps s0 (handReleased gen i s) := by
  unfold handReleased
  (try dsimp only)
  (repeat' (first | with_reducible assumption | (intro _; rfl) | with_reducible apply handReserve_keeps | (with_reducible refine foldl_keeps _ (fun _ _ _ => ?_) _ _ ?_) | (with_reducible refine foldl_fst_keeps _ (fun _ _ _ => ?_) _ _ ?_) | (simp only [keeps_mk]) | (with_reducible refine Keeps.parts ?_ ?_ ?_) | (with_reducible rfl) | (with_reducible rfl) | (intro _) | split))

theorem endReleased_keeps {s0 s : State} (again : Bool) (op : MemberOp) (res : OpResult) (h : Keeps s0 s) : Keeps s0 (endReleased again op res s) := by
  unfold endReleased
  (try dsimp only)
  (repeat' (first | with_reducible assumption | (intro _; rfl) | with_reducible apply handReserve_keeps | (with_reducible refine foldl_keeps _ (fun _ _ _ => ?_) _ _ ?_) | (with_reducible refine foldl_fst_keeps _ (fun _ _ _ => ?_) _ _ ?_) | (simp only [keeps_mk]) | (with_reducible refine Keeps.parts ?_ ?_ ?_) | (with_reducible rfl) | (with_reducible rfl) | (intro _) | split))

theorem releaseFailed_keeps {s0 s : State}  (h : Keeps s0 s) : Keeps s0 (releaseFailed s) := by
  unfold releaseFailed
  (try dsimp only)
  (repeat' (first | with_reducible assumption | (intro _; rfl) | with_reducible apply roleNone_keeps | (with_reducible refine foldl_keeps _ (fun _ _ _ => ?_) _ _ ?_) | (with_reducible refine foldl_fst_keeps _ (fun _ _ _ => ?_) _ _ ?_) | (simp only [keeps_mk]) | (with_reducible refine Keeps.parts ?_ ?_ ?_) | (with_reducible rfl) | (with_reducible rfl) | (intro _) | split))

theorem replaceLayouts_keeps {s0 s : State} (ls : List Layout) (h : Keeps s0 s) : Keeps s0 (replaceLayouts ls s) := by
  unfold replaceLayouts
  (try dsimp only)
  (repeat' (first | with_reducible assumption | (intro _; rfl) | with_reducible apply syncLayouts_keeps | with_reducible apply rebaseCounts_keeps | with_reducible apply releaseFailed_keeps | (with_reducible refine foldl_keeps _ (fun _ _ _ => ?_) _ _ ?_) | (with_reducible refine foldl_fst_keeps _ (fun _ _ _ => ?_) _ _ ?_) | (simp only [keeps_mk]) | (with_reducible refine Keeps.parts ?_ ?_ ?_) | (with_reducible rfl) | (with_reducible rfl) | (intro _) | split))

theorem beginResidue_keeps {s0 s : State} (o : PlanOutcome) (rowsDone gen : Nat) (h : Keeps s0 s) : Keeps s0 (beginResidue o rowsDone gen s) := by
  unfold beginResidue
  (try dsimp only)
  (repeat' (first | with_reducible assumption | (intro _; rfl) | with_reducible apply queueRecord_keeps | with_reducible apply setResidue_keeps | (with_reducible refine foldl_keeps _ (fun _ _ _ => ?_) _ _ ?_) | (with_reducible refine foldl_fst_keeps _ (fun _ _ _ => ?_) _ _ ?_) | (simp only [keeps_mk]) | (with_reducible refine Keeps.parts ?_ ?_ ?_) | (with_reducible rfl) | (with_reducible rfl) | (intro _) | split))

theorem joinedToMember_keeps {s0 s : State}  (h : Keeps s0 s) : Keeps s0 (joinedToMember s) := by
  unfold joinedToMember
  (try dsimp only)
  (repeat' (first | with_reducible assumption | (intro _; rfl) | with_reducible apply updAllBays_keeps | (with_reducible refine foldl_keeps _ (fun _ _ _ => ?_) _ _ ?_) | (with_reducible refine foldl_fst_keeps _ (fun _ _ _ => ?_) _ _ ?_) | (simp only [keeps_mk]) | (with_reducible refine Keeps.parts ?_ ?_ ?_) | (with_reducible rfl) | (with_reducible rfl) | (intro _) | split))

theorem newCapacity_keeps {s0 s : State} (c : Nat) (h : Keeps s0 s) : Keeps s0 (newCapacity c s) := by
  unfold newCapacity
  (try dsimp only)
  (repeat' (first | with_reducible assumption | (intro _; rfl) | with_reducible apply raise_keeps | (with_reducible refine foldl_keeps _ (fun _ _ _ => ?_) _ _ ?_) | (with_reducible refine foldl_fst_keeps _ (fun _ _ _ => ?_) _ _ ?_) | (simp only [keeps_mk]) | (with_reducible refine Keeps.parts ?_ ?_ ?_) | (with_reducible rfl) | (with_reducible rfl) | (intro _) | split))

theorem closeReplace_keeps {s0 s : State} (gen : Nat) (l : Layout) (h : Keeps s0 s) : Keeps s0 (closeReplace gen l s) := by
  unfold closeReplace
  (try dsimp only)
  (repeat' (first | with_reducible assumption | (intro _; rfl) | with_reducible apply updBay_keeps | with_reducible apply roleNone_keeps | with_reducible apply handReleased_keeps | with_reducible apply replaceLayouts_keeps | with_reducible apply joinedToMember_keeps | (with_reducible refine foldl_keeps _ (fun _ _ _ => ?_) _ _ ?_) | (with_reducible refine foldl_fst_keeps _ (fun _ _ _ => ?_) _ _ ?_) | (simp only [keeps_mk]) | (with_reducible refine Keeps.parts ?_ ?_ ?_) | (with_reducible rfl) | (with_reducible rfl) | (intro _) | split))

theorem completeClose_keeps {s0 s : State} (gen : Nat) (h : Keeps s0 s) : Keeps s0 (completeClose gen s) := by
  unfold completeClose
  (try dsimp only)
  (repeat' (first | with_reducible assumption | (intro _; rfl) | with_reducible apply renameKeys_keeps | with_reducible apply replaceLayouts_keeps | with_reducible apply beginResidue_keeps | with_reducible apply joinedToMember_keeps | with_reducible apply newCapacity_keeps | with_reducible apply closeReplace_keeps | (with_reducible refine foldl_keeps _ (fun _ _ _ => ?_) _ _ ?_) | (with_reducible refine foldl_fst_keeps _ (fun _ _ _ => ?_) _ _ ?_) | (simp only [keeps_mk]) | (with_reducible refine Keeps.parts ?_ ?_ ?_) | (with_reducible rfl) | (with_reducible rfl) | (intro _) | split))

theorem removeForm_keeps {s0 s : State} (gen : Nat) (h : Keeps s0 s) : Keeps s0 (removeForm gen s) := by
  unfold removeForm
  (try dsimp only)
  (repeat' (first | with_reducible assumption | (intro _; rfl) | with_reducible apply roleNone_keeps | with_reducible apply handReleased_keeps | with_reducible apply replaceLayouts_keeps | (with_reducible refine foldl_keeps _ (fun _ _ _ => ?_) _ _ ?_) | (with_reducible refine foldl_fst_keeps _ (fun _ _ _ => ?_) _ _ ?_) | (simp only [keeps_mk]) | (with_reducible refine Keeps.parts ?_ ?_ ?_) | (with_reducible rfl) | (with_reducible rfl) | (intro _) | split))

theorem completeRemove_keeps {s0 s : State} (gen : Nat) (h : Keeps s0 s) : Keeps s0 (completeRemove gen s) := by
  unfold completeRemove
  (try dsimp only)
  (repeat' (first | with_reducible assumption | (intro _; rfl) | with_reducible apply updBay_keeps | with_reducible apply renameKeys_keeps | with_reducible apply handReleased_keeps | with_reducible apply replaceLayouts_keeps | with_reducible apply beginResidue_keeps | with_reducible apply removeForm_keeps | (with_reducible refine foldl_keeps _ (fun _ _ _ => ?_) _ _ ?_) | (with_reducible refine foldl_fst_keeps _ (fun _ _ _ => ?_) _ _ ?_) | (simp only [keeps_mk]) | (with_reducible refine Keeps.parts ?_ ?_ ?_) | (with_reducible rfl) | (with_reducible rfl) | (intro _) | split))

theorem rulePlanEnd_keeps {s0 s : State} {t : State}  (h : Keeps s0 s) (e : rulePlanEnd s = some t) : Keeps s0 t := by
  unfold rulePlanEnd at e
  (try dsimp only at e)
  (repeat' split at e) <;> (try simp only [Option.map_eq_some_iff, Option.some.injEq, reduceCtorEq] at e) <;> (try obtain ⟨_, -, rfl⟩ := e) <;> (try subst e)
  all_goals (repeat' (first | with_reducible assumption | (intro _; rfl) | with_reducible apply planDone_keeps | with_reducible apply moveChain_keeps | with_reducible apply clearActive_keeps | with_reducible apply setEngine_keeps | (with_reducible refine foldl_keeps _ (fun _ _ _ => ?_) _ _ ?_) | (with_reducible refine foldl_fst_keeps _ (fun _ _ _ => ?_) _ _ ?_) | (simp only [keeps_mk]) | (with_reducible refine Keeps.parts ?_ ?_ ?_) | (with_reducible rfl) | (with_reducible rfl) | (intro _) | split))
end Sys2Proof.Machine
end

