-- ==== Sys2Proof/Laws/KeepsMark.lean ====
section
/-! SUPPORT. The relation Keeps through the mark unit and the resets. -/

set_option linter.unusedTactic false
set_option linter.unreachableTactic false
set_option linter.unusedSimpArgs false
set_option linter.unnecessarySeqFocus false

namespace Sys2Proof.Machine

/-! ### MarkUnit -/

/-- What every rule but the taking of a directive leaves: as `Keeps`, but for the directive slot, the result record and
the event flags of the window unit. -/
structure Holds (s t : State) : Prop where
  pending  : t.pending = s.pending
  out      : s.out <+: t.out
  ops      : s.shelf.nextOp ≤ t.shelf.nextOp
  arrival  : s.port.nextArrival ≤ t.port.nextArrival
  tags     : (t.port.entries.map Entry.key).Sublist (s.port.entries.map Entry.key)
  locks    : t.locks.entries.length ≤ max Config.maxLocks s.locks.entries.length
  tuning   : t.ctl.tuning = s.ctl.tuning
  mask     : t.win.mask = s.win.mask
  selector : t.win.selector = s.win.selector
  lost     : t.win.overwrites = s.win.overwrites

theorem Keeps.holds {s t : State} (h : Keeps s t) : Holds s t :=
  ⟨h.pending, h.out, h.ops, h.arrival, h.tags, h.locks, h.tuning, by rw [h.window], by rw [h.window], by rw [h.window]⟩

theorem Holds.trans {s t u : State} (h : Holds s t) (g : Holds t u) : Holds s u where
  pending := g.pending.trans h.pending
  out := h.out.trans g.out
  ops := h.ops.trans g.ops
  arrival := h.arrival.trans g.arrival
  tags := g.tags.trans h.tags
  locks := by have := h.locks; have := g.locks; omega
  tuning := g.tuning.trans h.tuning
  mask := g.mask.trans h.mask
  selector := g.selector.trans h.selector
  lost := g.lost.trans h.lost

theorem Holds.refl (s : State) : Holds s s := (Keeps.refl s).holds

theorem Holds.step {s t u : State} (h : Holds s t) (g : Keeps t u) : Holds s u := h.trans g.holds

theorem foldl_holds {α : Type} {s0 : State} (f : State → α → State)
    (hf : ∀ s a, Holds s0 s → Holds s0 (f s a)) (l : List α) : ∀ s, Holds s0 s → Holds s0 (l.foldl f s) := by
  induction l with
  | nil => intro s h; exact h
  | cons a l ih => intro s h; exact ih _ (hf s a h)

/-- A change of the directive slot, the result record or the flags. -/
theorem Holds.window {s0 s : State} (h : Holds s0 s) {win : WindowUnit} (hm : win.mask = s.win.mask)
    (hs : win.selector = s.win.selector) (ho : win.overwrites = s.win.overwrites) : Holds s0 { s with win } :=
  ⟨h.pending, h.out, h.ops, h.arrival, h.tags, h.locks, h.tuning, hm.trans h.mask, hs.trans h.selector, ho.trans h.lost⟩

theorem finishDirective_holds {s0 s : State} (o : DirOutcome) (h : Holds s0 s) : Holds s0 (finishDirective o s) := by
  unfold finishDirective
  split
  · exact h
  · exact h.window rfl rfl rfl

theorem labelWriteEnded_keeps {s0 s : State}  (h : Keeps s0 s) : Keeps s0 (labelWriteEnded s) := by
  unfold labelWriteEnded
  (try dsimp only)
  (repeat' (first | with_reducible assumption | (intro _; rfl) | (with_reducible refine foldl_keeps _ (fun _ _ _ => ?_) _ _ ?_) | (with_reducible refine foldl_fst_keeps _ (fun _ _ _ => ?_) _ _ ?_) | (simp only [keeps_mk]) | (with_reducible refine Keeps.parts ?_ ?_ ?_) | (with_reducible rfl) | (with_reducible rfl) | (intro _) | split))

theorem endLabel_keeps {s0 s : State} (again : Bool) (op : MemberOp) (res : OpResult) (h : Keeps s0 s) : Keeps s0 (endLabel again op res s) := by
  unfold endLabel
  (try dsimp only)
  (repeat' (first | with_reducible assumption | (intro _; rfl) | with_reducible apply endReserveWrite_keeps | with_reducible apply labelWriteEnded_keeps | (with_reducible refine foldl_keeps _ (fun _ _ _ => ?_) _ _ ?_) | (with_reducible refine foldl_fst_keeps _ (fun _ _ _ => ?_) _ _ ?_) | (simp only [keeps_mk]) | (with_reducible refine Keeps.parts ?_ ?_ ?_) | (with_reducible rfl) | (with_reducible rfl) | (intro _) | split))

theorem endAssemblyLabel_keeps {s0 s : State} (again : Bool) (op : MemberOp) (res : OpResult) (h : Keeps s0 s) : Keeps s0 (endAssemblyLabel again op res s) := by
  unfold endAssemblyLabel
  (try dsimp only)
  (repeat' (first | with_reducible assumption | (intro _; rfl) | with_reducible apply endReserveWrite_keeps | with_reducible apply labelWriteEnded_keeps | (with_reducible refine foldl_keeps _ (fun _ _ _ => ?_) _ _ ?_) | (with_reducible refine foldl_fst_keeps _ (fun _ _ _ => ?_) _ _ ?_) | (simp only [keeps_mk]) | (with_reducible refine Keeps.parts ?_ ?_ ?_) | (with_reducible rfl) | (with_reducible rfl) | (intro _) | split))

theorem adoptLabel_keeps {s0 s : State} (f : Flight) (h : Keeps s0 s) : Keeps s0 (adoptLabel f s) := by
  unfold adoptLabel
  (try dsimp only)
  (repeat' (first | with_reducible assumption | (intro _; rfl) | with_reducible apply refreshMark_keeps | (with_reducible refine foldl_keeps _ (fun _ _ _ => ?_) _ _ ?_) | (with_reducible refine foldl_fst_keeps _ (fun _ _ _ => ?_) _ _ ?_) | (simp only [keeps_mk]) | (with_reducible refine Keeps.parts ?_ ?_ ?_) | (with_reducible rfl) | (with_reducible rfl) | (intro _) | split))

theorem retireMarked_keeps {s0 s : State} (f : Flight) (h : Keeps s0 s) : Keeps s0 (retireMarked f s) := by
  unfold retireMarked
  (try dsimp only)
  (repeat' (first | with_reducible assumption | (intro _; rfl) | with_reducible apply retire_keeps | (with_reducible refine foldl_keeps _ (fun _ _ _ => ?_) _ _ ?_) | (with_reducible refine foldl_fst_keeps _ (fun _ _ _ => ?_) _ _ ?_) | (simp only [keeps_mk]) | (with_reducible refine Keeps.parts ?_ ?_ ?_) | (with_reducible rfl) | (with_reducible rfl) | (intro _) | split))

theorem wakeRows_keeps {s0 s : State}  (h : Keeps s0 s) : Keeps s0 (wakeRows s) := by
  unfold wakeRows
  (try dsimp only)
  (repeat' (first | with_reducible assumption | (intro _; rfl) | with_reducible apply push_keeps | (with_reducible refine foldl_keeps _ (fun _ _ _ => ?_) _ _ ?_) | (with_reducible refine foldl_fst_keeps _ (fun _ _ _ => ?_) _ _ ?_) | (simp only [keeps_mk]) | (with_reducible refine Keeps.parts ?_ ?_ ?_) | (with_reducible rfl) | (with_reducible rfl) | (intro _) | split))

theorem tellPlan_keeps {s0 s : State} (gen : Nat) (w : PlanWrite) (h : Keeps s0 s) : Keeps s0 (tellPlan gen w s) := by
  unfold tellPlan
  (try dsimp only)
  (repeat' (first | with_reducible assumption | (intro _; rfl) | with_reducible apply completeClose_keeps | with_reducible apply completeRemove_keeps | (with_reducible refine foldl_keeps _ (fun _ _ _ => ?_) _ _ ?_) | (with_reducible refine foldl_fst_keeps _ (fun _ _ _ => ?_) _ _ ?_) | (simp only [keeps_mk]) | (with_reducible refine Keeps.parts ?_ ?_ ?_) | (with_reducible rfl) | (with_reducible rfl) | (intro _) | split))

theorem serveCauses_holds {s0 s : State} (f : Flight) (h : Holds s0 s) : Holds s0 (serveCauses f s) := by
  unfold serveCauses
  dsimp only
  refine Holds.step ?_ (wakeRows_keeps (Keeps.refl _))
  have hk : ∀ s1 : State, Holds s0 s1 →
      Holds s0 ((s.mark.causes.filter (Cause.satisfied f)).filterMap (·.kind.planWrite)
        |>.foldl (fun s w => tellPlan f.generation w s) s1) := by
    intro s1 h1
    exact foldl_holds _ (fun s w hs => hs.step (tellPlan_keeps _ _ (Keeps.refl _))) _ _ h1
  have h2 := fun p => hk _ (h.step (u := retireMarked f (releaseHolds p { s with mark :=
    { s.mark with
      causes := s.mark.causes.filter (fun c => !Cause.satisfied f c)
      losses := s.mark.losses.filter (fun x => !x.2), judgeBand := true } }))
    (retireMarked_keeps f (releaseHolds_keeps p (keeps_mk.mpr ((Keeps.refl s).parts rfl rfl)))))
  split
  · exact finishDirective_holds _ (h2 _)
  · exact h2 _

theorem serveAssembly_keeps {s0 s : State}  (h : Keeps s0 s) : Keeps s0 (serveAssembly s) := by
  unfold serveAssembly
  (try dsimp only)
  (repeat' (first | with_reducible assumption | (intro _; rfl) | with_reducible apply raise_keeps | (with_reducible refine foldl_keeps _ (fun _ _ _ => ?_) _ _ ?_) | (with_reducible refine foldl_fst_keeps _ (fun _ _ _ => ?_) _ _ ?_) | (simp only [keeps_mk]) | (with_reducible refine Keeps.parts ?_ ?_ ?_) | (with_reducible rfl) | (with_reducible rfl) | (intro _) | split))

theorem ruleLabelDone_holds {s0 s : State} {t : State} (h : Holds s0 s) (e : ruleLabelDone s = some t) : Holds s0 t := by
  unfold ruleLabelDone at e
  split at e
  · cases e
  · rename_i f _
    split at e
    · obtain rfl := Option.some.inj e
      have ha : Holds s0 (adoptLabel f s) := h.step (adoptLabel_keeps _ (Keeps.refl _))
      split
      · exact ha.step (serveAssembly_keeps (Keeps.refl _))
      · exact serveCauses_holds _ ha
    · cases e

theorem ruleBand_keeps {s0 s : State} {t : State}  (h : Keeps s0 s) (e : ruleBand s = some t) : Keeps s0 t := by
  unfold ruleBand at e
  (try dsimp only at e)
  (repeat' split at e) <;> (try simp only [Option.map_eq_some_iff, Option.some.injEq, reduceCtorEq] at e) <;> (try obtain ⟨_, -, rfl⟩ := e) <;> (try subst e)
  all_goals (repeat' (first | with_reducible assumption | (intro _; rfl) | (with_reducible refine foldl_keeps _ (fun _ _ _ => ?_) _ _ ?_) | (with_reducible refine foldl_fst_keeps _ (fun _ _ _ => ?_) _ _ ?_) | (simp only [keeps_mk]) | (with_reducible refine Keeps.parts ?_ ?_ ?_) | (with_reducible rfl) | (with_reducible rfl) | (intro _) | split))

/-! ### Resets -/

theorem dropRequest_keeps {s0 s : State} (e : Entry) (h : Keeps s0 s) : Keeps s0 (dropRequest e s) := by
  unfold dropRequest
  (try dsimp only)
  (repeat' (first | with_reducible assumption | (intro _; rfl) | with_reducible apply freeEntry_keeps | with_reducible apply leaveLocks_keeps | (with_reducible refine foldl_keeps _ (fun _ _ _ => ?_) _ _ ?_) | (with_reducible refine foldl_fst_keeps _ (fun _ _ _ => ?_) _ _ ?_) | (simp only [keeps_mk]) | (with_reducible refine Keeps.parts ?_ ?_ ?_) | (with_reducible rfl) | (with_reducible rfl) | (intro _) | split))

theorem drainRead_keeps {s0 s : State} (e : Entry) (h : Keeps s0 s) : Keeps s0 (drainRead e s) := by
  unfold drainRead
  (try dsimp only)
  (repeat' (first | with_reducible assumption | (intro _; rfl) | with_reducible apply strikeRequest_keeps | with_reducible apply leaveLocks_keeps | (with_reducible refine foldl_keeps _ (fun _ _ _ => ?_) _ _ ?_) | (with_reducible refine foldl_fst_keeps _ (fun _ _ _ => ?_) _ _ ?_) | (simp only [keeps_mk]) | (with_reducible refine Keeps.parts ?_ ?_ ?_) | (with_reducible rfl) | (with_reducible rfl) | (intro _) | split))

theorem dropRequests_keeps {s0 s : State} (h : Keeps s0 s) : Keeps s0 (dropRequests s) := by
  have h1 : Keeps s0 ((s.port.entries.filter (fun e => s.isIssued e && e.kind == .read)).foldl (fun s e => drainRead e s) s) :=
    foldl_keeps _ (fun _ _ hs => drainRead_keeps _ hs) _ _ h
  have h2 := foldl_keeps (fun s e => dropRequest e s) (fun _ _ hs => dropRequest_keeps _ hs)
    (s.port.entries.filter (fun e => !s.isIssued e)) _ h1
  refine keeps_mk.mpr (h2.partsPort le_rfl ?_ le_rfl rfl rfl)
  rw [List.map_map]
  exact List.Sublist.refl _

theorem abortRequests_keeps {s0 s : State} (h : Keeps s0 s) : Keeps s0 (abortRequests s) := by
  have h1 := foldl_keeps (fun (s : State) (e : Entry) => send e.tag .aborted none [] s) (fun _ _ hs => send_keeps _ _ _ _ hs)
    (s.port.entries.filter (·.state != .draining)) _ h
  have hp : ∀ (l : List Entry) (s : State),
      (l.foldl (fun s e => send e.tag .aborted none [] s) s).port = s.port := by
    intro l
    induction l with
    | nil => intro s; rfl
    | cons a l ih => intro s; exact (ih _).trans rfl
  refine keeps_mk.mpr (h1.partsPort le_rfl ?_ (Nat.zero_le _) rfl rfl)
  rw [hp, List.map_map]
  exact List.Sublist.map _ List.filter_sublist

theorem drainBays_keeps {s0 s : State}  (h : Keeps s0 s) : Keeps s0 (drainBays s) := by
  unfold drainBays
  (try dsimp only)
  (repeat' (first | with_reducible assumption | (intro _; rfl) | with_reducible apply updAllBays_keeps | (with_reducible refine foldl_keeps _ (fun _ _ _ => ?_) _ _ ?_) | (with_reducible refine foldl_fst_keeps _ (fun _ _ _ => ?_) _ _ ?_) | (simp only [keeps_mk]) | (with_reducible refine Keeps.parts ?_ ?_ ?_) | (with_reducible rfl) | (with_reducible rfl) | (intro _) | split))

theorem restartBlocks_keeps {s0 s : State} (cause : StartCause) (h : Keeps s0 s) : Keeps s0 (restartBlocks cause s) :=
  keeps_mk.mpr ((drainBays_keeps h).parts rfl rfl)

theorem clearWindow_holds {s0 s : State} (h : Holds s0 s) : Holds s0 (clearWindow s) := h.window rfl rfl rfl

theorem restartTaken_holds {s0 s : State} (d : Directive) (h : Holds s0 s) : Holds s0 (restartTaken d s) :=
  Holds.step (t := { clearWindow s with win := { (clearWindow s).win with
      result := { code := d.code, seq := d.args.seq, outcome := .done } } })
    ((clearWindow_holds h).window rfl rfl rfl) (restartBlocks_keeps _ (abortRequests_keeps (Keeps.refl _)))

theorem linkReset_holds {s0 s : State} (h : Holds s0 s) : Holds s0 (linkReset s) := by
  have hd := h.step (dropRequests_keeps (Keeps.refl s))
  unfold linkReset
  dsimp only
  split
  · exact (clearWindow_holds hd).step (restartBlocks_keeps _ (abortRequests_keeps (Keeps.refl _)))
  · exact hd.window rfl rfl rfl


theorem ruleScan_keeps {s0 s : State} {t : State}  (h : Keeps s0 s) (e : ruleScan s = some t) : Keeps s0 t := by
  unfold ruleScan at e
  (try dsimp only at e)
  (repeat' split at e) <;> (try simp only [Option.map_eq_some_iff, Option.some.injEq, reduceCtorEq] at e) <;> (try obtain ⟨_, -, rfl⟩ := e) <;> (try subst e)
  all_goals (repeat' (first | with_reducible assumption | (intro _; rfl) | with_reducible apply updBay_keeps | with_reducible apply handReserve_keeps | (with_reducible refine foldl_keeps _ (fun _ _ _ => ?_) _ _ ?_) | (with_reducible refine foldl_fst_keeps _ (fun _ _ _ => ?_) _ _ ?_) | (simp only [keeps_mk]) | (with_reducible refine Keeps.parts ?_ ?_ ?_) | (with_reducible rfl) | (with_reducible rfl) | (intro _) | split))
end Sys2Proof.Machine
end

