-- ==== Sys2Proof/Laws/KeepsAssembly.lean ====
section
/-! SUPPORT. The relation Keeps through assembly and the ends of operations. -/

set_option linter.unusedTactic false
set_option linter.unreachableTactic false
set_option linter.unusedSimpArgs false
set_option linter.unnecessarySeqFocus false

namespace Sys2Proof.Machine

/-! ### Assembly -/

theorem recordInquire_keeps {s0 s : State} (i : Slot) (serial : BitVec 64) (capacity : Nat) (h : Keeps s0 s) : Keeps s0 (recordInquire i serial capacity s) := by
  unfold recordInquire
  (try dsimp only)
  (repeat' (first | with_reducible assumption | (intro _; rfl) | with_reducible apply updBay_keeps | (with_reducible refine foldl_keeps _ (fun _ _ _ => ?_) _ _ ?_) | (with_reducible refine foldl_fst_keeps _ (fun _ _ _ => ?_) _ _ ?_) | (simp only [keeps_mk]) | (with_reducible refine Keeps.parts ?_ ?_ ?_) | (with_reducible rfl) | (with_reducible rfl) | (intro _) | split))

theorem endInquire_keeps {s0 s : State} (i : Slot) (res : OpResult) (h : Keeps s0 s) : Keeps s0 (endInquire i res s) := by
  unfold endInquire
  (try dsimp only)
  (repeat' (first | with_reducible assumption | (intro _; rfl) | with_reducible apply updBay_keeps | with_reducible apply handReserve_keeps | with_reducible apply recordInquire_keeps | (with_reducible refine foldl_keeps _ (fun _ _ _ => ?_) _ _ ?_) | (with_reducible refine foldl_fst_keeps _ (fun _ _ _ => ?_) _ _ ?_) | (simp only [keeps_mk]) | (with_reducible refine Keeps.parts ?_ ?_ ?_) | (with_reducible rfl) | (with_reducible rfl) | (intro _) | split))

theorem judgeReserve_keeps {s0 s : State} (i : Slot) (first : Nat) (bs : List Block) (h : Keeps s0 s) : Keeps s0 (judgeReserve i first bs s) := by
  unfold judgeReserve
  (try dsimp only)
  (repeat' (first | with_reducible assumption | (intro _; rfl) | with_reducible apply tagErrorAt_keeps | (with_reducible refine foldl_keeps _ (fun _ _ _ => ?_) _ _ ?_) | (with_reducible refine foldl_fst_keeps _ (fun _ _ _ => ?_) _ _ ?_) | (simp only [keeps_mk]) | (with_reducible refine Keeps.parts ?_ ?_ ?_) | (with_reducible rfl) | (with_reducible rfl) | (intro _) | split))

theorem endLabelRead_keeps {s0 s : State} (i : Slot) (res : OpResult) (h : Keeps s0 s) : Keeps s0 (endLabelRead i res s) := by
  unfold endLabelRead
  (try dsimp only)
  (repeat' (first | with_reducible assumption | (intro _; rfl) | with_reducible apply updBay_keeps | with_reducible apply judgeReserve_keeps | (with_reducible refine foldl_keeps _ (fun _ _ _ => ?_) _ _ ?_) | (with_reducible refine foldl_fst_keeps _ (fun _ _ _ => ?_) _ _ ?_) | (simp only [keeps_mk]) | (with_reducible refine Keeps.parts ?_ ?_ ?_) | (with_reducible rfl) | (with_reducible rfl) | (intro _) | split))

theorem takePage_keeps {s0 s : State} (a : Nat) (h : Keeps s0 s) : Keeps s0 (takePage a s) := by
  unfold takePage
  (try dsimp only)
  (repeat' (first | with_reducible assumption | (intro _; rfl) | with_reducible apply complete_keeps | with_reducible apply setRecord_keeps | with_reducible apply queueRecord_keeps | (with_reducible refine foldl_keeps _ (fun _ _ _ => ?_) _ _ ?_) | (with_reducible refine foldl_fst_keeps _ (fun _ _ _ => ?_) _ _ ?_) | (simp only [keeps_mk]) | (with_reducible refine Keeps.parts ?_ ?_ ?_) | (with_reducible rfl) | (with_reducible rfl) | (intro _) | split))

theorem takePages_keeps {s0 s : State}  (h : Keeps s0 s) : Keeps s0 (takePages s) := by
  unfold takePages
  (try dsimp only)
  (repeat' (first | with_reducible assumption | (intro _; rfl) | with_reducible apply takePage_keeps | (with_reducible refine foldl_keeps _ (fun _ _ _ => ?_) _ _ ?_) | (with_reducible refine foldl_fst_keeps _ (fun _ _ _ => ?_) _ _ ?_) | (simp only [keeps_mk]) | (with_reducible refine Keeps.parts ?_ ?_ ?_) | (with_reducible rfl) | (with_reducible rfl) | (intro _) | split))

theorem setRoles_keeps {s0 s : State} (chosen : Label) (h : Keeps s0 s) : Keeps s0 (setRoles chosen s) := by
  unfold setRoles
  (try dsimp only)
  (repeat' (first | with_reducible assumption | (intro _; rfl) | with_reducible apply updBay_keeps | (with_reducible refine foldl_keeps _ (fun _ _ _ => ?_) _ _ ?_) | (with_reducible refine foldl_fst_keeps _ (fun _ _ _ => ?_) _ _ ?_) | (simp only [keeps_mk]) | (with_reducible refine Keeps.parts ?_ ?_ ?_) | (with_reducible rfl) | (with_reducible rfl) | (intro _) | split))

theorem loadLabel_keeps {s0 s : State} (chosen : Label) (h : Keeps s0 s) : Keeps s0 (loadLabel chosen s) := by
  unfold loadLabel
  (try dsimp only)
  (repeat' (first | with_reducible assumption | (intro _; rfl) | with_reducible apply setRoles_keeps | (with_reducible refine foldl_keeps _ (fun _ _ _ => ?_) _ _ ?_) | (with_reducible refine foldl_fst_keeps _ (fun _ _ _ => ?_) _ _ ?_) | (simp only [keeps_mk]) | (with_reducible refine Keeps.parts ?_ ?_ ?_) | (with_reducible rfl) | (with_reducible rfl) | (intro _) | split))

theorem chooseNone_keeps {s0 s : State}  (h : Keeps s0 s) : Keeps s0 (chooseNone s) := by
  unfold chooseNone
  (try dsimp only)
  (repeat' (first | with_reducible assumption | (intro _; rfl) | with_reducible apply updAllBays_keeps | with_reducible apply takePages_keeps | (with_reducible refine foldl_keeps _ (fun _ _ _ => ?_) _ _ ?_) | (with_reducible refine foldl_fst_keeps _ (fun _ _ _ => ?_) _ _ ?_) | (simp only [keeps_mk]) | (with_reducible refine Keeps.parts ?_ ?_ ?_) | (with_reducible rfl) | (with_reducible rfl) | (intro _) | split))

theorem ruleChoice_keeps {s0 s : State} {t : State}  (h : Keeps s0 s) (e : ruleChoice s = some t) : Keeps s0 t := by
  unfold ruleChoice at e
  (try dsimp only at e)
  (repeat' split at e) <;> (try simp only [Option.map_eq_some_iff, Option.some.injEq, reduceCtorEq] at e) <;> (try obtain ⟨_, -, rfl⟩ := e) <;> (try subst e)
  all_goals (repeat' (first | with_reducible assumption | (intro _; rfl) | with_reducible apply takeReferences_keeps | with_reducible apply loadLabel_keeps | with_reducible apply chooseNone_keeps | (with_reducible refine foldl_keeps _ (fun _ _ _ => ?_) _ _ ?_) | (with_reducible refine foldl_fst_keeps _ (fun _ _ _ => ?_) _ _ ?_) | (simp only [keeps_mk]) | (with_reducible refine Keeps.parts ?_ ?_ ?_) | (with_reducible rfl) | (with_reducible rfl) | (intro _) | split))

theorem askRecords_keeps {s0 s : State} (i : Slot) (h : Keeps s0 s) : Keeps s0 (askRecords i s) := by
  unfold askRecords
  (try dsimp only)
  (repeat' (first | with_reducible assumption | (intro _; rfl) | with_reducible apply handReserve_keeps | (with_reducible refine foldl_keeps _ (fun _ _ _ => ?_) _ _ ?_) | (with_reducible refine foldl_fst_keeps _ (fun _ _ _ => ?_) _ _ ?_) | (simp only [keeps_mk]) | (with_reducible refine Keeps.parts ?_ ?_ ?_) | (with_reducible rfl) | (with_reducible rfl) | (intro _) | split))

theorem supplyRecords_keeps {s0 s : State}  (h : Keeps s0 s) : Keeps s0 (supplyRecords s) := by
  unfold supplyRecords
  (try dsimp only)
  (repeat' (first | with_reducible assumption | (intro _; rfl) | with_reducible apply setRecord_keeps | (with_reducible refine foldl_keeps _ (fun _ _ _ => ?_) _ _ ?_) | (with_reducible refine foldl_fst_keeps _ (fun _ _ _ => ?_) _ _ ?_) | (simp only [keeps_mk]) | (with_reducible refine Keeps.parts ?_ ?_ ?_) | (with_reducible rfl) | (with_reducible rfl) | (intro _) | split))

theorem fillRecords_keeps {s0 s : State}  (h : Keeps s0 s) : Keeps s0 (fillRecords s) := by
  unfold fillRecords
  (try dsimp only)
  (repeat' (first | with_reducible assumption | (intro _; rfl) | with_reducible apply clearOutcome_keeps | with_reducible apply supplyRecords_keeps | with_reducible apply setRecord_keeps | (with_reducible refine foldl_keeps _ (fun _ _ _ => ?_) _ _ ?_) | (with_reducible refine foldl_fst_keeps _ (fun _ _ _ => ?_) _ _ ?_) | (simp only [keeps_mk]) | (with_reducible refine Keeps.parts ?_ ?_ ?_) | (with_reducible rfl) | (with_reducible rfl) | (intro _) | split))

theorem ruleLoading_keeps {s0 s : State} {t : State}  (h : Keeps s0 s) (e : ruleLoading s = some t) : Keeps s0 t := by
  unfold ruleLoading at e
  (try dsimp only at e)
  (repeat' split at e) <;> (try simp only [Option.map_eq_some_iff, Option.some.injEq, reduceCtorEq] at e) <;> (try obtain ⟨_, -, rfl⟩ := e) <;> (try subst e)
  all_goals (repeat' (first | with_reducible assumption | (intro _; rfl) | with_reducible apply askRecords_keeps | with_reducible apply fillRecords_keeps | (with_reducible refine foldl_keeps _ (fun _ _ _ => ?_) _ _ ?_) | (with_reducible refine foldl_fst_keeps _ (fun _ _ _ => ?_) _ _ ?_) | (simp only [keeps_mk]) | (with_reducible refine Keeps.parts ?_ ?_ ?_) | (with_reducible rfl) | (with_reducible rfl) | (intro _) | split))

theorem takeAreaRecord_keeps {s0 s : State} (k : Nat) (found : Option PlanRecord) (h : Keeps s0 s) : Keeps s0 (takeAreaRecord k found s) := by
  unfold takeAreaRecord
  (try dsimp only)
  (repeat' (first | with_reducible assumption | (intro _; rfl) | with_reducible apply setRecord_keeps | (with_reducible refine foldl_keeps _ (fun _ _ _ => ?_) _ _ ?_) | (with_reducible refine foldl_fst_keeps _ (fun _ _ _ => ?_) _ _ ?_) | (simp only [keeps_mk]) | (with_reducible refine Keeps.parts ?_ ?_ ?_) | (with_reducible rfl) | (with_reducible rfl) | (intro _) | split))

theorem endPlanRead_keeps {s0 s : State} (op : MemberOp) (res : OpResult) (h : Keeps s0 s) : Keeps s0 (endPlanRead op res s) := by
  unfold endPlanRead
  (try dsimp only)
  (repeat' (first | with_reducible assumption | (intro _; rfl) | with_reducible apply judgeReserve_keeps | with_reducible apply takeAreaRecord_keeps | (with_reducible refine foldl_keeps _ (fun _ _ _ => ?_) _ _ ?_) | (with_reducible refine foldl_fst_keeps _ (fun _ _ _ => ?_) _ _ ?_) | (simp only [keeps_mk]) | (with_reducible refine Keeps.parts ?_ ?_ ?_) | (with_reducible rfl) | (with_reducible rfl) | (intro _) | split))

theorem handCopies_keeps {s0 s : State}  (h : Keeps s0 s) : Keeps s0 (handCopies s) := by
  unfold handCopies
  (try dsimp only)
  (repeat' (first | with_reducible assumption | (intro _; rfl) | (with_reducible refine foldl_keeps _ (fun _ _ _ => ?_) _ _ ?_) | (with_reducible refine foldl_fst_keeps _ (fun _ _ _ => ?_) _ _ ?_) | (simp only [keeps_mk]) | (with_reducible refine Keeps.parts ?_ ?_ ?_) | (with_reducible rfl) | (with_reducible rfl) | (intro _) | split))

theorem beginAssemblyEnd_keeps {s0 s : State}  (h : Keeps s0 s) : Keeps s0 (beginAssemblyEnd s) := by
  unfold beginAssemblyEnd
  (try dsimp only)
  (repeat' (first | with_reducible assumption | (intro _; rfl) | with_reducible apply beginAssemblyLabel_keeps | with_reducible apply handCopies_keeps | (with_reducible refine foldl_keeps _ (fun _ _ _ => ?_) _ _ ?_) | (with_reducible refine foldl_fst_keeps _ (fun _ _ _ => ?_) _ _ ?_) | (simp only [keeps_mk]) | (with_reducible refine Keeps.parts ?_ ?_ ?_) | (with_reducible rfl) | (with_reducible rfl) | (intro _) | split))

theorem beginRecovery_keeps {s0 s : State}  (h : Keeps s0 s) : Keeps s0 (beginRecovery s) := by
  unfold beginRecovery
  (try dsimp only)
  (repeat' (first | with_reducible assumption | (intro _; rfl) | with_reducible apply handReserve_keeps | with_reducible apply beginAssemblyEnd_keeps | (with_reducible refine foldl_keeps _ (fun _ _ _ => ?_) _ _ ?_) | (with_reducible refine foldl_fst_keeps _ (fun _ _ _ => ?_) _ _ ?_) | (simp only [keeps_mk]) | (with_reducible refine Keeps.parts ?_ ?_ ?_) | (with_reducible rfl) | (with_reducible rfl) | (intro _) | split))

theorem endSpillRead_keeps {s0 s : State} (op : MemberOp) (res : OpResult) (h : Keeps s0 s) : Keeps s0 (endSpillRead op res s) := by
  unfold endSpillRead
  (try dsimp only)
  (repeat' (first | with_reducible assumption | (intro _; rfl) | with_reducible apply judgeReserve_keeps | (with_reducible refine foldl_keeps _ (fun _ _ _ => ?_) _ _ ?_) | (with_reducible refine foldl_fst_keeps _ (fun _ _ _ => ?_) _ _ ?_) | (simp only [keeps_mk]) | (with_reducible refine Keeps.parts ?_ ?_ ?_) | (with_reducible rfl) | (with_reducible rfl) | (intro _) | split))

theorem beginRestore_keeps {s0 s : State} (r : SpillRecord) (o n : Layout) (h : Keeps s0 s) : Keeps s0 (beginRestore r o n s) := by
  unfold beginRestore
  (try dsimp only)
  (repeat' (first | with_reducible assumption | (intro _; rfl) | with_reducible apply setStep_keeps | with_reducible apply handReserve_keeps | (with_reducible refine foldl_keeps _ (fun _ _ _ => ?_) _ _ ?_) | (with_reducible refine foldl_fst_keeps _ (fun _ _ _ => ?_) _ _ ?_) | (simp only [keeps_mk]) | (with_reducible refine Keeps.parts ?_ ?_ ?_) | (with_reducible rfl) | (with_reducible rfl) | (intro _) | split))

theorem ruleRecords_keeps {s0 s : State} {t : State}  (h : Keeps s0 s) (e : ruleRecords s = some t) : Keeps s0 t := by
  unfold ruleRecords at e
  (try dsimp only at e)
  (repeat' split at e) <;> (try simp only [Option.map_eq_some_iff, Option.some.injEq, reduceCtorEq] at e) <;> (try obtain ⟨_, -, rfl⟩ := e) <;> (try subst e)
  all_goals (repeat' (first | with_reducible assumption | (intro _; rfl) | with_reducible apply beginAssemblyEnd_keeps | with_reducible apply beginRecovery_keeps | with_reducible apply beginRestore_keeps | (with_reducible refine foldl_keeps _ (fun _ _ _ => ?_) _ _ ?_) | (with_reducible refine foldl_fst_keeps _ (fun _ _ _ => ?_) _ _ ?_) | (simp only [keeps_mk]) | (with_reducible refine Keeps.parts ?_ ?_ ?_) | (with_reducible rfl) | (with_reducible rfl) | (intro _) | split))

theorem arriveColumn_keeps {s0 : State} {p : State × Fetch} (op : MemberOp) (res : OpResult) (front : Nat) (c : Cell) (h : Keeps s0 p.1) : Keeps s0 (arriveColumn op res front c p).1 := by
  unfold arriveColumn
  (try dsimp only)
  (repeat' (first | with_reducible assumption | (intro _; rfl) | with_reducible apply tagErrorAt_keeps | (with_reducible refine foldl_keeps _ (fun _ _ _ => ?_) _ _ ?_) | (with_reducible refine foldl_fst_keeps _ (fun _ _ _ => ?_) _ _ ?_) | (simp only [keeps_mk]) | (with_reducible refine Keeps.parts ?_ ?_ ?_) | (with_reducible rfl) | (with_reducible rfl) | (intro _) | split))

theorem endColumnRead_keeps {s0 s : State} (op : MemberOp) (res : OpResult) (h : Keeps s0 s) : Keeps s0 (endColumnRead op res s) := by
  unfold endColumnRead
  (try dsimp only)
  (repeat' (first | with_reducible assumption | (intro _; rfl) | with_reducible apply updStep_keeps | with_reducible apply arriveColumn_keeps | (with_reducible refine foldl_keeps _ (fun _ _ _ => ?_) _ _ ?_) | (with_reducible refine foldl_fst_keeps _ (fun _ _ _ => ?_) _ _ ?_) | (simp only [keeps_mk]) | (with_reducible refine Keeps.parts ?_ ?_ ?_) | (with_reducible rfl) | (with_reducible rfl) | (intro _) | split))

theorem recoveryFails_keeps {s0 s : State}  (h : Keeps s0 s) : Keeps s0 (recoveryFails s) := by
  unfold recoveryFails
  (try dsimp only)
  (repeat' (first | with_reducible assumption | (intro _; rfl) | with_reducible apply raise_keeps | with_reducible apply setStep_keeps | with_reducible apply takePages_keeps | (with_reducible refine foldl_keeps _ (fun _ _ _ => ?_) _ _ ?_) | (with_reducible refine foldl_fst_keeps _ (fun _ _ _ => ?_) _ _ ?_) | (simp only [keeps_mk]) | (with_reducible refine Keeps.parts ?_ ?_ ?_) | (with_reducible rfl) | (with_reducible rfl) | (intro _) | split))

theorem placeRestored_keeps {s0 s : State} (t : Step) (n : Layout) (h : Keeps s0 s) : Keeps s0 (placeRestored t n s) := by
  unfold placeRestored
  (try dsimp only)
  (repeat' (first | with_reducible assumption | (intro _; rfl) | with_reducible apply setStep_keeps | with_reducible apply handUnit_keeps | (with_reducible refine foldl_keeps _ (fun _ _ _ => ?_) _ _ ?_) | (with_reducible refine foldl_fst_keeps _ (fun _ _ _ => ?_) _ _ ?_) | (simp only [keeps_mk]) | (with_reducible refine Keeps.parts ?_ ?_ ?_) | (with_reducible rfl) | (with_reducible rfl) | (intro _) | split))

theorem ruleColumns_keeps {s0 s : State} {t : State}  (h : Keeps s0 s) (e : ruleColumns s = some t) : Keeps s0 t := by
  unfold ruleColumns at e
  (try dsimp only at e)
  (repeat' split at e) <;> (try simp only [Option.map_eq_some_iff, Option.some.injEq, reduceCtorEq] at e) <;> (try obtain ⟨_, -, rfl⟩ := e) <;> (try subst e)
  all_goals (repeat' (first | with_reducible assumption | (intro _; rfl) | with_reducible apply recoveryFails_keeps | with_reducible apply placeRestored_keeps | (with_reducible refine foldl_keeps _ (fun _ _ _ => ?_) _ _ ?_) | (with_reducible refine foldl_fst_keeps _ (fun _ _ _ => ?_) _ _ ?_) | (simp only [keeps_mk]) | (with_reducible refine Keeps.parts ?_ ?_ ?_) | (with_reducible rfl) | (with_reducible rfl) | (intro _) | split))

theorem ruleRestored_keeps {s0 s : State} {t : State}  (h : Keeps s0 s) (e : ruleRestored s = some t) : Keeps s0 t := by
  unfold ruleRestored at e
  (try dsimp only at e)
  (repeat' split at e) <;> (try simp only [Option.map_eq_some_iff, Option.some.injEq, reduceCtorEq] at e) <;> (try obtain ⟨_, -, rfl⟩ := e) <;> (try subst e)
  all_goals (repeat' (first | with_reducible assumption | (intro _; rfl) | with_reducible apply beginAssemblyEnd_keeps | (with_reducible refine foldl_keeps _ (fun _ _ _ => ?_) _ _ ?_) | (with_reducible refine foldl_fst_keeps _ (fun _ _ _ => ?_) _ _ ?_) | (simp only [keeps_mk]) | (with_reducible refine Keeps.parts ?_ ?_ ?_) | (with_reducible rfl) | (with_reducible rfl) | (intro _) | split))

theorem endAssemblyCopy_keeps {s0 s : State} (again : Bool) (op : MemberOp) (res : OpResult) (h : Keeps s0 s) : Keeps s0 (endAssemblyCopy again op res s) := by
  unfold endAssemblyCopy
  (try dsimp only)
  (repeat' (first | with_reducible assumption | (intro _; rfl) | with_reducible apply endReserveWrite_keeps | (with_reducible refine foldl_keeps _ (fun _ _ _ => ?_) _ _ ?_) | (with_reducible refine foldl_fst_keeps _ (fun _ _ _ => ?_) _ _ ?_) | (simp only [keeps_mk]) | (with_reducible refine Keeps.parts ?_ ?_ ?_) | (with_reducible rfl) | (with_reducible rfl) | (intro _) | split))

theorem endAssembly_keeps {s0 s : State}  (h : Keeps s0 s) : Keeps s0 (endAssembly s) := by
  unfold endAssembly
  (try dsimp only)
  (repeat' (first | with_reducible assumption | (intro _; rfl) | with_reducible apply raise_keeps | with_reducible apply takePages_keeps | (with_reducible refine foldl_keeps _ (fun _ _ _ => ?_) _ _ ?_) | (with_reducible refine foldl_fst_keeps _ (fun _ _ _ => ?_) _ _ ?_) | (simp only [keeps_mk]) | (with_reducible refine Keeps.parts ?_ ?_ ?_) | (with_reducible rfl) | (with_reducible rfl) | (intro _) | split))

theorem ruleAssemblyEnd_keeps {s0 s : State} {t : State}  (h : Keeps s0 s) (e : ruleAssemblyEnd s = some t) : Keeps s0 t := by
  unfold ruleAssemblyEnd at e
  (try dsimp only at e)
  (repeat' split at e) <;> (try simp only [Option.map_eq_some_iff, Option.some.injEq, reduceCtorEq] at e) <;> (try obtain ⟨_, -, rfl⟩ := e) <;> (try subst e)
  all_goals (repeat' (first | with_reducible assumption | (intro _; rfl) | with_reducible apply endAssembly_keeps | (with_reducible refine foldl_keeps _ (fun _ _ _ => ?_) _ _ ?_) | (with_reducible refine foldl_fst_keeps _ (fun _ _ _ => ?_) _ _ ?_) | (simp only [keeps_mk]) | (with_reducible refine Keeps.parts ?_ ?_ ?_) | (with_reducible rfl) | (with_reducible rfl) | (intro _) | split))

/-! ### Ends -/

theorem endHostRead_keeps {s0 s : State} (a part : Nat) (op : MemberOp) (res : OpResult) (h : Keeps s0 s) : Keeps s0 (endHostRead a part op res s) := by
  unfold endHostRead
  (try dsimp only)
  (repeat' (first | with_reducible assumption | (intro _; rfl) | with_reducible apply judgeOrphan_keeps | with_reducible apply push_keeps | with_reducible apply updReq_keeps | with_reducible apply arriveFetch_keeps | (with_reducible refine foldl_keeps _ (fun _ _ _ => ?_) _ _ ?_) | (with_reducible refine foldl_fst_keeps _ (fun _ _ _ => ?_) _ _ ?_) | (simp only [keeps_mk]) | (with_reducible refine Keeps.parts ?_ ?_ ?_) | (with_reducible rfl) | (with_reducible rfl) | (intro _) | split))

theorem endHostWriteRead_keeps {s0 s : State} (a row : Nat) (op : MemberOp) (res : OpResult) (h : Keeps s0 s) : Keeps s0 (endHostWriteRead a row op res s) := by
  unfold endHostWriteRead
  (try dsimp only)
  (repeat' (first | with_reducible assumption | (intro _; rfl) | with_reducible apply push_keeps | with_reducible apply updReq_keeps | with_reducible apply arriveFetch_keeps | (with_reducible refine foldl_keeps _ (fun _ _ _ => ?_) _ _ ?_) | (with_reducible refine foldl_fst_keeps _ (fun _ _ _ => ?_) _ _ ?_) | (simp only [keeps_mk]) | (with_reducible refine Keeps.parts ?_ ?_ ?_) | (with_reducible rfl) | (with_reducible rfl) | (intro _) | split))

theorem endHostFlush_keeps {s0 s : State} (a : Nat) (op : MemberOp) (res : OpResult) (h : Keeps s0 s) : Keeps s0 (endHostFlush a op res s) := by
  unfold endHostFlush
  (try dsimp only)
  (repeat' (first | with_reducible assumption | (intro _; rfl) | with_reducible apply updReq_keeps | with_reducible apply failBay_keeps | (with_reducible refine foldl_keeps _ (fun _ _ _ => ?_) _ _ ?_) | (with_reducible refine foldl_fst_keeps _ (fun _ _ _ => ?_) _ _ ?_) | (simp only [keeps_mk]) | (with_reducible refine Keeps.parts ?_ ?_ ?_) | (with_reducible rfl) | (with_reducible rfl) | (intro _) | split))

theorem ownerEnd_keeps {s0 s : State} (op : MemberOp) (res : OpResult) (h : Keeps s0 s) : Keeps s0 (ownerEnd op res s) := by
  unfold ownerEnd
  (try dsimp only)
  (repeat' (first | with_reducible assumption | (intro _; rfl) | with_reducible apply notePoison_keeps | with_reducible apply endGather_keeps | with_reducible apply stepWriteEnded_keeps | with_reducible apply endSpillColumn_keeps | with_reducible apply endSpillRecord_keeps | with_reducible apply endFillRead_keeps | with_reducible apply endSpareWrite_keeps | with_reducible apply endDataWrite_keeps | with_reducible apply endHostWrite_keeps | with_reducible apply endWriteBack_keeps | with_reducible apply endPlanArea_keeps | with_reducible apply endTableCopy_keeps | with_reducible apply endReleased_keeps | with_reducible apply endLabel_keeps | with_reducible apply endAssemblyLabel_keeps | with_reducible apply endInquire_keeps | with_reducible apply endLabelRead_keeps | with_reducible apply endPlanRead_keeps | with_reducible apply endSpillRead_keeps | with_reducible apply endColumnRead_keeps | with_reducible apply endAssemblyCopy_keeps | with_reducible apply endHostRead_keeps | with_reducible apply endHostWriteRead_keeps | with_reducible apply endHostFlush_keeps | (with_reducible refine foldl_keeps _ (fun _ _ _ => ?_) _ _ ?_) | (with_reducible refine foldl_fst_keeps _ (fun _ _ _ => ?_) _ _ ?_) | (simp only [keeps_mk]) | (with_reducible refine Keeps.parts ?_ ?_ ?_) | (with_reducible rfl) | (with_reducible rfl) | (intro _) | split))

theorem mediaAt_keeps {s0 s : State} (k : CaptureKind) (i : Slot) (first : Nat) (h : Keeps s0 s) : Keeps s0 (mediaAt k i first s) := by
  unfold mediaAt
  (try dsimp only)
  (repeat' (first | with_reducible assumption | (intro _; rfl) | with_reducible apply updBay_keeps | with_reducible apply captureAt_keeps | (with_reducible refine foldl_keeps _ (fun _ _ _ => ?_) _ _ ?_) | (with_reducible refine foldl_fst_keeps _ (fun _ _ _ => ?_) _ _ ?_) | (simp only [keeps_mk]) | (with_reducible refine Keeps.parts ?_ ?_ ?_) | (with_reducible rfl) | (with_reducible rfl) | (intro _) | split))

theorem noteMedia_keeps {s0 s : State} (x : Issued) (res : OpResult) (h : Keeps s0 s) : Keeps s0 (noteMedia x res s) := by
  cases res <;> first | exact h | exact mediaAt_keeps _ _ _ h

theorem heard_keeps {s0 s : State} (x : Issued) (res : OpResult) (h : Keeps s0 s) : Keeps s0 (x.heard res s) := by
  unfold Issued.heard
  split
  · exact freeIssue_keeps _ _ h
  · exact freeIssue_keeps _ _ (noteMedia_keeps x res h)

theorem told_keeps {s0 s : State} (x : Issued) (res : OpResult) (h : Keeps s0 s) : Keeps s0 (x.told res s) := by
  unfold Issued.told
  split
  · exact noteMedia_keeps x res h
  · exact h

theorem answered_keeps {s0 s : State} (x : Issued) (res : OpResult) (h : Keeps s0 s) : Keeps s0 (answered x res s) :=
  told_keeps x res (ownerEnd_keeps _ _ (heard_keeps x res h))

theorem flushAgain_keeps {s0 s : State} (x : Issued) (h : Keeps s0 s) : Keeps s0 (flushAgain x s) := by
  unfold flushAgain
  (try dsimp only)
  (repeat' (first | with_reducible assumption | (intro _; rfl) | with_reducible apply resend_keeps | with_reducible apply mediaAt_keeps | (with_reducible refine foldl_keeps _ (fun _ _ _ => ?_) _ _ ?_) | (with_reducible refine foldl_fst_keeps _ (fun _ _ _ => ?_) _ _ ?_) | (simp only [keeps_mk]) | (with_reducible refine Keeps.parts ?_ ?_ ?_) | (with_reducible rfl) | (with_reducible rfl) | (intro _) | split))

theorem takeAnswer_keeps {s0 s : State} (c : OwnerClass) (r : OpRef) (res : OpResult) (h : Keeps s0 s) : Keeps s0 (takeAnswer c r res s) := by
  unfold takeAnswer
  (try dsimp only)
  (repeat' (first | with_reducible assumption | (intro _; rfl) | with_reducible apply answered_keeps | (with_reducible refine foldl_keeps _ (fun _ _ _ => ?_) _ _ ?_) | (with_reducible refine foldl_fst_keeps _ (fun _ _ _ => ?_) _ _ ?_) | (simp only [keeps_mk]) | (with_reducible refine Keeps.parts ?_ ?_ ?_) | (with_reducible rfl) | (with_reducible rfl) | (intro _) | split))

theorem takeFlushAnswer_keeps {s0 s : State} (r : OpRef) (res : OpResult) (h : Keeps s0 s) : Keeps s0 (takeFlushAnswer r res s) := by
  unfold takeFlushAnswer
  (try dsimp only)
  (repeat' (first | with_reducible assumption | (intro _; rfl) | with_reducible apply answered_keeps | with_reducible apply flushAgain_keeps | (with_reducible refine foldl_keeps _ (fun _ _ _ => ?_) _ _ ?_) | (with_reducible refine foldl_fst_keeps _ (fun _ _ _ => ?_) _ _ ?_) | (simp only [keeps_mk]) | (with_reducible refine Keeps.parts ?_ ?_ ?_) | (with_reducible rfl) | (with_reducible rfl) | (intro _) | split))

theorem takeDrained_keeps {s0 s : State} (r : OpRef) (h : Keeps s0 s) : Keeps s0 (takeDrained r s) := by
  unfold takeDrained
  (try dsimp only)
  (repeat' (first | with_reducible assumption | (intro _; rfl) | with_reducible apply freeIssue_keeps | (with_reducible refine foldl_keeps _ (fun _ _ _ => ?_) _ _ ?_) | (with_reducible refine foldl_fst_keeps _ (fun _ _ _ => ?_) _ _ ?_) | (simp only [keeps_mk]) | (with_reducible refine Keeps.parts ?_ ?_ ?_) | (with_reducible rfl) | (with_reducible rfl) | (intro _) | split))

theorem timedOut_keeps {s0 s : State} (x : Issued) (h : Keeps s0 s) : Keeps s0 (timedOut x s) := by
  unfold timedOut
  (try dsimp only)
  (repeat' (first | with_reducible assumption | (intro _; rfl) | with_reducible apply updBay_keeps | with_reducible apply grants_keeps | with_reducible apply failBay_keeps | with_reducible apply ownerEnd_keeps | (with_reducible refine foldl_keeps _ (fun _ _ _ => ?_) _ _ ?_) | (with_reducible refine foldl_fst_keeps _ (fun _ _ _ => ?_) _ _ ?_) | (simp only [keeps_mk]) | (with_reducible refine Keeps.parts ?_ ?_ ?_) | (with_reducible rfl) | (with_reducible rfl) | (intro _) | split))

theorem expire_keeps {s0 s : State} (r : OpRef) (h : Keeps s0 s) : Keeps s0 (expire r s) := by
  unfold expire
  (try dsimp only)
  (repeat' (first | with_reducible assumption | (intro _; rfl) | with_reducible apply updBay_keeps | with_reducible apply captureAt_keeps | with_reducible apply freeIssue_keeps | with_reducible apply resend_keeps | with_reducible apply timedOut_keeps | (with_reducible refine foldl_keeps _ (fun _ _ _ => ?_) _ _ ?_) | (with_reducible refine foldl_fst_keeps _ (fun _ _ _ => ?_) _ _ ?_) | (simp only [keeps_mk]) | (with_reducible refine Keeps.parts ?_ ?_ ?_) | (with_reducible rfl) | (with_reducible rfl) | (intro _) | split))
end Sys2Proof.Machine
end

