-- ==== Sys2Proof/Laws/Rules.lean ====
section
/-! SUPPORT. Rules do not look at the queue, the completions, the arrival counter, the capture record or (but for the
taking of a directive) the window unit: a settled state stays settled when only those change. -/

set_option linter.unusedTactic false
set_option linter.unreachableTactic false
set_option linter.unusedSimpArgs false
namespace Sys2Proof.Machine

/-- The state with another queue, record of completions, arrival number, window unit, capture and capture counts. -/
def State.aside (s : State) (p : List Instr) (o : List Completion) (a : Nat) (w : WindowUnit) (k : Option Capture)
    (n : CaptureCounts) : State :=
  { s with pending := p, out := o, port := { s.port with nextArrival := a }, win := w,
           integ := { s.integ with capture := k, counts := n } }

variable {s : State} {p : List Instr} {o : List Completion} {a : Nat} {w : WindowUnit} {k : Option Capture}
  {n : CaptureCounts}

theorem aside_todo : (s.aside p o a w k n).todo = s.todo := rfl
theorem aside_entries : (s.aside p o a w k n).port.entries = s.port.entries := rfl
theorem aside_locks : (s.aside p o a w k n).locks = s.locks := rfl
theorem aside_mover : (s.aside p o a w k n).mover = s.mover := rfl
theorem aside_mark : (s.aside p o a w k n).mark = s.mark := rfl
theorem aside_plan : (s.aside p o a w k n).plan = s.plan := rfl
theorem aside_ctl : (s.aside p o a w k n).ctl = s.ctl := rfl
theorem aside_asm : (s.aside p o a w k n).asm = s.asm := rfl
theorem aside_bandHeld : (s.aside p o a w k n).bandHeld = s.bandHeld := rfl
theorem aside_lockWaiters : (s.aside p o a w k n).lockWaiters = s.lockWaiters := rfl
theorem aside_grantable : (s.aside p o a w k n).grantable = s.grantable := rfl
theorem aside_lockFits : (s.aside p o a w k n).lockFits = s.lockFits := rfl
theorem aside_steps : (s.aside p o a w k n).steps = s.steps := rfl
theorem aside_written : (s.aside p o a w k n).written = s.written := rfl
theorem aside_atRest : (s.aside p o a w k n).atRest = s.atRest := rfl
theorem aside_afterRest : (s.aside p o a w k n).afterRest = s.afterRest := rfl
theorem aside_activeRecord : (s.aside p o a w k n).activeRecord = s.activeRecord := rfl
theorem aside_ready : (s.aside p o a w k n).ready = s.ready := rfl
theorem aside_verify : (s.aside p o a w k n).verify = s.verify := rfl
theorem aside_mayFreeze : (s.aside p o a w k n).mayFreeze = s.mayFreeze := rfl
theorem aside_safeRow : (s.aside p o a w k n).safeRow = s.safeRow := rfl
theorem aside_growing : (s.aside p o a w k n).growing = s.growing := rfl
theorem aside_stepIn : (s.aside p o a w k n).stepIn = s.stepIn := rfl
theorem aside_presentPositions : (s.aside p o a w k n).presentPositions = s.presentPositions := rfl
theorem aside_bay : (s.aside p o a w k n).bay = s.bay := rfl
theorem aside_record : (s.aside p o a w k n).record = s.record := rfl
theorem aside_readOn : (s.aside p o a w k n).readOn = s.readOn := rfl
theorem aside_mayBeginLabel : (s.aside p o a w k n).mayBeginLabel = s.mayBeginLabel := rfl
theorem aside_mayMove : (s.aside p o a w k n).mayMove = s.mayMove := rfl
theorem aside_beginRow : (s.aside p o a w k n).beginRow = s.beginRow := rfl
theorem aside_endRow : (s.aside p o a w k n).endRow = s.endRow := rfl
theorem aside_freeSlot : (s.aside p o a w k n).freeSlot = s.freeSlot := rfl
theorem aside_firstArea : (s.aside p o a w k n).firstArea = s.firstArea := by
  funext l m
  induction m generalizing l with
  | nil => rfl
  | cons x m ih => simp only [State.firstArea, ih]; rfl
theorem aside_requestBusy : (s.aside p o a w k n).requestBusy = s.requestBusy := rfl
theorem aside_mayChoose : (s.aside p o a w k n).mayChoose = s.mayChoose := rfl
theorem aside_spillChosen : (s.aside p o a w k n).spillChosen = s.spillChosen := rfl
theorem aside_suspension : (s.aside p o a w k n).suspension = s.suspension := rfl
theorem aside_closeBegun : (s.aside p o a w k n).closeBegun = s.closeBegun := rfl
theorem aside_restNext : (s.aside p o a w k n).restNext = s.restNext := rfl
theorem aside_placeWrites (t : Step) : t.placeWrites (s.aside p o a w k n) = t.placeWrites s := rfl

theorem ruleTodo_aside (h : ruleTodo s = none) : ruleTodo (s.aside p o a w k n) = none := by
  unfold ruleTodo at h ⊢
  simp only [aside_todo, aside_entries, aside_locks, aside_mover, aside_mark, aside_plan, aside_ctl, aside_asm, aside_bandHeld, aside_lockWaiters, aside_grantable, aside_lockFits, aside_steps, aside_written, aside_atRest, aside_afterRest, aside_activeRecord, aside_ready, aside_verify, aside_mayFreeze, aside_safeRow, aside_growing, aside_stepIn, aside_presentPositions, aside_bay, aside_record, aside_readOn, aside_mayBeginLabel, aside_mayMove, aside_beginRow, aside_endRow, aside_freeSlot, aside_firstArea, aside_requestBusy, aside_mayChoose, aside_spillChosen, aside_suspension, aside_closeBegun, aside_restNext, aside_placeWrites]
  first
  | (simpa using h)
  | ((repeat' split at h) <;> simp_all; done)

theorem ruleBand_aside (h : ruleBand s = none) : ruleBand (s.aside p o a w k n) = none := by
  unfold ruleBand at h ⊢
  simp only [aside_todo, aside_entries, aside_locks, aside_mover, aside_mark, aside_plan, aside_ctl, aside_asm, aside_bandHeld, aside_lockWaiters, aside_grantable, aside_lockFits, aside_steps, aside_written, aside_atRest, aside_afterRest, aside_activeRecord, aside_ready, aside_verify, aside_mayFreeze, aside_safeRow, aside_growing, aside_stepIn, aside_presentPositions, aside_bay, aside_record, aside_readOn, aside_mayBeginLabel, aside_mayMove, aside_beginRow, aside_endRow, aside_freeSlot, aside_firstArea, aside_requestBusy, aside_mayChoose, aside_spillChosen, aside_suspension, aside_closeBegun, aside_restNext, aside_placeWrites]
  first
  | (simpa using h)
  | ((repeat' split at h) <;> simp_all; done)

theorem ruleGrant_aside (h : ruleGrant s = none) : ruleGrant (s.aside p o a w k n) = none := by
  unfold ruleGrant at h ⊢
  simp only [aside_todo, aside_entries, aside_locks, aside_mover, aside_mark, aside_plan, aside_ctl, aside_asm, aside_bandHeld, aside_lockWaiters, aside_grantable, aside_lockFits, aside_steps, aside_written, aside_atRest, aside_afterRest, aside_activeRecord, aside_ready, aside_verify, aside_mayFreeze, aside_safeRow, aside_growing, aside_stepIn, aside_presentPositions, aside_bay, aside_record, aside_readOn, aside_mayBeginLabel, aside_mayMove, aside_beginRow, aside_endRow, aside_freeSlot, aside_firstArea, aside_requestBusy, aside_mayChoose, aside_spillChosen, aside_suspension, aside_closeBegun, aside_restNext, aside_placeWrites]
  first
  | (simpa using h)
  | ((repeat' split at h) <;> simp_all; done)

theorem ruleQueued_aside (h : ruleQueued s = none) : ruleQueued (s.aside p o a w k n) = none := by
  unfold ruleQueued at h ⊢
  simp only [aside_todo, aside_entries, aside_locks, aside_mover, aside_mark, aside_plan, aside_ctl, aside_asm, aside_bandHeld, aside_lockWaiters, aside_grantable, aside_lockFits, aside_steps, aside_written, aside_atRest, aside_afterRest, aside_activeRecord, aside_ready, aside_verify, aside_mayFreeze, aside_safeRow, aside_growing, aside_stepIn, aside_presentPositions, aside_bay, aside_record, aside_readOn, aside_mayBeginLabel, aside_mayMove, aside_beginRow, aside_endRow, aside_freeSlot, aside_firstArea, aside_requestBusy, aside_mayChoose, aside_spillChosen, aside_suspension, aside_closeBegun, aside_restNext, aside_placeWrites]
  first
  | (simpa using h)
  | ((repeat' split at h) <;> simp_all; done)

theorem ruleLabelDone_aside (h : ruleLabelDone s = none) : ruleLabelDone (s.aside p o a w k n) = none := by
  unfold ruleLabelDone at h ⊢
  simp only [aside_todo, aside_entries, aside_locks, aside_mover, aside_mark, aside_plan, aside_ctl, aside_asm, aside_bandHeld, aside_lockWaiters, aside_grantable, aside_lockFits, aside_steps, aside_written, aside_atRest, aside_afterRest, aside_activeRecord, aside_ready, aside_verify, aside_mayFreeze, aside_safeRow, aside_growing, aside_stepIn, aside_presentPositions, aside_bay, aside_record, aside_readOn, aside_mayBeginLabel, aside_mayMove, aside_beginRow, aside_endRow, aside_freeSlot, aside_firstArea, aside_requestBusy, aside_mayChoose, aside_spillChosen, aside_suspension, aside_closeBegun, aside_restNext, aside_placeWrites]
  first
  | (simpa using h)
  | ((repeat' split at h) <;> simp_all; done)

theorem rulePlaced_aside (h : rulePlaced s = none) : rulePlaced (s.aside p o a w k n) = none := by
  unfold rulePlaced at h ⊢
  simp only [aside_todo, aside_entries, aside_locks, aside_mover, aside_mark, aside_plan, aside_ctl, aside_asm, aside_bandHeld, aside_lockWaiters, aside_grantable, aside_lockFits, aside_steps, aside_written, aside_atRest, aside_afterRest, aside_activeRecord, aside_ready, aside_verify, aside_mayFreeze, aside_safeRow, aside_growing, aside_stepIn, aside_presentPositions, aside_bay, aside_record, aside_readOn, aside_mayBeginLabel, aside_mayMove, aside_beginRow, aside_endRow, aside_freeSlot, aside_firstArea, aside_requestBusy, aside_mayChoose, aside_spillChosen, aside_suspension, aside_closeBegun, aside_restNext, aside_placeWrites]
  first
  | (simpa using h)
  | ((repeat' split at h) <;> simp_all; done)

theorem ruleRecordDone_aside (h : ruleRecordDone s = none) : ruleRecordDone (s.aside p o a w k n) = none := by
  unfold ruleRecordDone at h ⊢
  simp only [aside_todo, aside_entries, aside_locks, aside_mover, aside_mark, aside_plan, aside_ctl, aside_asm, aside_bandHeld, aside_lockWaiters, aside_grantable, aside_lockFits, aside_steps, aside_written, aside_atRest, aside_afterRest, aside_activeRecord, aside_ready, aside_verify, aside_mayFreeze, aside_safeRow, aside_growing, aside_stepIn, aside_presentPositions, aside_bay, aside_record, aside_readOn, aside_mayBeginLabel, aside_mayMove, aside_beginRow, aside_endRow, aside_freeSlot, aside_firstArea, aside_requestBusy, aside_mayChoose, aside_spillChosen, aside_suspension, aside_closeBegun, aside_restNext, aside_placeWrites]
  first
  | (simpa using h)
  | ((repeat' split at h) <;> simp_all; done)

theorem ruleInstalled_aside (h : ruleInstalled s = none) : ruleInstalled (s.aside p o a w k n) = none := by
  unfold ruleInstalled at h ⊢
  simp only [aside_todo, aside_entries, aside_locks, aside_mover, aside_mark, aside_plan, aside_ctl, aside_asm, aside_bandHeld, aside_lockWaiters, aside_grantable, aside_lockFits, aside_steps, aside_written, aside_atRest, aside_afterRest, aside_activeRecord, aside_ready, aside_verify, aside_mayFreeze, aside_safeRow, aside_growing, aside_stepIn, aside_presentPositions, aside_bay, aside_record, aside_readOn, aside_mayBeginLabel, aside_mayMove, aside_beginRow, aside_endRow, aside_freeSlot, aside_firstArea, aside_requestBusy, aside_mayChoose, aside_spillChosen, aside_suspension, aside_closeBegun, aside_restNext, aside_placeWrites]
  first
  | (simpa using h)
  | ((repeat' split at h) <;> simp_all; done)

theorem ruleRest_aside (h : ruleRest s = none) : ruleRest (s.aside p o a w k n) = none := by
  unfold ruleRest at h ⊢
  split at h
  · refine (if_pos ‹_›).trans ?_
    dsimp only at h
    split at h
    · cases h
    · rename_i h1
      refine (if_neg h1).trans ?_
      split at h
      · cases h
      · rename_i h2
        refine (if_neg h2).trans ?_
        split at h
        · exact if_pos ‹_›
        · cases h
  · exact if_neg ‹_›

theorem ruleLostPaused_aside (h : ruleLostPaused s = none) : ruleLostPaused (s.aside p o a w k n) = none := by
  unfold ruleLostPaused at h ⊢
  simp only [aside_todo, aside_entries, aside_locks, aside_mover, aside_mark, aside_plan, aside_ctl, aside_asm, aside_bandHeld, aside_lockWaiters, aside_grantable, aside_lockFits, aside_steps, aside_written, aside_atRest, aside_afterRest, aside_activeRecord, aside_ready, aside_verify, aside_mayFreeze, aside_safeRow, aside_growing, aside_stepIn, aside_presentPositions, aside_bay, aside_record, aside_readOn, aside_mayBeginLabel, aside_mayMove, aside_beginRow, aside_endRow, aside_freeSlot, aside_firstArea, aside_requestBusy, aside_mayChoose, aside_spillChosen, aside_suspension, aside_closeBegun, aside_restNext, aside_placeWrites]
  first
  | (simpa using h)
  | ((repeat' split at h) <;> simp_all; done)

theorem ruleDrop_aside (h : ruleDrop s = none) : ruleDrop (s.aside p o a w k n) = none := by
  unfold ruleDrop at h ⊢
  simp only [aside_todo, aside_entries, aside_locks, aside_mover, aside_mark, aside_plan, aside_ctl, aside_asm, aside_bandHeld, aside_lockWaiters, aside_grantable, aside_lockFits, aside_steps, aside_written, aside_atRest, aside_afterRest, aside_activeRecord, aside_ready, aside_verify, aside_mayFreeze, aside_safeRow, aside_growing, aside_stepIn, aside_presentPositions, aside_bay, aside_record, aside_readOn, aside_mayBeginLabel, aside_mayMove, aside_beginRow, aside_endRow, aside_freeSlot, aside_firstArea, aside_requestBusy, aside_mayChoose, aside_spillChosen, aside_suspension, aside_closeBegun, aside_restNext, aside_placeWrites]
  first
  | (simpa using h)
  | ((repeat' split at h) <;> simp_all; done)

theorem ruleClosing_aside (h : ruleClosing s = none) : ruleClosing (s.aside p o a w k n) = none := by
  unfold ruleClosing at h ⊢
  simp only [aside_todo, aside_entries, aside_locks, aside_mover, aside_mark, aside_plan, aside_ctl, aside_asm, aside_bandHeld, aside_lockWaiters, aside_grantable, aside_lockFits, aside_steps, aside_written, aside_atRest, aside_afterRest, aside_activeRecord, aside_ready, aside_verify, aside_mayFreeze, aside_safeRow, aside_growing, aside_stepIn, aside_presentPositions, aside_bay, aside_record, aside_readOn, aside_mayBeginLabel, aside_mayMove, aside_beginRow, aside_endRow, aside_freeSlot, aside_firstArea, aside_requestBusy, aside_mayChoose, aside_spillChosen, aside_suspension, aside_closeBegun, aside_restNext, aside_placeWrites]
  first
  | (simpa using h)
  | ((repeat' split at h) <;> simp_all; done)

theorem rulePlanEnd_aside (h : rulePlanEnd s = none) : rulePlanEnd (s.aside p o a w k n) = none := by
  unfold rulePlanEnd at h ⊢
  simp only [aside_todo, aside_entries, aside_locks, aside_mover, aside_mark, aside_plan, aside_ctl, aside_asm, aside_bandHeld, aside_lockWaiters, aside_grantable, aside_lockFits, aside_steps, aside_written, aside_atRest, aside_afterRest, aside_activeRecord, aside_ready, aside_verify, aside_mayFreeze, aside_safeRow, aside_growing, aside_stepIn, aside_presentPositions, aside_bay, aside_record, aside_readOn, aside_mayBeginLabel, aside_mayMove, aside_beginRow, aside_endRow, aside_freeSlot, aside_firstArea, aside_requestBusy, aside_mayChoose, aside_spillChosen, aside_suspension, aside_closeBegun, aside_restNext, aside_placeWrites]
  first
  | (simpa using h)
  | ((repeat' split at h) <;> simp_all; done)

theorem ruleWaiting_aside (h : ruleWaiting s = none) : ruleWaiting (s.aside p o a w k n) = none := by
  unfold ruleWaiting at h ⊢
  simp only [aside_todo, aside_entries, aside_locks, aside_mover, aside_mark, aside_plan, aside_ctl, aside_asm, aside_bandHeld, aside_lockWaiters, aside_grantable, aside_lockFits, aside_steps, aside_written, aside_atRest, aside_afterRest, aside_activeRecord, aside_ready, aside_verify, aside_mayFreeze, aside_safeRow, aside_growing, aside_stepIn, aside_presentPositions, aside_bay, aside_record, aside_readOn, aside_mayBeginLabel, aside_mayMove, aside_beginRow, aside_endRow, aside_freeSlot, aside_firstArea, aside_requestBusy, aside_mayChoose, aside_spillChosen, aside_suspension, aside_closeBegun, aside_restNext, aside_placeWrites]
  first
  | (simpa using h)
  | ((repeat' split at h) <;> simp_all; done)

theorem fetchOnce_aside (h : fetchOnce s = none) : fetchOnce (s.aside p o a w k n) = none := by
  unfold fetchOnce at h ⊢
  dsimp only at h
  split at h
  · cases h
  · split at h
    · cases h
    · rename_i h1 h2
      refine (if_neg h1).trans ((if_neg h2).trans ?_)
      split at h
      · exact if_pos ‹_›
      · refine (if_neg ‹_›).trans ?_
        split at h <;> cases h

theorem ruleFetch_aside (h : ruleFetch s = none) : ruleFetch (s.aside p o a w k n) = none := by
  unfold ruleFetch at h ⊢
  split at h
  · exact (if_pos ‹_›).trans (fetchOnce_aside h)
  · exact if_neg ‹_›

theorem ruleRecopy_aside (h : ruleRecopy s = none) : ruleRecopy (s.aside p o a w k n) = none := by
  unfold ruleRecopy at h ⊢
  simp only [aside_todo, aside_entries, aside_locks, aside_mover, aside_mark, aside_plan, aside_ctl, aside_asm, aside_bandHeld, aside_lockWaiters, aside_grantable, aside_lockFits, aside_steps, aside_written, aside_atRest, aside_afterRest, aside_activeRecord, aside_ready, aside_verify, aside_mayFreeze, aside_safeRow, aside_growing, aside_stepIn, aside_presentPositions, aside_bay, aside_record, aside_readOn, aside_mayBeginLabel, aside_mayMove, aside_beginRow, aside_endRow, aside_freeSlot, aside_firstArea, aside_requestBusy, aside_mayChoose, aside_spillChosen, aside_suspension, aside_closeBegun, aside_restNext, aside_placeWrites]
  first
  | (simpa using h)
  | ((repeat' split at h) <;> simp_all; done)

theorem ruleFreeze_aside (h : ruleFreeze s = none) : ruleFreeze (s.aside p o a w k n) = none := by
  unfold ruleFreeze at h ⊢
  simp only [aside_todo, aside_entries, aside_locks, aside_mover, aside_mark, aside_plan, aside_ctl, aside_asm, aside_bandHeld, aside_lockWaiters, aside_grantable, aside_lockFits, aside_steps, aside_written, aside_atRest, aside_afterRest, aside_activeRecord, aside_ready, aside_verify, aside_mayFreeze, aside_safeRow, aside_growing, aside_stepIn, aside_presentPositions, aside_bay, aside_record, aside_readOn, aside_mayBeginLabel, aside_mayMove, aside_beginRow, aside_endRow, aside_freeSlot, aside_firstArea, aside_requestBusy, aside_mayChoose, aside_spillChosen, aside_suspension, aside_closeBegun, aside_restNext, aside_placeWrites]
  first
  | (simpa using h)
  | ((repeat' split at h) <;> simp_all; done)

theorem ruleDecide_aside (h : ruleDecide s = none) : ruleDecide (s.aside p o a w k n) = none := by
  unfold ruleDecide at h ⊢
  simp only [aside_todo, aside_entries, aside_locks, aside_mover, aside_mark, aside_plan, aside_ctl, aside_asm, aside_bandHeld, aside_lockWaiters, aside_grantable, aside_lockFits, aside_steps, aside_written, aside_atRest, aside_afterRest, aside_activeRecord, aside_ready, aside_verify, aside_mayFreeze, aside_safeRow, aside_growing, aside_stepIn, aside_presentPositions, aside_bay, aside_record, aside_readOn, aside_mayBeginLabel, aside_mayMove, aside_beginRow, aside_endRow, aside_freeSlot, aside_firstArea, aside_requestBusy, aside_mayChoose, aside_spillChosen, aside_suspension, aside_closeBegun, aside_restNext, aside_placeWrites]
  first
  | (simpa using h)
  | ((repeat' split at h) <;> simp_all; done)

theorem ruleSpill_aside (h : ruleSpill s = none) : ruleSpill (s.aside p o a w k n) = none := by
  unfold ruleSpill at h ⊢
  simp only [aside_steps, aside_written, aside_mark]
  generalize s.steps.find? (fun p => p.2.stage == .spill) = x at h ⊢
  generalize s.written = y at h ⊢
  rcases x with _ | ⟨g, t⟩
  · rfl
  · rcases y with _ | l
    · rfl
    · dsimp only at h ⊢
      (repeat' split at h) <;> simp_all

theorem ruleSpillRecord_aside (h : ruleSpillRecord s = none) : ruleSpillRecord (s.aside p o a w k n) = none := by
  unfold ruleSpillRecord at h ⊢
  simp only [aside_todo, aside_entries, aside_locks, aside_mover, aside_mark, aside_plan, aside_ctl, aside_asm, aside_bandHeld, aside_lockWaiters, aside_grantable, aside_lockFits, aside_steps, aside_written, aside_atRest, aside_afterRest, aside_activeRecord, aside_ready, aside_verify, aside_mayFreeze, aside_safeRow, aside_growing, aside_stepIn, aside_presentPositions, aside_bay, aside_record, aside_readOn, aside_mayBeginLabel, aside_mayMove, aside_beginRow, aside_endRow, aside_freeSlot, aside_firstArea, aside_requestBusy, aside_mayChoose, aside_spillChosen, aside_suspension, aside_closeBegun, aside_restNext, aside_placeWrites]
  first
  | (simpa using h)
  | ((repeat' split at h) <;> simp_all; done)

theorem rulePlace_aside (h : rulePlace s = none) : rulePlace (s.aside p o a w k n) = none := by
  unfold rulePlace at h ⊢
  simp only [aside_todo, aside_entries, aside_locks, aside_mover, aside_mark, aside_plan, aside_ctl, aside_asm, aside_bandHeld, aside_lockWaiters, aside_grantable, aside_lockFits, aside_steps, aside_written, aside_atRest, aside_afterRest, aside_activeRecord, aside_ready, aside_verify, aside_mayFreeze, aside_safeRow, aside_growing, aside_stepIn, aside_presentPositions, aside_bay, aside_record, aside_readOn, aside_mayBeginLabel, aside_mayMove, aside_beginRow, aside_endRow, aside_freeSlot, aside_firstArea, aside_requestBusy, aside_mayChoose, aside_spillChosen, aside_suspension, aside_closeBegun, aside_restNext, aside_placeWrites]
  first
  | (simpa using h)
  | ((repeat' split at h) <;> simp_all; done)

theorem ruleLabel_aside (h : ruleLabel s = none) : ruleLabel (s.aside p o a w k n) = none := by
  unfold ruleLabel at h ⊢
  simp only [aside_todo, aside_entries, aside_locks, aside_mover, aside_mark, aside_plan, aside_ctl, aside_asm, aside_bandHeld, aside_lockWaiters, aside_grantable, aside_lockFits, aside_steps, aside_written, aside_atRest, aside_afterRest, aside_activeRecord, aside_ready, aside_verify, aside_mayFreeze, aside_safeRow, aside_growing, aside_stepIn, aside_presentPositions, aside_bay, aside_record, aside_readOn, aside_mayBeginLabel, aside_mayMove, aside_beginRow, aside_endRow, aside_freeSlot, aside_firstArea, aside_requestBusy, aside_mayChoose, aside_spillChosen, aside_suspension, aside_closeBegun, aside_restNext, aside_placeWrites]
  first
  | (simpa using h)
  | ((repeat' split at h) <;> simp_all; done)

theorem ruleFreeSlot_aside (h : ruleFreeSlot s = none) : ruleFreeSlot (s.aside p o a w k n) = none := by
  unfold ruleFreeSlot at h ⊢
  simp only [aside_todo, aside_entries, aside_locks, aside_mover, aside_mark, aside_plan, aside_ctl, aside_asm, aside_bandHeld, aside_lockWaiters, aside_grantable, aside_lockFits, aside_steps, aside_written, aside_atRest, aside_afterRest, aside_activeRecord, aside_ready, aside_verify, aside_mayFreeze, aside_safeRow, aside_growing, aside_stepIn, aside_presentPositions, aside_bay, aside_record, aside_readOn, aside_mayBeginLabel, aside_mayMove, aside_beginRow, aside_endRow, aside_freeSlot, aside_firstArea, aside_requestBusy, aside_mayChoose, aside_spillChosen, aside_suspension, aside_closeBegun, aside_restNext, aside_placeWrites]
  first
  | (simpa using h)
  | ((repeat' split at h) <;> simp_all; done)

theorem ruleBegin_aside (h : ruleBegin s = none) : ruleBegin (s.aside p o a w k n) = none := by
  unfold ruleBegin at h ⊢
  split at h
  · refine (if_pos ‹_›).trans ?_
    simp only [aside_freeSlot, aside_written]
    generalize s.freeSlot = x at h ⊢
    generalize s.written = y at h ⊢
    rcases x with _ | g <;> rcases y with _ | l <;> first | rfl | (cases h)
  · exact if_neg ‹_›

theorem ruleRecord_aside (h : ruleRecord s = none) : ruleRecord (s.aside p o a w k n) = none := by
  unfold ruleRecord at h ⊢
  simp only [aside_todo, aside_entries, aside_locks, aside_mover, aside_mark, aside_plan, aside_ctl, aside_asm, aside_bandHeld, aside_lockWaiters, aside_grantable, aside_lockFits, aside_steps, aside_written, aside_atRest, aside_afterRest, aside_activeRecord, aside_ready, aside_verify, aside_mayFreeze, aside_safeRow, aside_growing, aside_stepIn, aside_presentPositions, aside_bay, aside_record, aside_readOn, aside_mayBeginLabel, aside_mayMove, aside_beginRow, aside_endRow, aside_freeSlot, aside_firstArea, aside_requestBusy, aside_mayChoose, aside_spillChosen, aside_suspension, aside_closeBegun, aside_restNext, aside_placeWrites]
  first
  | (simpa using h)
  | ((repeat' split at h) <;> simp_all; done)

theorem ruleArea_aside (h : ruleArea s = none) : ruleArea (s.aside p o a w k n) = none := by
  unfold ruleArea at h ⊢
  simp only [aside_todo, aside_entries, aside_locks, aside_mover, aside_mark, aside_plan, aside_ctl, aside_asm, aside_bandHeld, aside_lockWaiters, aside_grantable, aside_lockFits, aside_steps, aside_written, aside_atRest, aside_afterRest, aside_activeRecord, aside_ready, aside_verify, aside_mayFreeze, aside_safeRow, aside_growing, aside_stepIn, aside_presentPositions, aside_bay, aside_record, aside_readOn, aside_mayBeginLabel, aside_mayMove, aside_beginRow, aside_endRow, aside_freeSlot, aside_firstArea, aside_requestBusy, aside_mayChoose, aside_spillChosen, aside_suspension, aside_closeBegun, aside_restNext, aside_placeWrites]
  first
  | (simpa using h)
  | ((repeat' split at h) <;> simp_all; done)

theorem ruleFlush_aside (h : ruleFlush s = none) : ruleFlush (s.aside p o a w k n) = none := by
  unfold ruleFlush at h ⊢
  simp only [aside_todo, aside_entries, aside_locks, aside_mover, aside_mark, aside_plan, aside_ctl, aside_asm, aside_bandHeld, aside_lockWaiters, aside_grantable, aside_lockFits, aside_steps, aside_written, aside_atRest, aside_afterRest, aside_activeRecord, aside_ready, aside_verify, aside_mayFreeze, aside_safeRow, aside_growing, aside_stepIn, aside_presentPositions, aside_bay, aside_record, aside_readOn, aside_mayBeginLabel, aside_mayMove, aside_beginRow, aside_endRow, aside_freeSlot, aside_firstArea, aside_requestBusy, aside_mayChoose, aside_spillChosen, aside_suspension, aside_closeBegun, aside_restNext, aside_placeWrites]
  first
  | (simpa using h)
  | ((repeat' split at h) <;> simp_all; done)

theorem ruleDrained_aside (h : ruleDrained s = none) : ruleDrained (s.aside p o a w k n) = none := by
  unfold ruleDrained at h ⊢
  simp only [aside_todo, aside_entries, aside_locks, aside_mover, aside_mark, aside_plan, aside_ctl, aside_asm, aside_bandHeld, aside_lockWaiters, aside_grantable, aside_lockFits, aside_steps, aside_written, aside_atRest, aside_afterRest, aside_activeRecord, aside_ready, aside_verify, aside_mayFreeze, aside_safeRow, aside_growing, aside_stepIn, aside_presentPositions, aside_bay, aside_record, aside_readOn, aside_mayBeginLabel, aside_mayMove, aside_beginRow, aside_endRow, aside_freeSlot, aside_firstArea, aside_requestBusy, aside_mayChoose, aside_spillChosen, aside_suspension, aside_closeBegun, aside_restNext, aside_placeWrites]
  first
  | (simpa using h)
  | ((repeat' split at h) <;> simp_all; done)

theorem ruleScan_aside (h : ruleScan s = none) : ruleScan (s.aside p o a w k n) = none := by
  unfold ruleScan at h ⊢
  simp only [aside_todo, aside_entries, aside_locks, aside_mover, aside_mark, aside_plan, aside_ctl, aside_asm, aside_bandHeld, aside_lockWaiters, aside_grantable, aside_lockFits, aside_steps, aside_written, aside_atRest, aside_afterRest, aside_activeRecord, aside_ready, aside_verify, aside_mayFreeze, aside_safeRow, aside_growing, aside_stepIn, aside_presentPositions, aside_bay, aside_record, aside_readOn, aside_mayBeginLabel, aside_mayMove, aside_beginRow, aside_endRow, aside_freeSlot, aside_firstArea, aside_requestBusy, aside_mayChoose, aside_spillChosen, aside_suspension, aside_closeBegun, aside_restNext, aside_placeWrites]
  first
  | (simpa using h)
  | ((repeat' split at h) <;> simp_all; done)

theorem ruleChoice_aside (h : ruleChoice s = none) : ruleChoice (s.aside p o a w k n) = none := by
  unfold ruleChoice at h ⊢
  simp only [aside_todo, aside_entries, aside_locks, aside_mover, aside_mark, aside_plan, aside_ctl, aside_asm, aside_bandHeld, aside_lockWaiters, aside_grantable, aside_lockFits, aside_steps, aside_written, aside_atRest, aside_afterRest, aside_activeRecord, aside_ready, aside_verify, aside_mayFreeze, aside_safeRow, aside_growing, aside_stepIn, aside_presentPositions, aside_bay, aside_record, aside_readOn, aside_mayBeginLabel, aside_mayMove, aside_beginRow, aside_endRow, aside_freeSlot, aside_firstArea, aside_requestBusy, aside_mayChoose, aside_spillChosen, aside_suspension, aside_closeBegun, aside_restNext, aside_placeWrites]
  first
  | (simpa using h)
  | ((repeat' split at h) <;> simp_all; done)

theorem ruleLoading_aside (h : ruleLoading s = none) : ruleLoading (s.aside p o a w k n) = none := by
  unfold ruleLoading at h ⊢
  simp only [aside_todo, aside_entries, aside_locks, aside_mover, aside_mark, aside_plan, aside_ctl, aside_asm, aside_bandHeld, aside_lockWaiters, aside_grantable, aside_lockFits, aside_steps, aside_written, aside_atRest, aside_afterRest, aside_activeRecord, aside_ready, aside_verify, aside_mayFreeze, aside_safeRow, aside_growing, aside_stepIn, aside_presentPositions, aside_bay, aside_record, aside_readOn, aside_mayBeginLabel, aside_mayMove, aside_beginRow, aside_endRow, aside_freeSlot, aside_firstArea, aside_requestBusy, aside_mayChoose, aside_spillChosen, aside_suspension, aside_closeBegun, aside_restNext, aside_placeWrites]
  first
  | (simpa using h)
  | ((repeat' split at h) <;> simp_all; done)

theorem ruleRecords_aside (h : ruleRecords s = none) : ruleRecords (s.aside p o a w k n) = none := by
  unfold ruleRecords at h ⊢
  simp only [aside_todo, aside_entries, aside_locks, aside_mover, aside_mark, aside_plan, aside_ctl, aside_asm, aside_bandHeld, aside_lockWaiters, aside_grantable, aside_lockFits, aside_steps, aside_written, aside_atRest, aside_afterRest, aside_activeRecord, aside_ready, aside_verify, aside_mayFreeze, aside_safeRow, aside_growing, aside_stepIn, aside_presentPositions, aside_bay, aside_record, aside_readOn, aside_mayBeginLabel, aside_mayMove, aside_beginRow, aside_endRow, aside_freeSlot, aside_firstArea, aside_requestBusy, aside_mayChoose, aside_spillChosen, aside_suspension, aside_closeBegun, aside_restNext, aside_placeWrites]
  first
  | (simpa using h)
  | ((repeat' split at h) <;> simp_all; done)

theorem ruleColumns_aside (h : ruleColumns s = none) : ruleColumns (s.aside p o a w k n) = none := by
  unfold ruleColumns at h ⊢
  simp only [aside_todo, aside_entries, aside_locks, aside_mover, aside_mark, aside_plan, aside_ctl, aside_asm, aside_bandHeld, aside_lockWaiters, aside_grantable, aside_lockFits, aside_steps, aside_written, aside_atRest, aside_afterRest, aside_activeRecord, aside_ready, aside_verify, aside_mayFreeze, aside_safeRow, aside_growing, aside_stepIn, aside_presentPositions, aside_bay, aside_record, aside_readOn, aside_mayBeginLabel, aside_mayMove, aside_beginRow, aside_endRow, aside_freeSlot, aside_firstArea, aside_requestBusy, aside_mayChoose, aside_spillChosen, aside_suspension, aside_closeBegun, aside_restNext, aside_placeWrites]
  first
  | (simpa using h)
  | ((repeat' split at h) <;> simp_all; done)

theorem ruleRestored_aside (h : ruleRestored s = none) : ruleRestored (s.aside p o a w k n) = none := by
  unfold ruleRestored at h ⊢
  simp only [aside_todo, aside_entries, aside_locks, aside_mover, aside_mark, aside_plan, aside_ctl, aside_asm, aside_bandHeld, aside_lockWaiters, aside_grantable, aside_lockFits, aside_steps, aside_written, aside_atRest, aside_afterRest, aside_activeRecord, aside_ready, aside_verify, aside_mayFreeze, aside_safeRow, aside_growing, aside_stepIn, aside_presentPositions, aside_bay, aside_record, aside_readOn, aside_mayBeginLabel, aside_mayMove, aside_beginRow, aside_endRow, aside_freeSlot, aside_firstArea, aside_requestBusy, aside_mayChoose, aside_spillChosen, aside_suspension, aside_closeBegun, aside_restNext, aside_placeWrites]
  first
  | (simpa using h)
  | ((repeat' split at h) <;> simp_all; done)

theorem ruleAssemblyEnd_aside (h : ruleAssemblyEnd s = none) : ruleAssemblyEnd (s.aside p o a w k n) = none := by
  unfold ruleAssemblyEnd at h ⊢
  simp only [aside_todo, aside_entries, aside_locks, aside_mover, aside_mark, aside_plan, aside_ctl, aside_asm, aside_bandHeld, aside_lockWaiters, aside_grantable, aside_lockFits, aside_steps, aside_written, aside_atRest, aside_afterRest, aside_activeRecord, aside_ready, aside_verify, aside_mayFreeze, aside_safeRow, aside_growing, aside_stepIn, aside_presentPositions, aside_bay, aside_record, aside_readOn, aside_mayBeginLabel, aside_mayMove, aside_beginRow, aside_endRow, aside_freeSlot, aside_firstArea, aside_requestBusy, aside_mayChoose, aside_spillChosen, aside_suspension, aside_closeBegun, aside_restNext, aside_placeWrites]
  first
  | (simpa using h)
  | ((repeat' split at h) <;> simp_all; done)

theorem ruleSuspend_aside (h : ruleSuspend s = none) : ruleSuspend (s.aside p o a w k n) = none := by
  unfold ruleSuspend at h ⊢
  simp only [aside_todo, aside_entries, aside_locks, aside_mover, aside_mark, aside_plan, aside_ctl, aside_asm, aside_bandHeld, aside_lockWaiters, aside_grantable, aside_lockFits, aside_steps, aside_written, aside_atRest, aside_afterRest, aside_activeRecord, aside_ready, aside_verify, aside_mayFreeze, aside_safeRow, aside_growing, aside_stepIn, aside_presentPositions, aside_bay, aside_record, aside_readOn, aside_mayBeginLabel, aside_mayMove, aside_beginRow, aside_endRow, aside_freeSlot, aside_firstArea, aside_requestBusy, aside_mayChoose, aside_spillChosen, aside_suspension, aside_closeBegun, aside_restNext, aside_placeWrites]
  first
  | (simpa using h)
  | ((repeat' split at h) <;> simp_all; done)

theorem firstRule_eq_none {rs : List (State → Option State)} {s : State} :
    firstRule rs s = none ↔ ∀ r ∈ rs, r s = none := by
  induction rs with
  | nil => simp [firstRule]
  | cons r rs ih =>
    simp only [firstRule, List.mem_cons, forall_eq_or_imp]
    split
    · simp_all
    · simp_all

theorem ruleTake_none {s : State} (h : s.win.current = none ∨ s.win.taken = true) : ruleTake s = none := by
  unfold ruleTake
  rcases h with h | h <;> simp only [h]
  split <;> rfl

theorem ruleTake_eq_none {s : State} : ruleTake s = none ↔ s.win.current = none ∨ s.win.taken = true := by
  unfold ruleTake
  split
  · simp_all
  · simp_all

/-- A settled state stays settled aside, when no directive waits to be taken. -/
theorem settled_aside {s : State} {p : List Instr} {o : List Completion} {a : Nat} {w : WindowUnit} {k : Option Capture}
    {n : CaptureCounts} (h : firstRule rules s = none) (hw : w.current = none ∨ w.taken = true) :
    firstRule rules (s.aside p o a w k n) = none := by
  rw [firstRule_eq_none] at h ⊢
  simp only [rules, List.mem_cons, List.not_mem_nil, or_false, forall_eq_or_imp, forall_eq] at h ⊢
  obtain ⟨h0, h1, h2, h3, h4, h5, h6, h7, h8, h9, h10, h11, h12, h13, h14, h15, h16, h17, h18, h19, h20, h21, h22, h23, h24, h25, h26, h27, h28, h29, h30, h31, h32, h33, h34, h35, h36⟩ := h
  exact ⟨ruleTodo_aside h0, ruleBand_aside h1, ruleTake_none hw, ruleGrant_aside h3, ruleQueued_aside h4, ruleLabelDone_aside h5, rulePlaced_aside h6, ruleRecordDone_aside h7, ruleInstalled_aside h8, ruleRest_aside h9, ruleLostPaused_aside h10, ruleDrop_aside h11, ruleClosing_aside h12, rulePlanEnd_aside h13, ruleWaiting_aside h14, ruleFetch_aside h15, ruleRecopy_aside h16, ruleFreeze_aside h17, ruleDecide_aside h18, ruleSpill_aside h19, ruleSpillRecord_aside h20, rulePlace_aside h21, ruleLabel_aside h22, ruleFreeSlot_aside h23, ruleBegin_aside h24, ruleRecord_aside h25, ruleArea_aside h26, ruleFlush_aside h27, ruleDrained_aside h28, ruleScan_aside h29, ruleChoice_aside h30, ruleLoading_aside h31, ruleRecords_aside h32, ruleColumns_aside h33, ruleRestored_aside h34, ruleAssemblyEnd_aside h35, ruleSuspend_aside h36⟩

/-- Settling leaves a settled state as it is. -/
theorem settle_of_settled {s : State} (h : firstRule rules s = none) : settle s = s := by
  show settleFor (999999 + 1) s = s
  simp only [settleFor, h]

/-- Settling applies the first rule that applies. -/
theorem settleFor_step {m : Nat} {s t : State} (h : firstRule rules s = some t) : settleFor (m + 1) s = settleFor m t := by
  simp only [settleFor, h]

end Sys2Proof.Machine
end

