-- ==== Sys2Proof/Laws/Flows.lean ====
section
/-! SUPPORT. The taking of directives, and what settling as a whole can do: the relation Flows. -/

namespace Sys2Proof.Machine

/-- What settling leaves: the queue, the completions sent so far as a prefix, counters that only rise, request tags that
only go, the size of the row lock table, the overwrite count, and legal tuning values. -/
structure Flows (s t : State) : Prop where
  pending : t.pending = s.pending
  out     : s.out <+: t.out
  ops     : s.shelf.nextOp ≤ t.shelf.nextOp
  arrival : s.port.nextArrival ≤ t.port.nextArrival
  tags    : (t.port.entries.map Entry.key).Sublist (s.port.entries.map Entry.key)
  locks   : t.locks.entries.length ≤ max Config.maxLocks s.locks.entries.length
  lost    : t.win.overwrites = s.win.overwrites
  tuning  : s.ctl.tuning.Legal → t.ctl.tuning.Legal

theorem Holds.flows {s t : State} (h : Holds s t) : Flows s t :=
  ⟨h.pending, h.out, h.ops, h.arrival, h.tags, h.locks, h.lost, fun g => by rw [h.tuning]; exact g⟩

theorem Keeps.flows {s t : State} (h : Keeps s t) : Flows s t := h.holds.flows

theorem Flows.refl (s : State) : Flows s s := (Keeps.refl s).flows

theorem Flows.trans {s t u : State} (h : Flows s t) (g : Flows t u) : Flows s u where
  pending := g.pending.trans h.pending
  out := h.out.trans g.out
  ops := h.ops.trans g.ops
  arrival := h.arrival.trans g.arrival
  tags := g.tags.trans h.tags
  locks := by have := h.locks; have := g.locks; omega
  lost := g.lost.trans h.lost
  tuning := fun l => g.tuning (h.tuning l)

theorem Flows.step {s t u : State} (h : Flows s t) (g : Keeps t u) : Flows s u := h.trans g.flows

/-- A change of the window unit that leaves the overwrite count. -/
theorem Flows.window {s0 s : State} (h : Flows s0 s) {win : WindowUnit} (ho : win.overwrites = s.win.overwrites) :
    Flows s0 { s with win } :=
  ⟨h.pending, h.out, h.ops, h.arrival, h.tags, h.locks, ho.trans h.lost, h.tuning⟩

/-! ### The tuning values (R196) -/

theorem clampCount_legal (top : Nat) (v : BitVec 8) (ht : 1 ≤ top) : 1 ≤ clampCount top v ∧ clampCount top v ≤ top := by
  unfold clampCount
  omega

theorem tunedBy_legal {t : Tuning} (m : BitVec 16) (v : TuningBytes) (h : t.Legal) : (tunedBy m v t).Legal := by
  obtain ⟨h1, h2, h3, h4⟩ := h
  unfold tunedBy
  refine ⟨?_, ?_, ?_, ?_⟩ <;> dsimp only <;> split <;>
    first | assumption | exact clampCount_legal _ _ (by decide)

/-! ### The directives one by one -/

theorem takeSelectBay_flows {s0 s : State} (a : DirectiveArgs) (h : Flows s0 s) : Flows s0 (takeSelectBay a s).1 := by
  unfold takeSelectBay
  split
  · exact h.window rfl
  · exact h

theorem takeStartChain_keeps {s0 s : State} (a : DirectiveArgs) (h : Keeps s0 s) : Keeps s0 (takeStartChain a s).1 := by
  unfold takeStartChain
  split
  · split
    · exact h
    · exact keeps_mk.mpr (h.parts rfl rfl)
  · exact h

theorem holdActive_keeps {s0 s : State} (h : Keeps s0 s) : Keeps s0 (holdActive s) := keeps_mk.mpr (h.parts rfl rfl)

theorem takeHoldChain_keeps {s0 s : State} (h : Keeps s0 s) : Keeps s0 (takeHoldChain s).1 := by
  unfold takeHoldChain
  split
  · exact holdActive_keeps h
  · exact raise_keeps _ (keeps_mk.mpr (h.parts rfl rfl))
  · exact h
  · exact h

theorem takeReleaseChain_keeps {s0 s : State} (h : Keeps s0 s) : Keeps s0 (takeReleaseChain s).1 := by
  unfold takeReleaseChain
  split
  · exact keeps_mk.mpr (h.parts rfl rfl)
  · split
    · exact keeps_mk.mpr (h.parts rfl rfl)
    · exact h
  · exact h
  · exact h

theorem pauseEffect_keeps {s0 s t : State} (h : Keeps s0 s) (e : pauseEffect s = some t) : Keeps s0 t := by
  unfold pauseEffect at e
  (repeat' split at e) <;> first
    | cases e; done
    | (obtain rfl := Option.some.inj e
       first
       | exact h
       | exact abandonGather_keeps (keeps_mk.mpr (h.parts rfl rfl))
       | exact keeps_mk.mpr (h.parts rfl rfl))

theorem takePause_keeps {s0 s : State} (h : Keeps s0 s) : Keeps s0 (takePause s).1 := by
  unfold takePause
  split
  · exact pauseEffect_keeps h ‹_›
  · exact h

theorem leaveSuspended_keeps {s0 s : State} (h : Keeps s0 s) : Keeps s0 (leaveSuspended s) :=
  keeps_mk.mpr (h.parts rfl rfl)

theorem takeResume_keeps {s0 s : State} (h : Keeps s0 s) : Keeps s0 (takeResume s).1 := by
  unfold takeResume
  split
  · split
    · exact h
    · exact keeps_mk.mpr (h.parts rfl rfl)
  · split
    · exact h
    · exact leaveSuspended_keeps h
  all_goals exact h

theorem askDrop_keeps {s0 s : State} (h : Keeps s0 s) : Keeps s0 (askDrop s) := keeps_mk.mpr (h.parts rfl rfl)

theorem takeDropPlan_keeps {s0 s : State} (h : Keeps s0 s) : Keeps s0 (takeDropPlan s).1 := by
  unfold takeDropPlan
  split
  · exact askDrop_keeps h
  · exact h

theorem takeStopChain_keeps {s0 s : State} (h : Keeps s0 s) : Keeps s0 (takeStopChain s).1 := by
  unfold takeStopChain
  split
  · exact askDrop_keeps (keeps_mk.mpr (h.parts rfl rfl))
  · split
    · have hh := holdActive_keeps h
      cases hp : pauseEffect (holdActive s) with
      | none => exact hh
      | some t => exact pauseEffect_keeps hh hp
    · exact moveChain_keeps (s.plan.pointer, .ended) h
    · exact moveChain_keeps (s.plan.pointer, .ended) h
    · exact h

theorem takeSetTuning_flows {s0 s : State} (a : DirectiveArgs) (h : Flows s0 s) : Flows s0 (takeSetTuning a s).1 := by
  have h1 : Flows s0 { s with ctl := { s.ctl with tuning := tunedBy a.tuningMask a.tuning s.ctl.tuning } } :=
    ⟨h.pending, h.out, h.ops, h.arrival, h.tags, h.locks, h.lost, fun g => tunedBy_legal _ _ (h.tuning g)⟩
  unfold takeSetTuning
  dsimp only
  split
  · exact (h1.step (repin_keeps (Keeps.refl _))).step (reportCounts_keeps (Keeps.refl _))
  · exact h1.step (repin_keeps (Keeps.refl _))

theorem takeClearEvents_flows {s0 s : State} (a : DirectiveArgs) (h : Flows s0 s) :
    Flows s0 (takeClearEvents a s).1 := by
  have h1 : Flows s0 { s with win := { s.win with events := s.win.events.clearMask a.eventMask } } := h.window rfl
  unfold takeClearEvents
  dsimp only [done]
  split
  · exact h1.step (takeReferences_keeps (Keeps.refl _))
  · exact h1

theorem takeSetAttention_flows {s0 s : State} (a : DirectiveArgs) (h : Flows s0 s) :
    Flows s0 (takeSetAttention a s).1 := h.window rfl

theorem takeClearCapture_keeps {s0 s : State} (h : Keeps s0 s) : Keeps s0 (takeClearCapture s).1 :=
  keeps_mk.mpr (h.parts rfl rfl)

theorem takeFailMember_keeps {s0 s : State} (h : Keeps s0 s) : Keeps s0 (takeFailMember s).1 := by
  unfold takeFailMember
  dsimp only
  split
  · exact failBay_keeps _ h
  · exact h

theorem takeKeepRemaps_keeps {s0 s : State} (h : Keeps s0 s) : Keeps s0 (takeKeepRemaps s).1 := by
  unfold takeKeepRemaps
  dsimp only
  split
  · exact h
  · split
    · exact raiseCause_keeps _ h
    · exact h

theorem takeClearHalt_keeps {s0 s : State} (h : Keeps s0 s) : Keeps s0 (takeClearHalt s).1 := by
  unfold takeClearHalt
  split
  · refine keeps_mk.mpr (h.parts rfl ?_)
    unfold clearedHalt
    split <;> rfl
  · exact h

theorem takeByCode_flows {s0 s : State} (d : Directive) (h : Flows s0 s) : Flows s0 (takeByCode d s).1 := by
  unfold takeByCode
  split
  · exact takeSelectBay_flows _ h
  · exact h.step (takeStartChain_keeps _ (Keeps.refl _))
  · exact h.step (takeHoldChain_keeps (Keeps.refl _))
  · exact h.step (takeReleaseChain_keeps (Keeps.refl _))
  · exact h.step (takePause_keeps (Keeps.refl _))
  · exact h.step (takeResume_keeps (Keeps.refl _))
  · exact h.step (takeDropPlan_keeps (Keeps.refl _))
  · exact h.step (takeStopChain_keeps (Keeps.refl _))
  · exact takeSetTuning_flows _ h
  · exact takeClearEvents_flows _ h
  · exact takeSetAttention_flows _ h
  · exact h.step (takeClearCapture_keeps (Keeps.refl _))
  · exact h.step (takeFailMember_keeps (Keeps.refl _))
  · exact h.step (takeKeepRemaps_keeps (Keeps.refl _))
  · exact h.step (takeClearHalt_keeps (Keeps.refl _))
  · exact h

theorem takeDirective_flows {s0 s : State} (d : Directive) (h : Flows s0 s) : Flows s0 (takeDirective d s) := by
  have h1 : Flows s0 { s with win := { s.win with taken := true } } := h.window rfl
  unfold takeDirective
  dsimp only
  split
  · exact h1.trans (finishDirective_holds _ (Holds.refl _)).flows
  · split
    · exact h1.trans (restartTaken_holds _ (Holds.refl _)).flows
    · split
      · exact h1.trans (finishDirective_holds _ (Holds.refl _)).flows
      · have h2 := takeByCode_flows d h1
        split
        · rename_i he
          rw [he] at h2
          exact h2.trans (finishDirective_holds _ (Holds.refl _)).flows
        · rename_i he
          rw [he] at h2
          exact h2

theorem ruleTake_flows {s t : State} (e : ruleTake s = some t) : Flows s t := by
  unfold ruleTake at e
  split at e
  · split at e
    · cases e
    · obtain rfl := Option.some.inj e
      exact takeDirective_flows _ (Flows.refl _)
  · cases e

/-! ### Internal events and settling -/

theorem takeEv_keeps {s0 s : State} (e : Ev) (h : Keeps s0 s) : Keeps s0 (takeEv e s) := by
  unfold takeEv
  split
  · exact ownerEnd_keeps _ _ h
  · exact releaseRequest_keeps _ h
  · exact advanceRequest_keeps _ h
  · exact advanceStep_keeps _ h
  · exact advanceFill_keeps _ _ h

theorem ruleTodo_keeps {s0 s t : State} (h : Keeps s0 s) (e : ruleTodo s = some t) : Keeps s0 t := by
  unfold ruleTodo at e
  split at e
  · cases e
  · obtain rfl := Option.some.inj e
    exact takeEv_keeps _ (keeps_mk.mpr (h.parts rfl rfl))

/-- Each rule by itself. -/
theorem rules_flows (s : State) : ∀ r ∈ rules, ∀ t, r s = some t → Flows s t := by
  simp only [rules, List.mem_cons, List.not_mem_nil, or_false, forall_eq_or_imp, forall_eq]
  exact ⟨fun _ e => (ruleTodo_keeps (Keeps.refl _) e).flows,
    fun _ e => (ruleBand_keeps (Keeps.refl _) e).flows,
    fun _ e => ruleTake_flows e,
    fun _ e => (ruleGrant_keeps (Keeps.refl _) e).flows,
    fun _ e => (ruleQueued_keeps (Keeps.refl _) e).flows,
    fun _ e => (ruleLabelDone_holds (Holds.refl _) e).flows,
    fun _ e => (rulePlaced_keeps (Keeps.refl _) e).flows,
    fun _ e => (ruleRecordDone_keeps (Keeps.refl _) e).flows,
    fun _ e => (ruleInstalled_keeps (Keeps.refl _) e).flows,
    fun _ e => (ruleRest_keeps (Keeps.refl _) e).flows,
    fun _ e => (ruleLostPaused_keeps (Keeps.refl _) e).flows,
    fun _ e => (ruleDrop_keeps (Keeps.refl _) e).flows,
    fun _ e => (ruleClosing_keeps (Keeps.refl _) e).flows,
    fun _ e => (rulePlanEnd_keeps (Keeps.refl _) e).flows,
    fun _ e => (ruleWaiting_keeps (Keeps.refl _) e).flows,
    fun _ e => (ruleFetch_keeps (Keeps.refl _) e).flows,
    fun _ e => (ruleRecopy_keeps (Keeps.refl _) e).flows,
    fun _ e => (ruleFreeze_keeps (Keeps.refl _) e).flows,
    fun _ e => (ruleDecide_keeps (Keeps.refl _) e).flows,
    fun _ e => (ruleSpill_keeps (Keeps.refl _) e).flows,
    fun _ e => (ruleSpillRecord_keeps (Keeps.refl _) e).flows,
    fun _ e => (rulePlace_keeps (Keeps.refl _) e).flows,
    fun _ e => (ruleLabel_keeps (Keeps.refl _) e).flows,
    fun _ e => (ruleFreeSlot_keeps (Keeps.refl _) e).flows,
    fun _ e => (ruleBegin_keeps (Keeps.refl _) e).flows,
    fun _ e => (ruleRecord_keeps (Keeps.refl _) e).flows,
    fun _ e => (ruleArea_keeps (Keeps.refl _) e).flows,
    fun _ e => (ruleFlush_keeps (Keeps.refl _) e).flows,
    fun _ e => (ruleDrained_keeps (Keeps.refl _) e).flows,
    fun _ e => (ruleScan_keeps (Keeps.refl _) e).flows,
    fun _ e => (ruleChoice_keeps (Keeps.refl _) e).flows,
    fun _ e => (ruleLoading_keeps (Keeps.refl _) e).flows,
    fun _ e => (ruleRecords_keeps (Keeps.refl _) e).flows,
    fun _ e => (ruleColumns_keeps (Keeps.refl _) e).flows,
    fun _ e => (ruleRestored_keeps (Keeps.refl _) e).flows,
    fun _ e => (ruleAssemblyEnd_keeps (Keeps.refl _) e).flows,
    fun _ e => (ruleSuspend_keeps (Keeps.refl _) e).flows⟩

theorem firstRule_flows {s t : State} : ∀ rs : List (State → Option State),
    (∀ r ∈ rs, ∀ u, r s = some u → Flows s u) → firstRule rs s = some t → Flows s t
  | [], _, e => by cases e
  | r :: rs, hr, e => by
    unfold firstRule at e
    split at e
    · rename_i u hu
      obtain rfl := Option.some.inj e
      exact hr r (by simp) _ hu
    · exact firstRule_flows rs (fun q hq => hr q (by simp [hq])) e

theorem settleFor_flows (n : Nat) : ∀ s : State, Flows s (settleFor n s) := by
  induction n with
  | zero => intro s; exact Flows.refl s
  | succ n ih =>
    intro s
    unfold settleFor
    split
    · exact Flows.refl s
    · exact (firstRule_flows rules (rules_flows s) ‹_›).trans (ih _)

/-- Everything that follows at an event can do no more than this. -/
theorem settle_flows (s : State) : Flows s (settle s) := settleFor_flows settleBound s

end Sys2Proof.Machine
end

