-- ==== Sys2Proof/Laws/Bays.lean ====
section
/-! SUPPORT. The bays under the operations that change them: ends without an answer, failures, and hand-overs at a bay with
nothing waiting. -/

namespace Sys2Proof.Machine

/-- What the release of holds and the abandoning of a step leave. -/
structure Fr (s t : State) : Prop where
  ctl : t.ctl = s.ctl
  win : t.win = s.win
  out : t.out = s.out
  shelf : t.shelf = s.shelf
  asm : t.asm = s.asm

theorem Fr.refl (s : State) : Fr s s := ⟨rfl, rfl, rfl, rfl, rfl⟩

theorem Fr.trans {s t u : State} (h : Fr s t) (g : Fr t u) : Fr s u := ⟨g.ctl.trans h.ctl, g.win.trans h.win, g.out.trans h.out, g.shelf.trans h.shelf, g.asm.trans h.asm⟩

theorem release_fr (q : HoldReason → Bool) (s : State) : Fr s (releaseHolds q s) ∧ (releaseHolds q s).mover = s.mover := by
  unfold releaseHolds
  have : ∀ (m : List HoldEntry) (s : State), Fr s (m.foldl (fun s h => push (.release h.arrival) s) s) ∧ (m.foldl (fun s h => push (.release h.arrival) s) s).mover = s.mover := by
    intro m
    induction m with
    | nil => exact fun s => ⟨Fr.refl s, rfl⟩
    | cons x m ih => intro s; exact ⟨Fr.trans (t := push (.release x.arrival) s) ⟨rfl, rfl, rfl, rfl, rfl⟩ (ih (push (.release x.arrival) s)).1, (ih (push (.release x.arrival) s)).2⟩
  exact ⟨Fr.trans (t := { s with holds := s.holds.filter (fun h => !q h.reason) }) ⟨rfl, rfl, rfl, rfl, rfl⟩ (this _ _).1, (this _ _).2⟩

theorem abandonStep_fr (g : Staging) (t : Step) (s : State) : Fr s (abandonStep g t s) ∧ (abandonStep g t s).mover = (setStep g (some t.abandon) s).mover := by
  unfold abandonStep
  refine ⟨Fr.trans ?_ (release_fr _ _).1, ?_⟩
  · cases t.arrival <;> cases g <;> exact ⟨rfl, rfl, rfl, rfl, rfl⟩
  · refine (release_fr _ _).2.trans ?_
    cases t.arrival <;> cases g <;> rfl

/-- What leaves the completions and the bays. -/
structure Fo (s t : State) : Prop where
  out : t.out = s.out
  shelf : t.shelf = s.shelf
  asm : t.asm = s.asm

theorem Fo.refl (s : State) : Fo s s := ⟨rfl, rfl, rfl⟩

theorem Fo.trans {s t u : State} (h : Fo s t) (g : Fo t u) : Fo s u := ⟨g.out.trans h.out, g.shelf.trans h.shelf, g.asm.trans h.asm⟩

theorem abandonGather_fo (s : State) : Fo s (abandonGather s) := by
  unfold abandonGather
  generalize (s.steps.filter _) = l
  induction l generalizing s with
  | nil => exact Fo.refl s
  | cons p l ih => exact Fo.trans (t := abandonStep p.1 p.2 s) ⟨(abandonStep_fr _ _ _).1.out, (abandonStep_fr _ _ _).1.shelf, (abandonStep_fr _ _ _).1.asm⟩ (ih _)

theorem setVolume_fo (s : State) : Fo s (setVolume s) := by
  unfold setVolume; split
  · exact Fo.refl s
  · exact Fo.refl s
  · exact Fo.refl s
  all_goals (split <;> exact ⟨rfl, rfl, rfl⟩)

theorem takeFault_fo (l) (s : State) : Fo s (takeFault l s) := by
  unfold takeFault
  split
  · exact Fo.refl s
  · dsimp only
    split <;> split
    all_goals first
      | exact ⟨rfl, rfl, rfl⟩
      | (split
         · exact ⟨rfl, rfl, rfl⟩
         · exact ⟨(abandonGather_fo _).out.trans rfl, (abandonGather_fo _).shelf.trans rfl, (abandonGather_fo _).asm.trans rfl⟩)

theorem reportCounts_fo (s : State) : Fo s (reportCounts s) := by
  unfold reportCounts
  dsimp only
  split
  · exact ⟨(takeFault_fo _ _).out.trans ((setVolume_fo _).out.trans rfl), (takeFault_fo _ _).shelf.trans ((setVolume_fo _).shelf.trans rfl), (takeFault_fo _ _).asm.trans ((setVolume_fo _).asm.trans rfl)⟩
  · exact ⟨(setVolume_fo _).out.trans rfl, (setVolume_fo _).shelf.trans rfl, (setVolume_fo _).asm.trans rfl⟩

theorem loseIncoming_fo (s : State) : Fo s (loseIncoming s) := by
  unfold loseIncoming
  split
  · exact ⟨rfl, rfl, rfl⟩
  · exact ⟨(abandonGather_fo _).out.trans rfl, (abandonGather_fo _).shelf.trans rfl, (abandonGather_fo _).asm.trans rfl⟩
  · split <;> exact ⟨rfl, rfl, rfl⟩
  all_goals exact Fo.refl s

theorem raiseCause_fo (k) (s : State) : Fo s (raiseCause k s) := by
  unfold raiseCause; exact ⟨rfl, rfl, rfl⟩

/-- All operations of a bay ending GONE: its lists are empty, and the ends wait to be learned (R124, R132). -/
theorem endAllGone_def (i : Slot) (s : State) :
    endAllGone i s = { updBay i (fun b => { b with wait := [], backlog := [], issued := [] }) s with
      todo := s.todo ++ (s.bay i).ops.map (fun op => Ev.opEnd op .gone) } := by
  unfold endAllGone
  dsimp only
  generalize (s.bay i).ops = l
  have : ∀ (l : List MemberOp) (s : State), l.foldl (fun s op => push (.opEnd op .gone) s) s
      = { s with todo := s.todo ++ l.map (fun op => Ev.opEnd op .gone) } := by
    intro l
    induction l with
    | nil => intro s; simp
    | cons x m ih => intro s; rw [List.foldl_cons, ih]; simp [push]
  rw [this]; rfl

theorem endAllGone_eq (i : Slot) (s : State) : (endAllGone i s).out = s.out ∧ (endAllGone i s).shelf = (updBay i (fun b => { b with wait := [], backlog := [], issued := [] }) s).shelf := by
  rw [endAllGone_def]; exact ⟨rfl, rfl⟩

/-- The failure of a MEMBER or JOINING bay: FAILED, its lists empty, no other bay touched, MEMBER_LOST raised (R132). -/
theorem failBay_frame {i : Slot} {s : State} (h : (s.bay i).role = .member ∨ (s.bay i).role = .joining) :
    (failBay i s).out = s.out ∧ (failBay i s).shelf = (updBay i (fun b => { b with role := .failed, wait := [], backlog := [], issued := [] }) s).shelf ∧ (failBay i s).win.events.memberLost = true ∧ (failBay i s).asm = s.asm := by
  have key : ∀ t : State, t.shelf = (updBay i (fun b => { b with role := .failed }) s).shelf → (endAllGone i t).shelf = (updBay i (fun b => { b with role := .failed, wait := [], backlog := [], issued := [] }) s).shelf := by
    intro t ht
    rw [(endAllGone_eq i t).2]
    simp only [updBay, State.setBay, State.bay, ht]
    simp
  have kk : ∀ (t : State) (b c : Bool), Fo t (if b then noteLoss i c t else t) := by
    intro t b c; unfold noteLoss; dsimp only; split
    · split <;> exact ⟨rfl, rfl, rfl⟩
    · exact Fo.refl t
  have kl : ∀ (t : State) (b : Bool), Fo t (if b then loseIncoming t else t) := by
    intro t b; split
    · exact loseIncoming_fo t
    · exact Fo.refl t
  have hb : ((s.bay i).role == .member || (s.bay i).role == .joining) = true := by simpa using h
  have hk : Keeps (raise .memberLost (endAllGone i (strikeBay i (updBay i (fun b => { b with role := .failed }) s)))) (failBay i s) := by
    unfold failBay
    dsimp only
    rw [if_pos hb]
    repeat' (first | with_reducible exact Keeps.refl _ | with_reducible apply loseIncoming_keeps | with_reducible apply noteLoss_keeps | with_reducible apply reportCounts_keeps | with_reducible rfl | split)
  refine ⟨?_, ?_, hk.events .memberLost (by simp [raise, Events.set, Events.has]), ?_⟩
  all_goals
    unfold failBay
    dsimp only
    rw [if_pos hb]
  · refine (kl _ _).out.trans ((kk _ _ _).out.trans ((reportCounts_fo _).out.trans ?_))
    exact (endAllGone_eq i _).1
  · refine (kl _ _).shelf.trans ((kk _ _ _).shelf.trans ((reportCounts_fo _).shelf.trans ?_))
    exact key (strikeBay i (updBay i (fun b => { b with role := .failed }) s)) rfl
  · refine (kl _ _).asm.trans ((kk _ _ _).asm.trans ((reportCounts_fo _).asm.trans ?_))
    rw [endAllGone_def]; rfl

/-- A shelf changed at one bay. -/
theorem bay_upd {v s : State} {i : Slot} {f : Bay → Bay} (h : v.shelf = (updBay i f s).shelf) : v.bay i = f (s.bay i) ∧ ∀ j, j ≠ i → v.bay j = s.bay j := by
  refine ⟨?_, fun j hj => ?_⟩
  · simp [State.bay, h, updBay, State.setBay]
  · have hj' : (i : Nat) ≠ j := fun hh => hj (Fin.ext hh.symm)
    simp only [State.bay, h, updBay, State.setBay]
    rw [Vector.getElem_set_ne _ _ hj']


/-- The grants at a bay whose wait list is empty: none (R128). -/
theorem grantBay_empty (pace n : Nat) : ∀ (b : Bay), b.wait = [] → grantBay pace n b = b := by
  induction n with
  | zero => exact fun _ _ => rfl
  | succ n ih =>
    intro b h
    have : grantOne pace b = b := by
      unfold grantOne chooseOp
      simp [h]
    rw [grantBay, this, ih b h]

/-- An operation of the mark class at a bay with nothing waiting: in an issue slot if one is free, else waiting (R76, R127,
R128). -/
theorem grantBay_mark (pace : Nat) (op : MemberOp) (b : Bay) (hm : op.cls = .mark) (hw : b.wait = []) (hl : b.backlog = []) :
    grantBay pace Config.issueSlots (waitIn op b)
      = if b.issued.length < 16 then
          { b with issued := b.issued ++ [{ op := op, sending := 1, expiries := 0, medias := 0 }] }
        else { b with wait := [op] } := by
  have hq : waitIn op b = { b with wait := [op] } := by simp [waitIn, hm, hw]
  rw [hq]
  by_cases hi : b.issued.length < 16
  · rw [if_pos hi]
    have : grantOne pace { b with wait := [op] }
        = { b with issued := b.issued ++ [{ op := op, sending := 1, expiries := 0, medias := 0 }] } := by
      unfold grantOne
      rw [if_pos (show b.issued.length < Config.issueSlots from hi)]
      simp [chooseOp, hm, afterGrant, refill, hl]
      exact hw
    show grantBay pace (15 + 1) _ = _
    rw [grantBay, this]
    exact grantBay_empty _ _ _ hw
  · rw [if_neg hi]
    have h1 : ∀ n, grantBay pace n { b with wait := [op] } = { b with wait := [op] } := by
      intro n
      induction n with
      | zero => rfl
      | succ n ih =>
        have : grantOne pace { b with wait := [op] } = { b with wait := [op] } := by
          unfold grantOne
          exact if_neg (show ¬ b.issued.length < Config.issueSlots from hi)
        rw [grantBay, this, ih]
    exact h1 _

/-- The INQUIRE an arrival hands over (R122). -/
def inquireOp (i : Slot) (s : State) : MemberOp := { id := s.shelf.nextOp, slot := i, cls := .mark, kind := .inquire, owner := .inquire, home := none }

/-- An INQUIRE at a present bay with nothing waiting (R122, R128). -/
theorem handReserve_inquire (i : Slot) (s : State) (hp : (s.bay i).present = true) (hw : (s.bay i).wait = []) (hl : (s.bay i).backlog = []) :
    handReserve i .mark .inquire .inquire s = updBay i (fun b => if b.issued.length < 16 then { b with issued := b.issued ++ [{ op := inquireOp i s, sending := 1, expiries := 0, medias := 0 }] } else { b with wait := [inquireOp i s] })
      { s with shelf := { s.shelf with nextOp := s.shelf.nextOp + 1 } } := by
  unfold handReserve enqueue
  have hp' : ((takeOp s).2.bay i).present = true := hp
  simp only [hp', Owner.isScan, Bool.not_true, Bool.and_false, Bool.or_false, Bool.false_eq_true, if_false]
  unfold grants
  have h2 : ∀ (g : Bay → Bay) (f : Bay → Bay) (v : State), updBay i g (updBay i f v) = updBay i (fun b => g (f b)) v := by
    intro g f v; simp [updBay, State.setBay, State.bay]
  have h3 : ∀ (g f : Bay → Bay) (v : State), g (v.bay i) = f (v.bay i) → updBay i g v = updBay i f v := by
    intro g f v h; unfold updBay; rw [h]
  refine (h2 _ _ _).trans (h3 _ _ _ ?_)
  exact grantBay_mark _ (inquireOp i s) (s.bay i) rfl hw hl

/-- The comparison of presence with the references (R125). -/
theorem shelfCheck_eq (s : State) : shelfCheck s = { s with win := { s.win with events := { s.win.events with shelfChange :=
    s.win.events.shelfChange || (!s.asm.firstScan && allSlots.any (fun i => (s.bay i).present != (s.bay i).reference)) } } } := by
  unfold shelfCheck
  split
  · rename_i h; rw [h]; simp [raise, Events.set]
  · rename_i h; rw [Bool.eq_false_iff.mpr h]; simp

theorem any_iff (s : State) : allSlots.any (fun i => (s.bay i).present != (s.bay i).reference) = true ↔ ∃ j, (s.bay j).present ≠ (s.bay j).reference := by
  simp [allSlots, List.any_eq_true, List.mem_finRange]

/-- A departure of an absent bay (R119). -/
theorem takeOut_none {i : Slot} {s : State} (h : (s.bay i).present = false) : takeOut i s = s := by
  unfold takeOut; simp [h]

/-- A departure of a bay of another role than MEMBER or JOINING (R124). -/
theorem takeOut_other {i : Slot} {s : State} (h : (s.bay i).present = true) (h1 : (s.bay i).role ≠ .member) (h2 : (s.bay i).role ≠ .joining) :
    takeOut i s = { updBay i (fun b => { b with present := false, readiness := .absent, scanDue := false, wait := [], backlog := [], issued := [], role := departedRole b.role }) s with
      todo := s.todo ++ (s.bay i).ops.map (fun o => Ev.opEnd o .gone)
      asm := if s.asm.stage == .scan then { s.asm with scanSet := s.asm.scanSet.filter (· != i) } else s.asm
      integ := { s.integ with candidates := s.integ.candidates.filter (fun c => c.slot != i) } } := by
  unfold takeOut
  have hb : ((s.bay i).role == .member || (s.bay i).role == .joining) = false := by simp [h1, h2]
  simp only [h, Bool.not_true, Bool.false_eq_true, if_false, hb, endAllGone_def]
  by_cases hs : s.asm.stage = .scan <;> simp [hs, strikeBay, updBay, State.setBay, State.bay, Bay.ops]

/-- A departure of a MEMBER or JOINING bay (R124, R132). -/
theorem takeOut_member {i : Slot} {s : State} (h : (s.bay i).present = true) (h1 : (s.bay i).role = .member ∨ (s.bay i).role = .joining) :
    (takeOut i s).shelf = (updBay i (fun b => { b with present := false, readiness := .absent, scanDue := false, wait := [], backlog := [], issued := [], role := .failed }) s).shelf
    ∧ (takeOut i s).out = s.out ∧ (takeOut i s).win.events.memberLost = true
    ∧ (takeOut i s).asm = if s.asm.stage == .scan then { s.asm with scanSet := s.asm.scanSet.filter (· != i) } else s.asm := by
  unfold takeOut
  have hb : ((s.bay i).role == .member || (s.bay i).role == .joining) = true := by simpa using h1
  simp only [h, Bool.not_true, Bool.false_eq_true, if_false, hb, if_true]
  have key : ∀ v : State, v.shelf = (updBay i (fun b => { b with present := false, readiness := .absent, scanDue := false }) s).shelf → v.out = s.out →
      (failBay i v).shelf = (updBay i (fun b => { b with present := false, readiness := .absent, scanDue := false, wait := [], backlog := [], issued := [], role := .failed }) s).shelf
      ∧ (failBay i v).out = s.out ∧ (failBay i v).win.events.memberLost = true ∧ (failBay i v).asm = v.asm := by
    intro v hs ho
    have hr : (v.bay i).role = (s.bay i).role := by rw [(bay_upd hs).1]
    obtain ⟨f1, f2, f3, f4⟩ := failBay_frame (i := i) (s := v) (by rw [hr]; exact h1)
    refine ⟨?_, f1.trans ho, f3, f4⟩
    rw [f2]
    simp [updBay, State.setBay, State.bay, hs]
  by_cases hs : s.asm.stage = .scan
  · simp only [updBay_asm, hs, beq_self_eq_true, if_true]
    exact key _ rfl rfl
  · have hs' : (s.asm.stage == .scan) = false := by simpa using hs
    simp only [updBay_asm, hs', Bool.false_eq_true, if_false]
    exact key _ rfl rfl

/-- A bay after an arrival with nothing waiting (R122). -/
def askedBay (i : Slot) (s : State) (b : Bay) : Bay :=
  if b.issued.length < 16 then { b with present := true, readiness := .inquiring, label := none, issued := b.issued ++ [{ op := inquireOp i s, sending := 1, expiries := 0, medias := 0 }] }
  else { b with present := true, readiness := .inquiring, label := none, wait := [inquireOp i s] }

/-- The scan set after an arrival (R174). -/
def joinedScan (i : Slot) (a : Assembly) : List Slot := if a.stage == .scan && !a.scanSet.contains i then a.scanSet ++ [i] else a.scanSet

theorem st_eq (v s : State) (x : Bool) (h : v = { s with shelf := v.shelf, asm := v.asm }) (ha : v.asm = { s.asm with scanSet := v.asm.scanSet }) :
    ({ v with win := { v.win with events := { v.win.events with shelfChange := x } } } : State)
      = { s with shelf := v.shelf, asm := { s.asm with scanSet := v.asm.scanSet }, win := { s.win with events := { s.win.events with shelfChange := x } } } := by
  rw [← ha]
  conv => lhs; rw [h]

/-- An arrival at a bay with nothing waiting (R122, R125, R174). -/
theorem arrive_eq (i : Slot) (s : State) (hw : (s.bay i).wait = []) (hl : (s.bay i).backlog = []) :
    ∃ u, arrive i s = u ∧ u.bay i = askedBay i s (s.bay i) ∧ (∀ j, j ≠ i → u.bay j = s.bay j) ∧ u.shelf.nextOp = s.shelf.nextOp + 1
      ∧ u.asm.scanSet = joinedScan i s.asm
      ∧ u.win.events.shelfChange = (s.win.events.shelfChange || (!s.asm.firstScan && allSlots.any (fun j => (u.bay j).present != (u.bay j).reference)))
      ∧ u = { s with
          shelf := u.shelf, asm := { s.asm with scanSet := u.asm.scanSet }
          win := { s.win with events := { s.win.events with shelfChange := u.win.events.shelfChange } } } := by
  have harr : arrive i s = shelfCheck (handReserve i .mark .inquire .inquire
      { updBay i (fun b => { b with present := true, readiness := .inquiring, label := none }) s with asm := { s.asm with scanSet := joinedScan i s.asm } }) := by
    unfold arrive joinedScan
    dsimp only [updBay_asm]
    by_cases hc : (s.asm.stage == .scan && !s.asm.scanSet.contains i) = true
    · simp only [hc, if_true]
    · have hc' := Bool.eq_false_iff.mpr hc
      simp only [hc', Bool.false_eq_true, if_false]; rfl
  obtain ⟨w, hw0⟩ : ∃ w, w = { updBay i (fun b => { b with present := true, readiness := .inquiring, label := none }) s with asm := { s.asm with scanSet := joinedScan i s.asm } } := ⟨_, rfl⟩
  rw [← hw0] at harr
  have hs : w.shelf = (updBay i (fun b => { b with present := true, readiness := .inquiring, label := none }) s).shelf := by rw [hw0]
  have wb := (bay_upd hs).1
  have wo := (bay_upd hs).2
  have wa : w.asm = { s.asm with scanSet := joinedScan i s.asm } := by rw [hw0]
  have ww : w.win = s.win := by rw [hw0]; rfl
  have wn : w.shelf.nextOp = s.shelf.nextOp := by rw [hs]; rfl
  have w0 : w = { s with shelf := w.shelf, asm := w.asm } := by rw [hw0]; rfl
  clear hw0
  have ws : inquireOp i w = inquireOp i s := by simp only [inquireOp, wn]
  have hq := handReserve_inquire i w (by rw [wb]) (by rw [wb]; exact hw) (by rw [wb]; exact hl)
  rw [ws] at hq
  obtain ⟨v, hv⟩ : ∃ v, handReserve i .mark .inquire .inquire w = v := ⟨_, rfl⟩
  rw [hv] at hq harr
  have vs : v.shelf = (updBay i (fun b => if b.issued.length < 16 then { b with issued := b.issued ++ [{ op := inquireOp i s, sending := 1, expiries := 0, medias := 0 }] } else { b with wait := [inquireOp i s] })
      { w with shelf := { w.shelf with nextOp := w.shelf.nextOp + 1 } }).shelf := by rw [hq]
  have vb : v.bay i = (if (w.bay i).issued.length < 16 then { w.bay i with issued := (w.bay i).issued ++ [{ op := inquireOp i s, sending := 1, expiries := 0, medias := 0 }] } else { w.bay i with wait := [inquireOp i s] }) := (bay_upd vs).1
  have vo : ∀ j, j ≠ i → v.bay j = w.bay j := (bay_upd vs).2
  have vn : v.shelf.nextOp = s.shelf.nextOp + 1 := by rw [vs, ← wn]; rfl
  have v0 : v = { w with shelf := v.shelf } := by rw [hq]; rfl
  clear hq vs hv
  rw [shelfCheck_eq] at harr
  refine ⟨_, harr, ?_⟩
  refine ⟨?_, fun j hj => ?_, vn, ?_, ?_, ?_⟩
  · refine vb.trans ?_
    rw [wb]; rfl
  · exact (vo j hj).trans (wo j hj)
  · rw [v0]; show w.asm.scanSet = _; rw [wa]
  · have e1 : v.win = s.win := by rw [v0, ← ww]
    have e2 : v.asm.firstScan = s.asm.firstScan := by rw [v0]; show w.asm.firstScan = _; rw [wa]
    show (v.win.events.shelfChange || (!v.asm.firstScan && _)) = _
    rw [e1, e2]; rfl
  · have e1 : v.win = s.win := by rw [v0, ← ww]
    have e3 : v.asm = { s.asm with scanSet := v.asm.scanSet } := by
      have : v.asm = w.asm := by rw [v0]
      rw [this, wa]
    have e4 : v = { s with shelf := v.shelf, asm := v.asm } := by
      have : v.asm = w.asm := by rw [v0]
      rw [this]
      conv => lhs; rw [v0, w0]
    exact st_eq v s _ e4 e3

theorem joinedScan_mem (i j : Slot) (a : Assembly) : j ∈ joinedScan i a ↔ j ∈ a.scanSet ∨ (a.stage = .scan ∧ j = i) := by
  unfold joinedScan
  split
  · rename_i h; simp at h; simp; tauto
  · rename_i h
    simp at h
    constructor
    · exact Or.inl
    · rintro (h1 | ⟨h1, rfl⟩)
      · exact h1
      · exact h h1

theorem ref_keep {s u : State} {i : Slot} (h1 : (u.bay i).reference = (s.bay i).reference) (h2 : ∀ j, j ≠ i → u.bay j = s.bay j) (x : Bool) :
    (x || (!s.asm.firstScan && allSlots.any (fun j => (u.bay j).present != (u.bay j).reference))) = true ↔ x = true ∨ (s.asm.firstScan = false ∧ ∃ j, (u.bay j).present ≠ (s.bay j).reference) := by
  have hr : ∀ j, (u.bay j).reference = (s.bay j).reference := fun j => by
    by_cases hj : j = i
    · rw [hj, h1]
    · rw [h2 j hj]
  rw [Bool.or_eq_true, Bool.and_eq_true, any_iff]
  simp [hr]

theorem refill_same (b : Bay) : (refill b).present = b.present ∧ (refill b).readiness = b.readiness := by
  exact ⟨rfl, rfl⟩

theorem afterGrant_same (c : Option Bool) (b : Bay) : (afterGrant c b).present = b.present ∧ (afterGrant c b).readiness = b.readiness := by
  unfold afterGrant; split
  · exact ⟨rfl, rfl⟩
  · split <;> exact ⟨rfl, rfl⟩

theorem grantBay_same (pace n : Nat) : ∀ b : Bay, (grantBay pace n b).present = b.present ∧ (grantBay pace n b).readiness = b.readiness := by
  induction n with
  | zero => exact fun b => ⟨rfl, rfl⟩
  | succ n ih =>
    intro b
    have h : (grantOne pace b).present = b.present ∧ (grantOne pace b).readiness = b.readiness := by
      unfold grantOne
      split
      · split
        · exact ⟨rfl, rfl⟩
        · exact ⟨(refill_same _).1.trans (afterGrant_same _ _).1, (refill_same _).2.trans (afterGrant_same _ _).2⟩
      · exact ⟨rfl, rfl⟩
    rw [grantBay]
    exact ⟨(ih _).1.trans h.1, (ih _).2.trans h.2⟩

theorem shelfCheck_rest (s : State) : (shelfCheck s).shelf = s.shelf ∧ (shelfCheck s).asm = s.asm ∧ (shelfCheck s).out = s.out := by
  rw [shelfCheck_eq]; exact ⟨rfl, rfl, rfl⟩

/-- Everything but one bay as it was, with the completions and the links waited for. -/
structure Away (i : Slot) (s t : State) : Prop where
  others : ∀ j, j ≠ i → t.bay j = s.bay j
  links : t.asm.linksPending = s.asm.linksPending
  out : t.out = s.out

/-- What a departure leaves (R124). -/
theorem takeOut_away (i : Slot) (s : State) : Away i s (takeOut i s) ∧ (takeOut i s).shelf.nextOp = s.shelf.nextOp
    ∧ ((s.bay i).present = true → ((takeOut i s).bay i).present = false ∧ ((takeOut i s).bay i).readiness = .absent ∧ ((takeOut i s).bay i).ops = []) := by
  by_cases hp : (s.bay i).present = true
  · by_cases h1 : (s.bay i).role = .member ∨ (s.bay i).role = .joining
    · obtain ⟨f1, f2, f3, f4⟩ := takeOut_member hp h1
      refine ⟨⟨(bay_upd f1).2, by rw [f4]; split <;> rfl, f2⟩, by rw [f1]; rfl, fun _ => ?_⟩
      rw [(bay_upd f1).1]
      exact ⟨rfl, rfl, rfl⟩
    · have ht := takeOut_other hp (fun h => h1 (Or.inl h)) (fun h => h1 (Or.inr h))
      have hs : (takeOut i s).shelf = (updBay i (fun b => { b with present := false, readiness := .absent, scanDue := false, wait := [], backlog := [], issued := [], role := departedRole b.role }) s).shelf := by rw [ht]
      refine ⟨⟨(bay_upd hs).2, by rw [ht]; dsimp only; split <;> rfl, by rw [ht]; rfl⟩, by rw [hs]; rfl, fun _ => ?_⟩
      rw [(bay_upd hs).1]
      exact ⟨rfl, rfl, rfl⟩
  · have hp' : (s.bay i).present = false := by simpa using hp
    rw [takeOut_none hp']
    exact ⟨⟨fun _ _ => rfl, rfl, rfl⟩, rfl, fun h => absurd h hp⟩

/-- What a departure with its comparison leaves (R124, R125). -/
theorem depart_away (i : Slot) (s : State) : Away i s (depart i s) ∧ (depart i s).shelf.nextOp = s.shelf.nextOp
    ∧ ((s.bay i).present = true → ((depart i s).bay i).present = false ∧ ((depart i s).bay i).readiness = .absent ∧ ((depart i s).bay i).ops = [])
    ∧ ((s.bay i).present = false → depart i s = s) := by
  obtain ⟨a, b, c⟩ := takeOut_away i s
  unfold depart
  split
  · rename_i hp
    obtain ⟨g1, g2, g3⟩ := shelfCheck_rest (takeOut i s)
    have gb : ∀ j, (shelfCheck (takeOut i s)).bay j = (takeOut i s).bay j := fun j => by unfold State.bay; rw [g1]
    refine ⟨⟨fun j hj => (gb j).trans (a.others j hj), by rw [g2]; exact a.links, g3.trans a.out⟩, by rw [g1]; exact b, fun h => ?_, fun h => by rw [h] at hp; cases hp⟩
    rw [gb]; exact c h
  · rename_i hp
    exact ⟨⟨fun _ _ => rfl, rfl, rfl⟩, rfl, fun h => absurd h hp, fun _ => rfl⟩

/-- What an arrival leaves (R122). -/
theorem arrive_away (i : Slot) (s : State) : Away i s (arrive i s) ∧ (arrive i s).shelf.nextOp = s.shelf.nextOp + 1
    ∧ ((arrive i s).bay i).present = true ∧ ((arrive i s).bay i).readiness = .inquiring := by
  have key : ∀ w : State, (w.bay i).present = true → (w.bay i).readiness = .inquiring → (∀ j, j ≠ i → w.bay j = s.bay j) →
      w.asm.linksPending = s.asm.linksPending → w.out = s.out → w.shelf.nextOp = s.shelf.nextOp →
      Away i s (shelfCheck (handReserve i .mark .inquire .inquire w)) ∧ (shelfCheck (handReserve i .mark .inquire .inquire w)).shelf.nextOp = s.shelf.nextOp + 1
      ∧ ((shelfCheck (handReserve i .mark .inquire .inquire w)).bay i).present = true ∧ ((shelfCheck (handReserve i .mark .inquire .inquire w)).bay i).readiness = .inquiring := by
    intro w hp hr ho ha hout hn
    obtain ⟨g1, g2, g3⟩ := shelfCheck_rest (handReserve i .mark .inquire .inquire w)
    have gb : ∀ j, (shelfCheck (handReserve i .mark .inquire .inquire w)).bay j = (handReserve i .mark .inquire .inquire w).bay j := fun j => by unfold State.bay; rw [g1]
    have e : handReserve i .mark .inquire .inquire w = grants i (updBay i (waitIn (inquireOp i w)) (takeOp w).2) := by
      unfold handReserve enqueue
      have hp' : ((takeOp w).2.bay i).present = true := hp
      simp only [hp', Owner.isScan, Bool.not_true, Bool.and_false, Bool.or_false, Bool.false_eq_true, if_false]
      rfl
    have wi : ∀ b, (waitIn (inquireOp i w) b).present = b.present ∧ (waitIn (inquireOp i w) b).readiness = b.readiness := by
      intro b; unfold waitIn; split <;> exact ⟨rfl, rfl⟩
    have eb : (handReserve i .mark .inquire .inquire w).bay i = grantBay w.ctl.tuning.pace Config.issueSlots (waitIn (inquireOp i w) (w.bay i)) := by
      rw [e, grants, updBay_bay_same, updBay_bay_same]; rfl
    refine ⟨⟨fun j hj => ?_, ?_, ?_⟩, ?_, ?_, ?_⟩
    · rw [gb, e, grants, updBay_bay_ne _ _ hj, updBay_bay_ne _ _ hj]; exact ho j hj
    · rw [g2, e]; exact ha
    · rw [g3, e]; exact hout
    · rw [g1, e]; show w.shelf.nextOp + 1 = _; rw [hn]
    · rw [gb, eb, (grantBay_same _ _ _).1, (wi _).1]; exact hp
    · rw [gb, eb, (grantBay_same _ _ _).2, (wi _).2]; exact hr
  unfold arrive
  dsimp only
  by_cases hc : (s.asm.stage == .scan && !s.asm.scanSet.contains i) = true
  · simp only [updBay_asm, hc, if_true]
    obtain ⟨w, hw⟩ : ∃ w : State, w = { updBay i (fun b => { b with present := true, readiness := .inquiring, label := none }) s with asm := { s.asm with scanSet := s.asm.scanSet ++ [i] } } := ⟨_, rfl⟩
    have hs : w.shelf = (updBay i (fun b => { b with present := true, readiness := .inquiring, label := none }) s).shelf := by rw [hw]
    have := key w (by rw [(bay_upd hs).1]) (by rw [(bay_upd hs).1]) (bay_upd hs).2 (by rw [hw]) (by rw [hw]; rfl) (by rw [hs]; rfl)
    rw [hw] at this
    exact this
  · have hc' := Bool.eq_false_iff.mpr hc
    simp only [updBay_asm, hc', Bool.false_eq_true, if_false]
    exact key _ (by rw [updBay_bay_same]) (by rw [updBay_bay_same]) (fun j hj => updBay_bay_ne _ _ hj) rfl rfl rfl

/-- What a report of an arrival leaves (R119). -/
theorem arrival_away (i : Slot) (s : State) : Away i s (arrival i s) ∧ (arrival i s).shelf.nextOp = s.shelf.nextOp + 1
    ∧ ((arrival i s).bay i).present = true ∧ ((arrival i s).bay i).readiness = .inquiring := by
  obtain ⟨a, b, c⟩ := takeOut_away i s
  obtain ⟨d, e, f⟩ := arrive_away i (takeOut i s)
  exact ⟨⟨fun j hj => (d.others j hj).trans (a.others j hj), d.links.trans a.links, d.out.trans a.out⟩, e.trans (by rw [b]), f⟩

end Sys2Proof.Machine
end

