-- ==== Sys2Proof/Laws/Answers.lean ====
section
/-! SUPPORT. What the answers of drives, captures, tag errors and hand-overs to a bay change and leave. -/

namespace Sys2Proof.Machine


/-- A bay whose waiting and issued operations and arbiter counts may have moved, and nothing else (R128). -/
structure Regrant (b c : Bay) : Prop where
  eq : c = { b with wait := c.wait, backlog := c.backlog, issued := c.issued, contest := c.contest, moverCount := c.moverCount }

theorem Regrant.refl (b : Bay) : Regrant b b := ⟨rfl⟩

theorem Regrant.trans {b c d : Bay} (h : Regrant b c) (g : Regrant c d) : Regrant b d := ⟨by
  have e := g.eq
  rw [h.eq] at e
  exact e⟩

theorem refill_regrant (b : Bay) : Regrant b (refill b) := ⟨rfl⟩

theorem afterGrant_regrant (c : Option Bool) (b : Bay) : Regrant b (afterGrant c b) := by
  unfold afterGrant; split
  · exact ⟨rfl⟩
  · split <;> exact ⟨rfl⟩

theorem grantOne_regrant (pace : Nat) (b : Bay) : Regrant b (grantOne pace b) := by
  unfold grantOne
  split
  · split
    · exact ⟨rfl⟩
    · exact Regrant.trans ⟨rfl⟩ ((afterGrant_regrant _ _).trans (refill_regrant _))
  · exact ⟨rfl⟩

theorem grantBay_regrant (pace n : Nat) : ∀ b : Bay, Regrant b (grantBay pace n b) := by
  induction n with
  | zero => exact fun b => ⟨rfl⟩
  | succ n ih => intro b; rw [grantBay]; exact (grantOne_regrant pace b).trans (ih _)

/-- A freed issue slot and its grants touch only that bay's operations and arbiter counts. -/
theorem freeIssue_regrant (i : Slot) (n : Nat) (s : State) (j : Slot) : Regrant (s.bay j) ((freeIssue i n s).bay j) := by
  unfold freeIssue grants
  by_cases hj : j = i
  · subst hj
    rw [updBay_bay_same, updBay_bay_same]
    exact Regrant.trans ⟨rfl⟩ (grantBay_regrant _ _ _)
  · rw [updBay_bay_ne _ _ hj, updBay_bay_ne _ _ hj]
    exact Regrant.refl _

theorem freeIssue_ne (i : Slot) (n : Nat) (s : State) (j : Slot) (hj : j ≠ i) : (freeIssue i n s).bay j = s.bay j := by
  unfold freeIssue grants; rw [updBay_bay_ne _ _ hj, updBay_bay_ne _ _ hj]

theorem freeIssue_rest (i : Slot) (n : Nat) (s : State) : freeIssue i n s = { s with shelf := (freeIssue i n s).shelf } := rfl

theorem Regrant.role {b c : Bay} (h : Regrant b c) : c.role = b.role := by rw [h.eq]

theorem Regrant.media {b c : Bay} (h : Regrant b c) : c.media = b.media := by rw [h.eq]

theorem bump_eq (n : Nat) : bump n = if n < 65535 then n + 1 else n := by
  rfl

/-- What a capture changes: its count, the record by the mode, and DATA_ERROR (R149). -/
theorem takeCapture_eq (c : Capture) (s : State) : takeCapture c s = { s with
    integ := { s.integ with counts := s.integ.counts.add c.kind, capture := if s.ctl.tuning.captureLatest || s.integ.capture.isNone then some c else s.integ.capture }
    win := { s.win with events := { s.win.events with dataError := true } } } := by
  simp [takeCapture, raise, Events.set]

theorem noteMedia_other (x : Issued) (res : OpResult) (s : State) (h : ∀ f b, res ≠ .media f b) : noteMedia x res s = s := by
  cases res <;> first | rfl | exact absurd rfl (h _ _)

theorem noteMedia_media (x : Issued) (f : Nat) (bs) (s : State) : noteMedia x (.media f bs) s
    = captureAt (mediaKind x.op.kind) x.op.slot (mediaBlock x.op.kind f) (updBay x.op.slot (fun b => { b with media := bump b.media }) s) := rfl

theorem heard_other (x : Issued) (res : OpResult) (s : State) (h : ∀ f b, res ≠ .media f b) : x.heard res s = freeIssue x.op.slot x.op.id s := by
  unfold Issued.heard; rw [noteMedia_other x res s h, ite_self]

theorem told_other (x : Issued) (res : OpResult) (s : State) (h : ∀ f b, res ≠ .media f b) : x.told res s = s := by
  unfold Issued.told; rw [noteMedia_other x res s h, ite_self]

theorem heard_read (x : Issued) (res : OpResult) (s : State) (h : x.op.kind.isRead = true) : x.heard res s = freeIssue x.op.slot x.op.id s := by
  unfold Issued.heard; rw [if_pos h]

theorem told_read (x : Issued) (res : OpResult) (s : State) (h : x.op.kind.isRead = true) : x.told res s = noteMedia x res s := by
  unfold Issued.told; rw [if_pos h]

theorem heard_write (x : Issued) (res : OpResult) (s : State) (h : x.op.kind.isRead = false) : x.heard res s = freeIssue x.op.slot x.op.id (noteMedia x res s) := by
  unfold Issued.heard; rw [if_neg (by simp [h])]

theorem told_write (x : Issued) (res : OpResult) (s : State) (h : x.op.kind.isRead = false) : x.told res s = s := by
  unfold Issued.told; rw [if_neg (by simp [h])]

theorem captureAt_bay (k i b) (s : State) (j : Slot) : (captureAt k i b s).bay j = s.bay j := rfl

theorem media_bay (x : Issued) (k) (f : Nat) (s : State) (j : Slot) : ((captureAt k x.op.slot f (updBay x.op.slot (fun b => { b with media := bump b.media }) s)).bay j) = if j = x.op.slot then { s.bay j with media := bump (s.bay j).media } else s.bay j := by
  rw [captureAt_bay]
  by_cases hj : j = x.op.slot
  · rw [if_pos hj, hj]; exact updBay_bay_same _ _ _
  · rw [if_neg hj]; exact updBay_bay_ne _ _ hj

theorem noteMedia_role (x : Issued) (res : OpResult) (s : State) (j : Slot) : ((noteMedia x res s).bay j).role = (s.bay j).role := by
  by_cases h : ∃ f b, res = .media f b
  · obtain ⟨f, b, rfl⟩ := h
    rw [noteMedia_media, media_bay]; split <;> rfl
  · rw [noteMedia_other x res s (fun f b e => h ⟨f, b, e⟩)]

/-- An answer changes no role by being heard. -/
theorem heard_role (x : Issued) (res : OpResult) (s : State) (j : Slot) : ((x.heard res s).bay j).role = (s.bay j).role := by
  cases hr : x.op.kind.isRead
  · rw [heard_write x res s hr, (freeIssue_regrant _ _ _ j).role, noteMedia_role]
  · rw [heard_read x res s hr, (freeIssue_regrant _ _ _ j).role]

/-- An awaited answer reaches its owner. -/
theorem takeAnswer_of {s : State} {r : OpRef} {x : Issued} {o : Owner} (h : s.Awaits r x o) (res : OpResult) :
    takeAnswer o.kind r res s = x.told res (ownerEnd x.op res (x.heard res s)) := by
  have : s.awaited o.kind r = some x := by
    unfold State.awaited; rw [h.1]; simp [h.2]
  unfold takeAnswer; rw [this]; rfl


/-- A bay of another role does not fail (R132). -/
theorem failBay_other {i : Slot} {s : State} (h1 : (s.bay i).role ≠ .member) (h2 : (s.bay i).role ≠ .joining) : failBay i s = s := by
  unfold failBay
  have : ¬ ((s.bay i).role == .member || (s.bay i).role == .joining) = true := by simp [h1, h2]
  exact if_neg this

theorem resend_eq (i : Slot) (n : Nat) (f : Issued → Issued) (s : State) : resend i n f s = updBay i (fun b => { b with issued := b.issued.map (fun y => if y.op.id == n then { f y with sending := y.sending + 1 } else y) }) s := rfl

/-- A place of a fetch after it has been set. -/
theorem Fetch.put_at (f : Fetch) (c : Cell) (v : CellState) : (f.put c v).at c = some v := by
  unfold Fetch.put Fetch.at
  by_cases h : f.cells.any (·.1 == c) = true
  · rw [if_pos h, List.find?_map]
    obtain ⟨x, hx, hxc⟩ := List.any_eq_true.mp h
    have e : (fun x : Cell × CellState => x.1 == c) ∘ (fun x => if x.1 == c then (c, v) else x) = (fun x => x.1 == c) := by
      funext y
      by_cases hy : y.1 = c <;> simp [hy]
    simp only [e]
    cases hf : f.cells.find? (fun x => x.1 == c) with
    | none => exact absurd hxc (by simpa using List.find?_eq_none.mp hf x hx)
    | some y =>
      have := List.find?_some hf
      simp at this
      simp [this]
  · rw [if_neg h]
    have : f.cells.find? (fun x => x.1 == c) = none := by
      rw [List.find?_eq_none]
      intro x hx hxc
      exact h (List.any_eq_true.mpr ⟨x, hx, hxc⟩)
    simp [List.find?_append, this]

/-- The other places of a fetch stay. -/
theorem Fetch.put_other (f : Fetch) (c d : Cell) (v : CellState) (h : d ≠ c) : (f.put c v).at d = f.at d := by
  unfold Fetch.put Fetch.at
  have hcd : ¬ c = d := fun e => h e.symm
  split
  · rw [List.find?_map]
    have e : (fun x : Cell × CellState => x.1 == d) ∘ (fun x => if x.1 == c then (c, v) else x) = (fun x => x.1 == d) := by
      funext y
      by_cases hy : y.1 = c
      · simp [hy]
      · simp [hy]
    simp only [e]
    cases hf : f.cells.find? (fun x => x.1 == d) with
    | none => rfl
    | some y =>
      have := List.find?_some hf
      simp at this
      have h2 : ¬ y.1 = c := by rw [this]; exact h
      simp [h2]
  · simp [List.find?_append, hcd]

/-- What a tag error changes: the bay's count, the capture and DATA_ERROR (R142). -/
theorem tagErrorAt_frame (i : Slot) (k : Nat) (s : State) :
    ((tagErrorAt i k s).bay i).tagErrors = bump (s.bay i).tagErrors
    ∧ (tagErrorAt i k s).integ.counts = { s.integ.counts with memberTag := bump s.integ.counts.memberTag }
    ∧ (∀ j, j ≠ i → (tagErrorAt i k s).bay j = s.bay j)
    ∧ (tagErrorAt i k s).win = { s.win with events := { s.win.events with dataError := true } } := by
  have h := bay_upd (v := tagErrorAt i k s) (s := s) (i := i) (f := fun b => { b with tagErrors := bump b.tagErrors }) rfl
  exact ⟨by rw [h.1], rfl, h.2, rfl⟩

/-- No spare slot is free when each is taken (R151). -/
theorem freeSpare_none (b : Bay) (h : ∀ k, k < 8 → ∃ m ∈ b.remaps, m.spare = k) : b.freeSpare = none := by
  unfold Bay.freeSpare
  rw [List.find?_eq_none]
  intro k hk
  obtain ⟨m, hm, e⟩ := h k (List.mem_range.mp hk)
  simp only [Bool.not_eq_true', Bool.not_eq_false]
  simp
  exact ⟨m, hm, e⟩

/-- The lowest spare slot that no entry has (R152). -/
theorem freeSpare_some (b : Bay) (k : Nat) (hk : k < 8) (h1 : ∀ m ∈ b.remaps, m.spare ≠ k)
    (h2 : ∀ j, j < k → ∃ m ∈ b.remaps, m.spare = j) : b.freeSpare = some k := by
  unfold Bay.freeSpare
  rw [List.find?_range_eq_some]
  refine ⟨by simpa using h1, by simpa using hk, fun j hj => ?_⟩
  obtain ⟨m, hm, e⟩ := h2 j hj
  simp; exact ⟨m, hm, e⟩

/-- What handing operations to a bay leaves: its remap table and role, the other bays, and everything outside the shelf, the
integrity unit and the internal events. -/
structure Handed (i : Slot) (s t : State) : Prop where
  remaps : (t.bay i).remaps = (s.bay i).remaps
  role : (t.bay i).role = (s.bay i).role
  other : ∀ j, j ≠ i → t.bay j = s.bay j
  out : t.out = s.out
  port : t.port = s.port
  ctl : t.ctl = s.ctl
  win : t.win = s.win

theorem Handed.refl (i : Slot) (s : State) : Handed i s s := ⟨rfl, rfl, fun _ _ => rfl, rfl, rfl, rfl, rfl⟩

theorem Handed.trans {i : Slot} {s t u : State} (h : Handed i s t) (g : Handed i t u) : Handed i s u :=
  ⟨g.remaps.trans h.remaps, g.role.trans h.role, fun j hj => (g.other j hj).trans (h.other j hj), g.out.trans h.out, g.port.trans h.port,
    g.ctl.trans h.ctl, g.win.trans h.win⟩

theorem Handed.upd {i : Slot} {s : State} {f : Bay → Bay} (h : ∀ b : Bay, (f b).remaps = b.remaps ∧ (f b).role = b.role) : Handed i s (updBay i f s) := by
  have hb := bay_upd (v := updBay i f s) (s := s) (i := i) (f := f) rfl
  exact ⟨by rw [hb.1, (h _).1], by rw [hb.1, (h _).2], hb.2, rfl, rfl, rfl, rfl⟩

theorem Handed.shelf {i : Slot} {s t : State} (h : t.shelf.bays = s.shelf.bays) (h2 : t.out = s.out ∧ t.port = s.port ∧ t.ctl = s.ctl ∧ t.win = s.win) : Handed i s t := by
  have hb : ∀ j, t.bay j = s.bay j := fun j => by unfold State.bay; rw [h]
  exact ⟨by rw [hb], by rw [hb], fun j _ => hb j, h2.1, h2.2.1, h2.2.2.1, h2.2.2.2⟩

theorem refill_keeps_remaps (b : Bay) : (refill b).remaps = b.remaps ∧ (refill b).role = b.role := ⟨rfl, rfl⟩

theorem afterGrant_keeps_remaps (m : Option Bool) (b : Bay) : (afterGrant m b).remaps = b.remaps ∧ (afterGrant m b).role = b.role := by
  unfold afterGrant; split
  · exact ⟨rfl, rfl⟩
  · split <;> exact ⟨rfl, rfl⟩

theorem grantOne_keeps_remaps (pace : Nat) (b : Bay) : (grantOne pace b).remaps = b.remaps ∧ (grantOne pace b).role = b.role := by
  unfold grantOne
  split
  · split
    · exact ⟨rfl, rfl⟩
    · exact ⟨(refill_keeps_remaps _).1.trans (afterGrant_keeps_remaps _ _).1, (refill_keeps_remaps _).2.trans (afterGrant_keeps_remaps _ _).2⟩
  · exact ⟨rfl, rfl⟩

theorem grantBay_keeps_remaps (pace n : Nat) : ∀ b : Bay, (grantBay pace n b).remaps = b.remaps ∧ (grantBay pace n b).role = b.role := by
  induction n with
  | zero => intro b; exact ⟨rfl, rfl⟩
  | succ n ih =>
    intro b
    have h := ih (grantOne pace b)
    have g := grantOne_keeps_remaps pace b
    exact ⟨h.1.trans g.1, h.2.trans g.2⟩

theorem enqueue_handed (op : MemberOp) (s : State) : Handed op.slot s (enqueue op s) := by
  unfold enqueue
  dsimp only
  split
  · exact Handed.shelf rfl ⟨rfl, rfl, rfl, rfl⟩
  · refine Handed.trans (Handed.upd (f := waitIn op) fun b => ?_) (Handed.upd fun b => grantBay_keeps_remaps _ _ b)
    unfold waitIn; split <;> exact ⟨rfl, rfl⟩

theorem handData_handed (op : MemberOp) (s : State) : Handed op.slot s (handData op s) := by
  have e : (redirect s op).slot = op.slot := by
    unfold redirect; split
    · rfl
    · split <;> rfl
  unfold handData
  dsimp only
  generalize redirect s op = o at e
  rw [← e]
  have h1 : Handed o.slot s (strikeCovered o s) := by
    unfold strikeCovered; split
    · exact Handed.shelf rfl ⟨rfl, rfl, rfl, rfl⟩
    · exact Handed.refl _ _
  generalize strikeCovered o s = t at h1
  refine h1.trans ?_
  split
  · exact Handed.shelf rfl ⟨rfl, rfl, rfl, rfl⟩
  · have h2 : Handed o.slot t (noteRepair o t) := by
      unfold noteRepair; split
      · exact Handed.shelf rfl ⟨rfl, rfl, rfl, rfl⟩
      · exact Handed.refl _ _
    exact h2.trans (enqueue_handed _ _)

theorem handUnit_handed (i : Slot) (cls : OpClass) (unit row off : Nat) (kind : Nat → OpKind) (owner : Owner) (s : State) :
    Handed i s (handUnit i cls unit row off kind owner s) := by
  have h : Handed i s (takeOp s).2 := Handed.shelf rfl ⟨rfl, rfl, rfl, rfl⟩
  exact h.trans (handData_handed { id := (takeOp s).1, slot := i, cls := cls, kind := kind (Config.dataBase + row * unit + off), owner := owner, home := some (row, off) } _)

theorem fillReads_handed (f : Fill) (s : State) : Handed f.slot s (fillReads f s).1 := by
  unfold fillReads
  dsimp only
  have : ∀ (g : State × Fetch → Nat × Nat → State × Fetch), (∀ p r, Handed f.slot p.1 (g p r).1) → ∀ (l : List (Nat × Nat)) p, Handed f.slot p.1 (l.foldl g p).1 := by
    intro g hg l
    induction l with
    | nil => intro p; exact Handed.refl _ _
    | cons r l ih => intro p; exact (hg p r).trans (ih _)
  refine this _ ?_ _ (s, f.fetch)
  intro p r
  dsimp only
  exact handUnit_handed ..

/-- Taking a unit's waiting operations back leaves tables and roles (R153). -/
theorem recall_handed (i : Slot) (row : Nat) (s : State) : Handed i s (recallUnit i row s) := by
  have h := Handed.upd (i := i) (s := s) (f := fun b => refill
    { b with
      wait := b.wait.filter (fun o => !(s.rowsOf o).contains row)
      backlog := b.backlog.filter (fun o => !(s.rowsOf o).contains row) }) fun b => ⟨rfl, rfl⟩
  exact ⟨h.remaps, h.role, h.other, rfl, rfl, rfl, rfl⟩

theorem Handed.fills {i j : Slot} {s u : State} {e : Ev} {x : IntegrityUnit} (hij : j = i) (h : Handed j s u) : Handed i s (push e { u with integ := x }) := by
  subst hij
  exact ⟨h.remaps, h.role, h.other, h.out, h.port, h.ctl, h.win⟩

end Sys2Proof.Machine
end

