-- ==== Sys2Proof/Laws/Directives.lean ====
section
/-! SUPPORT. Directive commands at a state that accepts them: what the placing, the taking and the completion come to. -/

namespace Sys2Proof.Machine

/-- A directive command is the arrival of the directive it carries (R189, R194). -/
theorem exec_carried {c : Instr} {tag : Tag} {d : Directive} {s : State} (h : carried c = some (tag, d)) :
    exec c s = .next (settle (directiveArrival tag d s)) := by
  cases c <;> simp only [carried, Option.some.injEq, Prod.mk.injEq, reduceCtorEq] at h
  all_goals obtain ⟨rfl, rfl⟩ := h; rfl

theorem refusal12_of_accepts {s : State} {tag : Tag} (h : s.Accepts tag) : s.refusal12 tag false = none := by
  simp [State.refusal12, h.room, h.fresh]

/-- A directive placed in an empty slot is taken by the first rule that applies (R191, R192; log entry 5). -/
theorem firstRule_placed {s : State} {d : Directive} (h : s.Settled) (hc : s.win.current = none) :
    firstRule rules (placeDirective d (acceptPassing s)) = some (takeDirective d (s.holding d)) := by
  unfold State.Settled at h
  rw [firstRule_eq_none] at h
  simp only [rules, List.mem_cons, List.not_mem_nil, or_false, forall_eq_or_imp, forall_eq] at h
  have hp : placeDirective d (acceptPassing s)
      = s.aside s.pending s.out (s.port.nextArrival + 1) { s.win with current := some d, taken := false }
          s.integ.capture s.integ.counts := by
    simp only [placeDirective, acceptPassing, hc, State.aside]
  rw [hp]
  simp only [rules, firstRule, ruleTodo_aside h.1, ruleBand_aside h.2.1]
  rfl

/-- A directive that arrives at an empty slot: it is taken, what follows comes about, and its write completes GOOD
(R189, R191, R192). -/
theorem exec_ready {c : Instr} {tag : Tag} {d : Directive} {s : State} (h : carried c = some (tag, d)) (r : s.Ready tag) :
    exec c s = .next (afterDirective tag (takeDirective d (s.holding d))) := by
  rw [exec_carried h]
  simp only [directiveArrival, refusal12_of_accepts r.toAccepts, directiveWrite, afterDirective]
  rw [show settle (placeDirective d (acceptPassing s))
      = settleFor (settleBound - 1) (takeDirective d (s.holding d)) from
    settleFor_step (m := 999999) (firstRule_placed r.settled r.current)]

/-- Where nothing follows from what a directive left, its completion is all that is added. -/
theorem afterDirective_settled {u : State} (tag : Tag) (h : firstRule rules u = none) (hc : u.win.current = none) :
    afterDirective tag u = send tag .good none [] u := by
  have h1 : settleFor (settleBound - 1) u = u := by
    show settleFor (999998 + 1) u = u
    simp only [settleFor, h]
  rw [afterDirective, h1]
  refine settle_of_settled ?_
  exact settled_aside (s := u) (p := u.pending) (o := u.out ++ _) (a := u.port.nextArrival) (w := u.win)
    (k := u.integ.capture) (n := u.integ.counts) h (Or.inl hc)

/-- A directive that only reports leaves a settled state settled. -/
theorem reporting_settled {s : State} (h : s.Settled) (d : Directive) (o : DirOutcome) :
    firstRule rules (s.reporting d o) = none :=
  settled_aside (s := s) (p := s.pending) (o := s.out) (a := s.port.nextArrival + 1) (k := s.integ.capture)
    (n := s.integ.counts) h (Or.inl rfl)

/-- The finish of the directive that is held, with nothing pending behind it (R192, R193). -/
theorem finish_holding {s : State} (d : Directive) (o : DirOutcome) (h : s.win.waiting = none) :
    finishDirective o (s.holding d) = s.reporting d o := by
  simp only [finishDirective, State.holding, State.reporting, h]

/-- Outside assembly a directive of code 1 to 15 goes to its owner (R192, R194). -/
theorem takeDirective_owner {s : State} {d : Directive} (ht : s.win.taken = true) (h1 : d.code.toNat ≠ 0)
    (h2 : d.code.toNat < 16) (hv : s.ctl.volume ≠ .assembling) :
    takeDirective d s = (match takeByCode d s with
      | (t, some o) => finishDirective o t
      | (t, none) => t) := by
  unfold takeDirective
  have e : { s with win := { s.win with taken := true } } = s := by
    cases s with
    | mk pending todo out port locks holds mover mark plan shelf integ ctl win asm =>
      cases win; simp_all
  simp only [e]
  rw [if_neg (by simp; omega), if_neg (by simp; omega), if_neg (by simpa using hv)]
  all_goals rfl

/-- A directive of code 1 to 15 that arrives at an empty slot outside assembly is taken by its owner (R191, R192, R194). -/
theorem exec_owner {c : Instr} {tag : Tag} {d : Directive} {s : State} (h : carried c = some (tag, d)) (r : s.Ready tag)
    (h1 : d.code.toNat ≠ 0) (h2 : d.code.toNat < 16) (hv : s.ctl.volume ≠ .assembling) :
    exec c s = .next (afterDirective tag (match takeByCode d (s.holding d) with
      | (t, some o) => finishDirective o t
      | (t, none) => t)) := by
  rw [exec_ready h r, takeDirective_owner (s := s.holding d) rfl h1 h2 hv]

/-- A directive of code 1 to 15 that its owner refuses changes nothing but the result record (R192, R193). -/
theorem exec_refused {c : Instr} {tag : Tag} {d : Directive} {s : State} (h : carried c = some (tag, d)) (r : s.Ready tag)
    (h1 : d.code.toNat ≠ 0) (h2 : d.code.toNat < 16) (hv : s.ctl.volume ≠ .assembling) (o : DirOutcome)
    (ho : takeByCode d (s.holding d) = (s.holding d, some o)) :
    exec c s = .next (send tag .good none [] (s.reporting d o)) := by
  rw [exec_owner h r h1 h2 hv, ho]
  simp only [finish_holding d o r.waiting]
  rw [afterDirective_settled tag (reporting_settled r.settled d o) rfl]

end Sys2Proof.Machine
end

