-- ==== Sys2Proof/Laws/Quiet.lean ====
section
/-! SUPPORT. Settling with no directive in the slot: the relation Keeps as a whole, the window unit's directive slot, result,
mask, selector and overwrite count and the tuning values staying as they are. -/

namespace Sys2Proof.Machine

theorem finishDirective_none {s : State} (o : DirOutcome) (h : s.win.current = none) : finishDirective o s = s := by
  unfold finishDirective
  simp only [h]

theorem Keeps.current {s t : State} (h : Keeps s t) (hc : s.win.current = none) : t.win.current = none := by
  rw [h.window]; exact hc

theorem serveCauses_quiet {s : State} (f : Flight) (h : s.win.current = none) : Keeps s (serveCauses f s) := by
  unfold serveCauses
  dsimp only
  refine wakeRows_keeps ?_
  have h2 : Keeps s ((s.mark.causes.filter (Cause.satisfied f)).filterMap (·.kind.planWrite)
        |>.foldl (fun s w => tellPlan f.generation w s) (retireMarked f (releaseHolds (({ s with mark := { s.mark with causes := s.mark.causes.filter (fun c => !Cause.satisfied f c), losses := s.mark.losses.filter (fun x => !x.2), judgeBand := true } } : State).labelReleases f) { s with mark :=
    { s.mark with
      causes := s.mark.causes.filter (fun c => !Cause.satisfied f c)
      losses := s.mark.losses.filter (fun x => !x.2), judgeBand := true } }))) :=
    foldl_keeps _ (fun s w hs => tellPlan_keeps _ _ hs) _ _
      (retireMarked_keeps f (releaseHolds_keeps _ (keeps_mk.mpr ((Keeps.refl s).parts rfl rfl))))
  split
  · rw [finishDirective_none _ (h2.current h)]
    exact h2
  · exact h2

theorem ruleLabelDone_quiet {s t : State} (h : s.win.current = none) (e : ruleLabelDone s = some t) : Keeps s t := by
  unfold ruleLabelDone at e
  split at e
  · cases e
  · rename_i f _
    split at e
    · obtain rfl := Option.some.inj e
      have ha : Keeps s (adoptLabel f s) := adoptLabel_keeps _ (Keeps.refl _)
      split
      · exact serveAssembly_keeps ha
      · exact ha.trans (serveCauses_quiet _ (ha.current h))
    · cases e

theorem rules_quiet {s : State} (h : s.win.current = none) : ∀ r ∈ rules, ∀ t, r s = some t → Keeps s t := by
  simp only [rules, List.mem_cons, List.not_mem_nil, or_false, forall_eq_or_imp, forall_eq]
  exact ⟨fun _ e => ruleTodo_keeps (Keeps.refl _) e,
    fun _ e => ruleBand_keeps (Keeps.refl _) e,
    fun _ e => absurd ((ruleTake_none (Or.inl h)).symm.trans e) (by simp),
    fun _ e => ruleGrant_keeps (Keeps.refl _) e,
    fun _ e => ruleQueued_keeps (Keeps.refl _) e,
    fun _ e => ruleLabelDone_quiet h e,
    fun _ e => rulePlaced_keeps (Keeps.refl _) e,
    fun _ e => ruleRecordDone_keeps (Keeps.refl _) e,
    fun _ e => ruleInstalled_keeps (Keeps.refl _) e,
    fun _ e => ruleRest_keeps (Keeps.refl _) e,
    fun _ e => ruleLostPaused_keeps (Keeps.refl _) e,
    fun _ e => ruleDrop_keeps (Keeps.refl _) e,
    fun _ e => ruleClosing_keeps (Keeps.refl _) e,
    fun _ e => rulePlanEnd_keeps (Keeps.refl _) e,
    fun _ e => ruleWaiting_keeps (Keeps.refl _) e,
    fun _ e => ruleFetch_keeps (Keeps.refl _) e,
    fun _ e => ruleRecopy_keeps (Keeps.refl _) e,
    fun _ e => ruleFreeze_keeps (Keeps.refl _) e,
    fun _ e => ruleDecide_keeps (Keeps.refl _) e,
    fun _ e => ruleSpill_keeps (Keeps.refl _) e,
    fun _ e => ruleSpillRecord_keeps (Keeps.refl _) e,
    fun _ e => rulePlace_keeps (Keeps.refl _) e,
    fun _ e => ruleLabel_keeps (Keeps.refl _) e,
    fun _ e => ruleFreeSlot_keeps (Keeps.refl _) e,
    fun _ e => ruleBegin_keeps (Keeps.refl _) e,
    fun _ e => ruleRecord_keeps (Keeps.refl _) e,
    fun _ e => ruleArea_keeps (Keeps.refl _) e,
    fun _ e => ruleFlush_keeps (Keeps.refl _) e,
    fun _ e => ruleDrained_keeps (Keeps.refl _) e,
    fun _ e => ruleScan_keeps (Keeps.refl _) e,
    fun _ e => ruleChoice_keeps (Keeps.refl _) e,
    fun _ e => ruleLoading_keeps (Keeps.refl _) e,
    fun _ e => ruleRecords_keeps (Keeps.refl _) e,
    fun _ e => ruleColumns_keeps (Keeps.refl _) e,
    fun _ e => ruleRestored_keeps (Keeps.refl _) e,
    fun _ e => ruleAssemblyEnd_keeps (Keeps.refl _) e,
    fun _ e => ruleSuspend_keeps (Keeps.refl _) e⟩

theorem firstRule_quiet {s t : State} : ∀ rs : List (State → Option State),
    (∀ r ∈ rs, ∀ u, r s = some u → Keeps s u) → firstRule rs s = some t → Keeps s t
  | [], _, e => by cases e
  | r :: rs, hr, e => by
    unfold firstRule at e
    split at e
    · rename_i u hu
      obtain rfl := Option.some.inj e
      exact hr r (by simp) _ hu
    · exact firstRule_quiet rs (fun q hq => hr q (by simp [hq])) e

theorem settleFor_quiet (n : Nat) : ∀ {s : State}, s.win.current = none → Keeps s (settleFor n s) := by
  induction n with
  | zero => intro s _; exact Keeps.refl s
  | succ n ih =>
    intro s h
    unfold settleFor
    split
    · exact Keeps.refl s
    · have hk := firstRule_quiet rules (rules_quiet h) ‹_›
      exact hk.trans (ih (hk.current h))

/-- What follows at an event with no directive in the slot. -/
theorem settle_quiet {s : State} (h : s.win.current = none) : Keeps s (settle s) := settleFor_quiet settleBound h

end Sys2Proof.Machine
end

