-- ==== Sys2Proof/Laws/Commands.lean ====
section
/-! SUPPORT. What a command as a whole can do to the queue, the completions, the request table, the row lock table, the
overwrite count and the tuning values: the relation Grows. -/

namespace Sys2Proof.Machine

/-- What one command leaves: the queue, the completions as a prefix, numbers that only rise, at most one new entry, with a
fresh tag, room for it and the next arrival number, and bounds kept. -/
structure Grows (s t : State) : Prop where
  pending : t.pending = s.pending
  out     : s.out <+: t.out
  ops     : s.shelf.nextOp ≤ t.shelf.nextOp
  arrival : s.port.nextArrival ≤ t.port.nextArrival
  entries : (t.port.entries.map Entry.key).Sublist (s.port.entries.map Entry.key)
    ∨ ∃ tag, s.busy = false ∧ s.tagUsed tag = false ∧ s.port.nextArrival < t.port.nextArrival
        ∧ (t.port.entries.map Entry.key).Sublist (s.port.entries.map Entry.key ++ [(tag, s.port.nextArrival)])
  locks   : t.locks.entries.length ≤ max Config.maxLocks s.locks.entries.length
  lost    : t.win.overwrites ≤ max Config.counterTop s.win.overwrites
  tuning  : s.ctl.tuning.Legal → t.ctl.tuning.Legal

theorem Flows.grows {s t : State} (h : Flows s t) : Grows s t :=
  ⟨h.pending, h.out, h.ops, h.arrival, Or.inl h.tags, h.locks, by rw [h.lost]; exact le_max_right _ _, h.tuning⟩

theorem Grows.step {s t u : State} (h : Grows s t) (g : Flows t u) : Grows s u where
  pending := g.pending.trans h.pending
  out := h.out.trans g.out
  ops := h.ops.trans g.ops
  arrival := h.arrival.trans g.arrival
  entries := by
    rcases h.entries with h1 | ⟨tag, h1, h2, h3, h4⟩
    · exact Or.inl (g.tags.trans h1)
    · exact Or.inr ⟨tag, h1, h2, lt_of_lt_of_le h3 g.arrival, g.tags.trans h4⟩
  locks := by have := h.locks; have := g.locks; omega
  lost := by rw [g.lost]; exact h.lost
  tuning := fun l => g.tuning (h.tuning l)

theorem Grows.settle {s t : State} (h : Grows s t) : Grows s (settle t) := h.step (settle_flows t)

theorem send_grows {s t : State} (g : Tag) (st : Status) (fl : Option Nat) (d : List Block) (h : Grows s t) :
    Grows s (send g st fl d t) := h.step (send_keeps _ _ _ _ (Keeps.refl t)).flows

/-- A window access that is finished at once takes an arrival number (R23). -/
theorem acceptPassing_grows (s : State) : Grows s (acceptPassing s) :=
  ⟨rfl, List.prefix_rfl, le_rfl, Nat.le_succ _, Or.inl (List.Sublist.refl _), le_max_right _ _, le_max_right _ _, id⟩

/-- An accepted request takes one entry with a fresh tag (R22). -/
theorem accept_grows {s : State} {tag : Tag} (k : ReqKind) (lba count : Nat) (bs : List Block) (st : ReqState)
    (hb : s.busy = false) (ht : s.tagUsed tag = false) : Grows s (accept tag k lba count bs st s) :=
  ⟨rfl, List.prefix_rfl, le_rfl, Nat.le_succ _,
   Or.inr ⟨tag, hb, ht, Nat.lt_succ_self _, by simp [accept, Entry.key]⟩, le_max_right _ _, le_max_right _ _, id⟩

theorem refusal12_none {s : State} {tag : Tag} {bad : Bool} (h : s.refusal12 tag bad = none) :
    s.busy = false ∧ s.tagUsed tag = false ∧ bad = false := by
  unfold State.refusal12 at h
  split at h
  · cases h
  · split at h
    · cases h
    · rename_i h1 h2
      simp only [Bool.not_eq_true, Bool.or_eq_false_iff] at h1 h2
      exact ⟨h1, h2⟩

theorem takeCapture_grows {s t : State} (c : Capture) (h : Grows s t) : Grows s (takeCapture c t) :=
  h.step (takeCapture_keeps _ (Keeps.refl t)).flows

theorem readArrival_grows (tag : Tag) (lba count : Nat) (s : State) : Grows s (readArrival tag lba count s) := by
  unfold readArrival
  split
  · exact send_grows _ _ _ _ (Flows.refl s).grows
  · rename_i h
    obtain ⟨hb, ht, -⟩ := refusal12_none h
    split
    · exact send_grows _ _ _ _ (Flows.refl s).grows
    · exact send_grows _ _ _ _ (acceptPassing_grows s)
    · split
      · exact send_grows _ _ _ _ (Flows.refl s).grows
      · exact (accept_grows _ _ _ _ _ hb ht).step (enterPath_keeps _ (Keeps.refl _)).flows

theorem flushArrival_grows (tag : Tag) (s : State) : Grows s (flushArrival tag s) := by
  unfold flushArrival
  split
  · exact send_grows _ _ _ _ (Flows.refl s).grows
  · rename_i h
    obtain ⟨hb, ht, -⟩ := refusal12_none h
    split
    · exact send_grows _ _ _ _ (Flows.refl s).grows
    · exact accept_grows _ _ _ _ _ hb ht

theorem placeDirective_grows {s t : State} (d : Directive) (h : Grows s t) : Grows s (placeDirective d t) := by
  unfold placeDirective
  split
  · exact h.step ((Flows.refl t).window rfl)
  · exact h.step ((Flows.refl t).window rfl)
  · refine ⟨h.pending, h.out, h.ops, h.arrival, h.entries, h.locks, ?_, h.tuning⟩
    have := h.lost
    show bump t.win.overwrites ≤ _
    unfold bump
    split
    · exact le_trans (by omega) (le_max_left _ _)
    · exact this

theorem directiveWrite_grows {s t : State} (tag : Tag) (d : Directive) (h : Grows s (acceptPassing t)) :
    Grows s (directiveWrite tag d t) := send_grows _ _ _ _ (placeDirective_grows d h).settle

theorem directiveArrival_grows (tag : Tag) (d : Directive) (s : State) : Grows s (directiveArrival tag d s) := by
  unfold directiveArrival
  split
  · exact send_grows _ _ _ _ (Flows.refl s).grows
  · exact directiveWrite_grows _ _ (acceptPassing_grows s)

theorem pageArrival_grows {s : State} (tag : Tag) (lba : Nat) (bs : List Block) (hb : s.busy = false)
    (ht : s.tagUsed tag = false) : Grows s (pageArrival tag lba bs s) := by
  unfold pageArrival
  dsimp only
  have h := accept_grows (s := s) (tag := tag) .page lba bs.length bs .window hb ht
  split
  · exact h.step (keeps_mk.mpr ((Keeps.refl _).parts rfl rfl)).flows
  · exact h.step (takePage_keeps _ (Keeps.refl _)).flows

theorem writeArrival_grows (tag : Tag) (lba : Nat) (bs : List Block) (s : State) : Grows s (writeArrival tag lba bs s) := by
  unfold writeArrival
  dsimp only
  split
  · exact send_grows _ _ _ _ (Flows.refl s).grows
  · rename_i h
    obtain ⟨hb, ht, -⟩ := refusal12_none h
    split
    · exact send_grows _ _ _ _ (Flows.refl s).grows
    · exact send_grows _ _ _ _ (takeCapture_grows _ (Flows.refl s).grows)
    · unfold windowWrite
      split
      · exact directiveWrite_grows _ _ (acceptPassing_grows s)
      · split
        · exact pageArrival_grows _ _ _ hb ht
        · exact send_grows _ _ _ _ (acceptPassing_grows s)
    · split
      · exact send_grows _ _ _ _ (Flows.refl s).grows
      · exact (accept_grows _ _ _ _ _ hb ht).step (enterPath_keeps _ (Keeps.refl _)).flows

theorem linkDownAt_keeps (p : Port) (s : State) : Keeps s (linkDownAt p s) :=
  foldl_keeps _ (fun _ i hs => depart_keeps i hs) _ _ (keeps_mk.mpr ((Keeps.refl s).parts rfl rfl))

theorem linkUpAt_keeps (p : Port) (bays : List (Fin 16)) (s : State) : Keeps s (linkUpAt p bays s) :=
  foldl_keeps _ (fun _ b hs => arrival_keeps (slotOf p b) hs) _ _ (keeps_mk.mpr ((Keeps.refl s).parts rfl rfl))

/-- Every command but power-on grows the state. -/
theorem exec_grows (c : Instr) (s : State) (h : c ≠ .powerOn) : ∃ t, exec c s = .next t ∧ Grows s t := by
  cases c with
  | powerOn => exact absurd rfl h
  | volumeLinkReset => exact ⟨_, rfl, (linkReset_holds (Holds.refl s)).flows.grows.settle⟩
  | readRequest tag lba count => exact ⟨_, rfl, (readArrival_grows tag lba count s).settle⟩
  | writeRequest tag lba bs => exact ⟨_, rfl, (writeArrival_grows tag lba bs s).settle⟩
  | planPageWrite tag i bs => exact ⟨_, rfl, (writeArrival_grows tag (Config.windowBase + 64 + i) bs s).settle⟩
  | windowWriteRefused tag i bs => exact ⟨_, rfl, (writeArrival_grows tag (Config.windowBase + i) bs s).settle⟩
  | flushRequest tag => exact ⟨_, rfl, (flushArrival_grows tag s).settle⟩
  | bayArrival i => exact ⟨_, rfl, (arrival_keeps i (Keeps.refl s)).flows.grows.settle⟩
  | bayDeparture i => exact ⟨_, rfl, (depart_keeps i (Keeps.refl s)).flows.grows.settle⟩
  | linkDown p => exact ⟨_, rfl, (linkDownAt_keeps p s).flows.grows.settle⟩
  | linkUp p bays => exact ⟨_, rfl, (linkUpAt_keeps p bays s).flows.grows.settle⟩
  | memberOpTimeout r => exact ⟨_, rfl, (expire_keeps r (Keeps.refl s)).flows.grows.settle⟩
  | memberFlushEnd r a => exact ⟨_, rfl, (takeFlushAnswer_keeps r _ (Keeps.refl s)).flows.grows.settle⟩
  | drainedOperationEnd r => exact ⟨_, rfl, (takeDrained_keeps r (Keeps.refl s)).flows.grows.settle⟩
  | unknownDirective tag code a => exact ⟨_, exec_carried rfl, (directiveArrival_grows _ _ s).settle⟩
  | selectBay tag a => exact ⟨_, exec_carried rfl, (directiveArrival_grows _ _ s).settle⟩
  | startChain tag a => exact ⟨_, exec_carried rfl, (directiveArrival_grows _ _ s).settle⟩
  | holdChain tag a => exact ⟨_, exec_carried rfl, (directiveArrival_grows _ _ s).settle⟩
  | releaseChain tag a => exact ⟨_, exec_carried rfl, (directiveArrival_grows _ _ s).settle⟩
  | pause tag a => exact ⟨_, exec_carried rfl, (directiveArrival_grows _ _ s).settle⟩
  | resume tag a => exact ⟨_, exec_carried rfl, (directiveArrival_grows _ _ s).settle⟩
  | dropPlan tag a => exact ⟨_, exec_carried rfl, (directiveArrival_grows _ _ s).settle⟩
  | stopChain tag a => exact ⟨_, exec_carried rfl, (directiveArrival_grows _ _ s).settle⟩
  | setTuning tag a => exact ⟨_, exec_carried rfl, (directiveArrival_grows _ _ s).settle⟩
  | clearEvents tag a => exact ⟨_, exec_carried rfl, (directiveArrival_grows _ _ s).settle⟩
  | setAttention tag a => exact ⟨_, exec_carried rfl, (directiveArrival_grows _ _ s).settle⟩
  | clearCapture tag a => exact ⟨_, exec_carried rfl, (directiveArrival_grows _ _ s).settle⟩
  | failMember tag a => exact ⟨_, exec_carried rfl, (directiveArrival_grows _ _ s).settle⟩
  | keepRemaps tag a => exact ⟨_, exec_carried rfl, (directiveArrival_grows _ _ s).settle⟩
  | clearHalt tag a => exact ⟨_, exec_carried rfl, (directiveArrival_grows _ _ s).settle⟩
  | restart tag a => exact ⟨_, exec_carried rfl, (directiveArrival_grows _ _ s).settle⟩
  | hostReadMemberEnd r a => exact ⟨_, rfl, (takeAnswer_keeps _ r _ (Keeps.refl s)).flows.grows.settle⟩
  | hostWriteMemberReadEnd r a => exact ⟨_, rfl, (takeAnswer_keeps _ r _ (Keeps.refl s)).flows.grows.settle⟩
  | hostWriteMemberWriteEnd r a => exact ⟨_, rfl, (takeAnswer_keeps _ r _ (Keeps.refl s)).flows.grows.settle⟩
  | gatherReadEnd r a => exact ⟨_, rfl, (takeAnswer_keeps _ r _ (Keeps.refl s)).flows.grows.settle⟩
  | spillColumnWriteEnd r a => exact ⟨_, rfl, (takeAnswer_keeps _ r _ (Keeps.refl s)).flows.grows.settle⟩
  | spillRecordWriteEnd r a => exact ⟨_, rfl, (takeAnswer_keeps _ r _ (Keeps.refl s)).flows.grows.settle⟩
  | placeWriteEnd r a => exact ⟨_, rfl, (takeAnswer_keeps _ r _ (Keeps.refl s)).flows.grows.settle⟩
  | labelMemberWriteEnd r a => exact ⟨_, rfl, (takeAnswer_keeps _ r _ (Keeps.refl s)).flows.grows.settle⟩
  | planTableCopyEnd r a => exact ⟨_, rfl, (takeAnswer_keeps _ r _ (Keeps.refl s)).flows.grows.settle⟩
  | planAreaWriteEnd r a => exact ⟨_, rfl, (takeAnswer_keeps _ r _ (Keeps.refl s)).flows.grows.settle⟩
  | releasedLabelWriteEnd r a => exact ⟨_, rfl, (takeAnswer_keeps _ r _ (Keeps.refl s)).flows.grows.settle⟩
  | inquireEnd r a => exact ⟨_, rfl, (takeAnswer_keeps _ r _ (Keeps.refl s)).flows.grows.settle⟩
  | labelReadEnd r a => exact ⟨_, rfl, (takeAnswer_keeps _ r _ (Keeps.refl s)).flows.grows.settle⟩
  | planAreaReadEnd r a => exact ⟨_, rfl, (takeAnswer_keeps _ r _ (Keeps.refl s)).flows.grows.settle⟩
  | spillRecordReadEnd r a => exact ⟨_, rfl, (takeAnswer_keeps _ r _ (Keeps.refl s)).flows.grows.settle⟩
  | spillColumnReadEnd r a => exact ⟨_, rfl, (takeAnswer_keeps _ r _ (Keeps.refl s)).flows.grows.settle⟩
  | restorePlaceWriteEnd r a => exact ⟨_, rfl, (takeAnswer_keeps _ r _ (Keeps.refl s)).flows.grows.settle⟩
  | assemblyLabelWriteEnd r a => exact ⟨_, rfl, (takeAnswer_keeps _ r _ (Keeps.refl s)).flows.grows.settle⟩
  | writeBackEnd r a => exact ⟨_, rfl, (takeAnswer_keeps _ r _ (Keeps.refl s)).flows.grows.settle⟩
  | fillReadEnd r a => exact ⟨_, rfl, (takeAnswer_keeps _ r _ (Keeps.refl s)).flows.grows.settle⟩
  | spareSlotWriteEnd r a => exact ⟨_, rfl, (takeAnswer_keeps _ r _ (Keeps.refl s)).flows.grows.settle⟩

end Sys2Proof.Machine
end

