-- ==== Sys2Proof/Laws/Fits.lean ====
section
/-! SUPPORT. The invariant Fit under record updates, iteration and the named updates. -/

namespace Sys2Proof.Machine

/-- Fit in the parts of the state it speaks of. -/
structure FitParts (bays : Vector Bay 64) (counts : CaptureCounts) (state : EngineState) (latch : Bool)
    (saved pausedFrom : Option EngineState) : Prop where
  eachBay : ∀ i : Fin 64, (bays[i.val]).Fit
  tops    : counts.Fit
  law     : LatchLaw state latch saved pausedFrom

theorem State.Fit.parts {s : State} (h : s.Fit) :
    FitParts s.shelf.bays s.integ.counts s.ctl.state s.ctl.latch s.ctl.saved s.ctl.pausedFrom := ⟨h.bays, h.counts, h.ctl⟩

theorem fit_mk {pending todo out port locks holds mover mark plan shelf integ ctl win asm} :
    State.Fit (State.mk pending todo out port locks holds mover mark plan shelf integ ctl win asm)
      ↔ FitParts shelf.bays integ.counts ctl.state ctl.latch ctl.saved ctl.pausedFrom :=
  ⟨fun h => ⟨h.bays, h.counts, h.ctl⟩, fun h => ⟨h.eachBay, h.tops, h.law⟩⟩

theorem bay_fit_mk {present readiness reference ident labelFound label role position incoming media tagErrors timeouts
    remaps wait backlog issued contest moverCount scanDue} :
    Bay.Fit (Bay.mk present readiness reference ident labelFound label role position incoming media tagErrors timeouts
      remaps wait backlog issued contest moverCount scanDue)
      ↔ BayBounds media tagErrors timeouts issued.length contest moverCount := Iff.rfl

theorem Bay.Fit.bounds {b : Bay} (h : b.Fit) :
    BayBounds b.media b.tagErrors b.timeouts b.issued.length b.contest b.moverCount := h

/-! ### Iteration -/

theorem foldl_fit {α : Type} (f : State → α → State) (hf : ∀ s a, s.Fit → (f s a).Fit) (l : List α) :
    ∀ s, s.Fit → (l.foldl f s).Fit := by
  induction l with
  | nil => intro s h; exact h
  | cons a l ih => intro s h; exact ih _ (hf s a h)

theorem foldl_fst_fit {α β : Type} (f : State × β → α → State × β) (hf : ∀ p a, p.1.Fit → (f p a).1.Fit) (l : List α) :
    ∀ p, p.1.Fit → (l.foldl f p).1.Fit := by
  induction l with
  | nil => intro s h; exact h
  | cons a l ih => intro s h; exact ih _ (hf s a h)

/-! ### Counters (R120, R148) -/

theorem bump_le {n : Nat} (h : n ≤ Config.counterTop) : bump n ≤ Config.counterTop := by
  unfold bump; split <;> omega

theorem counts_add_fit {c : CaptureCounts} (k : CaptureKind) (h : c.Fit) : (c.add k).Fit := by
  obtain ⟨h1, h2, h3, h4, h5, h6⟩ := h
  cases k <;> exact ⟨by first | exact bump_le h1 | exact h1, by first | exact bump_le h2 | exact h2,
    by first | exact bump_le h3 | exact h3, by first | exact bump_le h4 | exact h4,
    by first | exact bump_le h5 | exact h5, by first | exact bump_le h6 | exact h6⟩

/-! ### Bays -/

theorem setBay_fit {s : State} (i : Slot) (b : Bay) (hb : b.Fit) (h : s.Fit) : (s.setBay i b).Fit := by
  refine ⟨fun j => ?_, h.counts, h.ctl⟩
  by_cases hij : i.val = j.val
  · have : (s.setBay i b).bay j = b := by
      unfold State.setBay State.bay
      exact (Vector.getElem_set i.isLt j.isLt).trans (if_pos hij)
    rw [this]; exact hb
  · have : (s.setBay i b).bay j = s.bay j := by
      unfold State.setBay State.bay
      exact (Vector.getElem_set i.isLt j.isLt).trans (if_neg hij)
    rw [this]; exact h.bays j

theorem updBay_fit {s : State} (i : Slot) (f : Bay → Bay) (hf : ∀ b, b.Fit → (f b).Fit) (h : s.Fit) :
    (updBay i f s).Fit := setBay_fit i _ (hf _ (h.bays i)) h

theorem updAllBays_fit {s : State} (f : Bay → Bay) (hf : ∀ b, b.Fit → (f b).Fit) (h : s.Fit) :
    (updAllBays f s).Fit := by
  refine ⟨fun j => ?_, h.counts, h.ctl⟩
  have : (updAllBays f s).bay j = f (s.bay j) := by
    unfold updAllBays State.bay
    exact Vector.getElem_map ..
  rw [this]; exact hf _ (h.bays j)

/-! ### The named updates -/

theorem raise_fit {s : State} (e : Event) (h : s.Fit) : (raise e s).Fit := ⟨h.bays, h.counts, h.ctl⟩

theorem send_fit {s : State} (g : Tag) (st : Status) (fl : Option Nat) (d : List Block) (h : s.Fit) :
    (send g st fl d s).Fit := ⟨h.bays, h.counts, h.ctl⟩

theorem push_fit {s : State} (e : Ev) (h : s.Fit) : (push e s).Fit := ⟨h.bays, h.counts, h.ctl⟩

theorem takeCapture_fit {s : State} (c : Capture) (h : s.Fit) : (takeCapture c s).Fit :=
  ⟨h.bays, counts_add_fit _ h.counts, h.ctl⟩

theorem captureAt_fit {s : State} (k : CaptureKind) (i : Slot) (b : Nat) (h : s.Fit) : (captureAt k i b s).Fit :=
  takeCapture_fit _ h

theorem tagErrorAt_fit {s : State} (i : Slot) (b : Nat) (h : s.Fit) : (tagErrorAt i b s).Fit :=
  captureAt_fit _ _ _ (updBay_fit _ _ (fun _ hb => ⟨hb.mediaTop, bump_le hb.tagTop, hb.timeTop, hb.slots, hb.cycle,
    hb.share⟩) h)

theorem updReq_fit {s : State} (a : Nat) (f : Entry → Entry) (h : s.Fit) : (updReq a f s).Fit :=
  ⟨h.bays, h.counts, h.ctl⟩

theorem freeEntry_fit {s : State} (a : Nat) (h : s.Fit) : (freeEntry a s).Fit := ⟨h.bays, h.counts, h.ctl⟩

theorem updLocks_fit {s : State} (f : LockEntry → LockEntry) (h : s.Fit) : (updLocks f s).Fit :=
  ⟨h.bays, h.counts, h.ctl⟩

theorem leaveLocks_fit {s : State} (a : Nat) (h : s.Fit) : (leaveLocks a s).Fit := ⟨h.bays, h.counts, h.ctl⟩

theorem giveUpKey_fit {s : State} (a : Nat) (k : Key) (h : s.Fit) : (giveUpKey a k s).Fit := ⟨h.bays, h.counts, h.ctl⟩

theorem strikeRequest_fit {s : State} (a : Nat) (h : s.Fit) : (strikeRequest a s).Fit := ⟨h.bays, h.counts, h.ctl⟩

theorem strikeReader_fit {s : State} (r : Reader) (h : s.Fit) : (strikeReader r s).Fit := ⟨h.bays, h.counts, h.ctl⟩

theorem complete_fit {s : State} (e : Entry) (st : Status) (fl : Option Nat) (d : List Block) (h : s.Fit) :
    (complete e st fl d s).Fit := ⟨h.bays, h.counts, h.ctl⟩

theorem setStep_fit {s : State} (g : Staging) (v : Option Step) (h : s.Fit) : (setStep g v s).Fit := by
  cases g <;> exact ⟨h.bays, h.counts, h.ctl⟩

theorem updStep_fit {s : State} (g : Staging) (f : Step → Step) (h : s.Fit) : (updStep g f s).Fit := setStep_fit _ _ h

theorem refreshMark_fit {s : State} (h : s.Fit) : (refreshMark s).Fit := by
  unfold refreshMark
  split <;> first | exact h | exact ⟨h.bays, h.counts, h.ctl⟩

/-! ### The arbiter (R76, R77, R128) -/

theorem refill_fit {b : Bay} (h : b.Fit) : (refill b).Fit := h.bounds

theorem grantOne_fit (pace : Nat) {b : Bay} (h : b.Fit) : (grantOne pace b).Fit := by
  unfold grantOne
  split
  · rename_i hs
    split
    · exact h
    · rename_i op contested _
      have h1 : Bay.Fit (afterGrant contested { b with
          wait := b.wait.filter (·.id != op.id)
          issued := b.issued ++ [{ op := op, sending := 1, expiries := 0, medias := 0 }] }) := by
        have hl : (b.issued ++ [({ op := op, sending := 1, expiries := 0, medias := 0 } : Issued)]).length
            ≤ Config.issueSlots := by simp only [List.length_append, List.length_cons, List.length_nil]; omega
        have hc := h.cycle
        have hm := h.share
        unfold afterGrant
        rcases contested with _ | m
        · exact ⟨h.mediaTop, h.tagTop, h.timeTop, hl, h.cycle, h.share⟩
        · dsimp only
          split
          · exact ⟨h.mediaTop, h.tagTop, h.timeTop, hl, by simp, by simp⟩
          · rename_i hn
            simp only [beq_iff_eq] at hn
            refine ⟨h.mediaTop, h.tagTop, h.timeTop, hl, ?_, ?_⟩
            · show b.contest + 1 ≤ 15; omega
            · show (if m = true then b.moverCount + 1 else b.moverCount) ≤ b.contest + 1
              split <;> omega
      dsimp only
      generalize afterGrant contested { b with
          wait := b.wait.filter (·.id != op.id)
          issued := b.issued ++ [{ op := op, sending := 1, expiries := 0, medias := 0 }] } = c at h1 ⊢
      exact refill_fit h1
  · exact h

theorem grantBay_fit (pace : Nat) (n : Nat) : ∀ {b : Bay}, b.Fit → (grantBay pace n b).Fit := by
  induction n with
  | zero => intro b h; exact h
  | succ n ih => intro b h; exact ih (grantOne_fit pace h)

theorem grants_fit {s : State} (i : Slot) (h : s.Fit) : (grants i s).Fit :=
  updBay_fit _ _ (fun _ hb => grantBay_fit _ _ hb) h

theorem waitIn_fit (op : MemberOp) {b : Bay} (h : b.Fit) : (waitIn op b).Fit := by
  unfold waitIn
  split <;> exact h.bounds

theorem issued_filter_fit (p : Issued → Bool) {b : Bay} (h : b.Fit) : Bay.Fit { b with issued := b.issued.filter p } :=
  ⟨h.mediaTop, h.tagTop, h.timeTop, (List.length_filter_le _ _).trans h.slots, h.cycle, h.share⟩

theorem issued_map_fit (f : Issued → Issued) {b : Bay} (h : b.Fit) : Bay.Fit { b with issued := b.issued.map f } :=
  ⟨h.mediaTop, h.tagTop, h.timeTop, by simpa using h.slots, h.cycle, h.share⟩

theorem restartBay_fit (s : State) {b : Bay} (h : b.Fit) : (s.restartBay b).Fit :=
  ⟨h.mediaTop, h.tagTop, h.timeTop, by simpa [State.restartBay] using h.slots, by simp [State.restartBay],
    by simp [State.restartBay]⟩

/-! ### Engine control (R163) -/

theorem LatchLaw.clear {e : EngineState} {b : Bool} {v p : Option EngineState} (h : LatchLaw e b v p) (he : e.Going) :
    b = false := by
  cases b with
  | false => rfl
  | true => rcases h.stopped.mp rfl with h' | h'
            · exact absurd h' he.1
            · exact absurd h' he.2

/-- A going state with the latch clear. -/
theorem LatchLaw.going {e : EngineState} {v p : Option EngineState} (he : e.Going)
    (hv : ∀ x, v = some x → x.Going) (hp : ∀ x, p = some x → x.Going) : LatchLaw e false v p :=
  ⟨⟨fun h => absurd h (by simp), fun h => h.elim (fun h => absurd h he.1) (fun h => absurd h he.2)⟩, hv, hp⟩

/-- From one going state to another with the latch as it was. -/
theorem LatchLaw.move {e e' : EngineState} {b : Bool} {v p v' p' : Option EngineState} (h : LatchLaw e b v p)
    (he : e.Going) (he' : e'.Going) (hv : ∀ x, v' = some x → x.Going) (hp : ∀ x, p' = some x → x.Going) :
    LatchLaw e' b v' p' := by
  rw [h.clear he]
  exact LatchLaw.going he' hv hp

theorem going_idle : EngineState.Going .idle := ⟨by decide, by decide⟩
theorem going_waiting : EngineState.Going .waiting := ⟨by decide, by decide⟩
theorem going_preparing : EngineState.Going .preparing := ⟨by decide, by decide⟩
theorem going_running : EngineState.Going .running := ⟨by decide, by decide⟩
theorem going_paused : EngineState.Going .paused := ⟨by decide, by decide⟩
theorem going_settling : EngineState.Going .settling := ⟨by decide, by decide⟩
theorem going_closing : EngineState.Going .closing := ⟨by decide, by decide⟩

theorem foldl_ctl {α : Type} (f : State → α → State) (hf : ∀ s a, (f s a).ctl = s.ctl) (l : List α) :
    ∀ s, (l.foldl f s).ctl = s.ctl := by
  induction l with
  | nil => intro s; rfl
  | cons a l ih => intro s; exact (ih _).trans (hf s a)

end Sys2Proof.Machine
end

