-- ==== Sys2Proof/Laws/FitsShelf.lean ====
section
/-! SUPPORT. The invariant Fit through the shelf unit and the hold queue. -/

set_option linter.unusedTactic false
set_option linter.unreachableTactic false
set_option linter.unusedSimpArgs false
set_option linter.unnecessarySeqFocus false

namespace Sys2Proof.Machine

/-! ### Shelf -/


theorem enqueue_fit {s : State} (op : MemberOp) (h : s.Fit) : State.Fit ((enqueue op s)) := by
  unfold enqueue
  (try dsimp only)
  (repeat' (first | with_reducible assumption | (exact going_idle) | (exact going_waiting) | (exact going_preparing) | (exact going_running) | (intro _; rfl) | with_reducible apply push_fit | with_reducible apply updBay_fit | with_reducible apply grants_fit | (with_reducible refine foldl_fit _ (fun _ _ _ => ?_) _ _ ?_) | (with_reducible refine foldl_fst_fit _ (fun _ _ _ => ?_) _ _ ?_) | (with_reducible apply issued_filter_fit) | (with_reducible apply issued_map_fit) | (with_reducible apply waitIn_fit) | (with_reducible apply restartBay_fit) | (simp only [fit_mk]) | (simp only [bay_fit_mk]) | (with_reducible refine Bay.Fit.bounds ?_) | (with_reducible refine State.Fit.parts ?_) |  (with_reducible rfl) | (with_reducible rfl) | (intro _) | split))

theorem strikeCovered_fit {s : State} (op : MemberOp) (h : s.Fit) : State.Fit ((strikeCovered op s)) := by
  unfold strikeCovered
  (try dsimp only)
  (repeat' (first | with_reducible assumption | (exact going_idle) | (exact going_waiting) | (exact going_preparing) | (exact going_running) | (intro _; rfl) | (with_reducible refine foldl_fit _ (fun _ _ _ => ?_) _ _ ?_) | (with_reducible refine foldl_fst_fit _ (fun _ _ _ => ?_) _ _ ?_) | (with_reducible apply issued_filter_fit) | (with_reducible apply issued_map_fit) | (with_reducible apply waitIn_fit) | (with_reducible apply restartBay_fit) | (simp only [fit_mk]) | (simp only [bay_fit_mk]) | (with_reducible refine Bay.Fit.bounds ?_) | (with_reducible refine State.Fit.parts ?_) |  (with_reducible rfl) | (with_reducible rfl) | (intro _) | split))

theorem noteRepair_fit {s : State} (op : MemberOp) (h : s.Fit) : State.Fit ((noteRepair op s)) := by
  unfold noteRepair
  (try dsimp only)
  (repeat' (first | with_reducible assumption | (exact going_idle) | (exact going_waiting) | (exact going_preparing) | (exact going_running) | (intro _; rfl) | (with_reducible refine foldl_fit _ (fun _ _ _ => ?_) _ _ ?_) | (with_reducible refine foldl_fst_fit _ (fun _ _ _ => ?_) _ _ ?_) | (with_reducible apply issued_filter_fit) | (with_reducible apply issued_map_fit) | (with_reducible apply waitIn_fit) | (with_reducible apply restartBay_fit) | (simp only [fit_mk]) | (simp only [bay_fit_mk]) | (with_reducible refine Bay.Fit.bounds ?_) | (with_reducible refine State.Fit.parts ?_) |  (with_reducible rfl) | (with_reducible rfl) | (intro _) | split))

theorem handData_fit {s : State} (op : MemberOp) (h : s.Fit) : State.Fit ((handData op s)) := by
  unfold handData
  (try dsimp only)
  (repeat' (first | with_reducible assumption | (exact going_idle) | (exact going_waiting) | (exact going_preparing) | (exact going_running) | (intro _; rfl) | with_reducible apply enqueue_fit | with_reducible apply strikeCovered_fit | with_reducible apply noteRepair_fit | (with_reducible refine foldl_fit _ (fun _ _ _ => ?_) _ _ ?_) | (with_reducible refine foldl_fst_fit _ (fun _ _ _ => ?_) _ _ ?_) | (with_reducible apply issued_filter_fit) | (with_reducible apply issued_map_fit) | (with_reducible apply waitIn_fit) | (with_reducible apply restartBay_fit) | (simp only [fit_mk]) | (simp only [bay_fit_mk]) | (with_reducible refine Bay.Fit.bounds ?_) | (with_reducible refine State.Fit.parts ?_) |  (with_reducible rfl) | (with_reducible rfl) | (intro _) | split))

theorem takeOp_fit {s : State}  (h : s.Fit) : State.Fit ((takeOp s).2) := by
  unfold takeOp
  (try dsimp only)
  (repeat' (first | with_reducible assumption | (exact going_idle) | (exact going_waiting) | (exact going_preparing) | (exact going_running) | (intro _; rfl) | (with_reducible refine foldl_fit _ (fun _ _ _ => ?_) _ _ ?_) | (with_reducible refine foldl_fst_fit _ (fun _ _ _ => ?_) _ _ ?_) | (with_reducible apply issued_filter_fit) | (with_reducible apply issued_map_fit) | (with_reducible apply waitIn_fit) | (with_reducible apply restartBay_fit) | (simp only [fit_mk]) | (simp only [bay_fit_mk]) | (with_reducible refine Bay.Fit.bounds ?_) | (with_reducible refine State.Fit.parts ?_) |  (with_reducible rfl) | (with_reducible rfl) | (intro _) | split))

theorem handReserve_fit {s : State} (i : Slot) (cls : OpClass) (kind : OpKind) (owner : Owner) (h : s.Fit) : State.Fit ((handReserve i cls kind owner s)) := by
  unfold handReserve
  (try dsimp only)
  (repeat' (first | with_reducible assumption | (exact going_idle) | (exact going_waiting) | (exact going_preparing) | (exact going_running) | (intro _; rfl) | with_reducible apply enqueue_fit | with_reducible apply takeOp_fit | (with_reducible refine foldl_fit _ (fun _ _ _ => ?_) _ _ ?_) | (with_reducible refine foldl_fst_fit _ (fun _ _ _ => ?_) _ _ ?_) | (with_reducible apply issued_filter_fit) | (with_reducible apply issued_map_fit) | (with_reducible apply waitIn_fit) | (with_reducible apply restartBay_fit) | (simp only [fit_mk]) | (simp only [bay_fit_mk]) | (with_reducible refine Bay.Fit.bounds ?_) | (with_reducible refine State.Fit.parts ?_) |  (with_reducible rfl) | (with_reducible rfl) | (intro _) | split))

theorem handUnit_fit {s : State} (i : Slot) (cls : OpClass) (unit row off : Nat) (kind : Nat → OpKind) (owner : Owner) (h : s.Fit) : State.Fit ((handUnit i cls unit row off kind owner s)) := by
  unfold handUnit
  (try dsimp only)
  (repeat' (first | with_reducible assumption | (exact going_idle) | (exact going_waiting) | (exact going_preparing) | (exact going_running) | (intro _; rfl) | with_reducible apply handData_fit | with_reducible apply takeOp_fit | (with_reducible refine foldl_fit _ (fun _ _ _ => ?_) _ _ ?_) | (with_reducible refine foldl_fst_fit _ (fun _ _ _ => ?_) _ _ ?_) | (with_reducible apply issued_filter_fit) | (with_reducible apply issued_map_fit) | (with_reducible apply waitIn_fit) | (with_reducible apply restartBay_fit) | (simp only [fit_mk]) | (simp only [bay_fit_mk]) | (with_reducible refine Bay.Fit.bounds ?_) | (with_reducible refine State.Fit.parts ?_) |  (with_reducible rfl) | (with_reducible rfl) | (intro _) | split))

theorem handPiece_fit {s : State} (g : Staging) (op : MemberOp) (first : Nat) (cut : Nat × Nat) (h : s.Fit) : State.Fit (handPiece g op first cut s) := by
  unfold handPiece
  (try dsimp only)
  (repeat' (first | with_reducible assumption | (exact going_idle) | (exact going_waiting) | (exact going_preparing) | (exact going_running) | (intro _; rfl) | with_reducible apply handUnit_fit | with_reducible apply updStep_fit | (with_reducible refine foldl_fit _ (fun _ _ _ => ?_) _ _ ?_) | (with_reducible refine foldl_fst_fit _ (fun _ _ _ => ?_) _ _ ?_) | (with_reducible apply issued_filter_fit) | (with_reducible apply issued_map_fit) | (with_reducible apply waitIn_fit) | (with_reducible apply restartBay_fit) | (simp only [fit_mk]) | (simp only [bay_fit_mk]) | (with_reducible refine Bay.Fit.bounds ?_) | (with_reducible refine State.Fit.parts ?_) |  (with_reducible rfl) | (with_reducible rfl) | (intro _) | split))

theorem handHeld_fit {s : State} (op : MemberOp) (h : s.Fit) : State.Fit ((handHeld op s)) := by
  unfold handHeld
  (try dsimp only)
  (repeat' (first | with_reducible assumption | (exact going_idle) | (exact going_waiting) | (exact going_preparing) | (exact going_running) | (intro _; rfl) | with_reducible apply handPiece_fit | with_reducible apply updStep_fit | with_reducible apply handData_fit | with_reducible apply handUnit_fit | (with_reducible refine foldl_fit _ (fun _ _ _ => ?_) _ _ ?_) | (with_reducible refine foldl_fst_fit _ (fun _ _ _ => ?_) _ _ ?_) | (with_reducible apply issued_filter_fit) | (with_reducible apply issued_map_fit) | (with_reducible apply waitIn_fit) | (with_reducible apply restartBay_fit) | (simp only [fit_mk]) | (simp only [bay_fit_mk]) | (with_reducible refine Bay.Fit.bounds ?_) | (with_reducible refine State.Fit.parts ?_) |  (with_reducible rfl) | (with_reducible rfl) | (intro _) | split))

theorem releaseHeld_fit {s : State}  (h : s.Fit) : State.Fit ((releaseHeld s)) := by
  unfold releaseHeld
  (try dsimp only)
  (repeat' (first | with_reducible assumption | (exact going_idle) | (exact going_waiting) | (exact going_preparing) | (exact going_running) | (intro _; rfl) | with_reducible apply handHeld_fit | (with_reducible refine foldl_fit _ (fun _ _ _ => ?_) _ _ ?_) | (with_reducible refine foldl_fst_fit _ (fun _ _ _ => ?_) _ _ ?_) | (with_reducible apply issued_filter_fit) | (with_reducible apply issued_map_fit) | (with_reducible apply waitIn_fit) | (with_reducible apply restartBay_fit) | (simp only [fit_mk]) | (simp only [bay_fit_mk]) | (with_reducible refine Bay.Fit.bounds ?_) | (with_reducible refine State.Fit.parts ?_) |  (with_reducible rfl) | (with_reducible rfl) | (intro _) | split))

theorem recallUnit_fit {s : State} (i : Slot) (row : Nat) (h : s.Fit) : State.Fit ((recallUnit i row s)) := by
  unfold recallUnit
  (try dsimp only)
  (repeat' (first | with_reducible assumption | (exact going_idle) | (exact going_waiting) | (exact going_preparing) | (exact going_running) | (intro _; rfl) | (with_reducible apply refill_fit) | with_reducible apply updBay_fit | (with_reducible refine foldl_fit _ (fun _ _ _ => ?_) _ _ ?_) | (with_reducible refine foldl_fst_fit _ (fun _ _ _ => ?_) _ _ ?_) | (with_reducible apply issued_filter_fit) | (with_reducible apply issued_map_fit) | (with_reducible apply waitIn_fit) | (with_reducible apply restartBay_fit) | (simp only [fit_mk]) | (simp only [bay_fit_mk]) | (with_reducible refine Bay.Fit.bounds ?_) | (with_reducible refine State.Fit.parts ?_) |  (with_reducible rfl) | (with_reducible rfl) | (intro _) | split))

theorem endAllGone_fit {s : State} (i : Slot) (h : s.Fit) : State.Fit (endAllGone i s) :=
  foldl_fit _ (fun _ _ hs => push_fit _ hs) _ _
    (updBay_fit _ _ (fun _ hb => ⟨hb.mediaTop, hb.tagTop, hb.timeTop, Nat.zero_le _, hb.cycle, hb.share⟩) h)

theorem freeIssue_fit {s : State} (i : Slot) (op : Nat) (h : s.Fit) : State.Fit ((freeIssue i op s)) := by
  unfold freeIssue
  (try dsimp only)
  (repeat' (first | with_reducible assumption | (exact going_idle) | (exact going_waiting) | (exact going_preparing) | (exact going_running) | (intro _; rfl) | with_reducible apply updBay_fit | with_reducible apply grants_fit | (with_reducible refine foldl_fit _ (fun _ _ _ => ?_) _ _ ?_) | (with_reducible refine foldl_fst_fit _ (fun _ _ _ => ?_) _ _ ?_) | (with_reducible apply issued_filter_fit) | (with_reducible apply issued_map_fit) | (with_reducible apply waitIn_fit) | (with_reducible apply restartBay_fit) | (simp only [fit_mk]) | (simp only [bay_fit_mk]) | (with_reducible refine Bay.Fit.bounds ?_) | (with_reducible refine State.Fit.parts ?_) |  (with_reducible rfl) | (with_reducible rfl) | (intro _) | split))

theorem resend_fit {s : State} (i : Slot) (op : Nat) (f : Issued → Issued) (h : s.Fit) : State.Fit ((resend i op f s)) := by
  unfold resend
  (try dsimp only)
  (repeat' (first | with_reducible assumption | (exact going_idle) | (exact going_waiting) | (exact going_preparing) | (exact going_running) | (intro _; rfl) | with_reducible apply updBay_fit | (with_reducible refine foldl_fit _ (fun _ _ _ => ?_) _ _ ?_) | (with_reducible refine foldl_fst_fit _ (fun _ _ _ => ?_) _ _ ?_) | (with_reducible apply issued_filter_fit) | (with_reducible apply issued_map_fit) | (with_reducible apply waitIn_fit) | (with_reducible apply restartBay_fit) | (simp only [fit_mk]) | (simp only [bay_fit_mk]) | (with_reducible refine Bay.Fit.bounds ?_) | (with_reducible refine State.Fit.parts ?_) |  (with_reducible rfl) | (with_reducible rfl) | (intro _) | split))

/-! ### Holding -/

theorem raiseCause_fit {s : State} (k : CauseKind) (h : s.Fit) : State.Fit ((raiseCause k s)) := by
  unfold raiseCause
  (try dsimp only)
  (repeat' (first | with_reducible assumption | (exact going_idle) | (exact going_waiting) | (exact going_preparing) | (exact going_running) | (intro _; rfl) | (with_reducible refine foldl_fit _ (fun _ _ _ => ?_) _ _ ?_) | (with_reducible refine foldl_fst_fit _ (fun _ _ _ => ?_) _ _ ?_) | (with_reducible apply issued_filter_fit) | (with_reducible apply issued_map_fit) | (with_reducible apply waitIn_fit) | (with_reducible apply restartBay_fit) | (simp only [fit_mk]) | (simp only [bay_fit_mk]) | (with_reducible refine Bay.Fit.bounds ?_) | (with_reducible refine State.Fit.parts ?_) |  (with_reducible rfl) | (with_reducible rfl) | (intro _) | split))

theorem holdRequest_fit {s : State} (e : Entry) (r : HoldReason) (h : s.Fit) : State.Fit ((holdRequest e r s)) := by
  unfold holdRequest
  (try dsimp only)
  (repeat' (first | with_reducible assumption | (exact going_idle) | (exact going_waiting) | (exact going_preparing) | (exact going_running) | (intro _; rfl) | with_reducible apply updReq_fit | with_reducible apply raiseCause_fit | (with_reducible refine foldl_fit _ (fun _ _ _ => ?_) _ _ ?_) | (with_reducible refine foldl_fst_fit _ (fun _ _ _ => ?_) _ _ ?_) | (with_reducible apply issued_filter_fit) | (with_reducible apply issued_map_fit) | (with_reducible apply waitIn_fit) | (with_reducible apply restartBay_fit) | (simp only [fit_mk]) | (simp only [bay_fit_mk]) | (with_reducible refine Bay.Fit.bounds ?_) | (with_reducible refine State.Fit.parts ?_) |  (with_reducible rfl) | (with_reducible rfl) | (intro _) | split))

theorem releaseHolds_fit {s : State} (p : HoldReason → Bool) (h : s.Fit) : State.Fit ((releaseHolds p s)) := by
  unfold releaseHolds
  (try dsimp only)
  (repeat' (first | with_reducible assumption | (exact going_idle) | (exact going_waiting) | (exact going_preparing) | (exact going_running) | (intro _; rfl) | with_reducible apply push_fit | (with_reducible refine foldl_fit _ (fun _ _ _ => ?_) _ _ ?_) | (with_reducible refine foldl_fst_fit _ (fun _ _ _ => ?_) _ _ ?_) | (with_reducible apply issued_filter_fit) | (with_reducible apply issued_map_fit) | (with_reducible apply waitIn_fit) | (with_reducible apply restartBay_fit) | (simp only [fit_mk]) | (simp only [bay_fit_mk]) | (with_reducible refine Bay.Fit.bounds ?_) | (with_reducible refine State.Fit.parts ?_) |  (with_reducible rfl) | (with_reducible rfl) | (intro _) | split))

theorem joinKeys_fit {s : State} (a : Nat) (write : Bool) (ks : List Key) (h : s.Fit) : State.Fit ((joinKeys a write ks s)) := by
  unfold joinKeys
  (try dsimp only)
  (repeat' (first | with_reducible assumption | (exact going_idle) | (exact going_waiting) | (exact going_preparing) | (exact going_running) | (intro _; rfl) | (with_reducible refine foldl_fit _ (fun _ _ _ => ?_) _ _ ?_) | (with_reducible refine foldl_fst_fit _ (fun _ _ _ => ?_) _ _ ?_) | (with_reducible apply issued_filter_fit) | (with_reducible apply issued_map_fit) | (with_reducible apply waitIn_fit) | (with_reducible apply restartBay_fit) | (simp only [fit_mk]) | (simp only [bay_fit_mk]) | (with_reducible refine Bay.Fit.bounds ?_) | (with_reducible refine State.Fit.parts ?_) |  (with_reducible rfl) | (with_reducible rfl) | (intro _) | split))

theorem joinOrQueue_fit {s : State} (a : Nat) (write : Bool) (ks : List Key) (h : s.Fit) : State.Fit ((joinOrQueue a write ks s).1) := by
  unfold joinOrQueue
  (try dsimp only)
  (repeat' (first | with_reducible assumption | (exact going_idle) | (exact going_waiting) | (exact going_preparing) | (exact going_running) | (intro _; rfl) | with_reducible apply joinKeys_fit | (with_reducible refine foldl_fit _ (fun _ _ _ => ?_) _ _ ?_) | (with_reducible refine foldl_fst_fit _ (fun _ _ _ => ?_) _ _ ?_) | (with_reducible apply issued_filter_fit) | (with_reducible apply issued_map_fit) | (with_reducible apply waitIn_fit) | (with_reducible apply restartBay_fit) | (simp only [fit_mk]) | (simp only [bay_fit_mk]) | (with_reducible refine Bay.Fit.bounds ?_) | (with_reducible refine State.Fit.parts ?_) |  (with_reducible rfl) | (with_reducible rfl) | (intro _) | split))

theorem grantKeys_fit {s : State} (a : Nat) (write : Bool) (ks : List Key) (h : s.Fit) : State.Fit ((grantKeys a write ks s)) := by
  unfold grantKeys
  (try dsimp only)
  (repeat' (first | with_reducible assumption | (exact going_idle) | (exact going_waiting) | (exact going_preparing) | (exact going_running) | (intro _; rfl) | with_reducible apply updLocks_fit | (with_reducible refine foldl_fit _ (fun _ _ _ => ?_) _ _ ?_) | (with_reducible refine foldl_fst_fit _ (fun _ _ _ => ?_) _ _ ?_) | (with_reducible apply issued_filter_fit) | (with_reducible apply issued_map_fit) | (with_reducible apply waitIn_fit) | (with_reducible apply restartBay_fit) | (simp only [fit_mk]) | (simp only [bay_fit_mk]) | (with_reducible refine Bay.Fit.bounds ?_) | (with_reducible refine State.Fit.parts ?_) |  (with_reducible rfl) | (with_reducible rfl) | (intro _) | split))

theorem syncLayouts_fit {s : State}  (h : s.Fit) : State.Fit ((syncLayouts s)) := by
  unfold syncLayouts
  (try dsimp only)
  (repeat' (first | with_reducible assumption | (exact going_idle) | (exact going_waiting) | (exact going_preparing) | (exact going_running) | (intro _; rfl) | (with_reducible refine foldl_fit _ (fun _ _ _ => ?_) _ _ ?_) | (with_reducible refine foldl_fst_fit _ (fun _ _ _ => ?_) _ _ ?_) | (with_reducible apply issued_filter_fit) | (with_reducible apply issued_map_fit) | (with_reducible apply waitIn_fit) | (with_reducible apply restartBay_fit) | (simp only [fit_mk]) | (simp only [bay_fit_mk]) | (with_reducible refine Bay.Fit.bounds ?_) | (with_reducible refine State.Fit.parts ?_) |  (with_reducible rfl) | (with_reducible rfl) | (intro _) | split))

theorem renameKeys_fit {s : State} (src dst : LayoutId) (h : s.Fit) : State.Fit ((renameKeys src dst s)) := by
  unfold renameKeys
  (try dsimp only)
  (repeat' (first | with_reducible assumption | (exact going_idle) | (exact going_waiting) | (exact going_preparing) | (exact going_running) | (intro _; rfl) | (with_reducible refine foldl_fit _ (fun _ _ _ => ?_) _ _ ?_) | (with_reducible refine foldl_fst_fit _ (fun _ _ _ => ?_) _ _ ?_) | (with_reducible apply issued_filter_fit) | (with_reducible apply issued_map_fit) | (with_reducible apply waitIn_fit) | (with_reducible apply restartBay_fit) | (simp only [fit_mk]) | (simp only [bay_fit_mk]) | (with_reducible refine Bay.Fit.bounds ?_) | (with_reducible refine State.Fit.parts ?_) |  (with_reducible rfl) | (with_reducible rfl) | (intro _) | split))

theorem enterPath_fit {s : State} (a : Nat) (h : s.Fit) : State.Fit ((enterPath a s)) := by
  unfold enterPath
  (try dsimp only)
  (repeat' (first | with_reducible assumption | (exact going_idle) | (exact going_waiting) | (exact going_preparing) | (exact going_running) | (intro _; rfl) | with_reducible apply updReq_fit | with_reducible apply holdRequest_fit | with_reducible apply joinOrQueue_fit | (with_reducible refine foldl_fit _ (fun _ _ _ => ?_) _ _ ?_) | (with_reducible refine foldl_fst_fit _ (fun _ _ _ => ?_) _ _ ?_) | (with_reducible apply issued_filter_fit) | (with_reducible apply issued_map_fit) | (with_reducible apply waitIn_fit) | (with_reducible apply restartBay_fit) | (simp only [fit_mk]) | (simp only [bay_fit_mk]) | (with_reducible refine Bay.Fit.bounds ?_) | (with_reducible refine State.Fit.parts ?_) |  (with_reducible rfl) | (with_reducible rfl) | (intro _) | split))

theorem releaseRequest_fit {s : State} (a : Nat) (h : s.Fit) : State.Fit ((releaseRequest a s)) := by
  unfold releaseRequest
  (try dsimp only)
  (repeat' (first | with_reducible assumption | (exact going_idle) | (exact going_waiting) | (exact going_preparing) | (exact going_running) | (intro _; rfl) | with_reducible apply complete_fit | with_reducible apply enterPath_fit | (with_reducible refine foldl_fit _ (fun _ _ _ => ?_) _ _ ?_) | (with_reducible refine foldl_fst_fit _ (fun _ _ _ => ?_) _ _ ?_) | (with_reducible apply issued_filter_fit) | (with_reducible apply issued_map_fit) | (with_reducible apply waitIn_fit) | (with_reducible apply restartBay_fit) | (simp only [fit_mk]) | (simp only [bay_fit_mk]) | (with_reducible refine Bay.Fit.bounds ?_) | (with_reducible refine State.Fit.parts ?_) |  (with_reducible rfl) | (with_reducible rfl) | (intro _) | split))
end Sys2Proof.Machine
end

