-- ==== Sys2Proof/Laws/FitsControl.lean ====
section
/-! SUPPORT. The invariant Fit through labels, engine control and fetching. -/

set_option linter.unusedTactic false
set_option linter.unreachableTactic false
set_option linter.unusedSimpArgs false
set_option linter.unnecessarySeqFocus false

namespace Sys2Proof.Machine

/-! ### Labels -/

theorem hardenRemaps_fit {s : State} (i : Slot) (h : s.Fit) : State.Fit ((hardenRemaps i s)) := by
  unfold hardenRemaps
  (try dsimp only)
  (repeat' (first | with_reducible assumption | (exact going_idle) | (exact going_waiting) | (exact going_preparing) | (exact going_running) | (intro _; rfl) | with_reducible apply updBay_fit | (with_reducible refine foldl_fit _ (fun _ _ _ => ?_) _ _ ?_) | (with_reducible refine foldl_fst_fit _ (fun _ _ _ => ?_) _ _ ?_) | (with_reducible apply issued_filter_fit) | (with_reducible apply issued_map_fit) | (with_reducible apply waitIn_fit) | (with_reducible apply restartBay_fit) | (simp only [fit_mk]) | (simp only [bay_fit_mk]) | (with_reducible refine Bay.Fit.bounds ?_) | (with_reducible refine State.Fit.parts ?_) |  (with_reducible rfl) | (with_reducible rfl) | (intro _) | split))

theorem handLabels_fit {s : State} (l : Label) (owner : Owner) (h : s.Fit) : State.Fit ((handLabels l owner s)) := by
  unfold handLabels
  (try dsimp only)
  (repeat' (first | with_reducible assumption | (exact going_idle) | (exact going_waiting) | (exact going_preparing) | (exact going_running) | (intro _; rfl) | with_reducible apply handReserve_fit | (with_reducible refine foldl_fit _ (fun _ _ _ => ?_) _ _ ?_) | (with_reducible refine foldl_fst_fit _ (fun _ _ _ => ?_) _ _ ?_) | (with_reducible apply issued_filter_fit) | (with_reducible apply issued_map_fit) | (with_reducible apply waitIn_fit) | (with_reducible apply restartBay_fit) | (simp only [fit_mk]) | (simp only [bay_fit_mk]) | (with_reducible refine Bay.Fit.bounds ?_) | (with_reducible refine State.Fit.parts ?_) |  (with_reducible rfl) | (with_reducible rfl) | (intro _) | split))

theorem beginLabel_fit {s : State}  (h : s.Fit) : State.Fit ((beginLabel s)) := by
  unfold beginLabel
  (try dsimp only)
  (repeat' (first | with_reducible assumption | (exact going_idle) | (exact going_waiting) | (exact going_preparing) | (exact going_running) | (intro _; rfl) | with_reducible apply hardenRemaps_fit | with_reducible apply handLabels_fit | (with_reducible refine foldl_fit _ (fun _ _ _ => ?_) _ _ ?_) | (with_reducible refine foldl_fst_fit _ (fun _ _ _ => ?_) _ _ ?_) | (with_reducible apply issued_filter_fit) | (with_reducible apply issued_map_fit) | (with_reducible apply waitIn_fit) | (with_reducible apply restartBay_fit) | (simp only [fit_mk]) | (simp only [bay_fit_mk]) | (with_reducible refine Bay.Fit.bounds ?_) | (with_reducible refine State.Fit.parts ?_) |  (with_reducible rfl) | (with_reducible rfl) | (intro _) | split))

theorem beginAssemblyLabel_fit {s : State}  (h : s.Fit) : State.Fit ((beginAssemblyLabel s)) := by
  unfold beginAssemblyLabel
  (try dsimp only)
  (repeat' (first | with_reducible assumption | (exact going_idle) | (exact going_waiting) | (exact going_preparing) | (exact going_running) | (intro _; rfl) | with_reducible apply handLabels_fit | (with_reducible refine foldl_fit _ (fun _ _ _ => ?_) _ _ ?_) | (with_reducible refine foldl_fst_fit _ (fun _ _ _ => ?_) _ _ ?_) | (with_reducible apply issued_filter_fit) | (with_reducible apply issued_map_fit) | (with_reducible apply waitIn_fit) | (with_reducible apply restartBay_fit) | (simp only [fit_mk]) | (simp only [bay_fit_mk]) | (with_reducible refine Bay.Fit.bounds ?_) | (with_reducible refine State.Fit.parts ?_) |  (with_reducible rfl) | (with_reducible rfl) | (intro _) | split))

theorem ruleLabel_fit {s : State } {t : State}  (h : s.Fit) (e : ruleLabel s = some t) : t.Fit := by
  unfold ruleLabel at e
  (try dsimp only at e)
  (repeat' split at e) <;> (try simp only [Option.map_eq_some_iff, Option.some.injEq, reduceCtorEq] at e) <;> (try obtain ⟨_, -, rfl⟩ := e) <;> (try subst e)
  all_goals (repeat' (first | with_reducible assumption | (exact going_idle) | (exact going_waiting) | (exact going_preparing) | (exact going_running) | (intro _; rfl) | with_reducible apply beginLabel_fit | (with_reducible refine foldl_fit _ (fun _ _ _ => ?_) _ _ ?_) | (with_reducible refine foldl_fst_fit _ (fun _ _ _ => ?_) _ _ ?_) | (with_reducible apply issued_filter_fit) | (with_reducible apply issued_map_fit) | (with_reducible apply waitIn_fit) | (with_reducible apply restartBay_fit) | (simp only [fit_mk]) | (simp only [bay_fit_mk]) | (with_reducible refine Bay.Fit.bounds ?_) | (with_reducible refine State.Fit.parts ?_) |  (with_reducible rfl) | (with_reducible rfl) | (intro _) | split))

/-! ### Control -/

theorem abandonStep_fit {s : State} (g : Staging) (t : Step) (h : s.Fit) : State.Fit ((abandonStep g t s)) := by
  unfold abandonStep
  (try dsimp only)
  (repeat' (first | with_reducible assumption | (exact going_idle) | (exact going_waiting) | (exact going_preparing) | (exact going_running) | (intro _; rfl) | with_reducible apply leaveLocks_fit | with_reducible apply setStep_fit | with_reducible apply releaseHolds_fit | with_reducible apply strikeReader_fit | (with_reducible refine foldl_fit _ (fun _ _ _ => ?_) _ _ ?_) | (with_reducible refine foldl_fst_fit _ (fun _ _ _ => ?_) _ _ ?_) | (with_reducible apply issued_filter_fit) | (with_reducible apply issued_map_fit) | (with_reducible apply waitIn_fit) | (with_reducible apply restartBay_fit) | (simp only [fit_mk]) | (simp only [bay_fit_mk]) | (with_reducible refine Bay.Fit.bounds ?_) | (with_reducible refine State.Fit.parts ?_) |  (with_reducible rfl) | (with_reducible rfl) | (intro _) | split))

theorem abandonGather_fit {s : State}  (h : s.Fit) : State.Fit ((abandonGather s)) := by
  unfold abandonGather
  (try dsimp only)
  (repeat' (first | with_reducible assumption | (exact going_idle) | (exact going_waiting) | (exact going_preparing) | (exact going_running) | (intro _; rfl) | with_reducible apply abandonStep_fit | (with_reducible refine foldl_fit _ (fun _ _ _ => ?_) _ _ ?_) | (with_reducible refine foldl_fst_fit _ (fun _ _ _ => ?_) _ _ ?_) | (with_reducible apply issued_filter_fit) | (with_reducible apply issued_map_fit) | (with_reducible apply waitIn_fit) | (with_reducible apply restartBay_fit) | (simp only [fit_mk]) | (simp only [bay_fit_mk]) | (with_reducible refine Bay.Fit.bounds ?_) | (with_reducible refine State.Fit.parts ?_) |  (with_reducible rfl) | (with_reducible rfl) | (intro _) | split))

theorem ruleFreeSlot_fit {s : State } {t : State}  (h : s.Fit) (e : ruleFreeSlot s = some t) : t.Fit := by
  unfold ruleFreeSlot at e
  (try dsimp only at e)
  (repeat' split at e) <;> (try simp only [Option.map_eq_some_iff, Option.some.injEq, reduceCtorEq] at e) <;> (try obtain ⟨_, -, rfl⟩ := e) <;> (try subst e)
  all_goals (repeat' (first | with_reducible assumption | (exact going_idle) | (exact going_waiting) | (exact going_preparing) | (exact going_running) | (intro _; rfl) | with_reducible apply setStep_fit | (with_reducible refine foldl_fit _ (fun _ _ _ => ?_) _ _ ?_) | (with_reducible refine foldl_fst_fit _ (fun _ _ _ => ?_) _ _ ?_) | (with_reducible apply issued_filter_fit) | (with_reducible apply issued_map_fit) | (with_reducible apply waitIn_fit) | (with_reducible apply restartBay_fit) | (simp only [fit_mk]) | (simp only [bay_fit_mk]) | (with_reducible refine Bay.Fit.bounds ?_) | (with_reducible refine State.Fit.parts ?_) |  (with_reducible rfl) | (with_reducible rfl) | (intro _) | split))

theorem setVolume_fit {s : State}  (h : s.Fit) : State.Fit ((setVolume s)) := by
  unfold setVolume
  (try dsimp only)
  (repeat' (first | with_reducible assumption | (exact going_idle) | (exact going_waiting) | (exact going_preparing) | (exact going_running) | (intro _; rfl) | (with_reducible refine foldl_fit _ (fun _ _ _ => ?_) _ _ ?_) | (with_reducible refine foldl_fst_fit _ (fun _ _ _ => ?_) _ _ ?_) | (with_reducible apply issued_filter_fit) | (with_reducible apply issued_map_fit) | (with_reducible apply waitIn_fit) | (with_reducible apply restartBay_fit) | (simp only [fit_mk]) | (simp only [bay_fit_mk]) | (with_reducible refine Bay.Fit.bounds ?_) | (with_reducible refine State.Fit.parts ?_) |  (with_reducible rfl) | (with_reducible rfl) | (intro _) | split))

/-- HALTED with the latch as it is, when it is set. -/
theorem State.Fit.halted {s : State} (h : s.Fit) (hl : s.ctl.latch = true) :
    FitParts s.shelf.bays s.integ.counts .halted s.ctl.latch s.ctl.saved s.ctl.pausedFrom :=
  ⟨h.bays, h.counts, ⟨fun _ => Or.inr rfl, fun _ => hl⟩, h.ctl.savedGoing, h.ctl.fromGoing⟩

theorem takeFault_fit {s : State} (l : Option (LayoutId × Nat)) (h : s.Fit) : State.Fit (takeFault l s) := by
  unfold takeFault
  split
  · exact h
  · have h1 : State.Fit (if s.ctl.state == .halted && s.ctl.cause == .recoveryFailed then s
        else { s with ctl := { s.ctl with cause := .memberLost, faultLayout := l } }) := by
      split
      · exact h
      · exact fit_mk.mpr h.parts
    generalize (if s.ctl.state == .halted && s.ctl.cause == .recoveryFailed then s
        else { s with ctl := { s.ctl with cause := .memberLost, faultLayout := l } }) = s1 at h1 ⊢
    dsimp only
    split
    · exact raise_fit _ (fit_mk.mpr (h1.halted ‹_›))
    · split
      · exact h1
      · exact abandonGather_fit (fit_mk.mpr h1.parts)

theorem reportCounts_fit {s : State}  (h : s.Fit) : State.Fit ((reportCounts s)) := by
  unfold reportCounts
  (try dsimp only)
  (repeat' (first | with_reducible assumption | (exact going_idle) | (exact going_waiting) | (exact going_preparing) | (exact going_running) | (intro _; rfl) | with_reducible apply setVolume_fit | with_reducible apply takeFault_fit | (with_reducible refine foldl_fit _ (fun _ _ _ => ?_) _ _ ?_) | (with_reducible refine foldl_fst_fit _ (fun _ _ _ => ?_) _ _ ?_) | (with_reducible apply issued_filter_fit) | (with_reducible apply issued_map_fit) | (with_reducible apply waitIn_fit) | (with_reducible apply restartBay_fit) | (simp only [fit_mk]) | (simp only [bay_fit_mk]) | (with_reducible refine Bay.Fit.bounds ?_) | (with_reducible refine State.Fit.parts ?_) |  (with_reducible rfl) | (with_reducible rfl) | (intro _) | split))

theorem reportChange_fit {s : State}  (h : s.Fit) : State.Fit (reportChange s) := by
  unfold reportChange
  (try dsimp only)
  (repeat' (first | with_reducible assumption | (exact going_idle) | (exact going_waiting) | (exact going_preparing) | (exact going_running) | (intro _; rfl) | with_reducible apply reportCounts_fit | (with_reducible refine foldl_fit _ (fun _ _ _ => ?_) _ _ ?_) | (with_reducible refine foldl_fst_fit _ (fun _ _ _ => ?_) _ _ ?_) | (with_reducible apply issued_filter_fit) | (with_reducible apply issued_map_fit) | (with_reducible apply waitIn_fit) | (with_reducible apply restartBay_fit) | (simp only [fit_mk]) | (simp only [bay_fit_mk]) | (with_reducible refine Bay.Fit.bounds ?_) | (with_reducible refine State.Fit.parts ?_) |  (with_reducible rfl) | (with_reducible rfl) | (intro _) | split))

theorem rebaseCounts_fit {s : State}  (h : s.Fit) : State.Fit ((rebaseCounts s)) := by
  unfold rebaseCounts
  (try dsimp only)
  (repeat' (first | with_reducible assumption | (exact going_idle) | (exact going_waiting) | (exact going_preparing) | (exact going_running) | (intro _; rfl) | with_reducible apply setVolume_fit | (with_reducible refine foldl_fit _ (fun _ _ _ => ?_) _ _ ?_) | (with_reducible refine foldl_fst_fit _ (fun _ _ _ => ?_) _ _ ?_) | (with_reducible apply issued_filter_fit) | (with_reducible apply issued_map_fit) | (with_reducible apply waitIn_fit) | (with_reducible apply restartBay_fit) | (simp only [fit_mk]) | (simp only [bay_fit_mk]) | (with_reducible refine Bay.Fit.bounds ?_) | (with_reducible refine State.Fit.parts ?_) |  (with_reducible rfl) | (with_reducible rfl) | (intro _) | split))

theorem afterRest_going {s : State} (hs : s.ctl.state.Going) : s.afterRest.Going := by
  unfold State.afterRest
  split
  · exact ⟨by decide, by decide⟩
  · split
    · exact ⟨by decide, by decide⟩
    · exact hs

theorem suspension_going {s : State} (h : s.Fit) {r : EngineState × Option EngineState} (e : s.suspension = some r) :
    r.1.Going ∧ ∀ x, r.2 = some x → x.Going := by
  have hp := h.ctl.fromGoing
  unfold State.suspension at e
  (repeat' split at e) <;> first | (cases e; done) | (obtain rfl := Option.some.inj e) <;>
    (refine ⟨?_, ?_⟩ <;> dsimp only <;> first
      | exact hp
      | exact ⟨by decide, by decide⟩
      | (split <;> exact ⟨by decide, by decide⟩)
      | exact afterRest_going (by rw [‹s.ctl.state = _›]; exact ⟨by decide, by decide⟩)
      | (intro x hx; obtain rfl := Option.some.inj hx
         exact afterRest_going (by rw [‹s.ctl.state = _›]; exact ⟨by decide, by decide⟩)))

theorem ruleSuspend_fit {s t : State} (h : s.Fit) (e : ruleSuspend s = some t) : t.Fit := by
  unfold ruleSuspend at e
  split at e
  · cases e
  · split at e
    · obtain rfl := Option.some.inj e
      exact fit_mk.mpr h.parts
    · obtain ⟨r, hr, rfl⟩ := Option.map_eq_some_iff.mp e
      have hg := suspension_going h hr
      exact raise_fit _ (fit_mk.mpr ⟨h.bays, h.counts, ⟨fun _ => Or.inl rfl, fun _ => rfl⟩,
        fun x hx => by obtain rfl := Option.some.inj hx; exact hg.1, hg.2⟩)

theorem loseIncoming_fit {s : State}  (h : s.Fit) : State.Fit ((loseIncoming s)) := by
  unfold loseIncoming
  (try dsimp only)
  (repeat' (first | with_reducible assumption | (exact going_idle) | (exact going_waiting) | (exact going_preparing) | (exact going_running) | (intro _; rfl) | with_reducible apply abandonGather_fit | (with_reducible refine foldl_fit _ (fun _ _ _ => ?_) _ _ ?_) | (with_reducible refine foldl_fst_fit _ (fun _ _ _ => ?_) _ _ ?_) | (with_reducible apply issued_filter_fit) | (with_reducible apply issued_map_fit) | (with_reducible apply waitIn_fit) | (with_reducible apply restartBay_fit) | (simp only [fit_mk]) | (simp only [bay_fit_mk]) | (with_reducible refine Bay.Fit.bounds ?_) | (with_reducible refine State.Fit.parts ?_) |  (with_reducible rfl) | (with_reducible rfl) | (intro _) | split))

theorem strikeBay_fit {s : State} (i : Slot) (h : s.Fit) : State.Fit ((strikeBay i s)) := by
  unfold strikeBay
  (try dsimp only)
  (repeat' (first | with_reducible assumption | (exact going_idle) | (exact going_waiting) | (exact going_preparing) | (exact going_running) | (intro _; rfl) | (with_reducible refine foldl_fit _ (fun _ _ _ => ?_) _ _ ?_) | (with_reducible refine foldl_fst_fit _ (fun _ _ _ => ?_) _ _ ?_) | (with_reducible apply issued_filter_fit) | (with_reducible apply issued_map_fit) | (with_reducible apply waitIn_fit) | (with_reducible apply restartBay_fit) | (simp only [fit_mk]) | (simp only [bay_fit_mk]) | (with_reducible refine Bay.Fit.bounds ?_) | (with_reducible refine State.Fit.parts ?_) |  (with_reducible rfl) | (with_reducible rfl) | (intro _) | split))

theorem noteLoss_fit {s : State} (i : Slot) (b : Bool) (h : s.Fit) : State.Fit (noteLoss i b s) := by
  unfold noteLoss
  (try dsimp only)
  (repeat' (first | with_reducible assumption | (exact going_idle) | (exact going_waiting) | (exact going_preparing) | (exact going_running) | (intro _; rfl) | with_reducible apply raiseCause_fit | (with_reducible refine foldl_fit _ (fun _ _ _ => ?_) _ _ ?_) | (with_reducible refine foldl_fst_fit _ (fun _ _ _ => ?_) _ _ ?_) | (with_reducible apply issued_filter_fit) | (with_reducible apply issued_map_fit) | (with_reducible apply waitIn_fit) | (with_reducible apply restartBay_fit) | (simp only [fit_mk]) | (simp only [bay_fit_mk]) | (with_reducible refine Bay.Fit.bounds ?_) | (with_reducible refine State.Fit.parts ?_) |  (with_reducible rfl) | (with_reducible rfl) | (intro _) | split))

theorem failBay_fit {s : State} (i : Slot) (h : s.Fit) : State.Fit ((failBay i s)) := by
  unfold failBay
  (try dsimp only)
  (repeat' (first | with_reducible assumption | (exact going_idle) | (exact going_waiting) | (exact going_preparing) | (exact going_running) | (intro _; rfl) | with_reducible apply noteLoss_fit | with_reducible apply raise_fit | with_reducible apply updBay_fit | with_reducible apply endAllGone_fit | with_reducible apply raiseCause_fit | with_reducible apply reportCounts_fit | with_reducible apply loseIncoming_fit | with_reducible apply strikeBay_fit | (with_reducible refine foldl_fit _ (fun _ _ _ => ?_) _ _ ?_) | (with_reducible refine foldl_fst_fit _ (fun _ _ _ => ?_) _ _ ?_) | (with_reducible apply issued_filter_fit) | (with_reducible apply issued_map_fit) | (with_reducible apply waitIn_fit) | (with_reducible apply restartBay_fit) | (simp only [fit_mk]) | (simp only [bay_fit_mk]) | (with_reducible refine Bay.Fit.bounds ?_) | (with_reducible refine State.Fit.parts ?_) |  (with_reducible rfl) | (with_reducible rfl) | (intro _) | split))

theorem shelfCheck_fit {s : State}  (h : s.Fit) : State.Fit ((shelfCheck s)) := by
  unfold shelfCheck
  (try dsimp only)
  (repeat' (first | with_reducible assumption | (exact going_idle) | (exact going_waiting) | (exact going_preparing) | (exact going_running) | (intro _; rfl) | with_reducible apply raise_fit | (with_reducible refine foldl_fit _ (fun _ _ _ => ?_) _ _ ?_) | (with_reducible refine foldl_fst_fit _ (fun _ _ _ => ?_) _ _ ?_) | (with_reducible apply issued_filter_fit) | (with_reducible apply issued_map_fit) | (with_reducible apply waitIn_fit) | (with_reducible apply restartBay_fit) | (simp only [fit_mk]) | (simp only [bay_fit_mk]) | (with_reducible refine Bay.Fit.bounds ?_) | (with_reducible refine State.Fit.parts ?_) |  (with_reducible rfl) | (with_reducible rfl) | (intro _) | split))

theorem takeOut_fit {s : State} (i : Slot) (h : s.Fit) : State.Fit ((takeOut i s)) := by
  unfold takeOut
  (try dsimp only)
  (repeat' (first | with_reducible assumption | (exact going_idle) | (exact going_waiting) | (exact going_preparing) | (exact going_running) | (intro _; rfl) | with_reducible apply updBay_fit | with_reducible apply endAllGone_fit | with_reducible apply strikeBay_fit | with_reducible apply failBay_fit | (with_reducible refine foldl_fit _ (fun _ _ _ => ?_) _ _ ?_) | (with_reducible refine foldl_fst_fit _ (fun _ _ _ => ?_) _ _ ?_) | (with_reducible apply issued_filter_fit) | (with_reducible apply issued_map_fit) | (with_reducible apply waitIn_fit) | (with_reducible apply restartBay_fit) | (simp only [fit_mk]) | (simp only [bay_fit_mk]) | (with_reducible refine Bay.Fit.bounds ?_) | (with_reducible refine State.Fit.parts ?_) |  (with_reducible rfl) | (with_reducible rfl) | (intro _) | split))

theorem depart_fit {s : State} (i : Slot) (h : s.Fit) : State.Fit ((depart i s)) := by
  unfold depart
  (try dsimp only)
  (repeat' (first | with_reducible assumption | (exact going_idle) | (exact going_waiting) | (exact going_preparing) | (exact going_running) | (intro _; rfl) | with_reducible apply shelfCheck_fit | with_reducible apply takeOut_fit | (with_reducible refine foldl_fit _ (fun _ _ _ => ?_) _ _ ?_) | (with_reducible refine foldl_fst_fit _ (fun _ _ _ => ?_) _ _ ?_) | (with_reducible apply issued_filter_fit) | (with_reducible apply issued_map_fit) | (with_reducible apply waitIn_fit) | (with_reducible apply restartBay_fit) | (simp only [fit_mk]) | (simp only [bay_fit_mk]) | (with_reducible refine Bay.Fit.bounds ?_) | (with_reducible refine State.Fit.parts ?_) |  (with_reducible rfl) | (with_reducible rfl) | (intro _) | split))

theorem arrive_fit {s : State} (i : Slot) (h : s.Fit) : State.Fit ((arrive i s)) := by
  unfold arrive
  (try dsimp only)
  (repeat' (first | with_reducible assumption | (exact going_idle) | (exact going_waiting) | (exact going_preparing) | (exact going_running) | (intro _; rfl) | with_reducible apply updBay_fit | with_reducible apply handReserve_fit | with_reducible apply shelfCheck_fit | (with_reducible refine foldl_fit _ (fun _ _ _ => ?_) _ _ ?_) | (with_reducible refine foldl_fst_fit _ (fun _ _ _ => ?_) _ _ ?_) | (with_reducible apply issued_filter_fit) | (with_reducible apply issued_map_fit) | (with_reducible apply waitIn_fit) | (with_reducible apply restartBay_fit) | (simp only [fit_mk]) | (simp only [bay_fit_mk]) | (with_reducible refine Bay.Fit.bounds ?_) | (with_reducible refine State.Fit.parts ?_) |  (with_reducible rfl) | (with_reducible rfl) | (intro _) | split))

theorem arrival_fit {s : State} (i : Slot) (h : s.Fit) : State.Fit ((arrival i s)) := by
  unfold arrival
  (try dsimp only)
  (repeat' (first | with_reducible assumption | (exact going_idle) | (exact going_waiting) | (exact going_preparing) | (exact going_running) | (intro _; rfl) | with_reducible apply takeOut_fit | with_reducible apply arrive_fit | (with_reducible refine foldl_fit _ (fun _ _ _ => ?_) _ _ ?_) | (with_reducible refine foldl_fst_fit _ (fun _ _ _ => ?_) _ _ ?_) | (with_reducible apply issued_filter_fit) | (with_reducible apply issued_map_fit) | (with_reducible apply waitIn_fit) | (with_reducible apply restartBay_fit) | (simp only [fit_mk]) | (simp only [bay_fit_mk]) | (with_reducible refine Bay.Fit.bounds ?_) | (with_reducible refine State.Fit.parts ?_) |  (with_reducible rfl) | (with_reducible rfl) | (intro _) | split))

theorem takeReferences_fit {s : State}  (h : s.Fit) : State.Fit ((takeReferences s)) := by
  unfold takeReferences
  (try dsimp only)
  (repeat' (first | with_reducible assumption | (exact going_idle) | (exact going_waiting) | (exact going_preparing) | (exact going_running) | (intro _; rfl) | with_reducible apply updAllBays_fit | (with_reducible refine foldl_fit _ (fun _ _ _ => ?_) _ _ ?_) | (with_reducible refine foldl_fst_fit _ (fun _ _ _ => ?_) _ _ ?_) | (with_reducible apply issued_filter_fit) | (with_reducible apply issued_map_fit) | (with_reducible apply waitIn_fit) | (with_reducible apply restartBay_fit) | (simp only [fit_mk]) | (simp only [bay_fit_mk]) | (with_reducible refine Bay.Fit.bounds ?_) | (with_reducible refine State.Fit.parts ?_) |  (with_reducible rfl) | (with_reducible rfl) | (intro _) | split))

/-! ### Fetching -/

theorem readRun_fit {p : State × Fetch} (owner : Owner) (cls : OpClass) (row pos off len : Nat) (h : p.1.Fit) : State.Fit ((readRun owner cls row pos off len p).1) := by
  unfold readRun
  (try dsimp only)
  (repeat' (first | with_reducible assumption | (exact going_idle) | (exact going_waiting) | (exact going_preparing) | (exact going_running) | (intro _; rfl) | with_reducible apply handUnit_fit | (with_reducible refine foldl_fit _ (fun _ _ _ => ?_) _ _ ?_) | (with_reducible refine foldl_fst_fit _ (fun _ _ _ => ?_) _ _ ?_) | (with_reducible apply issued_filter_fit) | (with_reducible apply issued_map_fit) | (with_reducible apply waitIn_fit) | (with_reducible apply restartBay_fit) | (simp only [fit_mk]) | (simp only [bay_fit_mk]) | (with_reducible refine Bay.Fit.bounds ?_) | (with_reducible refine State.Fit.parts ?_) |  (with_reducible rfl) | (with_reducible rfl) | (intro _) | split))

theorem writeBacks_fit {s : State} (r : Reader) (cls : OpClass) (unit : Nat) (made : List (Cell × Block)) (h : s.Fit) : State.Fit ((writeBacks r cls unit made s)) := by
  unfold writeBacks
  (try dsimp only)
  (repeat' (first | with_reducible assumption | (exact going_idle) | (exact going_waiting) | (exact going_preparing) | (exact going_running) | (intro _; rfl) | with_reducible apply handUnit_fit | (with_reducible refine foldl_fit _ (fun _ _ _ => ?_) _ _ ?_) | (with_reducible refine foldl_fst_fit _ (fun _ _ _ => ?_) _ _ ?_) | (with_reducible apply issued_filter_fit) | (with_reducible apply issued_map_fit) | (with_reducible apply waitIn_fit) | (with_reducible apply restartBay_fit) | (simp only [fit_mk]) | (simp only [bay_fit_mk]) | (with_reducible refine Bay.Fit.bounds ?_) | (with_reducible refine State.Fit.parts ?_) |  (with_reducible rfl) | (with_reducible rfl) | (intro _) | split))

theorem strikeLost_fit {s : State} (r : Reader) (cs : List Cell) (h : s.Fit) : State.Fit ((strikeLost r cs s)) := by
  unfold strikeLost
  (try dsimp only)
  (repeat' (first | with_reducible assumption | (exact going_idle) | (exact going_waiting) | (exact going_preparing) | (exact going_running) | (intro _; rfl) | (with_reducible refine foldl_fit _ (fun _ _ _ => ?_) _ _ ?_) | (with_reducible refine foldl_fst_fit _ (fun _ _ _ => ?_) _ _ ?_) | (with_reducible apply issued_filter_fit) | (with_reducible apply issued_map_fit) | (with_reducible apply waitIn_fit) | (with_reducible apply restartBay_fit) | (simp only [fit_mk]) | (simp only [bay_fit_mk]) | (with_reducible refine Bay.Fit.bounds ?_) | (with_reducible refine State.Fit.parts ?_) |  (with_reducible rfl) | (with_reducible rfl) | (intro _) | split))

theorem settleFetch_fit {p : State × Fetch} (r : Reader) (owner : Owner) (cls : OpClass) (overwrites : Cell → Bool) (h : p.1.Fit) : State.Fit ((settleFetch r owner cls overwrites p).1) := by
  unfold settleFetch
  (try dsimp only)
  (repeat' (first | with_reducible assumption | (exact going_idle) | (exact going_waiting) | (exact going_preparing) | (exact going_running) | (intro _; rfl) | with_reducible apply readRun_fit | with_reducible apply writeBacks_fit | with_reducible apply strikeLost_fit | (with_reducible refine foldl_fit _ (fun _ _ _ => ?_) _ _ ?_) | (with_reducible refine foldl_fst_fit _ (fun _ _ _ => ?_) _ _ ?_) | (with_reducible apply issued_filter_fit) | (with_reducible apply issued_map_fit) | (with_reducible apply waitIn_fit) | (with_reducible apply restartBay_fit) | (simp only [fit_mk]) | (simp only [bay_fit_mk]) | (with_reducible refine Bay.Fit.bounds ?_) | (with_reducible refine State.Fit.parts ?_) |  (with_reducible rfl) | (with_reducible rfl) | (intro _) | split))

theorem noteCandidate_fit {s : State} (k : Candidate) (h : s.Fit) : State.Fit ((noteCandidate k s)) := by
  unfold noteCandidate
  (try dsimp only)
  (repeat' (first | with_reducible assumption | (exact going_idle) | (exact going_waiting) | (exact going_preparing) | (exact going_running) | (intro _; rfl) | (with_reducible refine foldl_fit _ (fun _ _ _ => ?_) _ _ ?_) | (with_reducible refine foldl_fst_fit _ (fun _ _ _ => ?_) _ _ ?_) | (with_reducible apply issued_filter_fit) | (with_reducible apply issued_map_fit) | (with_reducible apply waitIn_fit) | (with_reducible apply restartBay_fit) | (simp only [fit_mk]) | (simp only [bay_fit_mk]) | (with_reducible refine Bay.Fit.bounds ?_) | (with_reducible refine State.Fit.parts ?_) |  (with_reducible rfl) | (with_reducible rfl) | (intro _) | split))

theorem arriveCell_fit {p : State × Fetch} (r : Reader) (op : MemberOp) (res : OpResult) (c : Cell) (h : p.1.Fit) : State.Fit ((arriveCell r op res c p).1) := by
  unfold arriveCell
  (try dsimp only)
  (repeat' (first | with_reducible assumption | (exact going_idle) | (exact going_waiting) | (exact going_preparing) | (exact going_running) | (intro _; rfl) | with_reducible apply tagErrorAt_fit | with_reducible apply noteCandidate_fit | (with_reducible refine foldl_fit _ (fun _ _ _ => ?_) _ _ ?_) | (with_reducible refine foldl_fst_fit _ (fun _ _ _ => ?_) _ _ ?_) | (with_reducible apply issued_filter_fit) | (with_reducible apply issued_map_fit) | (with_reducible apply waitIn_fit) | (with_reducible apply restartBay_fit) | (simp only [fit_mk]) | (simp only [bay_fit_mk]) | (with_reducible refine Bay.Fit.bounds ?_) | (with_reducible refine State.Fit.parts ?_) |  (with_reducible rfl) | (with_reducible rfl) | (intro _) | split))

theorem arriveFetch_fit {p : State × Fetch} (r : Reader) (op : MemberOp) (res : OpResult) (h : p.1.Fit) : State.Fit ((arriveFetch r op res p).1) := by
  unfold arriveFetch
  (try dsimp only)
  (repeat' (first | with_reducible assumption | (exact going_idle) | (exact going_waiting) | (exact going_preparing) | (exact going_running) | (intro _; rfl) | with_reducible apply arriveCell_fit | (with_reducible refine foldl_fit _ (fun _ _ _ => ?_) _ _ ?_) | (with_reducible refine foldl_fst_fit _ (fun _ _ _ => ?_) _ _ ?_) | (with_reducible apply issued_filter_fit) | (with_reducible apply issued_map_fit) | (with_reducible apply waitIn_fit) | (with_reducible apply restartBay_fit) | (simp only [fit_mk]) | (simp only [bay_fit_mk]) | (with_reducible refine Bay.Fit.bounds ?_) | (with_reducible refine State.Fit.parts ?_) |  (with_reducible rfl) | (with_reducible rfl) | (intro _) | split))

theorem judgeOrphan_fit {s : State} (op : MemberOp) (res : OpResult) (h : s.Fit) : State.Fit (judgeOrphan op res s) := by
  unfold judgeOrphan
  (try dsimp only)
  (repeat' (first | with_reducible assumption | (exact going_idle) | (exact going_waiting) | (exact going_preparing) | (exact going_running) | (intro _; rfl) | with_reducible apply tagErrorAt_fit | (with_reducible refine foldl_fit _ (fun _ _ _ => ?_) _ _ ?_) | (with_reducible refine foldl_fst_fit _ (fun _ _ _ => ?_) _ _ ?_) | (with_reducible apply issued_filter_fit) | (with_reducible apply issued_map_fit) | (with_reducible apply waitIn_fit) | (with_reducible apply restartBay_fit) | (simp only [fit_mk]) | (simp only [bay_fit_mk]) | (with_reducible refine Bay.Fit.bounds ?_) | (with_reducible refine State.Fit.parts ?_) |  (with_reducible rfl) | (with_reducible rfl) | (intro _) | split))

end Sys2Proof.Machine
end

