-- ==== Sys2Proof/Laws/FitsRequest.lean ====
section
/-! SUPPORT. The invariant Fit through the request path. -/

set_option linter.unusedTactic false
set_option linter.unreachableTactic false
set_option linter.unusedSimpArgs false
set_option linter.unnecessarySeqFocus false

namespace Sys2Proof.Machine

/-! ### RequestPath -/

theorem beginPart_fit {s : State} (a idx : Nat) (l : Layout) (places : List (Layout × Cell × Nat)) (h : s.Fit) : State.Fit ((beginPart a idx l places s).1) := by
  unfold beginPart
  (try dsimp only)
  (repeat' (first | with_reducible assumption | (exact going_idle) | (exact going_waiting) | (exact going_preparing) | (exact going_running) | (intro _; rfl) | with_reducible apply readRun_fit | (with_reducible refine foldl_fit _ (fun _ _ _ => ?_) _ _ ?_) | (with_reducible refine foldl_fst_fit _ (fun _ _ _ => ?_) _ _ ?_) | (with_reducible apply issued_filter_fit) | (with_reducible apply issued_map_fit) | (with_reducible apply waitIn_fit) | (with_reducible apply restartBay_fit) | (simp only [fit_mk]) | (simp only [bay_fit_mk]) | (with_reducible refine Bay.Fit.bounds ?_) | (with_reducible refine State.Fit.parts ?_) |  (with_reducible rfl) | (with_reducible rfl) | (intro _) | split))

theorem beginRead_fit {s : State} (e : Entry) (h : s.Fit) : State.Fit ((beginRead e s)) := by
  unfold beginRead
  (try dsimp only)
  (repeat' (first | with_reducible assumption | (exact going_idle) | (exact going_waiting) | (exact going_preparing) | (exact going_running) | (intro _; rfl) | with_reducible apply push_fit | with_reducible apply updReq_fit | with_reducible apply beginPart_fit | (with_reducible refine foldl_fit _ (fun _ _ _ => ?_) _ _ ?_) | (with_reducible refine foldl_fst_fit _ (fun _ _ _ => ?_) _ _ ?_) | (with_reducible apply issued_filter_fit) | (with_reducible apply issued_map_fit) | (with_reducible apply waitIn_fit) | (with_reducible apply restartBay_fit) | (simp only [fit_mk]) | (simp only [bay_fit_mk]) | (with_reducible refine Bay.Fit.bounds ?_) | (with_reducible refine State.Fit.parts ?_) |  (with_reducible rfl) | (with_reducible rfl) | (intro _) | split))

theorem advanceRead_fit {s : State} (e : Entry) (h : s.Fit) : State.Fit ((advanceRead e s)) := by
  unfold advanceRead
  (try dsimp only)
  (repeat' (first | with_reducible assumption | (exact going_idle) | (exact going_waiting) | (exact going_preparing) | (exact going_running) | (intro _; rfl) | with_reducible apply updReq_fit | with_reducible apply giveUpKey_fit | with_reducible apply complete_fit | with_reducible apply settleFetch_fit | (with_reducible refine foldl_fit _ (fun _ _ _ => ?_) _ _ ?_) | (with_reducible refine foldl_fst_fit _ (fun _ _ _ => ?_) _ _ ?_) | (with_reducible apply issued_filter_fit) | (with_reducible apply issued_map_fit) | (with_reducible apply waitIn_fit) | (with_reducible apply restartBay_fit) | (simp only [fit_mk]) | (simp only [bay_fit_mk]) | (with_reducible refine Bay.Fit.bounds ?_) | (with_reducible refine State.Fit.parts ?_) |  (with_reducible rfl) | (with_reducible rfl) | (intro _) | split))

theorem readCells_fit {p : State × Fetch} (owner : Owner) (cls : OpClass) (cs : List Cell) (h : p.1.Fit) : State.Fit ((readCells owner cls cs p).1) := by
  unfold readCells
  (try dsimp only)
  (repeat' (first | with_reducible assumption | (exact going_idle) | (exact going_waiting) | (exact going_preparing) | (exact going_running) | (intro _; rfl) | with_reducible apply readRun_fit | (with_reducible refine foldl_fit _ (fun _ _ _ => ?_) _ _ ?_) | (with_reducible refine foldl_fst_fit _ (fun _ _ _ => ?_) _ _ ?_) | (with_reducible apply issued_filter_fit) | (with_reducible apply issued_map_fit) | (with_reducible apply waitIn_fit) | (with_reducible apply restartBay_fit) | (simp only [fit_mk]) | (simp only [bay_fit_mk]) | (with_reducible refine Bay.Fit.bounds ?_) | (with_reducible refine State.Fit.parts ?_) |  (with_reducible rfl) | (with_reducible rfl) | (intro _) | split))

theorem beginRow_fit {s : State} (a idx : Nat) (l : Layout) (row : Nat) (news : List (Cell × Block)) (h : s.Fit) : State.Fit ((beginRow a idx l row news s).1) := by
  unfold beginRow
  (try dsimp only)
  (repeat' (first | with_reducible assumption | (exact going_idle) | (exact going_waiting) | (exact going_preparing) | (exact going_running) | (intro _; rfl) | with_reducible apply readCells_fit | (with_reducible refine foldl_fit _ (fun _ _ _ => ?_) _ _ ?_) | (with_reducible refine foldl_fst_fit _ (fun _ _ _ => ?_) _ _ ?_) | (with_reducible apply issued_filter_fit) | (with_reducible apply issued_map_fit) | (with_reducible apply waitIn_fit) | (with_reducible apply restartBay_fit) | (simp only [fit_mk]) | (simp only [bay_fit_mk]) | (with_reducible refine Bay.Fit.bounds ?_) | (with_reducible refine State.Fit.parts ?_) |  (with_reducible rfl) | (with_reducible rfl) | (intro _) | split))

theorem beginWrite_fit {s : State} (e : Entry) (h : s.Fit) : State.Fit ((beginWrite e s)) := by
  unfold beginWrite
  (try dsimp only)
  (repeat' (first | with_reducible assumption | (exact going_idle) | (exact going_waiting) | (exact going_preparing) | (exact going_running) | (intro _; rfl) | with_reducible apply push_fit | with_reducible apply updReq_fit | with_reducible apply beginRow_fit | (with_reducible refine foldl_fit _ (fun _ _ _ => ?_) _ _ ?_) | (with_reducible refine foldl_fst_fit _ (fun _ _ _ => ?_) _ _ ?_) | (with_reducible apply issued_filter_fit) | (with_reducible apply issued_map_fit) | (with_reducible apply waitIn_fit) | (with_reducible apply restartBay_fit) | (simp only [fit_mk]) | (simp only [bay_fit_mk]) | (with_reducible refine Bay.Fit.bounds ?_) | (with_reducible refine State.Fit.parts ?_) |  (with_reducible rfl) | (with_reducible rfl) | (intro _) | split))

theorem capturePoison_fit {s : State} (unit : Nat) (ps : List (Option Slot × Cell × Option Nat)) (h : s.Fit) : State.Fit ((capturePoison unit ps s)) := by
  unfold capturePoison
  (try dsimp only)
  (repeat' (first | with_reducible assumption | (exact going_idle) | (exact going_waiting) | (exact going_preparing) | (exact going_running) | (intro _; rfl) | with_reducible apply raise_fit | with_reducible apply takeCapture_fit | (with_reducible refine foldl_fit _ (fun _ _ _ => ?_) _ _ ?_) | (with_reducible refine foldl_fst_fit _ (fun _ _ _ => ?_) _ _ ?_) | (with_reducible apply issued_filter_fit) | (with_reducible apply issued_map_fit) | (with_reducible apply waitIn_fit) | (with_reducible apply restartBay_fit) | (simp only [fit_mk]) | (simp only [bay_fit_mk]) | (with_reducible refine Bay.Fit.bounds ?_) | (with_reducible refine State.Fit.parts ?_) |  (with_reducible rfl) | (with_reducible rfl) | (intro _) | split))

theorem tellLoss_fit {s : State} (a : Nat) (h : s.Fit) : State.Fit (tellLoss a s) := by
  unfold tellLoss
  (try dsimp only)
  (repeat' (first | with_reducible assumption | (exact going_idle) | (exact going_waiting) | (exact going_preparing) | (exact going_running) | (intro _; rfl) | with_reducible apply raise_fit | with_reducible apply updReq_fit | (with_reducible refine foldl_fit _ (fun _ _ _ => ?_) _ _ ?_) | (with_reducible refine foldl_fst_fit _ (fun _ _ _ => ?_) _ _ ?_) | (with_reducible apply issued_filter_fit) | (with_reducible apply issued_map_fit) | (with_reducible apply waitIn_fit) | (with_reducible apply restartBay_fit) | (simp only [fit_mk]) | (simp only [bay_fit_mk]) | (with_reducible refine Bay.Fit.bounds ?_) | (with_reducible refine State.Fit.parts ?_) |  (with_reducible rfl) | (with_reducible rfl) | (intro _) | split))

theorem handRow_fit {s : State} (a idx : Nat) (w : RowWork) (h : s.Fit) : State.Fit ((handRow a idx w s).1) := by
  unfold handRow
  (try dsimp only)
  (repeat' (first | with_reducible assumption | (exact going_idle) | (exact going_waiting) | (exact going_preparing) | (exact going_running) | (intro _; rfl) | with_reducible apply tellLoss_fit | with_reducible apply handUnit_fit | with_reducible apply capturePoison_fit | (with_reducible refine foldl_fit _ (fun _ _ _ => ?_) _ _ ?_) | (with_reducible refine foldl_fst_fit _ (fun _ _ _ => ?_) _ _ ?_) | (with_reducible apply issued_filter_fit) | (with_reducible apply issued_map_fit) | (with_reducible apply waitIn_fit) | (with_reducible apply restartBay_fit) | (simp only [fit_mk]) | (simp only [bay_fit_mk]) | (with_reducible refine Bay.Fit.bounds ?_) | (with_reducible refine State.Fit.parts ?_) |  (with_reducible rfl) | (with_reducible rfl) | (intro _) | split))

theorem advanceRow_fit {s : State} (a idx : Nat) (w : RowWork) (h : s.Fit) : State.Fit ((advanceRow a idx w s).1) := by
  unfold advanceRow
  (try dsimp only)
  (repeat' (first | with_reducible assumption | (exact going_idle) | (exact going_waiting) | (exact going_preparing) | (exact going_running) | (intro _; rfl) | with_reducible apply giveUpKey_fit | with_reducible apply settleFetch_fit | with_reducible apply handRow_fit | (with_reducible refine foldl_fit _ (fun _ _ _ => ?_) _ _ ?_) | (with_reducible refine foldl_fst_fit _ (fun _ _ _ => ?_) _ _ ?_) | (with_reducible apply issued_filter_fit) | (with_reducible apply issued_map_fit) | (with_reducible apply waitIn_fit) | (with_reducible apply restartBay_fit) | (simp only [fit_mk]) | (simp only [bay_fit_mk]) | (with_reducible refine Bay.Fit.bounds ?_) | (with_reducible refine State.Fit.parts ?_) |  (with_reducible rfl) | (with_reducible rfl) | (intro _) | split))

theorem driveRow_fit {s : State} (a idx : Nat) (w : RowWork) (h : s.Fit) : State.Fit ((driveRow a idx w s).1) := by
  unfold driveRow
  (try dsimp only)
  (repeat' (first | with_reducible assumption | (exact going_idle) | (exact going_waiting) | (exact going_preparing) | (exact going_running) | (intro _; rfl) | with_reducible apply advanceRow_fit | (with_reducible refine foldl_fit _ (fun _ _ _ => ?_) _ _ ?_) | (with_reducible refine foldl_fst_fit _ (fun _ _ _ => ?_) _ _ ?_) | (with_reducible apply issued_filter_fit) | (with_reducible apply issued_map_fit) | (with_reducible apply waitIn_fit) | (with_reducible apply restartBay_fit) | (simp only [fit_mk]) | (simp only [bay_fit_mk]) | (with_reducible refine Bay.Fit.bounds ?_) | (with_reducible refine State.Fit.parts ?_) |  (with_reducible rfl) | (with_reducible rfl) | (intro _) | split))

theorem advanceWrite_fit {s : State} (e : Entry) (h : s.Fit) : State.Fit ((advanceWrite e s)) := by
  unfold advanceWrite
  (try dsimp only)
  (repeat' (first | with_reducible assumption | (exact going_idle) | (exact going_waiting) | (exact going_preparing) | (exact going_running) | (intro _; rfl) | with_reducible apply updReq_fit | with_reducible apply complete_fit | with_reducible apply driveRow_fit | (with_reducible refine foldl_fit _ (fun _ _ _ => ?_) _ _ ?_) | (with_reducible refine foldl_fst_fit _ (fun _ _ _ => ?_) _ _ ?_) | (with_reducible apply issued_filter_fit) | (with_reducible apply issued_map_fit) | (with_reducible apply waitIn_fit) | (with_reducible apply restartBay_fit) | (simp only [fit_mk]) | (simp only [bay_fit_mk]) | (with_reducible refine Bay.Fit.bounds ?_) | (with_reducible refine State.Fit.parts ?_) |  (with_reducible rfl) | (with_reducible rfl) | (intro _) | split))

theorem recheckGranted_fit {s : State} (a : Nat) (h : s.Fit) : State.Fit ((recheckGranted a s)) := by
  unfold recheckGranted
  (try dsimp only)
  (repeat' (first | with_reducible assumption | (exact going_idle) | (exact going_waiting) | (exact going_preparing) | (exact going_running) | (intro _; rfl) | with_reducible apply updReq_fit | with_reducible apply leaveLocks_fit | with_reducible apply complete_fit | with_reducible apply holdRequest_fit | with_reducible apply joinOrQueue_fit | with_reducible apply beginRead_fit | with_reducible apply beginWrite_fit | (with_reducible refine foldl_fit _ (fun _ _ _ => ?_) _ _ ?_) | (with_reducible refine foldl_fst_fit _ (fun _ _ _ => ?_) _ _ ?_) | (with_reducible apply issued_filter_fit) | (with_reducible apply issued_map_fit) | (with_reducible apply waitIn_fit) | (with_reducible apply restartBay_fit) | (simp only [fit_mk]) | (simp only [bay_fit_mk]) | (with_reducible refine Bay.Fit.bounds ?_) | (with_reducible refine State.Fit.parts ?_) |  (with_reducible rfl) | (with_reducible rfl) | (intro _) | split))

theorem ruleGrant_fit {s : State } {t : State}  (h : s.Fit) (e : ruleGrant s = some t) : t.Fit := by
  unfold ruleGrant at e
  (try dsimp only at e)
  (repeat' split at e) <;> (try simp only [Option.map_eq_some_iff, Option.some.injEq, reduceCtorEq] at e) <;> (try obtain ⟨_, -, rfl⟩ := e) <;> (try subst e)
  all_goals (repeat' (first | with_reducible assumption | (exact going_idle) | (exact going_waiting) | (exact going_preparing) | (exact going_running) | (intro _; rfl) | with_reducible apply updStep_fit | with_reducible apply grantKeys_fit | with_reducible apply recheckGranted_fit | (with_reducible refine foldl_fit _ (fun _ _ _ => ?_) _ _ ?_) | (with_reducible refine foldl_fst_fit _ (fun _ _ _ => ?_) _ _ ?_) | (with_reducible apply issued_filter_fit) | (with_reducible apply issued_map_fit) | (with_reducible apply waitIn_fit) | (with_reducible apply restartBay_fit) | (simp only [fit_mk]) | (simp only [bay_fit_mk]) | (with_reducible refine Bay.Fit.bounds ?_) | (with_reducible refine State.Fit.parts ?_) |  (with_reducible rfl) | (with_reducible rfl) | (intro _) | split))

theorem ruleQueued_fit {s : State } {t : State}  (h : s.Fit) (e : ruleQueued s = some t) : t.Fit := by
  unfold ruleQueued at e
  (try dsimp only at e)
  (repeat' split at e) <;> (try simp only [Option.map_eq_some_iff, Option.some.injEq, reduceCtorEq] at e) <;> (try obtain ⟨_, -, rfl⟩ := e) <;> (try subst e)
  all_goals (repeat' (first | with_reducible assumption | (exact going_idle) | (exact going_waiting) | (exact going_preparing) | (exact going_running) | (intro _; rfl) | with_reducible apply updReq_fit | with_reducible apply joinKeys_fit | (with_reducible refine foldl_fit _ (fun _ _ _ => ?_) _ _ ?_) | (with_reducible refine foldl_fst_fit _ (fun _ _ _ => ?_) _ _ ?_) | (with_reducible apply issued_filter_fit) | (with_reducible apply issued_map_fit) | (with_reducible apply waitIn_fit) | (with_reducible apply restartBay_fit) | (simp only [fit_mk]) | (simp only [bay_fit_mk]) | (with_reducible refine Bay.Fit.bounds ?_) | (with_reducible refine State.Fit.parts ?_) |  (with_reducible rfl) | (with_reducible rfl) | (intro _) | split))

theorem ruleFlush_fit {s : State } {t : State}  (h : s.Fit) (e : ruleFlush s = some t) : t.Fit := by
  unfold ruleFlush at e
  (try dsimp only at e)
  (repeat' split at e) <;> (try simp only [Option.map_eq_some_iff, Option.some.injEq, reduceCtorEq] at e) <;> (try obtain ⟨_, -, rfl⟩ := e) <;> (try subst e)
  all_goals (repeat' (first | with_reducible assumption | (exact going_idle) | (exact going_waiting) | (exact going_preparing) | (exact going_running) | (intro _; rfl) | with_reducible apply updReq_fit | with_reducible apply complete_fit | with_reducible apply handReserve_fit | (with_reducible refine foldl_fit _ (fun _ _ _ => ?_) _ _ ?_) | (with_reducible refine foldl_fst_fit _ (fun _ _ _ => ?_) _ _ ?_) | (with_reducible apply issued_filter_fit) | (with_reducible apply issued_map_fit) | (with_reducible apply waitIn_fit) | (with_reducible apply restartBay_fit) | (simp only [fit_mk]) | (simp only [bay_fit_mk]) | (with_reducible refine Bay.Fit.bounds ?_) | (with_reducible refine State.Fit.parts ?_) |  (with_reducible rfl) | (with_reducible rfl) | (intro _) | split))

theorem ruleDrained_fit {s : State } {t : State}  (h : s.Fit) (e : ruleDrained s = some t) : t.Fit := by
  unfold ruleDrained at e
  (try dsimp only at e)
  (repeat' split at e) <;> (try simp only [Option.map_eq_some_iff, Option.some.injEq, reduceCtorEq] at e) <;> (try obtain ⟨_, -, rfl⟩ := e) <;> (try subst e)
  all_goals (repeat' (first | with_reducible assumption | (exact going_idle) | (exact going_waiting) | (exact going_preparing) | (exact going_running) | (intro _; rfl) | with_reducible apply strikeRequest_fit | with_reducible apply freeEntry_fit | with_reducible apply leaveLocks_fit | (with_reducible refine foldl_fit _ (fun _ _ _ => ?_) _ _ ?_) | (with_reducible refine foldl_fst_fit _ (fun _ _ _ => ?_) _ _ ?_) | (with_reducible apply issued_filter_fit) | (with_reducible apply issued_map_fit) | (with_reducible apply waitIn_fit) | (with_reducible apply restartBay_fit) | (simp only [fit_mk]) | (simp only [bay_fit_mk]) | (with_reducible refine Bay.Fit.bounds ?_) | (with_reducible refine State.Fit.parts ?_) |  (with_reducible rfl) | (with_reducible rfl) | (intro _) | split))

theorem advanceRequest_fit {s : State} (a : Nat) (h : s.Fit) : State.Fit ((advanceRequest a s)) := by
  unfold advanceRequest
  (try dsimp only)
  (repeat' (first | with_reducible assumption | (exact going_idle) | (exact going_waiting) | (exact going_preparing) | (exact going_running) | (intro _; rfl) | with_reducible apply advanceRead_fit | with_reducible apply advanceWrite_fit | (with_reducible refine foldl_fit _ (fun _ _ _ => ?_) _ _ ?_) | (with_reducible refine foldl_fst_fit _ (fun _ _ _ => ?_) _ _ ?_) | (with_reducible apply issued_filter_fit) | (with_reducible apply issued_map_fit) | (with_reducible apply waitIn_fit) | (with_reducible apply restartBay_fit) | (simp only [fit_mk]) | (simp only [bay_fit_mk]) | (with_reducible refine Bay.Fit.bounds ?_) | (with_reducible refine State.Fit.parts ?_) |  (with_reducible rfl) | (with_reducible rfl) | (intro _) | split))
end Sys2Proof.Machine
end

