-- ==== Sys2Proof/Laws/FitsMover.lean ====
section
/-! SUPPORT. The invariant Fit through the mover and remapping. -/

set_option linter.unusedTactic false
set_option linter.unreachableTactic false
set_option linter.unusedSimpArgs false
set_option linter.unnecessarySeqFocus false

namespace Sys2Proof.Machine

/-! ### Mover -/

theorem readColumn_fit {p : State × Fetch} (owner : Owner) (row pos n : Nat) (h : p.1.Fit) : State.Fit ((readColumn owner row pos n p).1) := by
  unfold readColumn
  (try dsimp only)
  (repeat' (first | with_reducible assumption | (exact going_idle) | (exact going_waiting) | (exact going_preparing) | (exact going_running) | (intro _; rfl) | with_reducible apply handUnit_fit | (with_reducible refine foldl_fit _ (fun _ _ _ => ?_) _ _ ?_) | (with_reducible refine foldl_fst_fit _ (fun _ _ _ => ?_) _ _ ?_) | (with_reducible apply issued_filter_fit) | (with_reducible apply issued_map_fit) | (with_reducible apply waitIn_fit) | (with_reducible apply restartBay_fit) | (simp only [fit_mk]) | (simp only [bay_fit_mk]) | (with_reducible refine Bay.Fit.bounds ?_) | (with_reducible refine State.Fit.parts ?_) |  (with_reducible rfl) | (with_reducible rfl) | (intro _) | split))

theorem readUnit_fit {p : State × Fetch} (owner : Owner) (u : RowUnit) (h : p.1.Fit) : State.Fit ((readUnit owner u p).1) := by
  unfold readUnit
  (try dsimp only)
  (repeat' (first | with_reducible assumption | (exact going_idle) | (exact going_waiting) | (exact going_preparing) | (exact going_running) | (intro _; rfl) | with_reducible apply readRun_fit | (with_reducible refine foldl_fit _ (fun _ _ _ => ?_) _ _ ?_) | (with_reducible refine foldl_fst_fit _ (fun _ _ _ => ?_) _ _ ?_) | (with_reducible apply issued_filter_fit) | (with_reducible apply issued_map_fit) | (with_reducible apply waitIn_fit) | (with_reducible apply restartBay_fit) | (simp only [fit_mk]) | (simp only [bay_fit_mk]) | (with_reducible refine Bay.Fit.bounds ?_) | (with_reducible refine State.Fit.parts ?_) |  (with_reducible rfl) | (with_reducible rfl) | (intro _) | split))

theorem readSource_fit {p : State × Fetch} (owner : Owner) (u : RowUnit) (h : p.1.Fit) : State.Fit ((readSource owner u p).1) := by
  unfold readSource
  (try dsimp only)
  (repeat' (first | with_reducible assumption | (exact going_idle) | (exact going_waiting) | (exact going_preparing) | (exact going_running) | (intro _; rfl) | with_reducible apply readUnit_fit | (with_reducible refine foldl_fit _ (fun _ _ _ => ?_) _ _ ?_) | (with_reducible refine foldl_fst_fit _ (fun _ _ _ => ?_) _ _ ?_) | (with_reducible apply issued_filter_fit) | (with_reducible apply issued_map_fit) | (with_reducible apply waitIn_fit) | (with_reducible apply restartBay_fit) | (simp only [fit_mk]) | (simp only [bay_fit_mk]) | (with_reducible refine Bay.Fit.bounds ?_) | (with_reducible refine State.Fit.parts ?_) |  (with_reducible rfl) | (with_reducible rfl) | (intro _) | split))

theorem rereadUnit_fit {p : State × Fetch} (owner : Owner) (source : List RowUnit) (u : RowUnit) (h : p.1.Fit) : State.Fit ((rereadUnit owner source u p).1) := by
  unfold rereadUnit
  (try dsimp only)
  (repeat' (first | with_reducible assumption | (exact going_idle) | (exact going_waiting) | (exact going_preparing) | (exact going_running) | (intro _; rfl) | with_reducible apply readUnit_fit | with_reducible apply readSource_fit | (with_reducible refine foldl_fit _ (fun _ _ _ => ?_) _ _ ?_) | (with_reducible refine foldl_fst_fit _ (fun _ _ _ => ?_) _ _ ?_) | (with_reducible apply issued_filter_fit) | (with_reducible apply issued_map_fit) | (with_reducible apply waitIn_fit) | (with_reducible apply restartBay_fit) | (simp only [fit_mk]) | (simp only [bay_fit_mk]) | (with_reducible refine Bay.Fit.bounds ?_) | (with_reducible refine State.Fit.parts ?_) |  (with_reducible rfl) | (with_reducible rfl) | (intro _) | split))

theorem beginReads_fit {s : State} (g : Staging) (t : Step) (h : s.Fit) : State.Fit ((beginReads g t s).1) := by
  unfold beginReads
  (try dsimp only)
  (repeat' (first | with_reducible assumption | (exact going_idle) | (exact going_waiting) | (exact going_preparing) | (exact going_running) | (intro _; rfl) | with_reducible apply readColumn_fit | with_reducible apply readSource_fit | (with_reducible refine foldl_fit _ (fun _ _ _ => ?_) _ _ ?_) | (with_reducible refine foldl_fst_fit _ (fun _ _ _ => ?_) _ _ ?_) | (with_reducible apply issued_filter_fit) | (with_reducible apply issued_map_fit) | (with_reducible apply waitIn_fit) | (with_reducible apply restartBay_fit) | (simp only [fit_mk]) | (simp only [bay_fit_mk]) | (with_reducible refine Bay.Fit.bounds ?_) | (with_reducible refine State.Fit.parts ?_) |  (with_reducible rfl) | (with_reducible rfl) | (intro _) | split))

theorem settleJoin_fit {s : State} (g : Staging) (t : Step) (h : s.Fit) : State.Fit ((settleJoin g t s)) := by
  unfold settleJoin
  (try dsimp only)
  (repeat' (first | with_reducible assumption | (exact going_idle) | (exact going_waiting) | (exact going_preparing) | (exact going_running) | (intro _; rfl) | with_reducible apply setStep_fit | with_reducible apply joinOrQueue_fit | with_reducible apply arrival_fit | (with_reducible refine foldl_fit _ (fun _ _ _ => ?_) _ _ ?_) | (with_reducible refine foldl_fst_fit _ (fun _ _ _ => ?_) _ _ ?_) | (with_reducible apply issued_filter_fit) | (with_reducible apply issued_map_fit) | (with_reducible apply waitIn_fit) | (with_reducible apply restartBay_fit) | (simp only [fit_mk]) | (simp only [bay_fit_mk]) | (with_reducible refine Bay.Fit.bounds ?_) | (with_reducible refine State.Fit.parts ?_) |  (with_reducible rfl) | (with_reducible rfl) | (intro _) | split))

theorem beginStep_fit {s : State} (g : Staging) (l : Layout) (h : s.Fit) : State.Fit ((beginStep g l s)) := by
  unfold beginStep
  (try dsimp only)
  (repeat' (first | with_reducible assumption | (exact going_idle) | (exact going_waiting) | (exact going_preparing) | (exact going_running) | (intro _; rfl) | with_reducible apply push_fit | with_reducible apply setStep_fit | with_reducible apply beginReads_fit | with_reducible apply settleJoin_fit | (with_reducible refine foldl_fit _ (fun _ _ _ => ?_) _ _ ?_) | (with_reducible refine foldl_fst_fit _ (fun _ _ _ => ?_) _ _ ?_) | (with_reducible apply issued_filter_fit) | (with_reducible apply issued_map_fit) | (with_reducible apply waitIn_fit) | (with_reducible apply restartBay_fit) | (simp only [fit_mk]) | (simp only [bay_fit_mk]) | (with_reducible refine Bay.Fit.bounds ?_) | (with_reducible refine State.Fit.parts ?_) |  (with_reducible rfl) | (with_reducible rfl) | (intro _) | split))

theorem ruleBegin_fit {s : State } {t : State}  (h : s.Fit) (e : ruleBegin s = some t) : t.Fit := by
  unfold ruleBegin at e
  (try dsimp only at e)
  (repeat' split at e) <;> (try simp only [Option.map_eq_some_iff, Option.some.injEq, reduceCtorEq] at e) <;> (try obtain ⟨_, -, rfl⟩ := e) <;> (try subst e)
  all_goals (repeat' (first | with_reducible assumption | (exact going_idle) | (exact going_waiting) | (exact going_preparing) | (exact going_running) | (intro _; rfl) | with_reducible apply beginStep_fit | (with_reducible refine foldl_fit _ (fun _ _ _ => ?_) _ _ ?_) | (with_reducible refine foldl_fst_fit _ (fun _ _ _ => ?_) _ _ ?_) | (with_reducible apply issued_filter_fit) | (with_reducible apply issued_map_fit) | (with_reducible apply waitIn_fit) | (with_reducible apply restartBay_fit) | (simp only [fit_mk]) | (simp only [bay_fit_mk]) | (with_reducible refine Bay.Fit.bounds ?_) | (with_reducible refine State.Fit.parts ?_) |  (with_reducible rfl) | (with_reducible rfl) | (intro _) | split))

theorem advanceStep_fit {s : State} (g : Staging) (h : s.Fit) : State.Fit ((advanceStep g s)) := by
  unfold advanceStep
  (try dsimp only)
  (repeat' (first | with_reducible assumption | (exact going_idle) | (exact going_waiting) | (exact going_preparing) | (exact going_running) | (intro _; rfl) | with_reducible apply updStep_fit | with_reducible apply settleFetch_fit | (with_reducible refine foldl_fit _ (fun _ _ _ => ?_) _ _ ?_) | (with_reducible refine foldl_fst_fit _ (fun _ _ _ => ?_) _ _ ?_) | (with_reducible apply issued_filter_fit) | (with_reducible apply issued_map_fit) | (with_reducible apply waitIn_fit) | (with_reducible apply restartBay_fit) | (simp only [fit_mk]) | (simp only [bay_fit_mk]) | (with_reducible refine Bay.Fit.bounds ?_) | (with_reducible refine State.Fit.parts ?_) |  (with_reducible rfl) | (with_reducible rfl) | (intro _) | split))

theorem endGather_fit {s : State} (g : Staging) (op : MemberOp) (res : OpResult) (h : s.Fit) : State.Fit ((endGather g op res s)) := by
  unfold endGather
  (try dsimp only)
  (repeat' (first | with_reducible assumption | (exact going_idle) | (exact going_waiting) | (exact going_preparing) | (exact going_running) | (intro _; rfl) | with_reducible apply judgeOrphan_fit | with_reducible apply push_fit | with_reducible apply updStep_fit | with_reducible apply arriveFetch_fit | (with_reducible refine foldl_fit _ (fun _ _ _ => ?_) _ _ ?_) | (with_reducible refine foldl_fst_fit _ (fun _ _ _ => ?_) _ _ ?_) | (with_reducible apply issued_filter_fit) | (with_reducible apply issued_map_fit) | (with_reducible apply waitIn_fit) | (with_reducible apply restartBay_fit) | (simp only [fit_mk]) | (simp only [bay_fit_mk]) | (with_reducible refine Bay.Fit.bounds ?_) | (with_reducible refine State.Fit.parts ?_) |  (with_reducible rfl) | (with_reducible rfl) | (intro _) | split))

theorem recopy_fit {s : State} (g : Staging) (t : Step) (h : s.Fit) : State.Fit ((recopy g t s)) := by
  unfold recopy
  (try dsimp only)
  (repeat' (first | with_reducible assumption | (exact going_idle) | (exact going_waiting) | (exact going_preparing) | (exact going_running) | (intro _; rfl) | with_reducible apply rereadUnit_fit | with_reducible apply push_fit | with_reducible apply updStep_fit | with_reducible apply readRun_fit | (with_reducible refine foldl_fit _ (fun _ _ _ => ?_) _ _ ?_) | (with_reducible refine foldl_fst_fit _ (fun _ _ _ => ?_) _ _ ?_) | (with_reducible apply issued_filter_fit) | (with_reducible apply issued_map_fit) | (with_reducible apply waitIn_fit) | (with_reducible apply restartBay_fit) | (simp only [fit_mk]) | (simp only [bay_fit_mk]) | (with_reducible refine Bay.Fit.bounds ?_) | (with_reducible refine State.Fit.parts ?_) |  (with_reducible rfl) | (with_reducible rfl) | (intro _) | split))

theorem ruleRecopy_fit {s : State } {t : State}  (h : s.Fit) (e : ruleRecopy s = some t) : t.Fit := by
  unfold ruleRecopy at e
  (try dsimp only at e)
  (repeat' split at e) <;> (try simp only [Option.map_eq_some_iff, Option.some.injEq, reduceCtorEq] at e) <;> (try obtain ⟨_, -, rfl⟩ := e) <;> (try subst e)
  all_goals (repeat' (first | with_reducible assumption | (exact going_idle) | (exact going_waiting) | (exact going_preparing) | (exact going_running) | (intro _; rfl) | with_reducible apply recopy_fit | (with_reducible refine foldl_fit _ (fun _ _ _ => ?_) _ _ ?_) | (with_reducible refine foldl_fst_fit _ (fun _ _ _ => ?_) _ _ ?_) | (with_reducible apply issued_filter_fit) | (with_reducible apply issued_map_fit) | (with_reducible apply waitIn_fit) | (with_reducible apply restartBay_fit) | (simp only [fit_mk]) | (simp only [bay_fit_mk]) | (with_reducible refine Bay.Fit.bounds ?_) | (with_reducible refine State.Fit.parts ?_) |  (with_reducible rfl) | (with_reducible rfl) | (intro _) | split))

theorem stainSteps_fit {s : State} (i : Slot) (rows : List Nat) (h : s.Fit) : State.Fit ((stainSteps i rows s)) := by
  unfold stainSteps
  (try dsimp only)
  (repeat' (first | with_reducible assumption | (exact going_idle) | (exact going_waiting) | (exact going_preparing) | (exact going_running) | (intro _; rfl) | with_reducible apply updStep_fit | (with_reducible refine foldl_fit _ (fun _ _ _ => ?_) _ _ ?_) | (with_reducible refine foldl_fst_fit _ (fun _ _ _ => ?_) _ _ ?_) | (with_reducible apply issued_filter_fit) | (with_reducible apply issued_map_fit) | (with_reducible apply waitIn_fit) | (with_reducible apply restartBay_fit) | (simp only [fit_mk]) | (simp only [bay_fit_mk]) | (with_reducible refine Bay.Fit.bounds ?_) | (with_reducible refine State.Fit.parts ?_) |  (with_reducible rfl) | (with_reducible rfl) | (intro _) | split))

theorem repin_fit {s : State}  (h : s.Fit) : State.Fit ((repin s)) := by
  unfold repin
  (try dsimp only)
  (repeat' (first | with_reducible assumption | (exact going_idle) | (exact going_waiting) | (exact going_preparing) | (exact going_running) | (intro _; rfl) | with_reducible apply updStep_fit | (with_reducible refine foldl_fit _ (fun _ _ _ => ?_) _ _ ?_) | (with_reducible refine foldl_fst_fit _ (fun _ _ _ => ?_) _ _ ?_) | (with_reducible apply issued_filter_fit) | (with_reducible apply issued_map_fit) | (with_reducible apply waitIn_fit) | (with_reducible apply restartBay_fit) | (simp only [fit_mk]) | (simp only [bay_fit_mk]) | (with_reducible refine Bay.Fit.bounds ?_) | (with_reducible refine State.Fit.parts ?_) |  (with_reducible rfl) | (with_reducible rfl) | (intro _) | split))

theorem ruleFreeze_fit {s : State } {t : State}  (h : s.Fit) (e : ruleFreeze s = some t) : t.Fit := by
  unfold ruleFreeze at e
  (try dsimp only at e)
  (repeat' split at e) <;> (try simp only [Option.map_eq_some_iff, Option.some.injEq, reduceCtorEq] at e) <;> (try obtain ⟨_, -, rfl⟩ := e) <;> (try subst e)
  all_goals (repeat' (first | with_reducible assumption | (exact going_idle) | (exact going_waiting) | (exact going_preparing) | (exact going_running) | (intro _; rfl) | with_reducible apply strikeReader_fit | with_reducible apply setStep_fit | (with_reducible refine foldl_fit _ (fun _ _ _ => ?_) _ _ ?_) | (with_reducible refine foldl_fst_fit _ (fun _ _ _ => ?_) _ _ ?_) | (with_reducible apply issued_filter_fit) | (with_reducible apply issued_map_fit) | (with_reducible apply waitIn_fit) | (with_reducible apply restartBay_fit) | (simp only [fit_mk]) | (simp only [bay_fit_mk]) | (with_reducible refine Bay.Fit.bounds ?_) | (with_reducible refine State.Fit.parts ?_) |  (with_reducible rfl) | (with_reducible rfl) | (intro _) | split))

theorem ruleDecide_fit {s : State } {t : State}  (h : s.Fit) (e : ruleDecide s = some t) : t.Fit := by
  unfold ruleDecide at e
  (try dsimp only at e)
  (repeat' split at e) <;> (try simp only [Option.map_eq_some_iff, Option.some.injEq, reduceCtorEq] at e) <;> (try obtain ⟨_, -, rfl⟩ := e) <;> (try subst e)
  all_goals (repeat' (first | with_reducible assumption | (exact going_idle) | (exact going_waiting) | (exact going_preparing) | (exact going_running) | (intro _; rfl) | with_reducible apply updStep_fit | with_reducible apply raiseCause_fit | (with_reducible refine foldl_fit _ (fun _ _ _ => ?_) _ _ ?_) | (with_reducible refine foldl_fst_fit _ (fun _ _ _ => ?_) _ _ ?_) | (with_reducible apply issued_filter_fit) | (with_reducible apply issued_map_fit) | (with_reducible apply waitIn_fit) | (with_reducible apply restartBay_fit) | (simp only [fit_mk]) | (simp only [bay_fit_mk]) | (with_reducible refine Bay.Fit.bounds ?_) | (with_reducible refine State.Fit.parts ?_) |  (with_reducible rfl) | (with_reducible rfl) | (intro _) | split))

theorem handSpill_fit {s : State} (g : Staging) (t : Step) (l : Layout) (h : s.Fit) : State.Fit ((handSpill g t l s)) := by
  unfold handSpill
  (try dsimp only)
  (repeat' (first | with_reducible assumption | (exact going_idle) | (exact going_waiting) | (exact going_preparing) | (exact going_running) | (intro _; rfl) | with_reducible apply updStep_fit | with_reducible apply handReserve_fit | (with_reducible refine foldl_fit _ (fun _ _ _ => ?_) _ _ ?_) | (with_reducible refine foldl_fst_fit _ (fun _ _ _ => ?_) _ _ ?_) | (with_reducible apply issued_filter_fit) | (with_reducible apply issued_map_fit) | (with_reducible apply waitIn_fit) | (with_reducible apply restartBay_fit) | (simp only [fit_mk]) | (simp only [bay_fit_mk]) | (with_reducible refine Bay.Fit.bounds ?_) | (with_reducible refine State.Fit.parts ?_) |  (with_reducible rfl) | (with_reducible rfl) | (intro _) | split))

theorem ruleSpill_fit {s : State } {t : State}  (h : s.Fit) (e : ruleSpill s = some t) : t.Fit := by
  unfold ruleSpill at e
  (try dsimp only at e)
  (repeat' split at e) <;> (try simp only [Option.map_eq_some_iff, Option.some.injEq, reduceCtorEq] at e) <;> (try obtain ⟨_, -, rfl⟩ := e) <;> (try subst e)
  all_goals (repeat' (first | with_reducible assumption | (exact going_idle) | (exact going_waiting) | (exact going_preparing) | (exact going_running) | (intro _; rfl) | with_reducible apply handSpill_fit | (with_reducible refine foldl_fit _ (fun _ _ _ => ?_) _ _ ?_) | (with_reducible refine foldl_fst_fit _ (fun _ _ _ => ?_) _ _ ?_) | (with_reducible apply issued_filter_fit) | (with_reducible apply issued_map_fit) | (with_reducible apply waitIn_fit) | (with_reducible apply restartBay_fit) | (simp only [fit_mk]) | (simp only [bay_fit_mk]) | (with_reducible refine Bay.Fit.bounds ?_) | (with_reducible refine State.Fit.parts ?_) |  (with_reducible rfl) | (with_reducible rfl) | (intro _) | split))

theorem ruleSpillRecord_fit {s : State } {t : State}  (h : s.Fit) (e : ruleSpillRecord s = some t) : t.Fit := by
  unfold ruleSpillRecord at e
  (try dsimp only at e)
  (repeat' split at e) <;> (try simp only [Option.map_eq_some_iff, Option.some.injEq, reduceCtorEq] at e) <;> (try obtain ⟨_, -, rfl⟩ := e) <;> (try subst e)
  all_goals (repeat' (first | with_reducible assumption | (exact going_idle) | (exact going_waiting) | (exact going_preparing) | (exact going_running) | (intro _; rfl) | with_reducible apply updStep_fit | with_reducible apply handReserve_fit | (with_reducible refine foldl_fit _ (fun _ _ _ => ?_) _ _ ?_) | (with_reducible refine foldl_fst_fit _ (fun _ _ _ => ?_) _ _ ?_) | (with_reducible apply issued_filter_fit) | (with_reducible apply issued_map_fit) | (with_reducible apply waitIn_fit) | (with_reducible apply restartBay_fit) | (simp only [fit_mk]) | (simp only [bay_fit_mk]) | (with_reducible refine Bay.Fit.bounds ?_) | (with_reducible refine State.Fit.parts ?_) |  (with_reducible rfl) | (with_reducible rfl) | (intro _) | split))

theorem rulePlace_fit {s : State } {t : State}  (h : s.Fit) (e : rulePlace s = some t) : t.Fit := by
  unfold rulePlace at e
  (try dsimp only at e)
  (repeat' split at e) <;> (try simp only [Option.map_eq_some_iff, Option.some.injEq, reduceCtorEq] at e) <;> (try obtain ⟨_, -, rfl⟩ := e) <;> (try subst e)
  all_goals (repeat' (first | with_reducible assumption | (exact going_idle) | (exact going_waiting) | (exact going_preparing) | (exact going_running) | (intro _; rfl) | with_reducible apply updStep_fit | with_reducible apply handUnit_fit | (with_reducible refine foldl_fit _ (fun _ _ _ => ?_) _ _ ?_) | (with_reducible refine foldl_fst_fit _ (fun _ _ _ => ?_) _ _ ?_) | (with_reducible apply issued_filter_fit) | (with_reducible apply issued_map_fit) | (with_reducible apply waitIn_fit) | (with_reducible apply restartBay_fit) | (simp only [fit_mk]) | (simp only [bay_fit_mk]) | (with_reducible refine Bay.Fit.bounds ?_) | (with_reducible refine State.Fit.parts ?_) |  (with_reducible rfl) | (with_reducible rfl) | (intro _) | split))

theorem endMigrate_fit {s : State}  (h : s.Fit) : State.Fit ((endMigrate s)) := by
  unfold endMigrate
  (try dsimp only)
  (repeat' (first | with_reducible assumption | (exact going_idle) | (exact going_waiting) | (exact going_preparing) | (exact going_running) | (intro _; rfl) | (with_reducible refine foldl_fit _ (fun _ _ _ => ?_) _ _ ?_) | (with_reducible refine foldl_fst_fit _ (fun _ _ _ => ?_) _ _ ?_) | (with_reducible apply issued_filter_fit) | (with_reducible apply issued_map_fit) | (with_reducible apply waitIn_fit) | (with_reducible apply restartBay_fit) | (simp only [fit_mk]) | (simp only [bay_fit_mk]) | (with_reducible refine Bay.Fit.bounds ?_) | (with_reducible refine State.Fit.parts ?_) |  (with_reducible rfl) | (with_reducible rfl) | (intro _) | split))

theorem retire_fit {s : State} (g : Staging) (t : Step) (marked : Bool) (h : s.Fit) : State.Fit ((retire g t marked s)) := by
  unfold retire
  (try dsimp only)
  (repeat' (first | with_reducible assumption | (exact going_idle) | (exact going_waiting) | (exact going_preparing) | (exact going_running) | (intro _; rfl) | with_reducible apply reportChange_fit | with_reducible apply setStep_fit | with_reducible apply refreshMark_fit | with_reducible apply releaseHolds_fit | with_reducible apply endMigrate_fit | (with_reducible refine foldl_fit _ (fun _ _ _ => ?_) _ _ ?_) | (with_reducible refine foldl_fst_fit _ (fun _ _ _ => ?_) _ _ ?_) | (with_reducible apply issued_filter_fit) | (with_reducible apply issued_map_fit) | (with_reducible apply waitIn_fit) | (with_reducible apply restartBay_fit) | (simp only [fit_mk]) | (simp only [bay_fit_mk]) | (with_reducible refine Bay.Fit.bounds ?_) | (with_reducible refine State.Fit.parts ?_) |  (with_reducible rfl) | (with_reducible rfl) | (intro _) | split))

theorem notePoison_fit {s : State} (g : Staging) (op : MemberOp) (res : OpResult) (h : s.Fit) : State.Fit (notePoison g op res s) := by
  unfold notePoison
  (try dsimp only)
  (repeat' (first | with_reducible assumption | (exact going_idle) | (exact going_waiting) | (exact going_preparing) | (exact going_running) | (intro _; rfl) | with_reducible apply updStep_fit | (with_reducible refine foldl_fit _ (fun _ _ _ => ?_) _ _ ?_) | (with_reducible refine foldl_fst_fit _ (fun _ _ _ => ?_) _ _ ?_) | (with_reducible apply issued_filter_fit) | (with_reducible apply issued_map_fit) | (with_reducible apply waitIn_fit) | (with_reducible apply restartBay_fit) | (simp only [fit_mk]) | (simp only [bay_fit_mk]) | (with_reducible refine Bay.Fit.bounds ?_) | (with_reducible refine State.Fit.parts ?_) |  (with_reducible rfl) | (with_reducible rfl) | (intro _) | split))

theorem endPlace_fit {s : State} (g : Staging) (t : Step) (l : Layout) (h : s.Fit) : State.Fit ((endPlace g t l s)) := by
  unfold endPlace
  (try dsimp only)
  (repeat' (first | with_reducible assumption | (exact going_idle) | (exact going_waiting) | (exact going_preparing) | (exact going_running) | (intro _; rfl) | with_reducible apply raise_fit | with_reducible apply leaveLocks_fit | with_reducible apply updStep_fit | with_reducible apply raiseCause_fit | with_reducible apply capturePoison_fit | with_reducible apply retire_fit | (with_reducible refine foldl_fit _ (fun _ _ _ => ?_) _ _ ?_) | (with_reducible refine foldl_fst_fit _ (fun _ _ _ => ?_) _ _ ?_) | (with_reducible apply issued_filter_fit) | (with_reducible apply issued_map_fit) | (with_reducible apply waitIn_fit) | (with_reducible apply restartBay_fit) | (simp only [fit_mk]) | (simp only [bay_fit_mk]) | (with_reducible refine Bay.Fit.bounds ?_) | (with_reducible refine State.Fit.parts ?_) |  (with_reducible rfl) | (with_reducible rfl) | (intro _) | split))

theorem rulePlaced_fit {s : State } {t : State}  (h : s.Fit) (e : rulePlaced s = some t) : t.Fit := by
  unfold rulePlaced at e
  (try dsimp only at e)
  (repeat' split at e) <;> (try simp only [Option.map_eq_some_iff, Option.some.injEq, reduceCtorEq] at e) <;> (try obtain ⟨_, -, rfl⟩ := e) <;> (try subst e)
  all_goals (repeat' (first | with_reducible assumption | (exact going_idle) | (exact going_waiting) | (exact going_preparing) | (exact going_running) | (intro _; rfl) | with_reducible apply endPlace_fit | (with_reducible refine foldl_fit _ (fun _ _ _ => ?_) _ _ ?_) | (with_reducible refine foldl_fst_fit _ (fun _ _ _ => ?_) _ _ ?_) | (with_reducible apply issued_filter_fit) | (with_reducible apply issued_map_fit) | (with_reducible apply waitIn_fit) | (with_reducible apply restartBay_fit) | (simp only [fit_mk]) | (simp only [bay_fit_mk]) | (with_reducible refine Bay.Fit.bounds ?_) | (with_reducible refine State.Fit.parts ?_) |  (with_reducible rfl) | (with_reducible rfl) | (intro _) | split))

theorem stepWriteEnded_fit {s : State} (g : Staging) (h : s.Fit) : State.Fit ((stepWriteEnded g s)) := by
  unfold stepWriteEnded
  (try dsimp only)
  (repeat' (first | with_reducible assumption | (exact going_idle) | (exact going_waiting) | (exact going_preparing) | (exact going_running) | (intro _; rfl) | with_reducible apply updStep_fit | (with_reducible refine foldl_fit _ (fun _ _ _ => ?_) _ _ ?_) | (with_reducible refine foldl_fst_fit _ (fun _ _ _ => ?_) _ _ ?_) | (with_reducible apply issued_filter_fit) | (with_reducible apply issued_map_fit) | (with_reducible apply waitIn_fit) | (with_reducible apply restartBay_fit) | (simp only [fit_mk]) | (simp only [bay_fit_mk]) | (with_reducible refine Bay.Fit.bounds ?_) | (with_reducible refine State.Fit.parts ?_) |  (with_reducible rfl) | (with_reducible rfl) | (intro _) | split))

theorem endSpillColumn_fit {s : State} (g : Staging) (again : Bool) (op : MemberOp) (res : OpResult) (h : s.Fit) : State.Fit ((endSpillColumn g again op res s)) := by
  unfold endSpillColumn
  (try dsimp only)
  (repeat' (first | with_reducible assumption | (exact going_idle) | (exact going_waiting) | (exact going_preparing) | (exact going_running) | (intro _; rfl) | with_reducible apply handReserve_fit | with_reducible apply failBay_fit | with_reducible apply stepWriteEnded_fit | (with_reducible refine foldl_fit _ (fun _ _ _ => ?_) _ _ ?_) | (with_reducible refine foldl_fst_fit _ (fun _ _ _ => ?_) _ _ ?_) | (with_reducible apply issued_filter_fit) | (with_reducible apply issued_map_fit) | (with_reducible apply waitIn_fit) | (with_reducible apply restartBay_fit) | (simp only [fit_mk]) | (simp only [bay_fit_mk]) | (with_reducible refine Bay.Fit.bounds ?_) | (with_reducible refine State.Fit.parts ?_) |  (with_reducible rfl) | (with_reducible rfl) | (intro _) | split))

theorem spillRecordEnded_fit {s : State}  (h : s.Fit) : State.Fit ((spillRecordEnded s)) := by
  unfold spillRecordEnded
  (try dsimp only)
  (repeat' (first | with_reducible assumption | (exact going_idle) | (exact going_waiting) | (exact going_preparing) | (exact going_running) | (intro _; rfl) | (with_reducible refine foldl_fit _ (fun _ _ _ => ?_) _ _ ?_) | (with_reducible refine foldl_fst_fit _ (fun _ _ _ => ?_) _ _ ?_) | (with_reducible apply issued_filter_fit) | (with_reducible apply issued_map_fit) | (with_reducible apply waitIn_fit) | (with_reducible apply restartBay_fit) | (simp only [fit_mk]) | (simp only [bay_fit_mk]) | (with_reducible refine Bay.Fit.bounds ?_) | (with_reducible refine State.Fit.parts ?_) |  (with_reducible rfl) | (with_reducible rfl) | (intro _) | split))

theorem endSpillRecord_fit {s : State} (again : Bool) (op : MemberOp) (res : OpResult) (h : s.Fit) : State.Fit ((endSpillRecord again op res s)) := by
  unfold endSpillRecord
  (try dsimp only)
  (repeat' (first | with_reducible assumption | (exact going_idle) | (exact going_waiting) | (exact going_preparing) | (exact going_running) | (intro _; rfl) | with_reducible apply handReserve_fit | with_reducible apply failBay_fit | with_reducible apply spillRecordEnded_fit | (with_reducible refine foldl_fit _ (fun _ _ _ => ?_) _ _ ?_) | (with_reducible refine foldl_fst_fit _ (fun _ _ _ => ?_) _ _ ?_) | (with_reducible apply issued_filter_fit) | (with_reducible apply issued_map_fit) | (with_reducible apply waitIn_fit) | (with_reducible apply restartBay_fit) | (simp only [fit_mk]) | (simp only [bay_fit_mk]) | (with_reducible refine Bay.Fit.bounds ?_) | (with_reducible refine State.Fit.parts ?_) |  (with_reducible rfl) | (with_reducible rfl) | (intro _) | split))

/-! ### Remap -/

theorem dropRemap_fit {s : State} (i : Slot) (row : Nat) (h : s.Fit) : State.Fit ((dropRemap i row s)) := by
  unfold dropRemap
  (try dsimp only)
  (repeat' (first | with_reducible assumption | (exact going_idle) | (exact going_waiting) | (exact going_preparing) | (exact going_running) | (intro _; rfl) | with_reducible apply updBay_fit | (with_reducible refine foldl_fit _ (fun _ _ _ => ?_) _ _ ?_) | (with_reducible refine foldl_fst_fit _ (fun _ _ _ => ?_) _ _ ?_) | (with_reducible apply issued_filter_fit) | (with_reducible apply issued_map_fit) | (with_reducible apply waitIn_fit) | (with_reducible apply restartBay_fit) | (simp only [fit_mk]) | (simp only [bay_fit_mk]) | (with_reducible refine Bay.Fit.bounds ?_) | (with_reducible refine State.Fit.parts ?_) |  (with_reducible rfl) | (with_reducible rfl) | (intro _) | split))

theorem updFill_fit {s : State} (i : Slot) (row : Nat) (f : Fill → Fill) (h : s.Fit) : State.Fit ((updFill i row f s)) := by
  unfold updFill
  (try dsimp only)
  (repeat' (first | with_reducible assumption | (exact going_idle) | (exact going_waiting) | (exact going_preparing) | (exact going_running) | (intro _; rfl) | (with_reducible refine foldl_fit _ (fun _ _ _ => ?_) _ _ ?_) | (with_reducible refine foldl_fst_fit _ (fun _ _ _ => ?_) _ _ ?_) | (with_reducible apply issued_filter_fit) | (with_reducible apply issued_map_fit) | (with_reducible apply waitIn_fit) | (with_reducible apply restartBay_fit) | (simp only [fit_mk]) | (simp only [bay_fit_mk]) | (with_reducible refine Bay.Fit.bounds ?_) | (with_reducible refine State.Fit.parts ?_) |  (with_reducible rfl) | (with_reducible rfl) | (intro _) | split))

theorem removeFill_fit {s : State} (i : Slot) (row : Nat) (h : s.Fit) : State.Fit ((removeFill i row s)) := by
  unfold removeFill
  (try dsimp only)
  (repeat' (first | with_reducible assumption | (exact going_idle) | (exact going_waiting) | (exact going_preparing) | (exact going_running) | (intro _; rfl) | with_reducible apply strikeReader_fit | (with_reducible refine foldl_fit _ (fun _ _ _ => ?_) _ _ ?_) | (with_reducible refine foldl_fst_fit _ (fun _ _ _ => ?_) _ _ ?_) | (with_reducible apply issued_filter_fit) | (with_reducible apply issued_map_fit) | (with_reducible apply waitIn_fit) | (with_reducible apply restartBay_fit) | (simp only [fit_mk]) | (simp only [bay_fit_mk]) | (with_reducible refine Bay.Fit.bounds ?_) | (with_reducible refine State.Fit.parts ?_) |  (with_reducible rfl) | (with_reducible rfl) | (intro _) | split))

theorem abortFill_fit {s : State} (f : Fill) (h : s.Fit) : State.Fit ((abortFill f s)) := by
  unfold abortFill
  (try dsimp only)
  (repeat' (first | with_reducible assumption | (exact going_idle) | (exact going_waiting) | (exact going_preparing) | (exact going_running) | (intro _; rfl) | with_reducible apply push_fit | with_reducible apply releaseHeld_fit | with_reducible apply dropRemap_fit | with_reducible apply removeFill_fit | (with_reducible refine foldl_fit _ (fun _ _ _ => ?_) _ _ ?_) | (with_reducible refine foldl_fst_fit _ (fun _ _ _ => ?_) _ _ ?_) | (with_reducible apply issued_filter_fit) | (with_reducible apply issued_map_fit) | (with_reducible apply waitIn_fit) | (with_reducible apply restartBay_fit) | (simp only [fit_mk]) | (simp only [bay_fit_mk]) | (with_reducible refine Bay.Fit.bounds ?_) | (with_reducible refine State.Fit.parts ?_) |  (with_reducible rfl) | (with_reducible rfl) | (intro _) | split))

theorem fillReads_fit {s : State} (f : Fill) (h : s.Fit) : State.Fit ((fillReads f s).1) := by
  unfold fillReads
  (try dsimp only)
  (repeat' (first | with_reducible assumption | (exact going_idle) | (exact going_waiting) | (exact going_preparing) | (exact going_running) | (intro _; rfl) | with_reducible apply handUnit_fit | (with_reducible refine foldl_fit _ (fun _ _ _ => ?_) _ _ ?_) | (with_reducible refine foldl_fst_fit _ (fun _ _ _ => ?_) _ _ ?_) | (with_reducible apply issued_filter_fit) | (with_reducible apply issued_map_fit) | (with_reducible apply waitIn_fit) | (with_reducible apply restartBay_fit) | (simp only [fit_mk]) | (simp only [bay_fit_mk]) | (with_reducible refine Bay.Fit.bounds ?_) | (with_reducible refine State.Fit.parts ?_) |  (with_reducible rfl) | (with_reducible rfl) | (intro _) | split))

theorem beginFill_fit {s : State} (op : MemberOp) (row spare : Nat) (l : Layout) (pos : Nat) (h : s.Fit) : State.Fit ((beginFill op row spare l pos s)) := by
  unfold beginFill
  (try dsimp only)
  (repeat' (first | with_reducible assumption | (exact going_idle) | (exact going_waiting) | (exact going_preparing) | (exact going_running) | (intro _; rfl) | with_reducible apply push_fit | with_reducible apply updBay_fit | with_reducible apply recallUnit_fit | with_reducible apply fillReads_fit | (with_reducible refine foldl_fit _ (fun _ _ _ => ?_) _ _ ?_) | (with_reducible refine foldl_fst_fit _ (fun _ _ _ => ?_) _ _ ?_) | (with_reducible apply issued_filter_fit) | (with_reducible apply issued_map_fit) | (with_reducible apply waitIn_fit) | (with_reducible apply restartBay_fit) | (simp only [fit_mk]) | (simp only [bay_fit_mk]) | (with_reducible refine Bay.Fit.bounds ?_) | (with_reducible refine State.Fit.parts ?_) |  (with_reducible rfl) | (with_reducible rfl) | (intro _) | split))

theorem failMove_fit {s : State} (op : MemberOp) (h : s.Fit) : State.Fit ((failMove op s)) := by
  unfold failMove
  (try dsimp only)
  (repeat' (first | with_reducible assumption | (exact going_idle) | (exact going_waiting) | (exact going_preparing) | (exact going_running) | (intro _; rfl) | with_reducible apply push_fit | with_reducible apply failBay_fit | (with_reducible refine foldl_fit _ (fun _ _ _ => ?_) _ _ ?_) | (with_reducible refine foldl_fst_fit _ (fun _ _ _ => ?_) _ _ ?_) | (with_reducible apply issued_filter_fit) | (with_reducible apply issued_map_fit) | (with_reducible apply waitIn_fit) | (with_reducible apply restartBay_fit) | (simp only [fit_mk]) | (simp only [bay_fit_mk]) | (with_reducible refine Bay.Fit.bounds ?_) | (with_reducible refine State.Fit.parts ?_) |  (with_reducible rfl) | (with_reducible rfl) | (intro _) | split))

theorem remapDecision_fit {s : State} (op : MemberOp) (first : Nat) (h : s.Fit) : State.Fit ((remapDecision op first s)) := by
  unfold remapDecision
  (try dsimp only)
  (repeat' (first | with_reducible assumption | (exact going_idle) | (exact going_waiting) | (exact going_preparing) | (exact going_running) | (intro _; rfl) | with_reducible apply beginFill_fit | with_reducible apply failMove_fit | (with_reducible refine foldl_fit _ (fun _ _ _ => ?_) _ _ ?_) | (with_reducible refine foldl_fst_fit _ (fun _ _ _ => ?_) _ _ ?_) | (with_reducible apply issued_filter_fit) | (with_reducible apply issued_map_fit) | (with_reducible apply waitIn_fit) | (with_reducible apply restartBay_fit) | (simp only [fit_mk]) | (simp only [bay_fit_mk]) | (with_reducible refine Bay.Fit.bounds ?_) | (with_reducible refine State.Fit.parts ?_) |  (with_reducible rfl) | (with_reducible rfl) | (intro _) | split))

theorem advanceFill_fit {s : State} (i : Slot) (row : Nat) (h : s.Fit) : State.Fit ((advanceFill i row s)) := by
  unfold advanceFill
  (try dsimp only)
  (repeat' (first | with_reducible assumption | (exact going_idle) | (exact going_waiting) | (exact going_preparing) | (exact going_running) | (intro _; rfl) | with_reducible apply handReserve_fit | with_reducible apply failBay_fit | with_reducible apply settleFetch_fit | with_reducible apply updFill_fit | with_reducible apply abortFill_fit | (with_reducible refine foldl_fit _ (fun _ _ _ => ?_) _ _ ?_) | (with_reducible refine foldl_fst_fit _ (fun _ _ _ => ?_) _ _ ?_) | (with_reducible apply issued_filter_fit) | (with_reducible apply issued_map_fit) | (with_reducible apply waitIn_fit) | (with_reducible apply restartBay_fit) | (simp only [fit_mk]) | (simp only [bay_fit_mk]) | (with_reducible refine Bay.Fit.bounds ?_) | (with_reducible refine State.Fit.parts ?_) |  (with_reducible rfl) | (with_reducible rfl) | (intro _) | split))

theorem endFillRead_fit {s : State} (i : Slot) (row : Nat) (op : MemberOp) (res : OpResult) (h : s.Fit) : State.Fit ((endFillRead i row op res s)) := by
  unfold endFillRead
  (try dsimp only)
  (repeat' (first | with_reducible assumption | (exact going_idle) | (exact going_waiting) | (exact going_preparing) | (exact going_running) | (intro _; rfl) | with_reducible apply judgeOrphan_fit | with_reducible apply push_fit | with_reducible apply arriveFetch_fit | with_reducible apply updFill_fit | with_reducible apply abortFill_fit | (with_reducible refine foldl_fit _ (fun _ _ _ => ?_) _ _ ?_) | (with_reducible refine foldl_fst_fit _ (fun _ _ _ => ?_) _ _ ?_) | (with_reducible apply issued_filter_fit) | (with_reducible apply issued_map_fit) | (with_reducible apply waitIn_fit) | (with_reducible apply restartBay_fit) | (simp only [fit_mk]) | (simp only [bay_fit_mk]) | (with_reducible refine Bay.Fit.bounds ?_) | (with_reducible refine State.Fit.parts ?_) |  (with_reducible rfl) | (with_reducible rfl) | (intro _) | split))

theorem adoptRemap_fit {s : State} (i : Slot) (row : Nat) (h : s.Fit) : State.Fit ((adoptRemap i row s)) := by
  unfold adoptRemap
  (try dsimp only)
  (repeat' (first | with_reducible assumption | (exact going_idle) | (exact going_waiting) | (exact going_preparing) | (exact going_running) | (intro _; rfl) | with_reducible apply raise_fit | with_reducible apply updBay_fit | (with_reducible refine foldl_fit _ (fun _ _ _ => ?_) _ _ ?_) | (with_reducible refine foldl_fst_fit _ (fun _ _ _ => ?_) _ _ ?_) | (with_reducible apply issued_filter_fit) | (with_reducible apply issued_map_fit) | (with_reducible apply waitIn_fit) | (with_reducible apply restartBay_fit) | (simp only [fit_mk]) | (simp only [bay_fit_mk]) | (with_reducible refine Bay.Fit.bounds ?_) | (with_reducible refine State.Fit.parts ?_) |  (with_reducible rfl) | (with_reducible rfl) | (intro _) | split))

theorem endSpareWrite_fit {s : State} (i : Slot) (row : Nat) (res : OpResult) (h : s.Fit) : State.Fit ((endSpareWrite i row res s)) := by
  unfold endSpareWrite
  (try dsimp only)
  (repeat' (first | with_reducible assumption | (exact going_idle) | (exact going_waiting) | (exact going_preparing) | (exact going_running) | (intro _; rfl) | with_reducible apply push_fit | with_reducible apply releaseHeld_fit | with_reducible apply failBay_fit | with_reducible apply removeFill_fit | with_reducible apply abortFill_fit | with_reducible apply adoptRemap_fit | (with_reducible refine foldl_fit _ (fun _ _ _ => ?_) _ _ ?_) | (with_reducible refine foldl_fst_fit _ (fun _ _ _ => ?_) _ _ ?_) | (with_reducible apply issued_filter_fit) | (with_reducible apply issued_map_fit) | (with_reducible apply waitIn_fit) | (with_reducible apply restartBay_fit) | (simp only [fit_mk]) | (simp only [bay_fit_mk]) | (with_reducible refine Bay.Fit.bounds ?_) | (with_reducible refine State.Fit.parts ?_) |  (with_reducible rfl) | (with_reducible rfl) | (intro _) | split))

theorem endDataWrite_fit {s : State} (op : MemberOp) (res : OpResult) (owner : OpResult → State → State)
    (hf : ∀ r s, s.Fit → (owner r s).Fit) (h : s.Fit) : (endDataWrite op res owner s).Fit := by
  unfold endDataWrite
  split
  · split
    · exact remapDecision_fit _ _ h
    · exact hf _ _ h
  · exact hf _ _ h

theorem endHostWrite_fit {s : State} (a idx : Nat) (op : MemberOp) (h : s.Fit) : State.Fit ((endHostWrite a idx op s)) := by
  unfold endHostWrite
  (try dsimp only)
  (repeat' (first | with_reducible assumption | (exact going_idle) | (exact going_waiting) | (exact going_preparing) | (exact going_running) | (intro _; rfl) | with_reducible apply push_fit | with_reducible apply updReq_fit | with_reducible apply stainSteps_fit | (with_reducible refine foldl_fit _ (fun _ _ _ => ?_) _ _ ?_) | (with_reducible refine foldl_fst_fit _ (fun _ _ _ => ?_) _ _ ?_) | (with_reducible apply issued_filter_fit) | (with_reducible apply issued_map_fit) | (with_reducible apply waitIn_fit) | (with_reducible apply restartBay_fit) | (simp only [fit_mk]) | (simp only [bay_fit_mk]) | (with_reducible refine Bay.Fit.bounds ?_) | (with_reducible refine State.Fit.parts ?_) |  (with_reducible rfl) | (with_reducible rfl) | (intro _) | split))

theorem endWriteBack_fit {s : State} (op : MemberOp) (h : s.Fit) : State.Fit ((endWriteBack op s)) := by
  unfold endWriteBack
  (try dsimp only)
  (repeat' (first | with_reducible assumption | (exact going_idle) | (exact going_waiting) | (exact going_preparing) | (exact going_running) | (intro _; rfl) | with_reducible apply releaseHeld_fit | (with_reducible refine foldl_fit _ (fun _ _ _ => ?_) _ _ ?_) | (with_reducible refine foldl_fst_fit _ (fun _ _ _ => ?_) _ _ ?_) | (with_reducible apply issued_filter_fit) | (with_reducible apply issued_map_fit) | (with_reducible apply waitIn_fit) | (with_reducible apply restartBay_fit) | (simp only [fit_mk]) | (simp only [bay_fit_mk]) | (with_reducible refine Bay.Fit.bounds ?_) | (with_reducible refine State.Fit.parts ?_) |  (with_reducible rfl) | (with_reducible rfl) | (intro _) | split))
end Sys2Proof.Machine
end

