-- ==== Sys2Proof/Laws/FitsPlan.lean ====
section
/-! SUPPORT. The invariant Fit through the plan unit. -/

set_option linter.unusedTactic false
set_option linter.unreachableTactic false
set_option linter.unusedSimpArgs false
set_option linter.unnecessarySeqFocus false

namespace Sys2Proof.Machine

/-! ### PlanUnit -/

theorem setRecord_fit {s : State} (i : Nat) (r : PlanRecord) (h : s.Fit) : State.Fit ((setRecord i r s)) := by
  unfold setRecord
  (try dsimp only)
  (repeat' (first | with_reducible assumption | (exact going_idle) | (exact going_waiting) | (exact going_preparing) | (exact going_running) | (intro _; rfl) | (with_reducible refine foldl_fit _ (fun _ _ _ => ?_) _ _ ?_) | (with_reducible refine foldl_fst_fit _ (fun _ _ _ => ?_) _ _ ?_) | (with_reducible apply issued_filter_fit) | (with_reducible apply issued_map_fit) | (with_reducible apply waitIn_fit) | (with_reducible apply restartBay_fit) | (simp only [fit_mk]) | (simp only [bay_fit_mk]) | (with_reducible refine Bay.Fit.bounds ?_) | (with_reducible refine State.Fit.parts ?_) |  (with_reducible rfl) | (with_reducible rfl) | (intro _) | split))

theorem queueRecord_fit {s : State} (w : AreaWrite) (h : s.Fit) : State.Fit ((queueRecord w s)) := by
  unfold queueRecord
  (try dsimp only)
  (repeat' (first | with_reducible assumption | (exact going_idle) | (exact going_waiting) | (exact going_preparing) | (exact going_running) | (intro _; rfl) | (with_reducible refine foldl_fit _ (fun _ _ _ => ?_) _ _ ?_) | (with_reducible refine foldl_fst_fit _ (fun _ _ _ => ?_) _ _ ?_) | (with_reducible apply issued_filter_fit) | (with_reducible apply issued_map_fit) | (with_reducible apply waitIn_fit) | (with_reducible apply restartBay_fit) | (simp only [fit_mk]) | (simp only [bay_fit_mk]) | (with_reducible refine Bay.Fit.bounds ?_) | (with_reducible refine State.Fit.parts ?_) |  (with_reducible rfl) | (with_reducible rfl) | (intro _) | split))

theorem handArea_fit {s : State} (o : AreaOp) (h : s.Fit) : State.Fit ((handArea o s)) := by
  unfold handArea
  (try dsimp only)
  (repeat' (first | with_reducible assumption | (exact going_idle) | (exact going_waiting) | (exact going_preparing) | (exact going_running) | (intro _; rfl) | with_reducible apply handReserve_fit | (with_reducible refine foldl_fit _ (fun _ _ _ => ?_) _ _ ?_) | (with_reducible refine foldl_fst_fit _ (fun _ _ _ => ?_) _ _ ?_) | (with_reducible apply issued_filter_fit) | (with_reducible apply issued_map_fit) | (with_reducible apply waitIn_fit) | (with_reducible apply restartBay_fit) | (simp only [fit_mk]) | (simp only [bay_fit_mk]) | (with_reducible refine Bay.Fit.bounds ?_) | (with_reducible refine State.Fit.parts ?_) |  (with_reducible rfl) | (with_reducible rfl) | (intro _) | split))

theorem ruleArea_fit {s : State } {t : State}  (h : s.Fit) (e : ruleArea s = some t) : t.Fit := by
  unfold ruleArea at e
  (try dsimp only at e)
  (repeat' split at e) <;> (try simp only [Option.map_eq_some_iff, Option.some.injEq, reduceCtorEq] at e) <;> (try obtain ⟨_, -, rfl⟩ := e) <;> (try subst e)
  all_goals (repeat' (first | with_reducible assumption | (exact going_idle) | (exact going_waiting) | (exact going_preparing) | (exact going_running) | (intro _; rfl) | with_reducible apply handArea_fit | (with_reducible refine foldl_fit _ (fun _ _ _ => ?_) _ _ ?_) | (with_reducible refine foldl_fst_fit _ (fun _ _ _ => ?_) _ _ ?_) | (with_reducible apply issued_filter_fit) | (with_reducible apply issued_map_fit) | (with_reducible apply waitIn_fit) | (with_reducible apply restartBay_fit) | (simp only [fit_mk]) | (simp only [bay_fit_mk]) | (with_reducible refine Bay.Fit.bounds ?_) | (with_reducible refine State.Fit.parts ?_) |  (with_reducible rfl) | (with_reducible rfl) | (intro _) | split))

theorem beginRecord_fit {s : State} (w : AreaWrite) (h : s.Fit) : State.Fit ((beginRecord w s)) := by
  unfold beginRecord
  (try dsimp only)
  (repeat' (first | with_reducible assumption | (exact going_idle) | (exact going_waiting) | (exact going_preparing) | (exact going_running) | (intro _; rfl) | with_reducible apply setRecord_fit | (with_reducible refine foldl_fit _ (fun _ _ _ => ?_) _ _ ?_) | (with_reducible refine foldl_fst_fit _ (fun _ _ _ => ?_) _ _ ?_) | (with_reducible apply issued_filter_fit) | (with_reducible apply issued_map_fit) | (with_reducible apply waitIn_fit) | (with_reducible apply restartBay_fit) | (simp only [fit_mk]) | (simp only [bay_fit_mk]) | (with_reducible refine Bay.Fit.bounds ?_) | (with_reducible refine State.Fit.parts ?_) |  (with_reducible rfl) | (with_reducible rfl) | (intro _) | split))

theorem ruleRecord_fit {s : State } {t : State}  (h : s.Fit) (e : ruleRecord s = some t) : t.Fit := by
  unfold ruleRecord at e
  (try dsimp only at e)
  (repeat' split at e) <;> (try simp only [Option.map_eq_some_iff, Option.some.injEq, reduceCtorEq] at e) <;> (try obtain ⟨_, -, rfl⟩ := e) <;> (try subst e)
  all_goals (repeat' (first | with_reducible assumption | (exact going_idle) | (exact going_waiting) | (exact going_preparing) | (exact going_running) | (intro _; rfl) | with_reducible apply beginRecord_fit | (with_reducible refine foldl_fit _ (fun _ _ _ => ?_) _ _ ?_) | (with_reducible refine foldl_fst_fit _ (fun _ _ _ => ?_) _ _ ?_) | (with_reducible apply issued_filter_fit) | (with_reducible apply issued_map_fit) | (with_reducible apply waitIn_fit) | (with_reducible apply restartBay_fit) | (simp only [fit_mk]) | (simp only [bay_fit_mk]) | (with_reducible refine Bay.Fit.bounds ?_) | (with_reducible refine State.Fit.parts ?_) |  (with_reducible rfl) | (with_reducible rfl) | (intro _) | split))

theorem ruleRecordDone_fit {s : State } {t : State}  (h : s.Fit) (e : ruleRecordDone s = some t) : t.Fit := by
  unfold ruleRecordDone at e
  (try dsimp only at e)
  (repeat' split at e) <;> (try simp only [Option.map_eq_some_iff, Option.some.injEq, reduceCtorEq] at e) <;> (try obtain ⟨_, -, rfl⟩ := e) <;> (try subst e)
  all_goals (repeat' (first | with_reducible assumption | (exact going_idle) | (exact going_waiting) | (exact going_preparing) | (exact going_running) | (intro _; rfl) | with_reducible apply complete_fit | (with_reducible refine foldl_fit _ (fun _ _ _ => ?_) _ _ ?_) | (with_reducible refine foldl_fst_fit _ (fun _ _ _ => ?_) _ _ ?_) | (with_reducible apply issued_filter_fit) | (with_reducible apply issued_map_fit) | (with_reducible apply waitIn_fit) | (with_reducible apply restartBay_fit) | (simp only [fit_mk]) | (simp only [bay_fit_mk]) | (with_reducible refine Bay.Fit.bounds ?_) | (with_reducible refine State.Fit.parts ?_) |  (with_reducible rfl) | (with_reducible rfl) | (intro _) | split))

theorem recordWriteEnded_fit {s : State} (i : Nat) (h : s.Fit) : State.Fit ((recordWriteEnded i s)) := by
  unfold recordWriteEnded
  (try dsimp only)
  (repeat' (first | with_reducible assumption | (exact going_idle) | (exact going_waiting) | (exact going_preparing) | (exact going_running) | (intro _; rfl) | (with_reducible refine foldl_fit _ (fun _ _ _ => ?_) _ _ ?_) | (with_reducible refine foldl_fst_fit _ (fun _ _ _ => ?_) _ _ ?_) | (with_reducible apply issued_filter_fit) | (with_reducible apply issued_map_fit) | (with_reducible apply waitIn_fit) | (with_reducible apply restartBay_fit) | (simp only [fit_mk]) | (simp only [bay_fit_mk]) | (with_reducible refine Bay.Fit.bounds ?_) | (with_reducible refine State.Fit.parts ?_) |  (with_reducible rfl) | (with_reducible rfl) | (intro _) | split))

theorem endReserveWrite_fit {s : State} (again : Bool) (retry : Owner) (op : MemberOp) (res : OpResult)
    (ended : State → State) (hf : ∀ s, s.Fit → (ended s).Fit) (h : s.Fit) :
    (endReserveWrite again retry op res ended s).Fit := by
  unfold endReserveWrite
  (repeat' (first | with_reducible assumption | apply hf | with_reducible apply handReserve_fit |
    with_reducible apply failBay_fit | split))

theorem endPlanArea_fit {s : State} (i : Nat) (again : Bool) (op : MemberOp) (res : OpResult) (h : s.Fit) : State.Fit ((endPlanArea i again op res s)) := by
  unfold endPlanArea
  (try dsimp only)
  (repeat' (first | with_reducible assumption | (exact going_idle) | (exact going_waiting) | (exact going_preparing) | (exact going_running) | (intro _; rfl) | with_reducible apply recordWriteEnded_fit | with_reducible apply endReserveWrite_fit | (with_reducible refine foldl_fit _ (fun _ _ _ => ?_) _ _ ?_) | (with_reducible refine foldl_fst_fit _ (fun _ _ _ => ?_) _ _ ?_) | (with_reducible apply issued_filter_fit) | (with_reducible apply issued_map_fit) | (with_reducible apply waitIn_fit) | (with_reducible apply restartBay_fit) | (simp only [fit_mk]) | (simp only [bay_fit_mk]) | (with_reducible refine Bay.Fit.bounds ?_) | (with_reducible refine State.Fit.parts ?_) |  (with_reducible rfl) | (with_reducible rfl) | (intro _) | split))

theorem endTableCopy_fit {s : State} (again : Bool) (op : MemberOp) (res : OpResult) (h : s.Fit) : State.Fit ((endTableCopy again op res s)) := by
  unfold endTableCopy
  (try dsimp only)
  (repeat' (first | with_reducible assumption | (exact going_idle) | (exact going_waiting) | (exact going_preparing) | (exact going_running) | (intro _; rfl) | with_reducible apply endReserveWrite_fit | (with_reducible refine foldl_fit _ (fun _ _ _ => ?_) _ _ ?_) | (with_reducible refine foldl_fst_fit _ (fun _ _ _ => ?_) _ _ ?_) | (with_reducible apply issued_filter_fit) | (with_reducible apply issued_map_fit) | (with_reducible apply waitIn_fit) | (with_reducible apply restartBay_fit) | (simp only [fit_mk]) | (simp only [bay_fit_mk]) | (with_reducible refine Bay.Fit.bounds ?_) | (with_reducible refine State.Fit.parts ?_) |  (with_reducible rfl) | (with_reducible rfl) | (intro _) | split))

theorem setResidue_fit {s : State} (i : Nat) (o : PlanOutcome) (rowsDone capacity generation : Nat) (h : s.Fit) : State.Fit ((setResidue i o rowsDone capacity generation s)) := by
  unfold setResidue
  (try dsimp only)
  (repeat' (first | with_reducible assumption | (exact going_idle) | (exact going_waiting) | (exact going_preparing) | (exact going_running) | (intro _; rfl) | with_reducible apply setRecord_fit | (with_reducible refine foldl_fit _ (fun _ _ _ => ?_) _ _ ?_) | (with_reducible refine foldl_fst_fit _ (fun _ _ _ => ?_) _ _ ?_) | (with_reducible apply issued_filter_fit) | (with_reducible apply issued_map_fit) | (with_reducible apply waitIn_fit) | (with_reducible apply restartBay_fit) | (simp only [fit_mk]) | (simp only [bay_fit_mk]) | (with_reducible refine Bay.Fit.bounds ?_) | (with_reducible refine State.Fit.parts ?_) |  (with_reducible rfl) | (with_reducible rfl) | (intro _) | split))

theorem writeBehind_fit {s : State} (i : Nat) (h : s.Fit) : State.Fit ((writeBehind i s)) := by
  unfold writeBehind
  (try dsimp only)
  (repeat' (first | with_reducible assumption | (exact going_idle) | (exact going_waiting) | (exact going_preparing) | (exact going_running) | (intro _; rfl) | with_reducible apply queueRecord_fit | (with_reducible refine foldl_fit _ (fun _ _ _ => ?_) _ _ ?_) | (with_reducible refine foldl_fst_fit _ (fun _ _ _ => ?_) _ _ ?_) | (with_reducible apply issued_filter_fit) | (with_reducible apply issued_map_fit) | (with_reducible apply waitIn_fit) | (with_reducible apply restartBay_fit) | (simp only [fit_mk]) | (simp only [bay_fit_mk]) | (with_reducible refine Bay.Fit.bounds ?_) | (with_reducible refine State.Fit.parts ?_) |  (with_reducible rfl) | (with_reducible rfl) | (intro _) | split))

theorem planDone_fit {s : State} (i : Nat) (h : s.Fit) : State.Fit ((planDone i s)) := by
  unfold planDone
  (try dsimp only)
  (repeat' (first | with_reducible assumption | (exact going_idle) | (exact going_waiting) | (exact going_preparing) | (exact going_running) | (intro _; rfl) | with_reducible apply raise_fit | (with_reducible refine foldl_fit _ (fun _ _ _ => ?_) _ _ ?_) | (with_reducible refine foldl_fst_fit _ (fun _ _ _ => ?_) _ _ ?_) | (with_reducible apply issued_filter_fit) | (with_reducible apply issued_map_fit) | (with_reducible apply waitIn_fit) | (with_reducible apply restartBay_fit) | (simp only [fit_mk]) | (simp only [bay_fit_mk]) | (with_reducible refine Bay.Fit.bounds ?_) | (with_reducible refine State.Fit.parts ?_) |  (with_reducible rfl) | (with_reducible rfl) | (intro _) | split))

theorem moveChain_fit {s : State} (p : Nat × ChainStatus) (h : s.Fit) : State.Fit ((moveChain p s)) := by
  unfold moveChain
  (try dsimp only)
  (repeat' (first | with_reducible assumption | (exact going_idle) | (exact going_waiting) | (exact going_preparing) | (exact going_running) | (intro _; rfl) | with_reducible apply raise_fit | (with_reducible refine foldl_fit _ (fun _ _ _ => ?_) _ _ ?_) | (with_reducible refine foldl_fst_fit _ (fun _ _ _ => ?_) _ _ ?_) | (with_reducible apply issued_filter_fit) | (with_reducible apply issued_map_fit) | (with_reducible apply waitIn_fit) | (with_reducible apply restartBay_fit) | (simp only [fit_mk]) | (simp only [bay_fit_mk]) | (with_reducible refine Bay.Fit.bounds ?_) | (with_reducible refine State.Fit.parts ?_) |  (with_reducible rfl) | (with_reducible rfl) | (intro _) | split))

theorem clearActive_fit {s : State}  (h : s.Fit) : State.Fit ((clearActive s)) := by
  unfold clearActive
  (try dsimp only)
  (repeat' (first | with_reducible assumption | (exact going_idle) | (exact going_waiting) | (exact going_preparing) | (exact going_running) | (intro _; rfl) | (with_reducible refine foldl_fit _ (fun _ _ _ => ?_) _ _ ?_) | (with_reducible refine foldl_fst_fit _ (fun _ _ _ => ?_) _ _ ?_) | (with_reducible apply issued_filter_fit) | (with_reducible apply issued_map_fit) | (with_reducible apply waitIn_fit) | (with_reducible apply restartBay_fit) | (simp only [fit_mk]) | (simp only [bay_fit_mk]) | (with_reducible refine Bay.Fit.bounds ?_) | (with_reducible refine State.Fit.parts ?_) |  (with_reducible rfl) | (with_reducible rfl) | (intro _) | split))

theorem refuseFetched_fit {s : State} (i : Nat) (o : PlanOutcome) (h : s.Fit) : State.Fit ((refuseFetched i o s)) := by
  unfold refuseFetched
  (try dsimp only)
  (repeat' (first | with_reducible assumption | (exact going_idle) | (exact going_waiting) | (exact going_preparing) | (exact going_running) | (intro _; rfl) | with_reducible apply setResidue_fit | with_reducible apply writeBehind_fit | with_reducible apply planDone_fit | with_reducible apply moveChain_fit | (with_reducible refine foldl_fit _ (fun _ _ _ => ?_) _ _ ?_) | (with_reducible refine foldl_fst_fit _ (fun _ _ _ => ?_) _ _ ?_) | (with_reducible apply issued_filter_fit) | (with_reducible apply issued_map_fit) | (with_reducible apply waitIn_fit) | (with_reducible apply restartBay_fit) | (simp only [fit_mk]) | (simp only [bay_fit_mk]) | (with_reducible refine Bay.Fit.bounds ?_) | (with_reducible refine State.Fit.parts ?_) |  (with_reducible rfl) | (with_reducible rfl) | (intro _) | split))

theorem setEngine_fit {s : State} (e : EngineState) (he : e.Going) (h : s.Fit) : (setEngine e s).Fit :=
  fit_mk.mpr ⟨h.bays, h.counts, LatchLaw.going he h.ctl.savedGoing h.ctl.fromGoing⟩

/-- The saved state IDLE and no paused-from, in a state otherwise as it was. -/
theorem State.Fit.savedIdle {s : State} (h : s.Fit) :
    FitParts s.shelf.bays s.integ.counts s.ctl.state s.ctl.latch (some .idle) none :=
  ⟨h.bays, h.counts, h.ctl.stopped, fun x hx => by cases hx; exact ⟨by decide, by decide⟩, fun x hx => by cases hx⟩

/-- From a going state to another, with a going paused-from. -/
theorem State.Fit.moved {s : State} (h : s.Fit) (e : EngineState) {p : Option EngineState} (hs : s.ctl.state.Going)
    (he : e.Going) (hp : ∀ x, p = some x → x.Going) :
    FitParts s.shelf.bays s.integ.counts e s.ctl.latch s.ctl.saved p :=
  ⟨h.bays, h.counts, h.ctl.move hs he h.ctl.savedGoing hp⟩

theorem endUninstalled_fit {s : State} (o : PlanOutcome) (h : s.Fit) : (endUninstalled o s).Fit := by
  unfold endUninstalled
  split
  · exact h
  · rename_i i _
    have h1 : State.Fit (planDone i (setResidue i o 0 s.plan.capacity s.mark.generation s)) :=
      planDone_fit _ (setResidue_fit _ _ _ _ _ h)
    dsimp only
    generalize planDone i (setResidue i o 0 s.plan.capacity s.mark.generation s) = s1 at h1 ⊢
    have h2 : State.Fit (writeBehind i (clearActive (moveChain s1.chainAfter s1))) :=
      writeBehind_fit _ (clearActive_fit (moveChain_fit _ h1))
    generalize writeBehind i (clearActive (moveChain s1.chainAfter s1)) = s2 at h2 ⊢
    split
    · exact fit_mk.mpr h2.savedIdle
    · exact setEngine_fit _ ⟨by decide, by decide⟩ h2

theorem giveRole_fit {s : State} (i : Slot) (r : Role) (p : Option Nat) (incoming : Bool) (h : s.Fit) : State.Fit ((giveRole i r p incoming s)) := by
  unfold giveRole
  (try dsimp only)
  (repeat' (first | with_reducible assumption | (exact going_idle) | (exact going_waiting) | (exact going_preparing) | (exact going_running) | (intro _; rfl) | with_reducible apply updBay_fit | (with_reducible refine foldl_fit _ (fun _ _ _ => ?_) _ _ ?_) | (with_reducible refine foldl_fst_fit _ (fun _ _ _ => ?_) _ _ ?_) | (with_reducible apply issued_filter_fit) | (with_reducible apply issued_map_fit) | (with_reducible apply waitIn_fit) | (with_reducible apply restartBay_fit) | (simp only [fit_mk]) | (simp only [bay_fit_mk]) | (with_reducible refine Bay.Fit.bounds ?_) | (with_reducible refine State.Fit.parts ?_) |  (with_reducible rfl) | (with_reducible rfl) | (intro _) | split))

theorem roleNone_fit {s : State} (i : Slot) (h : s.Fit) : State.Fit ((roleNone i s)) := by
  unfold roleNone
  (try dsimp only)
  (repeat' (first | with_reducible assumption | (exact going_idle) | (exact going_waiting) | (exact going_preparing) | (exact going_running) | (intro _; rfl) | with_reducible apply updBay_fit | (with_reducible refine foldl_fit _ (fun _ _ _ => ?_) _ _ ?_) | (with_reducible refine foldl_fst_fit _ (fun _ _ _ => ?_) _ _ ?_) | (with_reducible apply issued_filter_fit) | (with_reducible apply issued_map_fit) | (with_reducible apply waitIn_fit) | (with_reducible apply restartBay_fit) | (simp only [fit_mk]) | (simp only [bay_fit_mk]) | (with_reducible refine Bay.Fit.bounds ?_) | (with_reducible refine State.Fit.parts ?_) |  (with_reducible rfl) | (with_reducible rfl) | (intro _) | split))

theorem giveRoles_fit {s : State} (r : Role) (first : Nat) (is : List Slot) (h : s.Fit) : State.Fit ((giveRoles r first is s)) := by
  unfold giveRoles
  (try dsimp only)
  (repeat' (first | with_reducible assumption | (exact going_idle) | (exact going_waiting) | (exact going_preparing) | (exact going_running) | (intro _; rfl) | with_reducible apply giveRole_fit | (with_reducible refine foldl_fit _ (fun _ _ _ => ?_) _ _ ?_) | (with_reducible refine foldl_fst_fit _ (fun _ _ _ => ?_) _ _ ?_) | (with_reducible apply issued_filter_fit) | (with_reducible apply issued_map_fit) | (with_reducible apply waitIn_fit) | (with_reducible apply restartBay_fit) | (simp only [fit_mk]) | (simp only [bay_fit_mk]) | (with_reducible refine Bay.Fit.bounds ?_) | (with_reducible refine State.Fit.parts ?_) |  (with_reducible rfl) | (with_reducible rfl) | (intro _) | split))

theorem startPhase_fit {s : State} (p : Phase) (h : s.Fit) : State.Fit ((startPhase p s)) := by
  unfold startPhase
  (try dsimp only)
  (repeat' (first | with_reducible assumption | (exact going_idle) | (exact going_waiting) | (exact going_preparing) | (exact going_running) | (intro _; rfl) | (with_reducible refine foldl_fit _ (fun _ _ _ => ?_) _ _ ?_) | (with_reducible refine foldl_fst_fit _ (fun _ _ _ => ?_) _ _ ?_) | (with_reducible apply issued_filter_fit) | (with_reducible apply issued_map_fit) | (with_reducible apply waitIn_fit) | (with_reducible apply restartBay_fit) | (simp only [fit_mk]) | (simp only [bay_fit_mk]) | (with_reducible refine Bay.Fit.bounds ?_) | (with_reducible refine State.Fit.parts ?_) |  (with_reducible rfl) | (with_reducible rfl) | (intro _) | split))

theorem installForm_fit {s : State} (r : PlanRecord) (h : s.Fit) : State.Fit ((installForm r s)) := by
  unfold installForm
  (try dsimp only)
  (repeat' (first | with_reducible assumption | (exact going_idle) | (exact going_waiting) | (exact going_preparing) | (exact going_running) | (intro _; rfl) | with_reducible apply giveRoles_fit | with_reducible apply startPhase_fit | (with_reducible refine foldl_fit _ (fun _ _ _ => ?_) _ _ ?_) | (with_reducible refine foldl_fst_fit _ (fun _ _ _ => ?_) _ _ ?_) | (with_reducible apply issued_filter_fit) | (with_reducible apply issued_map_fit) | (with_reducible apply waitIn_fit) | (with_reducible apply restartBay_fit) | (simp only [fit_mk]) | (simp only [bay_fit_mk]) | (with_reducible refine Bay.Fit.bounds ?_) | (with_reducible refine State.Fit.parts ?_) |  (with_reducible rfl) | (with_reducible rfl) | (intro _) | split))

theorem installGrow_fit {s : State} (r : PlanRecord) (h : s.Fit) : State.Fit ((installGrow r s)) := by
  unfold installGrow
  (try dsimp only)
  (repeat' (first | with_reducible assumption | (exact going_idle) | (exact going_waiting) | (exact going_preparing) | (exact going_running) | (intro _; rfl) | with_reducible apply syncLayouts_fit | with_reducible apply renameKeys_fit | with_reducible apply giveRoles_fit | with_reducible apply startPhase_fit | (with_reducible refine foldl_fit _ (fun _ _ _ => ?_) _ _ ?_) | (with_reducible refine foldl_fst_fit _ (fun _ _ _ => ?_) _ _ ?_) | (with_reducible apply issued_filter_fit) | (with_reducible apply issued_map_fit) | (with_reducible apply waitIn_fit) | (with_reducible apply restartBay_fit) | (simp only [fit_mk]) | (simp only [bay_fit_mk]) | (with_reducible refine Bay.Fit.bounds ?_) | (with_reducible refine State.Fit.parts ?_) |  (with_reducible rfl) | (with_reducible rfl) | (intro _) | split))

theorem installReplace_fit {s : State} (r : PlanRecord) (h : s.Fit) : State.Fit ((installReplace r s)) := by
  unfold installReplace
  (try dsimp only)
  (repeat' (first | with_reducible assumption | (exact going_idle) | (exact going_waiting) | (exact going_preparing) | (exact going_running) | (intro _; rfl) | with_reducible apply syncLayouts_fit | with_reducible apply giveRole_fit | with_reducible apply startPhase_fit | (with_reducible refine foldl_fit _ (fun _ _ _ => ?_) _ _ ?_) | (with_reducible refine foldl_fst_fit _ (fun _ _ _ => ?_) _ _ ?_) | (with_reducible apply issued_filter_fit) | (with_reducible apply issued_map_fit) | (with_reducible apply waitIn_fit) | (with_reducible apply restartBay_fit) | (simp only [fit_mk]) | (simp only [bay_fit_mk]) | (with_reducible refine Bay.Fit.bounds ?_) | (with_reducible refine State.Fit.parts ?_) |  (with_reducible rfl) | (with_reducible rfl) | (intro _) | split))

theorem install_fit {s : State} (r : PlanRecord) (h : s.Fit) : State.Fit ((install r s)) := by
  unfold install
  (try dsimp only)
  (repeat' (first | with_reducible assumption | (exact going_idle) | (exact going_waiting) | (exact going_preparing) | (exact going_running) | (intro _; rfl) | with_reducible apply raiseCause_fit | with_reducible apply rebaseCounts_fit | with_reducible apply setEngine_fit | with_reducible apply installForm_fit | with_reducible apply installGrow_fit | with_reducible apply installReplace_fit | (with_reducible refine foldl_fit _ (fun _ _ _ => ?_) _ _ ?_) | (with_reducible refine foldl_fst_fit _ (fun _ _ _ => ?_) _ _ ?_) | (with_reducible apply issued_filter_fit) | (with_reducible apply issued_map_fit) | (with_reducible apply waitIn_fit) | (with_reducible apply restartBay_fit) | (simp only [fit_mk]) | (simp only [bay_fit_mk]) | (with_reducible refine Bay.Fit.bounds ?_) | (with_reducible refine State.Fit.parts ?_) |  (with_reducible rfl) | (with_reducible rfl) | (intro _) | split))

theorem clearOutcome_fit {s : State} (i : Nat) (h : s.Fit) : State.Fit (clearOutcome i s) := by
  unfold clearOutcome
  (try dsimp only)
  (repeat' (first | with_reducible assumption | (exact going_idle) | (exact going_waiting) | (exact going_preparing) | (exact going_running) | (intro _; rfl) | with_reducible apply setRecord_fit | (with_reducible refine foldl_fit _ (fun _ _ _ => ?_) _ _ ?_) | (with_reducible refine foldl_fst_fit _ (fun _ _ _ => ?_) _ _ ?_) | (with_reducible apply issued_filter_fit) | (with_reducible apply issued_map_fit) | (with_reducible apply waitIn_fit) | (with_reducible apply restartBay_fit) | (simp only [fit_mk]) | (simp only [bay_fit_mk]) | (with_reducible refine Bay.Fit.bounds ?_) | (with_reducible refine State.Fit.parts ?_) |  (with_reducible rfl) | (with_reducible rfl) | (intro _) | split))

theorem activate_fit {s : State} (i : Nat) (r : PlanRecord) (h : s.Fit) : State.Fit ((activate i r s)) := by
  unfold activate
  (try dsimp only)
  (repeat' (first | with_reducible assumption | (exact going_idle) | (exact going_waiting) | (exact going_preparing) | (exact going_running) | (intro _; rfl) | with_reducible apply clearOutcome_fit | with_reducible apply setEngine_fit | with_reducible apply install_fit | (with_reducible refine foldl_fit _ (fun _ _ _ => ?_) _ _ ?_) | (with_reducible refine foldl_fst_fit _ (fun _ _ _ => ?_) _ _ ?_) | (with_reducible apply issued_filter_fit) | (with_reducible apply issued_map_fit) | (with_reducible apply waitIn_fit) | (with_reducible apply restartBay_fit) | (simp only [fit_mk]) | (simp only [bay_fit_mk]) | (with_reducible refine Bay.Fit.bounds ?_) | (with_reducible refine State.Fit.parts ?_) |  (with_reducible rfl) | (with_reducible rfl) | (intro _) | split))

theorem fetchOnce_fit {s : State } {t : State}  (h : s.Fit) (e : fetchOnce s = some t) : t.Fit := by
  unfold fetchOnce at e
  (try dsimp only at e)
  (repeat' split at e) <;> (try simp only [Option.map_eq_some_iff, Option.some.injEq, reduceCtorEq] at e) <;> (try obtain ⟨_, -, rfl⟩ := e) <;> (try subst e)
  all_goals (repeat' (first | with_reducible assumption | (exact going_idle) | (exact going_waiting) | (exact going_preparing) | (exact going_running) | (intro _; rfl) | with_reducible apply moveChain_fit | with_reducible apply refuseFetched_fit | with_reducible apply activate_fit | (with_reducible refine foldl_fit _ (fun _ _ _ => ?_) _ _ ?_) | (with_reducible refine foldl_fst_fit _ (fun _ _ _ => ?_) _ _ ?_) | (with_reducible apply issued_filter_fit) | (with_reducible apply issued_map_fit) | (with_reducible apply waitIn_fit) | (with_reducible apply restartBay_fit) | (simp only [fit_mk]) | (simp only [bay_fit_mk]) | (with_reducible refine Bay.Fit.bounds ?_) | (with_reducible refine State.Fit.parts ?_) |  (with_reducible rfl) | (with_reducible rfl) | (intro _) | split))

theorem ruleFetch_fit {s : State } {t : State}  (h : s.Fit) (e : ruleFetch s = some t) : t.Fit := by
  unfold ruleFetch at e
  (try dsimp only at e)
  (repeat' split at e) <;> (try simp only [Option.map_eq_some_iff, Option.some.injEq, reduceCtorEq] at e) <;> (try obtain ⟨_, -, rfl⟩ := e) <;> (try subst e)
  all_goals (repeat' (first | with_reducible assumption | (exact going_idle) | (exact going_waiting) | (exact going_preparing) | (exact going_running) | (intro _; rfl) | with_reducible apply fetchOnce_fit | (with_reducible refine foldl_fit _ (fun _ _ _ => ?_) _ _ ?_) | (with_reducible refine foldl_fst_fit _ (fun _ _ _ => ?_) _ _ ?_) | (with_reducible apply issued_filter_fit) | (with_reducible apply issued_map_fit) | (with_reducible apply waitIn_fit) | (with_reducible apply restartBay_fit) | (simp only [fit_mk]) | (simp only [bay_fit_mk]) | (with_reducible refine Bay.Fit.bounds ?_) | (with_reducible refine State.Fit.parts ?_) |  (with_reducible rfl) | (with_reducible rfl) | (intro _) | split))

theorem ruleWaiting_fit {s : State } {t : State}  (h : s.Fit) (e : ruleWaiting s = some t) : t.Fit := by
  unfold ruleWaiting at e
  (try dsimp only at e)
  (repeat' split at e) <;> (try simp only [Option.map_eq_some_iff, Option.some.injEq, reduceCtorEq] at e) <;> (try obtain ⟨_, -, rfl⟩ := e) <;> (try subst e)
  all_goals (repeat' (first | with_reducible assumption | (exact going_idle) | (exact going_waiting) | (exact going_preparing) | (exact going_running) | (intro _; rfl) | with_reducible apply endUninstalled_fit | with_reducible apply install_fit | (with_reducible refine foldl_fit _ (fun _ _ _ => ?_) _ _ ?_) | (with_reducible refine foldl_fst_fit _ (fun _ _ _ => ?_) _ _ ?_) | (with_reducible apply issued_filter_fit) | (with_reducible apply issued_map_fit) | (with_reducible apply waitIn_fit) | (with_reducible apply restartBay_fit) | (simp only [fit_mk]) | (simp only [bay_fit_mk]) | (with_reducible refine Bay.Fit.bounds ?_) | (with_reducible refine State.Fit.parts ?_) |  (with_reducible rfl) | (with_reducible rfl) | (intro _) | split))

theorem ruleInstalled_fit {s : State } {t : State}  (h : s.Fit) (e : ruleInstalled s = some t) : t.Fit := by
  unfold ruleInstalled at e
  (try dsimp only at e)
  (repeat' split at e) <;> (try simp only [Option.map_eq_some_iff, Option.some.injEq, reduceCtorEq] at e) <;> (try obtain ⟨_, -, rfl⟩ := e) <;> (try subst e)
  all_goals (repeat' (first | with_reducible assumption | (exact going_idle) | (exact going_waiting) | (exact going_preparing) | (exact going_running) | (intro _; rfl) | with_reducible apply setEngine_fit | (with_reducible refine foldl_fit _ (fun _ _ _ => ?_) _ _ ?_) | (with_reducible refine foldl_fst_fit _ (fun _ _ _ => ?_) _ _ ?_) | (with_reducible apply issued_filter_fit) | (with_reducible apply issued_map_fit) | (with_reducible apply waitIn_fit) | (with_reducible apply restartBay_fit) | (simp only [fit_mk]) | (simp only [bay_fit_mk]) | (with_reducible refine Bay.Fit.bounds ?_) | (with_reducible refine State.Fit.parts ?_) |  (with_reducible rfl) | (with_reducible rfl) | (intro _) | split))

theorem restNext_going {s : State} (hs : s.ctl.state.Going) : s.restNext.Going := by
  unfold State.restNext
  split
  · exact ⟨by decide, by decide⟩
  · exact afterRest_going hs

theorem ruleRest_fit {s t : State} (h : s.Fit) (e : ruleRest s = some t) : t.Fit := by
  unfold ruleRest at e
  split at e
  · rename_i hc
    have hs : s.ctl.state.Going := by
      simp only [Bool.and_eq_true, Bool.or_eq_true, beq_iff_eq] at hc
      rcases hc.1.1.1.1 with g | g <;> rw [g] <;> exact ⟨by decide, by decide⟩
    have hn := restNext_going hs
    dsimp only at e
    split at e
    · obtain rfl := Option.some.inj e
      exact fit_mk.mpr (h.moved _ hs going_closing h.ctl.fromGoing)
    · split at e
      · obtain rfl := Option.some.inj e
        exact fit_mk.mpr (h.moved _ hs going_paused (fun x hx => by cases hx; exact hn))
      · split at e
        · cases e
        · obtain rfl := Option.some.inj e
          exact setEngine_fit _ hn h
  · cases e

theorem ruleLostPaused_fit {s t : State} (h : s.Fit) (e : ruleLostPaused s = some t) : t.Fit := by
  unfold ruleLostPaused at e
  split at e
  · rename_i hc
    obtain rfl := Option.some.inj e
    have hs : s.ctl.state.Going := by
      simp only [Bool.and_eq_true, beq_iff_eq] at hc
      rw [hc.1.1.1]; exact ⟨by decide, by decide⟩
    exact fit_mk.mpr (h.moved _ hs going_closing (fun x hx => by cases hx))
  · cases e

theorem dropRoles_fit {s : State}  (h : s.Fit) : State.Fit ((dropRoles s)) := by
  unfold dropRoles
  (try dsimp only)
  (repeat' (first | with_reducible assumption | (exact going_idle) | (exact going_waiting) | (exact going_preparing) | (exact going_running) | (intro _; rfl) | with_reducible apply updBay_fit | with_reducible apply roleNone_fit | (with_reducible refine foldl_fit _ (fun _ _ _ => ?_) _ _ ?_) | (with_reducible refine foldl_fst_fit _ (fun _ _ _ => ?_) _ _ ?_) | (with_reducible apply issued_filter_fit) | (with_reducible apply issued_map_fit) | (with_reducible apply waitIn_fit) | (with_reducible apply restartBay_fit) | (simp only [fit_mk]) | (simp only [bay_fit_mk]) | (with_reducible refine Bay.Fit.bounds ?_) | (with_reducible refine State.Fit.parts ?_) |  (with_reducible rfl) | (with_reducible rfl) | (intro _) | split))

theorem lostRoles_fit {s : State}  (h : s.Fit) : State.Fit ((lostRoles s)) := by
  unfold lostRoles
  (try dsimp only)
  (repeat' (first | with_reducible assumption | (exact going_idle) | (exact going_waiting) | (exact going_preparing) | (exact going_running) | (intro _; rfl) | with_reducible apply reportChange_fit | with_reducible apply updBay_fit | (with_reducible refine foldl_fit _ (fun _ _ _ => ?_) _ _ ?_) | (with_reducible refine foldl_fst_fit _ (fun _ _ _ => ?_) _ _ ?_) | (with_reducible apply issued_filter_fit) | (with_reducible apply issued_map_fit) | (with_reducible apply waitIn_fit) | (with_reducible apply restartBay_fit) | (simp only [fit_mk]) | (simp only [bay_fit_mk]) | (with_reducible refine Bay.Fit.bounds ?_) | (with_reducible refine State.Fit.parts ?_) |  (with_reducible rfl) | (with_reducible rfl) | (intro _) | split))

theorem askRemoval_fit {s : State}  (h : s.Fit) : State.Fit ((askRemoval s)) := by
  unfold askRemoval
  (try dsimp only)
  (repeat' (first | with_reducible assumption | (exact going_idle) | (exact going_waiting) | (exact going_preparing) | (exact going_running) | (intro _; rfl) | with_reducible apply raiseCause_fit | (with_reducible refine foldl_fit _ (fun _ _ _ => ?_) _ _ ?_) | (with_reducible refine foldl_fst_fit _ (fun _ _ _ => ?_) _ _ ?_) | (with_reducible apply issued_filter_fit) | (with_reducible apply issued_map_fit) | (with_reducible apply waitIn_fit) | (with_reducible apply restartBay_fit) | (simp only [fit_mk]) | (simp only [bay_fit_mk]) | (with_reducible refine Bay.Fit.bounds ?_) | (with_reducible refine State.Fit.parts ?_) |  (with_reducible rfl) | (with_reducible rfl) | (intro _) | split))

theorem abandonGather_state (s : State) : (abandonGather s).ctl = s.ctl := by
  refine foldl_ctl _ (fun s p => ?_) _ s
  have hr : ∀ (q : HoldReason → Bool) (s : State), (releaseHolds q s).ctl = s.ctl := fun q s => by
    unfold releaseHolds
    exact foldl_ctl (fun (s : State) (h : HoldEntry) => push (.release h.arrival) s) (fun _ _ => rfl) _ _
  have hs : ∀ (g : Staging) (v : Option Step) (s : State), (setStep g v s).ctl = s.ctl := fun g v s => by cases g <;> rfl
  unfold abandonStep
  dsimp only
  rw [hr, hs]
  split <;> rfl

theorem ruleDrop_fit {s t : State} (h : s.Fit) (e : ruleDrop s = some t) : t.Fit := by
  unfold ruleDrop at e
  split at e
  · rename_i hc
    split at e
    · obtain rfl := Option.some.inj e
      exact endUninstalled_fit _ h
    · obtain rfl := Option.some.inj e
      have h1 := abandonGather_fit h
      have hst : (abandonGather s).ctl = s.ctl := abandonGather_state s
      generalize abandonGather s = s1 at h1 hst ⊢
      refine askRemoval_fit (dropRoles_fit ?_)
      split
      · exact fit_mk.mpr h1.savedIdle
      · rename_i hn
        have hs : s1.ctl.state.Going := by
          simp only [Bool.and_eq_true, bne_iff_ne, beq_iff_eq] at hc hn
          exact ⟨hn, by rw [hst]; exact hc.2⟩
        exact fit_mk.mpr (h1.moved _ hs going_closing (fun x hx => by cases hx))
    all_goals cases e
  · cases e

theorem ruleClosing_fit {s : State } {t : State}  (h : s.Fit) (e : ruleClosing s = some t) : t.Fit := by
  unfold ruleClosing at e
  (try dsimp only at e)
  (repeat' split at e) <;> (try simp only [Option.map_eq_some_iff, Option.some.injEq, reduceCtorEq] at e) <;> (try obtain ⟨_, -, rfl⟩ := e) <;> (try subst e)
  all_goals (repeat' (first | with_reducible assumption | (exact going_idle) | (exact going_waiting) | (exact going_preparing) | (exact going_running) | (intro _; rfl) | with_reducible apply raiseCause_fit | with_reducible apply lostRoles_fit | with_reducible apply askRemoval_fit | (with_reducible refine foldl_fit _ (fun _ _ _ => ?_) _ _ ?_) | (with_reducible refine foldl_fst_fit _ (fun _ _ _ => ?_) _ _ ?_) | (with_reducible apply issued_filter_fit) | (with_reducible apply issued_map_fit) | (with_reducible apply waitIn_fit) | (with_reducible apply restartBay_fit) | (simp only [fit_mk]) | (simp only [bay_fit_mk]) | (with_reducible refine Bay.Fit.bounds ?_) | (with_reducible refine State.Fit.parts ?_) |  (with_reducible rfl) | (with_reducible rfl) | (intro _) | split))

theorem handReleased_fit {s : State} (gen : Nat) (i : Slot) (h : s.Fit) : State.Fit ((handReleased gen i s)) := by
  unfold handReleased
  (try dsimp only)
  (repeat' (first | with_reducible assumption | (exact going_idle) | (exact going_waiting) | (exact going_preparing) | (exact going_running) | (intro _; rfl) | with_reducible apply handReserve_fit | (with_reducible refine foldl_fit _ (fun _ _ _ => ?_) _ _ ?_) | (with_reducible refine foldl_fst_fit _ (fun _ _ _ => ?_) _ _ ?_) | (with_reducible apply issued_filter_fit) | (with_reducible apply issued_map_fit) | (with_reducible apply waitIn_fit) | (with_reducible apply restartBay_fit) | (simp only [fit_mk]) | (simp only [bay_fit_mk]) | (with_reducible refine Bay.Fit.bounds ?_) | (with_reducible refine State.Fit.parts ?_) |  (with_reducible rfl) | (with_reducible rfl) | (intro _) | split))

theorem endReleased_fit {s : State} (again : Bool) (op : MemberOp) (res : OpResult) (h : s.Fit) : State.Fit ((endReleased again op res s)) := by
  unfold endReleased
  (try dsimp only)
  (repeat' (first | with_reducible assumption | (exact going_idle) | (exact going_waiting) | (exact going_preparing) | (exact going_running) | (intro _; rfl) | with_reducible apply handReserve_fit | (with_reducible refine foldl_fit _ (fun _ _ _ => ?_) _ _ ?_) | (with_reducible refine foldl_fst_fit _ (fun _ _ _ => ?_) _ _ ?_) | (with_reducible apply issued_filter_fit) | (with_reducible apply issued_map_fit) | (with_reducible apply waitIn_fit) | (with_reducible apply restartBay_fit) | (simp only [fit_mk]) | (simp only [bay_fit_mk]) | (with_reducible refine Bay.Fit.bounds ?_) | (with_reducible refine State.Fit.parts ?_) |  (with_reducible rfl) | (with_reducible rfl) | (intro _) | split))

theorem releaseFailed_fit {s : State}  (h : s.Fit) : State.Fit ((releaseFailed s)) := by
  unfold releaseFailed
  (try dsimp only)
  (repeat' (first | with_reducible assumption | (exact going_idle) | (exact going_waiting) | (exact going_preparing) | (exact going_running) | (intro _; rfl) | with_reducible apply roleNone_fit | (with_reducible refine foldl_fit _ (fun _ _ _ => ?_) _ _ ?_) | (with_reducible refine foldl_fst_fit _ (fun _ _ _ => ?_) _ _ ?_) | (with_reducible apply issued_filter_fit) | (with_reducible apply issued_map_fit) | (with_reducible apply waitIn_fit) | (with_reducible apply restartBay_fit) | (simp only [fit_mk]) | (simp only [bay_fit_mk]) | (with_reducible refine Bay.Fit.bounds ?_) | (with_reducible refine State.Fit.parts ?_) |  (with_reducible rfl) | (with_reducible rfl) | (intro _) | split))

theorem replaceLayouts_fit {s : State} (ls : List Layout) (h : s.Fit) : State.Fit ((replaceLayouts ls s)) := by
  unfold replaceLayouts
  (try dsimp only)
  (repeat' (first | with_reducible assumption | (exact going_idle) | (exact going_waiting) | (exact going_preparing) | (exact going_running) | (intro _; rfl) | with_reducible apply syncLayouts_fit | with_reducible apply rebaseCounts_fit | with_reducible apply releaseFailed_fit | (with_reducible refine foldl_fit _ (fun _ _ _ => ?_) _ _ ?_) | (with_reducible refine foldl_fst_fit _ (fun _ _ _ => ?_) _ _ ?_) | (with_reducible apply issued_filter_fit) | (with_reducible apply issued_map_fit) | (with_reducible apply waitIn_fit) | (with_reducible apply restartBay_fit) | (simp only [fit_mk]) | (simp only [bay_fit_mk]) | (with_reducible refine Bay.Fit.bounds ?_) | (with_reducible refine State.Fit.parts ?_) |  (with_reducible rfl) | (with_reducible rfl) | (intro _) | split))

theorem beginResidue_fit {s : State} (o : PlanOutcome) (rowsDone gen : Nat) (h : s.Fit) : State.Fit ((beginResidue o rowsDone gen s)) := by
  unfold beginResidue
  (try dsimp only)
  (repeat' (first | with_reducible assumption | (exact going_idle) | (exact going_waiting) | (exact going_preparing) | (exact going_running) | (intro _; rfl) | with_reducible apply queueRecord_fit | with_reducible apply setResidue_fit | (with_reducible refine foldl_fit _ (fun _ _ _ => ?_) _ _ ?_) | (with_reducible refine foldl_fst_fit _ (fun _ _ _ => ?_) _ _ ?_) | (with_reducible apply issued_filter_fit) | (with_reducible apply issued_map_fit) | (with_reducible apply waitIn_fit) | (with_reducible apply restartBay_fit) | (simp only [fit_mk]) | (simp only [bay_fit_mk]) | (with_reducible refine Bay.Fit.bounds ?_) | (with_reducible refine State.Fit.parts ?_) |  (with_reducible rfl) | (with_reducible rfl) | (intro _) | split))

theorem joinedToMember_fit {s : State}  (h : s.Fit) : State.Fit ((joinedToMember s)) := by
  unfold joinedToMember
  (try dsimp only)
  (repeat' (first | with_reducible assumption | (exact going_idle) | (exact going_waiting) | (exact going_preparing) | (exact going_running) | (intro _; rfl) | with_reducible apply updAllBays_fit | (with_reducible refine foldl_fit _ (fun _ _ _ => ?_) _ _ ?_) | (with_reducible refine foldl_fst_fit _ (fun _ _ _ => ?_) _ _ ?_) | (with_reducible apply issued_filter_fit) | (with_reducible apply issued_map_fit) | (with_reducible apply waitIn_fit) | (with_reducible apply restartBay_fit) | (simp only [fit_mk]) | (simp only [bay_fit_mk]) | (with_reducible refine Bay.Fit.bounds ?_) | (with_reducible refine State.Fit.parts ?_) |  (with_reducible rfl) | (with_reducible rfl) | (intro _) | split))

theorem newCapacity_fit {s : State} (c : Nat) (h : s.Fit) : State.Fit ((newCapacity c s)) := by
  unfold newCapacity
  (try dsimp only)
  (repeat' (first | with_reducible assumption | (exact going_idle) | (exact going_waiting) | (exact going_preparing) | (exact going_running) | (intro _; rfl) | with_reducible apply raise_fit | (with_reducible refine foldl_fit _ (fun _ _ _ => ?_) _ _ ?_) | (with_reducible refine foldl_fst_fit _ (fun _ _ _ => ?_) _ _ ?_) | (with_reducible apply issued_filter_fit) | (with_reducible apply issued_map_fit) | (with_reducible apply waitIn_fit) | (with_reducible apply restartBay_fit) | (simp only [fit_mk]) | (simp only [bay_fit_mk]) | (with_reducible refine Bay.Fit.bounds ?_) | (with_reducible refine State.Fit.parts ?_) |  (with_reducible rfl) | (with_reducible rfl) | (intro _) | split))

theorem closeReplace_fit {s : State} (gen : Nat) (l : Layout) (h : s.Fit) : State.Fit ((closeReplace gen l s)) := by
  unfold closeReplace
  (try dsimp only)
  (repeat' (first | with_reducible assumption | (exact going_idle) | (exact going_waiting) | (exact going_preparing) | (exact going_running) | (intro _; rfl) | with_reducible apply updBay_fit | with_reducible apply roleNone_fit | with_reducible apply handReleased_fit | with_reducible apply replaceLayouts_fit | with_reducible apply joinedToMember_fit | (with_reducible refine foldl_fit _ (fun _ _ _ => ?_) _ _ ?_) | (with_reducible refine foldl_fst_fit _ (fun _ _ _ => ?_) _ _ ?_) | (with_reducible apply issued_filter_fit) | (with_reducible apply issued_map_fit) | (with_reducible apply waitIn_fit) | (with_reducible apply restartBay_fit) | (simp only [fit_mk]) | (simp only [bay_fit_mk]) | (with_reducible refine Bay.Fit.bounds ?_) | (with_reducible refine State.Fit.parts ?_) |  (with_reducible rfl) | (with_reducible rfl) | (intro _) | split))

theorem completeClose_fit {s : State} (gen : Nat) (h : s.Fit) : State.Fit ((completeClose gen s)) := by
  unfold completeClose
  (try dsimp only)
  (repeat' (first | with_reducible assumption | (exact going_idle) | (exact going_waiting) | (exact going_preparing) | (exact going_running) | (intro _; rfl) | with_reducible apply renameKeys_fit | with_reducible apply replaceLayouts_fit | with_reducible apply beginResidue_fit | with_reducible apply joinedToMember_fit | with_reducible apply newCapacity_fit | with_reducible apply closeReplace_fit | (with_reducible refine foldl_fit _ (fun _ _ _ => ?_) _ _ ?_) | (with_reducible refine foldl_fst_fit _ (fun _ _ _ => ?_) _ _ ?_) | (with_reducible apply issued_filter_fit) | (with_reducible apply issued_map_fit) | (with_reducible apply waitIn_fit) | (with_reducible apply restartBay_fit) | (simp only [fit_mk]) | (simp only [bay_fit_mk]) | (with_reducible refine Bay.Fit.bounds ?_) | (with_reducible refine State.Fit.parts ?_) |  (with_reducible rfl) | (with_reducible rfl) | (intro _) | split))

theorem removeForm_fit {s : State} (gen : Nat) (h : s.Fit) : State.Fit ((removeForm gen s)) := by
  unfold removeForm
  (try dsimp only)
  (repeat' (first | with_reducible assumption | (exact going_idle) | (exact going_waiting) | (exact going_preparing) | (exact going_running) | (intro _; rfl) | with_reducible apply roleNone_fit | with_reducible apply handReleased_fit | with_reducible apply replaceLayouts_fit | (with_reducible refine foldl_fit _ (fun _ _ _ => ?_) _ _ ?_) | (with_reducible refine foldl_fst_fit _ (fun _ _ _ => ?_) _ _ ?_) | (with_reducible apply issued_filter_fit) | (with_reducible apply issued_map_fit) | (with_reducible apply waitIn_fit) | (with_reducible apply restartBay_fit) | (simp only [fit_mk]) | (simp only [bay_fit_mk]) | (with_reducible refine Bay.Fit.bounds ?_) | (with_reducible refine State.Fit.parts ?_) |  (with_reducible rfl) | (with_reducible rfl) | (intro _) | split))

theorem completeRemove_fit {s : State} (gen : Nat) (h : s.Fit) : State.Fit ((completeRemove gen s)) := by
  unfold completeRemove
  (try dsimp only)
  (repeat' (first | with_reducible assumption | (exact going_idle) | (exact going_waiting) | (exact going_preparing) | (exact going_running) | (intro _; rfl) | with_reducible apply updBay_fit | with_reducible apply renameKeys_fit | with_reducible apply handReleased_fit | with_reducible apply replaceLayouts_fit | with_reducible apply beginResidue_fit | with_reducible apply removeForm_fit | (with_reducible refine foldl_fit _ (fun _ _ _ => ?_) _ _ ?_) | (with_reducible refine foldl_fst_fit _ (fun _ _ _ => ?_) _ _ ?_) | (with_reducible apply issued_filter_fit) | (with_reducible apply issued_map_fit) | (with_reducible apply waitIn_fit) | (with_reducible apply restartBay_fit) | (simp only [fit_mk]) | (simp only [bay_fit_mk]) | (with_reducible refine Bay.Fit.bounds ?_) | (with_reducible refine State.Fit.parts ?_) |  (with_reducible rfl) | (with_reducible rfl) | (intro _) | split))

theorem rulePlanEnd_fit {s : State } {t : State}  (h : s.Fit) (e : rulePlanEnd s = some t) : t.Fit := by
  unfold rulePlanEnd at e
  (try dsimp only at e)
  (repeat' split at e) <;> (try simp only [Option.map_eq_some_iff, Option.some.injEq, reduceCtorEq] at e) <;> (try obtain ⟨_, -, rfl⟩ := e) <;> (try subst e)
  all_goals (repeat' (first | with_reducible assumption | (exact going_idle) | (exact going_waiting) | (exact going_preparing) | (exact going_running) | (intro _; rfl) | with_reducible apply planDone_fit | with_reducible apply moveChain_fit | with_reducible apply clearActive_fit | with_reducible apply setEngine_fit | (with_reducible refine foldl_fit _ (fun _ _ _ => ?_) _ _ ?_) | (with_reducible refine foldl_fst_fit _ (fun _ _ _ => ?_) _ _ ?_) | (with_reducible apply issued_filter_fit) | (with_reducible apply issued_map_fit) | (with_reducible apply waitIn_fit) | (with_reducible apply restartBay_fit) | (simp only [fit_mk]) | (simp only [bay_fit_mk]) | (with_reducible refine Bay.Fit.bounds ?_) | (with_reducible refine State.Fit.parts ?_) |  (with_reducible rfl) | (with_reducible rfl) | (intro _) | split))
end Sys2Proof.Machine
end

