-- ==== Sys2Proof/Laws/FitsSettle.lean ====
section
/-! SUPPORT. The invariant Fit through the directives and through settling as a whole. -/

namespace Sys2Proof.Machine

theorem takeSelectBay_fit {s : State} (a : DirectiveArgs) (h : s.Fit) : (takeSelectBay a s).1.Fit := by
  unfold takeSelectBay
  split
  · exact fit_mk.mpr h.parts
  · exact h

theorem takeStartChain_fit {s : State} (a : DirectiveArgs) (h : s.Fit) : (takeStartChain a s).1.Fit := by
  unfold takeStartChain
  split
  · split
    · exact h
    · exact fit_mk.mpr h.parts
  · exact h

theorem holdActive_fit {s : State} (h : s.Fit) : (holdActive s).Fit := fit_mk.mpr h.parts

theorem takeHoldChain_fit {s : State} (h : s.Fit) : (takeHoldChain s).1.Fit := by
  unfold takeHoldChain
  split
  · exact holdActive_fit h
  · exact raise_fit _ (fit_mk.mpr h.parts)
  · exact h
  · exact h

theorem takeReleaseChain_fit {s : State} (h : s.Fit) : (takeReleaseChain s).1.Fit := by
  unfold takeReleaseChain
  split
  · exact fit_mk.mpr h.parts
  · split
    · exact fit_mk.mpr h.parts
    · exact h
  · exact h
  · exact h

/-- The saved state PAUSED with a going paused-from, in a state otherwise as it was. -/
theorem State.Fit.savedPaused {s : State} (h : s.Fit) (x : EngineState) (hx : x.Going) :
    FitParts s.shelf.bays s.integ.counts s.ctl.state s.ctl.latch (some .paused) (some x) :=
  ⟨h.bays, h.counts, h.ctl.stopped, fun y hy => by cases hy; exact going_paused, fun y hy => by cases hy; exact hx⟩

theorem pauseEffect_fit {s t : State} (h : s.Fit) (e : pauseEffect s = some t) : t.Fit := by
  unfold pauseEffect at e
  (repeat' split at e) <;> first
    | cases e; done
    | (obtain rfl := Option.some.inj e
       first
       | exact h
       | exact abandonGather_fit (fit_mk.mpr h.parts)
       | exact fit_mk.mpr (h.savedPaused _ going_running)
       | exact fit_mk.mpr (h.savedPaused _ going_settling))

theorem takePause_fit {s : State} (h : s.Fit) : (takePause s).1.Fit := by
  unfold takePause
  split
  · exact pauseEffect_fit h ‹_›
  · exact h

theorem getD_going {o : Option EngineState} {d : EngineState} (h : ∀ e, o = some e → e.Going) (hd : d.Going) :
    (o.getD d).Going := by
  cases o with
  | none => exact hd
  | some e => exact h e rfl

theorem leaveSuspended_fit {s : State} (h : s.Fit) : (leaveSuspended s).Fit := by
  unfold leaveSuspended
  dsimp only
  refine fit_mk.mpr ⟨h.bays, h.counts, LatchLaw.going ?_ (fun _ hx => nomatch hx) ?_⟩
  · dsimp only
    split
    · exact going_closing
    · exact getD_going h.ctl.savedGoing going_idle
  · dsimp only
    split
    · exact fun _ hx => nomatch hx
    · exact h.ctl.fromGoing

theorem takeResume_fit {s : State} (h : s.Fit) : (takeResume s).1.Fit := by
  unfold takeResume
  split
  · split
    · exact h
    · have hs : s.ctl.state.Going := by rw [‹s.ctl.state = _›]; exact going_paused
      exact fit_mk.mpr (h.moved _ hs (getD_going h.ctl.fromGoing going_running) (fun _ hx => nomatch hx))
  · split
    · exact h
    · exact leaveSuspended_fit h
  all_goals exact h

theorem askDrop_fit {s : State} (h : s.Fit) : (askDrop s).Fit := fit_mk.mpr h.parts

theorem takeDropPlan_fit {s : State} (h : s.Fit) : (takeDropPlan s).1.Fit := by
  unfold takeDropPlan
  split
  · exact askDrop_fit h
  · exact h

theorem takeStopChain_fit {s : State} (h : s.Fit) : (takeStopChain s).1.Fit := by
  unfold takeStopChain
  split
  · exact askDrop_fit (fit_mk.mpr h.parts)
  · split
    · have hh := holdActive_fit h
      cases hp : pauseEffect (holdActive s) with
      | none => exact hh
      | some t => exact pauseEffect_fit hh hp
    · exact moveChain_fit (s.plan.pointer, .ended) h
    · exact moveChain_fit (s.plan.pointer, .ended) h
    · exact h

theorem takeSetTuning_fit {s : State} (a : DirectiveArgs) (h : s.Fit) : (takeSetTuning a s).1.Fit := by
  have h1 : State.Fit { s with ctl := { s.ctl with tuning := tunedBy a.tuningMask a.tuning s.ctl.tuning } } :=
    fit_mk.mpr h.parts
  unfold takeSetTuning
  dsimp only
  split
  · exact reportCounts_fit (repin_fit h1)
  · exact repin_fit h1

theorem takeClearEvents_fit {s : State} (a : DirectiveArgs) (h : s.Fit) : (takeClearEvents a s).1.Fit := by
  have h1 : State.Fit { s with win := { s.win with events := s.win.events.clearMask a.eventMask } } :=
    fit_mk.mpr h.parts
  unfold takeClearEvents
  dsimp only [done]
  split
  · exact takeReferences_fit h1
  · exact h1

theorem takeClearCapture_fit {s : State} (h : s.Fit) : (takeClearCapture s).1.Fit :=
  fit_mk.mpr ⟨h.bays, ⟨Nat.zero_le _, Nat.zero_le _, Nat.zero_le _, Nat.zero_le _, Nat.zero_le _, Nat.zero_le _⟩, h.ctl⟩

theorem takeFailMember_fit {s : State} (h : s.Fit) : (takeFailMember s).1.Fit := by
  unfold takeFailMember
  dsimp only
  split
  · exact failBay_fit _ h
  · exact h

theorem takeKeepRemaps_fit {s : State} (h : s.Fit) : (takeKeepRemaps s).1.Fit := by
  unfold takeKeepRemaps
  dsimp only
  split
  · exact h
  · split
    · exact raiseCause_fit _ h
    · exact h

theorem takeClearHalt_fit {s : State} (h : s.Fit) : (takeClearHalt s).1.Fit := by
  unfold takeClearHalt
  split
  · rename_i hc
    simp only [Bool.and_eq_true, beq_iff_eq] at hc
    have hl : s.ctl.latch = true := h.ctl.stopped.mpr (Or.inr hc.1)
    refine fit_mk.mpr ⟨h.bays, h.counts, ?_⟩
    unfold clearedHalt
    split
    · exact ⟨⟨fun _ => Or.inl rfl, fun _ => hl⟩, fun y hy => by cases hy; exact going_paused,
        fun y hy => by cases hy; exact going_running⟩
    · exact ⟨⟨fun _ => Or.inl rfl, fun _ => hl⟩, fun y hy => by cases hy; exact going_paused,
        fun y hy => by cases hy; exact going_settling⟩
    · exact ⟨⟨fun _ => Or.inl rfl, fun _ => hl⟩, h.ctl.savedGoing, h.ctl.fromGoing⟩
  · exact h

theorem takeByCode_fit {s : State} (d : Directive) (h : s.Fit) : (takeByCode d s).1.Fit := by
  unfold takeByCode
  split
  · exact takeSelectBay_fit _ h
  · exact takeStartChain_fit _ h
  · exact takeHoldChain_fit h
  · exact takeReleaseChain_fit h
  · exact takePause_fit h
  · exact takeResume_fit h
  · exact takeDropPlan_fit h
  · exact takeStopChain_fit h
  · exact takeSetTuning_fit _ h
  · exact takeClearEvents_fit _ h
  · exact fit_mk.mpr h.parts
  · exact takeClearCapture_fit h
  · exact takeFailMember_fit h
  · exact takeKeepRemaps_fit h
  · exact takeClearHalt_fit h
  · exact h

theorem takeDirective_fit {s : State} (d : Directive) (h : s.Fit) : (takeDirective d s).Fit := by
  have h1 : State.Fit { s with win := { s.win with taken := true } } := fit_mk.mpr h.parts
  unfold takeDirective
  dsimp only
  split
  · exact finishDirective_fit _ h1
  · split
    · exact restartTaken_fit _ h1
    · split
      · exact finishDirective_fit _ h1
      · have h2 := takeByCode_fit d h1
        split
        · rename_i he
          rw [he] at h2
          exact finishDirective_fit _ h2
        · rename_i he
          rw [he] at h2
          exact h2

theorem ruleTake_fit {s t : State} (h : s.Fit) (e : ruleTake s = some t) : t.Fit := by
  unfold ruleTake at e
  split at e
  · split at e
    · cases e
    · obtain rfl := Option.some.inj e
      exact takeDirective_fit _ h
  · cases e

theorem takeEv_fit {s : State} (e : Ev) (h : s.Fit) : (takeEv e s).Fit := by
  unfold takeEv
  split
  · exact ownerEnd_fit _ _ h
  · exact releaseRequest_fit _ h
  · exact advanceRequest_fit _ h
  · exact advanceStep_fit _ h
  · exact advanceFill_fit _ _ h

theorem ruleTodo_fit {s t : State} (h : s.Fit) (e : ruleTodo s = some t) : t.Fit := by
  unfold ruleTodo at e
  split at e
  · cases e
  · obtain rfl := Option.some.inj e
    exact takeEv_fit _ (fit_mk.mpr h.parts)

/-- Each rule by itself. -/
theorem rules_fit {s : State} (h : s.Fit) : ∀ r ∈ rules, ∀ t, r s = some t → t.Fit := by
  simp only [rules, List.mem_cons, List.not_mem_nil, or_false, forall_eq_or_imp, forall_eq]
  exact ⟨fun _ e => ruleTodo_fit h e,
    fun _ e => ruleBand_fit h e,
    fun _ e => ruleTake_fit h e,
    fun _ e => ruleGrant_fit h e,
    fun _ e => ruleQueued_fit h e,
    fun _ e => ruleLabelDone_fit h e,
    fun _ e => rulePlaced_fit h e,
    fun _ e => ruleRecordDone_fit h e,
    fun _ e => ruleInstalled_fit h e,
    fun _ e => ruleRest_fit h e,
    fun _ e => ruleLostPaused_fit h e,
    fun _ e => ruleDrop_fit h e,
    fun _ e => ruleClosing_fit h e,
    fun _ e => rulePlanEnd_fit h e,
    fun _ e => ruleWaiting_fit h e,
    fun _ e => ruleFetch_fit h e,
    fun _ e => ruleRecopy_fit h e,
    fun _ e => ruleFreeze_fit h e,
    fun _ e => ruleDecide_fit h e,
    fun _ e => ruleSpill_fit h e,
    fun _ e => ruleSpillRecord_fit h e,
    fun _ e => rulePlace_fit h e,
    fun _ e => ruleLabel_fit h e,
    fun _ e => ruleFreeSlot_fit h e,
    fun _ e => ruleBegin_fit h e,
    fun _ e => ruleRecord_fit h e,
    fun _ e => ruleArea_fit h e,
    fun _ e => ruleFlush_fit h e,
    fun _ e => ruleDrained_fit h e,
    fun _ e => ruleScan_fit h e,
    fun _ e => ruleChoice_fit h e,
    fun _ e => ruleLoading_fit h e,
    fun _ e => ruleRecords_fit h e,
    fun _ e => ruleColumns_fit h e,
    fun _ e => ruleRestored_fit h e,
    fun _ e => ruleAssemblyEnd_fit h e,
    fun _ e => ruleSuspend_fit h e⟩

theorem firstRule_fit {s t : State} : ∀ rs : List (State → Option State),
    (∀ r ∈ rs, ∀ u, r s = some u → u.Fit) → firstRule rs s = some t → t.Fit
  | [], _, e => by cases e
  | r :: rs, hr, e => by
    unfold firstRule at e
    split at e
    · rename_i u hu
      obtain rfl := Option.some.inj e
      exact hr r (by simp) _ hu
    · exact firstRule_fit rs (fun q hq => hr q (by simp [hq])) e

theorem settleFor_fit (n : Nat) : ∀ {s : State}, s.Fit → (settleFor n s).Fit := by
  induction n with
  | zero => intro s h; exact h
  | succ n ih =>
    intro s h
    unfold settleFor
    split
    · exact h
    · exact ih (firstRule_fit rules (rules_fit h) ‹_›)

/-- Everything that follows at an event keeps the bounds and the latch law. -/
theorem settle_fit {s : State} (h : s.Fit) : (settle s).Fit := settleFor_fit settleBound h

end Sys2Proof.Machine
end

