-- ==== Sys2Proof/Laws/FitsCommands.lean ====
section
/-! SUPPORT. The invariant Fit through the arrivals of requests and directives and the events of the shelf links. -/

namespace Sys2Proof.Machine

theorem acceptPassing_fit {s : State} (h : s.Fit) : (acceptPassing s).Fit := fit_mk.mpr h.parts

theorem accept_fit {s : State} (tag : Tag) (k : ReqKind) (lba count : Nat) (bs : List Block) (st : ReqState) (h : s.Fit) :
    (accept tag k lba count bs st s).Fit := fit_mk.mpr h.parts

theorem readArrival_fit {s : State} (tag : Tag) (lba count : Nat) (h : s.Fit) : (readArrival tag lba count s).Fit := by
  unfold readArrival
  split
  · exact send_fit _ _ _ _ h
  · split
    · exact send_fit _ _ _ _ h
    · exact send_fit _ _ _ _ (acceptPassing_fit h)
    · split
      · exact send_fit _ _ _ _ h
      · exact enterPath_fit _ (accept_fit _ _ _ _ _ _ h)

theorem flushArrival_fit {s : State} (tag : Tag) (h : s.Fit) : (flushArrival tag s).Fit := by
  unfold flushArrival
  split
  · exact send_fit _ _ _ _ h
  · split
    · exact send_fit _ _ _ _ h
    · exact accept_fit _ _ _ _ _ _ h

theorem placeDirective_fit {s : State} (d : Directive) (h : s.Fit) : (placeDirective d s).Fit := by
  unfold placeDirective
  split
  · exact fit_mk.mpr h.parts
  · exact fit_mk.mpr h.parts
  · exact raise_fit _ (fit_mk.mpr h.parts)

theorem directiveWrite_fit {s : State} (tag : Tag) (d : Directive) (h : s.Fit) : (directiveWrite tag d s).Fit :=
  send_fit _ _ _ _ (settle_fit (placeDirective_fit d (acceptPassing_fit h)))

theorem directiveArrival_fit {s : State} (tag : Tag) (d : Directive) (h : s.Fit) : (directiveArrival tag d s).Fit := by
  unfold directiveArrival
  split
  · exact send_fit _ _ _ _ h
  · exact directiveWrite_fit _ _ h

theorem pageArrival_fit {s : State} (tag : Tag) (lba : Nat) (bs : List Block) (h : s.Fit) :
    (pageArrival tag lba bs s).Fit := by
  unfold pageArrival
  dsimp only
  split
  · exact fit_mk.mpr h.parts
  · exact takePage_fit _ (accept_fit _ _ _ _ _ _ h)

theorem writeArrival_fit {s : State} (tag : Tag) (lba : Nat) (bs : List Block) (h : s.Fit) :
    (writeArrival tag lba bs s).Fit := by
  unfold writeArrival
  dsimp only
  split
  · exact send_fit _ _ _ _ h
  · split
    · exact send_fit _ _ _ _ h
    · exact send_fit _ _ _ _ (takeCapture_fit _ h)
    · unfold windowWrite
      split
      · exact directiveWrite_fit _ _ h
      · split
        · exact pageArrival_fit _ _ _ h
        · exact send_fit _ _ _ _ (acceptPassing_fit h)
    · split
      · exact send_fit _ _ _ _ h
      · exact enterPath_fit _ (accept_fit _ _ _ _ _ _ h)

theorem linkDownAt_fit {s : State} (p : Port) (h : s.Fit) : (linkDownAt p s).Fit :=
  foldl_fit _ (fun _ i hs => depart_fit i hs) _ _ (fit_mk.mpr h.parts)

theorem linkUpAt_fit {s : State} (p : Port) (bays : List (Fin 16)) (h : s.Fit) : (linkUpAt p bays s).Fit :=
  foldl_fit _ (fun _ b hs => arrival_fit (slotOf p b) hs) _ _ (fit_mk.mpr h.parts)

end Sys2Proof.Machine
end

