-- ==== Sys2Proof/Laws/Records.lean ====
section
/-! SUPPORT. The fields of records read back (R203): a field of a disjunction, of its own place, and of a place apart. -/

namespace Sys2Proof.Machine

theorem fieldAt_or (a b : Data) (off len : Nat) : fieldAt (a ||| b) off len = fieldAt a off len ||| fieldAt b off len := by
  unfold fieldAt
  refine Nat.eq_of_testBit_eq (fun i => ?_)
  simp only [BitVec.toNat_or, Nat.testBit_mod_two_pow, Nat.testBit_shiftRight, Nat.testBit_or]
  cases decide (i < 8 * len) <;> simp

theorem fieldAt_zero (off len : Nat) : fieldAt zeroData off len = 0 := by
  unfold fieldAt zeroData
  simp

/-- A field read back from its own place. -/
theorem fieldAt_putField_same (off len v : Nat) (h : off + len ≤ 4096) :
    fieldAt (putField off len v) off len = v % 2 ^ (8 * len) := by
  unfold fieldAt putField
  refine Nat.eq_of_testBit_eq (fun i => ?_)
  simp only [BitVec.toNat_ofNat, Nat.testBit_mod_two_pow, Nat.testBit_shiftRight, Nat.testBit_shiftLeft]
  by_cases hi : i < 8 * len
  · have h1 : 8 * (4096 - off - len) + i < 32768 := by omega
    have h2 : 8 * (4096 - off - len) + i ≥ 8 * (4096 - off - len) := by omega
    have h3 : 8 * (4096 - off - len) + i - 8 * (4096 - off - len) = i := by omega
    simp [hi, h1, h3]
  · simp [hi]

/-- A field of a place apart is zero. -/
theorem fieldAt_putField_apart (off len v off' len' : Nat) (h : off + len ≤ off' ∨ off' + len' ≤ off)
    (hb : off' + len' ≤ 4096) (ha : off + len ≤ 4096) : fieldAt (putField off len v) off' len' = 0 := by
  unfold fieldAt putField
  refine Nat.eq_of_testBit_eq (fun i => ?_)
  simp only [BitVec.toNat_ofNat, Nat.testBit_mod_two_pow, Nat.testBit_shiftRight, Nat.testBit_shiftLeft, Nat.zero_testBit]
  by_cases hi : i < 8 * len'
  · rcases h with h | h
    · by_cases h2 : 8 * (4096 - off - len) ≤ 8 * (4096 - off' - len') + i
      · exfalso; omega
      · simp [h2]
    · by_cases h2 : 8 * (4096 - off - len) ≤ 8 * (4096 - off' - len') + i
      · have h3 : ¬ (8 * (4096 - off' - len') + i - 8 * (4096 - off - len) < 8 * len) := by omega
        simp [h3]
      · simp [h2]
  · simp [hi]

/-- A field of a record is the disjunction of what each of its fields puts there. -/
theorem fieldAt_buildRecord (fs : List (Nat × Nat × Nat)) (off len : Nat) :
    fieldAt (buildRecord fs) off len = fs.foldl (fun a f => a ||| fieldAt (putField f.1 f.2.1 f.2.2) off len) 0 := by
  have h : ∀ (l : List (Nat × Nat × Nat)) (d : Data) (a : Nat), fieldAt d off len = a →
      fieldAt (l.foldl (fun d f => d ||| putField f.1 f.2.1 f.2.2) d) off len
        = l.foldl (fun a f => a ||| fieldAt (putField f.1 f.2.1 f.2.2) off len) a := by
    intro l
    induction l with
    | nil => intro d a h; exact h
    | cons f l ih => intro d a h; exact ih _ _ (by rw [fieldAt_or, h])
  exact h fs zeroData 0 (fieldAt_zero _ _)

/-- The guard over the first bytes of a record is not changed by what lies behind them (R204). -/
theorem recordGuard_or_apart (d : Data) (off len v n : Nat) (hn : n ≤ off) (hl : off + len ≤ 4096) (h0 : n ≤ 4096) :
    recordGuard (d ||| putField off len v) n = recordGuard d n := by
  unfold recordGuard
  congr 1
  refine Nat.eq_of_testBit_eq (fun i => ?_)
  simp only [BitVec.toNat_or, Nat.testBit_shiftRight, Nat.testBit_or, putField, BitVec.toNat_ofNat,
    Nat.testBit_mod_two_pow, Nat.testBit_shiftLeft]
  have h3 : ¬ (8 * (4096 - n) + i - 8 * (4096 - off - len) < 8 * len) := by omega
  simp [h3]

/-- A block the engine makes for a member block is judged good there (R142, R143). -/
theorem judge_recordBlock (d : Data) (k : Nat) : judgeOther (BitVec.ofNat 32 k) (recordBlock d k) = .good := by
  simp [judgeOther, recordBlock, makeBlock, guardGood]

end Sys2Proof.Machine
end

