-- ==== Sys2Proof/Laws/PlanRecords.lean ====
section
/-! SUPPORT. The fields of a plan record's bytes (11.4), one lemma for each part of the record. -/

namespace Sys2Proof.Machine


/-- A field apart from every field of a record is zero. -/
theorem fields_apart (off len : Nat) (hb : off + len ≤ 4096) : ∀ (fs : List (Nat × Nat × Nat)) (a : Nat),
    (∀ f ∈ fs, (f.1 + f.2.1 ≤ off ∨ off + len ≤ f.1) ∧ f.1 + f.2.1 ≤ 4096) →
    fs.foldl (fun a f => a ||| fieldAt (putField f.1 f.2.1 f.2.2) off len) a = a
  | [], _, _ => rfl
  | f :: fs, a, h => by
    have := h f (by simp)
    rw [List.foldl_cons, fieldAt_putField_apart _ _ _ _ _ this.1 hb this.2, Nat.or_zero]
    exact fields_apart off len hb fs a (fun g hg => h g (by simp [hg]))

theorem fields_bays (j : Nat) (hj : j < 64) : ∀ (bs : List (BitVec 8)) (k a : Nat), k + bs.length ≤ 64 →
    ((bs.zip (List.range' k bs.length)).map (fun p => (32 + p.2, 1, p.1.toNat))).foldl
      (fun a f => a ||| fieldAt (putField f.1 f.2.1 f.2.2) (32 + j) 1) a
      = a ||| (if k ≤ j then (bs.getD (j - k) 0#8).toNat else 0)
  | [], k, a, _ => by simp
  | b :: bs, k, a, h => by
    simp only [List.length_cons] at h
    simp only [List.length_cons, List.range'_succ, List.zip_cons_cons, List.map_cons, List.foldl_cons]
    rw [fields_bays j hj bs (k + 1) _ (by omega)]
    by_cases h1 : j = k
    · subst h1
      rw [fieldAt_putField_same _ _ _ (by omega), if_neg (by omega), if_pos (Nat.le_refl _), Nat.sub_self]
      have := b.isLt
      simp [Nat.mod_eq_of_lt this]
    · rw [fieldAt_putField_apart _ _ _ _ _ (by omega) (by omega) (by omega), Nat.or_zero]
      by_cases h2 : k ≤ j
      · rw [if_pos h2, if_pos (by omega), show j - k = (j - (k + 1)) + 1 by omega]
        simp
      · rw [if_neg h2, if_neg (by omega)]

theorem zip_range32 (bs : List (BitVec 8)) (h : bs.length = 32) : bs.zip (List.range 32) = bs.zip (List.range' 0 bs.length) := by
  rw [h, List.range_eq_range']

theorem bays_span (bs : List (BitVec 8)) : ∀ f ∈ (bs.zip (List.range 32)).map (fun p => (32 + p.2, 1, p.1.toNat)), 32 ≤ f.1 ∧ f.1 + f.2.1 ≤ 64 := by
  intro f hf
  rw [List.mem_map] at hf
  obtain ⟨p, hp, rfl⟩ := hf
  have := List.mem_range.mp (List.of_mem_zip hp).2
  simp; omega

/-- A field of the first 32 bytes of a plan record (11.4). -/
theorem recordBytes_low (r : PlanRecord) (off len : Nat) (h : off + len ≤ 32) :
    fieldAt (recordBytes r) off len = ([(0, 1, r.kind.toNat), (1, 1, bit r.cont + 2 * bit r.quiet), (2, 2, r.unit.toNat), (4, 1, r.listLength.toNat),
      (5, 1, r.position.toNat), (6, 1, r.replacement.toNat), (7, 1, outcomeCode r.outcome), (8, 8, r.rowsDone),
      (16, 8, r.capacity), (24, 8, r.generation)] : List (Nat × Nat × Nat)).foldl (fun a f => a ||| fieldAt (putField f.1 f.2.1 f.2.2) off len) 0 := by
  unfold recordBytes
  rw [fieldAt_buildRecord, List.foldl_append]
  exact fields_apart off len (by omega) _ _ (fun f hf => by have := bays_span _ f hf; omega)

/-- A bay list entry of a plan record (11.4). -/
theorem recordBytes_bay (r : PlanRecord) (h : r.bays.length = 32) (j : Nat) (hj : j < 32) :
    fieldAt (recordBytes r) (32 + j) 1 = (r.bays.getD j 0#8).toNat := by
  unfold recordBytes
  rw [fieldAt_buildRecord, List.foldl_append, zip_range32 _ h, fields_bays j (by omega) _ _ _ (by omega)]
  rw [fields_apart _ _ (by omega) _ _ (by intro f hf; simp at hf; rcases hf with rfl | rfl | rfl | rfl | rfl | rfl | rfl | rfl | rfl | rfl <;> simp <;> omega)]
  simp

/-- The guard's bytes are zero before the guard is set (R204). -/
theorem recordBytes_guard (r : PlanRecord) : fieldAt (recordBytes r) 64 2 = 0 := by
  unfold recordBytes
  rw [fieldAt_buildRecord]
  refine fields_apart _ _ (by omega) _ _ (fun f hf => ?_)
  rw [List.mem_append] at hf
  rcases hf with hf | hf
  · simp only [List.mem_cons, List.not_mem_nil, or_false] at hf
    rcases hf with rfl | rfl | rfl | rfl | rfl | rfl | rfl | rfl | rfl | rfl <;> simp
  · have := bays_span _ f hf; omega

/-- The guard leaves the fields below byte 64. -/
theorem recordData_field (r : PlanRecord) (off len : Nat) (h : off + len ≤ 64) : fieldAt (recordData r) off len = fieldAt (recordBytes r) off len := by
  unfold recordData
  rw [fieldAt_or, fieldAt_putField_apart _ _ _ _ _ (by omega) (by omega) (by omega), Nat.or_zero]

theorem flag_bits (a b : Bool) : (bit a + 2 * bit b).testBit 0 = a ∧ (bit a + 2 * bit b).testBit 1 = b ∧ bit a + 2 * bit b < 256 := by
  cases a <;> cases b <;> decide

theorem code_back (o : PlanOutcome) : outcomeOfCode (outcomeCode o) = o ∧ outcomeCode o < 256 := by cases o <;> decide

end Sys2Proof.Machine
end

