-- ==== Sys2Proof/Tests/Slice0.lean ====
section
/-! SUPPORT. Tests: ill-formed commands the checks refuse, the manual's worked examples, and for each statement with
hypotheses a concrete state and operands that meet them. -/

namespace Sys2Proof.Tests
open Sys2Proof Sys2Proof.Machine

-- One theorem at a time: a `decide +kernel` waits for the theorems before it, each wait holding a thread.
set_option Elab.async false

/-! ## Well-formedness: one ill-formed command for each check -/

def anyRef : OpRef := { slot := 0, op := 0, sending := 1 }
def anyBlock : Block := { data := zeroData, guard := 0#16, ref := 0#32, app := 0#16 }
def tooLong : ReadAnswer := .good (List.replicate 8193 anyBlock)
def tooLongMedia : ReadAnswer := .media 0 (List.replicate 8193 anyBlock)

theorem test_wf_readRequest : (Instr.readRequest 0 (2 ^ 40 + 128) 1).wellFormed = false := by decide
theorem test_wf_writeRequest : (Instr.writeRequest 0 (2 ^ 40 + 128) []).wellFormed = false := by decide
theorem test_wf_planPageWrite : (Instr.planPageWrite 0 64 []).wellFormed = false := by decide
theorem test_wf_windowWriteRefused :
    (Instr.windowWriteRefused 0 0 []).wellFormed = false ∧ (Instr.windowWriteRefused 0 64 []).wellFormed = false := by decide
theorem test_wf_linkUp : (Instr.linkUp 0 [3, 4, 3]).wellFormed = false := by decide
theorem test_wf_inquireEnd : (Instr.inquireEnd anyRef (.good 0#64 (2 ^ 64))).wellFormed = false := by decide
theorem test_wf_tooLong : tooLong.wellFormed = false ∧ tooLongMedia.wellFormed = false := by decide +kernel
theorem test_wf_readEnds :
    (Instr.hostReadMemberEnd anyRef tooLong).wellFormed = false ∧ (Instr.hostWriteMemberReadEnd anyRef tooLong).wellFormed = false
    ∧ (Instr.gatherReadEnd anyRef tooLong).wellFormed = false ∧ (Instr.labelReadEnd anyRef tooLong).wellFormed = false
    ∧ (Instr.planAreaReadEnd anyRef tooLong).wellFormed = false ∧ (Instr.spillRecordReadEnd anyRef tooLong).wellFormed = false
    ∧ (Instr.spillColumnReadEnd anyRef tooLong).wellFormed = false ∧ (Instr.fillReadEnd anyRef tooLong).wellFormed = false := by
  simp [Instr.wellFormed, test_wf_tooLong]

/-! ## Building states -/

/-- A powered engine with no volume and nothing under way. -/
def quiet : State :=
  { State.reset with
    ctl := { State.reset.ctl with volume := .none }
    asm := { State.reset.asm with stage := .idle, linksPending := [], firstScan := false } }

def settledB (s : State) : Bool := (firstRule rules s).isNone
theorem settled_of {s : State} (h : settledB s = true) : s.Settled := Option.isNone_iff_eq_none.mp h

def acceptsB (s : State) (tag : Tag) : Bool := settledB s && !s.busy && !s.tagUsed tag
def readyB (s : State) (tag : Tag) : Bool := acceptsB s tag && s.win.current.isNone && s.win.waiting.isNone

theorem accepts_of {s : State} {tag : Tag} (h : acceptsB s tag = true) : s.Accepts tag := by
  simp only [acceptsB, Bool.and_eq_true, Bool.not_eq_true'] at h
  exact ⟨settled_of h.1.1, h.1.2, h.2⟩

theorem ready_of {s : State} {tag : Tag} (h : readyB s tag = true) : s.Ready tag := by
  simp only [readyB, Bool.and_eq_true, Option.isNone_iff_eq_none] at h
  exact ⟨accepts_of h.1.1, h.1.2, h.2⟩

/-- Engine control in a state, the latch as R163 has it. -/
def engine (e : EngineState) (v : VolumeState) (s : State) : State :=
  { s with ctl := { s.ctl with state := e, volume := v, latch := e == .suspended || e == .halted } }

def tune (f : Tuning → Tuning) (s : State) : State := { s with ctl := { s.ctl with tuning := f s.ctl.tuning } }

/-- A host request that stays where it is: a FLUSH that still waits for a member. -/
def resting (tag : Tag) (a : Nat) : Entry :=
  { tag := tag, kind := .flush, lba := 0, count := 0, blocks := [], arrival := a, state := .flushing, keys := [], reads := [],
    rows := [], flushes := some 1, lossTold := false }

def withEntries (es : List Entry) (s : State) : State := { s with port := { entries := es, nextArrival := 1000 } }

/-- The request table full. -/
def full : State := withEntries ((List.finRange 128).map (fun i => resting i i.val)) quiet

/-- A member operation. -/
def operation (i : Slot) (id : Nat) (cls : OpClass) (kind : OpKind) (o : Owner) (home : Option (Nat × Nat)) : MemberOp :=
  { id := id, slot := i, cls := cls, kind := kind, owner := o, home := home }

/-- A member operation in an issue slot, sent once. -/
def sent (op : MemberOp) : Issued := { op := op, sending := 1, expiries := 0, medias := 0 }

/-- A state with an operation in an issue slot of its bay. -/
def issue (x : Issued) (s : State) : State :=
  updBay x.op.slot (fun b => { b with present := true, issued := b.issued ++ [x] }) s

/-- The reference an answer to an issued operation carries. -/
def refOf (x : Issued) : OpRef := { slot := x.op.slot, op := x.op.id, sending := x.sending }

def flushOp : Issued := sent (operation 2 9 .host .flush (.hostFlush 3) none)

/-- One request that drains, its member FLUSH still issued. -/
def draining : State := issue flushOp (withEntries [{ resting 7 3 with state := .draining }] quiet)

/-- One outstanding request of tag 5. -/
def oneRequest : State := withEntries [resting 5 3] quiet

def member (i : Slot) : Option Member := some { slot := i, serial := BitVec.ofNat 64 i.val }

/-- The four-member layout of the worked example 1.3.1: stripe unit 16, 1001 rows. -/
def oldLayout : Layout := { id := .old, unit := 16, members := [member 0, member 1, member 2, member 3], rows := 1001 }
/-- The six-member layout of the worked example 1.3.1. -/
def newLayout : Layout :=
  { id := .new, unit := 16, members := [member 0, member 1, member 2, member 3, member 4, member 5], rows := 1001 }
def onlyLayout : Layout := { oldLayout with id := .only }

/-- A bay that serves a position. -/
def serving (p : Nat) (b : Bay) : Bay :=
  { b with present := true, readiness := .ready, reference := true, role := .member, position := some p,
           ident := some (BitVec.ofNat 64 p, 40000) }

/-- A volume of four members, online and at rest. -/
def online : State :=
  let s := updBay 0 (serving 0) (updBay 1 (serving 1) (updBay 2 (serving 2) (updBay 3 (serving 3)
    (engine .idle .online quiet))))
  { s with
    plan := { s.plan with layouts := [onlyLayout], capacity := 48048, identity := 7#64 }
    ctl := { s.ctl with lastReport := [(.only, 0)] }
    mark := { s.mark with state := .initial } }

/-- The same volume with position 2 missing. -/
def degraded : State :=
  let s := tune (fun t => { t with degradedContinue := true })
    (updBay 2 (fun b => { b with role := .failed }) (engine .idle .degraded online))
  { s with ctl := { s.ctl with lastReport := [(.only, 1)], lastTolerance := 1 } }

theorem test_states_settled : (settledB quiet && settledB full && settledB draining && settledB oneRequest && settledB online
    && settledB degraded && settledB State.reset) = true := by decide +kernel

/-! ## Worked examples of the manual -/

/-- 1.3.1: logical block 1000 under NEW and under OLD, and back. -/
theorem test_mapping_of_block_1000 :
    newLayout.cellOf 1000 = { row := 12, pos := 2, off := 8 } ∧ newLayout.blockOf (newLayout.cellOf 1000) = 16584
    ∧ oldLayout.cellOf 1000 = { row := 20, pos := 2, off := 8 } ∧ oldLayout.blockOf (oldLayout.cellOf 1000) = 16712
    ∧ newLayout.lbaOf { row := 12, pos := 2, off := 8 } = some 1000 ∧ newLayout.parity 12 = 5 ∧ oldLayout.parity 20 = 3 := by
  decide +kernel

/-- 1.7.1: the growth end row 601 and the last step's end at the old capacity. -/
theorem test_growth_end : growthEnd oldLayout newLayout = 601 ∧ effectiveStep 2 newLayout = 2
    ∧ stepStop oldLayout newLayout 600 1 = 48048 ∧ stepStop oldLayout newLayout 0 2 = 160 := by decide +kernel

/-- 4.10: with Fm = 6 the safe row is floor(6 × 5 / 3) = 10. -/
theorem test_safe_row : safeRowOf oldLayout newLayout 6 = 10 := by decide

/-- R140: the register after the bytes of "123456789" begins at all ones and uses the generator 0x1021; 0x29B1 is that
computation's published check value. -/
theorem test_guard_check_value : crc 72 0x313233343536373839 = 0x29B1#16 := by decide +kernel

/-- The opcode table gives no row any bits. -/
theorem test_no_word_spells_a_command : decodeTableWord 16 0x0102 = none ∧ quiet.withFetchWord 16 0x0102 = quiet := by
  constructor <;> rfl

/-- R41: a completion carries the marker exactly when a flag is set that the mask has. -/
theorem test_marker :
    (send 5 .good none [] (raise .planDone quiet)).out.map (·.marker) = [true]
    ∧ (send 5 .good none [] quiet).out.map (·.marker) = [false]
    ∧ (send 5 .good none [] (raise .planDone { quiet with win := { quiet.win with mask := 0xFFB#12 } })).out.map (·.marker)
        = [false] := by decide +kernel

/-- R196: step rows 0 is clamped to 1, and a mark interval of 65 to 64. -/
theorem test_clamp : clampCount 16 0#8 = 1 ∧ clampCount 64 65#8 = 64 ∧ countClamped 16 0#8 = true ∧ countClamped 16 16#8 = false := by
  decide

/-! ## Witnesses: the machine -/

def noTuning : TuningBytes :=
  { stepRows := 0#8, pace := 0#8, markInterval := 0#8, stainLimit := 0#8, captureMode := 0#8, degradedContinue := 0#8,
    linkResetRestart := 0#8 }
def args (bay pointer : BitVec 8) : DirectiveArgs :=
  { seq := 3#16, bay := bay, pointer := pointer, tuningMask := 0#16, tuning := noTuning, eventMask := 0#16 }

theorem witness_StepRunsCommands_front : ∃ (s : State) (c : Instr) (rest : List Instr), s.pending = c :: rest :=
  ⟨quiet.withQueue [.powerOn, .volumeLinkReset], .powerOn, [.volumeLinkReset], rfl⟩

theorem witness_StepRunsCommands_empty : quiet.pending = [] := rfl

theorem witness_CommandsComplete_arrivals : Instr.readRequest 5 0 1 ≠ .powerOn := by decide

/-- A state at the bounds of Sound: a full table, 160 lock entries, the top tuning values and the top overwrite count. -/
def bounds : State :=
  let s := tune (fun t => { t with stepRows := 16, pace := 16, markInterval := 64, stainLimit := 7 }) full
  { s with
    locks := { s.locks with entries := (List.range 160).map (fun k =>
      { key := { layout := .only, row := k }, holder := some k, readers := [], waiters := [] }) }
    win := { s.win with overwrites := 65535 } }

def soundB (s : State) : Bool :=
  decide ((1 ≤ s.ctl.tuning.stepRows ∧ s.ctl.tuning.stepRows ≤ 16) ∧ (1 ≤ s.ctl.tuning.pace ∧ s.ctl.tuning.pace ≤ 16)
    ∧ (1 ≤ s.ctl.tuning.markInterval ∧ s.ctl.tuning.markInterval ≤ 64)
    ∧ (1 ≤ s.ctl.tuning.stainLimit ∧ s.ctl.tuning.stainLimit ≤ 7)
    ∧ s.port.entries.length ≤ 128 ∧ (s.port.entries.map (·.tag)).Nodup ∧ (s.port.entries.map (·.arrival)).Nodup
    ∧ (∀ e ∈ s.port.entries, e.arrival < s.port.nextArrival) ∧ s.locks.entries.length ≤ 160 ∧ s.win.overwrites ≤ 65535)

theorem sound_of {s : State} (h : soundB s = true) : s.Sound := by
  obtain ⟨a, b, c, d, e, f, g, i, j, k⟩ := of_decide_eq_true h
  exact ⟨⟨a, b, c, d⟩, e, f, g, i, j, k⟩

theorem witness_StepKeepsSound : ∃ s t : State, s.Sound ∧ s.pending ≠ [] ∧ step s = .next t :=
  ⟨bounds.withQueue [.bayArrival 63], _, sound_of (by decide +kernel), by decide, rfl⟩

/-- A state at the bounds of Fit: a bay with 16 issued operations, full counters and the last place of the arbiter's cycle. -/
def fitBounds : State :=
  let s := engine .suspended .none quiet
  let s := updBay 63 (fun b =>
    { b with present := true, readiness := .ready, media := 65535, tagErrors := 65535, timeouts := 65535, contest := 15,
             moverCount := 15, issued := (List.range 16).map (fun k => sent (operation 63 k .host .flush (.hostFlush 3) none)) }) s
  { s with
    integ := { s.integ with counts :=
      { hostTag := 65535, memberTag := 65535, mediaRead := 65535, mediaWrite := 65535, timeout := 65535,
        poisonWritten := 65535 } }
    ctl := { s.ctl with saved := some .running, pausedFrom := some .settling } }

def fitB (s : State) : Bool :=
  decide ((∀ i : Slot, (s.bay i).media ≤ 65535 ∧ (s.bay i).tagErrors ≤ 65535 ∧ (s.bay i).timeouts ≤ 65535
      ∧ (s.bay i).issued.length ≤ 16 ∧ (s.bay i).contest ≤ 15 ∧ (s.bay i).moverCount ≤ (s.bay i).contest)
    ∧ (s.integ.counts.hostTag ≤ 65535 ∧ s.integ.counts.memberTag ≤ 65535 ∧ s.integ.counts.mediaRead ≤ 65535
      ∧ s.integ.counts.mediaWrite ≤ 65535 ∧ s.integ.counts.timeout ≤ 65535 ∧ s.integ.counts.poisonWritten ≤ 65535)
    ∧ (s.ctl.latch = true ↔ s.ctl.state = .suspended ∨ s.ctl.state = .halted)
    ∧ s.ctl.saved ≠ some .suspended ∧ s.ctl.saved ≠ some .halted ∧ s.ctl.pausedFrom ≠ some .suspended
    ∧ s.ctl.pausedFrom ≠ some .halted)

theorem fit_of {s : State} (h : fitB s = true) : s.Fit := by
  obtain ⟨a, b, c, d, e, f, g⟩ := of_decide_eq_true h
  refine ⟨fun i => ⟨(a i).1, (a i).2.1, (a i).2.2.1, (a i).2.2.2.1, (a i).2.2.2.2.1, (a i).2.2.2.2.2⟩, b, c, ?_, ?_⟩
  · rintro x hx
    exact ⟨fun hh => d (hx.trans (congrArg some hh)), fun hh => e (hx.trans (congrArg some hh))⟩
  · rintro x hx
    exact ⟨fun hh => f (hx.trans (congrArg some hh)), fun hh => g (hx.trans (congrArg some hh))⟩

theorem witness_StepKeepsFit : ∃ s t : State, s.Fit ∧ s.pending ≠ [] ∧ step s = .next t :=
  ⟨fitBounds.withQueue [.bayArrival 62], _, fit_of (by decide +kernel), by decide, rfl⟩

theorem witness_WindowUnitKept :
    (Instr.bayArrival 3).wellFormed = true ∧ carried (.bayArrival 3) = none ∧ Instr.bayArrival 3 ≠ .powerOn
    ∧ Instr.bayArrival 3 ≠ .volumeLinkReset ∧ (∀ tag b, Instr.bayArrival 3 ≠ .writeRequest tag (2 ^ 40) [b])
    ∧ online.win.current = none := by
  exact ⟨rfl, rfl, by decide, by decide, (by intro tag b h; cases h), rfl⟩

/-! ## Witnesses: resets -/

theorem witness_LinkResetDrains_nothing :
    ∃ s : State, s.Settled ∧ s.port.entries = [] ∧ s.ctl.tuning.linkResetRestart = false :=
  ⟨online, settled_of (by decide +kernel), rfl, rfl⟩

/-- A request that has been issued and one that has not. -/
def issuedAndNot : State := issue flushOp (withEntries [resting 7 3, resting 8 4] quiet)

/-- An issued request and one that is not; a held request alone in the hold queue. -/
theorem witness_LinkResetDrains_requests :
    (issuedAndNot.Sound ∧ issuedAndNot.ctl.tuning.linkResetRestart = false ∧ issuedAndNot.port.entries.length = 2)
    ∧ ∃ s : State, s.Sound ∧ s.ctl.tuning.linkResetRestart = false ∧ s.holds ≠ []
      ∧ ∀ h ∈ s.holds, ∃ f ∈ s.port.entries, f.arrival = h.arrival ∧ f.state = .held :=
  ⟨⟨sound_of (by decide +kernel), rfl, rfl⟩,
    { issuedAndNot with
      port := { issuedAndNot.port with entries := [{ resting 7 3 with state := .held }] }
      holds := [{ tag := 7, arrival := 3, reason := .mark }] },
    sound_of (by decide +kernel), rfl, by decide, by decide +kernel⟩

theorem witness_LinkResetTakenAsRestart : (tune (fun t => { t with linkResetRestart := true }) online).ctl.tuning.linkResetRestart
    = true := rfl

/-! ## Witnesses: requests and the window -/

theorem witness_RequestsRefused_busy : ∃ s₁ s₂ : State, s₁.Settled ∧ s₁.busy = true ∧ s₁.port.entries.length = 128
    ∧ s₂.Settled ∧ s₂.busy = true ∧ (∃ e ∈ s₂.port.entries, e.state = .draining) :=
  ⟨full, draining, settled_of (by decide +kernel), by decide +kernel, by decide +kernel, settled_of (by decide +kernel),
    by decide +kernel, by decide +kernel⟩

theorem witness_RequestsRefused_readAndFlush :
    oneRequest.Settled ∧ oneRequest.busy = false ∧ oneRequest.tagUsed 5 = true ∧ oneRequest.tagUsed 6 = false
    ∧ oneRequest.plan.capacity < 2 ^ 40 - 1 + 2 ∧ ¬(2 ^ 40 ≤ 2 ^ 40 - 1 ∧ 2 ^ 40 - 1 + 2 ≤ 2 ^ 40 + 128)
    ∧ ¬(2 ^ 40 ≤ 2 ^ 40 + 127 ∧ 2 ^ 40 + 127 + 2 ≤ 2 ^ 40 + 128)
    ∧ (engine .idle .offline online).Settled ∧ (engine .idle .offline online).busy = false
    ∧ (engine .idle .offline online).tagUsed 6 = false ∧ 47792 + 256 ≤ (engine .idle .offline online).plan.capacity
    ∧ (engine .idle .offline online).ctl.volume ≠ .online ∧ (engine .idle .offline online).ctl.volume ≠ .degraded := by
  refine ⟨settled_of ?_, ?_, ?_, ?_, ?_, ?_, ?_, settled_of ?_, ?_, ?_, ?_, ?_, ?_⟩ <;> decide +kernel

/-- A block with a good tag for a logical address. -/
def hostBlock (d : Data) (lba : Nat) : Block := makeBlock d (BitVec.ofNat 32 lba) 0#16

theorem hostBlock_good (d : Data) (lba : Nat) : hostBlockGood lba (hostBlock d lba) = true := by
  simp [hostBlockGood, hostBlock, makeBlock, guardGood]

/-- A block whose reference is of the address one too high. -/
theorem hostBlock_bad (d : Data) : hostBlockGood 8 (hostBlock d 9) = false := by
  simp [hostBlockGood, hostBlock, makeBlock, guardGood]

/-- The second block of a WRITE at block 7 fails, the first is good. -/
theorem witness_RequestsRefused_write :
    (engine .idle .offline online).Settled ∧ (engine .idle .offline online).busy = false
    ∧ (engine .idle .offline online).tagUsed 6 = false ∧ (List.replicate 256 (hostBlock zeroData 7)).length ≤ 256
    ∧ 7 + [hostBlock zeroData 7, hostBlock zeroData 9].length ≤ (engine .idle .offline online).plan.capacity
    ∧ hostBlockGood (7 + 1) [hostBlock zeroData 7, hostBlock zeroData 9][1] = false
    ∧ (∀ (k : Nat) (hk : k < 1), hostBlockGood (7 + k) ([hostBlock zeroData 7, hostBlock zeroData 9][k]'(by
        simp only [List.length_cons, List.length_nil]; omega)) = true)
    ∧ (∀ (j : Nat) (h : j < [hostBlock zeroData 7].length), hostBlockGood (7 + j) [hostBlock zeroData 7][j] = true)
    ∧ (engine .idle .offline online).plan.capacity < 48048 + 1 := by
  refine ⟨settled_of (by decide +kernel), by decide +kernel, by decide +kernel,
    Nat.le_of_eq List.length_replicate, by decide +kernel, hostBlock_bad _, ?_, ?_,
    by decide +kernel⟩
  · intro k hk
    obtain rfl : k = 0 := by omega
    exact hostBlock_good _ _
  · intro j h
    obtain rfl : j = 0 := by simpa using h
    exact hostBlock_good _ _

theorem witness_WindowReads_blocks : online.Accepts 127 ∧ online.plan.capacity ≤ 2 ^ 40
    ∧ 2 ^ 40 + 128 ≤ 2 ^ 40 + 128 ∧ 2 ^ 40 + 127 + 1 ≤ 2 ^ 40 + 128 :=
  ⟨accepts_of (by decide +kernel), by decide +kernel, by decide, by decide⟩

theorem witness_WindowReads_pages : ∃ s : State, s.Sound ∧ s.Fit ∧ s.ctl.latch = true :=
  ⟨fitBounds, sound_of (by decide +kernel), fit_of (by decide +kernel), rfl⟩

theorem witness_VolumeRequestsEnter :
    (online.Accepts 0 ∧ online.ctl.volume = .online ∧ 48047 + 1 ≤ online.plan.capacity ∧ 47792 + 256 ≤ online.plan.capacity)
    ∧ (degraded.Accepts 0 ∧ degraded.ctl.volume = .degraded)
    ∧ ∀ (j : Nat) (h : j < [hostBlock zeroData 48047].length), hostBlockGood (48047 + j) [hostBlock zeroData 48047][j] = true := by
  refine ⟨⟨accepts_of (by decide +kernel), by decide +kernel⟩, ⟨accepts_of (by decide +kernel), by decide +kernel⟩, ?_⟩
  intro j h
  obtain rfl : j = 0 := by simpa using h
  exact hostBlock_good _ _

/-- A SELECT-BAY record written to window block +0. -/
def selectData : Data := putField 0 1 1 ||| putField 4 1 63

theorem witness_WindowWriteByPlace :
    carried (.selectBay 5 (directiveOf selectData).args) = some (5, directiveOf (hostBlock selectData (2 ^ 40)).data)
    ∧ (directiveOf selectData).args.bay = 63#8
    ∧ carried (.unknownDirective 5 0#8 (directiveOf zeroData).args) = some (5, directiveOf (hostBlock zeroData (2 ^ 40)).data)
    ∧ hostBlockGood (2 ^ 40) (hostBlock selectData (2 ^ 40)) = true ∧ online.plan.capacity ≤ 2 ^ 40 ∧ online.Accepts 5
    ∧ hostBlockGood (2 ^ 40 + 1 + 0) (hostBlock zeroData (2 ^ 40 + 1)) = true
    ∧ hostBlockGood (2 ^ 40 + 63 + 0) (hostBlock zeroData (2 ^ 40 + 63)) = true := by
  have hc : (directiveOf selectData).code = 1#8 := by decide +kernel
  have hz : (directiveOf zeroData).code = 0#8 := by decide +kernel
  refine ⟨?_, by decide +kernel, ?_, hostBlock_good _ _, by decide +kernel, accepts_of (by decide +kernel), hostBlock_good _ _,
    hostBlock_good _ _⟩
  · show some (5, ({ code := 1#8, args := (directiveOf selectData).args } : Directive)) = some (5, directiveOf selectData)
    rw [← hc]
  · show some (5, ({ code := 0#8, args := (directiveOf zeroData).args } : Directive)) = some (5, directiveOf zeroData)
    rw [← hz]

theorem goodPages (first : Nat) : ∀ (j : Nat) (h : j < [hostBlock zeroData (2 ^ 40 + 64 + first)].length),
    hostBlockGood (2 ^ 40 + 64 + first + j) [hostBlock zeroData (2 ^ 40 + 64 + first)][j] = true := by
  intro j h
  obtain rfl : j = 0 := by simpa using h
  exact hostBlock_good _ _

/-- A state with an active plan at work in a slot. -/
def working (slot : Nat) (s : State) : State :=
  { s with plan := { s.plan with active := some slot, status := .active, stage := .working } }

/-- During assembly; the active plan's record is slot 63; slot 0 may be written; with no layout and with one. -/
theorem witness_PlanPageWriteTaken :
    (State.reset.Accepts 5 ∧ State.reset.Sound ∧ State.reset.plan.capacity ≤ 2 ^ 40 ∧ State.reset.ctl.volume = .assembling)
    ∧ (∃ s : State, s.Accepts 5 ∧ s.Sound ∧ s.plan.capacity ≤ 2 ^ 40 ∧ s.ctl.volume ≠ .assembling
      ∧ (∃ j, j < 1 ∧ s.plan.active = some (63 + j)) ∧ ∀ j, j < 1 → s.plan.active ≠ some (0 + j))
    ∧ (quiet.Accepts 5 ∧ quiet.Sound ∧ quiet.plan.layouts = [] ∧ quiet.ctl.volume ≠ .assembling
      ∧ quiet.plan.active ≠ some 0 ∧ quiet.plan.table.length = 64)
    ∧ (online.Accepts 5 ∧ online.Sound ∧ online.plan.layouts ≠ [] ∧ online.ctl.volume ≠ .assembling
      ∧ online.plan.active ≠ some 63) := by
  refine ⟨⟨accepts_of (by decide +kernel), sound_of (by decide +kernel), by decide +kernel⟩,
    ⟨working 63 (engine .paused .online online), accepts_of (by decide +kernel), sound_of (by decide +kernel), by decide +kernel,
      by decide +kernel, ⟨0, by decide, by decide +kernel⟩, ?_⟩, ?_, ?_⟩
  · intro j hj
    obtain rfl : j = 0 := by omega
    decide +kernel
  · exact ⟨accepts_of (by decide +kernel), sound_of (by decide +kernel), by decide +kernel⟩
  · exact ⟨accepts_of (by decide +kernel), sound_of (by decide +kernel), by decide +kernel⟩

/-! ## Witnesses: directives -/

/-- A KEEP-REMAPS that waits for its label write: none is begun while the mark state is OFF and the volume NONE. -/
def slotFull (waiting : Option Directive) : State :=
  { engine .halted .none quiet with
    win := { quiet.win with current := some { code := 14#8, args := args 0 0 }, taken := true, waiting := waiting } }

theorem witness_DirectivePlacedBehindCurrent :
    carried (.pause 5 (args 0 0)) = some (5, { code := 5#8, args := args 0 0 })
    ∧ (slotFull none).Accepts 5 ∧ (slotFull none).win.current ≠ none ∧ (slotFull none).win.waiting = none
    ∧ (slotFull (some { code := 1#8, args := args 0 0 })).Accepts 5
    ∧ (slotFull (some { code := 1#8, args := args 0 0 })).win.waiting ≠ none :=
  ⟨rfl, accepts_of (by decide +kernel), by decide +kernel, rfl, accepts_of (by decide +kernel), by decide +kernel⟩

theorem witness_DirectivesRefused_arrival :
    full.Settled ∧ 128 ≤ full.port.entries.length ∧ draining.Settled ∧ (∃ e ∈ draining.port.entries, e.state = .draining)
    ∧ oneRequest.Settled ∧ oneRequest.port.entries.length < 128 ∧ (∀ e ∈ oneRequest.port.entries, e.state ≠ .draining)
    ∧ (∃ e ∈ oneRequest.port.entries, e.tag = 5) :=
  ⟨settled_of (by decide +kernel), by decide +kernel, settled_of (by decide +kernel), by decide +kernel,
    settled_of (by decide +kernel), by decide +kernel⟩

theorem ready_online : online.Ready 5 := ready_of (by decide +kernel)

theorem witness_DirectivesRefused_slot :
    online.Ready 5 ∧ (0#8).toNat = 0 ∧ 16 < (17#8).toNat ∧ 16 < (255#8).toNat
    ∧ carried (.selectBay 5 (args 0 0)) = some (5, { code := 1#8, args := args 0 0 })
    ∧ carried (.clearHalt 5 (args 0 0)) = some (5, { code := 15#8, args := args 0 0 })
    ∧ State.reset.Ready 5 ∧ State.reset.ctl.volume = .assembling :=
  ⟨ready_online, rfl, by decide, by decide, rfl, rfl, ready_of (by decide +kernel), rfl⟩

theorem witness_DirectiveFinishesAtOnce :
    carried (.clearHalt 5 (args 0 0)) = some (5, { code := 15#8, args := args 0 0 }) ∧ online.Ready 5
    ∧ (15#8 : BitVec 8) ≠ 14#8 ∧ (15#8 : BitVec 8) ≠ 16#8 := ⟨rfl, ready_online, by decide, by decide⟩

theorem witness_SelectedBayDirectives_select :
    online.Ready 5 ∧ online.ctl.volume ≠ .assembling ∧ (args 63 0).bay.toNat < 64 ∧ ¬(args 64 0).bay.toNat < 64 :=
  ⟨ready_online, by decide +kernel⟩

/-- A chain in a status at a pointer. -/
def chain (st : ChainStatus) (hold : Bool) (p : Nat) (s : State) : State :=
  { s with plan := { s.plan with status := st, hold := hold, pointer := p } }

/-- Readiness of a list of states, outside assembly. -/
def allReady (ss : List State) : Bool := ss.all (fun s => readyB s 5 && decide (s.ctl.volume ≠ .assembling))

theorem allReady_of {ss : List State} (h : allReady ss = true) : ∀ s ∈ ss, s.Ready 5 ∧ s.ctl.volume ≠ .assembling := by
  intro s hs
  have := (List.all_eq_true.mp h) s hs
  simp only [Bool.and_eq_true, decide_eq_true_eq] at this
  exact ⟨ready_of this.1, this.2⟩

/-- Idle with the chain ENDED, idle with it HELD, and halted: the three cases; pointers 64 and 65. -/
theorem witness_ChainDirectives_start :
    (∀ s ∈ [online, chain .held false 3 online, engine .halted .online online], s.Ready 5 ∧ s.ctl.volume ≠ .assembling)
    ∧ (online.ctl.state = .idle ∧ online.plan.status = .ended)
    ∧ ((chain .held false 3 online).ctl.state = .idle ∧ (chain .held false 3 online).plan.status = .held)
    ∧ ¬((engine .halted .online online).ctl.state = .idle) ∧ (args 0 64).pointer.toNat ≤ 64 ∧ 64 < (args 0 65).pointer.toNat :=
  ⟨allReady_of (by decide +kernel), by decide +kernel⟩

/-- Each chain status, with the hold flag and without, in states the machine rests in. -/
def chains : List State :=
  [chain .active false 3 (engine .halted .online online), chain .active true 3 (engine .halted .online online),
   chain .due false 0 (engine .halted .online online), chain .due false 4 (engine .halted .online online),
   chain .held false 3 online, online]

theorem witness_ChainDirectives_hold :
    (∀ s ∈ chains, s.Ready 5 ∧ s.ctl.volume ≠ .assembling)
    ∧ chains.map (fun s => s.plan.status) = [.active, .active, .due, .due, .held, .ended]
    ∧ chains.map (fun s => s.plan.hold) = [false, true, false, false, false, false] :=
  ⟨allReady_of (by decide +kernel), by decide +kernel⟩

/-- A step that is settling, past its gathering; nothing of it is asked for. -/
def settling : Step :=
  { kind := .rebuild, front := 0, rows := 1, first := 0, stop := 16, source := [], readSet := [], stage := .place,
    stained := [], stains := 0, pinned := false, spill := false, arrival := none, granted := false, outstanding := 1,
    fetch := { layout := onlyLayout, cells := [], wanted := [] }, built := [], lost := [], repairs := [], handed := true,
    restore := false, poisoned := [] }

/-- The engine at work on a plan, one step placing its writes and the other staging slot empty. -/
def running (e : EngineState) (ask : Bool) : State :=
  let s := working 0 (engine e .online online)
  { s with
    mover := { s.mover with phase := .rebuild, slotA := some settling, slotB := some { settling with front := 1 } }
    ctl := { s.ctl with pauseRequest := ask }
    plan := { s.plan with installed := true } }

def stopped (e : EngineState) (saved paused : Option EngineState) (c : FaultCause) (s : State) : State :=
  let s := engine e .online s
  { s with ctl := { s.ctl with saved := saved, pausedFrom := paused, cause := c } }

theorem witness_PauseAndResume_pause :
    (∀ s ∈ [running .running false, running .settling false, running .running true, stopped .suspended (some .running) none .memberLost online,
        stopped .suspended (some .settling) none .memberLost online, stopped .suspended (some .paused) (some .running) .memberLost online,
        stopped .suspended (some .idle) none .memberLost online, online], s.Ready 5 ∧ s.ctl.volume ≠ .assembling)
    ∧ (running .running false).ctl.pauseRequest = false ∧ (running .running true).ctl.pauseRequest = true
    ∧ (∀ p ∈ (running .running false).steps, p.2.stage ≠ .gather) ∧ (running .running false).steps.length = 2 :=
  ⟨allReady_of (by decide +kernel), by decide +kernel⟩

/-- The online volume with one bay failed: a missing count of 1 and a tolerance of 0. -/
def tooMany : State := updBay 2 (fun b => { b with role := .failed }) (stopped .suspended (some .running) none .memberLost online)

/-- A suspended engine whose REPLACE has lost its incoming bay. -/
def lostIncoming : State :=
  let s := working 0 (stopped .suspended (some .running) none .memberLost online)
  { s with plan := { s.plan with incomingLost := true, installed := true } }

/-- A paused engine with a label write in flight, and a fault pending that waits for it or none. -/
def paused (fault : Bool) : State :=
  let s := working 0 (stopped .paused none (some .running) .none online)
  { s with
    ctl := { s.ctl with faultPending := fault, faultFresh := false, faultWaits := some 4 }
    plan := { s.plan with installed := true }
    mark :=
      { s.mark with
        flight := some { generation := 4, front := 0, noted := 0, plan := none, assembly := false, outstanding := 1 } } }

theorem witness_PauseAndResume_resume :
    (∀ s ∈ [paused false, stopped .suspended (some .running) none .memberLost online, lostIncoming, paused true, tooMany, online],
      s.Ready 5 ∧ s.ctl.volume ≠ .assembling)
    ∧ (paused false).ctl.pausedFrom = some .running
    ∧ (∀ l ∈ lostIncoming.plan.layouts, lostIncoming.missingCount l ≤ lostIncoming.tolerance)
    ∧ (∃ l ∈ tooMany.plan.layouts, tooMany.tolerance < tooMany.missingCount l) :=
  ⟨allReady_of (by decide +kernel), by decide +kernel⟩

def initial (b : Bool) (s : State) : State := { s with mark := { s.mark with state := if b then .initial else .off } }

/-- WAITING for bays of an EMPTY record's list cannot stay; a halted engine keeps every other part as it is. -/
theorem witness_DropAndStop_drop :
    (∀ s ∈ [initial true (paused false), initial true (working 0 (stopped .suspended (some .running) none .memberLost online)),
        initial false (paused false), initial false (working 0 (stopped .suspended (some .running) none .memberLost online)), online,
        engine .halted .online online],
      s.Ready 5 ∧ s.ctl.volume ≠ .assembling)
    ∧ ((initial true (paused false)).ctl.state = .paused ∧ (initial true (paused false)).mark.state = .initial)
    ∧ (initial false (paused false)).mark.state ≠ .initial
    ∧ (initial true (working 0 (stopped .suspended (some .running) none .memberLost online))).plan.active ≠ none :=
  ⟨allReady_of (by decide +kernel), by decide +kernel⟩

theorem witness_DropAndStop_stop :
    (∀ s ∈ [initial true (paused false), initial false (running .running false), chain .active false 3 (engine .halted .online online),
        chain .due false 4 (engine .halted .online online), chain .held false 3 online, online],
      s.Ready 5 ∧ s.ctl.volume ≠ .assembling)
    ∧ [initial true (paused false), initial false (running .running false), chain .active false 3 (engine .halted .online online),
        chain .due false 4 (engine .halted .online online), chain .held false 3 online, online].map State.mayDrop
      = [true, false, false, false, false, false]
    ∧ (initial false (running .running false)).plan.status = .active :=
  ⟨allReady_of (by decide +kernel), by decide +kernel⟩

theorem witness_SetTuningClamps : online.Ready 5 ∧ online.ctl.volume ≠ .assembling := ⟨ready_online, by decide +kernel⟩

/-- A mask without SHELF_CHANGE and one with it. -/
theorem witness_ClearEventsByMask : online.Ready 5 ∧ online.ctl.volume ≠ .assembling
    ∧ ({ args 0 0 with eventMask := 0xFFFD#16 } : DirectiveArgs).eventMask.getLsbD 1 = false
    ∧ ({ args 0 0 with eventMask := 2#16 } : DirectiveArgs).eventMask.getLsbD 1 = true :=
  ⟨ready_online, by decide +kernel⟩

theorem witness_AttentionMask : online.Ready 5 ∧ online.ctl.volume ≠ .assembling ∧ State.reset.Ready 5 ∧ online.Settled
    ∧ State.reset.win.mask.getLsbD 11 = true :=
  ⟨ready_online, by decide +kernel, ready_of (by decide +kernel), ready_online.settled, by decide⟩

theorem witness_ClearCapture : online.Ready 5 ∧ online.ctl.volume ≠ .assembling ∧ online.ctl.tuning.captureLatest = false
    ∧ (tune (fun t => { t with captureLatest := true }) online).ctl.tuning.captureLatest = true :=
  ⟨ready_online, by decide +kernel⟩

def select (i : Slot) (s : State) : State := { s with win := { s.win with selector := i } }

theorem witness_SelectedBayDirectives_fail :
    (∀ s ∈ [select 3 online, select 63 online, select 5 (updBay 5 (fun b => { b with role := .joining }) online)],
      s.Ready 5 ∧ s.ctl.volume ≠ .assembling)
    ∧ ((select 3 online).bay 3).role = .member ∧ ((select 63 online).bay 63).role = .none
    ∧ ((select 5 (updBay 5 (fun b => { b with role := .joining }) online)).bay 5).role = .joining :=
  ⟨allReady_of (by decide +kernel), by decide +kernel⟩

/-- Bays that hold 256 HARD remap entries between them. -/
def hard (n : Nat) (s : State) : State :=
  (List.finRange 64).foldl (fun s i => if i.val < n then updBay i (fun b =>
    { b with remaps := (List.range 8).map (fun k => { row := k, spare := k, hard := true, filling := false }) }) s else s) s

theorem witness_SelectedBayDirectives_keep :
    (∀ s ∈ [stopped .halted none none .recoveryFailed online, select 3 (hard 32 online), select 3 (hard 33 online), select 63 online],
      s.Ready 5 ∧ s.ctl.volume ≠ .assembling)
    ∧ (select 3 (hard 32 online)).hardAfter 3 = 256 ∧ (select 3 (hard 33 online)).hardAfter 3 = 264
    ∧ ((select 3 (hard 32 online)).bay 3).role = .member ∧ (select 3 (hard 32 online)).ctl.state ≠ .halted :=
  ⟨allReady_of (by decide +kernel), by decide +kernel⟩

theorem witness_ClearHaltLeavesHalt :
    (∀ s ∈ [stopped .halted (some .running) none .memberLost online, stopped .halted (some .settling) none .memberLost online,
        stopped .halted (some .paused) (some .running) .memberLost online, stopped .halted none none .recoveryFailed online, online],
      s.Ready 5 ∧ s.ctl.volume ≠ .assembling)
    ∧ (stopped .halted (some .running) none .memberLost online).ctl.cause = .memberLost
    ∧ (engine .suspended .online online).ctl.state = .suspended :=
  ⟨allReady_of (by decide +kernel), by decide +kernel⟩

theorem witness_RestartBeginsAssembly : (withEntries [resting 7 3, resting 8 4] online).Ready 5 ∧ State.reset.Ready 5 :=
  ⟨ready_of (by decide +kernel), ready_of (by decide +kernel)⟩

/-! ## Witnesses: shelf links -/

theorem witness_BaysArriveAndDepart_arrival :
    ((quiet.bay 63).present = false ∧ (quiet.bay 63).wait = [] ∧ (quiet.bay 63).backlog = [])
    ∧ (fitBounds.bay 63).issued.length = 16
    ∧ ((fitBounds.bay 63).present = true ∧ (fitBounds.bay 63).role ≠ .member ∧ (fitBounds.bay 63).role ≠ .joining)
    ∧ ((online.bay 3).present = true ∧ (online.bay 3).role = .member) := by decide +kernel

theorem witness_BaysArriveAndDepart_departure :
    ((quiet.bay 63).present = false ∧ quiet.Settled)
    ∧ ((fitBounds.bay 63).present = true ∧ (fitBounds.bay 63).role ≠ .member ∧ (fitBounds.bay 63).role ≠ .joining)
    ∧ ((online.bay 3).present = true ∧ (online.bay 3).role = .member ∧ online.asm.firstScan = false
        ∧ (online.bay 3).reference = true) :=
  ⟨⟨by decide +kernel, settled_of (by decide +kernel)⟩, by decide +kernel⟩

theorem witness_LinksReportBays : (online.bay (slotOf 0 3)).present = true ∧ (online.bay (slotOf 0 15)).present = false
    ∧ slotOf 3 15 = 63 := by decide +kernel

/-! ## Witnesses: timers and answers -/

/-- An operation issued at bay 3 of the online volume, for an owner. -/
def asked (k : OpKind) (o : Owner) : Issued := sent (operation 3 9 .host k o (some (1, 0)))

def awaiting (x : Issued) : State := issue x online

/-- The issued operation is the one its reference names. -/
theorem awaits_of (x : Issued) (s : State) (h : s.issuedAt (refOf x) = some x) : s.Awaits (refOf x) x x.op.owner := ⟨h, rfl⟩

def readOf (o : Owner) : Issued := asked (.read 16400 1) o
def writeOf (o : Owner) : Issued := asked (.write 16400 [anyBlock]) o

theorem witness_TimersAndStrayAnswers_timers :
    (awaiting (readOf (.gather .a))).issuedAt (refOf (readOf (.gather .a))) = some (readOf (.gather .a))
    ∧ (readOf (.gather .a)).op.owner.isDrained = false ∧ (readOf (.gather .a)).expiries = 0
    ∧ (awaiting { readOf (.gather .a) with expiries := 1, sending := 2 }).issuedAt { slot := 3, op := 9, sending := 2 }
        = some { readOf (.gather .a) with expiries := 1, sending := 2 }
    ∧ (awaiting (readOf (.drained (some 3)))).issuedAt (refOf (readOf (.drained (some 3)))) = some (readOf (.drained (some 3)))
    ∧ (readOf (.drained (some 3))).op.owner.isDrained = true
    ∧ ((awaiting (readOf (.gather .a))).bay 3).role = .member ∧ (fitBounds.bay 63).role ≠ .member := by decide +kernel

/-- The bay a MEMBER, and a bay of role NONE. -/
theorem witness_DataWriteAnswers :
    (∀ o ∈ [Owner.hostWriteWrite 3 0, .place .a, .restorePlace, .writeBack],
      (awaiting (writeOf o)).Awaits (refOf (writeOf o)) (writeOf o) o)
    ∧ ((awaiting (writeOf .writeBack)).bay 3).role = .member
    ∧ ((issue (writeOf .writeBack) quiet).Awaits (refOf (writeOf .writeBack)) (writeOf .writeBack) .writeBack
        ∧ ((issue (writeOf .writeBack) quiet).bay 3).role = .none) := by
  refine ⟨?_, by decide +kernel, ⟨by decide +kernel, rfl⟩, by decide +kernel⟩
  intro o ho
  refine ⟨?_, rfl⟩
  revert o
  decide +kernel

theorem witness_ReserveWriteAnswers :
    ∀ again ∈ [false, true], ∀ o ∈ [Owner.spillColumn .a again, .spillRecord again, .label again, .assemblyLabel again,
        .tableCopy again, .assemblyCopy again, .planArea 63 again, .releasedLabel again],
      (awaiting (writeOf o)).Awaits (refOf (writeOf o)) (writeOf o) o := by
  intro again _ o ho
  refine ⟨?_, rfl⟩
  revert o again
  decide +kernel

/-- A fill of member row 1 of bay 3 in spare slot 0, its spare-slot WRITE issued. -/
def filling : Fill :=
  { slot := 3, row := 1, spare := 0, failed := (writeOf (.place .a)).op, blocks := [some anyBlock],
    fetch := { layout := onlyLayout, cells := [], wanted := [] }, sent := true }

theorem witness_RemapAndFill_fill :
    ∃ (s : State) (x : Issued), s.Awaits (refOf x) x (.spareWrite 3 1) ∧ s.fillOf 3 1 = some filling :=
  ⟨{ awaiting (writeOf (.spareWrite 3 1)) with integ := { online.integ with fills := [filling] } }, writeOf (.spareWrite 3 1),
    ⟨by decide +kernel, rfl⟩, by decide +kernel⟩

theorem witness_ReserveWriteAnswers_flush :
    ∀ m ∈ [0, 1], (awaiting { asked .flush (.hostFlush 3) with medias := m }).Awaits
        (refOf { asked .flush (.hostFlush 3) with medias := m }) { asked .flush (.hostFlush 3) with medias := m } (.hostFlush 3)
      ∧ ({ asked .flush (.hostFlush 3) with medias := m } : Issued).op.kind = .flush := by
  intro m hm
  refine ⟨⟨?_, rfl⟩, rfl⟩
  revert m
  decide +kernel

theorem witness_ArrivalAnswers :
    (awaiting (asked .inquire .inquire)).Awaits (refOf (asked .inquire .inquire)) (asked .inquire .inquire) .inquire
    ∧ (awaiting (asked (.read 0 2) .labelRead)).Awaits (refOf (asked (.read 0 2) .labelRead)) (asked (.read 0 2) .labelRead) .labelRead
    ∧ ((awaiting (asked .inquire .inquire)).bay 3).ident.map (·.1) = some 3#64
    ∧ (awaiting (asked .inquire .inquire)).asm.stage ≠ .scan ∧ (issue (asked .inquire .inquire) State.reset).asm.stage = .scan :=
  ⟨⟨by decide +kernel, rfl⟩, ⟨by decide +kernel, rfl⟩, by decide +kernel⟩

def stage (g : AsmStage) (s : State) : State := { s with asm := { s.asm with stage := g } }

theorem witness_TimersAndStrayAnswers_answers :
    (awaiting (readOf (.drained (some 3)))).Awaits (refOf (readOf (.drained (some 3)))) (readOf (.drained (some 3))) (.drained (some 3))
    ∧ online.Unasked .gather anyRef ∧ online.Unasked .label anyRef ∧ online.Unasked .drained anyRef
    ∧ online.issuedAt anyRef = none :=
  ⟨⟨by decide +kernel, rfl⟩, ⟨ready_online.settled, by decide +kernel⟩, ⟨ready_online.settled, by decide +kernel⟩,
    ⟨ready_online.settled, by decide +kernel⟩, by decide +kernel⟩

/-! ## Witnesses: the address map, growth, the safe row -/

/-- The narrowest layout and the widest growth. -/
theorem witness_AddressMapInverse :
    (∀ l ∈ [oldLayout, newLayout, { oldLayout with unit := 1, members := [member 0, member 1], rows := 2 }], 2 ≤ l.n ∧ 1 ≤ l.unit)
    ∧ (let c : Cell := { row := 3, pos := 0, off := 15 }; c.pos < oldLayout.n ∧ c.off < oldLayout.unit
        ∧ c.pos = oldLayout.parity c.row)
    ∧ (let c : Cell := { row := 3, pos := 3, off := 15 }; c.pos < oldLayout.n ∧ c.off < oldLayout.unit
        ∧ c.pos ≠ oldLayout.parity c.row) := by decide +kernel

def wide (n unit rows : Nat) : Layout := { id := .new, unit := unit, members := List.replicate n none, rows := rows }

/-- The worked example's growth, the smallest, and the largest units and member counts. -/
def growths : List (Layout × Layout) :=
  [(oldLayout, newLayout), (wide 2 1 1, wide 3 1 1), (wide 31 256 7, wide 32 256 7), (wide 2 256 1, wide 32 256 1)]

theorem witness_GrowthStepArithmetic :
    ∀ p ∈ growths,
      p.1.unit = p.2.unit ∧ p.1.rows = p.2.rows ∧ 1 ≤ p.2.unit ∧ p.2.unit ≤ 256 ∧ 1 ≤ p.2.rows ∧ 2 ≤ p.1.n ∧ p.1.n < p.2.n
      ∧ p.2.n ≤ 32 ∧ 0 + 1 ≤ growthEnd p.1 p.2 := by decide +kernel

def growing (f : Nat) : State :=
  { online with plan := { online.plan with layouts := [oldLayout, newLayout] }, mark := { online.mark with front := f } }

theorem witness_SafeRowOfMark :
    online.growing = none ∧ (growing 6).growing = some (oldLayout, newLayout) ∧ (growing 7).growing = some (oldLayout, newLayout)
    ∧ 2 ≤ oldLayout.n ∧ oldLayout.n < newLayout.n ∧ (growing 6).mark.front < (growing 7).mark.front
    ∧ (growing 6).mark.front * newLayout.d / oldLayout.d < 2 ^ 64 := by decide +kernel

/-! ## Witnesses: locks, labels, the arbiter -/

/-- A write of arrival 4 at the head of two entries with a later waiter behind it; a read of arrival 4 beside a reader. -/
def locked (write : Bool) : State :=
  let e (row : Nat) : LockEntry :=
    { key := { layout := .only, row := row }, holder := none, readers := if write then [] else [2],
      waiters := [{ arrival := 4, write := write }, { arrival := 9, write := true }] }
  { online with locks := { entries := [e 0, e 1], queued := [] } }

theorem witness_GrantTakesAllKeys :
    ∀ w ∈ [true, false], ((locked w).locks.entries.map (·.key)).Nodup
      ∧ (locked w).grantable 4 w [{ layout := .only, row := 0 }, { layout := .only, row := 1 }] = true := by decide +kernel

/-- A DIRTY mark with a standing spill record and a bar below the new front; CLEAN; INITIAL. -/
theorem witness_LabelWrites_adopted :
    ∃ (s : State) (r : SpillRecord) (b : Nat), s.mark.spill = .standing r ∧ s.mark.bar = some b ∧ s.mark.state = .dirty :=
  ⟨{ online with mark :=
      { online.mark with
        state := .dirty, bar := some 7
        spill := .standing { front := 7, rows := 1, first := 0, stop := 16, generation := 3 } } },
    { front := 7, rows := 1, first := 0, stop := 16, generation := 3 }, 7, rfl, rfl, rfl⟩

/-- A bay at which the host and the mover both wait, at a place in the arbiter's cycle. -/
def contested (c g : Nat) : Bay :=
  { State.resetBay with
    contest := c, moverCount := g,
    wait := [operation 3 1 .host .flush (.hostFlush 3) none, operation 3 2 .mover (.read 16384 1) (.gather .a) (some (0, 0))] }

theorem witness_ArbiterShare :
    (contested 15 1).wait.find? (·.cls == .mark) = none ∧ (contested 15 1).wait.find? (·.cls == .host) ≠ none
    ∧ (contested 15 1).wait.find? (·.cls == .mover) ≠ none
    ∧ (contested 0 0).moverCount = (1 * (contested 0 0).contest + 15) / 16
    ∧ (contested 15 1).moverCount = (1 * (contested 15 1).contest + 15) / 16
    ∧ (contested 15 15).moverCount = (16 * (contested 15 15).contest + 15) / 16
    ∧ (chooseOp 1 (contested 0 0)).map (·.2) = some (some true) ∧ (chooseOp 1 (contested 15 1)).map (·.2) = some (some false)
    ∧ (chooseOp 16 (contested 15 15)).map (·.2) = some (some true)
    ∧ [operation 3 1 .mark .flush (.hostFlush 3) none].find? (·.cls == .mark) ≠ none := by decide +kernel

/-! ## Witnesses: integrity and records -/

def cellOld : Cell := { row := 1, pos := 1, off := 0 }

/-- The three judgements of a returned block, at a data place and (a parity reference) at a parity place. -/
theorem witness_ReturnedBlockJudged :
    ((readOf (.gather .a)).op.home = some (cellOld.row, cellOld.off)
      ∧ ({ layout := oldLayout, cells := [(cellOld, .waiting 9)], wanted := [] } : Fetch).at cellOld
          = some (.waiting (readOf (.gather .a)).op.id))
    ∧ (∃ a, oldLayout.lbaOf cellOld = some a ∧ (hostBlock zeroData a).guard = guardOf (hostBlock zeroData a).data
        ∧ (hostBlock zeroData a).ref = BitVec.ofNat 32 a ∧ poisonBlock.guard = guardOf poisonBlock.data
        ∧ poisonBlock.ref = 0xFFFFFFFE#32 ∧ poisonBlock.ref ≠ BitVec.ofNat 32 a
        ∧ (hostBlock zeroData (a + 1)).ref ≠ BitVec.ofNat 32 a ∧ (hostBlock zeroData (a + 1)).ref ≠ 0xFFFFFFFE#32)
    ∧ oldLayout.lbaOf { cellOld with pos := 2 } = none :=
  ⟨⟨rfl, by decide +kernel⟩, ⟨80, by decide +kernel, by simp only [hostBlock, makeBlock], rfl, by simp only [poisonBlock, makeBlock],
    rfl, by simp [poisonBlock, makeBlock, Config.poisonRef], by simp [hostBlock, makeBlock], by simp [hostBlock, makeBlock]⟩,
    by decide +kernel⟩

def remapped (n : Nat) : State :=
  updBay 3 (fun b => { b with remaps := (List.range n).map (fun k => { row := 10 + k, spare := k, hard := false, filling := false }) })
    online

/-- Failed WRITEs: in a spare slot; of a unit that has an entry; with no spare slot free; with spare slot 0 or 7 the lowest
free. -/
theorem witness_RemapAndFill_decision :
    (operation 3 9 .host (.write 12288 [anyBlock]) .writeBack (some (1, 0))).kind.span.1 < 16384
    ∧ (remapped 8).failingRow (writeOf .writeBack).op 16400 = 1
    ∧ (∀ k, k < 8 → ∃ m ∈ ((remapped 8).bay 3).remaps, m.spare = k)
    ∧ 16384 ≤ (writeOf .writeBack).op.kind.span.1
    ∧ (∀ n ∈ [0, 7], (∀ m ∈ ((remapped n).bay 3).remaps, m.row ≠ 1) ∧ (∀ m ∈ ((remapped n).bay 3).remaps, m.spare ≠ n)
        ∧ (∀ j, j < n → ∃ m ∈ ((remapped n).bay 3).remaps, m.spare = j) ∧ ((remapped n).placeOf 3 1).isSome = true)
    ∧ (∃ m ∈ ((remapped 7).bay 3).remaps,
        m.row = (remapped 7).failingRow (operation 3 9 .host (.write 16384 [anyBlock]) .writeBack (some (10, 0))) 16384) := by
  decide +kernel

theorem witness_PlanRecordRoundTrip :
    ∀ r ∈ [State.resetRecord, { State.resetRecord with listLength := 2#8, bays := [63#8, 5#8] ++ List.replicate 30 0#8 }],
      r.bays.length = 32 ∧ (∀ j, r.listLength.toNat ≤ j → j < 32 → r.bays[j]? = some 0#8) ∧ r.rowsDone < 2 ^ 64
      ∧ r.capacity < 2 ^ 64 ∧ r.generation < 2 ^ 64 := by
  intro r hr
  simp only [List.mem_cons, List.not_mem_nil, or_false] at hr
  obtain rfl | rfl := hr <;> decide +kernel

/-! ## Witnesses: the request path -/

/-- What holds of the steps in both staging slots holds of every step. -/
theorem onSteps {s : State} {P : Staging → Step → Prop} (a : ∀ t ∈ s.stepIn .a, P .a t) (b : ∀ t ∈ s.stepIn .b, P .b t) :
    ∀ g t, s.stepIn g = some t → P g t := by
  intro g t h
  cases g
  · exact a t h
  · exact b t h

/-- A MIGRATE step of the worked example's growth, in a stage. -/
def moving (stage : Stage) (front rows : Nat) : Step :=
  { settling with
    kind := .migrate, front := front, rows := rows, first := front * 80, stop := (front + rows) * 80, stage := stage
    handed := false, outstanding := 0, fetch := { layout := oldLayout, cells := [], wanted := [] } }

/-- The worked example's growth at work, F at a row, with steps in its staging slots. -/
def growth (front : Nat) (a b : Option Step) : State :=
  let s := engine .running .online (growing 0)
  { s with
    mover := { front := front, phase := .migrate, slotA := a, slotB := b }
    mark := { s.mark with state := .dirty, generation := 7 } }

/-- A request of tag 5 and arrival 3. -/
def asking (kind : ReqKind) (state : ReqState) (lba count : Nat) : Entry :=
  { resting 5 3 with kind := kind, lba := lba, count := count, state := state, flushes := none }

/-- The request table with one entry. -/
def holding (e : Entry) (s : State) : State := withEntries [e] s

/-- A lock table with entries of other rows. -/
def lockRows (n : Nat) (s : State) : State :=
  { s with locks := { s.locks with entries := (List.range n).map (fun k =>
      { key := { layout := .only, row := 500 + k }, holder := some k, readers := [], waiters := [] }) } }

/-- A write across two steps that hold it, the lower in PLACE and the upper pinned in GATHER; a write of the last block of the
unmarked band beside a step that does not gather it, and one of the first block above the band, with room in the lock table and
without; a held request released with the volume OFFLINE and not, and one that is no longer held. -/
theorem witness_HoldQuestion :
    (
      let s := holding (asking .write .window 159 2)
        (growth 0 (some (moving .place 0 2)) (some { moving .gather 2 2 with pinned := true }))
      s.req 3 = some (asking .write .window 159 2) ∧ (∃ t ∈ s.stepIn .a, t.first < 161 ∧ 159 < t.stop ∧ t.stage = .place)
      ∧ ∃ t ∈ s.stepIn .b, t.first < 161 ∧ 159 < t.stop ∧ t.stage = .gather ∧ t.pinned = true)
    ∧ (∀ lba ∈ [159, 160],
      let s := holding (asking .write .window lba 1) (growth 2 (some (moving .gather 4 2)) none)
      (s.req 3).isSome = true ∧ (∀ t ∈ s.stepIn .a, lba < t.first ∧ t.pinned = false) ∧ s.stepIn .b = none
      ∧ s.growing = some (oldLayout, newLayout) ∧ s.mark.front * newLayout.rowBlocks ≤ lba ∧ lba < oldLayout.capacity
      ∧ s.mover.front * newLayout.rowBlocks = 160)
    ∧ (∀ n ∈ [159, 160],
      let s := lockRows n (holding (asking .read .window 160 1) (growth 2 none none))
      (s.req 3).isSome = true ∧ s.locks.entries.length = n ∧ (s.newKeys (s.keysFor 160 1)).length = 1 ∧ s.locks.queued = []
      ∧ s.stepIn .a = none ∧ s.stepIn .b = none)
    ∧ ∀ e ∈ [asking .write .held 0 1, asking .write .locking 0 1], ∀ v ∈ [VolumeState.offline, .online],
        (holding e (engine .running v (growth 2 none none))).req 3 = some e
          ∧ (holding e (engine .running v (growth 2 none none))).ctl.volume = v := by decide +kernel

/-- A row of one block per member: parity at position 3 in row 0. -/
def narrow : Layout := { onlyLayout with unit := 1 }

def place (p : Nat) : Cell := { row := 0, pos := p, off := 0 }

/-- A block with a number for its data and its application field. -/
def plain (n : Nat) : Block := { data := BitVec.ofNat _ n, guard := 0#16, ref := 0#32, app := BitVec.ofNat 16 n }

/-- A row that has gathered some places, `bad` of them not to be had. -/
def rowOf (path : WritePath) (news known : List Nat) (bad : List Nat) : RowWork :=
  { layout := narrow, row := 0, news := news.map (fun p => (place p, plain (p + 8))), path := path
    fetch :=
      { layout := narrow, wanted := (known ++ bad).map place
        cells := known.map (fun p => (place p, .got (plain (if p = 3 then 7 else 2 ^ p)))) ++ bad.map (fun p => (place p, .lost false)) }
    stage := .writing, outstanding := 0 }

/-- The row before the write: 1, 2, 4 and their parity 7. -/
def oldRow (p : Nat) : Data × BitVec 16 := asSource (plain (if p = 3 then 7 else 2 ^ p))

/-- The four paths on a volume with position 2 missing; a row on each path with every wanted block in hand, and one with two
not to be had. -/
theorem witness_WritePaths :
    (degraded.missingInRow onlyLayout 1 (onlyLayout.parity 1) = true
      ∧ degraded.missingInRow onlyLayout 0 (onlyLayout.parity 0) = false ∧ degraded.missingInRow onlyLayout 0 2 = true
      ∧ [(onlyLayout.cellOf 47, anyBlock)].length ≠ onlyLayout.rowBlocks ∧ (onlyLayout.cellOf 47).pos = 2
      ∧ (onlyLayout.cellOf 31).pos = 1
      ∧ ((List.range 48).map (fun k => (onlyLayout.cellOf k, anyBlock))).length = onlyLayout.rowBlocks)
    ∧ (
      let ds := narrow.dataPositions 0
      (∀ w ∈ [rowOf .fullRow [0, 1, 2] [] [], rowOf .readModifyWrite [1] [1, 3] [], rowOf .reconstructWrite [2] [0, 1, 3] [],
          rowOf .reconstructWrite [0] [0, 2, 3] [1]],
        (w.news.map (·.1)).Nodup ∧ (∀ n ∈ w.news, n.1.row = w.row ∧ n.1.pos ∈ ds) ∧ (∃ n ∈ w.news, n.1.off = 0)
        ∧ w.path ≠ .parityMissing ∧ ∀ p ∈ [0, 1, 2, 3], w.old (place p) = none ∨ w.old (place p) = some (oldRow p))
      ∧ oldRow 3 = xorAll (ds.map oldRow)
      ∧ (rowOf .fullRow [0, 1, 2] [] []).whole 0 = true ∧ (∀ p ∈ ds, ((rowOf .fullRow [0, 1, 2] [] []).new (place p)).isSome = true)
      ∧ (rowOf .readModifyWrite [1] [1, 3] []).whole 0 = true ∧ ((rowOf .readModifyWrite [1] [1, 3] []).old (place 3)).isSome = true
      ∧ ((rowOf .readModifyWrite [1] [1, 3] []).old (place 1)).isSome = true
      ∧ (rowOf .reconstructWrite [2] [0, 1, 3] []).whole 0 = true
      ∧ (∀ p ∈ [0, 1, 3], ((rowOf .reconstructWrite [2] [0, 1, 3] []).old (place p)).isSome = true)
      ∧ (rowOf .reconstructWrite [0] [0, 2, 3] [1]).whole 0 = false) := by decide +kernel

/-- What a reader holds of a row whose place 1 is bad: nothing asked of place 2, its READ under way, its loss, its block. -/
def reader (two : List (Cell × CellState)) : Fetch :=
  { layout := narrow, wanted := [place 1]
    cells := [(place 1, .bad), (place 0, .got (plain 1)), (place 3, .got (plain 7))] ++ two }

theorem witness_RebuildVerdict :
    (place 1).pos < narrow.n
    ∧ Fetch.knows online (reader []) (place 2) = .absent
    ∧ (∀ p ∈ [0, 2, 3], Fetch.knows online (reader [(place 2, .waiting 4)]) (place p) ≠ .absent)
    ∧ Fetch.knows online (reader [(place 2, .waiting 4)]) (place 2) = .waits
    ∧ (∀ p ∈ [0, 2, 3], Fetch.knows online (reader [(place 2, .lost false)]) (place p) ∉ [Known.absent, .waits])
    ∧ Fetch.knows online (reader [(place 2, .lost false)]) (place 2) = .fails
    ∧ (∀ p ∈ [0, 2, 3], Fetch.knows online (reader [(place 2, .got (plain 4))]) (place p)
        = .known false (plain (if p = 3 then 7 else 2 ^ p)))
    ∧ (∀ p ∈ [0, 2, 3], oldRow p = asSource (plain (if p = 3 then 7 else 2 ^ p)))
    ∧ xorAll ((List.range narrow.n).map oldRow) = (zeroData, 0#16) := by decide +kernel

/-- A READ of block 0 in a state of that block. -/
def readEntry (c : CellState) : Entry :=
  { asking .read .issued 0 1 with reads := [{ layout := narrow, wanted := [place 0], cells := [(place 0, c)] }] }

/-- A WRITE with one row. -/
def writeEntry (w : RowWork) : Entry := { asking .write .issued 0 1 with rows := [w] }

/-- A row whose member writes are under way, and the volume with the loss of position 2 not yet recorded. -/
def writingRow : RowWork := rowOf .readModifyWrite [1] [1, 3] []
def losing : State := { degraded with mark := { degraded.mark with losses := [(2, false)] } }

/-- A READ still waiting, one with a block lost while OFFLINE, one with it lost or poison, one with every block; a WRITE with a
row still writing, one whose row waits for the loss of position 2, one that finishes, and one with a row that finished while
the volume was OFFLINE. -/
theorem witness_RequestEnds :
    (∀ c ∈ [CellState.waiting 9, .lost true, .lost false, .poison anyBlock, .got anyBlock],
      (holding (readEntry c) online).req 3 = some (readEntry c) ∧ (readEntry c).state = .issued
      ∧ (∀ f ∈ (readEntry c).reads, ∀ c ∈ f.wanted, f.at c ≠ some .bad) ∧ online.integ.candidates = []
      ∧ (∀ f ∈ (readEntry c).reads, ∀ c ∈ f.wanted, narrow.lbaOf c = some 0))
    ∧ (∀ s ∈ [losing, degraded, engine .idle .offline degraded],
        ∀ w ∈ [writingRow, { writingRow with outstanding := 1 }, { writingRow with stage := .ended },
            { writingRow with stage := .finished true }],
          (holding (writeEntry w) s).req 3 = some (writeEntry w) ∧ w.stage ≠ .reading)
    ∧ losing.bayAt narrow 0 2 = some 2 ∧ losing.roleMissing 2 = true ∧ degraded.mark.losses = [] := by decide +kernel

/-! ## Witnesses: the mover -/

/-- A REPLACE of position 2 by bay 5 at work, F at a row, with steps in its staging slots. -/
def replacing (front : Nat) (a b : Option Step) (s : State) : State :=
  let s := engine .running .online s
  { s with
    plan := { s.plan with incoming := some { q := 2, slot := 5, serial := 5#64 } }
    mover := { front := front, phase := .rebuild, slotA := a, slotB := b } }

/-- A FORM at work, and a growth that settles, its lock table with or without room. -/
def forming : State :=
  let s := engine .running .forming online
  { s with mover := { s.mover with phase := .form, front := 1000 } }
def settlingAt (n : Nat) : State :=
  let s := lockRows n (engine .settling .online (growth 601 none none))
  { s with mover := { s.mover with phase := .settle } }

/-- A growth behind a step past FREEZE and at F; a REPLACE with position q serving and missing; a FORM at the last row; a
settling growth with room for its keys in the lock table and without. -/
theorem witness_MoverBegins :
    (∀ s ∈ [growth 0 (some (moving .place 0 2)) none, growth 2 none none, settlingAt 152, settlingAt 153],
      s.written = some newLayout ∧ s.growing = some (oldLayout, newLayout) ∧ (∀ t ∈ s.stepIn .a, t.stage = .place)
      ∧ s.stepIn .b = none ∧ s.mover.front < s.endRow)
    ∧ (∀ s ∈ [replacing 0 none none online, replacing 0 none none degraded, forming],
      s.written = some onlyLayout ∧ s.growing = none ∧ s.stepIn .a = none ∧ s.stepIn .b = none ∧ s.mover.front < s.endRow)
    ∧ (∀ s ∈ [growth 0 (some (moving .place 0 2)) none, growth 2 none none, settlingAt 152, settlingAt 153,
        replacing 0 none none online, replacing 0 none none degraded, forming], (ruleBegin s).isSome = true)
    ∧ 1 ≤ oldLayout.unit ∧ 1 ≤ newLayout.unit ∧ effectiveStep 8 newLayout = 8
    ∧ (replacing 0 none none online).roleMissing 2 = false ∧ (replacing 0 none none degraded).roleMissing 2 = true
    ∧ (settlingAt 152).locks.entries.length + 8 = 160 ∧ (settlingAt 153).locks.entries.length + 8 = 161 := by decide +kernel

/-- A gathered MIGRATE step of row 0 with one block of unit 1 of position 0 and stains. -/
def stained (units : List RowUnit) : Step :=
  { moving .gather 0 2 with
    source := [{ row := 0, pos := 0 }, { row := 0, pos := 2 }], readSet := [{ row := 0, pos := 0 }, { row := 0, pos := 2 }]
    stained := units, stains := 2
    fetch := { layout := oldLayout, wanted := [place 0], cells := [(place 0, .got anyBlock)] } }

/-- A step in GATHER and one past it; a stain count at the limit and one below it; stained units, one at a missing position. -/
theorem witness_StainsAndRecopies :
    (∀ s ∈ [growth 0 (some (stained [])) none, growth 0 (some (moving .place 0 2)) none], (s.stepIn .a).isSome = true)
    ∧ online.bayAt oldLayout 0 0 = some 0
    ∧ (stained []).stains + 1 = online.ctl.tuning.stainLimit
    ∧ (
      let s := updBay 2 (fun b => { b with role := .failed })
        (growth 0 (some (stained [{ row := 0, pos := 0 }, { row := 0, pos := 2 }])) (some (moving .place 2 2)))
      s.stepIn .a = some (stained [{ row := 0, pos := 0 }, { row := 0, pos := 2 }]) ∧ (∀ t ∈ s.stepIn .b, t.stage ≠ .gather)
      ∧ s.missingInRow oldLayout 0 2 = true ∧ s.missingInRow oldLayout 0 0 = false ∧ (ruleRecopy s).isSome = true)
    ∧ (stained []).fetch.done = true ∧ 1 ≤ (stained []).fetch.layout.unit := by decide +kernel

/-- A SETTLE step whose keys are granted, a gathered MIGRATE step and a gathered REBUILD step may freeze; with a host write in
the row of the MIGRATE step, or one more step past FREEZE, none may. A built step whose last row is the safe row, one row
above it with Fm at its front and not, and that one with its forced mark asked for. -/
theorem witness_FreezeAndDecide :
    (
      let done : Step := { stained [] with stains := 0 }
      (∀ s ∈ [growth 0 (some done) none, growth 0 (some { done with kind := .settle, granted := true }) none],
        s.written = some newLayout ∧ (s.stepIn .a).isSome = true ∧ (ruleFreeze s).isSome = true)
      ∧ (∀ s ∈ [replacing 0 (some { done with kind := .rebuild }) none online],
        s.written = some onlyLayout ∧ (s.stepIn .a).isSome = true ∧ s.stepIn .b = none ∧ (ruleFreeze s).isSome = true)
      ∧ (∀ s ∈ [holding (writeEntry writingRow) (growth 0 (some done) none), growth 0 (some done) (some (moving .place 2 2))],
        (s.stepIn .a).isSome = true ∧ (ruleFreeze s).isSome = false ∧ ∀ t ∈ s.stepIn .b, t.stage ≠ .gather)
      ∧ 1 ≤ narrow.rowBlocks ∧ done.first < done.stop)
    ∧ (
      let marked (f : Nat) (t : Step) (cs : List Cause) : State :=
        { growth t.front (some t) none with mark := { (growth 0 none none).mark with front := f, causes := cs } }
      (marked 6 (moving .freeze 8 2) []).growing = some (oldLayout, newLayout)
      ∧ 6 * newLayout.d / oldLayout.d = 8 + 2 ∧ 6 * newLayout.d / oldLayout.d < 9 + 2
      ∧ (marked 6 (moving .freeze 9 2) []).mark.front ≠ 9 ∧ (marked 9 (moving .freeze 9 7) []).mark.front = 9
      ∧ 9 * newLayout.d / oldLayout.d < 9 + 7
      ∧ ∀ s ∈ [marked 6 (moving .freeze 8 2) [], marked 6 (moving .freeze 9 2) [], marked 9 (moving .freeze 9 7) [],
          marked 6 (moving .freeze 9 2) [{ kind := .forced 9, served := false }]],
        (s.stepIn .a).isSome = true ∧ s.stepIn .b = none) := by decide +kernel

/-- The states of a spill: not handed over, under way, ended with no record and with the last one standing, its record asked
for with a label write in flight and without, and being written. -/
def spilling (handed : Bool) (left : Nat) (sp : SpillState) (flight : Option Flight) : State :=
  let s := growth 0 (some { moving .spill 0 2 with handed := handed, outstanding := left }) none
  { s with mark := { s.mark with spill := sp, flight := flight } }

def lastSpill : SpillRecord := { front := 0, rows := 2, first := 0, stop := 160, generation := 7 }
def flying : Flight := { generation := 8, front := 0, noted := 0, plan := none, assembly := false, outstanding := 1 }

/-- A step whose place writes have ended: with a mark due for its spill, at the interval and one below it, and at the end of a
migration; a SETTLE step; one that has written poison. -/
def placed (unmarked : Nat) (t : Step) : State :=
  let s := growth 0 (some { t with handed := true }) none
  { s with mark := { s.mark with unmarked := unmarked } }

theorem witness_SpillPlaceRetire :
    (∀ s ∈ [spilling false 0 .none none, spilling true 1 .none none, spilling true 0 .none none,
        spilling true 0 (.standing lastSpill) none, spilling true 0 (.asked .a) (some flying), spilling true 0 (.asked .a) none,
        spilling true 0 (.writing .a lastSpill 0) none, spilling true 0 (.writing .a lastSpill 4) none],
      s.written = some newLayout ∧ (∃ t ∈ s.stepIn .a, t.stage = .spill) ∧ s.stepIn .b = none)
    ∧ (∀ o ∈ [Owner.hostRead 3 0, .writeBack],
      let s := issue (sent (operation 3 9 .host (.read 16384 1) o (some (0, 0)))) (growth 0 (some { moving .place 0 2 with built := [({ row := 0, pos := 3 }, [anyBlock])] }) none)
      s.written = some newLayout ∧ (∃ t ∈ s.stepIn .a, t.stage = .place ∧ t.handed = false ∧ ∃ w ∈ t.placeWrites s newLayout, w.slot = 3)
      ∧ s.stepIn .b = none ∧ s.physical 3 newLayout.unit 0 0 = 16384 ∧ ((rulePlace s).isSome = (o == .writeBack)))
    ∧ (∀ s ∈ [placed 0 { moving .place 0 2 with spill := true }, placed 15 (moving .place 0 2), placed 14 (moving .place 0 2),
        placed 0 (moving .place 600 1), placed 0 { moving .place 601 2 with kind := .settle, arrival := some 4 },
        placed 0 { moving .place 0 2 with poisoned := [(3, place 3)] }],
      s.written = some newLayout ∧ (∃ t ∈ s.stepIn .a, t.stage = .place ∧ t.handed = true ∧ t.outstanding = 0 ∧ t.restore = false)
      ∧ s.stepIn .b = none ∧ s.ctl.tuning.markInterval = 16 ∧ s.growthEnd = 601 ∧ s.holds = []
      ∧ s.integ.counts.poisonWritten ≤ 65535) := by decide +kernel

/-! ## Witnesses: label writes and faults -/

def caused (ks : List CauseKind) (served : Bool) (s : State) : State :=
  { s with mark := { s.mark with causes := ks.map (fun k => { kind := k, served := served }) } }

def inFlight (f : Option Flight) (bar : Option Nat) (s : State) : State :=
  { s with mark := { s.mark with flight := f, bar := bar } }

/-- A growth with a marked step, its plan active and installed. -/
def growthPlan (a : Option Step) : State :=
  let s := growth 0 a none
  { s with plan := { s.plan with active := some 0, planKind := .grow, stage := .working, status := .active } }

def marked : Step := { moving .mark 0 2 with spill := true }

/-- Causes alone and with leave to begin, behind a spill bar without and with its STEP cause, with a write in flight and in the
halt of a failed recovery; a completed write with a marked step, with each plan write, with a REMAPS cause served; the band still
held and not. -/
theorem witness_LabelWrites :
    (∀ k ∈ [CauseKind.loss, .step 2, .forced 0, .remaps 3, .plan .install, .plan .close, .plan .remove],
      let s := caused [k] false (growthPlan (some marked))
      s.mark.judgeBand = false ∧ s.mark.flight = none ∧ s.ctl.volume ≠ .assembling ∧ s.mark.bar = none
      ∧ s.ctl.state ≠ .halted ∧ (ruleLabel s).isSome = true ∧ s.closingLayout.isSome = true ∧ s.formerLayout.isSome = true
      ∧ (∃ t ∈ s.stepIn .a, t.stage = .mark) ∧ s.stepIn .b = none)
    ∧ (∀ s ∈ [inFlight (some flying) none (growthPlan none), inFlight none (some 0) (growthPlan none),
        stopped .halted none none .recoveryFailed online], (ruleLabel (caused [.loss] false s)).isSome = false)
    ∧ (ruleLabel (caused [.step 2, .loss] false (inFlight none (some 0) (growthPlan (some marked))))).isSome = true
    ∧ (∀ ks ∈ [[CauseKind.step 2, .loss], [.plan .install], [.plan .close], [.plan .remove], [.remaps 3]],
      ∀ f ∈ [flying, { flying with front := 2, outstanding := 0 }],
      (ruleLabelDone (caused ks true (inFlight (some f) none (growthPlan (some marked))))).isSome = (f.outstanding == 0))
    ∧ (∃ s : State, s.mark.judgeBand = true ∧ s.holds = [] ∧ (ruleBand s).isSome = true) := by
  refine ⟨by decide +kernel, by decide +kernel, by decide +kernel, by decide +kernel,
    { growthPlan none with mark := { (growthPlan none).mark with judgeBand := true } }, by decide +kernel⟩

/-- A fault pending and no longer fresh, in a state of engine control, with a step in staging slot A. -/
def faulty (e : EngineState) (st : PlanStage) (a : Option Step) (waits : Option Nat) : State :=
  let s := inFlight (some flying) none (engine e .degraded (replacing 0 a none degraded))
  { s with
    ctl := { s.ctl with faultPending := true, faultFresh := false, faultWaits := waits }
    plan := { s.plan with stage := st, installed := true } }

/-- The previous report and the counts now, with a rise above the tolerance, within it, and a lowered tolerance; a fault in IDLE,
with the latch set, pending and new; a pending fault in each state, with what it waits for still to come and past. -/
theorem witness_FaultsTaken :
    (∀ s ∈ [tooMany, online, degraded, { degraded with ctl := { degraded.ctl with lastReport := [(.only, 0)] } },
        tune (fun t => { t with degradedContinue := false }) degraded, engine .halted .offline degraded],
      (s.ctl.lastReport.map (·.1)).Nodup ∧ (s.counts.map (·.1)).Nodup)
    ∧ tooMany.counts = [(.only, 1)] ∧ tooMany.ctl.lastReport = [(.only, 0)] ∧ tooMany.tolerance = 0 ∧ degraded.tolerance = 1
    ∧ (tune (fun t => { t with degradedContinue := false }) degraded).ctl.lastTolerance = 1
    ∧ (∀ e ∈ [EngineState.idle, .running, .suspended, .halted], (engine e .degraded degraded).ctl.state = e)
    ∧ (engine .suspended .degraded degraded).ctl.latch = true ∧ (engine .running .degraded degraded).ctl.faultPending = false
    ∧ (∀ w ∈ [some 8, some 7], ∀ e ∈ [EngineState.waiting, .paused, .preparing, .running, .settling, .closing],
      ∀ st ∈ [PlanStage.working, .closing .close],
        let s := faulty e st (some (moving .gather 0 2)) w
        s.ctl.state = e ∧ s.plan.stage = st ∧ s.ctl.faultPending = true ∧ s.ctl.faultFresh = false ∧ s.mark.flight = some flying
        ∧ s.plan.copies = 0)
    ∧ (ruleSuspend (faulty .running .working (some (moving .gather 0 2)) (some 8))).isSome = false
    ∧ (ruleSuspend (faulty .running .working (some (moving .freeze 0 2)) (some 7))).isSome = false
    ∧ (ruleSuspend (faulty .running .working (some (moving .gather 0 2)) (some 7))).isSome = true := by decide +kernel

/-! ## Witnesses: plans -/

def record (kind : Nat) (bays : List Nat) : PlanRecord :=
  { State.resetRecord with
    kind := BitVec.ofNat 8 kind, unit := 16#16, listLength := BitVec.ofNat 8 bays.length
    bays := bays.map (BitVec.ofNat 8) ++ List.replicate (32 - bays.length) 0#8 }

/-- The REPLACE of position 2 by a bay. -/
def swap (b : Nat) : PlanRecord := { record 3 [] with position := 2#8, replacement := BitVec.ofNat 8 b }

def atSlot0 (r : PlanRecord) (s : State) : State := { s with plan := { s.plan with table := s.plan.table.set 0 r } }

/-- A ready drive in bays 4 and 5. -/
def spares (s : State) : State :=
  let drive (i : Nat) (b : Bay) : Bay :=
    { b with present := true, readiness := .ready, reference := true, ident := some (BitVec.ofNat 64 i, 40000) }
  updBay 5 (drive 5) (updBay 4 (drive 4) s)

def dueWith (r : PlanRecord) (s : State) : State := chain .due false 0 (atSlot0 r s)

def waitingFor (hold endChain : Bool) (r : PlanRecord) (s : State) : State :=
  let s := engine .waiting .online (atSlot0 r s)
  { s with plan := { s.plan with active := some 0, stage := .waiting, status := .active, hold := hold, endChain := endChain } }

/-- The four bays of the worked example with drives and no volume. -/
def unformed : State := updBay 0 (serving 0) (updBay 1 (serving 1) (updBay 2 (serving 2) (updBay 3 (serving 3) quiet)))
def blankBays (s : State) : State := updAllBays (fun b => { b with role := .none, position := none }) s

/-- A growth by bays 4 and 5, there and not; a refused record, with CONT and QUIET and without, with a layout in force and not; an
EMPTY record, and pointer 64; a page write that has not taken its content; plans that wait, with their bays and without, and one
that is refused then, by what its end makes of the chain; and every kind of record. -/
theorem witness_PlansFetched :
    (∀ s ∈ [dueWith (record 2 [4, 5]) (spares online), dueWith (record 2 [4, 5]) online, dueWith (record 9 []) online,
        dueWith { record 2 [0] with cont := true, quiet := true } online, dueWith (record 9 []) quiet],
      s.plan.table.length = 64 ∧ s.plan.status = .due ∧ s.ctl.state = .idle ∧ s.ctl.volume ≠ .assembling
      ∧ (s.record 0).kind ≠ 0#8 ∧ s.plan.areaWrites = [] ∧ (ruleFetch s).isSome = true)
    ∧ (spares online).verify (record 2 [4, 5]) = none ∧ (∀ b ∈ (record 2 [4, 5]).named, (spares online).ready b = true)
    ∧ online.verify (record 2 [4, 5]) = none ∧ online.ready 4 = false
    ∧ online.verify (record 9 []) = some .badKind ∧ online.verify (record 2 [0]) = some .bayInUse ∧ quiet.plan.layouts = []
    ∧ (∀ s ∈ [dueWith State.resetRecord online, chain .due false 64 online], (ruleFetch s).isSome = true)
    ∧ (let s := dueWith (record 9 []) online
      (ruleFetch { s with plan := { s.plan with areaWrites :=
        [{ index := 0, source := .page 3, content := some (record 2 [4]), begun := false, left := 0 }] } }).isSome = false)
    ∧ (∀ s ∈ [waitingFor false false (record 2 [4, 5]) (spares online), waitingFor false false (record 2 [4, 5]) online,
        waitingFor false false (record 2 [0]) online, waitingFor true false (record 2 [0]) online,
        waitingFor true true (record 2 [0]) online, waitingFor false false { record 2 [0] with cont := true, quiet := true } online],
      s.plan.table.length = 64 ∧ s.ctl.state = .waiting ∧ s.plan.stage = .waiting ∧ s.plan.active = some 0
      ∧ s.ctl.faultPending = false ∧ s.plan.dropAsked = false)
    ∧ (record 1 [0, 1, 2, 3]).kind.toNat = 1 ∧ (blankBays unformed).verify (record 1 [0, 1, 2, 3]) = none
    ∧ (swap 5).kind.toNat = 3 ∧ (spares online).verify (swap 5) = none ∧ degraded.verify (swap 2) = none
    ∧ 64 ≤ (swap 64).replacement.toNat ∧ online.layout .only = some onlyLayout ∧ quiet.layout .only = none := by decide +kernel

def preparing (installed : Bool) (copies : Nat) : State :=
  let s := engine .preparing .online online
  { s with plan := { s.plan with stage := .installing, installed := installed, copies := copies } }

/-- A FORM, a GROW, a REPLACE and a rebuild in place; the end of PREPARING and what it still waits for. -/
theorem witness_PlanInstalled :
    ((record 1 [0, 1, 2, 3]).slots.Nodup ∧ (record 1 [0, 1, 2, 3]).slots.head? = some 0
      ∧ ∀ i ∈ (record 1 [0, 1, 2, 3]).slots, (unformed.bay i).ident.map (·.2) = some 40000)
    ∧ ((record 2 [4, 5]).slots.Nodup ∧ (record 2 [4, 5]).slots[1]? = some 5 ∧ online.layout .only = some onlyLayout)
    ∧ ((swap 5).replacement.toNat = (5 : Slot).val ∧ onlyLayout.slotAt 2 ≠ some 5)
    ∧ ((swap 2).replacement.toNat = (2 : Slot).val ∧ onlyLayout.slotAt 2 = some 2 ∧ degraded.layout .only = some onlyLayout)
    ∧ ∀ s ∈ [preparing true 0, preparing false 0, preparing true 1],
        s.ctl.state = .preparing ∧ s.plan.stage = .installing ∧ s.ctl.faultPending = false := by decide +kernel

/-- A growth at work in a state of engine control, its phase at a front. -/
def atWork (e : EngineState) (ph : Phase) (front : Nat) (pause : Bool) (a : Option Step) : State :=
  let s := engine e .online (growthPlan a)
  { s with
    ctl := { s.ctl with pauseRequest := pause }
    mover := { s.mover with front := front, phase := ph }
    plan := { s.plan with installed := true } }

/-- A REPLACE that has lost its incoming bay, F at a row. -/
def lostAt (e : EngineState) (st : PlanStage) (front : Nat) : State :=
  let s := updBay 5 (fun b => { b with role := .failed }) (engine e .online (replacing front none none online))
  { s with plan := { s.plan with stage := st, incomingLost := true, installed := true, active := some 0, planKind := .replace } }

/-- A plan asked to be dropped: a growth with JOINING bays, a rebuild in place, and a plan that waits. -/
def dropping (e : EngineState) : State :=
  let s := updBay 5 (fun b => { b with role := .joining, position := some 5 }) (atWork e .migrate 0 false (some (moving .gather 0 2)))
  { s with plan := { s.plan with dropAsked := true } }
def droppingInPlace : State :=
  let s := updBay 2 (fun b => { b with role := .joining, incoming := true }) (engine .running .degraded (replacing 0 none none degraded))
  { s with plan := { s.plan with
      incoming := some { q := 2, slot := 2, serial := 2#64 }, inPlace := some (.failed, 2#64), stage := .working
      dropAsked := true } }

theorem witness_PlanClosing :
    (∀ s ∈ [atWork .running .migrate 600 true none, atWork .settling .settle 1000 true none, atWork .running .settle 601 false none,
        atWork .settling .settle 1001 true none, atWork .running .migrate 0 false (some (moving .place 0 2)),
        atWork .running .migrate 0 false none],
      (s.ctl.state = .running ∨ s.ctl.state = .settling) ∧ s.plan.stage = .working ∧ s.ctl.faultPending = false
      ∧ s.plan.dropAsked = false ∧ s.plan.incomingLost = false)
    ∧ (atWork .running .migrate 600 true none).endRow = 601 ∧ (atWork .settling .settle 1000 true none).endRow = 1001
    ∧ (∀ s ∈ [lostAt .paused .working 0, atWork .paused .migrate 0 false none],
      s.ctl.state = .paused ∧ s.plan.stage = .working ∧ s.ctl.faultPending = false)
    ∧ (∀ s ∈ [atWork .closing .settle 1001 false none], s.ctl.state = .closing ∧ s.plan.stage = .working ∧ (ruleClosing s).isSome = true)
    ∧ (∀ f ∈ [0, 1], ∀ s ∈ [lostAt .closing .working f, lostAt .closing (.closing .close) f],
      s.plan.incomingLost = true ∧ s.layout .only = some onlyLayout ∧ s.plan.incoming.isSome = true ∧ s.closeBegun = false
      ∧ onlyLayout.slotAt 2 = some 2 ∧ (s.bay 2).role = .member ∧ (ruleClosing s).isSome = true)
    ∧ (∀ s ∈ [dropping .running, dropping .suspended, droppingInPlace],
      s.plan.dropAsked = true ∧ s.ctl.faultPending = false ∧ s.ctl.state ≠ .halted ∧ s.plan.stage = .working
      ∧ (ruleDrop s).isSome = true)
    ∧ ((dropping .running).bay 5).role = .joining ∧ (droppingInPlace.bay 2).role = .joining
    ∧ (∀ e ∈ [EngineState.waiting, .suspended], let s := engine e .online (waitingFor false false (record 2 [0]) online)
      (ruleDrop { s with plan := { s.plan with dropAsked := true } }).isSome = true) := by decide +kernel

/-- A plan whose closing or removal label write has completed. -/
def ending (k : PlanKind) (s : State) : State :=
  { s with plan := { s.plan with active := some 0, planKind := k, stage := .closing .close } }

def residue (released : Nat) (hold : Bool) (writes : List AreaWrite) (e : EngineState) : State :=
  let s := engine e .online (atSlot0 { record 2 [4, 5] with cont := true } online)
  { s with plan := { s.plan with
      active := some 0, status := .active, stage := .residue, released := released, hold := hold, areaWrites := writes } }

/-- The ends of a FORM, a GROW with JOINING bays, a REPLACE by another bay and a rebuild in place, with a bay FAILED without a
position; the residue's waits, and a plan's end in CLOSING and in SUSPENDED, held and continued. -/
theorem witness_PlanEnds :
    (∀ s ∈ [ending .form online, ending .grow (growth 0 none none), ending .replace (replacing 0 none none online),
        ending .replace { droppingInPlace with plan := { droppingInPlace.plan with layouts := [onlyLayout.withMember 2 none] } }],
      s.plan.table.length = 64 ∧ s.plan.active = some 0)
    ∧ ((ending .form online).activeKind = .form ∧ (ending .form online).growing = none
      ∧ (ending .form online).layout .only = some onlyLayout ∧ (ending .form online).plan.incoming = none)
    ∧ ((ending .grow (growth 0 none none)).activeKind = .grow
      ∧ (ending .grow (growth 0 none none)).growing = some (oldLayout, newLayout)
      ∧ (ending .grow (growth 0 none none)).plan.incoming = none)
    ∧ ((ending .replace (replacing 0 none none online)).activeKind = .replace
      ∧ (ending .replace (replacing 0 none none online)).growing = none ∧ 2 < onlyLayout.n
      ∧ (∀ j, ((ending .replace (replacing 0 none none online)).bay j).role ≠ .joining) ∧ onlyLayout.slotAt 2 = some 2)
    ∧ (∀ j, (droppingInPlace.bay j).role = .joining → j = 2) ∧ droppingInPlace.growing = none
    ∧ (let w : AreaWrite := { index := 0, source := .ending, content := none, begun := false, left := 0 }
      [residue 1 false [] .closing, residue 0 false [w] .closing, residue 0 false [] .closing, residue 0 true [] .closing,
        residue 0 false [] .suspended].map (fun s => (rulePlanEnd s).isSome) = [false, false, true, true, true]
      ∧ ∀ s ∈ [residue 1 false [] .closing, residue 0 true [] .closing],
          s.plan.stage = .residue ∧ s.plan.table.length = 64 ∧ s.plan.active = some 0) := by decide +kernel

/-! ## Witnesses: assembly -/

/-- The label of the online volume, and those of other states of its plan. -/
def aLabel : Label :=
  { releasedLabel 3 with
    identity := 7#64, unit := 16, rows := 1001, capacity := 48048, ended := true
    layouts := [{ id := .only, entries := onlyLayout.members.map (fun m => { member := m, missing := false }) }] }
def growLabel (st : MarkState) : Label :=
  { aLabel with
    planKind := .grow, phase := .migrate, markState := st, activeSlot := 5
    layouts := [oldLayout, newLayout].map (fun l => { id := l.id, entries := l.members.map (fun m => { member := m, missing := false }) }) }
def replaceLabel : Label :=
  { aLabel with
    planKind := .replace, phase := .rebuild, markState := .clean
    incoming := some { record := { q := 2, slot := 5, serial := 5#64 }, missing := false } }

def assemblyAt (f : Assembly → Assembly) (s : State) : State :=
  { s with ctl := { s.ctl with volume := .assembling }, asm := f s.asm }

def scanning (labels : List (Slot × Label)) (first : Bool) : State :=
  assemblyAt (fun a => { a with stage := .scan, linksPending := [], scanSet := [0, 1, 2, 3], firstScan := first })
    (labels.foldl (fun s x => updBay x.1 (fun b =>
      { b with label := some x.2, labelFound := some (x.2.identity, x.2.generation) }) s) unformed)

def roleOf (r : Role) (p : Option Nat) (v : BitVec 64) (serial : BitVec 64) : State :=
  updBay 2 (fun b => { b with role := r, position := p, labelFound := some (v, 3), ident := some (serial, 40000) }) online

/-- Labels of one identity and two generations, and of two identities that share one; a choice with labels and without, at the
first scan and later, and one that a link still delays; arrivals with each role and with each kind of label. -/
theorem witness_AssemblyChoice :
    (∀ x ∈ [[(0, { aLabel with generation := 2 }), (1, aLabel)], [(0, aLabel), (1, { aLabel with identity := 6#64 })]],
      ∃ l ∈ chosenLabel x, l.generation = 3 ∧ (l.identity = 7#64 ∨ l.identity = 6#64))
    ∧ (∀ s ∈ [scanning [(0, aLabel), (3, aLabel)] true, scanning [] true, scanning [(0, releasedLabel 3)] false],
      s.asm.stage = .scan ∧ s.asm.linksPending = [] ∧ (∀ i ∈ s.asm.scanSet, (s.bay i).readiness = .ready)
      ∧ (ruleChoice s).isSome = true)
    ∧ chosenLabel (scanning [(0, aLabel), (3, aLabel)] true).scanLabels = some aLabel
    ∧ chosenLabel (scanning [(0, releasedLabel 3)] false).scanLabels = none
    ∧ (ruleChoice (assemblyAt (fun a => { a with linksPending := [3] }) (scanning [] true))).isSome = false
    ∧ (∀ r ∈ [Role.failed, .stale], [(roleOf r (some 2) 7#64 2#64), (roleOf r (some 2) 6#64 2#64), (roleOf r (some 2) 7#64 9#64)].map
        (fun s => s.arrivalRole 2) = [.stale, .failed, .failed])
    ∧ (∀ r ∈ [Role.none, .foreign], [(roleOf r none 6#64 2#64), (roleOf r none 7#64 2#64), (roleOf r none 0#64 2#64)].map
        (fun s => s.arrivalRole 2) = [.foreign, .none, .none])
    ∧ (∀ r ∈ [Role.member, .joining], (roleOf r (some 2) 7#64 2#64).arrivalRole 2 = r)
    ∧ (roleOf .failed none 7#64 2#64).arrivalRole 2 = .failed := by decide +kernel

/-- Loading: the records wanted asked for from the first current bay, from none any more, and nothing wanted, with the active
record missing. -/
def loading (asked reads : Nat) (wanted : List Nat) : State :=
  assemblyAt (fun a =>
      { a with stage := .loading, current := [0, 3], asked := asked, reads := reads, wanted := wanted
               chosen := some (growLabel .clean) })
    { online with plan := { online.plan with active := some 5 } }

/-- Labels of an installed growth, a growth still due, a REPLACE with its incoming bay found and not, and a chain ENDED, HELD and
DUE; reading the plan areas. -/
theorem witness_AssemblyMatched :
    (∀ l ∈ [growLabel .clean, growLabel .initial, replaceLabel], l.planKind ≠ .empty ∧ l.markState ≠ .off)
    ∧ ((growLabel .off).planKind ≠ .empty ∧ (growLabel .off).markState = .off)
    ∧ (∀ l ∈ [aLabel, { aLabel with ended := false, held := true }, { aLabel with ended := false }], l.planKind = .empty)
    ∧ (let s := scanning [(0, aLabel), (1, { aLabel with generation := 2 }), (2, { aLabel with generation := 1 }),
          (3, { aLabel with identity := 6#64 })] true
      [0, 1, 2, 3].map (fun i => ((loadLabel aLabel s).bay i).role) = [.member, .member, .stale, .failed])
    ∧ (let s := updBay 5 (serving 5) (scanning [(0, replaceLabel)] true)
      ((loadLabel replaceLabel (assemblyAt (fun a => { a with scanSet := [0, 5] }) s)).bay 5).role = .failed
      ∧ ((loadLabel replaceLabel (assemblyAt (fun a => { a with scanSet := [0, 5] })
          (updBay 5 (fun b => { b with label := some replaceLabel }) s))).bay 5).role = .joining)
    ∧ (∀ s ∈ [loading 0 0 [0, 1, 5], loading 1 0 [63], loading 2 0 [5, 63], loading 0 0 []],
      s.asm.stage = .loading ∧ s.asm.reads = 0 ∧ s.plan.table.length = 64 ∧ (ruleLoading s).isSome = true)
    ∧ (ruleLoading (loading 1 1 [63])).isSome = false := by decide +kernel

def recovering (g : AsmStage) (asked reads : Nat) (spills : List (Slot × SpillRecord)) (s : State) : State :=
  assemblyAt (fun a => { a with stage := g, asked := asked, reads := reads, spills := spills, current := [0, 1, 2, 3, 4, 5] }) s

/-- A restored step of row 0 with some of its blocks of offset 0 not read. -/
def restored (bad : List Nat) (left : Nat) : Step :=
  { moving .place 0 1 with
    spill := true, handed := true, restore := true, outstanding := left
    fetch := { layout := newLayout, wanted := [0, 1, 2].map place
               cells := [0, 1, 2].map (fun p => (place p, if bad.contains p then .bad else .got anyBlock)) } }

/-- Spill records asked for and not, under way, none valid, and one; columns with two blocks of one row and offset unobtained, and with one; the writes of a restored step under way and ended. -/
theorem witness_AssemblyRecovers :
    [recovering .columns 0 0 [] (growthPlan none), recovering .records 0 0 [] online, recovering .records 0 0 [] (growthPlan none),
      recovering .records 1 1 [] (growthPlan none), recovering .records 1 0 [] (growthPlan none),
      recovering .records 1 0 [(4, lastSpill), (0, lastSpill)] (growthPlan none)].map (fun s => (ruleRecords s).isSome)
        = [false, true, true, false, true, true]
    ∧ (growthPlan none).growing = some (oldLayout, newLayout) ∧ (growthPlan none).mover.phase = .migrate
    ∧ (growthPlan none).planInstalled = true ∧ online.planInstalled = false
    ∧ (∀ t ∈ [restored [0, 1] 0, restored [1] 0, restored [] 0],
      let s := recovering .columns 0 0 [] (growthPlan (some t))
      s.asm.stage = .columns ∧ s.asm.reads = 0 ∧ s.stepIn .a = some t ∧ s.growing = some (oldLayout, newLayout)
      ∧ t.fetch.layout = newLayout ∧ (ruleColumns s).isSome = true)
    ∧ (∀ n ∈ [0, 1], (ruleRestored (recovering .placing 0 0 [] (growthPlan (some (restored [] n))))).isSome = (n == 0)) := by
  decide +kernel

def assembled (labelDone : Bool) (copies : Nat) (s : State) : State :=
  assemblyAt (fun a => { a with stage := .label, labelDone := labelDone, copies := copies, chosen := some aLabel }) s

/-- No plan and a growth, their mark states as loaded; each phase at a front below its end and at it, a lost incoming bay, a FORM;
a position newly missing, with its count above the tolerance and not; the label write and the copies still under way. -/
theorem witness_AssemblyEnds :
    (∀ s ∈ [initial false online, growthPlan none, initial true (growthPlan none)],
      (s.mark.state = .off ↔ s.plan.stage = .none ∨ s.plan.stage = .waiting))
    ∧ (∀ s ∈ [assembled true 0 online, assembled true 0 (atWork .idle .migrate 600 false none),
        assembled true 0 (atWork .idle .migrate 601 false none), assembled true 0 (atWork .idle .settle 1000 false none),
        assembled true 0 (atWork .idle .settle 1001 false none), assembled true 0 (lostAt .idle .working 0),
        assembled true 0 (ending .form online), assembled true 0 degraded,
        assembled true 0 (tune (fun t => { t with degradedContinue := false }) (ending .replace (replacing 0 none none degraded)))],
      s.asm.stage = .label ∧ s.asm.labelDone = true ∧ s.asm.copies = 0 ∧ (s.counts.map (·.1)).Nodup
      ∧ (ruleAssemblyEnd s).isSome = true)
    ∧ (degraded.missing onlyLayout 2 = true ∧ degraded.missingCount onlyLayout = 1 ∧ aLabel.layouts.length = 1)
    ∧ (∀ s ∈ [assembled false 0 online, assembled true 1 online], (ruleAssemblyEnd s).isSome = false) := by decide +kernel

/-! ## Witnesses: the answers of READs -/

/-- A state with a READ of one owner issued at bay 3. -/
def readIssued (o : Owner) (s : State) : State := issue (readOf o) s

/-- A READ's own reader, a host write's row, a gathering step and a fill; the same READ with its reader gone; and a reader that
waits for it at one position. -/
theorem witness_ReadAnswers :
    ((readIssued (.hostRead 3 0) (holding (readEntry (.waiting 9)) online)).Awaits (refOf (readOf (.hostRead 3 0)))
        (readOf (.hostRead 3 0)) (.hostRead 3 0)
      ∧ (readIssued (.hostRead 3 0) (holding (readEntry (.waiting 9)) online)).req 3 = some (readEntry (.waiting 9))
      ∧ (readEntry (.waiting 9)).reads[0]?.isSome = true)
    ∧ ((readIssued (.hostWriteRead 3 0) (holding (writeEntry writingRow) online)).Awaits (refOf (readOf (.hostWriteRead 3 0)))
        (readOf (.hostWriteRead 3 0)) (.hostWriteRead 3 0)
      ∧ (readIssued (.hostWriteRead 3 0) (holding (writeEntry writingRow) online)).req 3 = some (writeEntry writingRow)
      ∧ (writeEntry writingRow).rows[0]? = some writingRow)
    ∧ (∀ t ∈ [moving .gather 0 2, moving .abandoned 0 2],
      (readIssued (.gather .a) (growth 0 (some t) none)).Awaits (refOf (readOf (.gather .a))) (readOf (.gather .a)) (.gather .a)
      ∧ (readIssued (.gather .a) (growth 0 (some t) none)).stepIn .a = some t)
    ∧ (∀ fs ∈ [[filling], []],
      let s := readIssued (.fillRead 3 1) { online with integ := { online.integ with fills := fs } }
      s.Awaits (refOf (readOf (.fillRead 3 1))) (readOf (.fillRead 3 1)) (.fillRead 3 1) ∧ s.fillOf 3 1 = fs.head?)
    ∧ ((readIssued (.hostRead 3 0) draining).Awaits (refOf (readOf (.hostRead 3 0))) (readOf (.hostRead 3 0)) (.hostRead 3 0)
      ∧ ∃ e ∈ (readIssued (.hostRead 3 0) draining).req 3, e.reads[0]? = none)
    ∧ (let c : Cell := { row := 1, pos := 0, off := 0 }
      let f : Fetch := { layout := narrow, cells := [(c, .waiting 9)], wanted := [c] }
      (readOf (.hostRead 3 0)).op.home = some (1, 0) ∧ (readOf (.hostRead 3 0)).op.kind = .read 16400 1
      ∧ f.waitingFor (readOf (.hostRead 3 0)).op.id = [c] ∧ f.at c = some (.waiting 9)) := by
  refine ⟨⟨⟨by decide +kernel, rfl⟩, by decide +kernel⟩, ⟨⟨by decide +kernel, rfl⟩, by decide +kernel⟩, ?_, ?_,
    ⟨⟨by decide +kernel, rfl⟩, by decide +kernel⟩, by decide +kernel⟩
  · intro t ht
    refine ⟨⟨?_, rfl⟩, ?_⟩ <;> revert t <;> decide +kernel
  · intro fs hfs
    refine ⟨⟨?_, rfl⟩, ?_⟩ <;> revert fs <;> decide +kernel

def planRead : Issued := asked (.read (Config.planBase + 63) 1) .assemblyPlanRead

/-- The last plan area block, a spill record and a spill column, each in its stage and past it. -/
theorem witness_AssemblyReadAnswers :
    (∀ g ∈ [AsmStage.loading, .idle], (stage g (issue planRead online)).Awaits (refOf planRead) planRead .assemblyPlanRead
      ∧ planRead.op.kind.span.1 = Config.planBase + 63 ∧ (stage g (issue planRead online)).asm.stage = g)
    ∧ (∀ o ∈ [Owner.assemblySpillRead, .assemblyColumnRead], ∀ g ∈ [AsmStage.records, .columns, .idle],
      ∀ t ∈ [some (restored [1] 1), none],
        (stage g (readIssued o (growthPlan t))).Awaits (refOf (readOf o)) (readOf o) o
        ∧ (stage g (readIssued o (growthPlan t))).mover.slotA = t)
    ∧ (readOf .assemblySpillRead).op.kind.isRead = true ∧ planRead.op.kind.isRead = true := by
  refine ⟨?_, ?_, rfl, rfl⟩
  · intro g hg
    refine ⟨⟨?_, rfl⟩, rfl, rfl⟩
    revert g
    decide +kernel
  · intro o ho g hg t ht
    refine ⟨⟨?_, rfl⟩, ?_⟩ <;> revert o g t <;> decide +kernel

/-! ## Single commands on the volume of the worked example -/

def after (c : Instr) (s : State) : State :=
  match exec c s with
  | .next t => t
  | .fault _ => s
  | .refused _ => s

/-- 1.3.1 and R32: a READ of block 1000 goes to member block 16712 of the bay at position 2. -/
theorem test_read_of_block_1000 :
    ((after (.readRequest 5 1000 1) online).bay 2).issued.map (·.op.kind) = [OpKind.read 16712 1]
    ∧ ((after (.readRequest 5 1000 1) online).bay 3).issued = [] := by decide +kernel

/-- R40: a FLUSH sends a member FLUSH to every serving bay. -/
theorem test_flush_asks_every_member :
    [0, 1, 2, 3].map (fun i => ((after (.flushRequest 5) online).bay i).issued.map (·.op.kind)) = List.replicate 4 [OpKind.flush]
    := by decide +kernel

/-- R33 and R130: when the drive cannot read block 1000, the rest of its row is read to rebuild it, and MEDIA is counted. -/
theorem test_media_is_rebuilt :
    let s := after (.readRequest 5 1000 1) online
    let t := after (.hostReadMemberEnd { slot := 2, op := 0, sending := 1 } (.media 16712 [])) s
    (t.bay 2).media = 1 ∧ t.out = [] ∧ [0, 1, 3].map (fun i => (t.bay i).issued.map (·.op.kind)) =
      List.replicate 3 [OpKind.read 16712 1] := by decide +kernel

/-- R129: an expired timer sends the operation again, once. -/
theorem test_timer_sends_again :
    let s := after (.flushRequest 5) online
    let t := after (.memberOpTimeout { slot := 0, op := 0, sending := 1 }) s
    (t.bay 0).issued.map (·.sending) = [2] ∧ (t.bay 0).timeouts = 1 ∧ (t.bay 0).role = .member := by decide +kernel

end Sys2Proof.Tests
end

