-- ==== Sys2Proof/Proofs/SafeRow.lean ====
section
/-! PROOFS. The safe row of the persisted mark (R86): its value, its bounds, and its field of the front page (R200, 11.8). -/

namespace Sys2Proof.Machine

/-! ## The value -/

theorem safeRow_of_growing {s : State} {o n : Layout} (h : s.growing = some (o, n)) :
    s.safeRow = some (safeRowOf o n s.mark.front) := by
  simp [State.safeRow, h]

theorem safeRow_of_not_growing {s : State} (h : s.growing = none) : s.safeRow = none := by
  simp [State.safeRow, h]

/-- A growth has at least one data unit in a row of OLD, and more of them in a row of NEW (D of R1). -/
theorem data_counts_of_growth {o n : Layout} (ho : 2 ≤ o.n) (hn : o.n < n.n) : 0 < o.d ∧ o.d < n.d := by
  unfold Layout.d
  omega

theorem front_le_safeRowOf {o n : Layout} (front : Nat) (h0 : 0 < o.d) (h : o.d ≤ n.d) : front ≤ safeRowOf o n front :=
  (Nat.le_div_iff_mul_le h0).mpr (Nat.mul_le_mul_left front h)

/-- One row more at the front is at least `o.d` more under the floor, so at least one row more of the safe row. -/
theorem safeRowOf_strictMono {o n : Layout} (h0 : 0 < o.d) (h : o.d ≤ n.d) : StrictMono (safeRowOf o n) :=
  strictMono_nat_of_lt_succ fun front =>
    calc front * n.d / o.d
      _ < front * n.d / o.d + 1 := Nat.lt_succ_self _
      _ = (front * n.d + o.d) / o.d := (Nat.add_div_right _ h0).symm
      _ ≤ (front * n.d + n.d) / o.d := Nat.div_le_div_right (Nat.add_le_add_left h _)
      _ = (front + 1) * n.d / o.d := by rw [Nat.succ_mul]

/-! ## The field of the front page -/

theorem spillFields_span (m : SpillState) : ∀ f ∈ spillFields m, f.1 + f.2.1 ≤ 80 := by
  cases m <;> simp [spillFields]

theorem slotFields_span (off : Nat) (t : Option Step) : ∀ f ∈ slotFields off t, off ≤ f.1 ∧ f.1 + f.2.1 ≤ off + 20 := by
  cases t <;> simp [slotFields]

/-- Bytes 80 to 87 lie between the spill record's fields and the slots', so they hold the safe row alone. -/
theorem frontPage_safeRow (s : State) : fieldAt s.frontPage 80 8 = s.safeRow.getD 0 % 2 ^ 64 := by
  have hslot (off : Nat) (t : Option Step) (h : 88 ≤ off ∧ off + 20 ≤ 4096) (a : Nat) :=
    fields_apart 80 8 (by decide) (slotFields off t) a
      fun f hf => by have := slotFields_span off t f hf; omega
  have hspill (a : Nat) :=
    fields_apart 80 8 (by decide) (spillFields s.mark.spill) a
      fun f hf => by have := spillFields_span _ f hf; omega
  unfold State.frontPage
  rw [fieldAt_buildRecord, List.foldl_append, List.foldl_append, List.foldl_append, hslot 128 _ (by decide),
    hslot 96 _ (by decide), hspill]
  simp [fieldAt_putField_apart, fieldAt_putField_same]

/-- Settles O41: the value is the definition's, its bounds are those of the floor over a growing data count, and the page
holds it in a field of its own. -/
theorem safeRowOfMark : Obligations.SafeRowOfMark := by
  unfold Obligations.SafeRowOfMark
  refine fun s => ⟨fun hnone => ?_, fun o n hs ho hn => ?_⟩
  · have hrow := safeRow_of_not_growing hnone
    exact ⟨hrow, by simp [frontPage_safeRow, hrow]⟩
  · have hrow := safeRow_of_growing hs
    obtain ⟨hpos, hlt⟩ := data_counts_of_growth ho hn
    refine ⟨hrow, front_le_safeRowOf _ hpos hlt.le, fun t ht hfront => ?_, fun hfits => ?_⟩
    · exact ⟨_, _, hrow, safeRow_of_growing ht, safeRowOf_strictMono hpos hlt.le hfront⟩
    · rw [frontPage_safeRow, hrow]
      exact Nat.mod_eq_of_lt hfits

end Sys2Proof.Machine
end

