-- ==== Sys2Proof/Proofs/Capture.lean ====
section
/-! PROOFS. The capture record (R148 to R150): which captures it takes in each mode, that a change of the mode leaves it as it
stands, and CLEAR-CAPTURE. -/

namespace Sys2Proof.Machine

/-! ## A capture in each mode (R149) -/

/-- LATEST replaces the record. -/
theorem takeCapture_latest {s : State} (c : Capture) (h : s.ctl.tuning.captureLatest = true) :
    (takeCapture c s).integ.capture = some c := by
  simp [takeCapture_eq, h]

/-- FIRST fills an empty record and is kept out by any other. -/
theorem takeCapture_first {s : State} (c : Capture) (h : s.ctl.tuning.captureLatest = false) :
    (takeCapture c s).integ.capture = some (s.integ.capture.getD c) := by
  cases hk : s.integ.capture <;> simp [takeCapture_eq, h, hk]

/-! ## What leaves the capture record -/

theorem foldl_capture {α : Type} (f : State → α → State) (hf : ∀ s a, (f s a).integ.capture = s.integ.capture)
    (l : List α) (s : State) : (l.foldl f s).integ.capture = s.integ.capture :=
  l.foldlRecOn (motive := fun t => t.integ.capture = s.integ.capture) f rfl fun t ht a _ => (hf t a).trans ht

theorem releaseHolds_capture (p : HoldReason → Bool) (s : State) :
    (releaseHolds p s).integ.capture = s.integ.capture := by
  unfold releaseHolds
  exact foldl_capture _ (fun _ _ => by rw [push_integ]) _ _

theorem repin_capture (s : State) : (repin s).integ.capture = s.integ.capture := by
  unfold repin
  exact foldl_capture _ (fun _ _ => by rw [updStep_integ]) _ _

theorem strikeReader_capture (r : Reader) (s : State) : (strikeReader r s).integ.capture = s.integ.capture := rfl

/-- An abandoned step strikes its candidates from the integrity unit, and nothing else there (R71, R144). -/
theorem abandonStep_capture (g : Staging) (t : Step) (s : State) :
    (abandonStep g t s).integ.capture = s.integ.capture := by
  unfold abandonStep
  cases t.arrival <;> simp [releaseHolds_capture, strikeReader_capture]

theorem abandonGather_capture (s : State) : (abandonGather s).integ.capture = s.integ.capture := by
  unfold abandonGather
  exact foldl_capture _ (fun _ _ => abandonStep_capture _ _ _) _ _

theorem setVolume_integ (s : State) : (setVolume s).integ = s.integ := by
  unfold setVolume
  repeat' split
  all_goals rfl

theorem takeFault_capture (l : Option (LayoutId × Nat)) (s : State) :
    (takeFault l s).integ.capture = s.integ.capture := by
  unfold takeFault
  dsimp only
  repeat' split
  all_goals simp [abandonGather_capture]

theorem reportCounts_capture (s : State) : (reportCounts s).integ.capture = s.integ.capture := by
  unfold reportCounts
  dsimp only
  split
  · rw [takeFault_capture, setVolume_integ]
  · rw [setVolume_integ]

/-- SET-TUNING leaves the record as it stands, whatever mode it puts in force: the pins and the report that follow it do not
reach the record (R150, R196). -/
theorem takeSetTuning_capture (a : DirectiveArgs) (s : State) :
    (takeSetTuning a s).1.integ.capture = s.integ.capture := by
  unfold takeSetTuning
  dsimp only
  split
  · rw [reportCounts_capture, repin_capture]
  · rw [repin_capture]

/-! ## CLEAR-CAPTURE (R150) -/

/-- The integrity unit with its capture record empty and its six counts at 0. -/
def IntegrityUnit.cleared (u : IntegrityUnit) : IntegrityUnit :=
  { u with
    capture := none
    counts := { hostTag := 0, memberTag := 0, mediaRead := 0, mediaWrite := 0, timeout := 0, poisonWritten := 0 } }

/-- Code 0x0C goes to the owner of CLEAR-CAPTURE, which clears the integrity unit and is DONE (R150, R194). -/
theorem takeByCode_clearCapture (a : DirectiveArgs) (s : State) :
    takeByCode { code := 12#8, args := a } s = ({ s with integ := s.integ.cleared }, some .done) := rfl

/-- The finish of a directive does not look at the integrity unit (R192, R193). -/
theorem finishDirective_withInteg (o : DirOutcome) (u : IntegrityUnit) (s : State) :
    finishDirective o { s with integ := u } = { finishDirective o s with integ := u } := by
  unfold finishDirective
  cases s.win.current <;> rfl

/-- Nothing follows from a settled state's integrity unit having been cleared under a directive that reports. -/
theorem reporting_cleared_settled {s : State} (h : s.Settled) (d : Directive) (o : DirOutcome) :
    firstRule rules { s.reporting d o with integ := s.integ.cleared } = none :=
  settled_aside (s := s) (p := s.pending) (o := s.out) (a := s.port.nextArrival + 1) (w := (s.reporting d o).win)
    (k := s.integ.cleared.capture) (n := s.integ.cleared.counts) h (Or.inl rfl)

theorem exec_clearCapture {s : State} {tag : Tag} (a : DirectiveArgs) (r : s.Ready tag)
    (hv : s.ctl.volume ≠ .assembling) :
    exec (.clearCapture tag a) s = .next (send tag .good none []
      { s.reporting { code := 12#8, args := a } .done with integ := s.integ.cleared }) := by
  rw [exec_owner rfl r (show (12#8).toNat ≠ 0 by decide) (show (12#8).toNat < 16 by decide) hv,
    takeByCode_clearCapture]
  dsimp only
  rw [finishDirective_withInteg, finish_holding _ _ r.waiting]
  exact congrArg Host.Outcome.next (afterDirective_settled tag (reporting_cleared_settled r.settled _ _) rfl)

/-- Settles O28: CLEAR-CAPTURE's owner clears the integrity unit and nothing follows from that, SET-TUNING leaves the record,
and a capture goes by the mode in force when it comes. -/
theorem clearCapture : Obligations.ClearCapture := by
  unfold Obligations.ClearCapture
  exact ⟨fun _ _ a r hv => exec_clearCapture a r hv, fun s a => takeSetTuning_capture a s,
    fun _ c h => takeCapture_latest c h, fun _ c h => takeCapture_first c h⟩

end Sys2Proof.Machine
end

