-- ==== Sys2Proof/Proofs/ClearHalt.lean ====
section
/-! PROOFS. CLEAR-HALT (R166): where it leads the engine control, where it is refused, and that no step begins in a state at
rest (R48). -/

namespace Sys2Proof.Machine

/-! ## The engine control after CLEAR-HALT (R166) -/

theorem clearedHalt_of_moving {c : EngineControl} {e : EngineState} (hs : c.saved = some e)
    (he : e = .running ∨ e = .settling) :
    clearedHalt c = { c with state := .suspended, saved := some .paused, pausedFrom := some e } := by
  obtain rfl | rfl := he <;> simp [clearedHalt, hs]

theorem clearedHalt_of_not_moving {c : EngineControl} (hr : c.saved ≠ some .running) (ht : c.saved ≠ some .settling) :
    clearedHalt c = { c with state := .suspended } := by
  unfold clearedHalt
  split
  · exact absurd ‹_› hr
  · exact absurd ‹_› ht
  · rfl

/-! ## The owner of CLEAR-HALT (R166, R194) -/

theorem takeByCode_clearHalt (a : DirectiveArgs) (s : State) :
    takeByCode { code := 15#8, args := a } s = takeClearHalt s := rfl

theorem takeClearHalt_of_memberLost {s : State} (hs : s.ctl.state = .halted) (hc : s.ctl.cause = .memberLost) :
    takeClearHalt s = ({ s with ctl := clearedHalt s.ctl }, some .done) := by
  simp [takeClearHalt, done, hs, hc]

theorem takeClearHalt_refused {s : State} (h : ¬(s.ctl.state = .halted ∧ s.ctl.cause = .memberLost)) :
    takeClearHalt s = (s, some .refusedState) := by
  unfold takeClearHalt
  rw [if_neg (by simpa using h)]
  rfl

/-- The finish of a directive does not look at the engine control (R192, R193). -/
theorem finishDirective_withCtl (o : DirOutcome) (c : EngineControl) (s : State) :
    finishDirective o { s with ctl := c } = { finishDirective o s with ctl := c } := by
  unfold finishDirective
  cases s.win.current <;> rfl

/-! ## The command -/

/-- In a halt for a lost member, CLEAR-HALT changes the engine control, reports DONE, and what follows comes about. -/
theorem exec_clearHalt_of_memberLost {s : State} {tag : Tag} (a : DirectiveArgs) (r : s.Ready tag)
    (hv : s.ctl.volume ≠ .assembling) (hs : s.ctl.state = .halted) (hc : s.ctl.cause = .memberLost) :
    exec (.clearHalt tag a) s = .next (afterDirective tag
      { s.reporting { code := 15#8, args := a } .done with ctl := clearedHalt s.ctl }) := by
  rw [exec_owner rfl r (show (15#8).toNat ≠ 0 by decide) (show (15#8).toNat < 16 by decide) hv,
    takeByCode_clearHalt, takeClearHalt_of_memberLost (s := s.holding _) hs hc]
  dsimp only
  rw [finishDirective_withCtl, finish_holding _ _ r.waiting]
  rfl

/-- Anywhere else, the owner refuses and hands back the state it took. -/
theorem exec_clearHalt_refused {s : State} {tag : Tag} (a : DirectiveArgs) (r : s.Ready tag)
    (hv : s.ctl.volume ≠ .assembling) (h : ¬(s.ctl.state = .halted ∧ s.ctl.cause = .memberLost)) :
    exec (.clearHalt tag a) s
      = .next (send tag .good none [] (s.reporting { code := 15#8, args := a } .refusedState)) :=
  exec_refused rfl r (show (15#8).toNat ≠ 0 by decide) (show (15#8).toNat < 16 by decide) hv _
    ((takeByCode_clearHalt a _).trans (takeClearHalt_refused (s := s.holding _) h))

/-! ## States in which the mover rests (R48) -/

theorem mayMove_eq_false {s : State} (hr : s.ctl.state ≠ .running) (ht : s.ctl.state ≠ .settling) :
    s.mayMove = false := by
  simp [State.mayMove, hr, ht]

theorem ruleBegin_eq_none_of_not_mayMove {s : State} (h : s.mayMove = false) : ruleBegin s = none := by
  simp [ruleBegin, h]

theorem ruleBegin_eq_none_at_rest {s : State} (h : s.ctl.state = .suspended ∨ s.ctl.state = .paused) :
    ruleBegin s = none := by
  apply ruleBegin_eq_none_of_not_mayMove
  obtain h | h := h <;> exact mayMove_eq_false (by simp [h]) (by simp [h])

/-- Settles O29: the command's two cases, by whether the engine stands in a halt for a lost member; in the first the saved
state says what the engine control becomes; and the mover has leave to begin a step in RUNNING and SETTLING alone. -/
theorem clearHaltLeavesHalt : Obligations.ClearHaltLeavesHalt := by
  unfold Obligations.ClearHaltLeavesHalt
  refine fun s tag a r hv => ⟨fun hs hc => ⟨fun e hsaved he => ?moving, fun ⟨hr, ht⟩ => ?resting⟩,
    exec_clearHalt_refused a r hv, fun u => ruleBegin_eq_none_at_rest⟩
  case moving => rw [exec_clearHalt_of_memberLost a r hv hs hc, clearedHalt_of_moving hsaved he]
  case resting => rw [exec_clearHalt_of_memberLost a r hv hs hc, clearedHalt_of_not_moving hr ht]

end Sys2Proof.Machine
end

