-- ==== Sys2Proof/Proofs/Attention.lean ====
section
/-! PROOFS. The attention mask (R199): what SET-ATTENTION makes of it, what it decides in a completion's marker (R41), what does
not look at it, and that both resets keep it (R202). -/

namespace Sys2Proof.Machine

/-! ## The marker (R41, R199) -/

/-- Bit `i` of the number a list of flags makes, bit 0 first, is the list's flag `i`. -/
theorem testBit_foldr_flags (l : List Bool) (i : Nat) :
    (l.foldr (fun (b : Bool) n => 2 * n + (if b then 1 else 0)) 0).testBit i = l.getD i false := by
  induction l generalizing i with
  | nil => simp
  | cons b l ih =>
    cases i with
    | zero => cases b <;> simp
    | succ i => cases b <;> simp [Nat.testBit_succ, ih, Nat.mul_add_div]

theorem Events.getD_toList_index (f : Events) (e : Event) : f.toList.getD e.index false = f.has e := by
  cases e <;> rfl

theorem Event.index_lt (e : Event) : e.index < 12 := by cases e <;> decide

/-- Each of the twelve bits is some event's (11.2). -/
theorem Event.exists_index_eq {i : Nat} (h : i < 12) : ∃ e : Event, e.index = i := by
  have named : ∀ j : Fin 12, ∃ e ∈ [Event.memberLost, .shelfChange, .planDone, .chainEnd, .engineSuspended,
      .engineHalted, .dataError, .dataLost, .remapAdded, .directiveOverwritten, .capacityChanged, .recoveryDone],
      e.index = j := by decide
  obtain ⟨e, -, he⟩ := named ⟨i, h⟩
  exact ⟨e, he⟩

theorem Events.getLsbD_bits_index (f : Events) (e : Event) : f.bits.getLsbD e.index = f.has e := by
  unfold Events.bits
  rw [BitVec.getLsbD_ofNat, testBit_foldr_flags, f.getD_toList_index, decide_eq_true e.index_lt, Bool.true_and]

/-- A common bit of flags and mask is an event's, since each of the twelve is. -/
theorem marker_iff (s : State) :
    marker s = true ↔ ∃ e, s.win.events.has e = true ∧ s.win.mask.getLsbD e.index = true := by
  have common (e : Event) : (s.win.events.bits &&& s.win.mask).getLsbD e.index
      = (s.win.events.has e && s.win.mask.getLsbD e.index) := by
    rw [BitVec.getLsbD_and, Events.getLsbD_bits_index]
  constructor
  · intro hm
    by_contra hnone
    have clear : s.win.events.bits &&& s.win.mask = 0#12 := by
      refine BitVec.eq_of_getLsbD_eq fun i hi => ?_
      obtain ⟨e, rfl⟩ := Event.exists_index_eq hi
      rw [common, BitVec.getLsbD_zero, Bool.eq_false_iff]
      exact fun hb => hnone ⟨e, by simpa using hb⟩
    simp [marker, clear] at hm
  · rintro ⟨e, hflag, hbit⟩
    have hset := common e
    rw [hflag, hbit] at hset
    refine bne_iff_ne.mpr fun hzero => ?_
    simp [hzero] at hset

/-! ## The events page (R200) -/

theorem eventsPage_flags (s : State) : fieldAt s.eventsPage 0 2 = s.win.events.bits.toNat := by
  unfold State.eventsPage
  have fits : s.win.events.bits.toNat < 65536 := s.win.events.bits.isLt.trans (by decide)
  rw [fieldAt_buildRecord]
  simp [fieldAt_putField_apart, fieldAt_putField_same, Nat.mod_eq_of_lt fits]

/-! ## SET-ATTENTION and CLEAR-EVENTS -/

/-- Code 0x0B goes to the owner of SET-ATTENTION, which replaces the mask and is DONE (R194, R199). -/
theorem takeByCode_setAttention (a : DirectiveArgs) (s : State) :
    takeByCode { code := 11#8, args := a } s
      = ({ s with win := { s.win with mask := BitVec.ofNat 12 a.eventMask.toNat } }, some .done) := by
  rw [BitVec.ofNat_toNat]
  rfl

/-- The finish of a directive does not look at the mask (R192, R193). -/
theorem finishDirective_withMask (o : DirOutcome) (m : BitVec 12) (s : State) :
    finishDirective o { s with win := { s.win with mask := m } }
      = { finishDirective o s with win := { (finishDirective o s).win with mask := m } } := by
  unfold finishDirective
  cases s.win.current <;> rfl

/-- Nothing follows from a settled state's mask having been replaced under a directive that reports. -/
theorem reporting_withMask_settled {s : State} (h : s.Settled) (d : Directive) (o : DirOutcome) (m : BitVec 12) :
    firstRule rules { s.reporting d o with win := { (s.reporting d o).win with mask := m } } = none :=
  settled_aside (s := s) (p := s.pending) (o := s.out) (a := s.port.nextArrival + 1)
    (w := { (s.reporting d o).win with mask := m }) (k := s.integ.capture) (n := s.integ.counts) h (Or.inl rfl)

theorem exec_setAttention {s : State} {tag : Tag} (a : DirectiveArgs) (r : s.Ready tag)
    (hv : s.ctl.volume ≠ .assembling) :
    exec (.setAttention tag a) s = .next (send tag .good none []
      { s.reporting { code := 11#8, args := a } .done with
        win := { (s.reporting { code := 11#8, args := a } .done).win with
          mask := BitVec.ofNat 12 a.eventMask.toNat } }) := by
  rw [exec_owner rfl r (show (11#8).toNat ≠ 0 by decide) (show (11#8).toNat < 16 by decide) hv,
    takeByCode_setAttention]
  dsimp only
  rw [finishDirective_withMask, finish_holding _ _ r.waiting]
  exact congrArg Host.Outcome.next (afterDirective_settled tag (reporting_withMask_settled r.settled _ _ _) rfl)

/-- CLEAR-EVENTS does not look at the mask, whether or not it copies the presence references (R125, R198, R199). -/
theorem takeClearEvents_withMask (a : DirectiveArgs) (m : BitVec 12) (s : State) :
    (takeClearEvents a { s with win := { s.win with mask := m } }).1.win
      = { (takeClearEvents a s).1.win with mask := m } := by
  unfold takeClearEvents takeReferences
  cases a.eventMask.getLsbD 1 <;> rfl

/-! ## Power-on and RESTART (R199, R202) -/

theorem getLsbD_resetMask {i : Nat} (h : i < 12) : State.reset.win.mask.getLsbD i = true :=
  (show ∀ j : Fin 12, State.reset.win.mask.getLsbD j = true by decide) ⟨i, h⟩

theorem Keeps.mask {s t : State} (h : Keeps s t) : t.win.mask = s.win.mask := h.holds.mask

theorem exec_powerOn_mask (s : State) : ∃ t, exec .powerOn s = .next t ∧ t.win.mask = State.reset.win.mask :=
  ⟨_, rfl, (settle_quiet (s := powerOn s) rfl).mask⟩

theorem afterDirective_quiet {u : State} (tag : Tag) (h : u.win.current = none) : Keeps u (afterDirective tag u) := by
  have sent := send_keeps tag .good none [] (settleFor_quiet (settleBound - 1) h)
  exact sent.trans (settle_quiet (sent.current h))

/-- What RESTART does below the window unit leaves an empty slot empty. -/
theorem restartBlocks_current {s : State} (c : StartCause) (h : s.win.current = none) :
    (restartBlocks c (abortRequests s)).win.current = none :=
  (restartBlocks_keeps c (abortRequests_keeps (Keeps.refl s))).current h

theorem restartTaken_current (d : Directive) (s : State) : (restartTaken d s).win.current = none :=
  restartBlocks_current _ rfl

/-- Code 0x10 is taken as RESTART whatever the volume state (R192, R202). -/
theorem takeDirective_restart (a : DirectiveArgs) (s : State) :
    takeDirective { code := 16#8, args := a } (s.holding { code := 16#8, args := a })
      = restartTaken { code := 16#8, args := a } (s.holding { code := 16#8, args := a }) := by
  unfold takeDirective
  dsimp only
  rw [if_neg (by decide), if_pos (by decide)]
  rfl

theorem exec_restart {s : State} {tag : Tag} (a : DirectiveArgs) (r : s.Ready tag) :
    exec (.restart tag a) s = .next (afterDirective tag
      (restartTaken { code := 16#8, args := a } (s.holding { code := 16#8, args := a }))) := by
  rw [exec_ready rfl r, takeDirective_restart]

theorem exec_restart_mask {s : State} {tag : Tag} (a : DirectiveArgs) (r : s.Ready tag) :
    ∃ t, exec (.restart tag a) s = .next t ∧ t.win.mask = s.win.mask :=
  ⟨_, exec_restart a r, calc
    _ = (restartTaken { code := 16#8, args := a } (s.holding { code := 16#8, args := a })).win.mask :=
      (afterDirective_quiet tag (restartTaken_current _ _)).mask
    _ = (s.holding { code := 16#8, args := a }).win.mask := (restartTaken_holds _ (Holds.refl _)).mask⟩

/-! ## A slot from which no directive is taken any more

A volume link reset drops the waiting directive and keeps the current one, a KEEP-REMAPS whose label write may still complete
(R155, R202). So what follows may finish a directive, but can take none. -/

/-- No directive is to be taken: not the current one, and none when it finishes. -/
structure WindowUnit.Spent (w : WindowUnit) : Prop where
  current : w.current = none ∨ w.taken = true
  waiting : w.waiting = none

theorem Keeps.spent {s t : State} (h : Keeps s t) (hs : s.win.Spent) : t.win.Spent := by
  rw [h.window]
  exact ⟨hs.current, hs.waiting⟩

theorem finishDirective_spent {s : State} (o : DirOutcome) (h : s.win.Spent) : (finishDirective o s).win.Spent := by
  unfold finishDirective
  split
  · exact h
  · exact ⟨.inl h.waiting, rfl⟩

/-- What a completed label write serves is no more than `Keeps` allows, but for the finish of KEEP-REMAPS (R82, R155). -/
theorem serveCauses_cases (f : Flight) (s : State) :
    ∃ u, Keeps s u ∧ (Keeps u (serveCauses f s) ∨ Keeps (finishDirective .done u) (serveCauses f s)) := by
  have told : ∀ {v : State} (ws : List PlanWrite) (p), Keeps s v →
      Keeps s (ws.foldl (fun s w => tellPlan f.generation w s) (retireMarked f (releaseHolds p v))) :=
    fun ws p hv => foldl_keeps _ (fun _ w hu => tellPlan_keeps _ w hu) ws _ (retireMarked_keeps f (releaseHolds_keeps p hv))
  have marked : ∀ mark, Keeps s { s with mark } := fun _ => keeps_mk.mpr ((Keeps.refl s).parts rfl rfl)
  unfold serveCauses
  dsimp only
  split
  · exact ⟨_, told _ _ (marked _), .inr (wakeRows_keeps (Keeps.refl _))⟩
  · exact ⟨_, told _ _ (marked _), .inl (wakeRows_keeps (Keeps.refl _))⟩

theorem ruleLabelDone_spent {s t : State} (h : s.win.Spent) (e : ruleLabelDone s = some t) : t.win.Spent := by
  unfold ruleLabelDone at e
  split at e
  · cases e
  · rename_i f _
    split at e
    · obtain rfl := Option.some.inj e
      have adopted : Keeps s (adoptLabel f s) := adoptLabel_keeps f (Keeps.refl s)
      split
      · exact (serveAssembly_keeps adopted).spent h
      · obtain ⟨u, hu, served | served⟩ := serveCauses_cases f (adoptLabel f s)
        · exact served.spent ((adopted.trans hu).spent h)
        · exact served.spent (finishDirective_spent _ ((adopted.trans hu).spent h))
    · cases e

/-- Of all rules two reach the window unit beyond its flags: the taking of a directive, and a label write's completion, which
finishes a KEEP-REMAPS (R155, R192). -/
theorem rules_keeps : ∀ r ∈ rules, r = ruleTake ∨ r = ruleLabelDone ∨ ∀ s t, r s = some t → Keeps s t := by
  have keeps : ∀ r : State → Option State, (∀ {s0 s t : State}, Keeps s0 s → r s = some t → Keeps s0 t) →
      r = ruleTake ∨ r = ruleLabelDone ∨ ∀ s t, r s = some t → Keeps s t :=
    fun r hr => .inr (.inr fun s _ => hr (Keeps.refl s))
  simp only [rules, List.mem_cons, List.not_mem_nil, or_false, forall_eq_or_imp, forall_eq]
  exact ⟨keeps _ ruleTodo_keeps, keeps _ ruleBand_keeps, .inl trivial, keeps _ ruleGrant_keeps, keeps _ ruleQueued_keeps,
    .inr (.inl trivial), keeps _ rulePlaced_keeps, keeps _ ruleRecordDone_keeps, keeps _ ruleInstalled_keeps,
    keeps _ ruleRest_keeps, keeps _ ruleLostPaused_keeps, keeps _ ruleDrop_keeps, keeps _ ruleClosing_keeps,
    keeps _ rulePlanEnd_keeps, keeps _ ruleWaiting_keeps, keeps _ ruleFetch_keeps, keeps _ ruleRecopy_keeps,
    keeps _ ruleFreeze_keeps, keeps _ ruleDecide_keeps, keeps _ ruleSpill_keeps, keeps _ ruleSpillRecord_keeps,
    keeps _ rulePlace_keeps, keeps _ ruleLabel_keeps, keeps _ ruleFreeSlot_keeps, keeps _ ruleBegin_keeps,
    keeps _ ruleRecord_keeps, keeps _ ruleArea_keeps, keeps _ ruleFlush_keeps, keeps _ ruleDrained_keeps,
    keeps _ ruleScan_keeps, keeps _ ruleChoice_keeps, keeps _ ruleLoading_keeps, keeps _ ruleRecords_keeps,
    keeps _ ruleColumns_keeps, keeps _ ruleRestored_keeps, keeps _ ruleAssemblyEnd_keeps, keeps _ ruleSuspend_keeps⟩

theorem rule_holds_of_spent {r : State → Option State} {s t : State} (hr : r ∈ rules) (h : s.win.Spent) (e : r s = some t) :
    Holds s t ∧ t.win.Spent := by
  obtain rfl | rfl | hk := rules_keeps r hr
  · rw [ruleTake_none h.current] at e
    cases e
  · exact ⟨ruleLabelDone_holds (Holds.refl s) e, ruleLabelDone_spent h e⟩
  · exact ⟨(hk s t e).holds, (hk s t e).spent h⟩

theorem exists_rule_of_firstRule {s t : State} : ∀ {rs : List (State → Option State)}, firstRule rs s = some t →
    ∃ r ∈ rs, r s = some t
  | [], e => by cases e
  | r :: rs, e => by
    unfold firstRule at e
    split at e
    · exact ⟨r, List.mem_cons_self, by simp_all⟩
    · obtain ⟨q, hq, hs⟩ := exists_rule_of_firstRule e
      exact ⟨q, List.mem_cons_of_mem r hq, hs⟩

theorem settleFor_holds_of_spent (n : Nat) : ∀ {s : State}, s.win.Spent → Holds s (settleFor n s) := by
  induction n with
  | zero => exact fun _ => Holds.refl _
  | succ n ih =>
    intro s h
    cases hf : firstRule rules s with
    | none => simpa only [settleFor, hf] using Holds.refl s
    | some t =>
      obtain ⟨r, hr, ht⟩ := exists_rule_of_firstRule hf
      obtain ⟨held, spent⟩ := rule_holds_of_spent hr h ht
      rw [settleFor_step hf]
      exact held.trans (ih spent)

/-! ## The volume link reset (R199, R202) -/

/-- In a settled state the taking of a directive has nothing to do. -/
theorem State.Settled.current {s : State} (h : s.Settled) : s.win.current = none ∨ s.win.taken = true :=
  ruleTake_eq_none.mp (firstRule_eq_none.mp h _ (by simp [rules]))

/-- Taken as RESTART it empties the slot; otherwise the current directive stays, taken as it was. -/
theorem linkReset_spent {s : State} (h : s.Settled) : (linkReset s).win.Spent := by
  have dropped : (dropRequests s).win = { s.win with events := (dropRequests s).win.events } :=
    (dropRequests_keeps (Keeps.refl s)).window
  unfold linkReset
  dsimp only
  split
  · exact (restartBlocks_keeps _ (abortRequests_keeps (Keeps.refl _))).spent ⟨.inl rfl, rfl⟩
  · have taken := h.current
    rw [dropped]
    exact ⟨taken, rfl⟩

theorem exec_volumeLinkReset_mask {s : State} (h : s.Settled) :
    ∃ t, exec .volumeLinkReset s = .next t ∧ t.win.mask = s.win.mask :=
  ⟨_, rfl, ((linkReset_holds (Holds.refl s)).trans (settleFor_holds_of_spent settleBound (linkReset_spent h))).mask⟩

/-- Settles O27: SET-ATTENTION's owner writes the mask and nothing follows from that, the marker is the common bit of flags and
mask, and after a reset nothing can take a directive that would write the mask again. -/
theorem attentionMask : Obligations.AttentionMask := by
  unfold Obligations.AttentionMask
  refine ⟨fun _ _ a r hv => exec_setAttention a r hv, fun s _ _ _ _ => ⟨marker s, rfl, marker_iff s⟩, fun _ _ _ => rfl,
    fun s m a => takeClearEvents_withMask a m s, fun _ => getLsbD_resetMask, fun s => ?power,
    fun _ _ a r => exec_restart_mask a r, fun _ => exec_volumeLinkReset_mask, eventsPage_flags⟩
  case power =>
    obtain ⟨t, ht, hmask⟩ := exec_powerOn_mask s
    exact ⟨t, ht, fun _ hi => hmask ▸ getLsbD_resetMask hi⟩

end Sys2Proof.Machine
end

