-- ==== Sys2Proof/Proofs/Machine.lean ====
section
/-! PROOFS. The machine: one step, the commands as a whole, the two invariants, and power-on (95, R25, R157, R196, R202). -/

namespace Sys2Proof.Machine

/-! ## Steps -/

theorem step_cons {s : State} {c : Instr} {rest : List Instr} (h : s.pending = c :: rest) :
    step s = exec c (s.withQueue rest) := by
  unfold step
  rw [h]

theorem step_nil {s : State} (h : s.pending = []) : step s = .next s := by
  unfold step
  rw [h]

/-- What every command keeps, every step keeps, when it does not look at the queue. -/
theorem step_induction {P : State → Prop} (queue : ∀ s q, P s → P (s.withQueue q))
    (command : ∀ c s t, P s → exec c s = .next t → P t) {s t : State} (h : P s) (e : step s = .next t) : P t := by
  cases hp : s.pending with
  | nil =>
    rw [step_nil hp] at e
    cases e
    exact h
  | cons c rest =>
    rw [step_cons hp] at e
    exact command c _ t (queue s rest h) e

/-- Settles O1: `step` looks at nothing but the front of the queue. -/
theorem stepRunsCommands : Obligations.StepRunsCommands :=
  ⟨fun _ _ _ h => step_cons h, fun _ h => step_nil h⟩

/-! ## What a command does before what follows from it -/

/-- The change a command makes itself, before what follows at its event (95). -/
inductive Onset (c : Instr) (s : State) : State → Prop
  | power (h : c = .powerOn) : Onset c s (powerOn s)
  | linkReset (h : c = .volumeLinkReset) : Onset c s (linkReset s)
  | read (tag : Tag) (lba count : Nat) : Onset c s (readArrival tag lba count s)
  | write (tag : Tag) (lba : Nat) (bs : List Block)
      (h : c.wellFormed = true → lba = Config.windowBase → c = .writeRequest tag lba bs) : Onset c s (writeArrival tag lba bs s)
  | flush (tag : Tag) : Onset c s (flushArrival tag s)
  | directive (tag : Tag) (d : Directive) (h : carried c = some (tag, d)) : Onset c s (directiveArrival tag d s)
  | arrival (i : Slot) : Onset c s (arrival i s)
  | departure (i : Slot) : Onset c s (depart i s)
  | linkDown (p : Port) : Onset c s (linkDownAt p s)
  | linkUp (p : Port) (bays : List (Fin 16)) : Onset c s (linkUpAt p bays s)
  | timeout (r : OpRef) : Onset c s (expire r s)
  | answer (k : OwnerClass) (r : OpRef) (res : OpResult) : Onset c s (takeAnswer k r res s)
  | flushAnswer (r : OpRef) (res : OpResult) : Onset c s (takeFlushAnswer r res s)
  | drained (r : OpRef) : Onset c s (takeDrained r s)

/-- Every command is its own change and then everything that follows from it (log entry 5). -/
theorem exec_onset (c : Instr) (s : State) : ∃ t, Onset c s t ∧ exec c s = .next (settle t) := by
  cases hc : carried c with
  | some p => exact ⟨_, .directive p.1 p.2 hc, exec_carried hc⟩
  | none =>
    cases c with
    | powerOn => exact ⟨_, .power rfl, rfl⟩
    | volumeLinkReset => exact ⟨_, .linkReset rfl, rfl⟩
    | readRequest tag lba count => exact ⟨_, .read tag lba count, rfl⟩
    | writeRequest tag lba bs => exact ⟨_, .write tag lba bs (fun _ _ => rfl), rfl⟩
    | planPageWrite tag i bs => exact ⟨_, .write tag (Config.windowBase + 64 + i) bs (fun _ h => by omega), rfl⟩
    | windowWriteRefused tag i bs =>
      refine ⟨_, .write tag (Config.windowBase + i) bs (fun hw h => ?_), rfl⟩
      simp only [Instr.wellFormed, Bool.and_eq_true, decide_eq_true_eq] at hw
      omega
    | flushRequest tag => exact ⟨_, .flush tag, rfl⟩
    | bayArrival i => exact ⟨_, .arrival i, rfl⟩
    | bayDeparture i => exact ⟨_, .departure i, rfl⟩
    | linkDown p => exact ⟨_, .linkDown p, rfl⟩
    | linkUp p bays => exact ⟨_, .linkUp p bays, rfl⟩
    | memberOpTimeout r => exact ⟨_, .timeout r, rfl⟩
    | memberFlushEnd r a => exact ⟨_, .flushAnswer r _, rfl⟩
    | drainedOperationEnd r => exact ⟨_, .drained r, rfl⟩
    | hostReadMemberEnd r a | hostWriteMemberReadEnd r a | hostWriteMemberWriteEnd r a | gatherReadEnd r a
    | spillColumnWriteEnd r a | spillRecordWriteEnd r a | placeWriteEnd r a | labelMemberWriteEnd r a
    | planTableCopyEnd r a | planAreaWriteEnd r a | releasedLabelWriteEnd r a | inquireEnd r a | labelReadEnd r a
    | planAreaReadEnd r a | spillRecordReadEnd r a | spillColumnReadEnd r a | restorePlaceWriteEnd r a
    | assemblyLabelWriteEnd r a | writeBackEnd r a | fillReadEnd r a | spareSlotWriteEnd r a =>
      exact ⟨_, .answer _ r _, rfl⟩
    | _ => cases hc

/-! ## Power-on (R157, R173, R202) -/

/-- Every rule looks for work, and after power-on there is none: assembly waits for the four links (R174). -/
theorem powerOn_settled (s : State) : (powerOn s).Settled := by
  refine firstRule_eq_none.mpr ?_
  simp only [rules, List.mem_cons, List.not_mem_nil, or_false, forall_eq_or_imp, forall_eq]
  refine ⟨rfl, rfl, rfl, rfl, rfl, rfl, rfl, rfl, rfl, rfl, rfl, rfl, rfl, rfl, rfl, rfl, rfl, rfl, rfl, rfl, rfl, rfl, rfl,
   rfl, rfl, rfl, rfl, rfl, rfl, rfl, rfl, rfl, rfl, rfl, rfl, rfl, rfl⟩

theorem exec_powerOn (s : State) : exec .powerOn s = .next (powerOn s) :=
  congrArg Host.Outcome.next (settle_of_settled (powerOn_settled s))

theorem reset_sound : State.reset.Sound where
  tuning := by unfold Tuning.Legal; decide
  entries := Nat.zero_le _
  tags := List.nodup_nil
  numbers := List.nodup_nil
  arrivals := fun _ h => nomatch h
  locks := Nat.zero_le _
  overwrites := Nat.zero_le _

/-- A power-on bay; so every bay is at power-on, whatever the slot. -/
theorem reset_bay (i : Slot) : State.reset.bay i = State.resetBay := by
  simp [State.bay, State.reset]

theorem reset_fit : State.reset.Fit where
  bays i := by
    rw [reset_bay]
    exact ⟨Nat.zero_le _, Nat.zero_le _, Nat.zero_le _, Nat.zero_le _, Nat.zero_le _, le_rfl⟩
  counts := ⟨Nat.zero_le _, Nat.zero_le _, Nat.zero_le _, Nat.zero_le _, Nat.zero_le _, Nat.zero_le _⟩
  ctl := LatchLaw.going going_idle (fun _ h => nomatch h) (fun _ h => nomatch h)

theorem reset_events (e : Event) : State.reset.win.events.has e = false := by cases e <;> rfl

/-- Settles O6: nothing follows from power-on, so its values are the ones written. -/
theorem resetState : Obligations.ResetState := by
  unfold Obligations.ResetState
  refine ⟨exec_powerOn, ⟨rfl, rfl, reset_events, rfl, rfl, rfl, rfl, rfl, rfl, rfl, rfl,
    fun r h => List.eq_of_mem_replicate h, rfl, rfl, rfl, rfl, rfl, fun i => ?bay, rfl, rfl, rfl, rfl, rfl, rfl, rfl, rfl,
    rfl⟩, reset_sound, reset_fit, rfl⟩
  case bay =>
    rw [reset_bay]
    exact ⟨rfl, rfl, rfl, rfl⟩

/-! ## What commands do to the request table (R21, R22, R25) -/

theorem mem_of_key_sublist {es fs : List Entry} (h : (es.map Entry.key).Sublist (fs.map Entry.key)) {e : Entry}
    (he : e ∈ es) : ∃ f ∈ fs, f.tag = e.tag ∧ f.arrival = e.arrival := by
  obtain ⟨f, hf, hk⟩ := List.mem_map.mp (h.subset (List.mem_map_of_mem he))
  exact ⟨f, hf, congrArg Prod.fst hk, congrArg Prod.snd hk⟩

/-- An entry after a command was there before, or has taken the next arrival number. -/
theorem Grows.origin {s t : State} (g : Grows s t) {e : Entry} (he : e ∈ t.port.entries) :
    (∃ f ∈ s.port.entries, f.tag = e.tag ∧ f.arrival = e.arrival)
      ∨ (e.arrival = s.port.nextArrival ∧ s.port.nextArrival < t.port.nextArrival) := by
  obtain old | ⟨tag, -, -, rise, new⟩ := g.entries
  · exact .inl (mem_of_key_sublist old he)
  · obtain hk | hk := List.mem_append.mp (new.subset (List.mem_map_of_mem he))
    · obtain ⟨f, hf, hfe⟩ := List.mem_map.mp hk
      exact .inl ⟨f, hf, congrArg Prod.fst hfe, congrArg Prod.snd hfe⟩
    · exact .inr ⟨congrArg Prod.snd (List.mem_singleton.mp hk), rise⟩

/-- Settles O2: by the relation `Grows` of every command but power-on, which goes on with queue, completions and operation
number. -/
theorem commandsComplete : Obligations.CommandsComplete := by
  unfold Obligations.CommandsComplete
  refine ⟨fun c s => ?_, fun c s hc => ?_⟩
  · by_cases hc : c = .powerOn
    · subst hc
      exact ⟨powerOn s, exec_powerOn s, rfl, List.prefix_rfl, le_rfl⟩
    · obtain ⟨t, ht, g⟩ := exec_grows c s hc
      exact ⟨t, ht, g.pending, g.out, g.ops⟩
  · obtain ⟨t, ht, g⟩ := exec_grows c s hc
    exact ⟨t, ht, g.arrival, fun _ he => g.origin he⟩

/-! ## The two invariants -/

/-- The tags and numbers of a table are those of its entries' keys. -/
theorem map_tag (es : List Entry) : es.map (·.tag) = (es.map Entry.key).map Prod.fst := by simp [Entry.key]

theorem map_arrival (es : List Entry) : es.map (·.arrival) = (es.map Entry.key).map Prod.snd := by simp [Entry.key]

/-- A table with one more key, its tag and its number new, has different tags and different numbers too. -/
theorem keys_append_nodup {s : State} {tag : Tag} (h : s.Sound) (fresh : s.tagUsed tag = false) :
    ((s.port.entries.map Entry.key ++ [(tag, s.port.nextArrival)]).map Prod.fst).Nodup
      ∧ ((s.port.entries.map Entry.key ++ [(tag, s.port.nextArrival)]).map Prod.snd).Nodup := by
  have unused : ∀ e ∈ s.port.entries, e.tag ≠ tag := by simpa [State.tagUsed] using fresh
  have below : ∀ e ∈ s.port.entries, e.arrival ≠ s.port.nextArrival := fun e he => (h.arrivals e he).ne
  rw [List.map_append, List.map_append, ← map_tag, ← map_arrival]
  exact ⟨h.tags.append (List.nodup_singleton _) (by simpa [List.Disjoint] using unused),
    h.numbers.append (List.nodup_singleton _) (by simpa [List.Disjoint] using below)⟩

theorem Grows.sound {s t : State} (g : Grows s t) (h : s.Sound) : t.Sound where
  tuning := g.tuning h.tuning
  entries := by
    obtain old | ⟨_, room, -, -, new⟩ := g.entries
    · exact le_trans (by simpa using old.length_le) h.entries
    · have hlen := new.length_le
      simp only [State.busy, Bool.or_eq_false_iff, decide_eq_false_iff_not, not_le] at room
      simp only [List.length_append, List.length_map, List.length_singleton] at hlen
      omega
  tags := by
    rw [map_tag]
    obtain old | ⟨tag, -, fresh, -, new⟩ := g.entries
    · exact (old.map Prod.fst).nodup (map_tag _ ▸ h.tags)
    · exact (new.map Prod.fst).nodup (keys_append_nodup h fresh).1
  numbers := by
    rw [map_arrival]
    obtain old | ⟨tag, -, fresh, -, new⟩ := g.entries
    · exact (old.map Prod.snd).nodup (map_arrival _ ▸ h.numbers)
    · exact (new.map Prod.snd).nodup (keys_append_nodup h fresh).2
  arrivals := by
    intro e he
    obtain ⟨f, hf, -, hfe⟩ | ⟨hnew, hlt⟩ := g.origin he
    · exact hfe ▸ (h.arrivals f hf).trans_le g.arrival
    · exact hnew ▸ hlt
  locks := g.locks.trans (max_le le_rfl h.locks)
  overwrites := g.lost.trans (max_le le_rfl h.overwrites)

theorem powerOn_sound (s : State) : (powerOn s).Sound :=
  ⟨reset_sound.tuning, reset_sound.entries, reset_sound.tags, reset_sound.numbers, reset_sound.arrivals, reset_sound.locks,
    reset_sound.overwrites⟩

theorem exec_sound {c : Instr} {s t : State} (h : s.Sound) (e : exec c s = .next t) : t.Sound := by
  by_cases hc : c = .powerOn
  · subst hc
    rw [exec_powerOn] at e
    cases e
    exact powerOn_sound s
  · obtain ⟨u, hu, g⟩ := exec_grows c s hc
    rw [hu] at e
    cases e
    exact g.sound h

/-- Settles O3: every command but power-on grows the state, and a grown sound state is sound. -/
theorem stepKeepsSound : Obligations.StepKeepsSound := fun _ _ h e =>
  step_induction (P := State.Sound)
    (fun _ _ h => ⟨h.tuning, h.entries, h.tags, h.numbers, h.arrivals, h.locks, h.overwrites⟩)
    (fun _ _ _ => exec_sound) h e

theorem powerOn_fit (s : State) : (powerOn s).Fit := ⟨reset_fit.bays, reset_fit.counts, reset_fit.ctl⟩

theorem Onset.fit {c : Instr} {s t : State} (o : Onset c s t) (h : s.Fit) : t.Fit := by
  cases o with
  | power => exact powerOn_fit s
  | linkReset => exact linkReset_fit h
  | read tag lba count => exact readArrival_fit tag lba count h
  | write tag lba bs => exact writeArrival_fit tag lba bs h
  | flush tag => exact flushArrival_fit tag h
  | directive tag d => exact directiveArrival_fit tag d h
  | arrival i => exact arrival_fit i h
  | departure i => exact depart_fit i h
  | linkDown p => exact linkDownAt_fit p h
  | linkUp p bays => exact linkUpAt_fit p bays h
  | timeout r => exact expire_fit r h
  | answer k r res => exact takeAnswer_fit k r res h
  | flushAnswer r res => exact takeFlushAnswer_fit r res h
  | drained r => exact takeDrained_fit r h

/-- Settles O4: a command's own change keeps the bounds and the latch law, and so does what follows. -/
theorem stepKeepsFit : Obligations.StepKeepsFit := fun _ _ h e =>
  step_induction (P := State.Fit) (fun _ _ h => ⟨h.bays, h.counts, h.ctl⟩)
    (fun c s t h e => by
      obtain ⟨u, hu, hx⟩ := exec_onset c s
      rw [hx] at e
      cases e
      exact settle_fit (hu.fit h)) h e

/-! ## The window unit under the other commands (R193, R195 to R199) -/

/-- What a command that carries no directive leaves of the window unit and the tuning values. -/
structure WindowKept (s t : State) : Prop where
  window : t.win = { s.win with events := t.win.events }
  tuning : t.ctl.tuning = s.ctl.tuning
  events : ∀ e, s.win.events.has e = true → t.win.events.has e = true

theorem Keeps.windowKept {s t : State} (h : Keeps s t) : WindowKept s t := ⟨h.window, h.tuning, h.events⟩

theorem WindowKept.refl (s : State) : WindowKept s s := (Keeps.refl s).windowKept

theorem WindowKept.trans {s t u : State} (h : WindowKept s t) (g : Keeps t u) : WindowKept s u where
  window := by rw [g.window]; dsimp only; rw [h.window]
  tuning := g.tuning.trans h.tuning
  events e he := g.events e (h.events e he)

theorem WindowKept.settle {s t : State} (h : WindowKept s t) (hs : s.win.current = none) : WindowKept s (settle t) :=
  h.trans (settle_quiet (h.window ▸ hs))

theorem acceptPassing_windowKept (s : State) : WindowKept s (acceptPassing s) := ⟨rfl, rfl, fun _ h => h⟩

theorem accept_windowKept (tag : Tag) (k : ReqKind) (lba count : Nat) (bs : List Block) (st : ReqState) (s : State) :
    WindowKept s (accept tag k lba count bs st s) := ⟨rfl, rfl, fun _ h => h⟩

theorem WindowKept.send {s t : State} (h : WindowKept s t) (tag : Tag) (st : Status) (failing : Option Nat) (data : List Block) :
    WindowKept s (send tag st failing data t) := h.trans (send_keeps tag st failing data (Keeps.refl t))

theorem readArrival_windowKept (tag : Tag) (lba count : Nat) (s : State) : WindowKept s (readArrival tag lba count s) := by
  unfold readArrival
  split
  · exact (WindowKept.refl s).send ..
  · split
    · exact (WindowKept.refl s).send ..
    · exact (acceptPassing_windowKept s).send ..
    · split
      · exact (WindowKept.refl s).send ..
      · exact (accept_windowKept ..).trans (enterPath_keeps _ (Keeps.refl _))

theorem flushArrival_windowKept (tag : Tag) (s : State) : WindowKept s (flushArrival tag s) := by
  unfold flushArrival
  split
  · exact (WindowKept.refl s).send ..
  · split
    · exact (WindowKept.refl s).send ..
    · exact accept_windowKept ..

theorem pageArrival_windowKept (tag : Tag) (lba : Nat) (bs : List Block) (s : State) :
    WindowKept s (pageArrival tag lba bs s) := by
  unfold pageArrival
  dsimp only
  split
  · exact ⟨rfl, rfl, fun _ h => h⟩
  · exact (accept_windowKept ..).trans (takePage_keeps _ (Keeps.refl _))

/-- A WRITE that passes checks 1 and 2 and begins at window block +0 is of one block (R22). -/
theorem singleton_of_refusal12 {s : State} {tag : Tag} {lba : Nat} {bs : List Block}
    (h : s.refusal12 tag (bs.length == 0 || 256 < bs.length || (lba == Config.windowBase && 1 < bs.length)) = none)
    (hl : lba = Config.windowBase) : ∃ b, bs = [b] := by
  obtain ⟨-, -, hbad⟩ := refusal12_none h
  simp only [hl, beq_self_eq_true, Bool.true_and, Bool.or_eq_false_iff, beq_eq_false_iff_ne, decide_eq_false_iff_not] at hbad
  exact List.length_eq_one_iff.mp (by omega)

/-- A WRITE leaves the window unit but where it is the one-block write to window block +0. -/
theorem writeArrival_windowKept {tag : Tag} {lba : Nat} {bs : List Block} {s : State}
    (h : lba = Config.windowBase → ∀ b, bs ≠ [b]) : WindowKept s (writeArrival tag lba bs s) := by
  unfold writeArrival
  dsimp only
  split
  · exact (WindowKept.refl s).send ..
  · rename_i passed
    split
    · exact (WindowKept.refl s).send ..
    · exact ((WindowKept.refl s).trans (takeCapture_keeps _ (Keeps.refl s))).send ..
    · unfold windowWrite
      split
      · rename_i hl
        obtain ⟨b, hb⟩ := singleton_of_refusal12 passed (by simpa using hl)
        exact absurd hb (h (by simpa using hl) b)
      · split
        · exact pageArrival_windowKept ..
        · exact (acceptPassing_windowKept s).send ..
    · split
      · exact (WindowKept.refl s).send ..
      · exact (accept_windowKept ..).trans (enterPath_keeps _ (Keeps.refl _))

theorem Onset.windowKept {c : Instr} {s t : State} (o : Onset c s t) (hw : c.wellFormed = true) (hc : carried c = none)
    (hp : c ≠ .powerOn) (hr : c ≠ .volumeLinkReset) (h0 : ∀ tag b, c ≠ .writeRequest tag (2 ^ 40) [b]) :
    WindowKept s t := by
  cases o with
  | power h => exact absurd h hp
  | linkReset h => exact absurd h hr
  | directive tag d h => rw [hc] at h; cases h
  | write tag lba bs h =>
    refine writeArrival_windowKept (fun hl b hb => h0 tag b ?_)
    rw [h hw hl, hl, hb]
    rfl
  | read tag lba count => exact readArrival_windowKept tag lba count s
  | flush tag => exact flushArrival_windowKept tag s
  | arrival i => exact (arrival_keeps i (Keeps.refl s)).windowKept
  | departure i => exact (depart_keeps i (Keeps.refl s)).windowKept
  | linkDown p => exact (linkDownAt_keeps p s).windowKept
  | linkUp p bays => exact (linkUpAt_keeps p bays s).windowKept
  | timeout r => exact (expire_keeps r (Keeps.refl s)).windowKept
  | answer k r res => exact (takeAnswer_keeps k r res (Keeps.refl s)).windowKept
  | flushAnswer r res => exact (takeFlushAnswer_keeps r res (Keeps.refl s)).windowKept
  | drained r => exact (takeDrained_keeps r (Keeps.refl s)).windowKept

/-- Settles O5: the command's own change leaves the window unit but for raised flags, and with no directive current what follows
is `Keeps`. -/
theorem windowUnitKept : Obligations.WindowUnitKept := by
  intro c s hw hc hp hr h0 hs
  obtain ⟨u, hu, hx⟩ := exec_onset c s
  have kept := (hu.windowKept hw hc hp hr h0).settle hs
  exact ⟨_, hx, kept.window, kept.tuning, kept.events⟩

end Sys2Proof.Machine
end

