-- ==== Sys2Proof/Proofs/Requests.lean ====
section
/-! PROOFS. The arrival of requests: refusals, window reads, volume requests and window writes (R20 to R25, R97, R189, R190). -/

namespace Sys2Proof.Machine

/-! ## What settles at once -/

/-- A settled state stays settled under another record of completions, arrival number, capture record and flags. -/
theorem State.Settled.aside {s : State} (h : s.Settled) (o : List Completion) (a : Nat) (ev : Events) (k : Option Capture)
    (n : CaptureCounts) :
    State.Settled { s with
      out := o, port := { s.port with nextArrival := a }, win := { s.win with events := ev }
      integ := { s.integ with capture := k, counts := n } } :=
  settled_aside (s := s) (p := s.pending) (w := { s.win with events := ev }) h h.current

theorem settle_send {s : State} (h : s.Settled) (tag : Tag) (st : Status) (failing : Option Nat) (data : List Block) :
    settle (send tag st failing data s) = send tag st failing data s :=
  settle_of_settled (h.aside _ s.port.nextArrival s.win.events s.integ.capture s.integ.counts)

theorem settle_send_passing {s : State} (h : s.Settled) (tag : Tag) (st : Status) (failing : Option Nat)
    (data : List Block) :
    settle (send tag st failing data (acceptPassing s)) = send tag st failing data (acceptPassing s) :=
  settle_of_settled (h.aside _ (s.port.nextArrival + 1) s.win.events s.integ.capture s.integ.counts)

theorem settle_refuseTag {s : State} (h : s.Settled) (tag : Tag) (lba : Nat) :
    settle (refuseTag tag lba s) = refuseTag tag lba s :=
  settle_of_settled (h.aside _ s.port.nextArrival (s.win.events.set .dataError) _ _)

/-! ## The checks (R22, R141) -/

theorem refusal12_of_busy {s : State} {tag : Tag} {bad : Bool} (h : s.busy = true) : s.refusal12 tag bad = some .busy := by
  simp [State.refusal12, h]

theorem refusal12_of_bad {s : State} {tag : Tag} {bad : Bool} (room : s.busy = false)
    (h : s.tagUsed tag = true ∨ bad = true) : s.refusal12 tag bad = some .invalidField := by
  simp only [State.refusal12, room, Bool.false_eq_true, if_false, Bool.or_eq_true, h, if_true]

theorem refusal12_of_good {s : State} {tag : Tag} {bad : Bool} (room : s.busy = false) (fresh : s.tagUsed tag = false)
    (h : bad = false) : s.refusal12 tag bad = none := by
  simp [State.refusal12, room, fresh, h]

theorem badCount_eq_false {n : Nat} (h1 : 1 ≤ n) (h2 : n ≤ 256) : (n == 0 || decide (256 < n)) = false := by
  simp only [Bool.or_eq_false_iff, beq_eq_false_iff_ne, decide_eq_false_iff_not]
  omega

theorem badWrite_eq_false {lba n : Nat} (h1 : 1 ≤ n) (h2 : n ≤ 256) (h3 : ¬(lba = 2 ^ 40 ∧ 1 < n)) :
    (n == 0 || decide (256 < n) || (lba == Config.windowBase && decide (1 < n))) = false := by
  rw [badCount_eq_false h1 h2, Bool.false_or]
  simpa [Config.windowBase] using h3

theorem access_volume {s : State} {lba n : Nat} (h : lba + n ≤ s.plan.capacity) : s.access lba n = .volume := by
  simp [State.access, h]

theorem mem_window {lba n : Nat} :
    (Config.windowBase ≤ lba && decide (lba + n ≤ Config.windowBase + 128)) = true
      ↔ 2 ^ 40 ≤ lba ∧ lba + n ≤ 2 ^ 40 + 128 := by
  rw [Bool.and_eq_true, decide_eq_true_eq, decide_eq_true_eq]
  rfl

theorem access_window {s : State} {lba n : Nat} (hn : 1 ≤ n) (hc : s.plan.capacity ≤ 2 ^ 40) (h1 : 2 ^ 40 ≤ lba)
    (h2 : lba + n ≤ 2 ^ 40 + 128) : s.access lba n = .window := by
  unfold State.access
  rw [if_neg (by omega), if_pos (mem_window.mpr (by omega))]

theorem access_outside {s : State} {lba n : Nat} (h1 : s.plan.capacity < lba + n)
    (h2 : ¬(2 ^ 40 ≤ lba ∧ lba + n ≤ 2 ^ 40 + 128)) : s.access lba n = .outside := by
  unfold State.access
  rw [if_neg (by omega), if_neg (fun h => h2 (mem_window.mp h))]

theorem access_ne_outside {s : State} {lba n : Nat}
    (h : lba + n ≤ s.plan.capacity ∨ (2 ^ 40 ≤ lba ∧ lba + n ≤ 2 ^ 40 + 128)) : s.access lba n ≠ .outside := by
  unfold State.access
  split
  · simp
  · rw [if_pos (mem_window.mpr (by omega))]
    simp

theorem notReady_of_volume {s : State} (h1 : s.ctl.volume ≠ .online) (h2 : s.ctl.volume ≠ .degraded) : s.notReady = true := by
  unfold State.notReady
  cases hv : s.ctl.volume <;> simp_all

theorem notReady_eq_false {s : State} (h : s.ctl.volume = .online ∨ s.ctl.volume = .degraded) : s.notReady = false := by
  unfold State.notReady
  rcases h with h | h <;> rw [h]

/-- The first block whose tag fails is the one refused (R22, R141). -/
theorem badBlock_eq_some {lba j : Nat} {bs : List Block} (hj : j < bs.length) (bad : hostBlockGood (lba + j) bs[j] = false)
    (good : ∀ (k : Nat) (hk : k < j), hostBlockGood (lba + k) bs[k] = true) : badBlock lba bs = some (lba + j) := by
  have found : (bs.zip (List.range bs.length)).find? (fun x => !hostBlockGood (lba + x.2) x.1) = some (bs[j], j) := by
    rw [List.find?_eq_some_iff_getElem]
    refine ⟨by simp [bad], j, by simpa using hj, by simp, fun k hk => ?_⟩
    simp [good k hk]
  rw [badBlock, found]
  rfl

theorem badBlock_eq_none {lba : Nat} {bs : List Block}
    (good : ∀ (j : Nat) (h : j < bs.length), hostBlockGood (lba + j) bs[j] = true) : badBlock lba bs = none := by
  have none_bad : (bs.zip (List.range bs.length)).find? (fun x => !hostBlockGood (lba + x.2) x.1) = none := by
    rw [List.find?_eq_none]
    intro x hx
    obtain ⟨k, hk, rfl⟩ := List.mem_iff_getElem.mp hx
    rw [List.length_zip, List.length_range, Nat.min_self] at hk
    simp [good k hk]
  rw [badBlock, none_bad]
  rfl

/-! ## The arrival of a READ and a FLUSH (R22, R190) -/

theorem readArrival_refused {s : State} {tag : Tag} {lba n : Nat} {st : Status}
    (h : s.refusal12 tag (n == 0 || 256 < n) = some st) : readArrival tag lba n s = send tag st none [] s := by
  simp only [readArrival, h]

theorem readArrival_outside {s : State} {tag : Tag} {lba n : Nat} (h : s.refusal12 tag (n == 0 || 256 < n) = none)
    (ha : s.access lba n = .outside) : readArrival tag lba n s = send tag .outOfRange none [] s := by
  simp only [readArrival, h, ha]

theorem readArrival_window {s : State} {tag : Tag} {lba n : Nat} (h : s.refusal12 tag (n == 0 || 256 < n) = none)
    (ha : s.access lba n = .window) : readArrival tag lba n s
      = send tag .good none ((runOf (lba - Config.windowBase) n).map s.windowBlock) (acceptPassing s) := by
  simp only [readArrival, h, ha]

theorem readArrival_volume {s : State} {tag : Tag} {lba n : Nat} (h : s.refusal12 tag (n == 0 || 256 < n) = none)
    (ha : s.access lba n = .volume) : readArrival tag lba n s
      = if s.notReady then send tag .notReady none [] s
        else enterPath s.port.nextArrival (accept tag .read lba n [] .locking s) := by
  simp only [readArrival, h, ha]

theorem flushArrival_refused {s : State} {tag : Tag} {st : Status} (h : s.refusal12 tag false = some st) :
    flushArrival tag s = send tag st none [] s := by
  simp only [flushArrival, h]

theorem flushArrival_passed {s : State} {tag : Tag} (h : s.refusal12 tag false = none) :
    flushArrival tag s
      = if s.notReady then send tag .notReady none [] s else accept tag .flush 0 0 [] .flushing s := by
  simp only [flushArrival, h]

/-! ## The arrival of a WRITE (R22, R189) -/

theorem writeArrival_refused {s : State} {tag : Tag} {lba : Nat} {bs : List Block} {st : Status}
    (h : s.refusal12 tag (bs.length == 0 || 256 < bs.length || (lba == Config.windowBase && 1 < bs.length)) = some st) :
    writeArrival tag lba bs s = send tag st none [] s := by
  simp only [writeArrival, h]

theorem writeArrival_outside {s : State} {tag : Tag} {lba : Nat} {bs : List Block}
    (h : s.refusal12 tag (bs.length == 0 || 256 < bs.length || (lba == Config.windowBase && 1 < bs.length)) = none)
    (ha : s.access lba bs.length = .outside) : writeArrival tag lba bs s = send tag .outOfRange none [] s := by
  simp only [writeArrival, h, ha]

theorem writeArrival_badTag {s : State} {tag : Tag} {lba a : Nat} {bs : List Block}
    (h : s.refusal12 tag (bs.length == 0 || 256 < bs.length || (lba == Config.windowBase && 1 < bs.length)) = none)
    (ha : s.access lba bs.length ≠ .outside) (hb : badBlock lba bs = some a) :
    writeArrival tag lba bs s = refuseTag tag a s := by
  simp only [writeArrival, h, hb]

theorem writeArrival_window {s : State} {tag : Tag} {lba : Nat} {bs : List Block}
    (h : s.refusal12 tag (bs.length == 0 || 256 < bs.length || (lba == Config.windowBase && 1 < bs.length)) = none)
    (ha : s.access lba bs.length = .window) (hb : badBlock lba bs = none) :
    writeArrival tag lba bs s = windowWrite tag lba bs s := by
  simp only [writeArrival, h, ha, hb]

theorem writeArrival_volume {s : State} {tag : Tag} {lba : Nat} {bs : List Block}
    (h : s.refusal12 tag (bs.length == 0 || 256 < bs.length || (lba == Config.windowBase && 1 < bs.length)) = none)
    (ha : s.access lba bs.length = .volume) (hb : badBlock lba bs = none) :
    writeArrival tag lba bs s
      = if s.notReady then send tag .notReady none [] s
        else enterPath s.port.nextArrival (accept tag .write lba bs.length bs .locking s) := by
  simp only [writeArrival, h, ha, hb]

/-! ## Refusals -/

theorem exec_readRequest (tag : Tag) (lba n : Nat) (s : State) :
    exec (.readRequest tag lba n) s = .next (settle (readArrival tag lba n s)) := rfl

theorem exec_writeRequest (tag : Tag) (lba : Nat) (bs : List Block) (s : State) :
    exec (.writeRequest tag lba bs) s = .next (settle (writeArrival tag lba bs s)) := rfl

theorem exec_flushRequest (tag : Tag) (s : State) : exec (.flushRequest tag) s = .next (settle (flushArrival tag s)) := rfl

/-- Settles O9: each check's arm of the arrival, and nothing follows from a refusal. -/
theorem requestsRefused : Obligations.RequestsRefused := by
  unfold Obligations.RequestsRefused
  refine ⟨fun s tag lba n hs => ⟨fun hb => ?_, fun hb hbad => ?_, fun hb ht h1 h2 => ⟨fun hc hw => ?_, fun hc v1 v2 => ?_⟩⟩,
    fun s tag lba bs hs => ⟨fun hb => ?_, fun hb hbad => ?_, fun hb ht h1 h2 h3 => ⟨fun hc hw => ?_, fun hin =>
      ⟨fun j hj bad good => ?_, fun good hc v1 v2 => ?_⟩⟩⟩,
    fun s tag hs => ⟨fun hb => ?_, fun hb hbad => ?_, fun hb ht v1 v2 => ?_⟩⟩
  · rw [exec_readRequest, readArrival_refused (refusal12_of_busy hb), settle_send hs]
  · rw [exec_readRequest, readArrival_refused (refusal12_of_bad hb (by simpa using hbad)), settle_send hs]
  · rw [exec_readRequest, readArrival_outside (refusal12_of_good hb ht (badCount_eq_false h1 h2)) (access_outside hc hw),
      settle_send hs]
  · rw [exec_readRequest, readArrival_volume (refusal12_of_good hb ht (badCount_eq_false h1 h2)) (access_volume hc),
      if_pos (notReady_of_volume v1 v2), settle_send hs]
  · rw [exec_writeRequest, writeArrival_refused (refusal12_of_busy hb), settle_send hs]
  · rw [exec_writeRequest, writeArrival_refused (refusal12_of_bad hb ?_), settle_send hs]
    simpa [Config.windowBase, or_assoc] using hbad
  · rw [exec_writeRequest, writeArrival_outside (refusal12_of_good hb ht (badWrite_eq_false h1 h2 h3))
      (access_outside hc hw), settle_send hs]
  · rw [exec_writeRequest, writeArrival_badTag (refusal12_of_good hb ht (badWrite_eq_false h1 h2 h3))
      (access_ne_outside hin) (badBlock_eq_some hj bad good), settle_refuseTag hs]
    rfl
  · rw [exec_writeRequest, writeArrival_volume (refusal12_of_good hb ht (badWrite_eq_false h1 h2 h3)) (access_volume hc)
      (badBlock_eq_none good), if_pos (notReady_of_volume v1 v2), settle_send hs]
  · rw [exec_flushRequest, flushArrival_refused (refusal12_of_busy hb), settle_send hs]
  · rw [exec_flushRequest, flushArrival_refused (refusal12_of_bad hb (.inl hbad)), settle_send hs]
  · rw [exec_flushRequest, flushArrival_passed (refusal12_of_good hb ht rfl), if_pos (notReady_of_volume v1 v2),
      settle_send hs]

/-! ## Volume requests -/

/-- Settles O11: the arm of an accepted volume request is `accept` and `enterPath`. -/
theorem volumeRequestsEnter : Obligations.VolumeRequestsEnter := by
  intro s tag h hv
  have ready := notReady_eq_false hv
  refine ⟨fun lba n h1 h2 hc => ?_, fun lba bs h1 h2 hc hl good => ?_, ?_⟩
  · rw [exec_readRequest, readArrival_volume (refusal12_of_good h.room h.fresh (badCount_eq_false h1 h2)) (access_volume hc),
      if_neg (by simp [ready])]
    rfl
  · rw [exec_writeRequest, writeArrival_volume (refusal12_of_good h.room h.fresh
      (badWrite_eq_false h1 h2 (fun hw => hl.ne hw.1))) (access_volume hc) (badBlock_eq_none good), if_neg (by simp [ready])]
    rfl
  · rw [exec_flushRequest, flushArrival_passed (refusal12_of_good h.room h.fresh rfl), if_neg (by simp [ready])]
    rfl

/-! ## Window writes by their place (R189) -/

/-- Settles O16: at +0 the arrival of a directive; between +1 and +63 the refusal that takes an arrival number. -/
theorem windowWriteByPlace : Obligations.WindowWriteByPlace := by
  refine ⟨fun s tag b c hc good hcap => ?_, fun s tag first bs h h1 h63 hb1 hb2 hcap good => ⟨?_, rfl, fun _ => rfl⟩⟩
  · rw [exec_writeRequest, exec_carried hc]
    have field : (([b] : List Block).length == 0 || decide (256 < ([b] : List Block).length)
        || (2 ^ 40 == Config.windowBase && decide (1 < ([b] : List Block).length))) = false :=
      badWrite_eq_false le_rfl (by simp) (by simp)
    cases hr : s.refusal12 tag false with
    | some st =>
      rw [writeArrival_refused (by rw [field, hr]), directiveArrival, hr]
    | none =>
      have tagGood : badBlock (2 ^ 40) [b] = none := badBlock_eq_none (fun j hj => by
        obtain rfl : j = 0 := by simpa using hj
        exact good)
      rw [writeArrival_window (by rw [field, hr]) (access_window le_rfl hcap le_rfl (by simp)) tagGood,
        directiveArrival, hr]
      rfl
  · have hw : exec (.windowWriteRefused tag first bs) s
        = .next (settle (writeArrival tag (Config.windowBase + first) bs s)) := rfl
    have one : ¬(Config.windowBase + first = 2 ^ 40 ∧ 1 < bs.length) := by
      rw [show Config.windowBase = 2 ^ 40 from rfl]
      omega
    have place : windowWrite tag (Config.windowBase + first) bs s = send tag .invalidField none [] (acceptPassing s) := by
      unfold windowWrite
      rw [if_neg (by simp; omega), if_neg (by omega)]
    rw [hw, writeArrival_window (refusal12_of_good h.room h.fresh
        (badWrite_eq_false hb1 (by omega) one))
      (access_window hb1 hcap (Nat.le_add_right _ _) (Nat.add_assoc (2 ^ 40) _ _ ▸ Nat.add_le_add_left hb2 _))
      (badBlock_eq_none good),
      place, settle_send_passing h.settled]
    rfl

/-! ## Plan page writes (R97, R98, R173) -/

/-- The block that stands for one that is not there, where a list is read at an index. -/
def noBlock : Block := { data := zeroData, guard := 0#16, ref := 0#32, app := 0#16 }

theorem pageRecords_eq (first : Nat) (bs : List Block) :
    pageRecords (Config.windowBase + 64 + first) bs
      = (List.range bs.length).map (fun j => (first + j, pageRecordOf (bs.getD j noBlock).data)) := by
  have place (j : Nat) : Config.windowBase + 64 + first + j - Config.windowBase - 64 = first + j := by omega
  apply List.ext_getElem
  · simp [pageRecords]
  intro j h1 h2
  rw [List.length_map, List.length_range] at h2
  simp only [pageRecords, List.getElem_map, List.getElem_zip, List.getElem_range, place, List.getD_eq_getElem _ _ h2]

theorem foldl_setRecord (f : Nat → Nat × PlanRecord) (n : Nat) (s : State) :
    ((List.range n).map f).foldl (fun s r => setRecord r.1 r.2 s) s
      = { s with plan := { s.plan with
          table := ((List.range n).map f).foldl (fun t r => t.set r.1 r.2) s.plan.table } } := by
  induction n with
  | zero => rfl
  | succ n ih =>
    simp only [List.range_succ, List.map_append, List.map_cons, List.map_nil, List.foldl_append, List.foldl_cons,
      List.foldl_nil]
    rw [ih]
    rfl

/-- A run of records set in a table: the records of the run are there, the others as they were. -/
theorem getElem?_foldl_set (first : Nat) (g : Nat → PlanRecord) (t : List PlanRecord) (n k : Nat) :
    (((List.range n).map (fun j => (first + j, g j))).foldl (fun t r => t.set r.1 r.2) t)[k]?
      = if first ≤ k ∧ k < first + n ∧ k < t.length then some (g (k - first)) else t[k]? := by
  have len : ∀ n, (((List.range n).map (fun j => (first + j, g j))).foldl (fun t r => t.set r.1 r.2) t).length = t.length := by
    intro n
    induction n with
    | zero => rfl
    | succ n ih => simpa [List.range_succ] using ih
  induction n with
  | zero => simp; omega
  | succ n ih =>
    simp only [List.range_succ, List.map_append, List.map_cons, List.map_nil, List.foldl_append, List.foldl_cons,
      List.foldl_nil]
    rw [List.getElem?_set, len, ih]
    by_cases hk : first + n = k
    · subst hk
      by_cases hl : first + n < t.length
      · simp [hl]
      · simp [hl]
    · rw [if_neg hk]
      refine ite_congr (propext ?_) (fun _ => rfl) (fun _ => rfl)
      omega

theorem length_foldl_set (rs : List (Nat × PlanRecord)) : ∀ t : List PlanRecord,
    (rs.foldl (fun t r => t.set r.1 r.2) t).length = t.length := by
  induction rs with
  | nil => exact fun _ => rfl
  | cons r rs ih => exact fun t => (ih _).trans (List.length_set ..)

theorem foldl_queueRecord (f : Nat → AreaWrite) (n : Nat) (s : State) :
    ((List.range n).map f).foldl (fun s w => queueRecord w s) s
      = { s with plan := { s.plan with areaWrites := s.plan.areaWrites ++ (List.range n).map f } } := by
  induction n with
  | zero => simp
  | succ n ih =>
    simp only [List.range_succ, List.map_append, List.map_cons, List.map_nil, List.foldl_append, List.foldl_cons,
      List.foldl_nil]
    rw [ih]
    simp only [queueRecord, List.append_assoc]

/-- The entry just accepted is the one its number finds, every older number being lower (R25). -/
theorem req_accept {s : State} (h : s.Sound) (tag : Tag) (k : ReqKind) (lba count : Nat) (bs : List Block) (st : ReqState) :
    (accept tag k lba count bs st s).req s.port.nextArrival
      = some { tag := tag, kind := k, lba := lba, count := count, blocks := bs, arrival := s.port.nextArrival, state := st,
               keys := [], reads := [], rows := [], flushes := none, lossTold := false } := by
  have older : s.port.entries.find? (·.arrival == s.port.nextArrival) = none := by
    rw [List.find?_eq_none]
    intro e he
    simpa using (h.arrivals e he).ne
  simp [State.req, accept, older]

/-- The entry just accepted completes: the table is as it was before, but for the number given. -/
theorem complete_accepted {s u : State} (h : s.Sound) (tag : Tag) (st : Status) (e : Entry)
    (he : e.tag = tag) (ha : e.arrival = s.port.nextArrival)
    (hp : u.port = { entries := s.port.entries ++ [e], nextArrival := s.port.nextArrival + 1 }) :
    complete e st none [] u =
      { u with
        out := u.out ++ [{ tag := tag, status := st, failing := none, marker := marker u, data := [] }]
        port := { s.port with nextArrival := s.port.nextArrival + 1 }
        locks := (leaveLocks s.port.nextArrival u).locks
        integ := { u.integ with candidates := u.integ.candidates.filter (fun c => !c.reader.ofRequest s.port.nextArrival) } } := by
  have older : s.port.entries.filter (·.arrival != s.port.nextArrival) = s.port.entries :=
    List.filter_eq_self.mpr (fun f hf => by simpa using (h.arrivals f hf).ne)
  have freed : u.port.entries.filter (·.arrival != e.arrival) = s.port.entries := by
    rw [hp, ha]
    simp [List.filter_append, older, ha]
  simp only [complete, send, freeEntry, leaveLocks, updLocks, strikeRequest, marker, freed]
  rw [hp, he, ha]

theorem pageArrival_assembling {s : State} (tag : Tag) (lba : Nat) (bs : List Block) (h : s.ctl.volume = .assembling) :
    pageArrival tag lba bs s = { accept tag .page lba bs.length bs .window s with
      asm := { s.asm with pages := s.asm.pages ++ [s.port.nextArrival] } } :=
  if_pos (by simpa [accept] using h)

theorem pageArrival_taken {s : State} (tag : Tag) (lba : Nat) (bs : List Block) (h : s.ctl.volume ≠ .assembling) :
    pageArrival tag lba bs s = takePage s.port.nextArrival (accept tag .page lba bs.length bs .window s) :=
  if_neg (by simpa [accept] using h)

/-- What the plan unit does with a page write it looks at, by the records it names (R97, R98). -/
theorem takePage_req {a : Nat} {s : State} {e : Entry} (h : s.req a = some e) :
    takePage a s =
      if (pageRecords e.lba e.blocks).any (fun r => s.plan.active == some r.1) then complete e .invalidField none [] s
      else if s.plan.layouts.isEmpty then
        complete e .good none [] ((pageRecords e.lba e.blocks).foldl (fun s r => setRecord r.1 r.2 s) s)
      else (pageRecords e.lba e.blocks).foldl (fun s r =>
        queueRecord { index := r.1, source := .page a, content := some r.2, begun := false, left := 0 } s) s := by
  unfold takePage
  rw [h]

theorem exec_planPageWrite {s : State} {tag : Tag} {first : Nat} {bs : List Block} (h : s.Accepts tag) (h1 : 1 ≤ bs.length)
    (h2 : first + bs.length ≤ 64) (hc : s.plan.capacity ≤ 2 ^ 40)
    (good : ∀ (j : Nat) (h : j < bs.length), hostBlockGood (2 ^ 40 + 64 + first + j) bs[j] = true) :
    exec (.planPageWrite tag first bs) s
      = .next (settle (pageArrival tag (Config.windowBase + 64 + first) bs s)) := by
  have base : Config.windowBase = 2 ^ 40 := rfl
  have arrives : exec (.planPageWrite tag first bs) s
      = .next (settle (writeArrival tag (Config.windowBase + 64 + first) bs s)) := rfl
  have passed := refusal12_of_good h.room h.fresh
    (badWrite_eq_false (lba := Config.windowBase + 64 + first) h1 (by omega) (by rw [base]; omega))
  have window := access_window (s := s) (lba := Config.windowBase + 64 + first) h1 hc (by rw [base]; omega)
    (by rw [base]; omega)
  rw [arrives, writeArrival_window passed window (badBlock_eq_none good), windowWrite, if_neg (by simp; omega),
    if_pos (by omega)]

theorem any_active (first n : Nat) (g : Nat → PlanRecord) (active : Option Nat) :
    ((List.range n).map (fun j => (first + j, g j))).any (fun r => active == some r.1) = true
      ↔ ∃ j, j < n ∧ active = some (first + j) := by
  simp [List.any_eq_true]

/-- Settles O17: by the place `takePage` gives a page write whose entry was just accepted. -/
theorem planPageWriteTaken : Obligations.PlanPageWriteTaken := by
  intro s tag first bs h hs h1 h2 hc good
  dsimp only
  rw [exec_planPageWrite h h1 h2 hc good]
  have found := req_accept hs tag .page (Config.windowBase + 64 + first) bs.length bs .window
  refine ⟨fun hv => ?_, fun hv hact => ?_, fun hv hact => ⟨fun hl => ?_, fun hl => ?_⟩⟩
  · rw [pageArrival_assembling _ _ _ hv]
    rfl
  · rw [pageArrival_taken _ _ _ hv, takePage_req found, pageRecords_eq, if_pos (by exact (any_active ..).mpr hact),
      complete_accepted hs tag .invalidField _ rfl rfl rfl]
    rfl
  · rw [pageArrival_taken _ _ _ hv, takePage_req found, pageRecords_eq,
      if_neg (fun hx => by obtain ⟨j, hj, he⟩ := (any_active ..).mp hx; exact hact j hj he), if_pos (by simp [accept, hl]),
      foldl_setRecord, complete_accepted hs tag .good _ rfl rfl rfl]
    refine ⟨_, rfl, length_foldl_set _ _, fun k hk => ?_, fun j hj hlen => ?_⟩
    · rw [getElem?_foldl_set, if_neg (by dsimp only; omega)]
      rfl
    · rw [getElem?_foldl_set, if_pos ⟨by omega, by dsimp only; omega, hlen⟩, Nat.add_sub_cancel_left, List.getD_eq_getElem _ _ hj]
  · rw [pageArrival_taken _ _ _ hv, takePage_req found, pageRecords_eq,
      if_neg (fun hx => by obtain ⟨j, hj, he⟩ := (any_active ..).mp hx; exact hact j hj he),
      if_neg (by simpa [accept] using hl), List.foldl_map]
    have queued := foldl_queueRecord (fun j =>
      { index := first + j, source := .page s.port.nextArrival,
        content := some (pageRecordOf (bs.getD j noBlock).data),
        begun := false, left := 0 }) bs.length
        (accept tag .page (Config.windowBase + 64 + first) bs.length bs .window s)
    rw [List.foldl_map] at queued
    rw [queued]
    rfl

end Sys2Proof.Machine
end

