-- ==== Sys2Proof/Proofs/Pages.lean ====
section
/-! PROOFS. The window's pages (R190, R200, R201, 11.3, 11.8): a record's field is the value put at its place when no other field
meets that place. -/

namespace Sys2Proof.Machine

/-! ## The fields of a record -/

/-- Fields none of which meets a place of a block. -/
def Clear (off len : Nat) (fs : List (Nat × Nat × Nat)) : Prop :=
  ∀ f ∈ fs, (f.1 + f.2.1 ≤ off ∨ off + len ≤ f.1) ∧ f.1 + f.2.1 ≤ 4096

/-- Fields one of which stands at a place and holds a value, none of the others meeting the place. -/
def Sole (off len v : Nat) : List (Nat × Nat × Nat) → Prop
  | [] => False
  | f :: fs => if f.1 = off ∧ f.2.1 = len then f.2.2 = v ∧ Clear off len fs else Clear off len [f] ∧ Sole off len v fs

@[simp] theorem clear_nil (off len : Nat) : Clear off len [] := fun _ h => nomatch h

@[simp] theorem clear_cons (off len : Nat) (f : Nat × Nat × Nat) (fs : List (Nat × Nat × Nat)) :
    Clear off len (f :: fs) ↔ ((f.1 + f.2.1 ≤ off ∨ off + len ≤ f.1) ∧ f.1 + f.2.1 ≤ 4096) ∧ Clear off len fs :=
  List.forall_mem_cons

@[simp] theorem clear_append (off len : Nat) (fs gs : List (Nat × Nat × Nat)) :
    Clear off len (fs ++ gs) ↔ Clear off len fs ∧ Clear off len gs := List.forall_mem_append

@[simp] theorem sole_cons (off len v : Nat) (f : Nat × Nat × Nat) (fs : List (Nat × Nat × Nat)) :
    Sole off len v (f :: fs)
      ↔ if f.1 = off ∧ f.2.1 = len then f.2.2 = v ∧ Clear off len fs else Clear off len [f] ∧ Sole off len v fs := Iff.rfl

theorem sole_append_right {off len v : Nat} {fs gs : List (Nat × Nat × Nat)} (hf : Clear off len fs)
    (hfs : ∀ f ∈ fs, ¬(f.1 = off ∧ f.2.1 = len)) (hg : Sole off len v gs) : Sole off len v (fs ++ gs) := by
  induction fs with
  | nil => exact hg
  | cons f fs ih =>
    rw [clear_cons] at hf
    rw [List.cons_append, sole_cons, if_neg (hfs f List.mem_cons_self)]
    exact ⟨by simpa using hf.1, ih hf.2 (fun g hm => hfs g (List.mem_cons_of_mem f hm))⟩

theorem fieldAt_of_sole {off len v : Nat} (hb : off + len ≤ 4096) (hv : v < 2 ^ (8 * len)) {fs : List (Nat × Nat × Nat)}
    (h : Sole off len v fs) : fieldAt (buildRecord fs) off len = v := by
  rw [fieldAt_buildRecord]
  induction fs with
  | nil => exact h.elim
  | cons f fs ih =>
    rw [sole_cons] at h
    rw [List.foldl_cons, Nat.zero_or]
    split at h
    · rename_i at_
      obtain ⟨rfl, rest⟩ := h
      rw [fields_apart off len hb fs _ rest, at_.1, at_.2, fieldAt_putField_same _ _ _ hb, Nat.mod_eq_of_lt hv]
    · obtain ⟨apart, rest⟩ := h
      have hf := apart f List.mem_cons_self
      rw [fieldAt_putField_apart _ _ _ _ _ hf.1 hb hf.2]
      exact ih rest

theorem clear_dirFields {off len codeAt seqAt : Nat} (hc : Clear off len [(codeAt, 1, 0), (seqAt, 2, 0)])
    (d : Option Directive) : Clear off len (dirFields codeAt seqAt d) := by
  cases d with
  | none => exact clear_nil off len
  | some d => simpa [dirFields] using hc

theorem clear_captureFields {off len : Nat} (h : 32 ≤ off) (c : Option Capture) : Clear off len (captureFields c) := by
  cases c with
  | none => exact clear_nil off len
  | some c => simp [captureFields]; omega

theorem clear_remapFields {off len : Nat} (h : off + len ≤ 64) (rs : List Remap) : Clear off len (remapFields rs) := by
  intro f hf
  obtain ⟨p, hp, hm⟩ := List.mem_flatMap.mp hf
  have small := List.mem_range.mp (List.of_mem_zip hp).2
  simp only [List.mem_cons, List.not_mem_nil, or_false] at hm
  rcases hm with rfl | rfl | rfl <;> dsimp only <;> omega

theorem clear_listFields {off len list : Nat} (h : off + len ≤ list) (hl : list + 512 ≤ 4096) (es : List LabelEntry) :
    Clear off len (listFields list es) := by
  intro f hf
  obtain ⟨p, hp, hm⟩ := List.mem_flatMap.mp hf
  have small := List.mem_range.mp (List.of_mem_zip hp).2
  unfold entryFields at hm
  split at hm <;> simp only [List.mem_cons, List.not_mem_nil, or_false] at hm
  · subst hm
    dsimp only
    omega
  · rcases hm with rfl | rfl | rfl <;> dsimp only <;> omega

theorem clear_layoutFields {off len at_ list : Nat} (h : off + len ≤ at_) (h2 : at_ + 2 ≤ list) (hl : list + 512 ≤ 4096)
    (l : Option LabelLayout) : Clear off len (layoutFields at_ list l) := by
  cases l with
  | none => exact clear_nil off len
  | some l =>
    rw [layoutFields, clear_append]
    exact ⟨by simp; omega, clear_listFields (by omega) hl l.entries⟩

theorem tuning_fields (t : Tuning) : runFields 16 1 t.toList
    = [(16, 1, t.stepRows), (17, 1, t.pace), (18, 1, t.markInterval), (19, 1, t.stainLimit), (20, 1, bit t.captureLatest),
       (21, 1, bit t.degradedContinue), (22, 1, bit t.linkResetRestart)] := rfl

theorem count_fields (c : CaptureCounts) : runFields 32 2 c.toList
    = [(32, 2, c.hostTag), (34, 2, c.memberTag), (36, 2, c.mediaRead), (38, 2, c.mediaWrite), (40, 2, c.timeout),
       (42, 2, c.poisonWritten)] := rfl

/-! ## Codes fit a byte (11.2) -/

theorem dirOutcomeCode_lt (o : DirOutcome) : dirOutcomeCode o < 256 := by cases o <;> decide
theorem engineCode_lt (e : EngineState) : engineCode e < 256 := by cases e <;> decide
theorem roleCode_lt (r : Role) : roleCode r < 256 := by cases r <;> decide
theorem volumeCode_lt (v : VolumeState) : volumeCode v < 256 := by cases v <;> decide
theorem bit_lt (b : Bool) : bit b < 256 := by cases b <;> decide
theorem counter_lt {n : Nat} (h : n ≤ Config.counterTop) : n < 2 ^ (8 * 2) := Nat.lt_of_le_of_lt h (by decide)

/-! ## The pages -/

theorem resultPage_fields {s : State} (h : s.Sound) :
    fieldAt s.resultPage 0 1 = s.win.result.code.toNat ∧ fieldAt s.resultPage 1 1 = dirOutcomeCode s.win.result.outcome
      ∧ fieldAt s.resultPage 2 2 = s.win.result.seq.toNat ∧ fieldAt s.resultPage 12 2 = s.win.overwrites
      ∧ fieldAt s.resultPage 16 1 = s.ctl.tuning.stepRows := by
  have small : s.ctl.tuning.stepRows < 2 ^ (8 * 1) := Nat.lt_of_le_of_lt h.tuning.1.2 (by decide)
  unfold State.resultPage
  dsimp only
  rw [tuning_fields]
  refine ⟨fieldAt_of_sole (by decide) s.win.result.code.isLt ?_, fieldAt_of_sole (by decide) (dirOutcomeCode_lt _) ?_,
    fieldAt_of_sole (by decide) s.win.result.seq.isLt ?_, fieldAt_of_sole (by decide) (counter_lt h.overwrites) ?_,
    fieldAt_of_sole (by decide) small ?_⟩
  case refine_5 =>
    refine sole_append_right ?_ ?_ (by simp)
    · simp [clear_dirFields]
    · rcases s.win.current with _ | d <;> rcases s.win.waiting with _ | e <;> simp [dirFields]
  all_goals simp [clear_dirFields]

theorem enginePage_fields (s : State) :
    fieldAt s.enginePage 0 1 = engineCode s.ctl.state ∧ fieldAt s.enginePage 4 1 = bit s.ctl.latch := by
  unfold State.enginePage
  exact ⟨fieldAt_of_sole (by decide) (engineCode_lt _) (by simp), fieldAt_of_sole (by decide) (bit_lt _) (by simp)⟩

theorem eventsPage_fields (s : State) :
    fieldAt s.eventsPage 2 2 = s.win.mask.toNat ∧ fieldAt s.eventsPage 4 1 = bit (marker s) := by
  unfold State.eventsPage
  exact ⟨fieldAt_of_sole (by decide) (s.win.mask.isLt.trans (by decide)) (by simp),
    fieldAt_of_sole (by decide) (bit_lt _) (by simp)⟩

theorem capturePage_fields {s : State} (h : s.Fit) :
    fieldAt s.capturePage 32 2 = s.integ.counts.hostTag ∧ fieldAt s.capturePage 42 2 = s.integ.counts.poisonWritten := by
  obtain ⟨hostTag, -, -, -, -, poisonWritten⟩ := h.counts
  have before {off len : Nat} (ho : 32 ≤ off) :
      ∀ f ∈ captureFields s.integ.capture ++ [(4, 1, bit s.ctl.tuning.captureLatest)], ¬(f.1 = off ∧ f.2.1 = len) := by
    rcases s.integ.capture with _ | c <;> simp [captureFields] <;> omega
  unfold State.capturePage
  rw [count_fields]
  exact ⟨fieldAt_of_sole (by decide) (counter_lt hostTag)
      (sole_append_right (by simp [clear_captureFields]) (before (by decide)) (by simp)),
    fieldAt_of_sole (by decide) (counter_lt poisonWritten)
      (sole_append_right (by simp [clear_captureFields]) (before (by decide)) (by simp))⟩

theorem memberPage_fields {s : State} (h : s.Fit) :
    fieldAt s.memberPage 0 1 = s.win.selector.val ∧ fieldAt s.memberPage 4 1 = roleCode (s.bay s.win.selector).role
      ∧ fieldAt s.memberPage 40 2 = (s.bay s.win.selector).media
      ∧ fieldAt s.memberPage 42 2 = (s.bay s.win.selector).tagErrors
      ∧ fieldAt s.memberPage 44 2 = (s.bay s.win.selector).timeouts := by
  have counters := h.bays s.win.selector
  have slot : s.win.selector.val < 2 ^ (8 * 1) := s.win.selector.isLt.trans (by decide)
  unfold State.memberPage
  exact ⟨fieldAt_of_sole (by decide) slot (by simp [clear_remapFields]),
    fieldAt_of_sole (by decide) (roleCode_lt _) (by simp [clear_remapFields]),
    fieldAt_of_sole (by decide) (counter_lt counters.mediaTop) (by simp [clear_remapFields]),
    fieldAt_of_sole (by decide) (counter_lt counters.tagTop) (by simp [clear_remapFields]),
    fieldAt_of_sole (by decide) (counter_lt counters.timeTop) (by simp [clear_remapFields])⟩

theorem volumePage_state (s : State) : fieldAt s.volumePage 0 1 = volumeCode s.ctl.volume := by
  unfold State.volumePage
  refine fieldAt_of_sole (by decide) (volumeCode_lt _) ?_
  rcases s.plan.incoming with _ | i <;> simp [clear_layoutFields]

/-! ## A READ of the window (R190) -/

theorem windowData_between {i : Nat} (h1 : 7 ≤ i) (h2 : i < 64) (s : State) : s.windowData i = zeroData := by
  unfold State.windowData
  split
  case h_8 => rw [if_neg (by omega)]
  all_goals omega

theorem map_runOf {α : Type} (f : Nat → α) (lba n : Nat) :
    (runOf lba n).map f = (List.range n).map (fun j => f (lba + j)) := by
  simp [runOf]

/-- Settles O10: the arm of a window READ, the tag `makeBlock` gives, and the pages field by field. -/
theorem windowReads : Obligations.WindowReads := by
  refine ⟨fun s tag lba n h h1 h2 hc hl hw => ⟨?_, fun i =>
      ⟨by simp only [State.windowBlock, makeBlock], rfl, rfl, fun hi hj => windowData_between hi hj s⟩⟩,
    fun s hs hf => ?_⟩
  · rw [exec_readRequest, readArrival_window (refusal12_of_good h.room h.fresh (badCount_eq_false h1 h2))
      (access_window h1 hc hl hw), settle_send_passing h.settled, map_runOf]
    rfl
  · obtain ⟨code, outcome, seq, overwrites, stepRows⟩ := resultPage_fields hs
    obtain ⟨mask, mark⟩ := eventsPage_fields s
    obtain ⟨engine, latch⟩ := enginePage_fields s
    obtain ⟨hostTag, poison⟩ := capturePage_fields hf
    obtain ⟨selector, role, media, tags, timeouts⟩ := memberPage_fields hf
    exact ⟨code, outcome, seq, overwrites, stepRows, engine, latch, eventsPage_flags s, mask, mark, hostTag, poison, selector,
      role, media, tags, timeouts, volumePage_state s⟩

end Sys2Proof.Machine
end

