-- ==== Sys2Proof/Proofs/Resets.lean ====
section
/-! PROOFS. The resets: what a volume link reset drops and drains, and what RESTART leaves (R43 to R45, R137, R171 to R174, R202). -/

namespace Sys2Proof.Machine

/-! ## Row locks without some numbers (R29, R43, R44) -/

/-- A lock entry without the numbers that are gone. -/
def LockEntry.strip (gone : Nat → Bool) (e : LockEntry) : LockEntry :=
  { e with
    holder := if e.holder.any gone then none else e.holder
    readers := e.readers.filter (fun a => !gone a)
    waiters := e.waiters.filter (fun w => !gone w.arrival) }

theorem without_eq_strip (a : Nat) : LockEntry.without a = LockEntry.strip (· == a) := by
  funext e
  rcases hh : e.holder with _ | h
  · simp [LockEntry.without, LockEntry.strip, hh, bne]
  · simp [LockEntry.without, LockEntry.strip, hh, bne]

theorem strip_strip (g h : Nat → Bool) (e : LockEntry) : (e.strip g).strip h = e.strip (fun a => g a || h a) := by
  rcases hh : e.holder with _ | k
  · simp [LockEntry.strip, hh, List.filter_filter, Bool.and_comm]
  · cases hg : g k <;> simp [LockEntry.strip, hh, hg, List.filter_filter, Bool.and_comm]

theorem strip_none (e : LockEntry) : e.strip (fun _ => false) = e := by
  rcases hh : e.holder with _ | k <;> simp [LockEntry.strip]

theorem used_of_strip {g : Nat → Bool} {e : LockEntry} (h : (e.strip g).used = true) : e.used = true := by
  rcases hh : e.holder with _ | k
  · simp only [LockEntry.used, LockEntry.strip, hh, Option.any_none, Bool.false_eq_true, if_false, Option.isSome_none,
      Bool.false_or, Bool.or_eq_true, Bool.not_eq_true', List.isEmpty_eq_false_iff] at h ⊢
    exact h.imp (fun hr hn => hr (by rw [hn]; rfl)) (fun hw hn => hw (by rw [hn]; rfl))
  · simp [LockEntry.used, hh]

/-- A row lock table without the numbers that are gone: every entry is one of before without them, and every one still in use
is there. -/
structure LockTable.Without (gone : Nat → Bool) (s t : LockTable) : Prop where
  only   : ∀ e ∈ t.entries, ∃ f ∈ s.entries, e = f.strip gone
  all    : ∀ f ∈ s.entries, (f.strip gone).used = true → f.strip gone ∈ t.entries
  queued : t.queued = s.queued.filter (fun q => !gone q.arrival)

theorem LockTable.Without.refl (s : LockTable) : LockTable.Without (fun _ => false) s s where
  only e he := ⟨e, he, (strip_none e).symm⟩
  all f hf _ := (strip_none f).symm ▸ hf
  queued := by simp

theorem LockTable.Without.trans {g h : Nat → Bool} {s t u : LockTable} (a : LockTable.Without g s t)
    (b : LockTable.Without h t u) : LockTable.Without (fun x => g x || h x) s u where
  only e he := by
    obtain ⟨f, hf, rfl⟩ := b.only e he
    obtain ⟨k, hk, rfl⟩ := a.only f hf
    exact ⟨k, hk, strip_strip g h k⟩
  all f hf hu := by
    rw [← strip_strip] at hu ⊢
    exact b.all _ (a.all f hf (used_of_strip hu)) hu
  queued := by
    rw [b.queued, a.queued, List.filter_filter]
    congr 1
    funext q
    rw [Bool.not_or, Bool.and_comm]

theorem leaveLocks_eq (a : Nat) (s : State) : leaveLocks a s = { s with locks := (leaveLocks a s).locks } := rfl

theorem leaveLocks_without (a : Nat) (s : State) : LockTable.Without (· == a) s.locks (leaveLocks a s).locks where
  only e he := by
    obtain ⟨f, hf, rfl⟩ := List.mem_map.mp (List.mem_filter.mp he).1
    exact ⟨f, hf, by rw [without_eq_strip]⟩
  all f hf hu := List.mem_filter.mpr ⟨List.mem_map.mpr ⟨f, hf, by rw [without_eq_strip]⟩, hu⟩
  queued := rfl

/-! ## Requests drained and dropped (R43, R44, R98, R144) -/

theorem any_arrival_cons (e : Entry) (es : List Entry) (a : Nat) :
    (e :: es).any (fun f => f.arrival == a) = (es.any (fun f => f.arrival == a) || a == e.arrival) := by
  rw [List.any_cons, Bool.or_comm, Bool.beq_comm]

theorem drainReads_eq (es : List Entry) : ∀ s : State, ∃ locks,
    LockTable.Without (fun a => es.any (fun f => f.arrival == a)) s.locks locks
      ∧ es.foldl (fun s e => drainRead e s) s = { s with
          locks := locks
          integ := { s.integ with
            candidates := s.integ.candidates.filter (fun c => !es.any (fun f => c.reader.ofRequest f.arrival)) } } := by
  induction es with
  | nil => exact fun s => ⟨s.locks, .refl _, by simp⟩
  | cons e es ih =>
    intro s
    obtain ⟨locks, without, eq⟩ := ih (drainRead e s)
    refine ⟨locks, ?_, ?_⟩
    · have both := (leaveLocks_without e.arrival s).trans without
      simpa only [any_arrival_cons, Bool.or_comm] using both
    · rw [List.foldl_cons, eq]
      simp only [drainRead, strikeRequest, leaveLocks, updLocks, List.filter_filter, List.any_cons, Bool.not_or,
        Bool.and_comm]

/-- Whether a record write belongs to a page write that is gone (R43, R98). -/
def AreaSource.goneWith (gone : Nat → Bool) : AreaSource → Bool
  | .page a => gone a
  | .behind | .ending => false

theorem beq_page (x : AreaSource) (a : Nat) : (x == .page a) = x.goneWith (· == a) := by
  cases x with
  | page b => rw [Bool.eq_iff_iff]; simp [AreaSource.goneWith]
  | behind | ending => rfl

theorem goneWith_or (g h : Nat → Bool) (x : AreaSource) :
    x.goneWith (fun a => g a || h a) = (x.goneWith g || x.goneWith h) := by
  cases x <;> rfl

theorem dropRequests_fold_eq (es : List Entry) : ∀ s : State, ∃ locks,
    let gone : Nat → Bool := fun a => es.any (fun f => f.arrival == a)
    LockTable.Without gone s.locks locks
      ∧ es.foldl (fun s e => dropRequest e s) s = { s with
          locks := locks
          port := { s.port with entries := s.port.entries.filter (fun f => !gone f.arrival) }
          holds := s.holds.filter (fun h => !gone h.arrival)
          plan := { s.plan with areaWrites := s.plan.areaWrites.filter (fun w => !w.source.goneWith gone) }
          asm := { s.asm with pages := s.asm.pages.filter (fun a => !gone a) } } := by
  induction es with
  | nil =>
    refine fun s => ⟨s.locks, .refl _, ?_⟩
    have all : ∀ x : AreaSource, x.goneWith (fun _ => false) = false := fun x => by cases x <;> rfl
    simp [all]
  | cons e es ih =>
    intro s
    obtain ⟨locks, without, eq⟩ := ih (dropRequest e s)
    refine ⟨locks, ?_, ?_⟩
    · have both := (leaveLocks_without e.arrival s).trans without
      simpa only [any_arrival_cons, Bool.or_comm] using both
    · rw [List.foldl_cons, eq]
      simp only [dropRequest, freeEntry, leaveLocks, updLocks, List.filter_filter, bne, beq_page, any_arrival_cons,
        goneWith_or, Bool.not_or]

/-- The numbers of the requests a volume link reset drops: those not issued (R43). -/
def State.droppedBy (s : State) (a : Nat) : Bool := s.port.entries.any (fun f => f.arrival == a && !s.isIssued f)

/-- The numbers that leave the row lock table at a volume link reset: dropped requests and drained READs (R43, R44). -/
def State.unlockedBy (s : State) (a : Nat) : Bool :=
  s.port.entries.any (fun f => f.arrival == a && (!s.isIssued f || f.kind == .read))

theorem any_filter_and (p q : Entry → Bool) (es : List Entry) : (es.filter p).any q = es.any (fun e => q e && p e) := by
  rw [List.any_filter]
  simp only [Bool.and_comm]

/-- A volume link reset at the volume port, written out. -/
theorem dropRequests_eq (s : State) : ∃ locks, LockTable.Without s.unlockedBy s.locks locks
    ∧ dropRequests s = { s with
        locks := locks
        port := { s.port with entries := (s.port.entries.filter (fun f => !s.droppedBy f.arrival)).map Entry.drain }
        holds := s.holds.filter (fun h => !s.droppedBy h.arrival)
        plan := { s.plan with areaWrites := s.plan.areaWrites.filter (fun w => !w.source.goneWith s.droppedBy) }
        asm := { s.asm with pages := s.asm.pages.filter (fun a => !s.droppedBy a) }
        integ := { s.integ with candidates := s.integ.candidates.filter (fun c =>
          !s.port.entries.any (fun f => s.isIssued f && f.kind == .read && c.reader.ofRequest f.arrival)) } } := by
  obtain ⟨locks1, without1, eq1⟩ := drainReads_eq (s.port.entries.filter (fun e => s.isIssued e && e.kind == .read)) s
  obtain ⟨locks, without, eq⟩ := dropRequests_fold_eq (s.port.entries.filter (fun e => !s.isIssued e))
    ((s.port.entries.filter (fun e => s.isIssued e && e.kind == .read)).foldl (fun s e => drainRead e s) s)
  have dropped (a : Nat) : (s.port.entries.filter (fun e => !s.isIssued e)).any (fun f => f.arrival == a) = s.droppedBy a :=
    any_filter_and ..
  have unlocked : (fun a => (s.port.entries.filter (fun e => s.isIssued e && e.kind == .read)).any (fun f => f.arrival == a)
      || s.droppedBy a) = s.unlockedBy := by
    funext a
    rw [any_filter_and, State.droppedBy, State.unlockedBy, Bool.eq_iff_iff]
    simp only [Bool.or_eq_true, List.any_eq_true, Bool.and_eq_true, Bool.not_eq_true']
    constructor
    · rintro (⟨f, hf, ha, -, hk⟩ | ⟨f, hf, ha, hi⟩)
      · exact ⟨f, hf, ha, .inr hk⟩
      · exact ⟨f, hf, ha, .inl hi⟩
    · rintro ⟨f, hf, ha, hx⟩
      by_cases hi : s.isIssued f = true
      · exact .inl ⟨f, hf, ha, hi, hx.resolve_left (by simp [hi])⟩
      · exact .inr ⟨f, hf, ha, by simpa using hi⟩
  rw [eq1] at without
  simp only [dropped] at without eq
  refine ⟨locks, unlocked ▸ without1.trans without, ?_⟩
  unfold dropRequests
  dsimp only
  rw [eq, eq1]
  simp only [List.any_filter]

/-! ## What is left of the request table (R43) -/

/-- An issued request's number is none of a dropped one's, the numbers being different (R25). -/
theorem not_droppedBy {s : State} (h : s.Sound) {f : Entry} (hf : f ∈ s.port.entries) (hi : s.isIssued f = true) :
    s.droppedBy f.arrival = false := by
  rw [State.droppedBy, List.any_eq_false]
  intro g hg hx
  simp only [Bool.and_eq_true, beq_iff_eq, Bool.not_eq_true'] at hx
  obtain rfl := List.inj_on_of_nodup_map h.numbers hg hf hx.1
  rw [hi] at hx
  exact nomatch hx.2

theorem isIssued_of_not_droppedBy {s : State} {f : Entry} (hf : f ∈ s.port.entries) (hd : s.droppedBy f.arrival = false) :
    s.isIssued f = true := by
  rw [State.droppedBy, List.any_eq_false] at hd
  simpa using hd f hf

theorem mem_drained {s : State} {e : Entry}
    (he : e ∈ (s.port.entries.filter (fun f => !s.droppedBy f.arrival)).map Entry.drain) :
    ∃ f ∈ s.port.entries, s.isIssued f = true ∧ e = f.drain := by
  obtain ⟨f, hf, rfl⟩ := List.mem_map.mp he
  obtain ⟨hm, hd⟩ := List.mem_filter.mp hf
  exact ⟨f, hm, isIssued_of_not_droppedBy hm (by simpa using hd), rfl⟩

theorem drained_mem {s : State} (h : s.Sound) {f : Entry} (hf : f ∈ s.port.entries) (hi : s.isIssued f = true) :
    f.drain ∈ (s.port.entries.filter (fun f => !s.droppedBy f.arrival)).map Entry.drain :=
  List.mem_map_of_mem (List.mem_filter.mpr ⟨hf, by simp [not_droppedBy h hf hi]⟩)

/-- The hold queue is empty when it holds none but held requests, which are not issued (R42, R43). -/
theorem holds_dropped {s : State} (h : ∀ x ∈ s.holds, ∃ f ∈ s.port.entries, f.arrival = x.arrival ∧ f.state = .held) :
    s.holds.filter (fun x => !s.droppedBy x.arrival) = [] := by
  rw [List.filter_eq_nil_iff]
  intro x hx
  obtain ⟨f, hf, ha, hs⟩ := h x hx
  have held : s.isIssued f = false := by simp [State.isIssued, hs]
  have dropped : s.droppedBy x.arrival = true := List.any_eq_true.mpr ⟨f, hf, by simp [ha, held]⟩
  simp [dropped]

/-! ## A volume link reset (R43, R44, R172, R202) -/

theorem exec_volumeLinkReset (s : State) : exec .volumeLinkReset s = .next (settle (linkReset s)) := rfl

theorem linkReset_off {s : State} (h : s.ctl.tuning.linkResetRestart = false) :
    linkReset s = { dropRequests s with win := { (dropRequests s).win with waiting := none } } := by
  obtain ⟨locks, -, eq⟩ := dropRequests_eq s
  unfold linkReset
  dsimp only
  rw [if_neg (by rw [eq]; simp [h])]

/-- With no request outstanding there is nothing to drop or drain. -/
theorem dropRequests_of_empty {s : State} (h : s.port.entries = []) : dropRequests s = s := by
  unfold dropRequests
  simp only [h, List.filter_nil, List.foldl_nil, List.map_nil]
  rw [← h]

/-- Settles O7: the closed form of `dropRequests`, and nothing follows where there is nothing to drop. -/
theorem linkResetDrains : Obligations.LinkResetDrains := by
  refine ⟨fun s hs hoff => ⟨_, exec_volumeLinkReset s, ?_⟩, fun s hs hnone hoff => ?_⟩
  · obtain ⟨locks, without, eq⟩ := dropRequests_eq s
    rw [linkReset_off hoff, eq]
    refine ⟨rfl, fun e he => ?_, fun e he => ?_, fun f hf hi => ?_, rfl, ⟨without.only, without.all, without.queued, rfl,
      holds_dropped, ?_, rfl, rfl⟩, rfl⟩
    · obtain ⟨f, -, -, rfl⟩ := mem_drained he
      rfl
    · obtain ⟨f, hf, hi, rfl⟩ := mem_drained he
      exact ⟨f, hf, hi, rfl, rfl⟩
    · exact ⟨f.drain, drained_mem hs hf hi, rfl, rfl⟩
    · refine congrArg (fun p => s.plan.areaWrites.filter p) (funext fun w => ?_)
      cases w.source <;> rfl
  · rw [exec_volumeLinkReset, linkReset_off hoff, dropRequests_of_empty hnone]
    exact congrArg Host.Outcome.next (settle_of_settled (settled_aside (s := s) (p := s.pending) (o := s.out)
      (a := s.port.nextArrival) (w := { s.win with waiting := none }) (k := s.integ.capture) (n := s.integ.counts)
      hs hs.current))

/-! ## What RESTART leaves (R45, R137, R171, R173) -/

theorem foldl_send (es : List Entry) : ∀ s : State,
    es.foldl (fun s e => send e.tag .aborted none [] s) s = { s with
      out := s.out ++ es.map (fun e =>
        { tag := e.tag, status := .aborted, failing := none, marker := marker s, data := [] }) } := by
  induction es with
  | nil => exact fun s => by simp
  | cons e es ih =>
    intro s
    rw [List.foldl_cons, ih]
    simp only [send, List.map_cons, List.append_assoc, List.singleton_append]
    rfl

theorem abortRequests_eq (s : State) : abortRequests s = { s with
    out := s.out ++ (s.port.entries.filter (·.state != .draining)).map (fun e =>
      { tag := e.tag, status := .aborted, failing := none, marker := marker s, data := [] })
    port := { s.port with entries := (s.port.entries.filter s.isIssued).map (fun e => { e.drain with rows := [], keys := [] }) }
    locks := { entries := [], queued := [] }
    holds := [] } := by
  unfold abortRequests
  dsimp only
  rw [foldl_send]

theorem abortRequests_draining {s : State} {e : Entry} (he : e ∈ (abortRequests s).port.entries) : e.state = .draining := by
  rw [abortRequests_eq] at he
  obtain ⟨f, -, rfl⟩ := List.mem_map.mp he
  rfl

theorem updAllBays_bay (f : Bay → Bay) (s : State) (i : Slot) : (updAllBays f s).bay i = f (s.bay i) := by
  simp [updAllBays, State.bay]

theorem restartBlocks_bay (c : StartCause) (s : State) (i : Slot) : (restartBlocks c s).bay i = s.restartBay (s.bay i) :=
  updAllBays_bay s.restartBay s i

theorem restartBlocks_scanSet (c : StartCause) (s : State) (i : Slot) :
    i ∈ (restartBlocks c s).asm.scanSet ↔ (s.bay i).present = true := by
  have present : ((drainBays s).bay i).present = (s.bay i).present := by
    rw [drainBays, updAllBays_bay]
    rfl
  show i ∈ (drainBays s).presentBays ↔ _
  rw [State.presentBays, List.mem_filter, present]
  simp [allSlots]

theorem linkReset_on {s : State} (h : s.ctl.tuning.linkResetRestart = true) :
    linkReset s = restartBlocks .link (abortRequests (clearWindow (dropRequests s))) := by
  obtain ⟨locks, -, eq⟩ := dropRequests_eq s
  unfold linkReset
  dsimp only
  rw [if_pos (by rw [eq]; exact h)]

/-- Settles O8: after the drop every entry drains, so that none is aborted with a completion. -/
theorem linkResetTakenAsRestart : Obligations.LinkResetTakenAsRestart := by
  intro s hon
  obtain ⟨locks, -, eq⟩ := dropRequests_eq s
  have none_left : (dropRequests s).port.entries.filter (·.state != .draining) = [] := by
    rw [List.filter_eq_nil_iff, eq]
    intro e he
    obtain ⟨f, -, -, rfl⟩ := mem_drained he
    simp [Entry.drain]
  refine ⟨_, exec_volumeLinkReset s, ?_⟩
  rw [linkReset_on hon]
  refine ⟨?_, fun e he => abortRequests_draining he, ?_, rfl, rfl, rfl, rfl, ?_, rfl, rfl, rfl, fun i => ?_⟩
  · show (abortRequests (clearWindow (dropRequests s))).out = s.out
    rw [abortRequests_eq]
    show (dropRequests s).out
      ++ ((dropRequests s).port.entries.filter (·.state != .draining)).map _ = s.out
    rw [none_left, eq]
    simp
  · show (abortRequests (clearWindow (dropRequests s))).win = _
    rw [abortRequests_eq, eq]
    rfl
  · show (abortRequests (clearWindow (dropRequests s))).ctl.tuning = _
    rw [abortRequests_eq, eq]
    rfl
  · rw [restartBlocks_scanSet, abortRequests_eq, eq]
    rfl

/-- With no flag set a completion's marker is clear (R41). -/
theorem marker_of_no_flag (s : State) (h : ∀ e, s.win.events.has e = false) : marker s = false := by
  rw [Bool.eq_false_iff, ne_eq, marker_iff]
  rintro ⟨e, he, -⟩
  exact absurd he (by simp [h e])

/-- Settles O30: RESTART is taken in every volume state, and its change written out. -/
theorem restartBeginsAssembly : Obligations.RestartBeginsAssembly := by
  intro s tag a r
  have after : restartTaken { code := 16#8, args := a } (s.holding { code := 16#8, args := a })
      = restartBlocks .restart (abortRequests { clearWindow (s.holding { code := 16#8, args := a }) with
          win := { s.win with
            current := none, taken := false, waiting := none, events := State.resetEvents
            result := { code := 16#8, seq := a.seq, outcome := .done } } }) := rfl
  refine ⟨_, exec_restart a r, ?_⟩
  rw [after, abortRequests_eq]
  refine ⟨?_, rfl, rfl, rfl, rfl, rfl, rfl, rfl, rfl, fun e he => ?_, rfl, rfl, rfl, rfl, rfl, rfl, rfl, rfl,
    fun i => ?_, fun i => ?_⟩
  · exact congrArg (fun m => s.out ++ (s.port.entries.filter (·.state != .draining)).map (fun e =>
      ({ tag := e.tag, status := .aborted, failing := none, marker := m, data := [] } : Completion)))
      (marker_of_no_flag _ (fun e => by cases e <;> rfl))
  · obtain ⟨f, -, rfl⟩ := List.mem_map.mp he
    rfl
  · exact restartBlocks_scanSet _ _ i
  · rw [restartBlocks_bay]
    exact ⟨rfl, rfl, rfl, rfl, rfl, rfl, rfl, rfl, List.length_map ..⟩

end Sys2Proof.Machine
end

