-- ==== Sys2Proof/Proofs/Directives.lean ====
section
/-! PROOFS. The directives: the slot, the refusals, and each owner's effect (R100, R113 to R117, R133, R155, R159, R160, R165, R191
to R198). -/

namespace Sys2Proof.Machine

/-! ## The slot and the refusals at arrival (R22, R191) -/

theorem directiveArrival_refused {s : State} {tag : Tag} {d : Directive} {st : Status}
    (h : s.refusal12 tag false = some st) : directiveArrival tag d s = send tag st none [] s := by
  simp only [directiveArrival, h]

theorem directiveArrival_placed {s : State} {tag : Tag} {d : Directive} (h : s.refusal12 tag false = none) :
    directiveArrival tag d s = send tag .good none [] (settle (placeDirective d (acceptPassing s))) := by
  simp only [directiveArrival, h, directiveWrite]

/-- Behind a current directive, which was taken as it became current, a placed one brings nothing about (R192). -/
theorem exec_behind {c : Instr} {s : State} {tag : Tag} {d cur : Directive} (h : carried c = some (tag, d)) (r : s.Accepts tag)
    (hc : s.win.current = some cur) (w : WindowUnit) (ht : w.taken = s.win.taken)
    (placed : placeDirective d (acceptPassing s)
      = { s with port := { s.port with nextArrival := s.port.nextArrival + 1 }, win := w }) :
    exec c s = .next (send tag .good none []
      { s with port := { s.port with nextArrival := s.port.nextArrival + 1 }, win := w }) := by
  have taken : w.taken = true := ht.trans (r.settled.current.resolve_left (by simp [hc]))
  have still (o : List Completion) : State.Settled
      { s with out := o, port := { s.port with nextArrival := s.port.nextArrival + 1 }, win := w } :=
    settled_aside (s := s) (p := s.pending) (k := s.integ.capture) (n := s.integ.counts) r.settled (.inr taken)
  rw [exec_carried h, directiveArrival_placed (refusal12_of_accepts r), placed, settle_of_settled (still s.out)]
  exact congrArg Host.Outcome.next (settle_of_settled (still _))

/-- Settles O18: the two arms of `placeDirective` behind a current directive. -/
theorem directivePlacedBehindCurrent : Obligations.DirectivePlacedBehindCurrent := by
  intro c s tag d cur h r hc
  refine ⟨fun hw => ?_, fun old hw => ?_⟩
  · exact exec_behind h r hc _ rfl (by simp only [placeDirective, acceptPassing, hc, hw])
  · have raised := exec_behind h r hc
      { s.win with
        waiting := some d, overwrites := bump s.win.overwrites
        events := { s.win.events with directiveOverwritten := true } }
      rfl (by simp only [placeDirective, acceptPassing, hc, hw, raise, Events.set])
    rwa [bump_eq] at raised

theorem busy_iff (s : State) :
    s.busy = true ↔ 128 ≤ s.port.entries.length ∨ ∃ e ∈ s.port.entries, e.state = .draining := by
  rw [State.busy, Bool.or_eq_true, decide_eq_true_eq, List.any_eq_true]
  simp [Config.maxRequests]

theorem takeDirective_unknown {s : State} {d : Directive} (h : d.code.toNat = 0 ∨ 16 < d.code.toNat) :
    takeDirective d (s.holding d) = finishDirective .refusedCode (s.holding d) := by
  unfold takeDirective
  dsimp only
  rw [if_pos (by simpa using h)]
  rfl

theorem takeDirective_assembling {s : State} {d : Directive} (h1 : 1 ≤ d.code.toNat) (h2 : d.code.toNat ≤ 15)
    (hv : s.ctl.volume = .assembling) :
    takeDirective d (s.holding d) = finishDirective .refusedState (s.holding d) := by
  unfold takeDirective
  dsimp only
  rw [if_neg (by simp; omega), if_neg (by simp; omega), if_pos (by simpa [State.holding] using hv)]
  rfl

/-- A directive that only reports ends with its completion, nothing else following (R192, R193). -/
theorem afterDirective_reporting {s : State} {tag : Tag} (r : s.Ready tag) (d : Directive) (o : DirOutcome) :
    afterDirective tag (finishDirective o (s.holding d)) = send tag .good none [] (s.reporting d o) := by
  rw [finish_holding d o r.waiting, afterDirective_settled tag (reporting_settled r.settled d o) rfl]

/-- Settles O19: the arms of the arrival checks, of an unknown code, and of assembly. -/
theorem directivesRefused : Obligations.DirectivesRefused := by
  refine ⟨fun c s tag d h hs => ⟨fun hb => ?_, fun h1 h2 h3 => ?_⟩, fun s tag code a r hc => ?_,
    fun c s tag d h r h1 h2 hv => ?_⟩
  · rw [exec_carried h, directiveArrival_refused (refusal12_of_busy ((busy_iff s).mpr hb)), settle_send hs]
  · have room : s.busy = false := by
      rw [Bool.eq_false_iff, ne_eq, busy_iff]
      rintro (hl | ⟨e, he, hd⟩)
      · omega
      · exact h2 e he hd
    rw [exec_carried h, directiveArrival_refused (refusal12_of_bad room (.inl (by simpa [State.tagUsed] using h3))),
      settle_send hs]
  · rw [exec_ready rfl r, takeDirective_unknown hc, afterDirective_reporting r]
  · rw [exec_ready h r, takeDirective_assembling h1 h2 hv, afterDirective_reporting r]

/-! ## The finish and what follows it (R192, R193) -/

/-- The finish of the current directive, with nothing pending behind it. -/
theorem finishDirective_alone {u : State} {d : Directive} (o : DirOutcome) (hc : u.win.current = some d)
    (hw : u.win.waiting = none) :
    finishDirective o u = { u with win := { u.win with
      current := none, taken := false, waiting := none, result := { code := d.code, seq := d.args.seq, outcome := o } } } := by
  simp only [finishDirective, hc, hw]

/-- A directive its owner takes and finishes at once. -/
theorem exec_finished {c : Instr} {tag : Tag} {d : Directive} {s u : State} {o : DirOutcome}
    (h : carried c = some (tag, d)) (r : s.Ready tag) (h1 : d.code.toNat ≠ 0) (h2 : d.code.toNat < 16)
    (hv : s.ctl.volume ≠ .assembling) (ht : takeByCode d (s.holding d) = (u, some o)) :
    exec c s = .next (afterDirective tag (finishDirective o u)) := by
  rw [exec_owner h r h1 h2 hv, ht]

/-- A directive its owner takes and finishes at once, having changed no more than the window unit's other parts. -/
theorem exec_window {c : Instr} {tag : Tag} {d : Directive} {s : State} {o : DirOutcome} {w : WindowUnit}
    (h : carried c = some (tag, d)) (r : s.Ready tag) (h1 : d.code.toNat ≠ 0) (h2 : d.code.toNat < 16)
    (hv : s.ctl.volume ≠ .assembling) (ht : takeByCode d (s.holding d) = ({ s.holding d with win := w }, some o))
    (hc : w.current = some d) (hw : w.waiting = none) :
    exec c s = .next (send tag .good none [] { s.reporting d o with
      win := { w with
        current := none, taken := false, waiting := none
        result := { code := d.code, seq := d.args.seq, outcome := o } } }) := by
  rw [exec_finished h r h1 h2 hv ht, finishDirective_alone o hc hw]
  exact congrArg Host.Outcome.next (afterDirective_settled tag
    (settled_aside (s := s) (p := s.pending) (o := s.out) (a := s.port.nextArrival + 1)
      (k := s.integ.capture) (n := s.integ.counts) r.settled (.inl rfl)) rfl)

theorem afterDirective_out {u : State} (tag : Tag) (h : u.win.current = none) :
    ∃ marked, ({ tag := tag, status := .good, failing := none, marker := marked, data := [] } : Completion)
      ∈ (afterDirective tag u).out := by
  have quiet := settle_quiet (s := send tag .good none [] (settleFor (settleBound - 1) u))
    ((settleFor_quiet (settleBound - 1) h).current h)
  exact ⟨_, quiet.out.subset (List.mem_append_right _ (List.mem_singleton_self _))⟩

/-! ## A directive's owner and the window unit (R193, R194) -/

/-- What a directive's owner leaves of the window unit and the tuning values, by the directive's code. -/
structure Owned (d : Directive) (s u : State) : Prop where
  current    : u.win.current = s.win.current
  waiting    : u.win.waiting = s.win.waiting
  overwrites : u.win.overwrites = s.win.overwrites
  selector   : d.code ≠ 1#8 → u.win.selector = s.win.selector
  mask       : d.code ≠ 11#8 → u.win.mask = s.win.mask
  tuning     : d.code ≠ 9#8 → u.ctl.tuning = s.ctl.tuning

theorem Keeps.owned {s u : State} (h : Keeps s u) (d : Directive) : Owned d s u :=
  ⟨by rw [h.window], by rw [h.window], by rw [h.window], fun _ => by rw [h.window], fun _ => by rw [h.window],
    fun _ => h.tuning⟩

theorem takeSetTuning_keeps (a : DirectiveArgs) (s : State) :
    Keeps { s with ctl := { s.ctl with tuning := tunedBy a.tuningMask a.tuning s.ctl.tuning } } (takeSetTuning a s).1 := by
  unfold takeSetTuning
  dsimp only
  split
  · exact reportCounts_keeps (repin_keeps (Keeps.refl _))
  · exact repin_keeps (Keeps.refl _)

theorem takeClearEvents_shelf (a : DirectiveArgs) (s : State) :
    (takeClearEvents a s).1 = { s with
      shelf := (takeClearEvents a s).1.shelf, win := { s.win with events := s.win.events.clearMask a.eventMask } } := by
  unfold takeClearEvents
  dsimp only [done]
  split <;> rfl

theorem takeSelectBay_owned {d : Directive} (h : d.code.toNat = 1) (a : DirectiveArgs) (s : State) :
    Owned d s (takeSelectBay a s).1 := by
  have code : d.code = 1#8 := BitVec.eq_of_toNat_eq h
  unfold takeSelectBay
  split
  · exact ⟨rfl, rfl, rfl, fun hn => absurd code hn, fun _ => rfl, fun _ => rfl⟩
  · exact (Keeps.refl s).owned d

theorem takeByCode_owned (d : Directive) (s : State) : Owned d s (takeByCode d s).1 := by
  have refl := Keeps.refl s
  unfold takeByCode
  split
  case h_1 code => exact takeSelectBay_owned code _ s
  case h_2 => exact (takeStartChain_keeps _ refl).owned d
  case h_3 => exact (takeHoldChain_keeps refl).owned d
  case h_4 => exact (takeReleaseChain_keeps refl).owned d
  case h_5 => exact (takePause_keeps refl).owned d
  case h_6 => exact (takeResume_keeps refl).owned d
  case h_7 => exact (takeDropPlan_keeps refl).owned d
  case h_8 => exact (takeStopChain_keeps refl).owned d
  case h_9 code =>
    have kept := takeSetTuning_keeps d.args s
    exact ⟨by rw [kept.window], by rw [kept.window], by rw [kept.window], fun _ => by rw [kept.window],
      fun _ => by rw [kept.window], fun hn => absurd (BitVec.eq_of_toNat_eq code) hn⟩
  case h_10 =>
    rw [takeClearEvents_shelf]
    exact ⟨rfl, rfl, rfl, fun _ => rfl, fun _ => rfl, fun _ => rfl⟩
  case h_11 code => exact ⟨rfl, rfl, rfl, fun _ => rfl, fun hn => absurd (BitVec.eq_of_toNat_eq code) hn, fun _ => rfl⟩
  case h_12 => exact (takeClearCapture_keeps refl).owned d
  case h_13 => exact (takeFailMember_keeps refl).owned d
  case h_14 => exact (takeKeepRemaps_keeps refl).owned d
  case h_15 => exact (takeClearHalt_keeps refl).owned d
  case h_16 => exact refl.owned d

/-- Every owner but that of KEEP-REMAPS gives an outcome (R155, R192). -/
theorem takeByCode_outcome (d : Directive) (s : State) (h : d.code.toNat ≠ 14) : ∃ o, (takeByCode d s).2 = some o := by
  unfold takeByCode
  split
  case h_1 => unfold takeSelectBay; split <;> exact ⟨_, rfl⟩
  case h_2 => unfold takeStartChain; split <;> [split; skip] <;> exact ⟨_, rfl⟩
  case h_3 => unfold takeHoldChain; split <;> exact ⟨_, rfl⟩
  case h_4 => unfold takeReleaseChain; split <;> [skip; split; skip; skip] <;> exact ⟨_, rfl⟩
  case h_5 => unfold takePause; split <;> exact ⟨_, rfl⟩
  case h_6 => unfold takeResume; split <;> [split; split; skip; skip; skip; skip; skip; skip; skip] <;> exact ⟨_, rfl⟩
  case h_7 => unfold takeDropPlan; split <;> exact ⟨_, rfl⟩
  case h_8 => unfold takeStopChain; split <;> [skip; split] <;> exact ⟨_, rfl⟩
  case h_13 => unfold takeFailMember; dsimp only; split <;> exact ⟨_, rfl⟩
  case h_14 code => exact absurd code h
  case h_15 => unfold takeClearHalt; split <;> exact ⟨_, rfl⟩
  all_goals exact ⟨_, rfl⟩

/-- The state a directive other than KEEP-REMAPS and RESTART leaves: some owner's or a refusal's, with the result record of the
directive. -/
theorem takeDirective_finished {s : State} {d : Directive} (h14 : d.code ≠ 14#8)
    (h16 : d.code ≠ 16#8) :
    ∃ u o, takeDirective d (s.holding d) = finishDirective o u ∧ Owned d (s.holding d) u := by
  by_cases hu : d.code.toNat = 0 ∨ 16 < d.code.toNat
  · exact ⟨_, _, takeDirective_unknown hu, (Keeps.refl _).owned d⟩
  have lt : d.code.toNat < 16 := by
    have : d.code.toNat ≠ 16 := fun e => h16 (BitVec.eq_of_toNat_eq e)
    omega
  by_cases hv : s.ctl.volume = .assembling
  · exact ⟨_, _, takeDirective_assembling (by omega) (by omega) hv, (Keeps.refl _).owned d⟩
  obtain ⟨o, ho⟩ := takeByCode_outcome d (s.holding d) (fun e => h14 (BitVec.eq_of_toNat_eq e))
  refine ⟨(takeByCode d (s.holding d)).1, o, ?_, takeByCode_owned d _⟩
  have owner := takeDirective_owner (s := s.holding d) rfl (by omega) lt hv
  rw [owner]
  rw [show takeByCode d (s.holding d) = ((takeByCode d (s.holding d)).1, some o) from Prod.ext rfl ho]

/-- Settles O20: the owner leaves the slot to the finish, and what follows is `Keeps`. -/
theorem directiveFinishesAtOnce : Obligations.DirectiveFinishesAtOnce := by
  intro c s tag d h r h14 h16
  obtain ⟨u, o, ht, owned⟩ := takeDirective_finished (s := s) h14 h16
  rw [finishDirective_alone o owned.current (owned.waiting.trans r.waiting)] at ht
  refine ⟨_, exec_ready h r, ?_⟩
  have kept := afterDirective_quiet tag (u := takeDirective d (s.holding d)) (by rw [ht])
  rw [kept.window, kept.tuning]
  have sent := afterDirective_out tag (u := takeDirective d (s.holding d)) (by rw [ht])
  rw [ht] at sent ⊢
  exact ⟨rfl, rfl, rfl, rfl, owned.overwrites, owned.selector, owned.mask, owned.tuning, sent⟩

/-! ## How each owner's arm reaches the command (R194) -/

theorem takeByCode_selectBay (a : DirectiveArgs) (s : State) : takeByCode ⟨1#8, a⟩ s = takeSelectBay a s := rfl
theorem takeByCode_startChain (a : DirectiveArgs) (s : State) : takeByCode ⟨2#8, a⟩ s = takeStartChain a s := rfl
theorem takeByCode_holdChain (a : DirectiveArgs) (s : State) : takeByCode ⟨3#8, a⟩ s = takeHoldChain s := rfl
theorem takeByCode_releaseChain (a : DirectiveArgs) (s : State) : takeByCode ⟨4#8, a⟩ s = takeReleaseChain s := rfl
theorem takeByCode_pause (a : DirectiveArgs) (s : State) : takeByCode ⟨5#8, a⟩ s = takePause s := rfl
theorem takeByCode_resume (a : DirectiveArgs) (s : State) : takeByCode ⟨6#8, a⟩ s = takeResume s := rfl
theorem takeByCode_dropPlan (a : DirectiveArgs) (s : State) : takeByCode ⟨7#8, a⟩ s = takeDropPlan s := rfl
theorem takeByCode_stopChain (a : DirectiveArgs) (s : State) : takeByCode ⟨8#8, a⟩ s = takeStopChain s := rfl
theorem takeByCode_setTuning (a : DirectiveArgs) (s : State) : takeByCode ⟨9#8, a⟩ s = takeSetTuning a s := rfl
theorem takeByCode_clearEvents (a : DirectiveArgs) (s : State) : takeByCode ⟨10#8, a⟩ s = takeClearEvents a s := rfl
theorem takeByCode_failMember (a : DirectiveArgs) (s : State) : takeByCode ⟨13#8, a⟩ s = takeFailMember s := rfl
theorem takeByCode_keepRemaps (a : DirectiveArgs) (s : State) : takeByCode ⟨14#8, a⟩ s = takeKeepRemaps s := rfl

section
variable {c : Instr} {tag : Tag} {code : BitVec 8} {a : DirectiveArgs} {s u : State} {o : DirOutcome}

/-- A directive its owner takes and finishes, written out. -/
theorem exec_done (h : carried c = some (tag, ⟨code, a⟩)) (r : s.Ready tag) (hn : code.toNat ≠ 0 ∧ code.toNat < 16)
    (hv : s.ctl.volume ≠ .assembling) (ht : takeByCode ⟨code, a⟩ (s.holding ⟨code, a⟩) = (u, some o))
    (hc : u.win.current = some ⟨code, a⟩) (hw : u.win.waiting = none) :
    exec c s = .next (afterDirective tag { u with win := { u.win with
      current := none, taken := false, waiting := none, result := { code := code, seq := a.seq, outcome := o } } }) := by
  rw [exec_finished h r hn.1 hn.2 hv ht, finishDirective_alone o hc hw]

/-- A directive its owner finishes with nothing changed. -/
theorem exec_unchanged (h : carried c = some (tag, ⟨code, a⟩)) (r : s.Ready tag) (hn : code.toNat ≠ 0 ∧ code.toNat < 16)
    (hv : s.ctl.volume ≠ .assembling)
    (ht : takeByCode ⟨code, a⟩ (s.holding ⟨code, a⟩) = (s.holding ⟨code, a⟩, some o)) :
    exec c s = .next (send tag .good none [] (s.reporting ⟨code, a⟩ o)) :=
  exec_refused h r hn.1 hn.2 hv o ht

end

/-! ### START-CHAIN, HOLD-CHAIN, RELEASE-CHAIN (R100, R113, R114) -/

theorem takeStartChain_taken {a : DirectiveArgs} {s : State}
    (h : s.ctl.state = .idle ∧ (s.plan.status = .ended ∨ s.plan.status = .held)) (hp : a.pointer.toNat ≤ 64) :
    takeStartChain a s = ({ s with plan := { s.plan with
      pointer := a.pointer.toNat, status := .due, hold := false, keepHold := false, beforeFirst := false } }, some .done) := by
  unfold takeStartChain
  rw [if_pos (by simpa using h), if_neg (by omega)]
  rfl

theorem takeStartChain_argument {a : DirectiveArgs} {s : State}
    (h : s.ctl.state = .idle ∧ (s.plan.status = .ended ∨ s.plan.status = .held)) (hp : 64 < a.pointer.toNat) :
    takeStartChain a s = (s, some .refusedArgument) := by
  unfold takeStartChain
  rw [if_pos (by simpa using h), if_pos hp]
  rfl

theorem takeStartChain_state {a : DirectiveArgs} {s : State}
    (h : ¬(s.ctl.state = .idle ∧ (s.plan.status = .ended ∨ s.plan.status = .held))) :
    takeStartChain a s = (s, some .refusedState) := by
  unfold takeStartChain
  rw [if_neg (by simpa using h)]
  rfl

theorem takeHoldChain_active {s : State} (h : s.plan.status = .active) :
    takeHoldChain s = ({ s with plan := { s.plan with hold := true } }, some .done) := by
  unfold takeHoldChain
  rw [h]
  rfl

theorem takeHoldChain_due {s : State} (h : s.plan.status = .due) :
    takeHoldChain s = ({ s with
      plan := { s.plan with
        status := .held, pointer := s.plan.pointer - 1, keepHold := false, beforeFirst := s.plan.pointer == 0 }
      win := { s.win with events := { s.win.events with chainEnd := true } } }, some .done) := by
  unfold takeHoldChain
  rw [h]
  rfl

theorem takeHoldChain_held {s : State} (h : s.plan.status = .held) : takeHoldChain s = (s, some .done) := by
  unfold takeHoldChain
  rw [h]
  rfl

theorem takeHoldChain_ended {s : State} (h : s.plan.status = .ended) : takeHoldChain s = (s, some .refusedState) := by
  unfold takeHoldChain
  rw [h]
  rfl

theorem takeReleaseChain_held {s : State} (h : s.plan.status = .held) :
    takeReleaseChain s = ({ s with plan := { s.plan with
      pointer := if s.plan.beforeFirst then s.plan.pointer else s.plan.pointer + 1, status := .due,
      beforeFirst := false } }, some .done) := by
  unfold takeReleaseChain
  rw [h]
  rfl

theorem takeReleaseChain_active {s : State} (h : s.plan.status = .active) (hh : s.plan.hold = true) :
    takeReleaseChain s = ({ s with plan := { s.plan with hold := false } }, some .done) := by
  unfold takeReleaseChain
  rw [h]
  exact if_pos hh

theorem takeReleaseChain_refused {s : State}
    (h : (s.plan.status = .active ∧ s.plan.hold = false) ∨ s.plan.status = .due ∨ s.plan.status = .ended) :
    takeReleaseChain s = (s, some .refusedState) := by
  unfold takeReleaseChain
  rcases h with ⟨h, hh⟩ | h | h <;> rw [h]
  · exact if_neg (by simp [hh])
  · rfl
  · rfl

/-- Settles O22: arm by arm of the three owners. -/
theorem chainDirectives : Obligations.ChainDirectives := by
  refine ⟨fun s tag a r hv => ?_, fun s tag a r hv => ?_, fun s tag a r hv => ?_⟩
  · have owner := takeByCode_startChain a (s.holding ⟨2#8, a⟩)
    refine ⟨fun h => ⟨fun hp => ?_, fun hp => ?_⟩, fun h => ?_⟩
    · have done := exec_done (c := .startChain tag a) rfl r (by decide) hv
        (owner.trans (takeStartChain_taken (s := s.holding ⟨2#8, a⟩) h hp)) rfl r.waiting
      exact done
    · exact exec_unchanged rfl r (by decide) hv (owner.trans (takeStartChain_argument (s := s.holding ⟨2#8, a⟩) h hp))
    · exact exec_unchanged rfl r (by decide) hv (owner.trans (takeStartChain_state (s := s.holding ⟨2#8, a⟩) h))
  · have owner := takeByCode_holdChain a (s.holding ⟨3#8, a⟩)
    cases hs : s.plan.status with
    | active =>
      have done := exec_done (c := .holdChain tag a) rfl r (by decide) hv
        (owner.trans (takeHoldChain_active (s := s.holding ⟨3#8, a⟩) hs)) rfl r.waiting
      exact done
    | due =>
      have done := exec_done (c := .holdChain tag a) rfl r (by decide) hv
        (owner.trans (takeHoldChain_due (s := s.holding ⟨3#8, a⟩) hs)) rfl r.waiting
      exact done
    | held => exact exec_unchanged rfl r (by decide) hv (owner.trans (takeHoldChain_held (s := s.holding ⟨3#8, a⟩) hs))
    | ended => exact exec_unchanged rfl r (by decide) hv (owner.trans (takeHoldChain_ended (s := s.holding ⟨3#8, a⟩) hs))
  · have owner := takeByCode_releaseChain a (s.holding ⟨4#8, a⟩)
    have refused (h : (s.plan.status = .active ∧ s.plan.hold = false) ∨ s.plan.status = .due ∨ s.plan.status = .ended) :
        exec (.releaseChain tag a) s = .next (send tag .good none [] (s.reporting ⟨4#8, a⟩ .refusedState)) :=
      exec_unchanged rfl r (by decide) hv (owner.trans (takeReleaseChain_refused (s := s.holding ⟨4#8, a⟩) h))
    cases hs : s.plan.status with
    | held =>
      have done := exec_done (c := .releaseChain tag a) rfl r (by decide) hv
        (owner.trans (takeReleaseChain_held (s := s.holding ⟨4#8, a⟩) hs)) rfl r.waiting
      exact done
    | due => exact refused (.inr (.inl hs))
    | ended => exact refused (.inr (.inr hs))
    | active =>
      cases hh : s.plan.hold with
      | true =>
        have done := exec_done (c := .releaseChain tag a) rfl r (by decide) hv
          (owner.trans (takeReleaseChain_active (s := s.holding ⟨4#8, a⟩) hs hh)) rfl r.waiting
        exact done
      | false => exact refused (.inl ⟨hs, hh⟩)

/-! ### The selected bay's directives (R133, R155, R195) -/

theorem takeSelectBay_slot {a : DirectiveArgs} (s : State) (h : a.bay.toNat < 64) :
    takeSelectBay a s = ({ s with win := { s.win with selector := ⟨a.bay.toNat, h⟩ } }, some .done) := by
  unfold takeSelectBay
  rw [dif_pos h]
  rfl

theorem takeSelectBay_argument {a : DirectiveArgs} (s : State) (h : ¬a.bay.toNat < 64) :
    takeSelectBay a s = (s, some .refusedArgument) := by
  unfold takeSelectBay
  rw [dif_neg h]
  rfl

theorem takeFailMember_taken {s : State}
    (h : (s.bay s.win.selector).role = .member ∨ (s.bay s.win.selector).role = .joining) :
    takeFailMember s = (failBay s.win.selector s, some .done) := by
  unfold takeFailMember
  exact if_pos (by simpa using h)

theorem takeFailMember_refused {s : State}
    (h : (s.bay s.win.selector).role ≠ .member ∧ (s.bay s.win.selector).role ≠ .joining) :
    takeFailMember s = (s, some .refusedArgument) := by
  unfold takeFailMember
  exact if_neg (by simpa using h)

theorem takeKeepRemaps_halted {s : State} (h : s.ctl.state = .halted ∧ s.ctl.cause = .recoveryFailed) :
    takeKeepRemaps s = (s, some .refusedState) := by
  unfold takeKeepRemaps
  exact if_pos (by simpa using h)

theorem takeKeepRemaps_taken {s : State} (h : ¬(s.ctl.state = .halted ∧ s.ctl.cause = .recoveryFailed))
    (hk : ((s.bay s.win.selector).role = .member ∨ (s.bay s.win.selector).role = .joining)
      ∧ s.hardAfter s.win.selector ≤ 256) :
    takeKeepRemaps s = (raiseCause (.remaps s.win.selector) s, none) := by
  unfold takeKeepRemaps
  dsimp only
  rw [if_neg (by simpa using h), if_pos]
  rw [Bool.and_eq_true, decide_eq_true_eq]
  exact ⟨by simpa using hk.1, hk.2⟩

theorem takeKeepRemaps_refused {s : State} (h : ¬(s.ctl.state = .halted ∧ s.ctl.cause = .recoveryFailed))
    (hk : ¬(((s.bay s.win.selector).role = .member ∨ (s.bay s.win.selector).role = .joining)
      ∧ s.hardAfter s.win.selector ≤ 256)) :
    takeKeepRemaps s = (s, some .refusedArgument) := by
  unfold takeKeepRemaps
  dsimp only
  rw [if_neg (by simpa using h), if_neg]
  · rfl
  rw [Bool.and_eq_true, decide_eq_true_eq]
  exact fun hx => hk ⟨by simpa using hx.1, hx.2⟩

/-- Settles O21: arm by arm of the three owners; what a failure of the bay leaves is `failBay_frame`. -/
theorem selectedBayDirectives : Obligations.SelectedBayDirectives := by
  refine ⟨fun s tag a r hv => ?_, fun s tag a r hv => ⟨fun h => ?_, fun h => ?_⟩, fun s tag a r hv => ?_⟩
  · have owner := takeByCode_selectBay a (s.holding ⟨1#8, a⟩)
    by_cases h : a.bay.toNat < 64
    · rw [dif_pos h]
      have done := exec_window (c := .selectBay tag a) rfl r (show (1#8).toNat ≠ 0 by decide)
        (show (1#8).toNat < 16 by decide) hv (owner.trans (takeSelectBay_slot _ h)) rfl r.waiting
      exact done
    · rw [dif_neg h]
      exact exec_unchanged rfl r (by decide) hv (owner.trans (takeSelectBay_argument _ h))
  · obtain ⟨f, failed⟩ : ∃ f, failBay s.win.selector (s.holding ⟨13#8, a⟩) = f := ⟨_, rfl⟩
    obtain ⟨out, shelf, lost, -⟩ := failBay_frame (i := s.win.selector) (s := s.holding ⟨13#8, a⟩) h
    have owned := (failBay_keeps s.win.selector (Keeps.refl (s.holding ⟨13#8, a⟩))).owned ⟨13#8, a⟩
    rw [failed] at out shelf lost owned
    obtain ⟨bay, others⟩ := bay_upd shelf
    have arm := (takeByCode_failMember a (s.holding ⟨13#8, a⟩)).trans
      ((takeFailMember_taken (s := s.holding ⟨13#8, a⟩) h).trans (congrArg (·, some DirOutcome.done) failed))
    have done := exec_done (c := .failMember tag a) rfl r (by decide) hv arm owned.current (owned.waiting.trans r.waiting)
    exact ⟨_, done, bay, others, lost, rfl, rfl, out, owned.tuning (show (13#8 : BitVec 8) ≠ 9#8 by decide)⟩
  · exact exec_unchanged rfl r (by decide) hv
      ((takeByCode_failMember a _).trans (takeFailMember_refused (s := s.holding ⟨13#8, a⟩) h))
  · have owner := takeByCode_keepRemaps a (s.holding ⟨14#8, a⟩)
    refine ⟨fun h => ?_, fun h => ⟨fun hk => ?_, fun hk => ?_⟩⟩
    · exact exec_unchanged rfl r (by decide) hv (owner.trans (takeKeepRemaps_halted (s := s.holding ⟨14#8, a⟩) h))
    · rw [exec_owner (c := .keepRemaps tag a) rfl r (show (14#8).toNat ≠ 0 by decide) (show (14#8).toNat < 16 by decide) hv,
        owner.trans (takeKeepRemaps_taken (s := s.holding ⟨14#8, a⟩) h hk)]
      rfl
    · exact exec_unchanged rfl r (by decide) hv (owner.trans (takeKeepRemaps_refused (s := s.holding ⟨14#8, a⟩) h hk))

end Sys2Proof.Machine
end

