-- ==== Sys2Proof/Proofs/EngineDirectives.lean ====
section
/-! PROOFS. The directives of engine control and of the window's values: PAUSE, RESUME, DROP-PLAN, STOP-CHAIN, SET-TUNING,
CLEAR-EVENTS (R115 to R117, R159, R160, R165, R196, R198). -/

namespace Sys2Proof.Machine

/-! ## A step given up in GATHER (R71) -/

theorem mem_steps_setStep {g : Staging} {t : Step} {s : State} {p : Staging × Step} (h : p ∈ (setStep g (some t) s).steps) :
    p = (g, t) ∨ (p ∈ s.steps ∧ p.1 ≠ g) := by
  simp only [State.steps, List.mem_append, Option.mem_toList] at h ⊢
  cases g <;> simp only [setStep, Option.map_some, Option.some.injEq] at h
  · obtain rfl | h := h
    · exact .inl rfl
    · obtain ⟨u, hu, rfl⟩ := Option.map_eq_some_iff.mp h
      exact .inr ⟨.inr h, by simp⟩
  · obtain h | rfl := h
    · obtain ⟨u, hu, rfl⟩ := Option.map_eq_some_iff.mp h
      exact .inr ⟨.inl h, by simp⟩
    · exact .inl rfl

theorem foldl_abandonStep_steps (l : List (Staging × Step)) : ∀ s : State,
    (∀ p ∈ s.steps, p.2.stage = .gather → p ∈ l) →
    ∀ p ∈ (l.foldl (fun s p => abandonStep p.1 p.2 s) s).steps, p.2.stage ≠ .gather := by
  induction l with
  | nil => exact fun s h p hp hg => absurd (h p hp hg) List.not_mem_nil
  | cons q l ih =>
    intro s h
    refine ih _ fun p hp hg => ?_
    have left : (abandonStep q.1 q.2 s).steps = (setStep q.1 (some q.2.abandon) s).steps := by
      simp only [State.steps, (abandonStep_fr q.1 q.2 s).2]
    rw [left] at hp
    obtain rfl | ⟨old, hne⟩ := mem_steps_setStep hp
    · cases hg
    · exact (List.mem_cons.mp (h p old hg)).resolve_left (fun e => hne (congrArg Prod.fst e))

theorem abandonGather_steps (s : State) : ∀ p ∈ (abandonGather s).steps, p.2.stage ≠ .gather :=
  foldl_abandonStep_steps _ s fun p hp hg => List.mem_filter.mpr ⟨hp, by simp [hg]⟩

theorem abandonGather_none {s : State} (h : ∀ p ∈ s.steps, p.2.stage ≠ .gather) : abandonGather s = s := by
  have none : s.steps.filter (fun p => p.2.stage == .gather) = [] :=
    List.filter_eq_nil_iff.mpr fun p hp hg => h p hp (by simpa using hg)
  rw [abandonGather, none]
  rfl

theorem abandonGather_win (s : State) : (abandonGather s).win = s.win := by
  unfold abandonGather
  generalize s.steps.filter _ = l
  induction l generalizing s with
  | nil => rfl
  | cons p l ih => exact (ih _).trans (abandonStep_fr p.1 p.2 s).1.win

/-! ## PAUSE (R159, R167, R72) -/

theorem pauseEffect_asked {s : State} (h : s.ctl.state = .running ∨ s.ctl.state = .settling) (hp : s.ctl.pauseRequest = true) :
    pauseEffect s = some s := by
  unfold pauseEffect
  obtain h | h := h <;> rw [h] <;> exact if_pos hp

theorem pauseEffect_moving {s : State} (h : s.ctl.state = .running ∨ s.ctl.state = .settling)
    (hp : s.ctl.pauseRequest = false) :
    pauseEffect s = some (abandonGather { s with ctl := { s.ctl with pauseRequest := true } }) := by
  unfold pauseEffect
  obtain h | h := h <;> rw [h] <;> exact if_neg (by simp [hp])

theorem pauseEffect_still {s : State} (h : s.ctl.state = .running ∨ s.ctl.state = .settling)
    (hp : s.ctl.pauseRequest = false) (hg : ∀ p ∈ s.steps, p.2.stage ≠ .gather) :
    pauseEffect s = some { s with ctl := { s.ctl with pauseRequest := true } } :=
  (pauseEffect_moving h hp).trans (congrArg some (abandonGather_none hg))

theorem pauseEffect_saved {s : State} {e : EngineState} (h : s.ctl.state = .suspended) (hs : s.ctl.saved = some e)
    (he : e = .running ∨ e = .settling) :
    pauseEffect s = some { s with ctl := { s.ctl with saved := some .paused, pausedFrom := some e } } := by
  unfold pauseEffect
  obtain rfl | rfl := he <;> rw [h, hs]

theorem pauseEffect_paused {s : State} (h : s.ctl.state = .suspended) (hs : s.ctl.saved = some .paused) :
    pauseEffect s = some s := by
  unfold pauseEffect
  rw [h, hs]

theorem pauseEffect_suspended {s : State} (h : s.ctl.state = .suspended)
    (hs : s.ctl.saved ≠ some .running ∧ s.ctl.saved ≠ some .settling ∧ s.ctl.saved ≠ some .paused) :
    pauseEffect s = none := by
  obtain ⟨running, settling, paused⟩ := hs
  unfold pauseEffect
  rw [h]
  dsimp only
  split <;> simp_all

theorem pauseEffect_none {s : State}
    (h : s.ctl.state ≠ .running ∧ s.ctl.state ≠ .settling ∧ s.ctl.state ≠ .suspended) : pauseEffect s = none := by
  obtain ⟨running, settling, suspended⟩ := h
  unfold pauseEffect
  split
  · exact absurd ‹_› running
  · exact absurd ‹_› settling
  · exact absurd ‹_› suspended
  all_goals rfl

theorem takePause_some {s u : State} (h : pauseEffect s = some u) : takePause s = (u, some .done) := by
  unfold takePause
  rw [h]
  rfl

theorem takePause_none {s : State} (h : pauseEffect s = none) : takePause s = (s, some .refusedState) := by
  unfold takePause
  rw [h]
  rfl

theorem exec_pause {s u : State} {tag : Tag} {a : DirectiveArgs} (r : s.Ready tag) (hv : s.ctl.volume ≠ .assembling)
    (h : pauseEffect (s.holding ⟨5#8, a⟩) = some u) (hw : u.win = (s.holding ⟨5#8, a⟩).win) :
    exec (.pause tag a) s = .next (afterDirective tag { u with win := (s.reporting ⟨5#8, a⟩ .done).win }) := by
  have done := exec_done (c := .pause tag a) rfl r (by decide) hv
    ((takeByCode_pause a (s.holding ⟨5#8, a⟩)).trans (takePause_some h)) (by rw [hw]; rfl) (by rw [hw]; exact r.waiting)
  rw [done, hw]
  rfl

/-- PAUSE with no effect. -/
theorem exec_pause_idle {s : State} {tag : Tag} {a : DirectiveArgs} (r : s.Ready tag) (hv : s.ctl.volume ≠ .assembling)
    (h : pauseEffect (s.holding ⟨5#8, a⟩) = some (s.holding ⟨5#8, a⟩)) :
    exec (.pause tag a) s = .next (send tag .good none [] (s.reporting ⟨5#8, a⟩ .done)) :=
  exec_unchanged rfl r (by decide) hv ((takeByCode_pause a (s.holding ⟨5#8, a⟩)).trans (takePause_some h))

theorem exec_pause_refused {s : State} {tag : Tag} {a : DirectiveArgs} (r : s.Ready tag) (hv : s.ctl.volume ≠ .assembling)
    (h : pauseEffect (s.holding ⟨5#8, a⟩) = none) :
    exec (.pause tag a) s = .next (send tag .good none [] (s.reporting ⟨5#8, a⟩ .refusedState)) :=
  exec_unchanged rfl r (by decide) hv ((takeByCode_pause a (s.holding ⟨5#8, a⟩)).trans (takePause_none h))

/-! ## RESUME (R160, R165) -/

theorem overTolerance_iff (s : State) : s.overTolerance = true ↔ ∃ l ∈ s.plan.layouts, s.tolerance < s.missingCount l := by
  simp [State.overTolerance, State.counts]

theorem within_tolerance {s : State} (h : ∀ l ∈ s.plan.layouts, s.missingCount l ≤ s.tolerance) :
    s.overTolerance = false := by
  rw [Bool.eq_false_iff, ne_eq, overTolerance_iff]
  rintro ⟨l, hl, lt⟩
  exact absurd (h l hl) (by omega)

theorem takeResume_paused {s : State} {e : EngineState} (h : s.ctl.state = .paused) (hf : s.ctl.faultPending = false)
    (he : s.ctl.pausedFrom = some e) :
    takeResume s = ({ s with ctl := { s.ctl with state := e, pausedFrom := none } }, some .done) := by
  unfold takeResume
  rw [h]
  dsimp only
  rw [if_neg (by simp [hf]), he]
  rfl

theorem takeResume_saved {s : State} {e : EngineState} (h : s.ctl.state = .suspended)
    (hl : ∀ l ∈ s.plan.layouts, s.missingCount l ≤ s.tolerance) (he : s.ctl.saved = some e)
    (hn : ¬(s.plan.incomingLost = true ∧ s.plan.stage = .working)) :
    takeResume s = ({ s with ctl := { s.ctl with state := e, saved := none, latch := false } }, some .done) := by
  have lost : (s.plan.incomingLost && s.plan.stage == .working) = false := by
    rw [Bool.eq_false_iff]
    simpa using hn
  unfold takeResume
  rw [h]
  dsimp only
  rw [if_neg (by simp [within_tolerance hl]), leaveSuspended, lost, he]
  rfl

theorem takeResume_lost {s : State} (h : s.ctl.state = .suspended)
    (hl : ∀ l ∈ s.plan.layouts, s.missingCount l ≤ s.tolerance) (hi : s.plan.incomingLost = true)
    (hw : s.plan.stage = .working) :
    takeResume s = ({ s with
      ctl := { s.ctl with state := .closing, saved := none, latch := false, pausedFrom := none } }, some .done) := by
  have lost : (s.plan.incomingLost && s.plan.stage == .working) = true := by simp [hi, hw]
  unfold takeResume
  rw [h]
  dsimp only
  rw [if_neg (by simp [within_tolerance hl]), leaveSuspended, lost]
  rfl

theorem takeResume_refused {s : State}
    (h : (s.ctl.state = .paused ∧ s.ctl.faultPending = true)
      ∨ (s.ctl.state = .suspended ∧ ∃ l ∈ s.plan.layouts, s.tolerance < s.missingCount l)
      ∨ (s.ctl.state ≠ .paused ∧ s.ctl.state ≠ .suspended)) :
    takeResume s = (s, some .refusedState) := by
  unfold takeResume
  obtain ⟨h, hf⟩ | ⟨h, hl⟩ | ⟨hp, hs⟩ := h
  · rw [h]
    exact if_pos hf
  · rw [h]
    exact if_pos ((overTolerance_iff s).mpr hl)
  · split
    · exact absurd ‹_› hp
    · exact absurd ‹_› hs
    all_goals rfl

/-- Settles O23: arm by arm of the two owners; a PAUSE that gives a step up leaves what `abandonGather` leaves. -/
theorem pauseAndResume : Obligations.PauseAndResume := by
  refine ⟨fun s tag a r hv => ⟨fun h => ⟨fun hp => ?_, fun hp hg => ?_, fun hp => ?_⟩,
    fun h => ⟨fun e he hm => ?_, fun hs => ?_, fun hs => ?_⟩, fun h => ?_⟩, fun s tag a r hv => ?_⟩
  · exact exec_pause_idle r hv (pauseEffect_asked (s := s.holding ⟨5#8, a⟩) h hp)
  · have done := exec_pause r hv (pauseEffect_still (s := s.holding ⟨5#8, a⟩) h hp hg) rfl
    exact done
  · have moved := pauseEffect_moving (s := s.holding ⟨5#8, a⟩) h hp
    obtain ⟨g, given⟩ : ∃ g, abandonGather { s.holding ⟨5#8, a⟩ with ctl := { s.ctl with pauseRequest := true } } = g := ⟨_, rfl⟩
    have win := abandonGather_win { s.holding ⟨5#8, a⟩ with ctl := { s.ctl with pauseRequest := true } }
    have ctl := abandonGather_state { s.holding ⟨5#8, a⟩ with ctl := { s.ctl with pauseRequest := true } }
    have steps := abandonGather_steps { s.holding ⟨5#8, a⟩ with ctl := { s.ctl with pauseRequest := true } }
    have rest := abandonGather_fo { s.holding ⟨5#8, a⟩ with ctl := { s.ctl with pauseRequest := true } }
    rw [given] at win ctl steps rest
    exact ⟨_, exec_pause r hv (moved.trans (congrArg some given)) win, ctl, steps, rfl, rest.out, rest.shelf⟩
  · have done := exec_pause r hv (pauseEffect_saved (s := s.holding ⟨5#8, a⟩) h he hm) rfl
    exact done
  · exact exec_pause_idle r hv (pauseEffect_paused (s := s.holding ⟨5#8, a⟩) h hs)
  · exact exec_pause_refused r hv (pauseEffect_suspended (s := s.holding ⟨5#8, a⟩) h hs)
  · exact exec_pause_refused r hv (pauseEffect_none (s := s.holding ⟨5#8, a⟩) h)
  · have owner := takeByCode_resume a (s.holding ⟨6#8, a⟩)
    refine ⟨fun e h hf he => ?_, fun e h hl he hn => ?_, fun h hl hi hw => ?_, fun h => ?_⟩
    · have done := exec_done (c := .resume tag a) rfl r (by decide) hv
        (owner.trans (takeResume_paused (s := s.holding ⟨6#8, a⟩) h hf he)) rfl r.waiting
      exact done
    · have done := exec_done (c := .resume tag a) rfl r (by decide) hv
        (owner.trans (takeResume_saved (s := s.holding ⟨6#8, a⟩) h hl he hn)) rfl r.waiting
      exact done
    · have done := exec_done (c := .resume tag a) rfl r (by decide) hv
        (owner.trans (takeResume_lost (s := s.holding ⟨6#8, a⟩) h hl hi hw)) rfl r.waiting
      exact done
    · exact exec_unchanged rfl r (by decide) hv (owner.trans (takeResume_refused (s := s.holding ⟨6#8, a⟩) h))

/-! ## DROP-PLAN and STOP-CHAIN (R115, R117) -/

theorem mayDrop_iff (s : State) : s.mayDrop = true ↔
    s.ctl.state = .waiting ∨ s.ctl.state = .preparing
      ∨ ((s.ctl.state = .running ∨ s.ctl.state = .paused) ∧ s.mark.state = .initial)
      ∨ (s.ctl.state = .suspended ∧ s.plan.active ≠ none ∧ (s.plan.stage = .waiting ∨ s.mark.state = .initial)) := by
  unfold State.mayDrop
  cases s.ctl.state <;> simp [Option.isSome_iff_ne_none]

theorem takeDropPlan_taken {s : State} (h : s.mayDrop = true) :
    takeDropPlan s = ({ s with plan := { s.plan with dropAsked := true } }, some .done) := by
  unfold takeDropPlan
  exact if_pos h

theorem takeDropPlan_refused {s : State} (h : ¬s.mayDrop = true) : takeDropPlan s = (s, some .refusedState) := by
  unfold takeDropPlan
  exact if_neg h

theorem takeStopChain_drop {s : State} (h : s.mayDrop = true) :
    takeStopChain s = ({ s with plan := { s.plan with endChain := true, dropAsked := true } }, some .done) := by
  unfold takeStopChain
  exact if_pos h

theorem takeStopChain_active {s : State} (h : s.mayDrop = false) (ha : s.plan.status = .active) :
    takeStopChain s = ((pauseEffect (holdActive s)).getD (holdActive s), some .done) := by
  unfold takeStopChain
  rw [if_neg (by simp [h]), ha]
  rfl

theorem takeStopChain_waiting {s : State} (h : s.mayDrop = false) (ha : s.plan.status = .due ∨ s.plan.status = .held) :
    takeStopChain s = ({ s with
      plan := { s.plan with status := .ended, hold := false, keepHold := false, beforeFirst := false }
      win := { s.win with events := { s.win.events with chainEnd := true } } }, some .done) := by
  unfold takeStopChain
  rw [if_neg (by simp [h])]
  obtain ha | ha := ha <;> rw [ha] <;> rfl

theorem takeStopChain_ended {s : State} (h : s.mayDrop = false) (ha : s.plan.status = .ended) :
    takeStopChain s = (s, some .refusedState) := by
  unfold takeStopChain
  rw [if_neg (by simp [h]), ha]
  rfl

/-- Settles O24: arm by arm of the two owners. -/
theorem dropAndStop : Obligations.DropAndStop := by
  refine ⟨fun s tag a r hv => ?_, fun s tag a r hv => ?_⟩
  · have owner := takeByCode_dropPlan a (s.holding ⟨7#8, a⟩)
    refine ⟨fun h => ?_, fun h => ?_⟩
    · have may : (s.holding ⟨7#8, a⟩).mayDrop = true := (mayDrop_iff _).mpr h
      have done := exec_done (c := .dropPlan tag a) rfl r (by decide) hv (owner.trans (takeDropPlan_taken may)) rfl r.waiting
      exact done
    · have may : ¬(s.holding ⟨7#8, a⟩).mayDrop = true := fun e => h ((mayDrop_iff _).mp e)
      exact exec_unchanged rfl r (by decide) hv (owner.trans (takeDropPlan_refused may))
  · have owner := takeByCode_stopChain a (s.holding ⟨8#8, a⟩)
    refine ⟨fun h => ?_, fun h => ⟨fun ha hs hp hg => ?_, fun ha hs => ?_, fun ha => ?_, fun ha => ?_, fun ha => ?_⟩⟩
    · have done := exec_done (c := .stopChain tag a) rfl r (by decide) hv
        (owner.trans (takeStopChain_drop (s := s.holding ⟨8#8, a⟩) h)) rfl r.waiting
      exact done
    · have arm := takeStopChain_active (s := s.holding ⟨8#8, a⟩) h ha
      rw [pauseEffect_still (s := holdActive (s.holding ⟨8#8, a⟩)) (.inl hs) hp hg] at arm
      have done := exec_done (c := .stopChain tag a) rfl r (by decide) hv (owner.trans arm) rfl r.waiting
      exact done
    · have refused : pauseEffect (holdActive (s.holding ⟨8#8, a⟩)) = none := by
        refine pauseEffect_none (s := holdActive (s.holding ⟨8#8, a⟩)) ?_
        show s.ctl.state ≠ _ ∧ s.ctl.state ≠ _ ∧ s.ctl.state ≠ _
        obtain hs | hs | hs | hs := hs <;> rw [hs] <;> decide
      have arm := takeStopChain_active (s := s.holding ⟨8#8, a⟩) h ha
      rw [refused] at arm
      have done := exec_done (c := .stopChain tag a) rfl r (by decide) hv (owner.trans arm) rfl r.waiting
      exact done
    · exact exec_finished (c := .stopChain tag a) rfl r (show (8#8).toNat ≠ 0 by decide) (show (8#8).toNat < 16 by decide) hv
        (owner.trans (takeStopChain_active (s := s.holding ⟨8#8, a⟩) h ha))
    · have done := exec_done (c := .stopChain tag a) rfl r (by decide) hv
        (owner.trans (takeStopChain_waiting (s := s.holding ⟨8#8, a⟩) h ha)) rfl r.waiting
      exact done
    · exact exec_unchanged rfl r (by decide) hv (owner.trans (takeStopChain_ended (s := s.holding ⟨8#8, a⟩) h ha))

/-! ## SET-TUNING (R196) -/

theorem clampSwitch_eq (v : BitVec 8) : clampSwitch v = decide (1 ≤ v.toNat) := by
  rw [clampSwitch, Bool.eq_iff_iff, bne_iff_ne, decide_eq_true_eq]
  omega

theorem countClamped_iff (top : Nat) (v : BitVec 8) : countClamped top v = true ↔ v.toNat = 0 ∨ top < v.toNat := by
  simp [countClamped]

theorem switchClamped_iff (v : BitVec 8) : switchClamped v = true ↔ 1 < v.toNat := by simp [switchClamped]

theorem tuningAdjusted_iff (m : BitVec 16) (v : TuningBytes) : tuningAdjusted m v = true ↔
    (m.getLsbD 0 = true ∧ (v.stepRows.toNat = 0 ∨ 16 < v.stepRows.toNat))
      ∨ (m.getLsbD 1 = true ∧ (v.pace.toNat = 0 ∨ 16 < v.pace.toNat))
      ∨ (m.getLsbD 2 = true ∧ (v.markInterval.toNat = 0 ∨ 64 < v.markInterval.toNat))
      ∨ (m.getLsbD 3 = true ∧ (v.stainLimit.toNat = 0 ∨ 7 < v.stainLimit.toNat))
      ∨ (m.getLsbD 4 = true ∧ 1 < v.captureMode.toNat)
      ∨ (m.getLsbD 5 = true ∧ 1 < v.degradedContinue.toNat)
      ∨ (m.getLsbD 6 = true ∧ 1 < v.linkResetRestart.toNat) := by
  simp only [tuningAdjusted, Bool.or_eq_true, Bool.and_eq_true, countClamped_iff, switchClamped_iff, or_assoc]

theorem takeSetTuning_outcome (a : DirectiveArgs) (s : State) :
    takeSetTuning a s = ((takeSetTuning a s).1, some (if tuningAdjusted a.tuningMask a.tuning then .adjusted else .done)) := rfl

/-- Settles O25: the owner puts `tunedBy` in force, and what follows it and the finish is `Keeps`. -/
theorem setTuningClamps : Obligations.SetTuningClamps := by
  intro s tag a r hv m v old
  obtain ⟨u, hu⟩ : ∃ u, (takeSetTuning a (s.holding ⟨9#8, a⟩)).1 = u := ⟨_, rfl⟩
  have arm := takeSetTuning_outcome a (s.holding ⟨9#8, a⟩)
  have kept := takeSetTuning_keeps a (s.holding ⟨9#8, a⟩)
  rw [hu] at arm kept
  have done := exec_done (c := .setTuning tag a) rfl r (by decide) hv ((takeByCode_setTuning a _).trans arm)
    (by rw [kept.window]; rfl) (by rw [kept.window]; exact r.waiting)
  obtain ⟨f, hf⟩ : ∃ f : State, { u with win := { u.win with
      current := none, taken := false, waiting := none
      result := { code := 9#8, seq := a.seq,
                  outcome := if tuningAdjusted a.tuningMask a.tuning then .adjusted else .done } } } = f := ⟨_, rfl⟩
  have after := afterDirective_quiet tag (u := f) (by rw [← hf])
  have sent := afterDirective_out tag (u := f) (by rw [← hf])
  rw [hf] at done
  have outcome : f.win.result.outcome = if tuningAdjusted a.tuningMask a.tuning then .adjusted else .done := by rw [← hf]
  refine ⟨_, done, ?_, ?_, ?_, ?_, ?_, ?_, ?_, ?_, ?_, ?_, ?_, sent⟩
  · rw [after.tuning, ← hf, kept.tuning]
    simp only [tunedBy, clampCount, clampSwitch_eq]
    rfl
  · rw [after.window, ← hf]
  · rw [after.window, ← hf]
  · rw [after.window, outcome]
    split <;> simp
  · rw [after.window, outcome, ← tuningAdjusted_iff]
    split
    · exact iff_of_true rfl ‹_›
    · exact iff_of_false (by decide) ‹_›
  · rw [after.window, ← hf]
  · rw [after.window, ← hf]
  · rw [after.window, ← hf, kept.window]
    rfl
  · rw [after.window, ← hf, kept.window]
    rfl
  · rw [after.window, ← hf, kept.window]
    rfl
  · rw [after.pending, ← hf, kept.pending]
    rfl

/-! ## CLEAR-EVENTS (R125, R198) -/

theorem has_clearMask (f : Events) (m : BitVec 16) (e : Event) : (f.clearMask m).has e = (f.has e && !m.getLsbD e.index) := by
  cases e <;> rfl

theorem takeClearEvents_flags {a : DirectiveArgs} {s : State} (h : a.eventMask.getLsbD 1 = false) :
    takeClearEvents a s = ({ s with win := { s.win with events := s.win.events.clearMask a.eventMask } }, some .done) := by
  unfold takeClearEvents
  dsimp only
  rw [if_neg (by rw [h]; decide)]
  rfl

theorem takeClearEvents_references {a : DirectiveArgs} {s : State} (h : a.eventMask.getLsbD 1 = true) :
    takeClearEvents a s = ({ s with
      win := { s.win with events := s.win.events.clearMask a.eventMask }
      shelf := (takeReferences s).shelf }, some .done) := by
  unfold takeClearEvents
  dsimp only
  rw [if_pos h]
  rfl

/-- Settles O26: with SHELF_CHANGE unnamed only the window unit changes, else the references too. -/
theorem clearEventsByMask : Obligations.ClearEventsByMask := by
  intro s tag a r hv u
  have owner := takeByCode_clearEvents a (s.holding ⟨10#8, a⟩)
  refine ⟨has_clearMask _ _, fun h => ?_, fun h => ?_⟩
  · have done := exec_window (c := .clearEvents tag a) rfl r (show (10#8).toNat ≠ 0 by decide)
      (show (10#8).toNat < 16 by decide) hv (owner.trans (takeClearEvents_flags h)) rfl r.waiting
    exact done
  · have done := exec_done (c := .clearEvents tag a) rfl r (by decide) hv
      (owner.trans (takeClearEvents_references h)) rfl r.waiting
    exact ⟨_, done, rfl, rfl, fun i => updAllBays_bay _ _ i⟩

end Sys2Proof.Machine
end

