-- ==== Sys2Proof/Proofs/AddressMap.lean ====
section
/-! PROOFS. The address map, its inverse, and the arithmetic of growth steps (R5, R6, R8, R15 to R17). -/

namespace Sys2Proof.Machine

/-! ## The parity position and the data indices (R5, R8) -/

theorem Layout.parity_lt {l : Layout} (h : 2 ≤ l.n) (row : Nat) : l.parity row < l.n := by
  unfold Layout.parity
  omega

theorem Layout.parity_add_n (l : Layout) (row : Nat) : l.parity (row + l.n) = l.parity row := by
  unfold Layout.parity
  rw [Nat.add_mod_right]

theorem Layout.parity_succ {l : Layout} (h : 2 ≤ l.n) (row : Nat) :
    l.parity (row + 1) = if l.parity row = 0 then l.n - 1 else l.parity row - 1 := by
  have lt : row % l.n < l.n := Nat.mod_lt _ (by omega)
  have next : (row + 1) % l.n = if l.n ≤ row % l.n + 1 then row % l.n + 1 - l.n else row % l.n + 1 := by
    rw [Nat.add_mod_eq_ite, Nat.mod_eq_of_lt (show 1 < l.n by omega)]
  unfold Layout.parity
  rw [next]
  split <;> split <;> omega

theorem mod_of_lt_twice {x n : Nat} (h : x < n + n) : x % n = if x < n then x else x - n := by
  split
  · exact Nat.mod_eq_of_lt ‹_›
  · rw [Nat.mod_eq_sub_mod (by omega), Nat.mod_eq_of_lt (by omega)]

theorem Layout.dataPos_eq {l : Layout} (h : 2 ≤ l.n) (row : Nat) {d : Nat} (hd : d < l.d) :
    l.dataPos row d = if l.parity row + 1 + d < l.n then l.parity row + 1 + d else l.parity row + 1 + d - l.n := by
  have := Layout.parity_lt h row
  unfold Layout.d at hd
  exact mod_of_lt_twice (by omega)

theorem Layout.dataIndex_eq {l : Layout} (h : 2 ≤ l.n) (row : Nat) {pos : Nat} (hp : pos < l.n) :
    l.dataIndex row pos = if pos ≤ l.parity row then pos + l.n - l.parity row - 1 else pos - l.parity row - 1 := by
  have := Layout.parity_lt h row
  have back : pos + l.n + l.n - l.parity row - 1 = (pos + l.n - l.parity row - 1) + l.n := by omega
  unfold Layout.dataIndex
  rw [back, Nat.add_mod_right, mod_of_lt_twice (by omega)]
  split <;> split <;> omega

theorem Layout.dataPos_lt {l : Layout} (h : 2 ≤ l.n) (row d : Nat) : l.dataPos row d < l.n := Nat.mod_lt _ (by omega)

theorem Layout.dataPos_ne_parity {l : Layout} (h : 2 ≤ l.n) (row : Nat) {d : Nat} (hd : d < l.d) :
    l.dataPos row d ≠ l.parity row := by
  have := Layout.parity_lt h row
  rw [Layout.dataPos_eq h row hd]
  unfold Layout.d at hd
  split <;> omega

theorem Layout.dataIndex_dataPos {l : Layout} (h : 2 ≤ l.n) (row : Nat) {d : Nat} (hd : d < l.d) :
    l.dataIndex row (l.dataPos row d) = d := by
  have := Layout.parity_lt h row
  rw [Layout.dataIndex_eq h row (Layout.dataPos_lt h row d), Layout.dataPos_eq h row hd]
  unfold Layout.d at hd
  split <;> split <;> omega

theorem Layout.dataIndex_lt {l : Layout} (h : 2 ≤ l.n) (row : Nat) {pos : Nat} (hp : pos < l.n) (hne : pos ≠ l.parity row) :
    l.dataIndex row pos < l.d := by
  have := Layout.parity_lt h row
  rw [Layout.dataIndex_eq h row hp]
  unfold Layout.d
  split <;> omega

theorem Layout.dataPos_dataIndex {l : Layout} (h : 2 ≤ l.n) (row : Nat) {pos : Nat} (hp : pos < l.n)
    (hne : pos ≠ l.parity row) : l.dataPos row (l.dataIndex row pos) = pos := by
  have := Layout.parity_lt h row
  rw [Layout.dataPos_eq h row (Layout.dataIndex_lt h row hp hne), Layout.dataIndex_eq h row hp]
  split <;> split <;> omega

/-! ## The place of a logical block (R6)

A block lies in the unit `a / U` of the data: the row is that unit's number over D, the data index the rest. -/

theorem Layout.cellOf_row (l : Layout) (a : Nat) : (l.cellOf a).row = a / l.unit / l.d := (Nat.div_div_eq_div_mul _ _ _).symm

theorem sub_div_mul (a b : Nat) : a - a / b * b = a % b := by
  rw [Nat.mul_comm, Nat.mod_eq_sub_mul_div]

theorem Layout.cellOf_pos (l : Layout) (a : Nat) : (l.cellOf a).pos = l.dataPos (a / l.unit / l.d) (a / l.unit % l.d) := by
  show l.dataPos (l.cellOf a).row ((a - a / l.rowBlocks * l.rowBlocks) / l.unit) = _
  rw [Layout.cellOf_row, sub_div_mul, Layout.rowBlocks, Nat.mod_mul_right_div_self]

theorem Layout.cellOf_off (l : Layout) (a : Nat) : (l.cellOf a).off = a % l.unit := by
  show (a - a / l.rowBlocks * l.rowBlocks) - (a - a / l.rowBlocks * l.rowBlocks) / l.unit * l.unit = _
  rw [sub_div_mul, sub_div_mul, Layout.rowBlocks, Nat.mod_mul_right_mod]

/-- The block at an offset of a unit of the data. -/
theorem Layout.cellOf_unit {l : Layout} (hu : 1 ≤ l.unit) {row d off : Nat} (hd : d < l.d) (ho : off < l.unit) :
    l.cellOf (row * l.rowBlocks + d * l.unit + off) = { row := row, pos := l.dataPos row d, off := off } := by
  have split : row * l.rowBlocks + d * l.unit + off = off + (row * l.d + d) * l.unit := by
    unfold Layout.rowBlocks
    ring
  have unit : (off + (row * l.d + d) * l.unit) / l.unit = row * l.d + d := by
    rw [Nat.add_mul_div_right _ _ (by omega), Nat.div_eq_of_lt ho, Nat.zero_add]
  have row' : (row * l.d + d) / l.d = row := by
    rw [Nat.add_comm, Nat.add_mul_div_right _ _ (by omega), Nat.div_eq_of_lt hd, Nat.zero_add]
  have index : (row * l.d + d) % l.d = d := by
    rw [Nat.add_comm, Nat.add_mul_mod_self_right, Nat.mod_eq_of_lt hd]
  rw [split]
  refine (Cell.mk.injEq ..).mpr ⟨?_, ?_, ?_⟩
  · exact (Layout.cellOf_row l _).trans (by rw [unit, row'])
  · exact (Layout.cellOf_pos l _).trans (by rw [unit, row', index])
  · exact (Layout.cellOf_off l _).trans (by rw [Nat.add_mul_mod_self_right, Nat.mod_eq_of_lt ho])

theorem Layout.d_pos {l : Layout} (h : 2 ≤ l.n) : 0 < l.d := by
  unfold Layout.d
  omega

theorem Layout.cellOf_ne_parity {l : Layout} (h : 2 ≤ l.n) (a : Nat) : (l.cellOf a).pos ≠ l.parity (l.cellOf a).row := by
  rw [Layout.cellOf_row, Layout.cellOf_pos]
  exact Layout.dataPos_ne_parity h _ (Nat.mod_lt _ (Layout.d_pos h))

theorem Layout.lbaOf_parity {l : Layout} {c : Cell} (h : c.pos = l.parity c.row) : l.lbaOf c = none := if_pos (by simpa using h)

theorem Layout.lbaOf_data {l : Layout} {c : Cell} (h : c.pos ≠ l.parity c.row) :
    l.lbaOf c = some (c.row * l.rowBlocks + l.dataIndex c.row c.pos * l.unit + c.off) := if_neg (by simpa using h)

theorem Layout.lbaOf_cellOf {l : Layout} (h : 2 ≤ l.n) (a : Nat) : l.lbaOf (l.cellOf a) = some a := by
  have index : l.dataIndex (l.cellOf a).row (l.cellOf a).pos = a / l.unit % l.d := by
    rw [Layout.cellOf_row, Layout.cellOf_pos]
    exact Layout.dataIndex_dataPos h _ (Nat.mod_lt _ (Layout.d_pos h))
  rw [Layout.lbaOf_data (Layout.cellOf_ne_parity h a), index, Layout.cellOf_row, Layout.cellOf_off]
  have units := Nat.div_add_mod (a / l.unit) l.d
  have blocks := Nat.div_add_mod a l.unit
  congr 1
  calc a / l.unit / l.d * l.rowBlocks + a / l.unit % l.d * l.unit + a % l.unit
      = (l.d * (a / l.unit / l.d) + a / l.unit % l.d) * l.unit + a % l.unit := by unfold Layout.rowBlocks; ring
    _ = a := by rw [units, Nat.mul_comm, blocks]

theorem Layout.lba_lt_capacity {l : Layout} {row d off : Nat} (hd : d < l.d) (ho : off < l.unit) (hr : row < l.rows) :
    row * l.rowBlocks + d * l.unit + off < l.capacity := by
  have unit : (d + 1) * l.unit ≤ l.d * l.unit := Nat.mul_le_mul_right _ hd
  have rows : (row + 1) * l.rowBlocks ≤ l.rows * l.rowBlocks := Nat.mul_le_mul_right _ hr
  have blocks : l.rowBlocks = l.d * l.unit := Nat.mul_comm _ _
  unfold Layout.capacity
  rw [Nat.add_mul, Nat.one_mul] at unit rows
  omega

/-- Settles O39: the data index and the position of a place undo each other, and a block is its unit's number and an offset. -/
theorem addressMapInverse : Obligations.AddressMapInverse := by
  intro l h hu
  refine ⟨fun a => ⟨rfl, ?_, ?_, Layout.cellOf_ne_parity h a, Layout.lbaOf_cellOf h a, fun ha => ?_⟩,
    fun c hp ho hne => ?_, fun c => Layout.lbaOf_parity, ?_,
    fun row => ⟨Layout.parity_lt h row, Layout.parity_add_n l row, Layout.parity_succ h row⟩⟩
  · exact Layout.dataPos_lt h _ _
  · rw [Layout.cellOf_off]
    exact Nat.mod_lt _ (by omega)
  · exact Nat.div_lt_of_lt_mul (by rwa [Nat.mul_comm])
  · have hd := Layout.dataIndex_lt h c.row hp hne
    refine ⟨_, Layout.lbaOf_data hne, ?_, fun hr => Layout.lba_lt_capacity hd ho hr⟩
    rw [Layout.cellOf_unit hu hd ho, Layout.dataPos_dataIndex h c.row hp hne]
  · unfold Layout.parity
    rw [Nat.zero_mod, Nat.sub_zero]

/-! ## Growth (R15 to R17) -/

theorem le_ceilDiv_mul (a : Nat) {b : Nat} (h : 0 < b) : a ≤ ceilDiv a b * b := by
  have := Nat.div_add_mod (a + b - 1) b
  have := Nat.mod_lt (a + b - 1) h
  unfold ceilDiv
  rw [Nat.mul_comm]
  omega

theorem pred_ceilDiv_mul_lt {a b : Nat} (ha : 0 < a) (h : 0 < b) : (ceilDiv a b - 1) * b < a := by
  have := Nat.div_mul_le_self (a + b - 1) b
  unfold ceilDiv
  rw [Nat.sub_mul]
  omega

theorem ceilDiv_le {a b m : Nat} (h : 0 < b) (hm : a ≤ m * b) : ceilDiv a b ≤ m := by
  unfold ceilDiv
  rw [Nat.div_le_iff_le_mul_add_pred h, Nat.mul_comm b m]
  omega

theorem ceilDiv_pos {a b : Nat} (ha : 0 < a) (h : 0 < b) : 1 ≤ ceilDiv a b :=
  (Nat.one_le_div_iff h).mpr (by omega)

theorem effectiveStep_fits {wanted : Nat} {l : Layout} (hu : l.unit ≤ 256) (hn : l.n ≤ 32) :
    effectiveStep wanted l * (l.unit * l.n) ≤ 8192 := by
  have whole : l.unit * l.n ≤ 256 * 32 := Nat.mul_le_mul hu hn
  have parts : min wanted (min 16 (8192 / (l.unit * l.n))) * (l.unit * l.n) ≤ 8192 :=
    (Nat.mul_le_mul_right _ ((min_le_right _ _).trans (min_le_right _ _))).trans (Nat.div_mul_le_self _ _)
  show max 1 (min wanted (min 16 (8192 / (l.unit * l.n)))) * (l.unit * l.n) ≤ 8192
  rcases Nat.le_total (min wanted (min 16 (8192 / (l.unit * l.n)))) 1 with h | h
  · rw [max_eq_left h]
    omega
  · rwa [max_eq_right h]

/-- The block at the start of a unit lies in the same unit as every block of it. -/
theorem Layout.cellOf_unit_start (l : Layout) (a : Nat) :
    (l.cellOf (a / l.unit * l.unit)).row = (l.cellOf a).row ∧ (l.cellOf (a / l.unit * l.unit)).pos = (l.cellOf a).pos := by
  rcases Nat.eq_zero_or_pos l.unit with h | h
  · simp only [Layout.cellOf_row, Layout.cellOf_pos, h, Nat.div_zero, Nat.zero_div, Nat.zero_mul, and_self]
  · simp only [Layout.cellOf_row, Layout.cellOf_pos, Nat.mul_div_cancel _ h, and_self]

theorem mem_growthSource {o : Layout} {first stop : Nat} {u : RowUnit} : u ∈ growthSource o first stop ↔
    ∃ i, i < (stop - first) / o.unit
      ∧ u = { row := (o.cellOf (first + i * o.unit)).row, pos := (o.cellOf (first + i * o.unit)).pos } := by
  simp [growthSource, eq_comm]

/-- A run of whole units. -/
structure WholeUnits (unit first stop : Nat) : Prop where
  pos    : 0 < unit
  starts : unit ∣ first
  stops  : unit ∣ stop
  ends   : first < stop

theorem WholeUnits.length {o : Layout} {first stop : Nat} (h : WholeUnits o.unit first stop) :
    (growthSource o first stop).length * o.unit = stop - first := by
  rw [growthSource, List.length_map, List.length_range]
  exact Nat.div_mul_cancel (Nat.dvd_sub h.stops h.starts)

theorem WholeUnits.rows {o : Layout} {first stop : Nat} (h : WholeUnits o.unit first stop) {u : RowUnit}
    (hu : u ∈ growthSource o first stop) : first / o.rowBlocks ≤ u.row ∧ u.row ≤ (stop - 1) / o.rowBlocks := by
  obtain ⟨i, hi, rfl⟩ := mem_growthSource.mp hu
  have last : (i + 1) * o.unit ≤ stop - first := (Nat.mul_le_mul_right _ hi).trans (Nat.div_mul_le_self _ _)
  rw [Nat.add_mul, Nat.one_mul] at last
  have pos := h.pos
  exact ⟨Nat.div_le_div_right (by omega), Nat.div_le_div_right (by omega)⟩

theorem WholeUnits.covers {o : Layout} {first stop : Nat} (h : WholeUnits o.unit first stop) {a : Nat} (h1 : first ≤ a)
    (h2 : a < stop) : ({ row := (o.cellOf a).row, pos := (o.cellOf a).pos } : RowUnit) ∈ growthSource o first stop := by
  obtain ⟨f, rfl⟩ := h.starts
  obtain ⟨e, rfl⟩ := h.stops
  have low : f ≤ a / o.unit := (Nat.le_div_iff_mul_le h.pos).mpr (by rwa [Nat.mul_comm])
  have high : a / o.unit < e := Nat.div_lt_of_lt_mul h2
  have start : o.unit * f + (a / o.unit - f) * o.unit = a / o.unit * o.unit := by
    rw [Nat.mul_comm o.unit f, ← Nat.add_mul, Nat.add_sub_cancel' low]
  refine mem_growthSource.mpr ⟨a / o.unit - f, ?_, ?_⟩
  · rw [← Nat.mul_sub, Nat.mul_div_cancel_left _ h.pos]
    omega
  · rw [start, (Layout.cellOf_unit_start o a).1, (Layout.cellOf_unit_start o a).2]

/-- Settles O40: the end row is a rounded-up quotient, and a step's run is whole units of OLD. -/
theorem growthStepArithmetic : Obligations.GrowthStepArithmetic := by
  intro o n hunit hrows hu1 hu2 hr ho hlt hn
  have data : o.d < n.d := by
    unfold Layout.d
    omega
  have od := Layout.d_pos ho
  have unit : 0 < o.unit := by omega
  have blocks : o.rowBlocks = n.unit * o.d := by rw [Layout.rowBlocks, hunit]
  have row : 0 < n.rowBlocks := Nat.mul_pos hu1 (by omega)
  have old : 0 < o.capacity := Nat.mul_pos (by omega) (Nat.mul_pos unit od)
  have fits : o.capacity ≤ n.rows * n.rowBlocks := by
    rw [Layout.capacity, hrows, blocks]
    exact Nat.mul_le_mul_left _ (Nat.mul_le_mul_left _ data.le)
  have ends := pred_ceilDiv_mul_lt old row
  refine ⟨⟨ceilDiv_pos old row, ceilDiv_le row fits, le_ceilDiv_mul _ row, ends⟩, fun wanted => rfl,
    fun wanted hw => ⟨?_, ?_, ?_, effectiveStep_fits hu2 hn⟩, fun front w hw hend => ?_⟩
  · exact le_max_left _ _
  · exact max_le hw (min_le_left _ _)
  · exact max_le (by decide) ((min_le_right _ _).trans (min_le_left _ _))
  · intro first stop
    have below {k : Nat} (hk : k + 1 ≤ growthEnd o n) : k * n.rowBlocks < o.capacity :=
      (Nat.mul_le_mul_right _ (show k ≤ growthEnd o n - 1 by omega)).trans_lt ends
    have step : first < (front + w) * n.rowBlocks := (Nat.mul_lt_mul_right row).mpr (by omega)
    have whole : WholeUnits o.unit first stop := by
      have rowUnits : o.unit ∣ n.rowBlocks := hunit ▸ Nat.dvd_mul_right _ _
      refine ⟨unit, Nat.dvd_mul_left_of_dvd rowUnits _, ?_, lt_min step (below (by omega))⟩
      rcases min_choice ((front + w) * n.rowBlocks) o.capacity with h | h
      · exact (Nat.dvd_mul_left_of_dvd rowUnits _).trans (dvd_of_eq h.symm)
      · exact (Nat.dvd_mul_left_of_dvd (Nat.dvd_mul_right _ _) _).trans (dvd_of_eq h.symm)
    have firstRow : first / o.rowBlocks = front * n.d / o.d := by
      rw [blocks, show first = n.unit * (front * n.d) by show front * (n.unit * n.d) = _; ring]
      exact Nat.mul_div_mul_left _ _ hu1
    refine ⟨whole.ends, min_le_right _ _, fun h => min_eq_left (below h).le, whole.length, fun u hm => ?_,
      fun a h1 h2 => whole.covers h1 h2⟩
    rw [← firstRow]
    exact whole.rows hm

end Sys2Proof.Machine
end

