-- ==== Sys2Proof/Proofs/Shares.lean ====
section
/-! PROOFS. The pace arbiter's share, the grant of row lock keys, the judgement of a returned block, and the round trip of a
plan record (R28, R32, R76, R77, R142, R181, R203). -/

namespace Sys2Proof.Machine

/-! ## The pace arbiter (R76, R77) -/

theorem chooseOp_mark {pace : Nat} {b : Bay} {m : MemberOp} (h : b.wait.find? (·.cls == .mark) = some m) :
    chooseOp pace b = some (m, none) := by
  simp only [chooseOp, h]

theorem chooseOp_host {pace : Nat} {b : Bay} {h : MemberOp} (hm : b.wait.find? (·.cls == .mark) = none)
    (hh : b.wait.find? (·.cls == .host) = some h) (hv : b.wait.find? (·.cls == .mover) = none) :
    chooseOp pace b = some (h, none) := by
  simp only [chooseOp, hm, hh, hv]

theorem chooseOp_mover {pace : Nat} {b : Bay} {v : MemberOp} (hm : b.wait.find? (·.cls == .mark) = none)
    (hh : b.wait.find? (·.cls == .host) = none) (hv : b.wait.find? (·.cls == .mover) = some v) :
    chooseOp pace b = some (v, none) := by
  simp only [chooseOp, hm, hh, hv]

theorem chooseOp_both {pace : Nat} {b : Bay} {h v : MemberOp} (hm : b.wait.find? (·.cls == .mark) = none)
    (hh : b.wait.find? (·.cls == .host) = some h) (hv : b.wait.find? (·.cls == .mover) = some v) :
    chooseOp pace b
      = if b.moverCount * 16 < pace * (b.contest + 1) then some (v, some true) else some (h, some false) := by
  simp only [chooseOp, hm, hh, hv]

/-- A contested grant goes to the mover exactly when it is behind its share. -/
theorem chooseOp_contested {pace : Nat} {b : Bay} {op : MemberOp} {mv : Bool} (h : chooseOp pace b = some (op, some mv)) :
    mv = true ↔ b.moverCount * 16 < pace * (b.contest + 1) := by
  unfold chooseOp at h
  split at h <;> try cases h
  split at h <;> cases h
  · simpa
  · exact iff_of_false (by decide) ‹_›

/-- The mover's count after a contested grant is its share of one grant more. -/
theorem paced_next {pace : Nat} {b : Bay} {mv : Bool} (h1 : 1 ≤ pace) (h16 : pace ≤ 16) (paced : b.Paced pace)
    (hmv : mv = true ↔ b.moverCount * 16 < pace * (b.contest + 1)) :
    b.moverCount + (if mv then 1 else 0) = (pace * (b.contest + 1) + 15) / 16 := by
  unfold Bay.Paced at paced
  rw [Nat.mul_add, Nat.mul_one] at hmv ⊢
  split <;> simp_all <;> omega

theorem afterGrant_within {b : Bay} (mv : Bool) (h : b.contest < 15) :
    afterGrant (some mv) b
      = { b with contest := b.contest + 1, moverCount := b.moverCount + (if mv then 1 else 0) } := by
  cases mv <;> exact if_neg (by rw [beq_iff_eq]; omega)

theorem afterGrant_last {b : Bay} (mv : Bool) (h : b.contest = 15) :
    afterGrant (some mv) b = { b with contest := 0, moverCount := 0 } := if_pos (by rw [h]; rfl)

/-- Settles O48: the arms of `chooseOp`, and `paced_next` for the share. -/
theorem arbiterShare : Obligations.ArbiterShare := by
  intro pace b h1 h16
  refine ⟨fun m => chooseOp_mark, fun hm => ⟨fun h hh hv => chooseOp_host hm hh hv, fun v hh hv => chooseOp_mover hm hh hv,
    fun h v hh hv => ⟨fun lt => ?_, fun le => ?_⟩⟩, rfl, fun hc paced op mv chosen => ?_⟩
  · rw [chooseOp_both hm hh hv, if_pos lt]
  · rw [chooseOp_both hm hh hv, if_neg (by omega)]
  · have share := paced_next h1 h16 paced (chooseOp_contested chosen)
    rcases Nat.lt_or_eq_of_le hc with lt | last
    · rw [afterGrant_within mv lt]
      exact ⟨(Nat.mod_eq_of_lt (show b.contest + 1 < 16 by omega)).symm, share, fun _ => rfl, fun e => absurd e (by omega)⟩
    · rw [afterGrant_last mv last, last]
      rw [last] at share
      exact ⟨rfl, by simp [Bay.Paced], fun e => absurd e (by decide), fun _ => by omega⟩

/-! ## A grant of row lock keys (R28) -/

/-- The change a grant makes to one lock entry. -/
def LockEntry.granted (a : Nat) (write : Bool) (ks : List Key) (e : LockEntry) : LockEntry :=
  if ks.contains e.key then
    (if write then { e.without a with holder := some a } else { e.without a with readers := (e.without a).readers ++ [a] })
  else e

theorem grantKeys_eq (a : Nat) (write : Bool) (ks : List Key) (s : State) :
    grantKeys a write ks s = updLocks (LockEntry.granted a write ks) s := rfl

theorem mem_updLocks {f : LockEntry → LockEntry} {s : State} {e : LockEntry} :
    e ∈ (updLocks f s).locks.entries ↔ (∃ e₀ ∈ s.locks.entries, f e₀ = e) ∧ e.used = true := by
  simp [updLocks]

theorem LockEntry.granted_key (a : Nat) (write : Bool) (ks : List Key) (e : LockEntry) : (e.granted a write ks).key = e.key := by
  unfold LockEntry.granted
  split
  · cases write <;> rfl
  · rfl

theorem LockEntry.granted_mem {a : Nat} {write : Bool} {ks : List Key} {e : LockEntry} (h : e.key ∈ ks) :
    e.granted a write ks
      = if write then { e.without a with holder := some a } else { e.without a with readers := (e.without a).readers ++ [a] } :=
  if_pos (by simpa using h)

theorem LockEntry.granted_apart {a : Nat} {write : Bool} {ks : List Key} {e : LockEntry} (h : e.key ∉ ks) :
    e.granted a write ks = e := if_neg (by simpa using h)

theorem LockEntry.granted_used {a : Nat} {write : Bool} {ks : List Key} {e : LockEntry} (h : e.key ∈ ks) :
    (e.granted a write ks).used = true := by
  rw [LockEntry.granted_mem h]
  cases write <;> simp [LockEntry.used]

theorem lockAt_of_mem {s : State} (nodup : (s.locks.entries.map (·.key)).Nodup) {e : LockEntry} (h : e ∈ s.locks.entries) :
    s.lockAt e.key = some e := by
  have unique : ∀ x ∈ s.locks.entries, x.key = e.key → x = e := fun x hx he => List.inj_on_of_nodup_map nodup hx h he
  rw [State.lockAt, List.find?_eq_some_iff_append]
  obtain ⟨before, after, split⟩ := List.append_of_mem h
  refine ⟨by simp, before, after, split, fun x hx => ?_⟩
  have apart : x.key ≠ e.key := by
    rw [split, List.map_append, List.map_cons] at nodup
    exact (List.nodup_append.mp nodup).2.2 _ (List.mem_map_of_mem hx) _ List.mem_cons_self
  simpa using apart

theorem grantable_key {s : State} {a : Nat} {write : Bool} {ks : List Key} (h : s.grantable a write ks = true) {k : Key}
    (hk : k ∈ ks) : ∃ e, s.lockAt k = some e ∧ e.grantable a write = true := by
  have key := List.all_eq_true.mp h k hk
  cases he : s.lockAt k with
  | none => simp [he] at key
  | some e =>
    rw [he] at key
    exact ⟨e, rfl, (Bool.and_eq_true_iff.mp key).1⟩

/-- What a grantable entry becomes, by the kind of the waiter. -/
theorem LockEntry.grantable_granted {a : Nat} {write : Bool} {ks : List Key} {e : LockEntry} (hk : e.key ∈ ks)
    (h : e.grantable a write = true) :
    (write = true → (e.granted a write ks).holder = some a ∧ (e.granted a write ks).readers = []
      ∧ ∀ w ∈ (e.granted a write ks).waiters, a < w.arrival)
    ∧ (write = false → (e.granted a write ks).holder = none ∧ a ∈ (e.granted a write ks).readers
      ∧ ∀ w ∈ (e.granted a write ks).waiters, w.write = true → a < w.arrival) := by
  rw [LockEntry.granted_mem hk]
  obtain ⟨free, kind⟩ := Bool.and_eq_true_iff.mp h
  have holder : e.holder = none := by simpa using free
  refine ⟨?_, ?_⟩ <;> rintro rfl
  · rw [if_pos rfl] at kind
    obtain ⟨readers, waiters⟩ := Bool.and_eq_true_iff.mp kind
    refine ⟨rfl, ?_, fun w hw => ?_⟩
    · simpa [LockEntry.without] using List.isEmpty_iff.mp readers ▸ (nofun : ∀ x ∈ ([] : List Nat), x = a)
    · obtain ⟨hw, hne⟩ := List.mem_filter.mp hw
      have le : a ≤ w.arrival := by simpa using List.all_eq_true.mp waiters w hw
      exact lt_of_le_of_ne le (fun e => by simp [e] at hne)
  · rw [if_neg Bool.false_ne_true] at kind
    refine ⟨?_, List.mem_append_right _ (List.mem_singleton_self a), fun w hw write => ?_⟩
    · show (if e.holder == some a then none else e.holder) = none
      rw [holder]
      rfl
    · obtain ⟨hw, hne⟩ := List.mem_filter.mp hw
      have le : a ≤ w.arrival := by simpa [write] using List.all_eq_true.mp kind w hw
      exact lt_of_le_of_ne le (fun e => by simp [e] at hne)

/-- Settles O46: a grant is `LockEntry.granted` on the entries of its keys. -/
theorem grantTakesAllKeys : Obligations.GrantTakesAllKeys := by
  intro s a write ks nodup grantable t
  have ht : t = updLocks (LockEntry.granted a write ks) s := grantKeys_eq a write ks s
  rw [ht]
  refine ⟨fun k hk => ?_, fun e he hk => ?_, fun e hk used => ?_, rfl⟩
  · obtain ⟨e, at_, -⟩ := grantable_key grantable hk
    have key : e.key = k := by simpa using List.find?_some at_
    exact ⟨_, mem_updLocks.mpr ⟨⟨e, List.mem_of_find?_eq_some at_, rfl⟩, LockEntry.granted_used (key ▸ hk)⟩,
      (LockEntry.granted_key ..).trans key⟩
  · obtain ⟨⟨e₀, mem, rfl⟩, -⟩ := mem_updLocks.mp he
    rw [LockEntry.granted_key] at hk
    obtain ⟨e₁, at_, may⟩ := grantable_key grantable hk
    obtain rfl : e₀ = e₁ := Option.some.inj ((lockAt_of_mem nodup mem).symm.trans at_)
    exact LockEntry.grantable_granted hk may
  · refine ⟨fun he => ?_, fun he => mem_updLocks.mpr ⟨⟨e, he, LockEntry.granted_apart hk⟩, used⟩⟩
    obtain ⟨⟨e₀, mem, rfl⟩, -⟩ := mem_updLocks.mp he
    rw [LockEntry.granted_key] at hk
    rwa [LockEntry.granted_apart hk]

/-! ## The judgement of a returned block (R32, R142) -/

/-- The reference a good block of a place bears (R139). -/
def Layout.refOf (l : Layout) (c : Cell) : BitVec 32 := (l.lbaOf c).elim Config.parityRef (BitVec.ofNat 32)

theorem guardGood_iff (b : Block) : guardGood b = true ↔ b.guard = guardOf b.data := beq_iff_eq

theorem Layout.judge_good {l : Layout} {c : Cell} {b : Block} (hg : b.guard = guardOf b.data) (hr : b.ref = l.refOf c) :
    l.judge c b = .good := by
  have guard := (guardGood_iff b).mpr hg
  unfold Layout.refOf at hr
  unfold Layout.judge
  cases ha : l.lbaOf c with
  | none => simp_all [judgeOther]
  | some a => simp_all [judgeData]

theorem Layout.judge_poison {l : Layout} {c : Cell} {b : Block} {a : Nat} (hg : b.guard = guardOf b.data)
    (hr : b.ref ≠ l.refOf c) (hp : b.ref = Config.poisonRef) (ha : l.lbaOf c = some a) : l.judge c b = .poison := by
  have guard := (guardGood_iff b).mpr hg
  have other : b.ref ≠ BitVec.ofNat 32 a := by simpa [Layout.refOf, ha] using hr
  unfold Layout.judge judgeData
  rw [ha]
  dsimp only
  rw [if_neg (by simp [guard]), if_neg (by simpa using other), if_pos (by simpa using hp)]

theorem Layout.judge_tagError {l : Layout} {c : Cell} {b : Block} (good : ¬(b.guard = guardOf b.data ∧ b.ref = l.refOf c))
    (poison : ¬(b.guard = guardOf b.data ∧ b.ref = Config.poisonRef ∧ ∃ a, l.lbaOf c = some a)) :
    l.judge c b = .tagError := by
  unfold Layout.refOf at good
  unfold Layout.judge
  cases ha : l.lbaOf c with
  | none =>
    refine if_neg fun h => good ?_
    obtain ⟨guard, ref⟩ := Bool.and_eq_true_iff.mp h
    exact ⟨(guardGood_iff b).mp guard, by simpa [ha] using ref⟩
  | some a =>
    unfold judgeData
    by_cases guard : b.guard = guardOf b.data
    · have other : ¬b.ref = BitVec.ofNat 32 a := fun e => good ⟨guard, by simp [ha, e]⟩
      have sound : ¬b.ref = Config.poisonRef := fun e => poison ⟨guard, e, a, ha⟩
      simp [(guardGood_iff b).mpr guard, other, sound]
    · exact if_pos (by simp [guardGood, guard])

/-- The number of a place among the blocks a READ returns. -/
def MemberOp.indexOf (op : MemberOp) (l : Layout) (c : Cell) : Nat :=
  (c.row - (op.home.getD (c.row, 0)).1) * l.unit + c.off - (op.home.getD (c.row, 0)).2

/-- What the note of a bad place leaves: the candidates alone may change (R144). -/
def noteBad (r : Reader) (op : MemberOp) (res : OpResult) (l : Layout) (c : Cell) (s : State) : State :=
  if s.mayRepair op.slot (op.kind.span.1 + op.indexOf l c) res then
    noteCandidate { slot := op.slot, block := op.kind.span.1 + op.indexOf l c, reader := r, cell := c } s
  else s

theorem noteBad_eq (r : Reader) (op : MemberOp) (res : OpResult) (l : Layout) (c : Cell) (s : State) :
    noteBad r op res l c s
      = { s with integ := { s.integ with candidates := (noteBad r op res l c s).integ.candidates } } := by
  unfold noteBad noteCandidate
  split
  · split <;> rfl
  · rfl

section
variable {r : Reader} {op : MemberOp} {res : OpResult} {c : Cell} {s : State} {f : Fetch} {b : Block}

theorem arriveCell_missing (h : res.blocks[op.indexOf f.layout c]? = none) :
    arriveCell r op res c (s, f) = (noteBad r op res f.layout c s, f.take op.id c .bad) := by
  unfold MemberOp.indexOf at h
  simp only [arriveCell, h]
  rfl

theorem arriveCell_good (h : res.blocks[op.indexOf f.layout c]? = some b) (hj : f.layout.judge c b = .good) :
    arriveCell r op res c (s, f) = (s, f.take op.id c (.got b)) := by
  unfold MemberOp.indexOf at h
  simp only [arriveCell, h, hj]

theorem arriveCell_poison (h : res.blocks[op.indexOf f.layout c]? = some b) (hj : f.layout.judge c b = .poison) :
    arriveCell r op res c (s, f) = (s, f.take op.id c (.poison b)) := by
  unfold MemberOp.indexOf at h
  simp only [arriveCell, h, hj]

theorem arriveCell_tagError (h : res.blocks[op.indexOf f.layout c]? = some b) (hj : f.layout.judge c b = .tagError) :
    arriveCell r op res c (s, f)
      = (noteBad r op res f.layout c (tagErrorAt op.slot (op.kind.span.1 + op.indexOf f.layout c) s), f.take op.id c .bad) := by
  unfold MemberOp.indexOf at h
  simp only [arriveCell, h, hj]
  rfl

end

theorem Fetch.take_at {f : Fetch} {id : Nat} {c : Cell} (v : CellState) (h : f.at c = some (.waiting id)) :
    (f.take id c v).at c = some v := by
  unfold Fetch.take
  rw [if_pos (by simpa using h)]
  exact Fetch.put_at f c v

theorem Fetch.take_other (f : Fetch) (id : Nat) {c d : Cell} (v : CellState) (h : d ≠ c) : (f.take id c v).at d = f.at d := by
  unfold Fetch.take
  split
  · exact Fetch.put_other f c d v h
  · rfl

/-- Whatever a READ brought, only the place itself is put down. -/
theorem arriveCell_other (r : Reader) (op : MemberOp) (res : OpResult) (s : State) (f : Fetch) {c d : Cell} (h : d ≠ c) :
    (arriveCell r op res c (s, f)).2.at d = f.at d := by
  cases hb : res.blocks[op.indexOf f.layout c]? with
  | none => rw [arriveCell_missing hb, Fetch.take_other f _ _ h]
  | some b =>
    cases hj : f.layout.judge c b with
    | good => rw [arriveCell_good hb hj, Fetch.take_other f _ _ h]
    | poison => rw [arriveCell_poison hb hj, Fetch.take_other f _ _ h]
    | tagError => rw [arriveCell_tagError hb hj, Fetch.take_other f _ _ h]

/-- Settles O58: the three judgements of the one block returned. -/
theorem returnedBlockJudged : Obligations.ReturnedBlockJudged := by
  intro r op c b s f home waits q good poison
  have one : op.indexOf f.layout c = 0 := by simp [MemberOp.indexOf, home]
  have block : (OpResult.good [b]).blocks[op.indexOf f.layout c]? = some b := by rw [one]; rfl
  have ref : good ↔ b.guard = guardOf b.data ∧ b.ref = f.layout.refOf c := by
    show (b.guard = guardOf b.data ∧ _) ↔ _
    unfold Layout.refOf
    cases f.layout.lbaOf c <;> rfl
  refine ⟨fun hg => ?_, fun hg hp => ?_, fun hg hp => ?_, fun d hd => arriveCell_other r op _ s f hd⟩
  · obtain ⟨guard, ref⟩ := ref.mp hg
    rw [show q = _ from arriveCell_good block (Layout.judge_good guard ref)]
    exact ⟨rfl, Fetch.take_at _ waits⟩
  · obtain ⟨guard, poisonRef, a, ha⟩ := hp
    have other : b.ref ≠ f.layout.refOf c := fun e => hg (ref.mpr ⟨guard, e⟩)
    rw [show q = _ from arriveCell_poison block (Layout.judge_poison guard other poisonRef ha)]
    exact ⟨rfl, Fetch.take_at _ waits⟩
  · rw [show q = _ from arriveCell_tagError block (Layout.judge_tagError (mt ref.mpr hg) hp), noteBad_eq]
    obtain ⟨errors, counts, others, win⟩ := tagErrorAt_frame op.slot (op.kind.span.1 + op.indexOf f.layout c) s
    rw [bump_eq] at errors counts
    exact ⟨Fetch.take_at _ waits, errors, counts, others, win⟩

/-! ## The round trip of a plan record (11.4, R97, R203, R204) -/

/-- A field of the first 32 bytes of a plan record reads back as it was put. -/
theorem recordData_low (r : PlanRecord) {off len v : Nat} (hb : off + len ≤ 32) (hv : v < 2 ^ (8 * len))
    (h : Sole off len v ([(0, 1, r.kind.toNat), (1, 1, bit r.cont + 2 * bit r.quiet), (2, 2, r.unit.toNat),
      (4, 1, r.listLength.toNat), (5, 1, r.position.toNat), (6, 1, r.replacement.toNat), (7, 1, outcomeCode r.outcome),
      (8, 8, r.rowsDone), (16, 8, r.capacity), (24, 8, r.generation)] : List (Nat × Nat × Nat))) :
    fieldAt (recordData r) off len = v := by
  rw [recordData_field r off len (by omega), recordBytes_low r off len hb, ← fieldAt_buildRecord]
  exact fieldAt_of_sole (by omega) hv h

theorem keptBays_back {r : PlanRecord} (h : r.bays.length = 32)
    (zero : ∀ j, r.listLength.toNat ≤ j → j < 32 → r.bays[j]? = some 0#8) :
    keptBays r.listLength.toNat ((List.range 32).map (fun j => byteAt (recordData r) (32 + j))) = r.bays := by
  refine List.ext_getElem (by simp [keptBays, h]) fun j hj hj' => ?_
  have lt : j < 32 := h ▸ hj'
  have byte : byteAt (recordData r) (32 + j) = r.bays[j] := by
    rw [byteAt, recordData_field r _ _ (by omega), recordBytes_bay r h j lt, List.getD_eq_getElem _ _ hj']
    simp
  simp only [keptBays, List.getElem_map, List.getElem_zip, List.getElem_range, byte]
  split
  · rfl
  · have := zero j (by omega) lt
    rw [List.getElem?_eq_getElem hj'] at this
    exact (Option.some.inj this).symm

theorem recordOf_recordData {r : PlanRecord} (h : r.bays.length = 32)
    (zero : ∀ j, r.listLength.toNat ≤ j → j < 32 → r.bays[j]? = some 0#8) (h1 : r.rowsDone < 2 ^ 64) (h2 : r.capacity < 2 ^ 64)
    (h3 : r.generation < 2 ^ 64) : recordOf (recordData r) = r := by
  obtain ⟨cont, quiet, flags⟩ := flag_bits r.cont r.quiet
  obtain ⟨outcome, code⟩ := code_back r.outcome
  have kind : fieldAt (recordData r) 0 1 = r.kind.toNat := recordData_low r (by decide) r.kind.isLt (by simp)
  have flag : fieldAt (recordData r) 1 1 = bit r.cont + 2 * bit r.quiet := recordData_low r (by decide) flags (by simp)
  have unit : fieldAt (recordData r) 2 2 = r.unit.toNat := recordData_low r (by decide) r.unit.isLt (by simp)
  have length : fieldAt (recordData r) 4 1 = r.listLength.toNat := recordData_low r (by decide) r.listLength.isLt (by simp)
  have position : fieldAt (recordData r) 5 1 = r.position.toNat := recordData_low r (by decide) r.position.isLt (by simp)
  have replacement : fieldAt (recordData r) 6 1 = r.replacement.toNat :=
    recordData_low r (by decide) r.replacement.isLt (by simp)
  have ended : fieldAt (recordData r) 7 1 = outcomeCode r.outcome := recordData_low r (by decide) code (by simp)
  have rows : fieldAt (recordData r) 8 8 = r.rowsDone := recordData_low r (by decide) h1 (by simp)
  have capacity : fieldAt (recordData r) 16 8 = r.capacity := recordData_low r (by decide) h2 (by simp)
  have generation : fieldAt (recordData r) 24 8 = r.generation := recordData_low r (by decide) h3 (by simp)
  have bays := keptBays_back h zero
  simp only [byteAt] at bays
  simp only [recordOf, byteAt, kind, flag, unit, length, position, replacement, ended, rows, capacity, generation, cont, quiet,
    outcome, bays, BitVec.ofNat_toNat, BitVec.setWidth_eq]

/-- The guard stands in its own bytes, behind the bytes it covers. -/
theorem recordData_guard (r : PlanRecord) : fieldAt (recordData r) 64 2 = (recordGuard (recordData r) 64).toNat := by
  rw [recordData, fieldAt_or, recordBytes_guard, Nat.zero_or, fieldAt_putField_same _ _ _ (by decide),
    recordGuard_or_apart _ _ _ _ _ (by decide) (by decide) (by decide)]
  exact Nat.mod_eq_of_lt (recordGuard _ 64).isLt

/-- Settles O60: each field reads back, and the guard covers none of its own bytes. -/
theorem planRecordRoundTrip : Obligations.PlanRecordRoundTrip := by
  intro k r _ h zero h1 h2 h3
  have back := recordOf_recordData h zero h1 h2 h3
  refine ⟨?_, by rw [pageRecordOf, back]⟩
  have data : (recordBlock (recordData r) (Config.planBase + k)).data = recordData r := rfl
  have valid : (fieldAt (recordData r) 64 2 == (recordGuard (recordData r) 64).toNat) = true :=
    beq_iff_eq.mpr (recordData_guard r)
  unfold areaRecord
  rw [judge_recordBlock, data, valid, back]
  rfl

end Sys2Proof.Machine
end

