-- ==== Sys2Proof/Proofs/ShelfLinks.lean ====
section
/-! PROOFS. Arrivals and departures of bays and the reports of the shelf links (R119, R122, R124, R125, R132, R174). -/

namespace Sys2Proof.Machine

/-! ## A departure of a bay that is not a member (R124) -/

/-- The scan set after a departure (R174). -/
def leftScan (i : Slot) (a : Assembly) : List Slot := if a.stage == .scan then a.scanSet.filter (· != i) else a.scanSet

theorem leftScan_mem (i j : Slot) (a : Assembly) : j ∈ leftScan i a ↔ j ∈ a.scanSet ∧ (a.stage = .scan → j ≠ i) := by
  unfold leftScan
  split
  · simp_all
  · simp_all

theorem joinedScan_leftScan (i j : Slot) (a : Assembly) :
    j ∈ joinedScan i { a with scanSet := leftScan i a } ↔ j ∈ a.scanSet ∨ (a.stage = .scan ∧ j = i) := by
  rw [joinedScan_mem, leftScan_mem]
  tauto

/-- A bay that was not a member, after its departure. -/
def departedBay (b : Bay) : Bay :=
  { b with
    present := false, readiness := .absent, scanDue := false, wait := [], backlog := [], issued := []
    role := departedRole b.role }

/-- The departure of a present bay that is not a member, part by part. -/
structure TakenOut (i : Slot) (s t : State) : Prop where
  bay        : t.bay i = departedBay (s.bay i)
  others     : ∀ j, j ≠ i → t.bay j = s.bay j
  nextOp     : t.shelf.nextOp = s.shelf.nextOp
  todo       : t.todo = s.todo ++ (s.bay i).ops.map (fun o => Ev.opEnd o .gone)
  scanSet    : t.asm.scanSet = leftScan i s.asm
  candidates : t.integ.candidates = s.integ.candidates.filter (fun c => c.slot != i)
  rest       : t = { s with
    shelf := t.shelf, todo := t.todo, asm := { s.asm with scanSet := t.asm.scanSet }
    integ := { s.integ with candidates := t.integ.candidates } }

theorem takeOut_parts {i : Slot} {s : State} (h : (s.bay i).present = true) (h1 : (s.bay i).role ≠ .member)
    (h2 : (s.bay i).role ≠ .joining) : TakenOut i s (takeOut i s) := by
  have out := takeOut_other h h1 h2
  have asm : (takeOut i s).asm = { s.asm with scanSet := leftScan i s.asm } := by
    rw [out]
    unfold leftScan
    dsimp only
    split <;> rfl
  have shelf : (takeOut i s).shelf = (updBay i departedBay s).shelf := by rw [out]; rfl
  refine ⟨(bay_upd shelf).1, (bay_upd shelf).2, by rw [shelf]; rfl, by rw [out], by rw [asm], by rw [out], ?_⟩
  calc takeOut i s = { takeOut i s with asm := (takeOut i s).asm } := rfl
    _ = _ := by
      rw [asm, out]
      rfl

theorem arrival_absent {i : Slot} {s : State} (h : (s.bay i).present = false) : arrival i s = arrive i s := by
  rw [arrival, takeOut_none h]

/-! ## Arrivals (R119, R122) -/

theorem arrival_of_absent {s : State} {i : Slot} (hp : (s.bay i).present = false) (hw : (s.bay i).wait = [])
    (hl : (s.bay i).backlog = []) : ∃ u, exec (.bayArrival i) s = .next (settle u)
      ∧ u.bay i = askedBay i s (s.bay i)
      ∧ (∀ j, j ≠ i → u.bay j = s.bay j) ∧ u.shelf.nextOp = s.shelf.nextOp + 1
      ∧ (∀ j, j ∈ u.asm.scanSet ↔ j ∈ s.asm.scanSet ∨ (s.asm.stage = .scan ∧ j = i))
      ∧ (u.win.events.shelfChange = true ↔ s.win.events.shelfChange = true
          ∨ (s.asm.firstScan = false ∧ ∃ j, (u.bay j).present ≠ (s.bay j).reference))
      ∧ u = { s with
          shelf := u.shelf, asm := { s.asm with scanSet := u.asm.scanSet }
          win := { s.win with events := { s.win.events with shelfChange := u.win.events.shelfChange } } } := by
  obtain ⟨u, hu, bay, others, nextOp, scanSet, change, rest⟩ := arrive_eq i s hw hl
  have reference : (u.bay i).reference = (s.bay i).reference := by
    rw [bay, askedBay]
    split <;> rfl
  refine ⟨u, ?_, bay, others, nextOp, fun j => ?_, ?_, rest⟩
  · rw [← hu, ← arrival_absent hp]
    rfl
  · rw [scanSet, joinedScan_mem]
  · rw [change, ref_keep reference others]

theorem inquireOp_eq {s t : State} (i : Slot) (h : t.shelf.nextOp = s.shelf.nextOp) : inquireOp i t = inquireOp i s := by
  rw [inquireOp, inquireOp, h]

/-- A bay asked with no operation left of it. -/
theorem askedBay_fresh {i : Slot} {s : State} {b : Bay} (h : b.issued = []) :
    askedBay i s b = { b with
      present := true, readiness := .inquiring, label := none
      issued := [{ op := inquireOp i s, sending := 1, expiries := 0, medias := 0 }] } := by
  rw [askedBay, h]
  rfl

theorem arrival_of_present {s : State} {i : Slot} (hp : (s.bay i).present = true) (h1 : (s.bay i).role ≠ .member)
    (h2 : (s.bay i).role ≠ .joining) : ∃ u, exec (.bayArrival i) s = .next (settle u)
      ∧ u.bay i = { departedBay (s.bay i) with
          present := true, readiness := .inquiring, label := none
          issued := [{ op := inquireOp i s, sending := 1, expiries := 0, medias := 0 }] }
      ∧ (∀ j, j ≠ i → u.bay j = s.bay j)
      ∧ u.todo = s.todo ++ (s.bay i).ops.map (fun o => Ev.opEnd o .gone)
      ∧ (∀ j, j ∈ u.asm.scanSet ↔ j ∈ s.asm.scanSet ∨ (s.asm.stage = .scan ∧ j = i))
      ∧ (u.win.events.shelfChange = true ↔ s.win.events.shelfChange = true
          ∨ (s.asm.firstScan = false ∧ ∃ j, (u.bay j).present ≠ (s.bay j).reference))
      ∧ u.integ.candidates = s.integ.candidates.filter (fun c => c.slot != i)
      ∧ u = { s with
          shelf := u.shelf, todo := u.todo, asm := { s.asm with scanSet := u.asm.scanSet }
          integ := { s.integ with candidates := u.integ.candidates }
          win := { s.win with events := { s.win.events with shelfChange := u.win.events.shelfChange } } } := by
  have out := takeOut_parts hp h1 h2
  obtain ⟨t, ht⟩ : ∃ t, takeOut i s = t := ⟨_, rfl⟩
  rw [ht] at out
  obtain ⟨u, hu, bay, others, -, scanSet, change, rest⟩ := arrive_eq i t (by rw [out.bay]; rfl) (by rw [out.bay]; rfl)
  have asked : u.bay i = { departedBay (s.bay i) with
      present := true, readiness := .inquiring, label := none
      issued := [{ op := inquireOp i s, sending := 1, expiries := 0, medias := 0 }] } := by
    rw [bay, out.bay, askedBay_fresh rfl, inquireOp_eq i out.nextOp]
  have others' (j : Slot) (hj : j ≠ i) : u.bay j = s.bay j := (others j hj).trans (out.others j hj)
  have todo : u.todo = t.todo := by rw [rest]
  have candidates : u.integ.candidates = t.integ.candidates := by rw [rest]
  have asm : t.asm = { s.asm with scanSet := t.asm.scanSet } := by rw [out.rest]
  have win : t.win = s.win := by rw [out.rest]
  refine ⟨u, ?_, asked, others', todo.trans out.todo, fun j => ?_, ?_, candidates.trans out.candidates, ?_⟩
  · rw [← hu, ← ht]
    rfl
  · rw [scanSet, asm, out.scanSet, joinedScan_leftScan]
  · rw [change, win, asm]
    exact ref_keep (by rw [asked]; rfl) others' _
  · calc u = { t with
          shelf := u.shelf, asm := { t.asm with scanSet := u.asm.scanSet }
          win := { t.win with events := { t.win.events with shelfChange := u.win.events.shelfChange } } } := rest
      _ = _ := by
        rw [todo, candidates, win, out.rest]

theorem arrival_of_member {s : State} {i : Slot} (hp : (s.bay i).present = true)
    (h : (s.bay i).role = .member ∨ (s.bay i).role = .joining) : ∃ u, exec (.bayArrival i) s = .next (settle u)
      ∧ u.bay i = { s.bay i with
          present := true, readiness := .inquiring, label := none, scanDue := false, wait := [], backlog := []
          issued := [{ op := inquireOp i s, sending := 1, expiries := 0, medias := 0 }], role := .failed }
      ∧ (∀ j, j ≠ i → u.bay j = s.bay j) ∧ u.win.events.memberLost = true ∧ u.out = s.out := by
  obtain ⟨shelf, out, lost, -⟩ := takeOut_member hp h
  obtain ⟨t, ht⟩ : ∃ t, takeOut i s = t := ⟨_, rfl⟩
  rw [ht] at shelf out lost
  obtain ⟨gone, apart⟩ := bay_upd shelf
  obtain ⟨u, hu, bay, others, -, -, -, rest⟩ := arrive_eq i t (by rw [gone]) (by rw [gone])
  refine ⟨u, ?_, ?_, fun j hj => (others j hj).trans (apart j hj), ?_, ?_⟩
  · rw [← hu, ← ht]
    rfl
  · have op : inquireOp i t = inquireOp i s := inquireOp_eq i (by rw [shelf]; rfl)
    rw [bay, gone, askedBay_fresh rfl, op]
  · rw [rest]
    exact lost
  · rw [rest]
    exact out

/-! ## Departures (R124, R125) -/

theorem depart_present {i : Slot} {s : State} (h : (s.bay i).present = true) : depart i s = shelfCheck (takeOut i s) := if_pos h

theorem departure_of_absent {s : State} {i : Slot} (hp : (s.bay i).present = false) (hs : s.Settled) :
    exec (.bayDeparture i) s = .next s := by
  show Host.Outcome.next (settle (depart i s)) = _
  rw [(depart_away i s).2.2.2 hp, settle_of_settled hs]

theorem departure_of_present {s : State} {i : Slot} (hp : (s.bay i).present = true) (h1 : (s.bay i).role ≠ .member)
    (h2 : (s.bay i).role ≠ .joining) : ∃ u, exec (.bayDeparture i) s = .next (settle u)
      ∧ u.bay i = departedBay (s.bay i)
      ∧ (∀ j, j ≠ i → u.bay j = s.bay j)
      ∧ u.todo = s.todo ++ (s.bay i).ops.map (fun o => Ev.opEnd o .gone)
      ∧ (∀ j, j ∈ u.asm.scanSet ↔ j ∈ s.asm.scanSet ∧ (s.asm.stage = .scan → j ≠ i))
      ∧ (u.win.events.shelfChange = true ↔ s.win.events.shelfChange = true
          ∨ (s.asm.firstScan = false ∧ ∃ j, (u.bay j).present ≠ (s.bay j).reference))
      ∧ u.integ.candidates = s.integ.candidates.filter (fun c => c.slot != i)
      ∧ u = { s with
          shelf := u.shelf, todo := u.todo, asm := { s.asm with scanSet := u.asm.scanSet }
          integ := { s.integ with candidates := u.integ.candidates }
          win := { s.win with events := { s.win.events with shelfChange := u.win.events.shelfChange } } } := by
  have out := takeOut_parts hp h1 h2
  obtain ⟨t, ht⟩ : ∃ t, takeOut i s = t := ⟨_, rfl⟩
  rw [ht] at out
  have asm : t.asm = { s.asm with scanSet := t.asm.scanSet } := by rw [out.rest]
  have win : t.win = s.win := by rw [out.rest]
  refine ⟨shelfCheck t, ?_, ?_⟩
  · rw [← ht, ← depart_present hp]
    rfl
  rw [shelfCheck_eq]
  refine ⟨out.bay, out.others, out.todo, fun j => ?_, ?_, out.candidates, ?_⟩
  · show j ∈ t.asm.scanSet ↔ _
    rw [out.scanSet, leftScan_mem]
  · show (t.win.events.shelfChange || (!t.asm.firstScan && _)) = true ↔ _
    rw [win, asm]
    exact ref_keep (u := t) (by rw [out.bay]; rfl) out.others _
  · generalize (t.win.events.shelfChange || (!t.asm.firstScan && allSlots.any fun j => (t.bay j).present != (t.bay j).reference)) = x
    conv => lhs; rw [out.rest]

theorem departure_of_member {s : State} {i : Slot} (hp : (s.bay i).present = true)
    (h : (s.bay i).role = .member ∨ (s.bay i).role = .joining) : ∃ u, exec (.bayDeparture i) s = .next (settle u)
      ∧ u.bay i = { s.bay i with
          present := false, readiness := .absent, scanDue := false, wait := [], backlog := [], issued := []
          role := .failed }
      ∧ (∀ j, j ≠ i → u.bay j = s.bay j) ∧ u.win.events.memberLost = true ∧ u.out = s.out
      ∧ (s.asm.firstScan = false → (s.bay i).reference = true → u.win.events.shelfChange = true) := by
  obtain ⟨shelf, out, lost, asm⟩ := takeOut_member hp h
  obtain ⟨t, ht⟩ : ∃ t, takeOut i s = t := ⟨_, rfl⟩
  rw [ht] at shelf out lost asm
  obtain ⟨gone, apart⟩ := bay_upd shelf
  have first : t.asm.firstScan = s.asm.firstScan := by
    rw [asm]
    split <;> rfl
  refine ⟨shelfCheck t, ?_, ?_⟩
  · rw [← ht, ← depart_present hp]
    rfl
  rw [shelfCheck_eq]
  refine ⟨gone, apart, lost, out, fun hf hr => ?_⟩
  show (_ || (!t.asm.firstScan && allSlots.any (fun j => (t.bay j).present != (t.bay j).reference))) = true
  have differs : allSlots.any (fun j => (t.bay j).present != (t.bay j).reference) = true :=
    (any_iff t).mpr ⟨i, by rw [gone]; simp [hr]⟩
  rw [first, hf, differs]
  simp

/-- Settles O31: a report at a present bay is a departure and an arrival. -/
theorem baysArriveAndDepart : Obligations.BaysArriveAndDepart :=
  ⟨fun _ _ => ⟨arrival_of_absent, arrival_of_present, arrival_of_member⟩,
    fun _ _ => ⟨departure_of_absent, departure_of_present, departure_of_member⟩⟩

/-! ## The links (R119, R174) -/

/-- A fold of departures. -/
theorem foldl_depart (l : List Slot) : ∀ s : State,
    (∀ i ∈ l, (s.bay i).present = true →
      ((l.foldl (fun s i => depart i s) s).bay i).present = false
        ∧ ((l.foldl (fun s i => depart i s) s).bay i).readiness = .absent
        ∧ ((l.foldl (fun s i => depart i s) s).bay i).ops = [])
    ∧ (∀ i, (s.bay i).present = false → (l.foldl (fun s i => depart i s) s).bay i = s.bay i)
    ∧ (∀ i, i ∉ l → (l.foldl (fun s i => depart i s) s).bay i = s.bay i)
    ∧ (l.foldl (fun s i => depart i s) s).asm.linksPending = s.asm.linksPending
    ∧ (l.foldl (fun s i => depart i s) s).out = s.out
    ∧ (l.foldl (fun s i => depart i s) s).shelf.nextOp = s.shelf.nextOp := by
  induction l with
  | nil => exact fun s => ⟨(fun _ h => nomatch h), fun _ _ => rfl, fun _ _ => rfl, rfl, rfl, rfl⟩
  | cons k l ih =>
    intro s
    obtain ⟨away, nextOp, gone, still⟩ := depart_away k s
    obtain ⟨out, absent, apart, links, sent, ops⟩ := ih (depart k s)
    rw [List.foldl_cons]
    have absent' (i : Slot) (hi : (s.bay i).present = false) : (depart k s).bay i = s.bay i := by
      by_cases hk : i = k
      · rw [still (hk ▸ hi)]
      · exact away.others i hk
    refine ⟨fun i hi hp => ?_, fun i hi => ?_, fun i hi => ?_, links.trans away.links, sent.trans away.out, ops.trans nextOp⟩
    · by_cases hk : i = k
      · subst hk
        rw [absent i (gone hp).1]
        exact gone hp
      · have same := away.others i hk
        exact out i ((List.mem_cons.mp hi).resolve_left hk) (by rw [same]; exact hp)
    · rw [absent i (by rw [absent' i hi]; exact hi), absent' i hi]
    · obtain ⟨hk, hl⟩ := not_or.mp (mt List.mem_cons.mpr hi)
      rw [apart i hl, away.others i hk]

/-- A fold of arrivals. -/
theorem foldl_arrival (p : Port) (ks : List (Fin 16)) : ∀ s : State,
    (∀ i, (i ∈ ks.map (slotOf p) ∨ ((s.bay i).present = true ∧ (s.bay i).readiness = .inquiring)) →
      ((ks.foldl (fun s b => arrival (slotOf p b) s) s).bay i).present = true
        ∧ ((ks.foldl (fun s b => arrival (slotOf p b) s) s).bay i).readiness = .inquiring)
    ∧ (∀ i, i ∉ ks.map (slotOf p) → (ks.foldl (fun s b => arrival (slotOf p b) s) s).bay i = s.bay i)
    ∧ (ks.foldl (fun s b => arrival (slotOf p b) s) s).asm.linksPending = s.asm.linksPending
    ∧ (ks.foldl (fun s b => arrival (slotOf p b) s) s).out = s.out
    ∧ (ks.foldl (fun s b => arrival (slotOf p b) s) s).shelf.nextOp = s.shelf.nextOp + ks.length := by
  induction ks with
  | nil => exact fun s => ⟨fun _ h => h.resolve_left List.not_mem_nil, fun _ _ => rfl, rfl, rfl, rfl⟩
  | cons k ks ih =>
    intro s
    obtain ⟨away, nextOp, here⟩ := arrival_away (slotOf p k) s
    obtain ⟨present, apart, links, sent, ops⟩ := ih (arrival (slotOf p k) s)
    rw [List.foldl_cons]
    refine ⟨fun i hi => present i ?_, fun i hi => ?_, links.trans away.links, sent.trans away.out, ?_⟩
    · by_cases hk : i = slotOf p k
      · exact .inr (hk ▸ here)
      · rw [away.others i hk]
        exact hi.imp_left fun h => (List.mem_cons.mp h).resolve_left hk
    · obtain ⟨hk, hl⟩ := not_or.mp (mt List.mem_cons.mpr hi)
      rw [apart i hl, away.others i hk]
    · rw [ops, nextOp, List.length_cons]
      omega

theorem mem_portSlots {p : Port} {i : Slot} : i ∈ portSlots p ↔ ∃ k : Fin 16, slotOf p k = i := by simp [portSlots]

/-- Settles O32: the folds of departures and of arrivals. -/
theorem linksReportBays : Obligations.LinksReportBays := by
  intro s p
  refine ⟨?_, fun ks => ?_⟩
  · have folded := foldl_depart (portSlots p) (reported p s)
    rw [← linkDownAt] at folded
    obtain ⟨out, absent, apart, links, sent, ops⟩ := folded
    refine ⟨linkDownAt p s, rfl, fun k hp => out (slotOf p k) (mem_portSlots.mpr ⟨k, rfl⟩) hp,
      fun k hp => absent (slotOf p k) hp, fun j hj => apart j fun h => ?_, links, sent, ops⟩
    obtain ⟨k, hk⟩ := mem_portSlots.mp h
    exact hj k hk.symm
  · have folded := foldl_arrival p ks (reported p s)
    rw [← linkUpAt] at folded
    obtain ⟨present, apart, links, sent, ops⟩ := folded
    refine ⟨linkUpAt p ks s, rfl, fun k hk => present (slotOf p k) (.inl (List.mem_map_of_mem hk)),
      fun j hj => apart j fun h => ?_, links, sent, ops⟩
    obtain ⟨k, hk, e⟩ := List.mem_map.mp h
    exact hj k hk e.symm

end Sys2Proof.Machine
end

