-- ==== Sys2Proof/Proofs/Answers.lean ====
section
/-! PROOFS. Timers and answers of drives: the capture of what befell an operation, the freed slot, and each owner's end
(R40, R58, R59, R81, R122, R123, R126 to R131, R137, R149, R152). -/

namespace Sys2Proof.Machine

/-! ## What a capture records (R8, R149) -/

theorem homeOf_congr {s t : State} {i : Slot} (block : Nat) (plan : t.plan = s.plan)
    (remaps : (t.bay i).remaps = (s.bay i).remaps) : t.homeOf i block = s.homeOf i block := by
  unfold State.homeOf
  rw [plan, remaps]

theorem placeOf_congr {s t : State} {i : Slot} (row : Nat) (plan : t.plan = s.plan) (front : t.mover.front = s.mover.front) :
    t.placeOf i row = s.placeOf i row := by
  unfold State.placeOf State.growing State.layout
  rw [plan, front]

theorem lbaAt_congr {s t : State} {i : Slot} (block : Nat) (plan : t.plan = s.plan) (front : t.mover.front = s.mover.front)
    (remaps : (t.bay i).remaps = (s.bay i).remaps) : t.lbaAt i block = s.lbaAt i block := by
  unfold State.lbaAt
  rw [homeOf_congr block plan remaps]
  simp only [placeOf_congr _ plan front]

/-- The capture of a member block as the state names it. -/
def captureOf (k : CaptureKind) (i : Slot) (block : Nat) (s : State) : Capture :=
  { kind := k, slot := some i, block := some block, row := (s.homeOf i block).map (·.1), lba := s.lbaAt i block }

/-- The integrity unit after a capture. -/
def capturedUnit (k : CaptureKind) (i : Slot) (block : Nat) (s : State) : IntegrityUnit :=
  { s.integ with
    counts := s.integ.counts.add k
    capture := if s.ctl.tuning.captureLatest || s.integ.capture.isNone then some (captureOf k i block s) else s.integ.capture }

/-- A bay's change that leaves the remap table, and the capture behind it. -/
theorem captureAt_updBay (k : CaptureKind) (i : Slot) (block : Nat) {f : Bay → Bay} (hf : ∀ b, (f b).remaps = b.remaps)
    (s : State) : captureAt k i block (updBay i f s) = { s with
      shelf := (updBay i f s).shelf, integ := capturedUnit k i block s
      win := { s.win with events := { s.win.events with dataError := true } } } := by
  have remaps : ((updBay i f s).bay i).remaps = (s.bay i).remaps := by rw [updBay_bay_same, hf]
  rw [captureAt, homeOf_congr (s := s) (t := updBay i f s) block rfl remaps,
    lbaAt_congr (s := s) (t := updBay i f s) block rfl rfl remaps, takeCapture_eq]
  rfl

theorem mediaAt_eq (k : CaptureKind) (i : Slot) (block : Nat) (s : State) : mediaAt k i block s = { s with
    shelf := (updBay i (fun b => { b with media := bump b.media }) s).shelf, integ := capturedUnit k i block s
    win := { s.win with events := { s.win.events with dataError := true } } } :=
  captureAt_updBay k i block (f := fun b => { b with media := bump b.media }) (fun _ => rfl) s

theorem mediaAt_bay (k : CaptureKind) (i : Slot) (block : Nat) (s : State) :
    (mediaAt k i block s).bay i = { s.bay i with media := bump (s.bay i).media }
      ∧ ∀ j, j ≠ i → (mediaAt k i block s).bay j = s.bay j :=
  bay_upd (s := s) (f := fun b => { b with media := bump b.media }) (by rw [mediaAt_eq])

theorem mediaWritten_mediaAt (i : Slot) (block : Nat) (s : State) : s.MediaWritten i block (mediaAt .mediaWrite i block s) := by
  have bay := mediaAt_bay .mediaWrite i block s
  rw [mediaAt_eq] at bay ⊢
  exact ⟨rfl, bay.1, bay.2, rfl, rfl⟩

theorem mediaRead_mediaAt (i : Slot) (block : Nat) (s : State) : s.MediaRead i block (mediaAt .mediaRead i block s) := by
  have bay := mediaAt_bay .mediaRead i block s
  rw [mediaAt_eq] at bay ⊢
  exact ⟨rfl, bay.1, bay.2, rfl, rfl⟩

/-! ## The grants a freed slot allows (R128) -/

theorem chooseOp_mem {pace : Nat} {b : Bay} {op : MemberOp} {x : Option Bool} (h : chooseOp pace b = some (op, x)) :
    op ∈ b.wait := by
  unfold chooseOp at h
  split at h
  · cases h
    exact List.mem_of_find?_eq_some ‹_›
  · cases h
    exact List.mem_of_find?_eq_some ‹_›
  · cases h
    exact List.mem_of_find?_eq_some ‹_›
  · split at h <;> cases h <;> exact List.mem_of_find?_eq_some ‹_›
  · cases h

/-- Grants issue only what waited: the bay's operations move, and none is new. -/
structure Drawn (b c : Bay) : Prop where
  issued : ∀ y ∈ c.issued, y ∈ b.issued ∨ y.op ∈ b.wait ++ b.backlog
  waits  : ∀ op ∈ c.wait ++ c.backlog, op ∈ b.wait ++ b.backlog

theorem Drawn.refl (b : Bay) : Drawn b b := ⟨fun _ h => .inl h, fun _ h => h⟩

theorem Drawn.trans {b c d : Bay} (h : Drawn b c) (g : Drawn c d) : Drawn b d :=
  ⟨fun y hy => (g.issued y hy).elim (h.issued y) (fun hw => .inr (h.waits _ hw)), fun op hop => h.waits op (g.waits op hop)⟩

theorem afterGrant_lists (x : Option Bool) (b : Bay) :
    (afterGrant x b).issued = b.issued ∧ (afterGrant x b).wait = b.wait ∧ (afterGrant x b).backlog = b.backlog := by
  unfold afterGrant
  split
  · exact ⟨rfl, rfl, rfl⟩
  · split <;> exact ⟨rfl, rfl, rfl⟩

theorem refill_drawn (b : Bay) : Drawn b (refill b) := by
  refine ⟨fun y hy => .inl hy, fun op hop => ?_⟩
  simp only [refill, List.mem_append] at hop ⊢
  rcases hop with (hop | hop) | hop
  · exact .inl hop
  · exact .inr (List.mem_of_mem_take hop)
  · exact .inr (List.mem_of_mem_drop hop)

theorem grantOne_drawn (pace : Nat) (b : Bay) : Drawn b (grantOne pace b) := by
  unfold grantOne
  split
  · split
    · exact Drawn.refl b
    · rename_i op contested chosen
      refine Drawn.trans ?_ (refill_drawn _)
      obtain ⟨issued, wait, backlog⟩ := afterGrant_lists contested { b with
        wait := b.wait.filter (·.id != op.id), issued := b.issued ++ [{ op := op, sending := 1, expiries := 0, medias := 0 }] }
      refine ⟨fun y hy => ?_, fun o ho => ?_⟩
      · rw [issued] at hy
        rcases List.mem_append.mp hy with hy | hy
        · exact .inl hy
        · obtain rfl := List.mem_singleton.mp hy
          exact .inr (List.mem_append_left _ (chooseOp_mem chosen))
      · rw [wait, backlog] at ho
        exact (List.mem_append.mp ho).elim (fun h => List.mem_append_left _ (List.mem_of_mem_filter h))
          (List.mem_append_right _)
  · exact Drawn.refl b

theorem grantBay_drawn (pace n : Nat) : ∀ b : Bay, Drawn b (grantBay pace n b) := by
  induction n with
  | zero => exact Drawn.refl
  | succ n ih => exact fun b => (grantOne_drawn pace b).trans (ih _)

theorem freed_issued {s : State} {x : Issued} {y : Issued} (h : y ∈ ((s.freed x).bay x.op.slot).issued) :
    (y ∈ (s.bay x.op.slot).issued ∧ y.op.id ≠ x.op.id)
      ∨ y.op ∈ (s.bay x.op.slot).wait ++ (s.bay x.op.slot).backlog := by
  rw [State.freed, grants, updBay_bay_same, updBay_bay_same] at h
  refine ((grantBay_drawn _ _ _).issued y h).imp_left fun hy => ?_
  obtain ⟨mem, ne⟩ := List.mem_filter.mp hy
  exact ⟨mem, by simpa using ne⟩

theorem freed_regrant (s : State) (x : Issued) (j : Slot) : Regrant (s.bay j) ((s.freed x).bay j) :=
  freeIssue_regrant x.op.slot x.op.id s j

theorem freed_other {s : State} {x : Issued} {j : Slot} (h : j ≠ x.op.slot) : (s.freed x).bay j = s.bay j :=
  freeIssue_ne x.op.slot x.op.id s j h

theorem freed_rest (s : State) (x : Issued) : s.freed x = { s with shelf := (s.freed x).shelf } := rfl

/-! ## The timer (R129, R137) -/

/-- The state in which an expiry has been counted and captured. -/
def lateAt (x : Issued) (s : State) : State :=
  captureAt .timeout x.op.slot x.op.kind.firstBlock (updBay x.op.slot (fun b => { b with timeouts := bump b.timeouts }) s)

theorem lateAt_eq (x : Issued) (s : State) : lateAt x s = { s with
    shelf := (updBay x.op.slot (fun b => { b with timeouts := bump b.timeouts }) s).shelf
    integ := capturedUnit .timeout x.op.slot x.op.kind.firstBlock s
    win := { s.win with events := { s.win.events with dataError := true } } } :=
  captureAt_updBay .timeout x.op.slot x.op.kind.firstBlock (f := fun b => { b with timeouts := bump b.timeouts })
    (fun _ => rfl) s

theorem lateAt_bay (x : Issued) (s : State) :
    (lateAt x s).bay x.op.slot = { s.bay x.op.slot with timeouts := bump (s.bay x.op.slot).timeouts }
      ∧ ∀ j, j ≠ x.op.slot → (lateAt x s).bay j = s.bay j :=
  bay_upd (s := s) (f := fun b => { b with timeouts := bump b.timeouts }) (by rw [lateAt_eq])

theorem expire_first {s : State} {r : OpRef} {x : Issued} (h : s.issuedAt r = some x) (hd : x.op.owner.isDrained = false)
    (he : x.expiries = 0) :
    expire r s = resend x.op.slot x.op.id (fun y => { y with expiries := 1 }) (lateAt x s) := by
  simp only [expire, h, hd, he, lateAt]
  rfl

theorem expire_second {s : State} {r : OpRef} {x : Issued} (h : s.issuedAt r = some x) (hd : x.op.owner.isDrained = false)
    (he : x.expiries ≠ 0) : expire r s = timedOut x (lateAt x s) := by
  simp only [expire, h, hd, lateAt]
  rw [if_neg (by simp), if_neg (by simpa using he)]

theorem expire_drained {s : State} {r : OpRef} {x : Issued} (h : s.issuedAt r = some x) (hd : x.op.owner.isDrained = true) :
    expire r s = s.freed x := by
  simp only [expire, h, hd]
  rfl

/-! ## Answers nobody waits for (R124, R129) -/

theorem takeAnswer_unasked {s : State} {k : OwnerClass} {r : OpRef} (h : s.awaited k r = none) (res : OpResult) :
    takeAnswer k r res s = s := by
  simp only [takeAnswer, h]

theorem exec_unasked {c : Instr} {s t : State} (he : exec c s = .next (settle t)) (ht : t = s) (hs : s.Settled) :
    exec c s = .next s := by
  rw [he, ht, settle_of_settled hs]

/-- The answers of READs, each with its class. -/
theorem exec_readAnswer {s : State} {r : OpRef} {ans : ReadAnswer} {k : OwnerClass} {c : Instr}
    (h : (k, c) ∈ [(OwnerClass.hostRead, Instr.hostReadMemberEnd r ans), (.hostWriteRead, .hostWriteMemberReadEnd r ans),
      (.gather, .gatherReadEnd r ans), (.fillRead, .fillReadEnd r ans), (.labelRead, .labelReadEnd r ans),
      (.assemblyPlanRead, .planAreaReadEnd r ans), (.assemblySpillRead, .spillRecordReadEnd r ans),
      (.assemblyColumnRead, .spillColumnReadEnd r ans)]) :
    exec c s = .next (settle (takeAnswer k r (readResult ans) s)) := by
  simp only [List.mem_cons, Prod.mk.injEq, List.not_mem_nil, or_false] at h
  rcases h with ⟨rfl, rfl⟩ | ⟨rfl, rfl⟩ | ⟨rfl, rfl⟩ | ⟨rfl, rfl⟩ | ⟨rfl, rfl⟩ | ⟨rfl, rfl⟩ | ⟨rfl, rfl⟩ | ⟨rfl, rfl⟩ <;> rfl

theorem takeFlushAnswer_unasked {s : State} {r : OpRef} (h : s.awaited .hostFlush r = none) (res : OpResult) :
    takeFlushAnswer r res s = s := by
  simp only [takeFlushAnswer, h]

/-- The answers of WRITEs and of FLUSH: nothing happens where none is awaited. -/
theorem exec_writeAnswer_unasked {s : State} {r : OpRef} {ans : WriteAnswer} {k : OwnerClass} {c : Instr} (u : s.Unasked k r)
    (h : (k, c) ∈ [(OwnerClass.hostWriteWrite, Instr.hostWriteMemberWriteEnd r ans), (.hostFlush, .memberFlushEnd r ans),
      (.spillColumn, .spillColumnWriteEnd r ans), (.spillRecord, .spillRecordWriteEnd r ans),
      (.place, .placeWriteEnd r ans), (.label, .labelMemberWriteEnd r ans), (.tableCopy, .planTableCopyEnd r ans),
      (.planArea, .planAreaWriteEnd r ans), (.releasedLabel, .releasedLabelWriteEnd r ans),
      (.restorePlace, .restorePlaceWriteEnd r ans), (.assemblyLabel, .assemblyLabelWriteEnd r ans),
      (.writeBack, .writeBackEnd r ans), (.spareWrite, .spareSlotWriteEnd r ans)]) : exec c s = .next s := by
  obtain ⟨settled, none⟩ := u
  simp only [List.mem_cons, Prod.mk.injEq, List.not_mem_nil, or_false] at h
  rcases h with ⟨rfl, rfl⟩ | ⟨rfl, rfl⟩ | ⟨rfl, rfl⟩ | ⟨rfl, rfl⟩ | ⟨rfl, rfl⟩ | ⟨rfl, rfl⟩ | ⟨rfl, rfl⟩ | ⟨rfl, rfl⟩ | ⟨rfl, rfl⟩
    | ⟨rfl, rfl⟩ | ⟨rfl, rfl⟩ | ⟨rfl, rfl⟩ | ⟨rfl, rfl⟩
  case inr.inl => exact exec_unasked rfl (takeFlushAnswer_unasked none _) settled
  all_goals exact exec_unasked rfl (takeAnswer_unasked none _) settled

theorem takeDrained_of {s : State} {r : OpRef} {x : Issued} {a : Option Nat} (h : s.Awaits r x (.drained a)) :
    takeDrained r s = freeIssue x.op.slot x.op.id s := by
  have awaited : s.awaited .drained r = some x := by
    unfold State.awaited
    rw [h.1]
    simp [h.2, Owner.kind]
  simp only [takeDrained, awaited]

theorem takeDrained_unasked {s : State} {r : OpRef} (h : s.awaited .drained r = none) : takeDrained r s = s := by
  simp only [takeDrained, h]

/-- Settles O33: the three ends of a timer, and the discards. -/
theorem timersAndStrayAnswers : Obligations.TimersAndStrayAnswers := by
  refine ⟨fun s r x h => ?_, fun s r => ⟨fun x a h => ?_, fun k c u hc => ?_, fun hs h => ?_⟩⟩
  · intro i first late noted count
    obtain ⟨bay, others⟩ := lateAt_bay x s
    refine ⟨fun hd he => ?_, fun hd he => ?_, fun hd => ?_⟩
    · have resent := bay_upd (v := resend i x.op.id (fun y => { y with expiries := 1 }) (lateAt x s)) (s := lateAt x s) rfl
      refine ⟨resend i x.op.id (fun y => { y with expiries := 1 }) (lateAt x s), ?_, ?_, fun j hj => ?_, ?_⟩
      · rw [← expire_first h hd he]
        rfl
      · rw [resent.1, bay]
        simp only [beq_iff_eq]
        rfl
      · rw [resent.2 j hj, others j hj]
      · rw [lateAt_eq]
        rfl
    · obtain ⟨v, hv⟩ : ∃ v, updBay i (fun b => { b with issued := b.issued.filter (·.op.id != x.op.id) }) (lateAt x s) = v :=
        ⟨_, rfl⟩
      have left := bay_upd (v := v) (s := lateAt x s) (by rw [← hv])
      refine ⟨v, ?_, ?_, fun j hj => ?_, ?_, fun hr => ?_, fun h1 h2 => ?_⟩
      · rw [← hv, show exec (.memberOpTimeout r) s = .next (settle (expire r s)) from rfl, expire_second h hd he]
        rfl
      · rw [left.1, bay]
        rfl
      · rw [left.2 j hj, others j hj]
      · rw [← hv, lateAt_eq]
        rfl
      · have role : (v.bay i).role = (s.bay i).role := by rw [left.1, bay]
        exact (bay_upd (failBay_frame (role ▸ hr)).2.1).1
      · have role : (v.bay i).role = (s.bay i).role := by rw [left.1, bay]
        exact failBay_other (role ▸ h1) (role ▸ h2)
    · refine ⟨s.freed x, ?_, rfl, fun y hy => freed_issued hy, ?_, fun j hj => freed_other hj, freed_rest s x⟩
      · rw [← expire_drained h hd]
        rfl
      · rw [(freed_regrant s x i).eq]
  · rw [show exec (.drainedOperationEnd r) s = .next (settle (takeDrained r s)) from rfl, takeDrained_of h]
    exact ⟨rfl, rfl⟩
  · rcases hc with ⟨rfl, rfl⟩ | ⟨ans, hc⟩ | ⟨ans, hc⟩ | ⟨ans, rfl, rfl⟩
    · exact exec_unasked rfl (takeDrained_unasked u.2) u.1
    · exact exec_unasked (exec_readAnswer hc) (takeAnswer_unasked u.2 _) u.1
    · exact exec_writeAnswer_unasked u hc
    · exact exec_unasked rfl (takeAnswer_unasked u.2 _) u.1
  · refine exec_unasked rfl ?_ hs
    simp only [expire, h]

end Sys2Proof.Machine
end

