-- ==== Sys2Proof/Proofs/WriteAnswers.lean ====
section
/-! PROOFS. The answers of reserve-region WRITEs, of member FLUSHes, and of an arrival's INQUIRE and label READ (R40, R58, R81, R92,
R98, R106, R107, R111, R122, R123, R130, R131, R186). -/

namespace Sys2Proof.Machine

/-! ## A WRITE's answer reaches its owner (R126, R128, R130) -/

section
variable {s : State} {r : OpRef} {x : Issued} {o : Owner}

/-- GOOD, or an INQUIRE's content: the slot is freed and the owner learns it. -/
theorem takeAnswer_quiet (h : s.Awaits r x o) {res : OpResult} (hr : ∀ f b, res ≠ .media f b) :
    takeAnswer o.kind r res s = ownerEnd x.op res (s.freed x) := by
  rw [takeAnswer_of h, told_other x res _ hr, heard_other x res s hr]
  rfl

/-- MEDIA for an operation that is no READ: counted and captured first. -/
theorem takeAnswer_media (h : s.Awaits r x o) (hk : x.op.kind.isRead = false) (first : Nat) (bs : List Block) :
    takeAnswer o.kind r (.media first bs) s = ownerEnd x.op (.media first bs)
      ((mediaAt (mediaKind x.op.kind) x.op.slot (mediaBlock x.op.kind first) s).freed x) := by
  rw [takeAnswer_of h, told_write x _ _ hk, heard_write x _ s hk]
  rfl

theorem takeAnswer_written (h : s.Awaits r x o) {f : Nat} {bs : List Block} (hk : x.op.kind = .write f bs) (first : Nat) :
    takeAnswer o.kind r (.media first []) s
      = ownerEnd x.op (.media first []) ((mediaAt .mediaWrite x.op.slot first s).freed x) := by
  rw [takeAnswer_media h (by rw [hk]; rfl), hk]
  rfl

end

/-! ## Reserve-region WRITEs (R58, R81, R130) -/

/-- What an owner of a reserve-region WRITE does with its end: GOOD is counted off, the first MEDIA is handed over again, the
second fails the bay and is counted off; a released label's is only counted off (R111). -/
structure Reserved (s : State) (r : OpRef) (x : Issued) (c : WriteAnswer → Instr) (o : Bool → Owner) (cls : OpClass)
    (ended : State → State) (again : Bool) : Prop where
  answer   : ∀ ans, exec (c ans) s = .next (settle (takeAnswer (o again).kind r (writeResult ans) s))
  good     : ∀ t, ownerEnd x.op (.good []) t = ended t
  first    : again = false → ∀ f t, ownerEnd x.op (.media f []) t = handReserve x.op.slot cls x.op.kind (o true) t
  second   : again = true → o ≠ .releasedLabel → ∀ f t, ownerEnd x.op (.media f []) t = ended (failBay x.op.slot t)
  released : again = true → o = .releasedLabel → ∀ f t, ownerEnd x.op (.media f []) t = ended t

theorem ownerEnd_of {x : Issued} {o : Owner} (h : x.op.owner = o) (res : OpResult) (t : State) :
    ownerEnd x.op res t = ownerEnd { x.op with owner := o } res t := by
  subst h
  rfl

theorem reserved_of {s : State} {r : OpRef} {x : Issued} {c : WriteAnswer → Instr} {o : Bool → Owner} {cls : OpClass}
    {ended : State → State} {again : Bool} (owner : x.op.owner = o again)
    (h : (∃ g, o = .spillColumn g ∧ c = .spillColumnWriteEnd r ∧ cls = .mover
          ∧ ended = updStep g (fun t => { t with outstanding := t.outstanding - 1 }))
      ∨ (o = .spillRecord ∧ c = .spillRecordWriteEnd r ∧ cls = .mark ∧ ended = spillRecordEnded)
      ∨ (((o = .label ∧ c = .labelMemberWriteEnd r) ∨ (o = .assemblyLabel ∧ c = .assemblyLabelWriteEnd r)) ∧ cls = .mark
          ∧ ended = fun t => { t with mark :=
              { t.mark with flight := (t.mark.flight.map (fun f => { f with outstanding := f.outstanding - 1 })) } })
      ∨ (o = .tableCopy ∧ c = .planTableCopyEnd r ∧ cls = .mark
          ∧ ended = fun t => { t with plan := { t.plan with copies := t.plan.copies - 1 } })
      ∨ (o = .assemblyCopy ∧ c = .assemblyLabelWriteEnd r ∧ cls = .mark
          ∧ ended = fun t => { t with asm := { t.asm with copies := t.asm.copies - 1 } })
      ∨ (∃ k, o = .planArea k ∧ c = .planAreaWriteEnd r ∧ cls = .mark
          ∧ ended = fun t => { t with plan := { t.plan with areaWrites :=
              (t.plan.areaWrites.map (fun w => if w.index == k && w.begun then { w with left := w.left - 1 } else w)) } })
      ∨ (o = .releasedLabel ∧ c = .releasedLabelWriteEnd r ∧ cls = .mark
          ∧ ended = fun t => { t with plan := { t.plan with released := t.plan.released - 1 } })) :
    Reserved s r x c o cls ended again := by
  have end_ := ownerEnd_of owner
  have counted (hne : o ≠ .releasedLabel)
      (answer : ∀ ans, exec (c ans) s = .next (settle (takeAnswer (o again).kind r (writeResult ans) s)))
      (arms : ∀ t f, ownerEnd { x.op with owner := o again } (.good []) t = ended t
        ∧ ownerEnd { x.op with owner := o false } (.media f []) t = handReserve x.op.slot cls x.op.kind (o true) t
        ∧ ownerEnd { x.op with owner := o true } (.media f []) t = ended (failBay x.op.slot t)) :
      Reserved s r x c o cls ended again := by
    refine ⟨answer, fun t => (end_ _ t).trans (arms t 0).1, fun ha f t => ?_, fun ha _ f t => ?_, fun _ e => absurd e hne⟩
    · rw [end_, ha, (arms t f).2.1]
    · rw [end_, ha, (arms t f).2.2]
  rcases h with ⟨g, rfl, rfl, rfl, rfl⟩ | ⟨rfl, rfl, rfl, rfl⟩ | ⟨⟨rfl, rfl⟩ | ⟨rfl, rfl⟩, rfl, rfl⟩ | ⟨rfl, rfl, rfl, rfl⟩
    | ⟨rfl, rfl, rfl, rfl⟩ | ⟨k, rfl, rfl, rfl, rfl⟩ | ⟨rfl, rfl, rfl, rfl⟩
  case inr.inr.inr.inr.inr.inr =>
    refine ⟨fun _ => rfl, end_ _, fun ha f t => ?_, fun _ e => absurd rfl e, fun ha _ f t => ?_⟩ <;> rw [end_, ha] <;> rfl
  all_goals exact counted (fun e => nomatch congrFun e true) (fun _ => rfl) fun _ _ => ⟨rfl, rfl, rfl⟩

theorem reservedAnswers {s : State} {r : OpRef} {x : Issued} {c : WriteAnswer → Instr} {o : Bool → Owner} {cls : OpClass}
    {ended : State → State} {again : Bool} {f : Nat} {bs : List Block} (aw : s.Awaits r x (o again))
    (kind : x.op.kind = .write f bs) (owned : Reserved s r x c o cls ended again) :
    exec (c .good) s = .next (settle (ended (s.freed x)))
      ∧ ∀ first, ∃ u, s.MediaWritten x.op.slot first u
        ∧ (again = false →
          exec (c (.media first)) s = .next (settle (handReserve x.op.slot cls x.op.kind (o true) (u.freed x))))
        ∧ (again = true → (o ≠ .releasedLabel →
            exec (c (.media first)) s = .next (settle (ended (failBay x.op.slot (u.freed x)))))
          ∧ (o = .releasedLabel → exec (c (.media first)) s = .next (settle (ended (u.freed x))))) := by
  have media (first : Nat) := takeAnswer_written aw kind first
  refine ⟨?_, fun first => ⟨_, mediaWritten_mediaAt x.op.slot first s, fun ha => ?_, fun ha => ⟨fun hne => ?_, fun he => ?_⟩⟩⟩
  · rw [owned.answer, ← owned.good, ← takeAnswer_quiet aw (fun _ _ => OpResult.noConfusion)]
    rfl
  · rw [owned.answer, ← owned.first ha first, ← media]
    rfl
  · rw [owned.answer, ← owned.second ha hne first, ← media]
    rfl
  · rw [owned.answer, ← owned.released ha he first, ← media]
    rfl

/-! ## Member FLUSHes (R40, R131) -/

theorem awaited_of {s : State} {r : OpRef} {x : Issued} {o : Owner} (h : s.Awaits r x o) : s.awaited o.kind r = some x := by
  unfold State.awaited
  rw [h.1]
  simp [h.2]

section
variable {s : State} {r : OpRef} {x : Issued} {a : Nat}

theorem takeFlushAnswer_good (h : s.Awaits r x (.hostFlush a)) :
    takeFlushAnswer r (.good []) s = ownerEnd x.op (.good []) (s.freed x) := by
  rw [← takeAnswer_quiet h (fun _ _ => OpResult.noConfusion)]
  simp only [takeFlushAnswer, takeAnswer]
  rfl

theorem takeFlushAnswer_again (h : s.Awaits r x (.hostFlush a)) (hm : x.medias = 0) (first : Nat) :
    takeFlushAnswer r (.media first []) s = flushAgain x s := by
  have awaited : s.awaited .hostFlush r = some x := awaited_of h
  simp only [takeFlushAnswer, awaited]
  exact if_pos (by simpa using hm)

theorem takeFlushAnswer_second (h : s.Awaits r x (.hostFlush a)) (hk : x.op.kind = .flush) (hm : x.medias ≠ 0) (first : Nat) :
    takeFlushAnswer r (.media first []) s
      = ownerEnd x.op (.media first []) ((mediaAt .mediaWrite x.op.slot 0 s).freed x) := by
  have awaited : s.awaited .hostFlush r = some x := awaited_of h
  have answer : takeAnswer .hostFlush r (.media first []) s
      = ownerEnd x.op (.media first []) ((mediaAt .mediaWrite x.op.slot 0 s).freed x) := by
    have media := takeAnswer_media h (by rw [hk]; rfl) first []
    rw [hk] at media
    exact media
  rw [← answer]
  simp only [takeFlushAnswer, awaited, takeAnswer]
  exact if_neg (by simpa using hm)

theorem endHostFlush_of (h : s.Awaits r x (.hostFlush a)) (res : OpResult) (t : State) :
    ownerEnd x.op res t = endHostFlush a x.op res t := by
  unfold ownerEnd
  rw [h.2]

theorem flushAgain_frame (x : Issued) (s : State) :
    (flushAgain x s).bay x.op.slot = { s.bay x.op.slot with
        media := bump (s.bay x.op.slot).media
        issued := (s.bay x.op.slot).issued.map (fun y =>
          if y.op.id = x.op.id then { y with sending := y.sending + 1, medias := y.medias + 1 } else y) }
      ∧ (∀ j, j ≠ x.op.slot → (flushAgain x s).bay j = s.bay j)
      ∧ flushAgain x s = { s with
          shelf := (flushAgain x s).shelf, integ := capturedUnit .mediaWrite x.op.slot 0 s
          win := { s.win with events := { s.win.events with dataError := true } } } := by
  obtain ⟨bay, others⟩ := mediaAt_bay .mediaWrite x.op.slot 0 s
  have resent := bay_upd (v := flushAgain x s) (s := mediaAt .mediaWrite x.op.slot 0 s) rfl
  refine ⟨?_, fun j hj => (resent.2 j hj).trans (others j hj), ?_⟩
  · rw [resent.1, bay]
    simp only [beq_iff_eq]
  · rw [flushAgain, mediaAt_eq]
    rfl

end

/-- Settles O36: the counting owners, the released label, and FLUSH. -/
theorem reserveWriteAnswers : Obligations.ReserveWriteAnswers := by
  refine ⟨fun s r x c o cls ended again aw h f bs kind => ?_, fun s r x a aw kind => ?_⟩
  · exact reservedAnswers aw kind (reserved_of aw.2 h)
  · intro off
    refine ⟨?_, fun first => ⟨fun hm => ?_, fun hm => ⟨_, mediaWritten_mediaAt x.op.slot 0 s, ?_⟩⟩⟩
    · show Host.Outcome.next (settle (takeFlushAnswer r (.good []) s)) = _
      rw [takeFlushAnswer_good aw, endHostFlush_of aw]
      rfl
    · obtain ⟨bay, others, rest⟩ := flushAgain_frame x s
      refine ⟨flushAgain x s, ?_, bay, others, ?_, ?_, ?_⟩
      · rw [← takeFlushAnswer_again aw hm first]
        rfl
      · rw [rest]
        rfl
      · rw [rest]
      · rw [rest]
        rfl
    · show Host.Outcome.next (settle (takeFlushAnswer r (.media first []) s)) = _
      rw [takeFlushAnswer_second aw kind hm, endHostFlush_of aw]
      rfl

/-! ## What judging the blocks of a READ leaves (R142) -/

/-- A state in which tag errors of one bay have been counted and captured, and nothing else has changed. -/
structure Judging (i : Slot) (s t : State) : Prop where
  bay    : t.bay i = { s.bay i with tagErrors := (t.bay i).tagErrors }
  others : ∀ j, j ≠ i → t.bay j = s.bay j
  rest   : t = { s with
    shelf := { s.shelf with bays := t.shelf.bays }, win := t.win
    integ := { s.integ with counts := t.integ.counts, capture := t.integ.capture } }

theorem Judging.refl (i : Slot) (s : State) : Judging i s s := ⟨rfl, fun _ _ => rfl, rfl⟩

theorem Judging.trans {i : Slot} {s t u : State} (h : Judging i s t) (g : Judging i t u) : Judging i s u := by
  refine ⟨?_, fun j hj => (g.others j hj).trans (h.others j hj), ?_⟩
  · have bay := g.bay
    rw [h.bay] at bay
    exact bay
  · have rest := g.rest
    rw [h.rest] at rest
    exact rest

theorem tagErrorAt_judging (i : Slot) (block : Nat) (s : State) : Judging i s (tagErrorAt i block s) := by
  have eq := captureAt_updBay .memberTag i block (f := fun b => { b with tagErrors := bump b.tagErrors }) (fun _ => rfl) s
  have bay := bay_upd (v := tagErrorAt i block s) (s := s) (i := i) (f := fun b => { b with tagErrors := bump b.tagErrors }) rfl
  refine ⟨?_, bay.2, ?_⟩
  · rw [bay.1]
  · rw [tagErrorAt, eq]
    rfl

theorem foldl_judging {α : Type} {i : Slot} (f : State → α → State) (hf : ∀ s a, Judging i s (f s a)) (l : List α) :
    ∀ s, Judging i s (l.foldl f s) := by
  induction l with
  | nil => exact Judging.refl i
  | cons a l ih => exact fun s => (hf s a).trans (ih _)

theorem judgeReserve_judging (i : Slot) (first : Nat) (bs : List Block) (s : State) :
    Judging i s (judgeReserve i first bs s) := by
  refine foldl_judging _ (fun s x => ?_) _ s
  split
  · exact Judging.refl i s
  · exact tagErrorAt_judging i _ s

/-! ## An arrival's INQUIRE (R122, R151) -/

theorem recordInquire_bay (i : Slot) (serial : BitVec 64) (cap : Nat) (s : State) :
    ((recordInquire i serial cap s).bay i).ident = some (serial, cap)
      ∧ ((s.bay i).ident.map (·.1) = some serial →
          ((recordInquire i serial cap s).bay i).media = (s.bay i).media
            ∧ ((recordInquire i serial cap s).bay i).remaps = (s.bay i).remaps)
      ∧ ((s.bay i).ident.map (·.1) ≠ some serial →
          ((recordInquire i serial cap s).bay i).media = 0 ∧ ((recordInquire i serial cap s).bay i).tagErrors = 0
            ∧ ((recordInquire i serial cap s).bay i).timeouts = 0 ∧ ((recordInquire i serial cap s).bay i).remaps = []) := by
  rw [recordInquire, updBay_bay_same]
  refine ⟨rfl, fun h => ?_, fun h => ?_⟩
  · rw [if_pos (by simpa using h)]
    exact ⟨rfl, rfl⟩
  · rw [if_neg (by simpa using h)]
    exact ⟨rfl, rfl, rfl, rfl⟩

theorem inquireEnd_good {s : State} {r : OpRef} {x : Issued} (aw : s.Awaits r x .inquire) (serial : BitVec 64) (cap : Nat) :
    ∃ v, exec (.inquireEnd r (.good serial cap)) s
        = .next (settle (handReserve x.op.slot .mark (.read 0 2) .labelRead v))
      ∧ (v.bay x.op.slot).readiness = .reading ∧ (v.bay x.op.slot).ident = some (serial, cap)
      ∧ ((s.bay x.op.slot).ident.map (·.1) = some serial →
          (v.bay x.op.slot).media = (s.bay x.op.slot).media ∧ (v.bay x.op.slot).remaps = (s.bay x.op.slot).remaps)
      ∧ ((s.bay x.op.slot).ident.map (·.1) ≠ some serial →
          (v.bay x.op.slot).media = 0 ∧ (v.bay x.op.slot).tagErrors = 0 ∧ (v.bay x.op.slot).timeouts = 0
            ∧ (v.bay x.op.slot).remaps = []) := by
  have free := (freed_regrant s x x.op.slot).eq
  obtain ⟨ident, same, other⟩ := recordInquire_bay x.op.slot serial cap (s.freed x)
  rw [free] at same other
  have answer : takeAnswer .inquire r (.inquired serial cap) s = ownerEnd x.op (.inquired serial cap) (s.freed x) :=
    takeAnswer_quiet aw (fun _ _ => OpResult.noConfusion)
  refine ⟨updBay x.op.slot (fun b => { b with readiness := .reading }) (recordInquire x.op.slot serial cap (s.freed x)), ?_, ?_⟩
  · show Host.Outcome.next (settle (takeAnswer .inquire r (.inquired serial cap) s)) = _
    rw [answer, ownerEnd_of aw.2]
    rfl
  · rw [updBay_bay_same]
    exact ⟨rfl, ident, same, other⟩

theorem inquireEnd_media {s : State} {r : OpRef} {x : Issued} (aw : s.Awaits r x .inquire) (hk : x.op.kind = .inquire) :
    ∃ u, s.MediaRead x.op.slot 0 u ∧ exec (.inquireEnd r .media) s = .next (settle (updBay x.op.slot
      (fun b => { b with readiness := .unready, role := (if b.position.isSome then b.role else .none) }) (u.freed x))) := by
  have answer : takeAnswer .inquire r (.media 0 []) s
      = ownerEnd x.op (.media 0 []) ((mediaAt .mediaRead x.op.slot 0 s).freed x) := by
    have media := takeAnswer_media aw (by rw [hk]; rfl) 0 []
    rw [hk] at media
    exact media
  refine ⟨_, mediaRead_mediaAt x.op.slot 0 s, ?_⟩
  show Host.Outcome.next (settle (takeAnswer .inquire r (.media 0 []) s)) = _
  rw [answer, ownerEnd_of aw.2]
  rfl

/-! ## An arrival's label READ (R122, R123, R175) -/

theorem updBay_updBay (i : Slot) (f g : Bay → Bay) (s : State) : updBay i f (updBay i g s) = updBay i (fun b => f (g b)) s := by
  simp [updBay, State.setBay, State.bay]

/-- The count of a MEDIA and a change of role do not meet. -/
theorem mediaAt_role (k : CaptureKind) (i : Slot) (block : Nat) (role : Role) (s : State) :
    mediaAt k i block (updBay i (fun b => { b with role := role }) s)
      = updBay i (fun b => { b with role := role }) (mediaAt k i block s) := by
  have remaps : ((updBay i (fun b => { b with role := role }) s).bay i).remaps = (s.bay i).remaps := by rw [updBay_bay_same]
  have unit : capturedUnit k i block (updBay i (fun b => { b with role := role }) s) = capturedUnit k i block s := by
    unfold capturedUnit captureOf
    rw [homeOf_congr (s := s) (t := updBay i (fun b => { b with role := role }) s) block rfl remaps,
      lbaAt_congr (s := s) (t := updBay i (fun b => { b with role := role }) s) block rfl rfl remaps]
    rfl
  rw [mediaAt_eq, mediaAt_eq, unit, updBay_updBay]
  have swap : (updBay i (fun b => { b with role := role }) (updBay i (fun b => { b with media := bump b.media }) s)).shelf
      = (updBay i (fun b => { { b with role := role } with media := bump b.media }) s).shelf := by
    rw [updBay_updBay]
  rw [← swap]
  rfl

theorem arrivalRole_congr {s t : State} {i : Slot} (plan : t.plan = s.plan) (ctl : t.ctl = s.ctl)
    (bay : t.bay i = { s.bay i with media := (t.bay i).media }) : t.arrivalRole i = s.arrivalRole i := by
  unfold State.arrivalRole State.listedSerial
  rw [plan, ctl, bay]

/-- What a label READ found, by its result. -/
def foundLabel (res : OpResult) (serial : Option (BitVec 64)) : Option Label :=
  match res with
  | .good bs => validLabel bs serial
  | _ => none

/-- The state in which a label READ has been judged and the bay is READY, its role not yet set. -/
def labelled (i : Slot) (res : OpResult) (s : State) : State :=
  updBay i (fun b => { b with
    label := foundLabel res ((s.bay i).ident.map (·.1))
    labelFound := (foundLabel res ((s.bay i).ident.map (·.1))).map (fun l => (l.identity, l.generation))
    readiness := .ready }) (judgeReserve i 0 (res.blocks.take 2) s)

theorem endLabelRead_eq (i : Slot) (res : OpResult) (s : State) (h : res ≠ .gone) :
    endLabelRead i res s = if s.asm.stage = .scan then labelled i res s
      else updBay i (fun b => { b with role := (labelled i res s).arrivalRole i }) (labelled i res s) := by
  have judged := judgeReserve_judging i 0 (res.blocks.take 2) s
  have ident : ((judgeReserve i 0 (res.blocks.take 2) s).bay i).ident = (s.bay i).ident := by rw [judged.bay]
  have stage : (judgeReserve i 0 (res.blocks.take 2) s).asm.stage = s.asm.stage := by rw [judged.rest]
  have state : endLabelRead i res s = if (judgeReserve i 0 (res.blocks.take 2) s).asm.stage == .scan then labelled i res s
      else updBay i (fun b => { b with role := (labelled i res s).arrivalRole i }) (labelled i res s) := by
    unfold labelled
    rw [← ident]
    cases res with
    | gone => exact absurd rfl h
    | good | inquired | media | timeout => rfl
  rw [state, stage]
  exact if_congr beq_iff_eq rfl rfl

theorem labelled_bay (i : Slot) (res : OpResult) (s : State) : (labelled i res s).bay i = { s.bay i with
    tagErrors := ((labelled i res s).bay i).tagErrors
    label := foundLabel res ((s.bay i).ident.map (·.1))
    labelFound := (foundLabel res ((s.bay i).ident.map (·.1))).map (fun l => (l.identity, l.generation))
    readiness := .ready } := by
  have judged := (judgeReserve_judging i 0 (res.blocks.take 2) s).bay
  rw [labelled, updBay_bay_same, judged]

/-- What the capture of a MEDIA leaves behind a label READ: nothing the role looks at. -/
theorem told_labelled {x : Issued} (hr : x.op.kind.isRead = true) (res : OpResult) (w : State) :
    ∃ v, (∀ role, x.told res (updBay x.op.slot (fun b => { b with role := role }) w)
          = updBay x.op.slot (fun b => { b with role := role }) v)
      ∧ x.told res w = v ∧ v.arrivalRole x.op.slot = w.arrivalRole x.op.slot ∧ v.asm = w.asm
      ∧ v.bay x.op.slot = { w.bay x.op.slot with media := (v.bay x.op.slot).media } := by
  by_cases hm : ∃ first bs, res = .media first bs
  · obtain ⟨first, bs, rfl⟩ := hm
    have note (t : State) : x.told (.media first bs) t
        = mediaAt (mediaKind x.op.kind) x.op.slot (mediaBlock x.op.kind first) t := told_read x _ t hr
    have bay := (mediaAt_bay (mediaKind x.op.kind) x.op.slot (mediaBlock x.op.kind first) w).1
    have eq := mediaAt_eq (mediaKind x.op.kind) x.op.slot (mediaBlock x.op.kind first) w
    refine ⟨_, fun role => ?_, note w, arrivalRole_congr (by rw [eq]) (by rw [eq]) (by rw [bay]), by rw [eq], by rw [bay]⟩
    rw [note, mediaAt_role]
  · have quiet (t : State) : x.told res t = t := told_other x res t fun f b e => hm ⟨f, b, e⟩
    exact ⟨w, fun role => quiet _, quiet w, rfl, rfl, rfl⟩

theorem labelReadEnd_eq {s : State} {r : OpRef} {x : Issued} (aw : s.Awaits r x .labelRead) (hr : x.op.kind.isRead = true)
    (ans : ReadAnswer) : ∃ w, exec (.labelReadEnd r ans) s
        = .next (settle (if s.asm.stage = .scan then w
            else updBay x.op.slot (fun b => { b with role := w.arrivalRole x.op.slot }) w))
      ∧ w.bay x.op.slot = { (labelled x.op.slot (readResult ans) (s.freed x)).bay x.op.slot with
          media := (w.bay x.op.slot).media } := by
  have answer : takeAnswer .labelRead r (readResult ans) s
      = x.told (readResult ans) (endLabelRead x.op.slot (readResult ans) (s.freed x)) := by
    refine (takeAnswer_of aw _).trans ?_
    rw [heard_read x _ s hr, ownerEnd_of aw.2]
    rfl
  obtain ⟨w, role, told, arrival, -, bay⟩ := told_labelled hr (readResult ans) (labelled x.op.slot (readResult ans) (s.freed x))
  refine ⟨w, ?_, bay⟩
  show Host.Outcome.next (settle (takeAnswer .labelRead r (readResult ans) s)) = _
  rw [answer, endLabelRead_eq _ _ _ (by cases ans <;> exact OpResult.noConfusion), arrival]
  show Host.Outcome.next (settle (x.told (readResult ans) (if s.asm.stage = .scan then _ else _))) = _
  split
  · rw [told]
  · rw [role]

/-- Settles O37: the two ends of an INQUIRE, and the label READ. -/
theorem arrivalAnswers : Obligations.ArrivalAnswers := by
  intro s r x
  refine ⟨fun aw hk => ⟨inquireEnd_good aw, inquireEnd_media aw hk⟩, fun aw hr ans => ?_⟩
  obtain ⟨w, he, bay⟩ := labelReadEnd_eq aw hr ans
  have found := labelled_bay x.op.slot (readResult ans) (s.freed x)
  have free := (freed_regrant s x x.op.slot).eq
  have ident : ((s.freed x).bay x.op.slot).ident = (s.bay x.op.slot).ident := by rw [free]
  have role : ((s.freed x).bay x.op.slot).role = (s.bay x.op.slot).role := by rw [free]
  rw [ident] at found
  rw [found] at bay
  refine ⟨w, he, by rw [bay], ?_, by rw [bay], fun bs e => ?_, fun first bs e => ?_⟩
  · rw [bay]
    exact role
  · rw [bay, e]
    rfl
  · rw [bay, e]
    rfl

end Sys2Proof.Machine
end

