-- ==== Sys2Proof/Proofs/DataWrites.lean ====
section
/-! PROOFS. The ends of data-area WRITEs: stains, poison written, and the way a WRITE's end takes to its owner (R38, R53, R55, R59,
R130, R152). -/

namespace Sys2Proof.Machine

/-! ## A change of the steps the mover holds -/

/-- The state with other contents of the staging slots. -/
def withSlots (s : State) (a b : Option Step) : State := { s with mover := { s.mover with slotA := a, slotB := b } }

theorem withSlots_stepIn (s : State) (F : Step → Step) (g : Staging) :
    (withSlots s (s.mover.slotA.map F) (s.mover.slotB.map F)).stepIn g = (s.stepIn g).map F := by
  cases g <;> rfl

/-- A fold over what a slot holds that changes the step in its slot. -/
theorem foldl_slot (P : Step → Bool) (F : Step → Step) (h : State → Staging × Step → State) (g : Staging)
    (put : Option Step → State) (hp : ∀ t, h (put (some t)) (g, t) = put (some (F t))) (o : Option Step) :
    ((o.map (fun t => (g, t))).toList.filter (fun p => P p.2)).foldl h (put o) = put (o.map fun t => if P t then F t else t) := by
  cases o with
  | none => rfl
  | some t =>
    by_cases pt : P t = true
    · simp only [Option.map_some, Option.toList_some, List.filter_cons, pt, if_true, List.filter_nil, List.foldl_cons,
        List.foldl_nil, hp]
    · simp only [Option.map_some, Option.toList_some, List.filter_cons, pt, Bool.false_eq_true, if_false, List.filter_nil,
        List.foldl_nil]

/-- A fold over some of the steps held that changes each in its slot changes exactly those. -/
theorem foldl_steps (s : State) (P : Step → Bool) (F : Step → Step) (h : State → Staging × Step → State)
    (ha : ∀ t b, h (withSlots s (some t) b) (.a, t) = withSlots s (some (F t)) b)
    (hb : ∀ t a, h (withSlots s a (some t)) (.b, t) = withSlots s a (some (F t))) :
    (s.steps.filter (fun p => P p.2)).foldl h s
      = withSlots s (s.mover.slotA.map fun t => if P t then F t else t) (s.mover.slotB.map fun t => if P t then F t else t) := by
  unfold State.steps
  rw [List.filter_append, List.foldl_append]
  have first := foldl_slot P F h .a (fun a => withSlots s a s.mover.slotB) (fun t => ha t _) s.mover.slotA
  have self : withSlots s s.mover.slotA s.mover.slotB = s := rfl
  simp only [self] at first
  rw [first]
  exact foldl_slot P F h .b (withSlots s _) (fun t => hb t _) s.mover.slotB

/-! ## Stains and pins (R53, R55) -/

/-- A step takes the stains of some units (R53). -/
def Step.stainAll (us : List RowUnit) (t : Step) : Step := us.foldl (fun t u => t.stain u) t

/-- A step after a WRITE to a bay's rows: stained while it gathers. -/
def State.stainedBy (s : State) (i : Slot) (rows : List Nat) (t : Step) : Step :=
  if t.stage == .gather then t.stainAll (s.readAt t i rows) else t

theorem stainSteps_eq (i : Slot) (rows : List Nat) (s : State) :
    stainSteps i rows s
      = withSlots s (s.mover.slotA.map (s.stainedBy i rows)) (s.mover.slotB.map (s.stainedBy i rows)) := by
  refine foldl_steps s (fun t => t.stage == .gather) (fun t => t.stainAll (s.readAt t i rows)) _ (fun t b => ?_) (fun t a => ?_)
  · have all (us : List RowUnit) : ∀ v, us.foldl (fun u w => updStep .a (Step.stain w) u) (withSlots s (some v) b)
        = withSlots s (some (v.stainAll us)) b := by
      induction us with
      | nil => exact fun _ => rfl
      | cons w us ih => exact fun v => ih (v.stain w)
    exact all _ t
  · have all (us : List RowUnit) : ∀ v, us.foldl (fun u w => updStep .b (Step.stain w) u) (withSlots s a (some v))
        = withSlots s a (some (v.stainAll us)) := by
      induction us with
      | nil => exact fun _ => rfl
      | cons w us ih => exact fun v => ih (v.stain w)
    exact all _ t

theorem stainSteps_stepIn (i : Slot) (rows : List Nat) (s : State) (g : Staging) :
    (stainSteps i rows s).stepIn g = (s.stepIn g).map (s.stainedBy i rows) := by
  rw [stainSteps_eq]
  exact withSlots_stepIn s _ g

theorem Step.stainAll_eq (us : List RowUnit) : ∀ t : Step, ∃ more, t.stainAll us = { t with stained := t.stained ++ more }
    ∧ (∀ w, w ∈ t.stained ++ more ↔ w ∈ t.stained ∨ w ∈ us) ∧ (t.stained.Nodup → (t.stained ++ more).Nodup) := by
  induction us with
  | nil => exact fun t => ⟨[], by rw [List.append_nil]; rfl, by simp, by simp⟩
  | cons u us ih =>
    intro t
    obtain ⟨more, eq, mem, nodup⟩ := ih (t.stain u)
    by_cases h : t.stained.contains u = true
    · have same : t.stain u = t := if_pos h
      rw [same] at eq mem nodup
      have held : u ∈ t.stained := List.contains_iff_mem.mp h
      refine ⟨more, by rw [← eq, stainAll, List.foldl_cons, same]; rfl, fun w => ?_, nodup⟩
      rw [mem, List.mem_cons]
      exact ⟨fun e => e.imp_right .inr, fun e => e.elim .inl fun e => e.elim (fun e => .inl (e ▸ held)) .inr⟩
    · have added : t.stain u = { t with stained := t.stained ++ [u] } := if_neg h
      have new : u ∉ t.stained := fun e => h (List.contains_iff_mem.mpr e)
      rw [added] at eq mem nodup
      refine ⟨u :: more, ?_, fun w => ?_, fun nd => ?_⟩
      · rw [stainAll, List.foldl_cons, added]
        exact eq.trans (by simp)
      · have := mem w
        simp only [List.append_assoc, List.singleton_append, List.mem_append, List.mem_singleton] at this
        rw [List.mem_append, this, List.mem_cons, or_assoc]
      · have := nodup (List.nodup_append.mpr ⟨nd, List.nodup_singleton u, fun a ha b hb e => new (by simp_all)⟩)
        rwa [List.append_assoc] at this

theorem mem_readAt {s : State} {t : Step} {i : Slot} {rows : List Nat} {w : RowUnit} :
    w ∈ s.readAt t i rows ↔ w ∈ t.readSet ∧ w.row ∈ rows ∧ s.bayAt t.fetch.layout w.row w.pos = some i := by
  simp [State.readAt, List.mem_filter]

/-- A step under the stain limit in force: pinned when it gathers and its count has reached it. -/
def State.pinnedBy (s : State) (t : Step) : Step :=
  if t.stage == .gather && s.ctl.tuning.stainLimit ≤ t.stains then { t with pinned := true } else t

theorem repin_eq (s : State) :
    repin s = withSlots s (s.mover.slotA.map s.pinnedBy) (s.mover.slotB.map s.pinnedBy) :=
  foldl_steps s (fun t => t.stage == .gather && s.ctl.tuning.stainLimit ≤ t.stains) (fun t => { t with pinned := true }) _
    (fun _ _ => rfl) (fun _ _ => rfl)

/-- O43, its first part: the stains. -/
theorem stainSteps_stains (s : State) (i : Slot) (rows : List Nat) (g : Staging) (t : Step) (h : s.stepIn g = some t) :
    ∃ v, (stainSteps i rows s).stepIn g = some v ∧ v = { t with stained := v.stained }
      ∧ (t.stage ≠ .gather → v = t)
      ∧ (t.stage = .gather →
        (∀ w, w ∈ v.stained ↔ w ∈ t.stained
          ∨ (w ∈ t.readSet ∧ w.row ∈ rows ∧ s.bayAt t.fetch.layout w.row w.pos = some i))
        ∧ (∃ more, v.stained = t.stained ++ more) ∧ (t.stained.Nodup → v.stained.Nodup)) := by
  refine ⟨s.stainedBy i rows t, by rw [stainSteps_stepIn, h]; rfl, ?_⟩
  by_cases stage : t.stage = .gather
  · obtain ⟨more, eq, mem, nodup⟩ := t.stainAll_eq (s.readAt t i rows)
    have taken : s.stainedBy i rows t = { t with stained := t.stained ++ more } := (if_pos (by simp [stage])).trans eq
    rw [taken]
    refine ⟨rfl, fun e => absurd stage e, fun _ => ⟨fun w => ?_, ⟨more, rfl⟩, nodup⟩⟩
    rw [mem, mem_readAt]
  · have same : s.stainedBy i rows t = t := if_neg (by simpa using stage)
    rw [same]
    exact ⟨rfl, fun _ => rfl, fun e => absurd e stage⟩

/-- O43, its second part: the pin of a lowered limit. -/
theorem repin_pins (s : State) (g : Staging) (t : Step) (h : s.stepIn g = some t) : ∃ v, (repin s).stepIn g = some v
      ∧ v = { t with pinned := v.pinned }
      ∧ (v.pinned = true ↔ t.pinned = true ∨ (t.stage = .gather ∧ s.ctl.tuning.stainLimit ≤ t.stains)) := by
  rw [repin_eq, withSlots_stepIn, h]
  refine ⟨_, rfl, ?_⟩
  by_cases due : t.stage = .gather ∧ s.ctl.tuning.stainLimit ≤ t.stains
  · have pinned : s.pinnedBy t = { t with pinned := true } := if_pos (by simp [due])
    rw [pinned]
    exact ⟨rfl, by simp [due]⟩
  · have same : s.pinnedBy t = t := if_neg (by rwa [Bool.and_eq_true, beq_iff_eq, decide_eq_true_eq])
    rw [same]
    exact ⟨rfl, by simp [due]⟩

/-! ## A host write's WRITE (R38, R53) -/

theorem zip_range_modify {α : Type} (f : α → α) (idx : Nat) (l : List α) :
    (l.zip (List.range l.length)).map (fun x => if x.2 == idx then f x.1 else x.1) = l.modify idx f := by
  apply List.ext_getElem
  · simp
  · intro n h1 h2
    simp only [List.getElem_map, List.getElem_zip, List.getElem_range, List.getElem_modify, beq_iff_eq, @eq_comm _ n idx]

/-- A request with a WRITE of one of its rows counted off. -/
def Entry.writeOff (idx : Nat) (e : Entry) : Entry :=
  { e with rows := e.rows.modify idx (fun w => { w with outstanding := w.outstanding - 1 }) }

theorem endHostWrite_eq (a idx : Nat) (op : MemberOp) (s : State) :
    endHostWrite a idx op s = { s with
      port := { s.port with entries := s.port.entries.map (fun e => if e.arrival = a then e.writeOff idx else e) }
      mover := (stainSteps op.slot (s.rowsOf op) s).mover
      todo := s.todo ++ [.advance a] } := by
  have off : (fun e : Entry => { e with rows := (e.rows.zip (List.range e.rows.length)).map (fun x =>
      if x.2 == idx then { x.1 with outstanding := x.1.outstanding - 1 } else x.1) }) = Entry.writeOff idx :=
    funext fun e => congrArg (fun rs => { e with rows := rs })
      (zip_range_modify (fun w : RowWork => { w with outstanding := w.outstanding - 1 }) idx e.rows)
  have eq : endHostWrite a idx op s
      = push (.advance a) (updReq a (Entry.writeOff idx) (stainSteps op.slot (s.rowsOf op) s)) :=
    congrArg (fun f => push (.advance a) (updReq a f (stainSteps op.slot (s.rowsOf op) s))) off
  rw [eq, stainSteps_eq]
  simp only [updReq, push, beq_iff_eq]
  rfl

theorem endHostWrite_stepIn (a idx : Nat) (op : MemberOp) (s : State) (g : Staging) :
    (endHostWrite a idx op s).stepIn g = (stainSteps op.slot (s.rowsOf op) s).stepIn g := by
  rw [endHostWrite_eq]
  cases g <;> rfl

/-! ## The way of a data-area WRITE's end (R130, R152) -/

/-- What an owner of a data-area WRITE does with an end that is its own. -/
structure DataWriter (s : State) (r : OpRef) (x : Issued) (c : WriteAnswer → Instr) (o : Owner)
    (ended : OpResult → State → State) : Prop where
  answer : ∀ ans, exec (c ans) s = .next (settle (takeAnswer o.kind r (writeResult ans) s))
  owner  : ∀ res t, ownerEnd x.op res t = endDataWrite x.op res ended t

theorem dataWriter_of {s : State} {r : OpRef} {x : Issued} {c : WriteAnswer → Instr} {o : Owner}
    {ended : OpResult → State → State} (owner : x.op.owner = o)
    (h : (∃ a row, o = .hostWriteWrite a row ∧ c = .hostWriteMemberWriteEnd r ∧ ended = fun _ => endHostWrite a row x.op)
      ∨ (∃ g, o = .place g ∧ c = .placeWriteEnd r
          ∧ ended = fun res t => updStep g (fun t => { t with outstanding := t.outstanding - 1 }) (notePoison g x.op res t))
      ∨ (o = .restorePlace ∧ c = .restorePlaceWriteEnd r
          ∧ ended = fun _ => updStep .a (fun t => { t with outstanding := t.outstanding - 1 }))
      ∨ (o = .writeBack ∧ c = .writeBackEnd r
          ∧ ended = fun _ t => releaseHeld { t with integ :=
              { t.integ with repairs := (t.integ.repairs.filter (fun k => k.op != x.op.id)) } })) :
    DataWriter s r x c o ended := by
  rcases h with ⟨a, row, rfl, rfl, rfl⟩ | ⟨g, rfl, rfl, rfl⟩ | ⟨rfl, rfl, rfl⟩ | ⟨rfl, rfl, rfl⟩
  all_goals exact ⟨fun _ => rfl, fun res t => by rw [ownerEnd, owner] <;> rfl⟩

theorem endDataWrite_media (op : MemberOp) (first : Nat) (bs : List Block) (owner : OpResult → State → State) (s : State) :
    (((s.bay op.slot).role = .member ∨ (s.bay op.slot).role = .joining) →
        endDataWrite op (.media first bs) owner s = remapDecision op first s)
      ∧ ((s.bay op.slot).role ≠ .member → (s.bay op.slot).role ≠ .joining →
        endDataWrite op (.media first bs) owner s = owner (.media first bs) s) := by
  refine ⟨fun h => if_pos ?_, fun h1 h2 => if_neg ?_⟩
  · simpa using h
  · simp [h1, h2]

theorem notePoison_good {s : State} {g : Staging} {t : Step} {l : Layout} (op : MemberOp) (bs : List Block)
    (ht : s.stepIn g = some t) (hl : s.written = some l) :
    (notePoison g op (.good bs) s).stepIn g
      = some { t with poisoned := t.poisoned ++ (s.poisonIn t l op).map (fun c => (op.slot, c)) } := by
  simp only [notePoison, ht, hl]
  cases g with
  | a => exact congrArg (Option.map _) ht
  | b => exact congrArg (Option.map _) ht

theorem notePoison_other {res : OpResult} (h : ∀ bs, res ≠ .good bs) (s : State) (g : Staging) (op : MemberOp) :
    notePoison g op res s = s := by
  cases res with
  | good bs => exact absurd rfl (h bs)
  | media f bs => rfl
  | inquired n c => rfl
  | timeout => rfl
  | gone => rfl

/-- Settles O35: the way to the owner, the host write's row with its stains, and the poison noted. -/
theorem dataWriteAnswers : Obligations.DataWriteAnswers := by
  refine ⟨fun s r x c o ended f bs aw kind h => ?_, fun s a idx op => ?_, fun s g op res t l ht hl => ⟨?_, ?_⟩⟩
  · have owned := dataWriter_of (s := s) (r := r) aw.2 h
    refine ⟨?_, fun first => ⟨_, mediaWritten_mediaAt x.op.slot first s, ?_⟩⟩
    · rw [owned.answer, show writeResult .good = .good [] from rfl, takeAnswer_quiet aw (fun _ _ => OpResult.noConfusion),
        owned.owner]
      rfl
    · have answer : exec (c (.media first)) s = .next (settle (endDataWrite x.op (.media first []) ended
          ((mediaAt .mediaWrite x.op.slot first s).freed x))) := by
        rw [owned.answer, show writeResult (.media first) = .media first [] from rfl, takeAnswer_written aw kind, owned.owner]
      have role : (((mediaAt .mediaWrite x.op.slot first s).freed x).bay x.op.slot).role = (s.bay x.op.slot).role := by
        rw [(freed_regrant _ x x.op.slot).eq]
        show ((mediaAt .mediaWrite x.op.slot first s).bay x.op.slot).role = _
        rw [(mediaAt_bay .mediaWrite x.op.slot first s).1]
      obtain ⟨decided, passed⟩ := endDataWrite_media x.op first [] ended ((mediaAt .mediaWrite x.op.slot first s).freed x)
      rw [role] at decided passed
      exact ⟨fun hr => by rw [answer, decided hr], fun h1 h2 => by rw [answer, passed h1 h2]⟩
  · intro t
    have step (g : Staging) : t.stepIn g = (s.stepIn g).map (s.stainedBy op.slot (s.rowsOf op)) :=
      (endHostWrite_stepIn a idx op s g).trans (stainSteps_stepIn _ _ s g)
    have eq : t = _ := endHostWrite_eq a idx op s
    refine ⟨by rw [eq], by rw [eq], by rw [eq]; rfl, fun g p hp stage => ?_, fun g p hp stage => ?_⟩
    · rw [step, hp]
      exact congrArg some (if_neg (by simpa using stage))
    · obtain ⟨more, taken, mem, -⟩ := p.stainAll_eq (s.readAt p op.slot (s.rowsOf op))
      refine ⟨more, ?_, fun u => by rw [mem, mem_readAt]⟩
      rw [step, hp, ← taken]
      exact congrArg some (if_pos (by simp [stage]))
  · rintro bs rfl
    exact notePoison_good op bs ht hl
  · exact fun h => notePoison_other h s g op
end Sys2Proof.Machine
end

