-- ==== Sys2Proof/Proofs/Remaps.lean ====
section
/-! PROOFS. The remap decision and the end of a fill's spare-slot WRITE (R152 to R154). -/

namespace Sys2Proof.Machine

/-! ## The remap decision (R152) -/

theorem remapDecision_fails {op : MemberOp} {first : Nat} {s : State}
    (h : op.kind.span.1 < 16384 ∨ (∃ m ∈ (s.bay op.slot).remaps, m.row = s.failingRow op first)
      ∨ ∀ k, k < 8 → ∃ m ∈ (s.bay op.slot).remaps, m.spare = k) :
    remapDecision op first s = push (.opEnd op .gone) (failBay op.slot s) := by
  unfold remapDecision
  dsimp only
  rcases h with h | ⟨m, mem, row⟩ | h
  · exact if_pos (by simp [Config.dataBase, h])
  · refine if_pos ?_
    rw [Bool.or_eq_true]
    exact .inr (List.any_eq_true.mpr ⟨m, mem, beq_iff_eq.mpr row⟩)
  · rw [freeSpare_none _ h]
    split <;> rfl

/-- A fill that begins: the bay has one entry more, and nothing outside the shelf, the integrity unit and the events changes. -/
theorem beginFill_handed (op : MemberOp) (row spare : Nat) (l : Layout) (pos : Nat) (s : State) :
    Handed op.slot
      (updBay op.slot (fun b =>
        { b with remaps := b.remaps ++ [{ row := row, spare := spare, hard := false, filling := true }] }) s)
      (beginFill op row spare l pos s) := by
  refine (recall_handed op.slot row _).trans ?_
  unfold beginFill
  dsimp only
  refine Handed.fills ?_ (fillReads_handed _ _)
  rfl

theorem remapDecision_fills {op : MemberOp} {first k : Nat} {s : State} (data : 16384 ≤ op.kind.span.1)
    (fresh : ∀ m ∈ (s.bay op.slot).remaps, m.row ≠ s.failingRow op first) (hk : k < 8)
    (free : ∀ m ∈ (s.bay op.slot).remaps, m.spare ≠ k) (lowest : ∀ j, j < k → ∃ m ∈ (s.bay op.slot).remaps, m.spare = j)
    (place : (s.placeOf op.slot (s.failingRow op first)).isSome = true) :
    ∃ l pos, remapDecision op first s = beginFill op (s.failingRow op first) k l pos s := by
  obtain ⟨⟨l, pos⟩, hp⟩ := Option.isSome_iff_exists.mp place
  refine ⟨l, pos, ?_⟩
  have open_ : ¬(decide (op.kind.span.1 < Config.dataBase)
      || (s.bay op.slot).remaps.any (fun m => m.row == s.failingRow op first)) = true := by
    rw [Bool.or_eq_true, decide_eq_true_eq, List.any_eq_true]
    rintro (h | ⟨m, mem, row⟩)
    · exact absurd (show op.kind.span.1 < 16384 from h) (by omega)
    · exact fresh m mem (beq_iff_eq.mp row)
  unfold remapDecision
  dsimp only
  rw [if_neg open_, freeSpare_some _ k hk free lowest, hp]

/-! ## The end of a fill's spare-slot WRITE (R153, R154) -/

/-- A remap entry after its unit's filling has ended. -/
def Remap.adopted (row : Nat) (m : Remap) : Remap := if m.row == row then { m with filling := false } else m

theorem adoptRemap_frame (i : Slot) (row : Nat) (s : State) :
    ((adoptRemap i row s).bay i).remaps = (s.bay i).remaps.map (Remap.adopted row)
      ∧ adoptRemap i row s = { s with shelf := (adoptRemap i row s).shelf, win := (adoptRemap i row s).win }
      ∧ ((adoptRemap i row s).win.events.remapAdded = true ↔ s.win.events.remapAdded = true
          ∨ ∃ m ∈ (s.bay i).remaps, m.row = row ∧ m.filling = true) := by
  by_cases h : (s.bay i).remaps.any (fun r => r.row == row && r.filling) = true
  · have eq : adoptRemap i row s = raise .remapAdded
        (updBay i (fun b => { b with remaps := b.remaps.map (Remap.adopted row) }) s) := if_pos h
    obtain ⟨m, mem, hm⟩ := List.any_eq_true.mp h
    rw [eq]
    refine ⟨?_, rfl, fun _ => .inr ⟨m, mem, by simpa using hm⟩, fun _ => rfl⟩
    exact congrArg Bay.remaps (updBay_bay_same i (fun b => { b with remaps := b.remaps.map (Remap.adopted row) }) s)
  · have eq : adoptRemap i row s = s := if_neg h
    have none (m : Remap) (hm : m ∈ (s.bay i).remaps) : ¬(m.row = row ∧ m.filling = true) := fun e =>
      h (List.any_eq_true.mpr ⟨m, hm, by simp [e]⟩)
    rw [eq]
    refine ⟨?_, rfl, fun e => .inl e, fun e => e.resolve_right fun ⟨m, hm, e⟩ => none m hm e⟩
    refine (List.map_id _).symm.trans (List.map_congr_left fun m hm => ?_)
    by_cases row : m.row = row
    · have quiet : m.filling = false := by simpa using fun e => none m hm ⟨row, e⟩
      cases m
      simp_all [Remap.adopted]
    · exact (if_neg (by simpa using row)).symm

theorem removeFill_fillOf (i : Slot) (row : Nat) (s : State) : (removeFill i row s).fillOf i row = none := by
  unfold removeFill State.fillOf
  dsimp only
  rw [List.find?_eq_none]
  intro f hf
  have other := (List.mem_filter.mp hf).2
  rw [Bool.not_eq_true'] at other
  rw [other]
  exact Bool.false_ne_true

/-- Settles O59: the decision, and the two ends of the spare-slot WRITE. -/
theorem remapAndFill : Obligations.RemapAndFill := by
  refine ⟨fun s op first => ⟨remapDecision_fails, fun k data fresh hk free lowest place => ?_⟩, fun s r x i row f aw hf kind => ?_⟩
  · obtain ⟨l, pos, eq⟩ := remapDecision_fills data fresh hk free lowest place
    have begun := beginFill_handed op (s.failingRow op first) k l pos s
    have bay := bay_upd (s := s) (i := op.slot) (v := updBay op.slot (fun b => { b with remaps := b.remaps
        ++ [{ row := s.failingRow op first, spare := k, hard := false, filling := true }] }) s) rfl
    intro t
    rw [show t = _ from eq]
    refine ⟨?_, ?_, fun j hj => (begun.other j hj).trans (bay.2 j hj), begun.out, begun.port, begun.ctl, begun.win⟩
    · rw [begun.remaps, bay.1]
    · rw [begun.role, bay.1]
  · have owner (res : OpResult) (t : State) : ownerEnd x.op res t = endSpareWrite i row res t := ownerEnd_of aw.2 res t
    obtain ⟨b, bs, kind⟩ := kind
    refine ⟨?_, fun first => ⟨_, mediaWritten_mediaAt x.op.slot first s, ?_⟩⟩
    · obtain ⟨remaps, rest, event⟩ := adoptRemap_frame i row (removeFill i row (s.freed x))
      have free := (freed_regrant s x i).eq
      have table : ((removeFill i row (s.freed x)).bay i).remaps = (s.bay i).remaps := by
        show ((s.freed x).bay i).remaps = _
        rw [free]
      rw [table] at remaps event
      refine ⟨push (.opEnd f.failed (.good [])) (adoptRemap i row (removeFill i row (s.freed x))), ?_, ?_, ?_, remaps, event⟩
      · show Host.Outcome.next (settle (takeAnswer .spareWrite r (.good []) s)) = _
        have quiet : takeAnswer .spareWrite r (.good []) s = ownerEnd x.op (.good []) (s.freed x) :=
          takeAnswer_quiet aw (fun _ _ => OpResult.noConfusion)
        have fill : (s.freed x).fillOf i row = some f := hf
        rw [quiet, owner]
        simp only [endSpareWrite, fill]
      · rw [rest]
        rfl
      · rw [rest]
        exact removeFill_fillOf i row (s.freed x)
    · show Host.Outcome.next (settle (takeAnswer .spareWrite r (.media first []) s)) = _
      have written : takeAnswer .spareWrite r (.media first []) s = _ := takeAnswer_written aw kind first
      have fill : ((mediaAt .mediaWrite x.op.slot first s).freed x).fillOf i row = some f := by
        rw [mediaAt_eq]
        exact hf
      rw [written, owner]
      simp only [endSpareWrite, fill]
end Sys2Proof.Machine
end

