-- ==== Sys2Proof/Proofs/ReadAnswers.lean ====
section
/-! PROOFS. The answers of READs: what each place covered takes, what is counted, and the reader that goes on (R32, R37, R52, R128,
R130, R142, R149, R153). -/

namespace Sys2Proof.Machine

/-! ## What a READ brings to a place (R32, R142) -/

/-- What a place holds after a READ of it has ended. -/
def Layout.brought (l : Layout) (c : Cell) : Option Block → CellState
  | none => .bad
  | some b => match l.judge c b with
    | .good => .got b
    | .poison => .poison b
    | .tagError => .bad

/-- The tag errors of a place's block: none or one. -/
def Layout.faults (l : Layout) (c : Cell) (b : Option Block) : Nat := if b.any (fun b => l.judge c b == .tagError) then 1 else 0

section
variable (r : Reader) (op : MemberOp) (res : OpResult) (c : Cell) (s : State) (f : Fetch)

theorem arriveCell_fetch : (arriveCell r op res c (s, f)).2
    = f.take op.id c (f.layout.brought c res.blocks[op.indexOf f.layout c]?) := by
  cases hb : res.blocks[op.indexOf f.layout c]? with
  | none => rw [arriveCell_missing hb]; rfl
  | some b =>
    unfold Layout.brought
    cases hj : f.layout.judge c b with
    | good => rw [arriveCell_good hb hj]; simp only [hj]
    | poison => rw [arriveCell_poison hb hj]; simp only [hj]
    | tagError => rw [arriveCell_tagError hb hj]; simp only [hj]

theorem Fetch.take_layout (id : Nat) (v : CellState) : (f.take id c v).layout = f.layout := by
  unfold Fetch.take Fetch.put
  split
  · split <;> rfl
  · rfl

variable {c f}

theorem Fetch.take_idle {id : Nat} (v : CellState) (h : f.at c ≠ some (.waiting id)) : f.take id c v = f :=
  if_neg (by simpa using h)

/-- A place that does not wait for the READ keeps what it holds, whichever place is judged. -/
theorem Fetch.take_kept {id : Nat} {d : Cell} (v : CellState) (h : f.at d ≠ some (.waiting id)) : (f.take id c v).at d = f.at d := by
  by_cases e : d = c
  · rw [Fetch.take_idle v (e ▸ h)]
  · exact Fetch.take_other f id v e

end

theorem Layout.brought_ne_waiting (l : Layout) (c : Cell) (b : Option Block) (id : Nat) : l.brought c b ≠ .waiting id := by
  unfold Layout.brought
  split
  · exact CellState.noConfusion
  · split <;> exact CellState.noConfusion

/-! ## What the judging counts (R142, R149) -/

/-- `n` tag errors of a bay counted: at the bay and among the captures, up to the top of each counter. -/
structure Faulted (i : Slot) (n : Nat) (s t : State) : Prop where
  errors : (s.bay i).tagErrors ≤ 65535 → (t.bay i).tagErrors = min 65535 ((s.bay i).tagErrors + n)
  counts : s.integ.counts.memberTag ≤ 65535 →
    t.integ.counts = { s.integ.counts with memberTag := min 65535 (s.integ.counts.memberTag + n) }
  others : ∀ j, j ≠ i → t.bay j = s.bay j
  port   : t.port = s.port
  mover  : t.mover = s.mover
  out    : t.out = s.out

theorem Faulted.refl (i : Slot) (s : State) : Faulted i 0 s s :=
  ⟨fun h => (Nat.min_eq_right h).symm, fun h => by rw [Nat.add_zero, Nat.min_eq_right h], fun _ _ => rfl, rfl, rfl, rfl⟩

theorem Faulted.trans {i : Slot} {m n : Nat} {s t u : State} (h : Faulted i m s t) (g : Faulted i n t u) :
    Faulted i (m + n) s u := by
  refine ⟨fun b => ?_, fun b => ?_, fun j hj => (g.others j hj).trans (h.others j hj), g.port.trans h.port,
    g.mover.trans h.mover, g.out.trans h.out⟩
  · have first := h.errors b
    rw [g.errors (by omega), first]
    omega
  · have first := h.counts b
    rw [g.counts (by rw [first]; exact Nat.min_le_left _ _), first]
    simp only [CaptureCounts.mk.injEq, true_and, and_true]
    omega

theorem noteBad_faulted {i : Slot} {n : Nat} {s t : State} (h : Faulted i n s t) (r : Reader) (op : MemberOp) (res : OpResult)
    (l : Layout) (c : Cell) : Faulted i n s (noteBad r op res l c t) := by
  rw [noteBad_eq]
  exact ⟨h.errors, h.counts, h.others, h.port, h.mover, h.out⟩

theorem tagErrorAt_faulted (i : Slot) (block : Nat) (s : State) : Faulted i 1 s (tagErrorAt i block s) := by
  obtain ⟨errors, counts, others, -⟩ := tagErrorAt_frame i block s
  have rest := (tagErrorAt_judging i block s).rest
  refine ⟨fun h => ?_, fun h => ?_, others, by rw [rest], by rw [rest], by rw [rest]⟩
  · rw [errors, bump_eq]
    split <;> omega
  · rw [counts, bump_eq]
    simp only [CaptureCounts.mk.injEq, true_and, and_true]
    split <;> omega

theorem arriveCell_faulted (r : Reader) (op : MemberOp) (res : OpResult) (c : Cell) (s : State) (f : Fetch) :
    Faulted op.slot (f.layout.faults c res.blocks[op.indexOf f.layout c]?) s (arriveCell r op res c (s, f)).1 := by
  unfold Layout.faults
  cases hb : res.blocks[op.indexOf f.layout c]? with
  | none =>
    rw [arriveCell_missing hb]
    exact noteBad_faulted (Faulted.refl _ s) r op res f.layout c
  | some b =>
    cases hj : f.layout.judge c b with
    | good =>
      rw [arriveCell_good hb hj]
      simpa [hj] using Faulted.refl op.slot s
    | poison =>
      rw [arriveCell_poison hb hj]
      simpa [hj] using Faulted.refl op.slot s
    | tagError =>
      rw [arriveCell_tagError hb hj]
      simpa [hj] using noteBad_faulted (tagErrorAt_faulted op.slot _ s) r op res f.layout c

/-! ## The places a READ covers -/

/-- The place `n` of the run that begins at a row and offset of a position. -/
def Layout.place (l : Layout) (row off pos n : Nat) : Cell :=
  { row := row + (off + n) / l.unit, pos := pos, off := (off + n) % l.unit }

theorem Layout.place_inj {l : Layout} {row off pos m n : Nat} (h : l.place row off pos m = l.place row off pos n) : m = n := by
  simp only [place, Cell.mk.injEq] at h
  obtain ⟨rows, -, offs⟩ := h
  have hm := Nat.div_add_mod (off + m) l.unit
  have hn := Nat.div_add_mod (off + n) l.unit
  rw [show (off + m) / l.unit = (off + n) / l.unit by omega, offs] at hm
  omega

theorem indexOf_place {op : MemberOp} {l : Layout} {row off : Nat} (home : op.home = some (row, off)) (pos n : Nat) :
    op.indexOf l (l.place row off pos n) = n := by
  simp only [MemberOp.indexOf, Layout.place, home, Option.getD_some]
  have := Nat.div_add_mod (off + n) l.unit
  rw [Nat.add_sub_cancel_left, Nat.mul_comm]
  omega

theorem covered_eq {f : Fetch} {op : MemberOp} {row off pos : Nat} (home : op.home = some (row, off))
    (some_ : ∃ c ∈ f.waitingFor op.id, c.pos = pos) (all : ∀ c ∈ f.waitingFor op.id, c.pos = pos) :
    f.covered op = (List.range op.kind.span.2).map (f.layout.place row off pos) := by
  obtain ⟨c, hc, -⟩ := some_
  obtain ⟨d, rest, eq⟩ : ∃ d rest, f.waitingFor op.id = d :: rest := List.exists_cons_of_ne_nil (List.ne_nil_of_mem hc)
  have pos : d.pos = pos := all d (by rw [eq]; exact List.mem_cons_self)
  unfold Fetch.covered
  rw [home, eq]
  simp only [List.head?_cons, pos]
  rfl

/-- What the places of a list have after the judging of their blocks. -/
structure Arrived (op : MemberOp) (res : OpResult) (row off pos : Nat) (ns : List Nat) (u : State) (f : Fetch)
    (q : State × Fetch) : Prop where
  layout : q.2.layout = f.layout
  taken  : ∀ n ∈ ns, f.at (f.layout.place row off pos n) = some (.waiting op.id) →
    q.2.at (f.layout.place row off pos n) = some (f.layout.brought (f.layout.place row off pos n) res.blocks[n]?)
  kept   : ∀ c, f.at c ≠ some (.waiting op.id) → q.2.at c = f.at c
  counted : Faulted op.slot
    (ns.filter (fun n => res.blocks[n]?.any (fun b => f.layout.judge (f.layout.place row off pos n) b == .tagError))).length
    u q.1

theorem foldl_arrived (k : Reader) {op : MemberOp} (res : OpResult) {row off : Nat} (home : op.home = some (row, off)) (pos : Nat)
    (ns : List Nat) (l : Layout) : ∀ (u : State) (f : Fetch), f.layout = l →
      Arrived op res row off pos ns u f ((ns.map (l.place row off pos)).foldl (fun q c => arriveCell k op res c q) (u, f)) := by
  induction ns with
  | nil => exact fun u f _ => ⟨rfl, fun _ h => (nomatch h), fun _ _ => rfl, Faulted.refl _ u⟩
  | cons n ns ih =>
    rintro u f rfl
    have fetch := arriveCell_fetch k op res (f.layout.place row off pos n) u f
    have faulted := arriveCell_faulted k op res (f.layout.place row off pos n) u f
    rw [indexOf_place home] at fetch faulted
    rw [List.map_cons, List.foldl_cons]
    obtain ⟨v, g, eq⟩ : ∃ v g, arriveCell k op res (f.layout.place row off pos n) (u, f) = (v, g) := ⟨_, _, rfl⟩
    rw [eq] at fetch faulted ⊢
    dsimp only at fetch faulted
    have layout : g.layout = f.layout := by rw [fetch, Fetch.take_layout]
    obtain ⟨same, taken, kept, counted⟩ := ih v g layout
    rw [layout] at taken counted
    refine ⟨same.trans layout, fun m hm waits => ?_, fun c hc => ?_, ?_⟩
    · by_cases here : m = n
      · subst here
        have put : g.at (f.layout.place row off pos m) = some (f.layout.brought (f.layout.place row off pos m) res.blocks[m]?) := by
          rw [fetch, Fetch.take_at _ waits]
        rw [kept _ (by rw [put]; exact fun e => Layout.brought_ne_waiting _ _ _ _ (Option.some.inj e)), put]
      · refine taken m ((List.mem_cons.mp hm).resolve_left here) ?_
        rw [fetch, Fetch.take_other f _ _ (fun e => here (Layout.place_inj e)), waits]
    · have same : g.at c = f.at c := by rw [fetch, Fetch.take_kept _ hc]
      rw [kept c (by rw [same]; exact hc), same]
    · have total := faulted.trans counted
      unfold Layout.faults at total
      rw [List.filter_cons]
      split
      · rename_i bad
        rw [if_pos bad, Nat.add_comm] at total
        exact total
      · rename_i good
        rw [if_neg good, Nat.zero_add] at total
        exact total

/-! ## The way of a READ's answer -/

section
variable {s : State} {r : OpRef} {x : Issued} {o : Owner} {c : Instr} {ans : ReadAnswer}

theorem readAnswer (aw : s.Awaits r x o) (hr : x.op.kind.isRead = true)
    (run : exec c s = .next (settle (takeAnswer o.kind r (readResult ans) s))) {u : State}
    (end_ : ownerEnd { x.op with owner := o } (readResult ans) (s.freed x) = u) {late : State → State → Prop}
    (good : ∀ bs, ans = .good bs → late u u)
    (media : ∀ first bs, ans = .media first bs → ∀ w, u.MediaRead x.op.slot first w → late u w) :
    ∃ z, exec c s = .next (settle z) ∧ late u z := by
  have told : takeAnswer o.kind r (readResult ans) s = noteMedia x (readResult ans) u := by
    rw [takeAnswer_of aw, heard_read x _ s hr, told_read x _ _ hr, ownerEnd_of aw.2, ← end_]
    rfl
  refine ⟨_, run, ?_⟩
  rw [told]
  cases ans with
  | good bs => exact good bs rfl
  | media first bs =>
    refine media first bs rfl _ ?_
    have read : noteMedia x (readResult (.media first bs)) u = mediaAt .mediaRead x.op.slot first u := by
      cases hk : x.op.kind <;> simp_all [noteMedia, readResult, mediaKind, mediaBlock, OpKind.isRead]
    rw [read]
    exact mediaRead_mediaAt x.op.slot first u

theorem readResult_arrives (ans : ReadAnswer) : (readResult ans == .gone || readResult ans == .timeout) = false := by
  cases ans <;> rfl

end

/-- Settles O34: the four readers, the three that have ended, and what the fold over the places covered leaves. -/
theorem readAnswers : Obligations.ReadAnswers := by
  intro s r x ans first count kind i res v late
  have isRead : x.op.kind.isRead = true := by rw [kind]; rfl
  have answer {o : Owner} {c : Instr} (aw : s.Awaits r x o)
      (run : exec c s = .next (settle (takeAnswer o.kind r (readResult ans) s))) {u : State}
      (end_ : ownerEnd { x.op with owner := o } (readResult ans) (s.freed x) = u) :
      ∃ z, exec c s = .next (settle z) ∧ late u z :=
    readAnswer aw isRead run end_ (fun bs e => by subst e; rfl) (fun f bs e w h => by subst e; exact h)
  refine ⟨fun a part e f aw he hf => answer aw rfl ?_, fun a row e w aw he hw => answer aw rfl ?_,
    fun g t aw ht stage => answer aw rfl ?_, fun j row f aw hf => answer aw rfl ?_, ?_, fun g t aw ht stage => answer aw rfl ?_,
    fun j row aw hf => answer aw rfl ?_, fun y hy => freed_issued hy, rfl, fun j hj => freed_other hj, ?_⟩
  · have entry : (s.freed x).req a = some e := he
    simp only [ownerEnd, endHostRead, entry, hf]
    rfl
  · have entry : (s.freed x).req a = some e := he
    simp only [ownerEnd, endHostWriteRead, entry, hw]
    rfl
  · have step : (s.freed x).stepIn g = some t := ht
    simp only [ownerEnd, endGather, step]
    rw [if_pos (by simp [stage])]
    rfl
  · have fill : (s.freed x).fillOf j row = some f := hf
    simp only [ownerEnd, endFillRead, fill]
    rw [if_neg (by simp [readResult_arrives ans])]
    rfl
  · rintro ⟨a, part, e, aw, he, hn⟩
    refine answer aw rfl ?_
    have entry : (s.freed x).req a = some e := he
    simp only [ownerEnd, endHostRead, entry, hn]
    rfl
  · have step : (s.freed x).stepIn g = some t := ht
    simp only [ownerEnd, endGather, step]
    rw [if_neg (by simpa using stage)]
    rfl
  · have fill : (s.freed x).fillOf j row = none := hf
    simp only [ownerEnd, endFillRead, fill]
    rfl
  · intro k u f row off pos home some_ all q at_ bad
    have places : f.covered x.op = (List.range count).map (f.layout.place row off pos) := by
      rw [covered_eq home some_ all, kind]
      rfl
    have arrived : Arrived x.op res row off pos (List.range count) u f q := by
      show Arrived x.op res row off pos (List.range count) u f (arriveFetch k x.op res (u, f))
      rw [arriveFetch, places]
      exact foldl_arrived k res home pos _ _ u f rfl
    obtain ⟨errors, counts, others, port, mover, out⟩ := arrived.counted
    refine ⟨fun n hn waits => ?_, arrived.kept, errors, counts, others, port, mover, out⟩
    have taken := arrived.taken n (List.mem_range.mpr hn) waits
    exact ⟨fun e => by rw [e] at taken; exact taken, fun b e => by rw [e] at taken; exact taken⟩
end Sys2Proof.Machine
end

