-- ==== Sys2Proof/Proofs/AssemblyReads.lean ====
section
/-! PROOFS. Assembly's plan area, spill record and spill column READs (R17, R47, R142, R181 to R183). -/

namespace Sys2Proof.Machine

/-! ## What judging leaves for the loading units (R142) -/

theorem Judging.units {i : Slot} {s t : State} (h : Judging i s t) :
    t.mover = s.mover ∧ t.plan = s.plan ∧ t.asm = s.asm ∧ t.mark = s.mark := by
  rw [h.rest]
  exact ⟨rfl, rfl, rfl, rfl⟩

/-- A state in which judging has been followed by changes of the plan, mover and assembly units only. -/
structure Loading (i : Slot) (v u : State) : Prop where
  eq     : u = { v with shelf := u.shelf, integ := u.integ, win := u.win, plan := u.plan, asm := u.asm, mover := u.mover }
  others : ∀ j, j ≠ i → u.bay j = v.bay j
  bay    : u.bay i = { v.bay i with tagErrors := (u.bay i).tagErrors }

theorem Judging.loading {i : Slot} {v w : State} (h : Judging i v w) (p : PlanUnit) (a : Assembly) (m : MoverState) :
    Loading i v { w with plan := p, asm := a, mover := m } := by
  refine ⟨?_, h.others, h.bay⟩
  have rest := h.rest
  rw [rest]

/-! ## Plan areas (R181) -/

/-- What taking the records of some slots does: each wanted one that was found stands in the table and is wanted no more. -/
structure Supplied (got : Nat → Option PlanRecord) (s t : State) : Prop where
  rest   : t = { s with
    plan := { s.plan with table := t.plan.table }
    asm := { s.asm with wanted := s.asm.wanted.filter (fun k => (got k).isNone) } }
  length : t.plan.table.length = s.plan.table.length
  table  : ∀ k, k < s.plan.table.length → t.plan.table[k]? =
    if s.asm.wanted.contains k then (got k).orElse (fun _ => s.plan.table[k]?) else s.plan.table[k]?

theorem Supplied.nothing {got : Nat → Option PlanRecord} (h : ∀ k, got k = none) (s : State) : Supplied got s s := by
  refine ⟨?_, rfl, fun k _ => by simp [h]⟩
  simp [h]

/-- One record taken, and then those of other slots. -/
theorem Supplied.cons {got : Nat → Option PlanRecord} {k : Nat} {s t : State}
    (h : Supplied (fun j => if j = k then none else got j) (takeAreaRecord k (got k) s) t) : Supplied got s t := by
  cases found : got k with
  | none =>
    have same : (fun j => if j = k then none else got j) = got := funext fun j => by
      by_cases e : j = k
      · rw [if_pos e, e, found]
      · rw [if_neg e]
    rw [same, found] at h
    exact h
  | some r =>
    by_cases wanted : s.asm.wanted.contains k = true
    · obtain ⟨v, first⟩ : ∃ v, takeAreaRecord k (got k) s = v := ⟨_, rfl⟩
      rw [first] at h
      have eq : v = setRecord k r { s with asm := { s.asm with wanted := s.asm.wanted.filter (· != k) } } := by
        rw [← first, found]
        exact if_pos wanted
      have records : v.plan.table = s.plan.table.set k r := by rw [eq]; rfl
      have others : v.asm.wanted = s.asm.wanted.filter (· != k) := by rw [eq]; rfl
      obtain ⟨rest, length, table⟩ := h
      rw [records] at length table
      rw [others] at table
      have left : v.asm.wanted.filter (fun j => (if j = k then none else got j).isNone)
          = s.asm.wanted.filter (fun j => (got j).isNone) := by
        rw [others, List.filter_filter]
        refine List.filter_congr fun j _ => ?_
        by_cases e : j = k
        · simp [e, found]
        · simp [e]
      refine ⟨?_, length.trans List.length_set, fun j hj => ?_⟩
      · rw [left, eq] at rest
        exact rest
      · rw [table j (by rwa [List.length_set]), List.getElem?_set]
        by_cases e : j = k
        · subst e
          have none : (s.asm.wanted.filter (· != j)).contains j = false := by simp
          rw [none, if_neg Bool.false_ne_true, if_pos rfl, if_pos hj, if_pos wanted, found]
          rfl
        · have same : (s.asm.wanted.filter (· != k)).contains j = s.asm.wanted.contains j := by simp [e]
          rw [same, if_neg (Ne.symm e), if_neg e]
    · have first : takeAreaRecord k (got k) s = s := by
        rw [found]
        exact if_neg wanted
      rw [first] at h
      obtain ⟨rest, length, table⟩ := h
      have away (j : Nat) (hj : s.asm.wanted.contains j = true) : j ≠ k := fun e => wanted (e ▸ hj)
      refine ⟨?_, length, fun j hj => ?_⟩
      · rw [List.filter_congr (q := fun j => (got j).isNone) fun j hj => by
          rw [if_neg (away j (List.contains_iff_mem.mpr hj))]] at rest
        exact rest
      · rw [table j hj]
        by_cases hw : s.asm.wanted.contains j = true
        · rw [if_pos hw, if_pos hw, if_neg (away j hw)]
        · rw [if_neg hw, if_neg hw]

theorem foldl_taken (ps : List (Nat × Option PlanRecord)) : ∀ (got : Nat → Option PlanRecord) (s : State),
    (ps.map (·.1)).Nodup → (∀ p ∈ ps, got p.1 = p.2) → (∀ k, k ∉ ps.map (·.1) → got k = none) →
      Supplied got s (ps.foldl (fun s p => takeAreaRecord p.1 p.2 s) s) := by
  induction ps with
  | nil => exact fun got s _ _ none => Supplied.nothing (fun k => none k List.not_mem_nil) s
  | cons p ps ih =>
    intro got s nodup found none
    obtain ⟨new, nodup⟩ := List.nodup_cons.mp nodup
    refine Supplied.cons (k := p.1) ?_
    rw [found p List.mem_cons_self]
    refine ih _ _ nodup (fun q hq => ?_) (fun k hk => ?_)
    · have ne : q.1 ≠ p.1 := fun e => new (List.mem_map.mpr ⟨q, hq, e⟩)
      rw [if_neg ne, found q (List.mem_cons_of_mem _ hq)]
    · by_cases e : k = p.1
      · rw [if_pos e]
      · rw [if_neg e, none k]
        rw [List.map_cons, List.mem_cons]
        exact fun h => h.elim e hk

theorem mem_zip_range {α : Type} {l : List α} {m n : Nat} {a : α} : (a, n) ∈ l.zip (List.range m) ↔ l[n]? = some a ∧ n < m := by
  rw [List.mem_iff_getElem?]
  constructor
  · rintro ⟨k, hk⟩
    obtain ⟨x, y⟩ := List.getElem?_zip_eq_some.mp hk
    obtain ⟨lt, e⟩ := List.getElem?_eq_some_iff.mp y
    rw [List.getElem_range] at e
    subst e
    exact ⟨x, by simpa using lt⟩
  · rintro ⟨x, lt⟩
    exact ⟨n, List.getElem?_zip_eq_some.mpr ⟨x, by simp [lt]⟩⟩

theorem zip_snd_sublist {α β : Type} : ∀ (l : List α) (m : List β), ((l.zip m).map (·.2)).Sublist m
  | [], m => List.nil_sublist m
  | _ :: _, [] => List.nil_sublist []
  | _ :: l, b :: m => (zip_snd_sublist l m).cons_cons b

/-- What the blocks of a run that begins at slot `k0` give for a slot, as `read` reads one. -/
def runGot (read : Nat → Block → Option PlanRecord) (k0 len : Nat) (bs : List Block) (k : Nat) : Option PlanRecord :=
  if k0 ≤ k ∧ k < k0 + len then (bs[k - k0]?).bind (read k) else none

theorem runGot_at (read : Nat → Block → Option PlanRecord) (k0 : Nat) {len n : Nat} {bs : List Block} {b : Block}
    (h : bs[n]? = some b) (lt : n < len) : runGot read k0 len bs (k0 + n) = read (k0 + n) b := by
  rw [runGot, if_pos ⟨Nat.le_add_right k0 n, Nat.add_lt_add_left lt k0⟩, Nat.add_sub_cancel_left, h]
  rfl

/-- Taking what the blocks of a run give. -/
theorem foldl_runGot (read : Nat → Block → Option PlanRecord) (k0 len : Nat) (bs : List Block) (s : State) :
    Supplied (runGot read k0 len bs) s
      ((bs.zip (List.range len)).foldl (fun s x => takeAreaRecord (k0 + x.2) (read (k0 + x.2) x.1) s) s) := by
  have fold := foldl_taken ((bs.zip (List.range len)).map fun x => (k0 + x.2, read (k0 + x.2) x.1)) (runGot read k0 len bs) s
  rw [List.foldl_map] at fold
  refine fold ?_ ?_ ?_
  · have names := (List.Nodup.sublist (zip_snd_sublist bs (List.range len)) List.nodup_range).map (f := (k0 + ·))
      fun a b h => Nat.add_left_cancel h
    rwa [List.map_map] at names ⊢
  · rintro p hp
    obtain ⟨⟨b, n⟩, mem, rfl⟩ := List.mem_map.mp hp
    obtain ⟨found, lt⟩ := mem_zip_range.mp mem
    exact runGot_at read k0 found lt
  · intro k hk
    by_cases inside : k0 ≤ k ∧ k < k0 + len
    · rw [runGot, if_pos inside]
      cases hb : bs[k - k0]? with
      | none => rfl
      | some b =>
        refine absurd (List.mem_map.mpr ⟨_, List.mem_map.mpr ⟨(b, k - k0), mem_zip_range.mpr ⟨hb, by omega⟩, rfl⟩, ?_⟩) hk
        exact Nat.add_sub_cancel' inside.1
    · rw [runGot, if_neg inside]

theorem endPlanRead_loads {op : MemberOp} {res : OpResult} {v : State} {k0 : Nat} (stage : v.asm.stage = .loading)
    (first : op.kind.span.1 = Config.planBase + k0) : ∃ u, endPlanRead op res v = u ∧ Loading op.slot v u ∧ u.mover = v.mover
      ∧ u.plan = { v.plan with table := u.plan.table } ∧ u.plan.table.length = v.plan.table.length
      ∧ (∀ k, k < v.plan.table.length → u.plan.table[k]? = if v.asm.wanted.contains k
          then (runGot areaRecord k0 op.kind.span.2 res.blocks k).orElse (fun _ => v.plan.table[k]?) else v.plan.table[k]?)
      ∧ u.asm = { v.asm with
          reads := v.asm.reads - 1, wanted := v.asm.wanted.filter (fun k => (runGot areaRecord k0 op.kind.span.2 res.blocks k).isNone) } := by
  obtain ⟨w, hw⟩ : ∃ w, judgeReserve op.slot op.kind.span.1 res.blocks v = w := ⟨_, rfl⟩
  have judged : Judging op.slot v w := hw ▸ judgeReserve_judging ..
  obtain ⟨mover, plan, asm, -⟩ := judged.units
  obtain ⟨t, ht⟩ : ∃ t, (res.blocks.zip (List.range op.kind.span.2)).foldl
    (fun s x => takeAreaRecord (k0 + x.2) (areaRecord (k0 + x.2) x.1) s) w = t := ⟨_, rfl⟩
  obtain ⟨rest, length, table⟩ := ht ▸ foldl_runGot areaRecord k0 op.kind.span.2 res.blocks w
  rw [plan] at length table
  rw [asm] at table
  refine ⟨{ t with asm := { t.asm with reads := t.asm.reads - 1 } }, ?_, ?_, ?_, ?_, length, table, ?_⟩
  · unfold endPlanRead
    dsimp only
    rw [if_neg (by simp [stage]), hw, first, Nat.add_sub_cancel_left, ht]
  · rw [rest]
    exact judged.loading _ _ w.mover
  · rw [rest]
    exact mover
  · rw [rest, ← plan]
  · rw [rest, ← asm]

/-! ## Spill records (R17, R182) -/

theorem spillValid_iff {s : State} {c : SpillRecord} : s.spillValid c = true ↔ ∃ o n, s.growing = some (o, n)
    ∧ c.generation = s.mark.generation ∧ c.front = s.mark.front ∧ 1 ≤ c.rows ∧ c.rows ≤ 16 ∧ c.rows ≤ 8192 / (n.unit * n.n)
    ∧ c.rows ≤ growthEnd o n - s.mark.front ∧ c.first = c.front * n.rowBlocks
    ∧ c.stop = min ((c.front + c.rows) * n.rowBlocks) o.capacity := by
  unfold State.spillValid
  cases s.growing with
  | none => simp
  | some p =>
    obtain ⟨o, n⟩ := p
    simp only [Bool.and_eq_true, beq_iff_eq, decide_eq_true_eq, Nat.le_min, Option.some.injEq, Prod.mk.injEq, stepStop,
      Config.stagingBlocks, and_assoc]
    constructor
    · exact fun h => ⟨o, n, rfl, rfl, h⟩
    · rintro ⟨_, _, rfl, rfl, h⟩
      exact h

theorem endSpillRead_loads {op : MemberOp} {res : OpResult} {v : State} (stage : v.asm.stage = .records) :
    ∃ u, endSpillRead op res v = u ∧ Loading op.slot v u ∧ u.mover = v.mover ∧ u.plan = v.plan
      ∧ u.asm = { v.asm with reads := v.asm.reads - 1, spills := u.asm.spills }
      ∧ (∀ c, (res.blocks.head?).bind spillOf = some c → v.spillValid c = true →
          u.asm.spills = v.asm.spills ++ [(op.slot, c)])
      ∧ ((∀ c, (res.blocks.head?).bind spillOf = some c → v.spillValid c = false) → u.asm.spills = v.asm.spills) := by
  obtain ⟨w, hw⟩ : ∃ w, judgeReserve op.slot Config.spillRecordBlock (res.blocks.take 1) v = w := ⟨_, rfl⟩
  have judged : Judging op.slot v w := hw ▸ judgeReserve_judging ..
  obtain ⟨mover, plan, asm, mark⟩ := judged.units
  have valid (c : SpillRecord) : w.spillValid c = v.spillValid c := by
    unfold State.spillValid State.growing State.layout
    rw [plan, mark]
  have eq : endSpillRead op res v = { w with asm := { w.asm with
      reads := w.asm.reads - 1
      spills := w.asm.spills ++ (((res.blocks.head?).bind spillOf).elim []
        fun c => if w.spillValid c then [(op.slot, c)] else []) } } := by
    unfold endSpillRead
    dsimp only
    rw [if_neg (by simp [stage]), hw]
    cases (res.blocks.head?).bind spillOf <;> rfl
  refine ⟨_, eq, judged.loading _ _ _, mover, plan, by rw [← asm], fun c hc ok => ?_, fun none => ?_⟩
  · rw [hc, Option.elim_some, valid, if_pos ok, asm]
  · show w.asm.spills ++ _ = _
    rw [asm]
    cases hc : (res.blocks.head?).bind spillOf with
    | none => exact List.append_nil _
    | some c => rw [Option.elim_some, valid, none c hc, if_neg Bool.false_ne_true, List.append_nil]

/-! ## Spill columns (R183) -/

/-- The index of a place in its column. -/
def Layout.columnIndex (l : Layout) (front : Nat) (c : Cell) : Nat := (c.row - front) * l.unit + c.off

theorem arriveColumn_eq (op : MemberOp) (res : OpResult) (front : Nat) (c : Cell) (s : State) (f : Fetch) :
    Judging op.slot s (arriveColumn op res front c (s, f)).1
      ∧ (arriveColumn op res front c (s, f)).2
        = f.put c (f.layout.brought c res.blocks[f.layout.columnIndex front c]?) := by
  unfold arriveColumn Layout.columnIndex
  dsimp only
  cases res.blocks[(c.row - front) * f.layout.unit + c.off]? with
  | none => exact ⟨Judging.refl _ s, rfl⟩
  | some b =>
    unfold Layout.brought
    dsimp only
    cases f.layout.judge c b with
    | good => exact ⟨Judging.refl _ s, rfl⟩
    | poison => exact ⟨Judging.refl _ s, rfl⟩
    | tagError => exact ⟨tagErrorAt_judging _ _ s, rfl⟩

theorem Fetch.put_layout (f : Fetch) (c : Cell) (v : CellState) : (f.put c v).layout = f.layout := by
  unfold Fetch.put
  split <;> rfl

theorem foldl_arriveColumn (op : MemberOp) (res : OpResult) (front : Nat) (l : Layout) (cs : List Cell) :
    ∀ (s : State) (f : Fetch), f.layout = l →
      let q := cs.foldl (fun q c => arriveColumn op res front c q) (s, f)
      Judging op.slot s q.1
        ∧ (∀ c ∈ cs, q.2.at c = some (l.brought c res.blocks[l.columnIndex front c]?))
        ∧ (∀ c, c ∉ cs → q.2.at c = f.at c) := by
  induction cs with
  | nil => exact fun s f _ => ⟨Judging.refl _ s, fun _ h => (nomatch h), fun _ _ => rfl⟩
  | cons c cs ih =>
    rintro s f rfl
    obtain ⟨judging, fetch⟩ := arriveColumn_eq op res front c s f
    rw [List.foldl_cons]
    obtain ⟨t, g, eq⟩ : ∃ t g, arriveColumn op res front c (s, f) = (t, g) := ⟨_, _, rfl⟩
    rw [eq] at judging fetch ⊢
    dsimp only at judging fetch
    obtain ⟨more, taken, kept⟩ := ih t g (by rw [fetch, Fetch.put_layout])
    refine ⟨judging.trans more, fun d hd => ?_, fun d hd => ?_⟩
    · by_cases later : d ∈ cs
      · exact taken d later
      · obtain rfl := (List.mem_cons.mp hd).resolve_right later
        rw [kept d later, fetch, Fetch.put_at]
    · obtain ⟨ne, later⟩ := not_or.mp (mt List.mem_cons.mpr hd)
      rw [kept d later, fetch, Fetch.put_other f c d _ ne]

theorem endColumnRead_loads {op : MemberOp} {res : OpResult} {v : State} {t : Step} (stage : v.asm.stage = .columns)
    (step : v.mover.slotA = some t) : ∃ u f, endColumnRead op res v = u ∧ Loading op.slot v u
      ∧ u.mover = { v.mover with slotA := some { t with fetch := f, outstanding := t.outstanding - 1 } }
      ∧ u.plan = v.plan ∧ u.asm = { v.asm with reads := v.asm.reads - 1 }
      ∧ (∀ c ∈ t.fetch.waitingFor op.id, f.at c
          = some (t.fetch.layout.brought c res.blocks[t.fetch.layout.columnIndex t.front c]?))
      ∧ (∀ c, c ∉ t.fetch.waitingFor op.id → f.at c = t.fetch.at c) := by
  obtain ⟨judged, taken, kept⟩ :=
    foldl_arriveColumn op res t.front t.fetch.layout (t.fetch.waitingFor op.id) v t.fetch rfl
  obtain ⟨w, f, eq⟩ : ∃ w f, (t.fetch.waitingFor op.id).foldl (fun q c => arriveColumn op res t.front c q) (v, t.fetch) = (w, f) :=
    ⟨_, _, rfl⟩
  rw [eq] at judged taken kept
  obtain ⟨mover, plan, asm, -⟩ := judged.units
  have ended : endColumnRead op res v = { w with
      mover := { w.mover with slotA := some { t with fetch := f, outstanding := t.outstanding - 1 } }
      asm := { w.asm with reads := w.asm.reads - 1 } } := by
    unfold endColumnRead
    have slot : w.stepIn .a = some t := by rw [State.stepIn, mover, step]
    simp only [step, eq]
    rw [if_neg (by simp [stage]), updStep, slot]
    rfl
  refine ⟨_, f, ended, judged.loading _ _ _, by rw [mover], plan, by rw [asm], taken, kept⟩

/-! ## The answers of assembly's READs -/

/-- Settles O38: the three READs in their stage, each with its discard outside it. -/
theorem assemblyReadAnswers : Obligations.AssemblyReadAnswers := by
  intro s r x ans isRead i bs v late read
  have answer {o : Owner} {c : Instr} (aw : s.Awaits r x o)
      (run : exec c s = .next (settle (takeAnswer o.kind r (readResult ans) s))) {u : State}
      (end_ : ownerEnd { x.op with owner := o } (readResult ans) (s.freed x) = u) :
      ∃ z, exec c s = .next (settle z) ∧ late u z :=
    readAnswer aw isRead run end_ (fun bs e => by subst e; rfl) (fun f bs e w h => by subst e; exact h)
  have loaded {u : State} (h : Loading i v u) : read u := ⟨h.eq, h.others, h.bay⟩
  refine ⟨fun aw k0 first => ⟨fun stage => ?_, fun stage => answer aw rfl ?_⟩,
    fun aw => ⟨fun stage => ?_, fun stage => answer aw rfl ?_⟩, fun aw => ⟨fun t stage step => ?_, fun out => answer aw rfl ?_⟩⟩
  · obtain ⟨u, eq, loading, mover, plan, length, table, asm⟩ :=
      endPlanRead_loads (v := v) (op := x.op) (res := readResult ans) stage first
    obtain ⟨z, run, told⟩ := answer (c := .planAreaReadEnd r ans) aw rfl eq
    exact ⟨u, z, run, told, loaded loading, mover, plan, length, table, asm⟩
  · have other : v.asm.stage ≠ _ := stage
    exact if_pos (by simpa using other)
  · obtain ⟨u, eq, loading, mover, plan, asm, valid, other⟩ :=
      endSpillRead_loads (v := v) (op := x.op) (res := readResult ans) stage
    obtain ⟨z, run, told⟩ := answer (c := .spillRecordReadEnd r ans) aw rfl eq
    refine ⟨u, z, run, told, loaded loading, mover, plan, asm, fun c hc ok => valid c hc (spillValid_iff.mpr ok),
      fun none => other fun c hc => ?_⟩
    exact Bool.eq_false_iff.mpr fun ok => none c hc (spillValid_iff.mp ok)
  · have other : v.asm.stage ≠ _ := stage
    exact if_pos (by simpa using other)
  · obtain ⟨u, f, eq, loading, mover, plan, asm, taken, kept⟩ :=
      endColumnRead_loads (v := v) (op := x.op) (res := readResult ans) stage step
    obtain ⟨z, run, told⟩ := answer (c := .spillColumnReadEnd r ans) aw rfl eq
    refine ⟨u, z, f, run, told, loaded loading, mover, plan, asm, fun c hc => ?_, kept⟩
    exact taken c hc
  · show endColumnRead _ _ v = v
    unfold endColumnRead
    cases step : v.mover.slotA with
    | none => rfl
    | some t =>
      have stage : v.asm.stage ≠ .columns := out.resolve_right fun none => nomatch step.symm.trans none
      exact if_pos (by simpa using stage)
end Sys2Proof.Machine
end

