-- ==== Sys2Proof/Proofs/Faults.lean ====
section
/-! PROOFS. A step given up, the report of the missing counts, faults, and the entry to SUSPENDED (R71, R136, R161 to R163,
R168). -/

namespace Sys2Proof.Machine

/-! ## A step in GATHER is given up (R66, R71) -/

theorem foldl_push {α : Type} (ev : α → Ev) (l : List α) : ∀ s : State,
    l.foldl (fun s a => push (ev a) s) s = { s with todo := s.todo ++ l.map ev } := by
  induction l with
  | nil => exact fun s => by rw [List.map_nil, List.append_nil]; rfl
  | cons a l ih =>
    intro s
    rw [List.foldl_cons, ih]
    simp [push]

theorem releaseHolds_eq (p : HoldReason → Bool) (s : State) : releaseHolds p s = { s with
    holds := s.holds.filter (fun h => !p h.reason)
    todo := s.todo ++ (s.holds.filter (fun h => p h.reason)).map (fun h => Ev.release h.arrival) } :=
  foldl_push (fun h : HoldEntry => Ev.release h.arrival) _ _

theorem setStep_stepIn (g h : Staging) (v : Option Step) (s : State) :
    (setStep g v s).stepIn h = if h = g then v else s.stepIn h := by
  cases g <;> cases h <;> rfl

/-- What giving up the steps in GATHER that a list of slots holds does. -/
structure GivenUp (gs : List Staging) (s u : State) : Prop where
  gone  : ∀ g ∈ gs, ∀ t, s.stepIn g = some t → t.stage = .gather → u.stepIn g = some t.abandon
  other : ∀ g t, s.stepIn g = some t → (t.stage ≠ .gather ∨ g ∉ gs) → u.stepIn g = some t
  empty : ∀ g, s.stepIn g = none → u.stepIn g = none
  holds : ∀ h, h ∈ u.holds ↔ h ∈ s.holds ∧ ∀ g ∈ gs, ∀ t, s.stepIn g = some t → t.stage = .gather → h.reason ≠ .step t.front
  mover : u.mover = { s.mover with slotA := u.mover.slotA, slotB := u.mover.slotB }
  rest  : u = { s with
    mover := u.mover, holds := u.holds, todo := u.todo, locks := u.locks
    integ := { s.integ with candidates := u.integ.candidates } }

theorem GivenUp.nothing {gs : List Staging} {s : State} (h : ∀ g ∈ gs, ∀ t, s.stepIn g = some t → t.stage ≠ .gather) :
    GivenUp gs s s :=
  ⟨fun g hg t ht e => absurd e (h g hg t ht), fun _ _ ht _ => ht, fun _ e => e,
    fun _ => ⟨fun m => ⟨m, fun g hg t ht e => absurd e (h g hg t ht)⟩, fun m => m.1⟩, rfl, rfl⟩

theorem abandonStep_givenUp {g : Staging} {t : Step} {s : State} (ht : s.stepIn g = some t) (stage : t.stage = .gather) :
    GivenUp [g] s (abandonStep g t s) := by
  have step (h : Staging) : (abandonStep g t s).stepIn h = if h = g then some t.abandon else s.stepIn h := by
    have mover := (abandonStep_fr g t s).2
    have same : (abandonStep g t s).stepIn h = (setStep g (some t.abandon) s).stepIn h := by
      cases h <;> simp only [State.stepIn, mover]
    rw [same, setStep_stepIn]
  have holds : (abandonStep g t s).holds = s.holds.filter (fun h => !(h.reason == .step t.front)) := by
    rw [abandonStep, releaseHolds_eq]
    cases t.arrival <;> cases g <;> rfl
  refine ⟨fun h hg v hv _ => ?_, fun h v hv out => ?_, fun h hn => ?_, fun h => ?_, ?_, ?_⟩
  · obtain rfl := List.mem_singleton.mp hg
    obtain rfl := Option.some.inj (ht.symm.trans hv)
    rw [step, if_pos rfl]
  · have ne : h ≠ g := by
      rintro rfl
      obtain rfl := Option.some.inj (ht.symm.trans hv)
      exact out.elim (fun e => e stage) (fun e => e (List.mem_singleton.mpr rfl))
    rw [step, if_neg ne, hv]
  · have ne : h ≠ g := by
      rintro rfl
      exact nomatch hn.symm.trans ht
    rw [step, if_neg ne, hn]
  · rw [holds, List.mem_filter]
    refine and_congr_right fun _ => ⟨fun ne h' hg v hv _ => ?_, fun ne => ?_⟩
    · obtain rfl := List.mem_singleton.mp hg
      obtain rfl := Option.some.inj (ht.symm.trans hv)
      simpa using ne
    · simpa using ne g (List.mem_singleton.mpr rfl) t ht stage
  · rw [(abandonStep_fr g t s).2]
    cases g <;> rfl
  · rw [abandonStep, releaseHolds_eq]
    cases t.arrival <;> cases g <;> rfl

theorem GivenUp.trans {g h : Staging} (ne : h ≠ g) {s t u : State} (first : GivenUp [g] s t) (second : GivenUp [h] t u) :
    GivenUp [g, h] s u := by
  have kept {v : Step} (hv : s.stepIn h = some v) : t.stepIn h = some v := first.other h v hv (.inr (by simpa using ne))
  have back {v : Step} (hv : t.stepIn h = some v) : s.stepIn h = some v := by
    cases e : s.stepIn h with
    | none => rw [first.empty h e] at hv; cases hv
    | some w => rw [kept e] at hv; exact hv
  refine ⟨fun k hk v hv stage => ?_, fun k v hv out => ?_, fun k e => second.empty k (first.empty k e), fun x => ?_, ?_, ?_⟩
  · rcases List.mem_pair.mp hk with rfl | rfl
    · have done := first.gone k (List.mem_singleton.mpr rfl) v hv stage
      exact second.other k _ done (.inl (by simp [Step.abandon]))
    · exact second.gone k (List.mem_singleton.mpr rfl) v (kept hv) stage
  · have here := first.other k v hv (out.imp_right (by simp_all))
    exact second.other k v here (out.imp_right (by simp_all))
  · rw [second.holds, first.holds, and_assoc]
    refine and_congr_right fun _ => ⟨fun ⟨a, b⟩ k hk v hv stage => ?_, fun all => ⟨fun k hk v hv stage => ?_, fun k hk v hv stage => ?_⟩⟩
    · rcases List.mem_pair.mp hk with rfl | rfl
      · exact a k (List.mem_singleton.mpr rfl) v hv stage
      · exact b k (List.mem_singleton.mpr rfl) v (kept hv) stage
    · exact all k (List.mem_pair.mpr (.inl (List.mem_singleton.mp hk))) v hv stage
    · obtain rfl := List.mem_singleton.mp hk
      exact all k (List.mem_pair.mpr (.inr rfl)) v (back hv) stage
  · have mover := second.mover
    rw [first.mover] at mover
    exact mover
  · have rest := second.rest
    rw [first.rest] at rest
    exact rest

/-- The step of one slot given up where it gathers. -/
def abandonAt (g : Staging) (o : Option Step) (s : State) : State :=
  ((o.map (fun t => (g, t))).toList.filter (fun p => p.2.stage == .gather)).foldl (fun s p => abandonStep p.1 p.2 s) s

theorem abandonAt_givenUp (g : Staging) (s : State) : GivenUp [g] s (abandonAt g (s.stepIn g) s) := by
  cases ht : s.stepIn g with
  | none => exact GivenUp.nothing (by simp [ht])
  | some t =>
    by_cases stage : t.stage = .gather
    · have one : abandonAt g (some t) s = abandonStep g t s := by simp [abandonAt, stage]
      rw [one]
      exact abandonStep_givenUp ht stage
    · have none : abandonAt g (some t) s = s := by simp [abandonAt, stage]
      rw [none]
      exact GivenUp.nothing (by simp [ht, stage])

theorem abandonGather_givenUp (s : State) : GivenUp [.a, .b] s (abandonGather s) := by
  have first := abandonAt_givenUp .a s
  obtain ⟨v, hv⟩ : ∃ v, abandonAt .a (s.stepIn .a) s = v := ⟨_, rfl⟩
  rw [hv] at first
  have slot : v.stepIn .b = s.stepIn .b := by
    cases e : s.stepIn .b with
    | none => exact first.empty _ e
    | some t => exact first.other _ t e (.inr (by simp))
  have second := abandonAt_givenUp .b v
  rw [slot] at second
  have eq : abandonGather s = abandonAt .b (s.stepIn .b) v := by
    rw [← hv, abandonGather, State.steps, List.filter_append, List.foldl_append]
    rfl
  rw [eq]
  exact first.trans (by decide) second

theorem mem_slots (g : Staging) : g ∈ [Staging.a, .b] := by cases g <;> decide

/-- Giving up the step in GATHER, as the statements tell it. -/
theorem abandonGather_steps_holds (s : State) :
    (∀ g, (s.stepIn g = none → (abandonGather s).stepIn g = none) ∧ ∀ t, s.stepIn g = some t →
      (t.stage ≠ .gather → (abandonGather s).stepIn g = some t)
      ∧ (t.stage = .gather → ∃ v, (abandonGather s).stepIn g = some v ∧ v.stage = .abandoned ∧ v.outstanding = t.outstanding))
    ∧ (∀ h, h ∈ (abandonGather s).holds ↔ h ∈ s.holds
        ∧ ∀ g t, s.stepIn g = some t → t.stage = .gather → h.reason ≠ .step t.front) := by
  have given := abandonGather_givenUp s
  refine ⟨fun g => ⟨given.empty g, fun t ht => ⟨fun ne => given.other g t ht (.inl ne), fun stage =>
    ⟨_, given.gone g (mem_slots g) t ht stage, rfl, rfl⟩⟩⟩, fun h => ?_⟩
  rw [given.holds]
  exact and_congr_right fun _ => ⟨fun all g => all g (mem_slots g), fun all g _ => all g⟩

/-! ## The taking of a fault (R161 to R163) -/

/-- The state with the cause and fault layout a fault gives. -/
def blamed (l : Option (LayoutId × Nat)) (s : State) : State := { s with ctl := { s.ctl with
  cause := if s.ctl.state = .halted ∧ s.ctl.cause = .recoveryFailed then .recoveryFailed else .memberLost
  faultLayout := if s.ctl.state = .halted ∧ s.ctl.cause = .recoveryFailed then s.ctl.faultLayout else l } }

theorem takeFault_eq (l : Option (LayoutId × Nat)) (s : State) : takeFault l s =
    if s.ctl.state = .idle then s
    else if s.ctl.latch then raise .engineHalted { blamed l s with ctl := { (blamed l s).ctl with state := .halted } }
    else if s.ctl.faultPending then blamed l s
    else abandonGather { blamed l s with ctl :=
      { (blamed l s).ctl with faultPending := true, faultFresh := true, faultWaits := none } } := by
  have eq : (if s.ctl.state == .halted && s.ctl.cause == .recoveryFailed then s
      else { s with ctl := { s.ctl with cause := .memberLost, faultLayout := l } }) = blamed l s := by
    by_cases kept : s.ctl.state = .halted ∧ s.ctl.cause = .recoveryFailed
    · have same : blamed l s = { s with ctl := { s.ctl with cause := .recoveryFailed, faultLayout := s.ctl.faultLayout } } := by
        unfold blamed
        rw [if_pos kept, if_pos kept]
      rw [if_pos (by simpa using kept), same, ← kept.2]
    · unfold blamed
      rw [if_neg (by simpa using kept), if_neg kept, if_neg kept]
  have latch : (blamed l s).ctl.latch = s.ctl.latch := rfl
  have pending : (blamed l s).ctl.faultPending = s.ctl.faultPending := rfl
  unfold takeFault
  simp only [eq, beq_iff_eq, latch, pending]

theorem takeFault_volume (l : Option (LayoutId × Nat)) (s : State) : (takeFault l s).ctl.volume = s.ctl.volume := by
  rw [takeFault_eq]
  split
  · rfl
  · split
    · rfl
    · split
      · rfl
      · rw [abandonGather_state]
        rfl

/-! ## The report of the missing counts (R136, R161, R168) -/

theorem setVolume_eq (s : State) : setVolume s = { s with ctl := { s.ctl with volume := (setVolume s).ctl.volume } } := by
  unfold setVolume
  split
  · rfl
  · rfl
  · rfl
  all_goals split <;> rfl

/-- The state in which the counts have been noted and the volume follows them. -/
def counted (s : State) : State :=
  setVolume { s with ctl := { s.ctl with lastReport := s.counts, lastTolerance := s.tolerance } }

/-- Whether a report takes a fault (R161). -/
def State.faulted (s : State) : Bool :=
  s.counts.any (fun c => s.tolerance < c.2 && (s.tolerance < s.ctl.lastTolerance || risen s.ctl.lastReport c))

theorem reportCounts_eq (s : State) : reportCounts s = if s.faulted && (counted s).ctl.volume != .assembling
    then takeFault (firstExceeding s.tolerance s.counts) (counted s) else counted s := rfl

theorem reportCounts_volume (s : State) : (reportCounts s).ctl.volume = (counted s).ctl.volume := by
  rw [reportCounts_eq]
  split
  · exact takeFault_volume _ _
  · rfl

theorem counted_eq (s : State) : counted s = { s with ctl := { s.ctl with
    lastReport := s.counts, lastTolerance := s.tolerance, volume := (reportCounts s).ctl.volume } } := by
  rw [reportCounts_volume]
  exact setVolume_eq _

theorem counted_volume_other {s : State} (h : s.ctl.volume = .none ∨ s.ctl.volume = .assembling ∨ s.ctl.volume = .forming ∨
    (s.ctl.state = .halted ∧ s.ctl.cause = .recoveryFailed)) : (counted s).ctl.volume = s.ctl.volume := by
  unfold counted setVolume
  cases hv : s.ctl.volume <;> simp only [hv]
  all_goals rw [if_pos (by simpa [hv] using h)]

theorem counted_volume_serving {s : State}
    (h : s.ctl.volume = .online ∨ s.ctl.volume = .degraded ∨ s.ctl.volume = .offline)
    (going : ¬(s.ctl.state = .halted ∧ s.ctl.cause = .recoveryFailed)) : (counted s).ctl.volume = volumeOf s.counts := by
  unfold counted setVolume
  have halted : ¬(s.ctl.state == .halted && s.ctl.cause == .recoveryFailed) = true := by simpa using going
  rcases h with h | h | h <;>
  · simp only [h]
    rw [if_neg halted]
    rfl

theorem counted_volume_assembling (s : State) : (counted s).ctl.volume = .assembling ↔ s.ctl.volume = .assembling := by
  refine ⟨fun h => ?_, fun h => (counted_volume_other (.inr (.inl h))).trans h⟩
  by_cases other : s.ctl.volume = .none ∨ s.ctl.volume = .assembling ∨ s.ctl.volume = .forming ∨
      (s.ctl.state = .halted ∧ s.ctl.cause = .recoveryFailed)
  · rwa [counted_volume_other other] at h
  · have serving : s.ctl.volume = .online ∨ s.ctl.volume = .degraded ∨ s.ctl.volume = .offline := by
      cases hv : s.ctl.volume <;> simp_all
    rw [counted_volume_serving serving fun e => other (.inr (.inr (.inr e)))] at h
    unfold volumeOf at h
    split at h
    · cases h
    · split at h <;> cases h

theorem volumeOf_cases (counts : List (LayoutId × Nat)) :
    ((∃ c ∈ counts, 2 ≤ c.2) → volumeOf counts = .offline)
      ∧ ((∀ c ∈ counts, c.2 < 2) → (∃ c ∈ counts, c.2 = 1) → volumeOf counts = .degraded)
      ∧ ((∀ c ∈ counts, c.2 = 0) → volumeOf counts = .online) := by
  refine ⟨fun h => if_pos (by simpa using h), fun low one => ?_, fun zero => ?_⟩
  · exact (if_neg (by simpa using fun a b hc => low (a, b) hc)).trans (if_pos (by simpa using one))
  · refine (if_neg ?_).trans (if_neg ?_)
    · simpa using fun a b hc => by have : b = 0 := zero (a, b) hc; omega
    · simpa using fun a hc => Nat.one_ne_zero (zero (a, 1) hc)

theorem find?_id {l : List (LayoutId × Nat)} (nodup : (l.map (·.1)).Nodup) {p : LayoutId × Nat} (hp : p ∈ l) :
    l.find? (·.1 == p.1) = some p := by
  induction l with
  | nil => cases hp
  | cons q l ih =>
    obtain ⟨new, nodup⟩ := List.nodup_cons.mp nodup
    rw [List.find?_cons]
    rcases List.mem_cons.mp hp with rfl | hp
    · simp
    · have ne : q.1 ≠ p.1 := fun e => new (List.mem_map.mpr ⟨p, hp, e.symm⟩)
      rw [beq_false_of_ne ne]
      exact ih nodup hp

theorem risen_iff {last : List (LayoutId × Nat)} (nodup : (last.map (·.1)).Nodup) (c : LayoutId × Nat) :
    risen last c = true ↔ ∃ p ∈ last, p.1 = c.1 ∧ p.2 < c.2 := by
  unfold risen
  constructor
  · intro h
    split at h
    · cases h
    · rename_i p hp
      exact ⟨p, List.mem_of_find?_eq_some hp, by simpa using List.find?_some hp, by simpa using h⟩
  · rintro ⟨p, hp, id, lt⟩
    rw [← id, find?_id nodup hp]
    simpa using lt

/-- The first of ONLY, OLD, NEW above the tolerance. -/
theorem firstExceeding_first {tol : Nat} {counts : List (LayoutId × Nat)} (some_ : ∃ c ∈ counts, tol < c.2) :
    ∃ l, firstExceeding tol counts = some l ∧ l ∈ counts ∧ tol < l.2
      ∧ ∀ c ∈ counts, tol < c.2 → l.1 = .only ∨ (c.1 ≠ .only ∧ (l.1 = .old ∨ c.1 = .new)) := by
  have found {i : LayoutId} {l : LayoutId × Nat} (h : counts.find? (fun c => c.1 == i && tol < c.2) = some l) :
      l.1 = i ∧ l ∈ counts ∧ tol < l.2 := by
    have exceeds := List.find?_some h
    rw [Bool.and_eq_true, beq_iff_eq, decide_eq_true_eq] at exceeds
    exact ⟨exceeds.1, List.mem_of_find?_eq_some h, exceeds.2⟩
  have missed {i : LayoutId} (h : counts.find? (fun c => c.1 == i && tol < c.2) = none) (c : LayoutId × Nat) (hc : c ∈ counts)
      (lt : tol < c.2) : c.1 ≠ i := by
    have := List.find?_eq_none.mp h c hc
    simpa [lt] using this
  unfold firstExceeding
  cases only : counts.find? (fun c => c.1 == .only && tol < c.2) with
  | some l =>
    obtain ⟨id, mem, lt⟩ := found only
    exact ⟨l, by simp [only], mem, lt, fun _ _ _ => .inl id⟩
  | none =>
    cases old : counts.find? (fun c => c.1 == .old && tol < c.2) with
    | some l =>
      obtain ⟨id, mem, lt⟩ := found old
      exact ⟨l, by simp [only, old], mem, lt, fun c hc h => .inr ⟨missed only c hc h, .inl id⟩⟩
    | none =>
      have third (c : LayoutId × Nat) (hc : c ∈ counts) (h : tol < c.2) : c.1 = .new := by
        cases id : c.1 with
        | only => exact absurd id (missed only c hc h)
        | old => exact absurd id (missed old c hc h)
        | new => rfl
      cases new : counts.find? (fun c => c.1 == .new && tol < c.2) with
      | some l =>
        obtain ⟨-, mem, lt⟩ := found new
        exact ⟨l, by simp [only, old, new], mem, lt, fun c hc h => .inr ⟨missed only c hc h, .inr (third c hc h)⟩⟩
      | none =>
        obtain ⟨c, hc, h⟩ := some_
        exact absurd (third c hc h) (missed new c hc h)

theorem faulted_iff {s : State} (nodup : (s.ctl.lastReport.map (·.1)).Nodup) : s.faulted = true ↔ ∃ c ∈ s.counts,
    s.tolerance < c.2 ∧ (s.tolerance < s.ctl.lastTolerance ∨ ∃ p ∈ s.ctl.lastReport, p.1 = c.1 ∧ p.2 < c.2) := by
  unfold State.faulted
  simp only [List.any_eq_true, Bool.and_eq_true, Bool.or_eq_true, decide_eq_true_eq, risen_iff nodup]

theorem reportCounts_reported {s : State} (h : ¬s.faulted = true ∨ s.ctl.volume = .assembling) :
    reportCounts s = counted s := by
  rw [reportCounts_eq]
  refine if_neg fun e => ?_
  rw [Bool.and_eq_true, bne_iff_ne] at e
  exact h.elim (fun h => h e.1) (fun h => e.2 ((counted_volume_assembling s).mpr h))

theorem reportCounts_fault {s : State} (h : s.faulted = true) (hv : s.ctl.volume ≠ .assembling) :
    reportCounts s = takeFault (firstExceeding s.tolerance s.counts) (counted s) := by
  rw [reportCounts_eq]
  refine if_pos ?_
  rw [Bool.and_eq_true, bne_iff_ne]
  exact ⟨h, mt (counted_volume_assembling s).mp hv⟩

/-! ## The entry to SUSPENDED (R162) -/

/-- A pending fault whose work has finished enters SUSPENDED. -/
theorem ruleSuspend_enters {s : State} (pending : s.ctl.faultPending = true) (stale : s.ctl.faultFresh = false)
    {saved : EngineState} {from_ : Option EngineState} (h : s.suspension = some (saved, from_)) :
    ruleSuspend s = some { s with
      ctl := { s.ctl with
        state := .suspended, saved := some saved, pausedFrom := from_, faultPending := false, pauseRequest := false
        latch := true, faultWaits := none }
      plan := { s.plan with stage := if s.plan.stage = .installing then .working else s.plan.stage }
      win := { s.win with events := { s.win.events with engineSuspended := true } } } := by
  have stage : (if s.plan.stage == .installing then { s.plan with stage := .working } else s.plan)
      = { s.plan with stage := if s.plan.stage = .installing then .working else s.plan.stage } := by
    by_cases e : s.plan.stage = .installing
    · rw [if_pos (by simp [e]), if_pos e]
    · rw [if_neg (by simpa using e), if_neg e]
  unfold ruleSuspend
  rw [if_neg (by simp [pending]), if_neg (by simp [stale]), h, stage]
  rfl

theorem ruleSuspend_waits {s : State} (pending : s.ctl.faultPending = true) (stale : s.ctl.faultFresh = false)
    (h : s.suspension = none) : ruleSuspend s = none := by
  unfold ruleSuspend
  rw [if_neg (by simp [pending]), if_neg (by simp [stale]), h]
  rfl

theorem faultLabelDone_iff {s : State} :
    s.faultLabelDone = true ↔ ∀ g f, s.ctl.faultWaits = some g → s.mark.flight = some f → f.generation ≠ g := by
  unfold State.faultLabelDone
  cases s.ctl.faultWaits with
  | none => simp
  | some g =>
    cases s.mark.flight with
    | none => simp
    | some f => simp

theorem mem_steps {s : State} {g : Staging} {t : Step} : (g, t) ∈ s.steps ↔ s.stepIn g = some t := by
  unfold State.steps
  cases g <;> simp [State.stepIn]

theorem pastFreeze_iff (x : Stage) : x.pastFreeze = true ↔ x = .freeze ∨ x = .spill ∨ x = .place ∨ x = .mark := by
  cases x <;> simp [Stage.pastFreeze]

theorem atRest_iff {s : State} : s.atRest = true ↔ ∀ g t, s.stepIn g = some t →
    t.stage ≠ .freeze ∧ t.stage ≠ .spill ∧ t.stage ≠ .place ∧ t.stage ≠ .mark := by
  have stage (x : Stage) : (!x.pastFreeze) = true ↔ x ≠ .freeze ∧ x ≠ .spill ∧ x ≠ .place ∧ x ≠ .mark := by
    cases x <;> simp [Stage.pastFreeze]
  unfold State.atRest
  simp only [List.all_eq_true, stage, Prod.forall, mem_steps]

theorem suspension_waiting {s : State} (h : s.ctl.state = .waiting) :
    s.suspension = if s.faultLabelDone then some (.waiting, s.ctl.pausedFrom) else none := by
  unfold State.suspension
  simp only [h]

theorem suspension_paused {s : State} (h : s.ctl.state = .paused) :
    s.suspension = if s.faultLabelDone then some (.paused, s.ctl.pausedFrom) else none := by
  unfold State.suspension
  simp only [h]

theorem suspension_preparing {s : State} (h : s.ctl.state = .preparing) :
    s.suspension = if s.plan.installed && s.plan.copies == 0 then
      some (if s.plan.dropAsked then .idle else .running, s.ctl.pausedFrom) else none := by
  unfold State.suspension
  simp only [h]

theorem suspension_moving {s : State} (h : s.ctl.state = .running ∨ s.ctl.state = .settling) :
    s.suspension = if s.atRest && s.faultLabelDone then
      if s.ctl.pauseRequest && s.afterRest != .closing then some (.paused, some s.afterRest)
      else some (s.afterRest, s.ctl.pausedFrom) else none := by
  unfold State.suspension
  rcases h with h | h <;> simp only [h]

theorem suspension_closing {s : State} (h : s.ctl.state = .closing) :
    ((∃ w, s.plan.stage = .closing w) → s.suspension = none)
      ∧ ((∀ w, s.plan.stage ≠ .closing w) → s.suspension = some (.idle, s.ctl.pausedFrom)) := by
  unfold State.suspension
  simp only [h]
  refine ⟨fun ⟨w, e⟩ => by simp only [e], fun ne => ?_⟩
  cases e : s.plan.stage <;> simp_all

theorem suspension_none {s : State} (h : s.ctl.state = .idle ∨ s.ctl.state = .suspended ∨ s.ctl.state = .halted) :
    s.suspension = none := by
  unfold State.suspension
  rcases h with h | h | h <;> simp only [h]

theorem afterRest_eq (s : State) : s.afterRest = if s.endRow ≤ s.mover.front then .closing
    else if s.mover.phase = .settle then .settling else s.ctl.state := by
  unfold State.afterRest
  simp only [beq_iff_eq]

/-- Settles O49: the report, the taking by state, latch and pending fault, and the entry state by state. -/
theorem faultsTaken : Obligations.FaultsTaken := by
  refine ⟨fun s last _ => ?_, fun s l => ?_, fun s => ?_⟩
  · intro tol v fault
    have eq : counted s = v := counted_eq s
    have volume := reportCounts_volume s
    have taken : s.faulted = true ↔ fault := faulted_iff last
    refine ⟨fun h => volume.trans (counted_volume_other h), fun serving going => ?_, fun h => ?_, fun h hv => ?_⟩
    · rw [volume, counted_volume_serving serving going]
      exact volumeOf_cases s.counts
    · rw [← eq]
      exact reportCounts_reported (h.imp_left (mt taken.mp))
    · obtain ⟨l, first, mem, lt, order⟩ := firstExceeding_first (h.imp fun c hc => ⟨hc.1, hc.2.1⟩)
      refine ⟨l, ?_, mem, lt, order⟩
      rw [reportCounts_fault (taken.mpr h) hv, eq, show firstExceeding s.tolerance s.counts = some l from first]
  · intro u kept cause layout
    have eq : u = _ := takeFault_eq l s
    refine ⟨fun idle => ?_, fun going latch => ?_, fun going latch pending => ?_, fun going latch pending => ?_, fun h => if_pos h⟩
    · rw [eq, if_pos idle]
    · rw [eq, if_neg going, if_pos latch]
      rfl
    · rw [eq, if_neg going, if_neg (by simp [latch]), if_pos pending]
      rfl
    · rw [if_neg going, if_neg (by simp [latch]), if_neg (by simp [pending])] at eq
      obtain ⟨w, hw⟩ : ∃ w : State, { blamed l s with ctl :=
        { (blamed l s).ctl with faultPending := true, faultFresh := true, faultWaits := none } } = w := ⟨_, rfl⟩
      rw [hw] at eq
      have steps (g : Staging) : w.stepIn g = s.stepIn g := by rw [← hw]; cases g <;> rfl
      have holds : w.holds = s.holds := by rw [← hw]; rfl
      obtain ⟨left, queue⟩ := abandonGather_steps_holds w
      simp only [steps, holds] at left queue
      rw [← eq] at left queue
      have ctl : u.ctl = w.ctl := by rw [eq, abandonGather_state]
      refine ⟨by rw [ctl, ← hw]; rfl, left, queue, ?_⟩
      have rest := (abandonGather_givenUp w).rest
      rw [← eq, ← hw] at rest
      have ctl' : u.ctl = _ := ctl.trans (congrArg State.ctl hw.symm)
      exact rest.trans (by rw [ctl']; rfl)
  · refine ⟨fun h => if_pos (by simp [h]), fun pending fresh => ?_, fun pending stale => ?_⟩
    · exact (if_neg (by simp [pending])).trans (if_pos fresh)
    · intro labelled rest prepared enters ran next
      have enter {saved : EngineState} {from_ : Option EngineState} (h : s.suspension = some (saved, from_)) :
          enters saved from_ := ruleSuspend_enters pending stale h
      have wait : s.suspension = none → ruleSuspend s = none := ruleSuspend_waits pending stale
      have label : s.faultLabelDone = true ↔ labelled := faultLabelDone_iff
      have still : s.atRest = true ↔ rest := atRest_iff
      have ready : (s.plan.installed && s.plan.copies == 0) = true ↔ prepared := by simp [prepared]
      have after : s.afterRest = next := afterRest_eq s
      refine ⟨fun h => ⟨fun hl => enter ?_, fun hl => wait ?_⟩, fun h => ⟨fun hl => enter ?_, fun hl => wait ?_⟩,
        fun h => ⟨fun hp hd => enter ?_, fun hp hd => enter ?_, fun hp => wait ?_⟩,
        fun h => ⟨fun hn => wait ?_, fun hr hl hp hc => enter ?_, fun hr hl hp => enter ?_⟩,
        fun h => ⟨fun hw => wait ((suspension_closing h).1 hw), fun hw => enter ((suspension_closing h).2 hw)⟩,
        fun h => wait (suspension_none h)⟩
      · rw [suspension_waiting h, if_pos (label.mpr hl)]
      · rw [suspension_waiting h, if_neg (mt label.mp hl)]
      · rw [suspension_paused h, if_pos (label.mpr hl)]
      · rw [suspension_paused h, if_neg (mt label.mp hl)]
      · rw [suspension_preparing h, if_pos (ready.mpr hp), if_pos hd]
      · rw [suspension_preparing h, if_pos (ready.mpr hp), if_neg (by simp [hd])]
      · rw [suspension_preparing h, if_neg (mt ready.mp hp)]
      · rw [suspension_moving h, if_neg (by rw [Bool.and_eq_true, still, label]; exact hn)]
      · rw [suspension_moving h, if_pos (by rw [Bool.and_eq_true, still, label]; exact ⟨hr, hl⟩), after,
          if_pos (by rw [Bool.and_eq_true, bne_iff_ne]; exact ⟨hp, hc⟩)]
      · rw [suspension_moving h, if_pos (by rw [Bool.and_eq_true, still, label]; exact ⟨hr, hl⟩), after,
          if_neg (by rw [Bool.and_eq_true, bne_iff_ne]; rintro ⟨e, ne⟩; exact hp.elim (fun e' => nomatch e.symm.trans e') ne)]
end Sys2Proof.Machine
end

