-- ==== Sys2Proof/Proofs/PlanClosing.lean ====
section
/-! PROOFS. The mover's rest, a pause, drops and the removal of a plan that has lost its incoming bay (R73, R74, R101, R105, R108,
R112, R115 to R118, R134, R159). -/

namespace Sys2Proof.Machine

/-! ## Changes of the bay records alone -/

/-- Only the bay records differ. -/
def Rebay (s t : State) : Prop := t = { s with shelf := { s.shelf with bays := t.shelf.bays } }

theorem Rebay.refl (s : State) : Rebay s s := rfl

theorem Rebay.trans {s t u : State} (h : Rebay s t) (g : Rebay t u) : Rebay s u := by
  unfold Rebay at *
  rw [h] at g
  exact g

theorem updBay_rebay (i : Slot) (f : Bay → Bay) (s : State) : Rebay s (updBay i f s) := rfl

/-- A fold that changes each bay of a list once, by what the fold began with. -/
theorem foldl_bays (s0 : State) (f : State → Slot → State) (g : Slot → Bay → Bay)
    (hf : ∀ t, Rebay s0 t → ∀ i, Rebay t (f t i) ∧ (f t i).bay i = g i (t.bay i) ∧ ∀ j, j ≠ i → (f t i).bay j = t.bay j)
    (l : List Slot) : l.Nodup → ∀ t, Rebay s0 t → Rebay s0 (l.foldl f t)
      ∧ ∀ j, (l.foldl f t).bay j = if j ∈ l then g j (t.bay j) else t.bay j := by
  induction l with
  | nil => exact fun _ t ht => ⟨ht, fun j => by rw [if_neg List.not_mem_nil]; rfl⟩
  | cons i l ih =>
    intro nodup t ht
    obtain ⟨new, nodup⟩ := List.nodup_cons.mp nodup
    obtain ⟨rebay, same, others⟩ := hf t ht i
    obtain ⟨after, bays⟩ := ih nodup (f t i) (ht.trans rebay)
    refine ⟨after, fun j => ?_⟩
    rw [List.foldl_cons, bays]
    by_cases e : j = i
    · subst e
      rw [if_neg new, if_pos List.mem_cons_self, same]
    · rw [others j e]
      by_cases m : j ∈ l
      · rw [if_pos m, if_pos (List.mem_cons_of_mem _ m)]
      · rw [if_neg m, if_neg (by simp [e, m])]

theorem mem_allSlots (i : Slot) : i ∈ allSlots := List.mem_finRange i

theorem foldl_allSlots (s : State) (f : State → Slot → State) (g : Slot → Bay → Bay)
    (hf : ∀ t, Rebay s t → ∀ i, Rebay t (f t i) ∧ (f t i).bay i = g i (t.bay i) ∧ ∀ j, j ≠ i → (f t i).bay j = t.bay j) :
    Rebay s (allSlots.foldl f s) ∧ ∀ j, (allSlots.foldl f s).bay j = g j (s.bay j) := by
  obtain ⟨rebay, bays⟩ := foldl_bays s f g hf allSlots (List.nodup_finRange 64) s (Rebay.refl s)
  exact ⟨rebay, fun j => by rw [bays, if_pos (mem_allSlots j)]⟩

/-! ## A cause that is raised (R82) -/

theorem raiseCause_eq (k : CauseKind) (s : State) :
    raiseCause k s = { s with mark := { s.mark with causes := (raiseCause k s).mark.causes } } := rfl

theorem raiseCause_causes (k : CauseKind) (s : State) :
    (∃ c ∈ (raiseCause k s).mark.causes, c.kind = k ∧ c.served = false)
      ∧ ∀ c, c.kind ≠ k → (c ∈ (raiseCause k s).mark.causes ↔ c ∈ s.mark.causes) := by
  unfold raiseCause
  dsimp only
  by_cases h : s.mark.causes.any (·.kind == k) = true
  · rw [if_pos h]
    obtain ⟨c, hc, kind⟩ := List.any_eq_true.mp h
    refine ⟨⟨{ c with served := false }, List.mem_map.mpr ⟨c, hc, if_pos kind⟩, by simpa using kind, rfl⟩, fun d hd => ?_⟩
    refine ⟨fun m => ?_, fun m => List.mem_map.mpr ⟨d, m, if_neg (by simpa using hd)⟩⟩
    obtain ⟨e, he, rfl⟩ := List.mem_map.mp m
    by_cases kind : (e.kind == k) = true
    · rw [if_pos kind] at hd
      exact absurd (by simpa using kind) hd
    · rwa [if_neg kind]
  · rw [if_neg h]
    refine ⟨⟨_, List.mem_append_right _ (List.mem_singleton.mpr rfl), rfl, rfl⟩, fun d hd => ?_⟩
    rw [List.mem_append, List.mem_singleton]
    exact ⟨fun m => m.resolve_right (fun e => hd (by rw [e])), .inl⟩

/-- The plan unit's label write is asked for: its cause waits, and of the others none is touched. -/
structure Asks (s u : State) (w : PlanWrite) : Prop where
  plan   : u.plan = { s.plan with stage := .closing w }
  mark   : u.mark = { s.mark with causes := u.mark.causes }
  waits  : ∃ c ∈ u.mark.causes, c.kind = .plan w ∧ c.served = false
  others : ∀ c, c.kind ≠ .plan .close → c.kind ≠ .plan .remove → (c ∈ u.mark.causes ↔ c ∈ s.mark.causes)
  rest   : u = { s with plan := u.plan, mark := u.mark }

theorem raiseCause_asks {w : PlanWrite} (hw : w = .close ∨ w = .remove) (s : State) :
    Asks s (raiseCause (.plan w) { s with plan := { s.plan with stage := .closing w } }) w := by
  obtain ⟨waits, others⟩ := raiseCause_causes (.plan w) { s with plan := { s.plan with stage := .closing w } }
  exact ⟨rfl, rfl, waits, fun c h1 h2 => others c (by rcases hw with rfl | rfl <;> assumption), rfl⟩

/-! ## The mover's rest (R62, R108, R118, R159) -/

theorem restNext_eq (s : State) : s.restNext = .closing ↔ s.plan.incomingLost = true ∨ s.endRow ≤ s.mover.front
      ∨ (s.mover.phase ≠ .settle ∧ s.ctl.state = .closing) := by
  unfold State.restNext
  rw [afterRest_eq]
  by_cases lost : s.plan.incomingLost = true
  · simp [lost]
  · by_cases ended : s.endRow ≤ s.mover.front
    · simp [lost, ended]
    · by_cases settle : s.mover.phase = .settle
      · simp [lost, ended, settle]
      · simp [lost, ended, settle]

theorem restNext_done {s : State} (h : s.plan.incomingLost = true ∨ s.endRow ≤ s.mover.front) : s.restNext = .closing :=
  (restNext_eq s).mpr (h.imp_right .inl)

theorem restNext_open {s : State} (h : ¬(s.plan.incomingLost = true ∨ s.endRow ≤ s.mover.front)) :
    s.restNext = if s.mover.phase = .settle then .settling else s.ctl.state := by
  obtain ⟨lost, ended⟩ := not_or.mp h
  unfold State.restNext
  rw [if_neg lost, afterRest_eq, if_neg ended]

section
variable {s : State} (state : s.ctl.state = .running ∨ s.ctl.state = .settling) (stage : s.plan.stage = .working)
  (pending : s.ctl.faultPending = false) (drop : s.plan.dropAsked = false)
include state stage pending drop

theorem ruleRest_eq : ruleRest s = if s.atRest then
    if s.restNext = .closing then some { s with ctl := { s.ctl with state := .closing, pauseRequest := false } }
    else if s.ctl.pauseRequest then
      some { s with ctl := { s.ctl with state := .paused, pauseRequest := false, pausedFrom := some s.restNext } }
    else if s.restNext = s.ctl.state then none else some (setEngine s.restNext s) else none := by
  have moving : (s.ctl.state == .running || s.ctl.state == .settling) = true := by simpa using state
  unfold ruleRest
  simp only [moving, stage, pending, drop, beq_iff_eq, Bool.and_eq_true]
  by_cases rest : s.atRest = true <;> simp [rest]

end

/-- R62, R108, R159: the rest of an engine in RUNNING or SETTLING. -/
theorem ruleRest_cases {s : State} (state : s.ctl.state = .running ∨ s.ctl.state = .settling) (stage : s.plan.stage = .working)
    (pending : s.ctl.faultPending = false) (drop : s.plan.dropAsked = false) :
    let done : Prop := s.plan.incomingLost = true ∨ s.endRow ≤ s.mover.front
    (s.atRest = false → ruleRest s = none)
    ∧ (s.atRest = true → done → ruleRest s = some { s with ctl := { s.ctl with state := .closing, pauseRequest := false } })
    ∧ (s.atRest = true → ¬done → s.ctl.pauseRequest = true → ruleRest s = some { s with ctl := { s.ctl with
        state := .paused, pauseRequest := false
        pausedFrom := some (if s.mover.phase = .settle then .settling else s.ctl.state) } })
    ∧ (s.atRest = true → ¬done → s.ctl.pauseRequest = false → s.ctl.state = .running → s.mover.phase = .settle →
        ruleRest s = some { s with ctl := { s.ctl with state := .settling, latch := false } })
    ∧ (s.atRest = true → ¬done → s.ctl.pauseRequest = false → (s.ctl.state = .settling ∨ s.mover.phase ≠ .settle) →
        ruleRest s = none) := by
  intro done
  rw [ruleRest_eq state stage pending drop]
  have open_ (h : ¬done) : s.restNext ≠ .closing := by
    rw [restNext_open h]
    rcases state with e | e <;> rw [e] <;> split <;> exact EngineState.noConfusion
  refine ⟨fun h => if_neg (by simp [h]), fun h hd => ?_, fun h hd hp => ?_, fun h hd hp hr hs => ?_, fun h hd hp hs => ?_⟩
  · rw [if_pos h, if_pos (restNext_done hd)]
  · rw [if_pos h, if_neg (open_ hd), if_pos hp, restNext_open hd]
  · have next : s.restNext = .settling := by rw [restNext_open hd, if_pos hs]
    rw [if_pos h, if_neg (open_ hd), if_neg (by simp [hp]), if_neg (by rw [next, hr]; exact EngineState.noConfusion), next]
    rfl
  · have next : s.restNext = s.ctl.state := by
      rw [restNext_open hd]
      by_cases settle : s.mover.phase = .settle
      · rw [if_pos settle, hs.resolve_right (not_not_intro settle)]
      · rw [if_neg settle]
    rw [if_pos h, if_neg (open_ hd), if_neg (by simp [hp]), if_pos next]

/-! ## A lost incoming bay (R118) -/

/-- The bay that held position q, and is to be STALE once rows below the front have left it. -/
def State.olderBay (s : State) (l : Layout) (q : Nat) (i : Slot) : Prop :=
  l.slotAt q = some i ∧ 0 < s.mover.front ∧ (s.bay i).role = .member

/-- R118: the roles and the report when the incoming bay is lost. -/
theorem lostRoles_cases {s : State} {l : Layout} {inc : Incoming} (only : s.layout .only = some l)
    (incoming : s.plan.incoming = some inc) : ∃ w, Rebay s w
      ∧ (∀ i, s.olderBay l inc.q i → w.bay i = { s.bay i with role := .stale })
      ∧ (∀ i, ¬s.olderBay l inc.q i → w.bay i = s.bay i)
      ∧ ((∃ i, s.olderBay l inc.q i) → lostRoles s = reportChange w) ∧ ((¬∃ i, s.olderBay l inc.q i) → lostRoles s = w) := by
  cases slot : l.slotAt inc.q with
  | none =>
    have eq : lostRoles s = s := by
      unfold lostRoles
      simp only [only, incoming, slot]
    have none_ (i : Slot) : ¬s.olderBay l inc.q i := fun h => nomatch slot.symm.trans h.1
    exact ⟨s, Rebay.refl s, fun i h => absurd h (none_ i), fun _ _ => rfl, fun ⟨i, h⟩ => absurd h (none_ i), fun _ => eq⟩
  | some k =>
    have eq : lostRoles s = if 0 < s.mover.front && (s.bay k).role == .member then
        reportChange (updBay k (fun b => { b with role := .stale }) s) else s := by
      unfold lostRoles
      simp only [only, incoming, slot]
    have one {i : Slot} (h : s.olderBay l inc.q i) : i = k := Option.some.inj (h.1.symm.trans slot)
    by_cases older : s.olderBay l inc.q k
    · have cond : (decide (0 < s.mover.front) && (s.bay k).role == .member) = true := by simp [older.2.1, older.2.2]
      refine ⟨updBay k (fun b => { b with role := .stale }) s, updBay_rebay _ _ s, fun i h => ?_, fun i h => ?_,
        fun _ => eq.trans (if_pos cond), fun h => absurd ⟨k, older⟩ h⟩
      · rw [one h, updBay_bay_same]
      · exact updBay_bay_ne _ s fun e => h (e ▸ older)
    · have cond : ¬(decide (0 < s.mover.front) && (s.bay k).role == .member) = true := by
        rw [Bool.and_eq_true, decide_eq_true_eq, beq_iff_eq]
        exact fun h => older ⟨slot, h⟩
      have none_ (i : Slot) : ¬s.olderBay l inc.q i := fun h => older (one h ▸ h)
      exact ⟨s, Rebay.refl s, fun i h => absurd h (none_ i), fun _ _ => rfl, fun ⟨i, h⟩ => absurd h (none_ i),
        fun _ => eq.trans (if_neg cond)⟩

theorem reportChange_eq (s : State) : reportChange s = if s.counts = s.ctl.lastReport then s else reportCounts s := by
  unfold reportChange
  simp only [beq_iff_eq]

theorem askRemoval_asks (s : State) : Asks s (askRemoval s) .remove := raiseCause_asks (.inr rfl) s

/-! ## A drop of an installed plan (R116) -/

/-- What a drop makes of a bay. -/
def State.droppedBay (s : State) (i : Slot) (b : Bay) : Bay :=
  if b.role = .joining then
    match s.plan.incoming, s.plan.inPlace with
    | some inc, some former =>
      if inc.slot = i then { b with role := former.1, incoming := false }
      else { b with role := .none, position := none, incoming := false, remaps := [] }
    | _, _ => { b with role := .none, position := none, incoming := false, remaps := [] }
  else b

theorem dropRoles_bays (s : State) : Rebay s (dropRoles s) ∧ ∀ j, (dropRoles s).bay j = s.droppedBay j (s.bay j) := by
  refine foldl_allSlots s _ s.droppedBay fun t ht i => ?_
  have plan : t.plan = s.plan := by rw [ht]
  unfold State.droppedBay
  rw [plan]
  by_cases joining : (t.bay i).role = .joining
  · rw [if_pos joining, if_pos (by simpa using joining)]
    have none_ : Rebay t (roleNone i t)
        ∧ (roleNone i t).bay i = { t.bay i with role := .none, position := none, incoming := false, remaps := [] }
        ∧ ∀ j, j ≠ i → (roleNone i t).bay j = t.bay j :=
      ⟨updBay_rebay _ _ t, updBay_bay_same _ _ t, fun j hj => updBay_bay_ne _ t hj⟩
    cases s.plan.incoming with
    | none => exact none_
    | some inc =>
      cases s.plan.inPlace with
      | none => exact none_
      | some former =>
        dsimp only
        by_cases own : inc.slot = i
        · rw [if_pos own, if_pos (by simpa using own)]
          exact ⟨updBay_rebay _ _ t, updBay_bay_same _ _ t, fun j hj => updBay_bay_ne _ t hj⟩
        · rw [if_neg own, if_neg (by simpa using own)]
          exact none_
  · rw [if_neg joining, if_neg (by simpa using joining)]
    exact ⟨Rebay.refl t, rfl, fun _ _ => rfl⟩

/-- The engine's part of a drop. -/
def dropEngine (s : State) : State :=
  if s.ctl.state == .suspended then { s with ctl := { s.ctl with saved := some .idle, pausedFrom := none } }
  else { s with ctl := { s.ctl with state := .closing, pauseRequest := false, pausedFrom := none } }

theorem dropEngine_eq (s : State) : dropEngine s = { s with ctl := (dropEngine s).ctl } := by
  unfold dropEngine
  split <;> rfl

theorem dropEngine_ctl (s : State) :
    (s.ctl.state = .suspended → (dropEngine s).ctl = { s.ctl with saved := some .idle, pausedFrom := none })
      ∧ (s.ctl.state ≠ .suspended →
        (dropEngine s).ctl = { s.ctl with state := .closing, pauseRequest := false, pausedFrom := none }) := by
  unfold dropEngine
  refine ⟨fun h => by rw [if_pos (by simpa using h)], fun h => by rw [if_neg (by simpa using h)]⟩

section
variable {s : State} (asked : s.plan.dropAsked = true) (pending : s.ctl.faultPending = false) (going : s.ctl.state ≠ .halted)
include asked pending going

theorem ruleDrop_working (stage : s.plan.stage = .working) :
    ruleDrop s = some (askRemoval (dropRoles (dropEngine (abandonGather s)))) := by
  unfold ruleDrop
  rw [if_pos (by simp [asked, pending, going]), stage]
  rfl

theorem ruleDrop_waiting (stage : s.plan.stage = .waiting) : ruleDrop s = some (endUninstalled .dropped s) := by
  unfold ruleDrop
  rw [if_pos (by simp [asked, pending, going]), stage]

end

/-! ## The end of a plan that was never installed (R101, R105, R112, R116) -/

theorem record_set {s : State} {i j : Nat} (r : PlanRecord) (h : i < s.plan.table.length) :
    (setRecord i r s).record j = if j = i then r else s.record j := by
  unfold State.record setRecord
  dsimp only
  rw [List.getD_eq_getElem?_getD, List.getD_eq_getElem?_getD, List.getElem?_set]
  by_cases e : j = i
  · subst e
    simp [h]
  · simp [e, Ne.symm e]

theorem record_congr {s t : State} (h : t.plan.table = s.plan.table) (i : Nat) : t.record i = s.record i := by
  unfold State.record
  rw [h]

theorem planDone_eq (i : Nat) (s : State) : planDone i s
    = { s with win := { s.win with events := { s.win.events with planDone := s.win.events.planDone || !(s.record i).quiet } } } := by
  unfold planDone
  cases hq : (s.record i).quiet with
  | true =>
    rw [if_pos rfl]
    simp
  | false =>
    rw [if_neg Bool.false_ne_true]
    simp [raise, Events.set]

theorem moveChain_eq (p : Nat × ChainStatus) (s : State) : moveChain p s = { s with
    plan := { s.plan with pointer := p.1, status := p.2, hold := false, keepHold := false, beforeFirst := false }
    win := (moveChain p s).win } := by
  unfold moveChain
  dsimp only
  split <;> rfl

theorem moveChain_win (p : Nat × ChainStatus) (s : State) : (moveChain p s).win
    = { s.win with events := { s.win.events with chainEnd := s.win.events.chainEnd || p.2 == .ended || p.2 == .held } } := by
  unfold moveChain
  dsimp only
  split
  · rename_i h
    rw [Bool.or_assoc, h]
    simp [raise, Events.set]
  · rename_i h
    rw [Bool.or_assoc, Bool.eq_false_iff.mpr h]
    simp

theorem writeBehind_eq (i : Nat) (s : State) :
    writeBehind i s = { s with plan := { s.plan with areaWrites := (writeBehind i s).plan.areaWrites } } := by
  unfold writeBehind
  split <;> rfl

/-- Where the chain goes at a plan's end. -/
def State.chainNext (s : State) (cont : Bool) : Nat × ChainStatus :=
  if s.plan.endChain = true then (s.plan.pointer, .ended)
  else if s.plan.hold = true then (s.plan.pointer, .held)
  else if cont = true then (s.plan.pointer + 1, .due) else (s.plan.pointer, .ended)

theorem chainAfter_eq {s : State} {i : Nat} (active : s.plan.active = some i) (h : i < s.plan.table.length) :
    s.chainAfter = s.chainNext (s.record i).cont := by
  have record : s.activeRecord = some (s.record i) := by
    unfold State.activeRecord State.record
    rw [active, List.getD_eq_getElem _ _ h]
    exact List.getElem?_eq_getElem h
  unfold State.chainAfter State.chainNext
  rw [record]

/-- What the end of a plan that was never installed comes to. -/
structure Uninstalled (o : PlanOutcome) (i : Nat) (s u : State) : Prop where
  record  : u.record i
    = { s.record i with outcome := o, rowsDone := 0, capacity := s.plan.capacity, generation := s.mark.generation }
  records : ∀ j, j ≠ i → u.record j = s.record j
  active  : u.plan.active = none
  stage   : u.plan.stage = .none
  saved   : s.ctl.state = .suspended → u.ctl = { s.ctl with saved := some .idle, pausedFrom := none }
  idle    : s.ctl.state ≠ .suspended → u.ctl = { s.ctl with state := .idle, latch := false }
  done    : u.win.events.planDone = (s.win.events.planDone || !(s.record i).quiet)
  layouts : u.plan.layouts = s.plan.layouts
  shelf   : u.shelf = s.shelf
  mark    : u.mark = s.mark
  chain   : (u.plan.pointer, u.plan.status) = s.chainNext (s.record i).cont
  hold    : u.plan.hold = false
  stops   : u.win.events.chainEnd = (s.win.events.chainEnd || (s.chainNext (s.record i).cont).2 == .ended
              || (s.chainNext (s.record i).cont).2 == .held)
  mover   : u.mover = s.mover
  port    : u.port = s.port

theorem endUninstalled_ends {o : PlanOutcome} {i : Nat} {s : State} (active : s.plan.active = some i)
    (h : i < s.plan.table.length) : Uninstalled o i s (endUninstalled o s) := by
  obtain ⟨r, hr⟩ : ∃ r, r = { s.record i with
    outcome := o, rowsDone := 0, capacity := s.plan.capacity, generation := s.mark.generation } := ⟨_, rfl⟩
  obtain ⟨v, hv⟩ : ∃ v, planDone i (setResidue i o 0 s.plan.capacity s.mark.generation s) = v := ⟨_, rfl⟩
  have set : v = { setRecord i r s with
      win := { s.win with events := { s.win.events with planDone := s.win.events.planDone || !(s.record i).quiet } } } := by
    rw [← hv, planDone_eq, setResidue, ← hr, record_set _ h, if_pos rfl, hr]
    rfl
  have records (j : Nat) : v.record j = if j = i then r else s.record j := by
    rw [← record_set r h]
    exact record_congr (by rw [set]) j
  have next : v.chainAfter = s.chainNext (s.record i).cont := by
    rw [chainAfter_eq (i := i) (by rw [set]; exact active) (by rw [set, setRecord, List.length_set]; exact h), records,
      if_pos rfl, hr]
    unfold State.chainNext
    rw [set]
    rfl
  obtain ⟨w, hw⟩ : ∃ w, writeBehind i (clearActive (moveChain v.chainAfter v)) = w := ⟨_, rfl⟩
  have eq : endUninstalled o s = if w.ctl.state == .suspended
      then { w with ctl := { w.ctl with saved := some .idle, pausedFrom := none } } else setEngine .idle w := by
    unfold endUninstalled
    simp only [active, hv, hw]
  rw [writeBehind_eq, clearActive, moveChain_eq] at hw
  have ctl : w.ctl = s.ctl := by rw [← hw, set]; rfl
  have plan : (endUninstalled o s).plan = w.plan ∧ (endUninstalled o s).win = w.win ∧ (endUninstalled o s).shelf = w.shelf
      ∧ (endUninstalled o s).mark = w.mark ∧ (endUninstalled o s).mover = w.mover ∧ (endUninstalled o s).port = w.port := by
    rw [eq]
    split <;> exact ⟨rfl, rfl, rfl, rfl, rfl, rfl⟩
  obtain ⟨plan, win, shelf, mark, mover, port⟩ := plan
  have table (j : Nat) : (endUninstalled o s).record j = v.record j := by
    refine record_congr ?_ j
    rw [plan, ← hw]
  refine ⟨?_, fun j hj => ?_, ?_, ?_, fun hs => ?_, fun hs => ?_, ?_, ?_, ?_, ?_, ?_, ?_, ?_, ?_, ?_⟩
  · rw [table, records, if_pos rfl, hr]
  · rw [table, records, if_neg hj]
  · rw [plan, ← hw]
  · rw [plan, ← hw]
  · rw [eq, if_pos (by rw [ctl]; simpa using hs), ctl]
  · rw [eq, if_neg (by rw [ctl]; simpa using hs), setEngine, ctl]
  · rw [win, ← hw, moveChain_win, set]
  · rw [plan, ← hw, set]
    rfl
  · rw [shelf, ← hw, set]
    rfl
  · rw [mark, ← hw, set]
    rfl
  · rw [plan, ← hw, next]
  · rw [plan, ← hw]
  · rw [win, ← hw, moveChain_win, next, set]
  · rw [mover, ← hw, set]
    rfl
  · rw [port, ← hw, set]
    rfl

/-! ## The closing of a plan (R108, R118) -/

theorem ruleClosing_close {s : State} (state : s.ctl.state = .closing) (stage : s.plan.stage = .working)
    (kept : s.plan.incomingLost = false) :
    ruleClosing s = some (raiseCause (.plan .close) { s with plan := { s.plan with stage := .closing .close } }) := by
  unfold ruleClosing
  rw [stage]
  dsimp only
  rw [if_pos (by simp [state]), if_neg (by simp [kept])]

/-- The state a removal of a plan that has lost its incoming bay starts from: a closing label write not begun is given up. -/
def lostStart (s : State) : State :=
  if s.plan.stage = .working then s
  else { s with mark := { s.mark with causes := s.mark.causes.filter (fun c => c.kind != .plan .close) } }

theorem ruleClosing_lost {s : State}
    (h : (s.ctl.state = .closing ∧ s.plan.stage = .working) ∨ (s.plan.stage = .closing .close ∧ s.closeBegun = false))
    (lost : s.plan.incomingLost = true) : ruleClosing s = some (askRemoval (lostRoles (lostStart s))) := by
  unfold ruleClosing lostStart
  rcases h with ⟨state, stage⟩ | ⟨stage, begun⟩
  · rw [stage]
    dsimp only
    rw [if_pos (by simp [state]), if_pos lost, if_pos rfl]
  · rw [stage]
    dsimp only
    rw [if_pos (by simp [lost, begun]), if_neg (by simp)]

theorem lostStart_frame (s : State) : lostStart s = { s with mark := { s.mark with causes := (lostStart s).mark.causes } }
    ∧ (s.plan.stage = .working → (lostStart s).mark = s.mark)
    ∧ (s.plan.stage = .closing .close → (lostStart s).mark.causes = s.mark.causes.filter (fun c => c.kind != .plan .close)) := by
  unfold lostStart
  refine ⟨by split <;> rfl, fun h => by rw [if_pos h], fun h => by rw [if_neg (by rw [h]; exact PlanStage.noConfusion)]⟩

/-- Settles O52: the rest, the pause at rest, the two closings, and the drop. -/
theorem planClosing : Obligations.PlanClosing := by
  unfold Obligations.PlanClosing
  intro past asks
  have moving (s : State) : past s ↔ s.atRest = false := by
    rw [← Bool.not_eq_true, atRest_iff]
    simp only [past, not_forall, ne_eq, not_and_or, not_not, exists_prop]
  have ask {s u : State} {w : PlanWrite} (h : Asks s u w) : asks s u w := ⟨h.plan, h.mark, h.waits, h.others⟩
  refine ⟨fun s state stage pending drop => ?_, fun s state stage pending => ⟨fun lost => ?_, fun kept => ?_⟩,
    fun s state stage kept => ?_, fun s l inc h lost only incoming => ?_, fun s asked pending going => ⟨fun stage => ?_, ?_⟩⟩
  · intro done
    obtain ⟨busy, ended, paused, settled, idle⟩ := ruleRest_cases state stage pending drop
    have still (h : ¬past s) : s.atRest = true := by simpa [moving] using h
    exact ⟨fun h => busy ((moving s).mp h), fun h => ended (still h), fun h => paused (still h), fun h => settled (still h),
      fun h => idle (still h)⟩
  · unfold ruleLostPaused
    rw [if_pos (by simp [state, stage, lost, pending])]
  · unfold ruleLostPaused
    rw [if_neg (by simp [kept])]
  · have closing := raiseCause_asks (w := .close) (.inl rfl) s
    exact ⟨_, ruleClosing_close state stage kept, ask closing, closing.rest⟩
  · intro older
    obtain ⟨start, same, filtered⟩ := lostStart_frame s
    obtain ⟨v, hv⟩ : ∃ v, lostStart s = v := ⟨_, rfl⟩
    rw [hv] at start same filtered
    have only' : v.layout .only = some l := by rw [start]; exact only
    have incoming' : v.plan.incoming = some inc := by rw [start]; exact incoming
    obtain ⟨w, rebay, stale, others, changed, unchanged⟩ := lostRoles_cases only' incoming'
    have old (i : Slot) : v.olderBay l inc.q i ↔ older i := by rw [start]; exact Iff.rfl
    have bay (i : Slot) : v.bay i = s.bay i := by rw [start]; rfl
    simp only [old, bay] at stale others changed unchanged
    have removal := askRemoval_asks (lostRoles v)
    have mark : w.mark = v.mark := by rw [rebay]
    refine ⟨askRemoval (lostRoles v), w, lostRoles v, by rw [ruleClosing_lost h lost, hv], removal.rest, ask removal, stale, others,
      ?_, fun h => mark.trans (same h), fun h => by rw [mark, filtered h], fun h => ?_, unchanged⟩
    · unfold Rebay at rebay
      rw [start] at rebay
      rw [mark]
      exact rebay
    · rw [changed h, reportChange_eq]
      have ctl : w.ctl = s.ctl := by rw [rebay, start]
      rw [ctl]
  · have given := abandonGather_givenUp s
    obtain ⟨steps, holds⟩ := abandonGather_steps_holds s
    have ctl := abandonGather_state s
    obtain ⟨v, hv⟩ : ∃ v, abandonGather s = v := ⟨_, rfl⟩
    rw [hv] at given steps holds ctl
    obtain ⟨suspended, other⟩ := dropEngine_ctl v
    have engine := dropEngine_eq v
    obtain ⟨w, hw⟩ : ∃ w, dropEngine v = w := ⟨_, rfl⟩
    rw [hw] at suspended other engine
    obtain ⟨rebay, bays⟩ := dropRoles_bays w
    obtain ⟨x, hx⟩ : ∃ x, dropRoles w = x := ⟨_, rfl⟩
    rw [hx] at rebay bays
    have removal := askRemoval_asks x
    obtain ⟨u, hu⟩ : ∃ u, askRemoval x = u := ⟨_, rfl⟩
    rw [hu] at removal
    have rest : u = { v with ctl := w.ctl, shelf := { v.shelf with bays := x.shelf.bays }, plan := u.plan, mark := u.mark } := by
      have := removal.rest
      rw [rebay, engine] at this
      exact this
    have plan : x.plan = s.plan := by rw [rebay, engine, given.rest]
    have mark : x.mark = s.mark := by rw [rebay, engine, given.rest]
    have planW : w.plan = s.plan := by rw [engine, given.rest]
    have bayV (i : Slot) : w.bay i = s.bay i := by rw [engine, given.rest]; rfl
    have bayU (i : Slot) : u.bay i = s.droppedBay i (s.bay i) := by
      have same : u.bay i = x.bay i := by rw [removal.rest]; rfl
      rw [same, bays, bayV]
      unfold State.droppedBay
      rw [planW]
    have mover : u.mover = v.mover := by rw [rest]
    have stepsU (g : Staging) : u.stepIn g = v.stepIn g := by cases g <;> simp only [State.stepIn, mover]
    have holdsU : u.holds = v.holds := by rw [rest]
    have ctlU : u.ctl = w.ctl := by rw [rest]
    refine ⟨u, by rw [ruleDrop_working asked pending going stage, hv, hw, hx, hu], ?_, ?_, ?_, fun h => ?_, fun h => ?_,
      fun i h => ?_, fun i inc former h hi hf own => ?_, fun i h hi => ?_, ?_, ?_, ?_, ?_⟩
    · have asked' := ask removal
      simp only [asks, plan, mark] at asked'
      exact asked'
    · simp only [stepsU]
      exact steps
    · simp only [holdsU]
      exact holds
    · rw [ctlU, suspended (by rw [ctl]; exact h), ctl]
    · rw [ctlU, other (by rw [ctl]; exact h), ctl]
    · rw [bayU, State.droppedBay, if_neg h]
    · rw [bayU, State.droppedBay, if_pos h, hi, hf]
      exact if_pos own
    · rw [bayU, State.droppedBay, if_pos h]
      cases hinc : s.plan.incoming with
      | none => rfl
      | some inc =>
        cases hf : s.plan.inPlace with
        | none => rfl
        | some former => exact if_neg fun own => nomatch (hi inc hinc own).symm.trans hf
    · rw [mover, given.mover]
    · rw [mover, given.mover]
    · rw [rest, given.rest]
    · rw [rest, given.rest]
  · intro i stage active hi table r
    have ended := endUninstalled_ends (o := .dropped) active (by rw [table]; exact hi)
    refine ⟨_, ruleDrop_waiting asked pending going stage, ended.record, ended.records, ended.active, ended.stage, ended.saved,
      ended.idle, ended.done, ended.layouts, ended.shelf, ended.mark, ?_, ?_, ended.hold⟩
    · exact congrArg Prod.fst ended.chain
    · exact congrArg Prod.snd ended.chain
end Sys2Proof.Machine
end

