-- ==== Sys2Proof/Proofs/Choice.lean ====
section
/-! PROOFS. The choice of the volume, the case of none, and the role at an arrival's end (R120, R123, R174, R176, R187). -/

namespace Sys2Proof.Machine

/-! ## The preferred identity (R176) -/

theorem newestOf_ge {ls : List (Slot × Label)} {x : Slot × Label} (h : x ∈ ls) :
    x.2.generation ≤ newestOf ls x.2.identity := by
  have mem : x.2.generation ∈ (ls.filter (·.2.identity == x.2.identity)).map (·.2.generation) :=
    List.mem_map.mpr ⟨x, List.mem_filter.mpr ⟨h, beq_self_eq_true _⟩, rfl⟩
  unfold newestOf
  cases top : ((ls.filter (·.2.identity == x.2.identity)).map (·.2.generation)).max? with
  | none => rw [List.max?_eq_none_iff.mp top] at mem; cases mem
  | some m => exact (List.max?_eq_some_iff.mp top).2 _ mem

theorem newestOf_taken {ls : List (Slot × Label)} {x : Slot × Label} (h : x ∈ ls) :
    ∃ y ∈ ls, y.2.identity = x.2.identity ∧ y.2.generation = newestOf ls x.2.identity := by
  have mem : x.2.generation ∈ (ls.filter (·.2.identity == x.2.identity)).map (·.2.generation) :=
    List.mem_map.mpr ⟨x, List.mem_filter.mpr ⟨h, beq_self_eq_true _⟩, rfl⟩
  unfold newestOf
  cases top : ((ls.filter (·.2.identity == x.2.identity)).map (·.2.generation)).max? with
  | none => rw [List.max?_eq_none_iff.mp top] at mem; cases mem
  | some m =>
    obtain ⟨y, hy, gen⟩ := List.mem_map.mp (List.max?_eq_some_iff.mp top).1
    obtain ⟨hy, same⟩ := List.mem_filter.mp hy
    exact ⟨y, hy, by simpa using same, gen⟩

theorem preferred_iff {ls : List (Slot × Label)} {v w : BitVec 64} : preferred ls v w = true ↔
    newestOf ls w < newestOf ls v ∨ (newestOf ls v = newestOf ls w ∧ (newestCount ls w < newestCount ls v
      ∨ (newestCount ls w = newestCount ls v ∧ v.toNat < w.toNat))) := by
  simp [preferred]

/-- One step of the comparison over the labels. -/
def better (ls : List (Slot × Label)) (best : Option (BitVec 64)) (x : Slot × Label) : Option (BitVec 64) :=
  match best with
  | none => some x.2.identity
  | some w => if preferred ls x.2.identity w then some x.2.identity else some w

/-- No identity met so far is preferred to the best one, which is one of them. -/
def Best (ls met : List (Slot × Label)) (v : BitVec 64) : Prop :=
  (∃ x ∈ met, x.2.identity = v) ∧ ∀ x ∈ met, preferred ls x.2.identity v = false

theorem Best.next {ls met : List (Slot × Label)} {v : BitVec 64} (h : Best ls met v) (x : Slot × Label) :
    ∃ w, better ls (some v) x = some w ∧ Best ls (met ++ [x]) w := by
  obtain ⟨⟨y, hy, id⟩, top⟩ := h
  by_cases p : preferred ls x.2.identity v = true
  · refine ⟨x.2.identity, if_pos p, ⟨x, by simp, rfl⟩, fun z hz => ?_⟩
    rw [Bool.eq_false_iff, ne_eq, preferred_iff]
    rcases List.mem_append.mp hz with hz | hz
    · have low := top z hz
      rw [Bool.eq_false_iff, ne_eq, preferred_iff] at low
      rw [preferred_iff] at p
      omega
    · obtain rfl := List.mem_singleton.mp hz
      omega
  · refine ⟨v, if_neg p, ⟨y, List.mem_append_left _ hy, id⟩, fun z hz => ?_⟩
    rcases List.mem_append.mp hz with hz | hz
    · exact top z hz
    · obtain rfl := List.mem_singleton.mp hz
      simpa using p

theorem foldl_better {ls : List (Slot × Label)} (more : List (Slot × Label)) : ∀ (met : List (Slot × Label)) (v : BitVec 64),
    Best ls met v → ∃ w, more.foldl (better ls) (some v) = some w ∧ Best ls (met ++ more) w := by
  induction more with
  | nil => exact fun met v h => ⟨v, rfl, by rwa [List.append_nil]⟩
  | cons x more ih =>
    intro met v h
    obtain ⟨w, eq, best⟩ := h.next x
    obtain ⟨z, eq', best'⟩ := ih _ w best
    refine ⟨z, by rw [List.foldl_cons, eq, eq'], ?_⟩
    rwa [List.append_assoc] at best'

theorem chosenLabel_eq (ls : List (Slot × Label)) : chosenLabel ls = (ls.foldl (better ls) none).bind (fun v =>
    (ls.find? (fun x => x.2.identity == v && x.2.generation == newestOf ls v)).map (·.2)) := rfl

theorem best_of_ne_nil {ls : List (Slot × Label)} (h : ls ≠ []) : ∃ v, ls.foldl (better ls) none = some v ∧ Best ls ls v := by
  obtain ⟨x, more, rfl⟩ := List.exists_cons_of_ne_nil h
  refine foldl_better more [x] x.2.identity ⟨⟨x, List.mem_singleton.mpr rfl, rfl⟩, fun y hy => ?_⟩
  obtain rfl := List.mem_singleton.mp hy
  rw [Bool.eq_false_iff, ne_eq, preferred_iff]
  omega

/-- R176: the chosen copy stands first among its equals, and no label is better. -/
theorem chosenLabel_best {ls : List (Slot × Label)} (h : ls ≠ []) :
    let bays (m : Label) : Nat := ls.countP (fun (x : Slot × Label) => x.2.identity == m.identity && x.2.generation == m.generation)
    ∃ k i l, ls[k]? = some (i, l) ∧ chosenLabel ls = some l
      ∧ (∀ (j : Nat) (x : Slot × Label), j < k → ls[j]? = some x → x.2.identity = l.identity → x.2.generation ≠ l.generation)
      ∧ ∀ x ∈ ls, x.2.generation < l.generation ∨ (x.2.generation = l.generation
          ∧ (bays x.2 < bays l ∨ (bays x.2 = bays l ∧ l.identity.toNat ≤ x.2.identity.toNat))) := by
  intro bays
  obtain ⟨v, fold, ⟨y, hy, rfl⟩, top⟩ := best_of_ne_nil h
  obtain ⟨z, hz, id, gen⟩ := newestOf_taken hy
  obtain ⟨p, found⟩ : ∃ p, ls.find? (fun x => x.2.identity == y.2.identity && x.2.generation == newestOf ls y.2.identity) = some p :=
    Option.isSome_iff_exists.mp (List.find?_isSome.mpr ⟨z, hz, by simp [id, gen]⟩)
  obtain ⟨cond, k, lt, at_, before⟩ := List.find?_eq_some_iff_getElem.mp found
  rw [Bool.and_eq_true, beq_iff_eq, beq_iff_eq] at cond
  obtain ⟨i, l⟩ := p
  obtain ⟨same, newest⟩ := cond
  dsimp only at same newest
  have count : bays l = newestCount ls y.2.identity := by
    simp only [bays, newestCount, List.countP_eq_length_filter, same, newest]
  refine ⟨k, i, l, by rw [List.getElem?_eq_getElem lt, at_], by rw [chosenLabel_eq, fold, Option.bind_some, found]; rfl,
    fun j x hj hx id gen => ?_, fun x hx => ?_⟩
  · obtain ⟨lt', rfl⟩ := List.getElem?_eq_some_iff.mp hx
    have := before j hj
    simp [id, gen, same, newest] at this
  · have low := top x hx
    rw [Bool.eq_false_iff, ne_eq, preferred_iff] at low
    have ge := newestOf_ge hx
    by_cases eq : x.2.generation = l.generation
    · have gen : newestOf ls x.2.identity = x.2.generation := by omega
      have others : bays x.2 = newestCount ls x.2.identity := by
        simp only [bays, newestCount, List.countP_eq_length_filter, gen]
      rw [others, count, same]
      omega
    · omega

/-! ## The scan (R120, R174) -/

theorem mem_scanLabels {s : State} {i : Slot} {l : Label} : (i, l) ∈ s.scanLabels ↔
    i ∈ s.asm.scanSet ∧ (s.bay i).readiness = .ready ∧ (s.bay i).label = some l ∧ l.identity ≠ 0#64 := by
  unfold State.scanLabels State.scanned State.scanLabel
  simp only [List.mem_filterMap, List.mem_filter, mem_allSlots, true_and, List.contains_iff_mem]
  constructor
  · rintro ⟨j, hj, h⟩
    obtain ⟨m, label, h⟩ := Option.bind_eq_some_iff.mp h
    split at h
    · cases h
    · rename_i name
      cases h
      split at label
      · rename_i ready
        exact ⟨hj, by simpa using ready, label, by simpa using name⟩
      · cases label
  · rintro ⟨hi, ready, label, name⟩
    refine ⟨i, hi, ?_⟩
    rw [if_pos (by simp [ready]), label]
    exact if_neg (by simpa using name)

theorem allSlots_pairwise : allSlots.Pairwise (· < ·) := List.pairwise_lt_finRange 64

theorem scanLabels_pairwise (s : State) : s.scanLabels.Pairwise (fun a b => a.1 < b.1) := by
  have slot (i : Slot) (x : Slot × Label)
      (h : (s.scanLabel i).bind (fun l => if l.identity == 0#64 then none else some (i, l)) = some x) : x.1 = i := by
    obtain ⟨m, -, h⟩ := Option.bind_eq_some_iff.mp h
    split at h
    · cases h
    · cases h
      rfl
  refine List.Pairwise.filterMap _ (fun i j lt x hx y hy => ?_) (allSlots_pairwise.filter _)
  rw [slot i x hx, slot j y hy]
  exact lt

theorem scanLabels_congr {s t : State} (scan : t.asm.scanSet = s.asm.scanSet)
    (bays : ∀ i, (t.bay i).readiness = (s.bay i).readiness ∧ (t.bay i).label = (s.bay i).label) :
    t.scanLabels = s.scanLabels := by
  have label (i : Slot) : t.scanLabel i = s.scanLabel i := by
    unfold State.scanLabel
    rw [(bays i).1, (bays i).2]
  unfold State.scanLabels State.scanned
  simp only [scan, label]

theorem mayChoose_iff {s : State} : s.mayChoose = true ↔ s.asm.stage = .scan ∧ s.asm.linksPending = []
    ∧ ∀ i ∈ s.asm.scanSet, (s.bay i).readiness = .ready ∨ (s.bay i).readiness = .unready := by
  simp [State.mayChoose, and_assoc]

/-- The state the choice is made in: at the first scan the references have taken their values. -/
def referenced (s : State) : State :=
  if s.asm.firstScan then { takeReferences s with asm := { s.asm with firstScan := false } } else s

theorem referenced_frame (s : State) :
    referenced s = { s with shelf := { s.shelf with bays := (referenced s).shelf.bays }, asm := { s.asm with firstScan := false } }
      ∧ ∀ i, (referenced s).bay i = { s.bay i with
          reference := if s.asm.firstScan = true then (s.bay i).present else (s.bay i).reference } := by
  unfold referenced
  cases first : s.asm.firstScan with
  | true =>
    refine ⟨rfl, fun i => ?_⟩
    exact updAllBays_bay (fun b => { b with reference := b.present }) s i
  | false =>
    refine ⟨?_, fun i => rfl⟩
    rw [if_neg Bool.false_ne_true, ← first]

theorem ruleChoice_eq {s : State} (h : s.mayChoose = true) : ruleChoice s = some (match chosenLabel s.scanLabels with
    | none => chooseNone (referenced s)
    | some l => loadLabel l (referenced s)) := by
  obtain ⟨eq, bays⟩ := referenced_frame s
  have labels : (referenced s).scanLabels = s.scanLabels :=
    scanLabels_congr (by rw [eq]) fun i => by rw [bays]; exact ⟨rfl, rfl⟩
  unfold ruleChoice
  rw [if_pos h, ← labels]
  rfl

/-! ## The role of an arrival (R123) -/

theorem serialOf_listed {l : Layout} {i : Slot} {x : BitVec 64} (h : l.serialOf i = some x) :
    ∃ m, some m ∈ l.members ∧ m.slot = i ∧ m.serial = x := by
  unfold Layout.serialOf at h
  obtain ⟨m, found, rfl⟩ := Option.map_eq_some_iff.mp h
  have found := Option.join_eq_some_iff.mp found
  exact ⟨m, List.mem_of_find?_eq_some found, by simpa using List.find?_some found, rfl⟩

theorem serialOf_isSome {l : Layout} {i : Slot} {m : Member} (h : some m ∈ l.members) (slot : m.slot = i) :
    (l.serialOf i).isSome = true := by
  unfold Layout.serialOf
  obtain ⟨o, found⟩ : ∃ o, l.members.find? (fun m => m.map (·.slot) == some i) = some o :=
    Option.isSome_iff_exists.mp (List.find?_isSome.mpr ⟨some m, h, by simp [slot]⟩)
  have held := List.find?_some found
  rw [found]
  cases o with
  | none => simp at held
  | some m => rfl

theorem listedSerial_listed {s : State} {i : Slot} {x : BitVec 64} (h : s.listedSerial i = some x) :
    ∃ l m, l ∈ s.plan.layouts ∧ some m ∈ l.members ∧ m.slot = i ∧ m.serial = x := by
  obtain ⟨l, hl, serial⟩ := List.mem_filterMap.mp (List.mem_of_head? h)
  obtain ⟨m, hm⟩ := serialOf_listed serial
  exact ⟨l, m, hl, hm⟩

theorem listedSerial_isSome {s : State} {i : Slot} {l : Layout} {m : Member} (hl : l ∈ s.plan.layouts) (hm : some m ∈ l.members)
    (slot : m.slot = i) : (s.listedSerial i).isSome = true := by
  obtain ⟨x, hx⟩ := Option.isSome_iff_exists.mp (serialOf_isSome hm slot)
  have mem : x ∈ s.plan.layouts.filterMap (fun l => l.serialOf i) := List.mem_filterMap.mpr ⟨l, hl, hx⟩
  unfold State.listedSerial
  rw [List.isSome_head?]
  simpa using List.ne_nil_of_mem mem

/-- Whether an identity found on a drive is this volume's. -/
def State.thisVolume (s : State) (v : BitVec 64) : Bool := s.ctl.volume != .none && v != 0#64 && v == s.plan.identity

theorem thisVolume_iff {s : State} {v : BitVec 64} :
    s.thisVolume v = true ↔ s.ctl.volume ≠ .none ∧ v ≠ 0#64 ∧ v = s.plan.identity := by
  simp [State.thisVolume, and_assoc]

theorem arrivalRole_placed {s : State} {i : Slot} (role : (s.bay i).role = .failed ∨ (s.bay i).role = .stale)
    (placed : (s.bay i).position.isSome = true) : s.arrivalRole i =
      if (s.bay i).labelFound.any (fun l => s.thisVolume l.1) && (s.bay i).ident.isSome
        && (s.bay i).ident.map (·.1) == s.listedSerial i then .stale else .failed := by
  unfold State.arrivalRole
  rcases role with e | e <;> simp only [e] <;> exact if_pos placed

theorem arrivalRole_free {s : State} {i : Slot} (role : (s.bay i).role = .none ∨ (s.bay i).role = .foreign) :
    s.arrivalRole i = match (s.bay i).labelFound with
      | none => .none
      | some l => if l.1 == 0#64 || s.thisVolume l.1 then .none else .foreign := by
  unfold State.arrivalRole
  rcases role with e | e <;> simp only [e] <;> rfl

/-- R123: a bay with a FAILED or STALE position. -/
theorem arrivalRole_placed_cases {s : State} {i : Slot} (role : (s.bay i).role = .failed ∨ (s.bay i).role = .stale)
    (placed : (s.bay i).position.isSome = true) :
    let b := s.bay i
    let this (v : BitVec 64) : Prop := s.ctl.volume ≠ .none ∧ v ≠ 0#64 ∧ v = s.plan.identity
    let listed (serial : BitVec 64) : Prop :=
      ∃ l m, l ∈ s.plan.layouts ∧ some m ∈ l.members ∧ m.slot = i ∧ m.serial = serial
    ((∀ v g serial c, b.labelFound = some (v, g) → b.ident = some (serial, c) → ¬(this v ∧ listed serial)) →
        s.arrivalRole i = .failed)
      ∧ (∀ v g serial c, b.labelFound = some (v, g) → b.ident = some (serial, c) → this v → listed serial →
        (∀ x, listed x → x = serial) → s.arrivalRole i = .stale) := by
  intro b this listed
  rw [arrivalRole_placed role placed]
  refine ⟨fun h => if_neg fun own => ?_, fun v g serial c label ident ours list only => if_pos ?_⟩
  · rw [Bool.and_eq_true, Bool.and_eq_true, Option.any_eq_true, beq_iff_eq] at own
    obtain ⟨⟨⟨⟨v, g⟩, label, ours⟩, known⟩, serial⟩ := own
    obtain ⟨⟨x, c⟩, ident⟩ := Option.isSome_iff_exists.mp known
    rw [ident] at serial
    exact h v g x c label ident ⟨thisVolume_iff.mp ours, listedSerial_listed serial.symm⟩
  · obtain ⟨l, m, hl, hm, slot, -⟩ := list
    obtain ⟨x, hx⟩ := Option.isSome_iff_exists.mp (listedSerial_isSome hl hm slot)
    have same : x = serial := only x (listedSerial_listed hx)
    have label : (s.bay i).labelFound = some (v, g) := label
    have ident : (s.bay i).ident = some (serial, c) := ident
    rw [label, ident, hx, same]
    simp [thisVolume_iff.mpr ours]

theorem arrivalRole_free_cases {s : State} {i : Slot} (role : (s.bay i).role = .none ∨ (s.bay i).role = .foreign) :
    let b := s.bay i
    let this (v : BitVec 64) : Prop := s.ctl.volume ≠ .none ∧ v ≠ 0#64 ∧ v = s.plan.identity
    (s.arrivalRole i = .foreign ↔ ∃ v g, b.labelFound = some (v, g) ∧ v ≠ 0#64 ∧ ¬this v)
      ∧ ((∀ v g, b.labelFound = some (v, g) → v = 0#64 ∨ this v) → s.arrivalRole i = .none) := by
  intro b this
  rw [arrivalRole_free role]
  cases label : (s.bay i).labelFound with
  | none => exact ⟨⟨Role.noConfusion, fun ⟨v, g, h, _⟩ => nomatch h⟩, fun _ => rfl⟩
  | some l =>
    obtain ⟨v, g⟩ := l
    have cond : (v == 0#64 || s.thisVolume v) = true ↔ v = 0#64 ∨ this v := by
      rw [Bool.or_eq_true, beq_iff_eq, thisVolume_iff]
    by_cases known : v = 0#64 ∨ this v
    · dsimp only
      rw [if_pos (cond.mpr known)]
      refine ⟨⟨Role.noConfusion, fun ⟨w, g', h, ne, other⟩ => ?_⟩, fun _ => rfl⟩
      obtain ⟨rfl, rfl⟩ := Prod.mk.inj (Option.some.inj h)
      exact absurd known (not_or.mpr ⟨ne, other⟩)
    · dsimp only
      rw [if_neg (mt cond.mp known)]
      obtain ⟨ne, other⟩ := not_or.mp known
      exact ⟨⟨fun _ => ⟨v, g, rfl, ne, other⟩, fun _ => rfl⟩, fun h => absurd (h v g rfl) known⟩

/-- Settles O54: the best label, the choice with and without one, and the role by what the bay holds. -/
theorem assemblyChoice : Obligations.AssemblyChoice := by
  refine ⟨fun ls => ⟨fun h => by rw [h]; rfl, chosenLabel_best⟩,
    fun s => ⟨fun i l => mem_scanLabels, scanLabels_pairwise s, fun early => if_neg (mt mayChoose_iff.mp early), fun ready => ?_⟩,
    fun s i => ⟨arrivalRole_placed_cases, arrivalRole_free_cases, fun role => ?_, fun role free => ?_⟩⟩
  · obtain ⟨eq, bays⟩ := referenced_frame s
    have choice := ruleChoice_eq (mayChoose_iff.mpr ready)
    obtain ⟨r, hr⟩ : ∃ r, referenced s = r := ⟨_, rfl⟩
    rw [hr] at eq bays choice
    refine ⟨r, ?_, by rw [eq], bays, fun l h => by rw [choice, h], fun h => ?_⟩
    · rw [eq]
    · rw [h] at choice
      refine ⟨_, choice, ?_, fun i => ?_, rfl, rfl, rfl, rfl, rfl, rfl, rfl, rfl, rfl, rfl, rfl, rfl, ?_⟩
      · rw [eq]
        rfl
      · exact updAllBays_bay (fun b => { b with role := .none, position := none, incoming := false, remaps := [] }) r i
      · rw [eq]
        rfl
  · unfold State.arrivalRole
    rcases role with e | e <;> simp only [e]
  · unfold State.arrivalRole
    rcases role with e | e <;> simp only [e] <;> exact if_neg (by simp [free])
end Sys2Proof.Machine
end

