-- ==== Sys2Proof/Proofs/Handing.lean ====
section
/-! PROOFS. Handing over touches the shelf, the integrity unit and the internal events alone, and looks at nothing but them, the
stripe unit and the pace (R7, R126 to R128, R144, R145, R153). -/

namespace Sys2Proof.Machine

/-- A state with the shelf, the integrity unit and the internal events of another. -/
def State.onto (t z : State) : State := { t with shelf := z.shelf, integ := z.integ, todo := z.todo }

/-- Two states in which handing over does the same. -/
structure Agrees (s t : State) : Prop where
  shelf  : t.shelf = s.shelf
  integ  : t.integ = s.integ
  todo   : t.todo = s.todo
  unit   : t.unit = s.unit
  tuning : t.ctl.tuning = s.ctl.tuning

theorem Agrees.refl (s : State) : Agrees s s := ⟨rfl, rfl, rfl, rfl, rfl⟩

/-- The other state is the one with what they agree in put in its place. -/
theorem Agrees.eq {s t : State} (h : Agrees s t) : t = { t with
    shelf := s.shelf, integ := s.integ, todo := s.todo, ctl := { t.ctl with tuning := s.ctl.tuning } } := by
  rw [← h.shelf, ← h.integ, ← h.todo, ← h.tuning]

theorem Agrees.bay {s t : State} (h : Agrees s t) (i : Slot) : t.bay i = s.bay i := by
  unfold State.bay
  rw [h.shelf]

/-- What hands operations over. -/
def Hands (f : State → State) : Prop := ∀ s t, Agrees s t → f t = t.onto (f s)

theorem Hands.self {f : State → State} (h : Hands f) (s : State) : f s = s.onto (f s) := h s s (Agrees.refl s)

theorem Hands.agrees {f : State → State} (h : Hands f) {s t : State} (a : Agrees s t) : Agrees (f s) (f t) := by
  have unit : (f s).unit = s.unit := by rw [h.self s]; rfl
  have tuning : (f s).ctl.tuning = s.ctl.tuning := by rw [h.self s]; rfl
  rw [h s t a]
  exact ⟨rfl, rfl, rfl, a.unit.trans unit.symm, a.tuning.trans tuning.symm⟩

theorem Hands.comp {f g : State → State} (hf : Hands f) (hg : Hands g) : Hands (fun s => g (f s)) := by
  intro s t a
  show g (f t) = _
  rw [hg (f s) (f t) (hf.agrees a), hf s t a]
  rfl

theorem Hands.id : Hands (fun s => s) := by
  intro s t a
  show t = t.onto s
  unfold State.onto
  rw [← a.shelf, ← a.integ, ← a.todo]

theorem Hands.ite {f g : State → State} {c : State → Prop} [∀ s, Decidable (c s)] (hc : ∀ s t, Agrees s t → (c t ↔ c s))
    (hf : Hands f) (hg : Hands g) : Hands (fun s => if c s then f s else g s) := by
  intro s t a
  by_cases h : c s
  · show (if c t then f t else g t) = t.onto (if c s then f s else g s)
    rw [if_pos h, if_pos ((hc s t a).mpr h), hf s t a]
  · show (if c t then f t else g t) = t.onto (if c s then f s else g s)
    rw [if_neg h, if_neg (mt (hc s t a).mp h), hg s t a]

theorem Hands.bind {α : Type} {f : α → State → State} {r : State → α} (hr : ∀ s t, Agrees s t → r t = r s)
    (hf : ∀ x, Hands (f x)) : Hands (fun s => f (r s) s) := by
  intro s t a
  show f (r t) t = _
  rw [hr s t a, hf (r s) s t a]

theorem Hands.foldl {α : Type} {f : State → α → State} (hf : ∀ x, Hands (fun s => f s x)) (l : List α) :
    Hands (fun s => l.foldl f s) := by
  induction l with
  | nil => exact Hands.id
  | cons x l ih => exact (hf x).comp ih

theorem updBay_hands (i : Slot) (g : Bay → Bay) : Hands (updBay i g) := by
  intro s t a
  rw [a.eq]
  rfl

theorem push_hands (e : Ev) : Hands (push e) := by
  intro s t a
  rw [a.eq]
  rfl

theorem integ_hands (g : IntegrityUnit → IntegrityUnit) : Hands (fun s => { s with integ := g s.integ }) := by
  intro s t a
  show { t with integ := g t.integ } = _
  rw [a.eq]
  rfl

theorem grants_hands (i : Slot) : Hands (grants i) :=
  Hands.bind (f := fun p => updBay i (grantBay p Config.issueSlots)) (r := fun s => s.ctl.tuning.pace)
    (fun _ _ a => by rw [a.tuning]) (fun _ => updBay_hands i _)

theorem enqueue_hands (op : MemberOp) : Hands (enqueue op) := by
  refine Hands.ite (c := fun s => (!(s.bay op.slot).present || ((s.bay op.slot).role == .failed && !op.owner.isScan)) = true)
    (fun s t a => by rw [a.bay]) (push_hands _) ((updBay_hands op.slot (waitIn op)).comp (grants_hands op.slot))

theorem takeOp_hands : Hands (fun s => (takeOp s).2) := by
  intro s t a
  rw [a.eq]
  rfl

theorem handReserve_hands (i : Slot) (cls : OpClass) (kind : OpKind) (owner : Owner) : Hands (handReserve i cls kind owner) :=
  Hands.bind (r := fun s => s.shelf.nextOp)
    (f := fun id s => enqueue { id := id, slot := i, cls := cls, kind := kind, owner := owner, home := none } (takeOp s).2)
    (fun _ _ a => by rw [a.shelf]) fun _ => takeOp_hands.comp (enqueue_hands _)

theorem redirect_congr {s t : State} (a : Agrees s t) (op : MemberOp) : redirect t op = redirect s op := by
  unfold redirect State.remapOf
  simp only [a.bay]

theorem rowsOf_congr {s t : State} (h : t.unit = s.unit) (op : MemberOp) : t.rowsOf op = s.rowsOf op := by
  unfold State.rowsOf
  rw [h]

theorem heldByFill_congr {s t : State} (a : Agrees s t) (op : MemberOp) : t.heldByFill op = s.heldByFill op := by
  unfold State.heldByFill State.fillingAt
  rw [rowsOf_congr a.unit]
  simp only [a.bay]

theorem heldByRepair_congr {s t : State} (a : Agrees s t) (op : MemberOp) : t.heldByRepair op = s.heldByRepair op := by
  unfold State.heldByRepair
  rw [a.integ]

theorem strikeCovered_hands (op : MemberOp) : Hands (strikeCovered op) := by
  by_cases w : op.kind.isWrite = true
  · intro s t a
    rw [strikeCovered, if_pos w, strikeCovered, if_pos w]
    exact integ_hands (fun u => { u with
      candidates := u.candidates.filter (fun c => !(c.slot == op.slot && overlaps (c.block, 1) op.kind.span)) }) s t a
  · intro s t a
    rw [strikeCovered, if_neg w, strikeCovered, if_neg w]
    exact Hands.id s t a

theorem noteRepair_hands (op : MemberOp) : Hands (noteRepair op) := by
  by_cases w : (op.owner == .writeBack) = true
  · intro s t a
    rw [noteRepair, if_pos w, noteRepair, if_pos w]
    exact integ_hands (fun u => { u with repairs :=
      (u.repairs.filter (fun k => k.op != op.id))
        ++ [{ op := op.id, slot := op.slot, first := op.kind.span.1, count := op.kind.span.2 }] }) s t a
  · intro s t a
    rw [noteRepair, if_neg w, noteRepair, if_neg w]
    exact Hands.id s t a

theorem handData_hands (op : MemberOp) : Hands (handData op) := by
  have passed (op : MemberOp) : Hands (fun s => if s.heldByFill op || s.heldByRepair op then
      { s with integ := { s.integ with held := s.integ.held ++ [op] } } else enqueue op (noteRepair op s)) := by
    refine Hands.ite (c := fun s => (s.heldByFill op || s.heldByRepair op) = true)
      (fun s t a => by rw [heldByFill_congr a, heldByRepair_congr a])
      (integ_hands fun u => { u with held := u.held ++ [op] }) ((noteRepair_hands op).comp (enqueue_hands op))
  exact Hands.bind (r := fun s => redirect s op)
    (f := fun o s => (fun u : State => if u.heldByFill o || u.heldByRepair o then
      { u with integ := { u.integ with held := u.integ.held ++ [o] } } else enqueue o (noteRepair o u)) (strikeCovered o s))
    (fun _ _ a => redirect_congr a op) fun o => (strikeCovered_hands o).comp (passed o)

theorem handUnit_hands (i : Slot) (cls : OpClass) (unit row off : Nat) (kind : Nat → OpKind) (owner : Owner) :
    Hands (handUnit i cls unit row off kind owner) :=
  Hands.bind (r := fun s => s.shelf.nextOp)
    (f := fun id s => handData { id := id, slot := i, cls := cls, kind := kind (Config.dataBase + row * unit + off)
                                 owner := owner, home := some (row, off) } (takeOp s).2)
    (fun _ _ a => by rw [a.shelf]) fun _ => takeOp_hands.comp (handData_hands _)

/-! ## Operations that pass the integrity unit by -/

theorem enqueue_integ (op : MemberOp) (s : State) : (enqueue op s).integ = s.integ := by
  unfold enqueue
  dsimp only
  split <;> rfl

theorem handReserve_integ (i : Slot) (cls : OpClass) (kind : OpKind) (owner : Owner) (s : State) :
    (handReserve i cls kind owner s).integ = s.integ := enqueue_integ _ _

theorem foldl_integ {α : Type} {f : State → α → State} (hf : ∀ s x, (f s x).integ = s.integ) (l : List α) :
    ∀ s, (l.foldl f s).integ = s.integ := by
  induction l with
  | nil => exact fun _ => rfl
  | cons x l ih => exact fun s => (ih _).trans (hf s x)

/-! ## The bays that serve -/

theorem mem_serving {s : State} {i : Slot} :
    i ∈ s.serving ↔ (s.bay i).present = true ∧ ((s.bay i).role = .member ∨ (s.bay i).role = .joining) := by
  simp [State.serving, State.serves, mem_allSlots]

theorem serving_pairwise (s : State) : s.serving.Pairwise (· < ·) := allSlots_pairwise.filter _

theorem serialAt_eq (s : State) (i : Slot) : s.serialAt i = match (s.bay i).ident with
    | some x => x.1
    | none => 0#64 := by
  unfold State.serialAt
  cases (s.bay i).ident <;> rfl

/-- The copies of a label go to the bays that serve, one mark-class WRITE each. -/
theorem handLabels_eq (l : Label) (owner : Owner) (s : State) : handLabels l owner s = s.serving.foldl
    (fun x i => handReserve i .mark (.write 0 (labelBlocks l (l.seat i).1 (l.seat i).2 (s.serialAt i))) owner x) s := by
  unfold handLabels
  dsimp only
  rw [List.foldl_map]
  rfl

theorem foldl_handReserve_hands {α : Type} (slot : α → Slot) (cls : OpClass) (kind : α → OpKind) (owner : Owner) (l : List α) :
    Hands (fun s => l.foldl (fun x a => handReserve (slot a) cls (kind a) owner x) s)
      ∧ ∀ s, (l.foldl (fun x a => handReserve (slot a) cls (kind a) owner x) s).integ = s.integ :=
  ⟨Hands.foldl (f := fun x a => handReserve (slot a) cls (kind a) owner x) (fun _ => handReserve_hands _ _ _ _) l,
    foldl_integ (fun _ _ => handReserve_integ ..) l⟩
end Sys2Proof.Machine
end

