-- ==== Sys2Proof/Proofs/AssemblyEnd.lean ====
section
/-! PROOFS. The end of assembly: the assembly label write and the engine and volume behind it (R186, R187). -/

namespace Sys2Proof.Machine

/-! ## The assembly label write (R186) -/

/-- The label assembly writes. -/
def State.endLabel (s : State) : Label :=
  { s.labelNow (s.mark.generation + 1) s.mover.front with
    markState := if s.asm.restored then (if s.planInstalled then .clean else .off) else storedMark s.mark.state }

theorem planInstalled_iff {s : State} : s.planInstalled = true ↔ s.plan.stage ≠ .none ∧ s.plan.stage ≠ .waiting := by
  unfold State.planInstalled
  cases s.plan.stage <;> simp

/-- A restored step or a mark of a later state is CLEAN on the label, with no plan installed OFF. -/
theorem endLabel_markState {s : State} (off : s.mark.state = .off ↔ s.plan.stage = .none ∨ s.plan.stage = .waiting) :
    s.endLabel.markState = if s.plan.stage = .none ∨ s.plan.stage = .waiting then .off
      else if s.mark.state = .initial ∧ s.asm.restored = false then .initial else .clean := by
  have stored : s.endLabel.markState = if s.asm.restored then (if s.planInstalled then .clean else .off) else storedMark s.mark.state :=
    rfl
  rw [stored]
  by_cases plan : s.plan.stage = .none ∨ s.plan.stage = .waiting
  · have none : s.planInstalled ≠ true := fun h => plan.elim (planInstalled_iff.mp h).1 (planInstalled_iff.mp h).2
    rw [if_pos plan, if_neg none, off.mpr plan]
    exact ite_self _
  · have installed : s.planInstalled = true := planInstalled_iff.mpr (not_or.mp plan)
    have on : s.mark.state ≠ .off := mt off.mp plan
    rw [if_neg plan, if_pos installed]
    cases restored : s.asm.restored <;> cases state : s.mark.state <;> simp_all [storedMark]

/-- The label write of assembly in flight. -/
def labelFlight (s : State) : State := { s with
  mark := { s.mark with flight := some { generation := s.mark.generation + 1, front := s.mover.front, noted := 0, plan := none
                                         assembly := true, outstanding := s.serving.length } }
  plan := { s.plan with areaOps := s.plan.areaOps ++ s.serving.map (fun i => { slot := i, what := .copy true }) }
  asm := { s.asm with stage := .label, copies := s.serving.length, labelDone := false } }

theorem beginAssemblyEnd_labels (s : State) : beginAssemblyEnd s = handLabels s.endLabel (.assemblyLabel false) (labelFlight s) := rfl

theorem handLabels_hands (l : Label) (owner : Owner) {s t : State} (a : Agrees s t) (bays : List Slot) (hb : t.serving = bays) :
    handLabels l owner t = { t with
      shelf := (bays.foldl (fun x i => handReserve i .mark
        (.write 0 (labelBlocks l (l.seat i).1 (l.seat i).2 (s.serialAt i))) owner x) s).shelf
      todo := (bays.foldl (fun x i => handReserve i .mark
        (.write 0 (labelBlocks l (l.seat i).1 (l.seat i).2 (s.serialAt i))) owner x) s).todo } := by
  have serial : t.serialAt = s.serialAt := by
    funext i
    unfold State.serialAt
    rw [a.bay]
  obtain ⟨hands, integ⟩ := foldl_handReserve_hands (fun i : Slot => i) .mark
    (fun i => .write 0 (labelBlocks l (l.seat i).1 (l.seat i).2 (s.serialAt i))) owner bays
  rw [handLabels_eq, hb, serial]
  refine (hands s t a).trans ?_
  unfold State.onto
  rw [integ s, ← a.integ]

/-! ## The state at the end (R187) -/

theorem recorded_iff {l : Label} {i : LayoutId} {p : Nat} : l.recorded i p = true ↔
    ∃ y e, l.layouts.find? (fun y => y.id == i) = some y ∧ y.entries[p]? = some e ∧ (e.missing = true ∨ e.member = none) := by
  unfold Label.recorded
  cases found : l.layouts.find? (fun y => y.id == i) with
  | none => simp
  | some y =>
    cases entry : y.entries[p]? with
    | none => simp [entry]
    | some e => simp [entry]

/-- A layout is new to the record for a position missing now, not recorded so and not q of an incoming record. -/
theorem mem_newlyMissing {s : State} {x : Layout} : x ∈ s.newlyMissing ↔
    x ∈ s.plan.layouts ∧ ∃ l p, s.asm.chosen = some l ∧ p < x.n ∧ s.missing x p = true
      ∧ ¬l.recorded x.id p = true ∧ ∀ c, l.incoming = some c → c.record.q ≠ p := by
  unfold State.newlyMissing
  cases chosen : s.asm.chosen with
  | none => simp
  | some l => cases inc : l.incoming <;> simp [and_assoc, inc]

/-- The phase, the engine control and the stage behind the last copy. -/
def tabled (s : State) (lost : Bool) (r : EngineState × Phase) : State := { s with
  mover := { s.mover with phase := r.2 }
  ctl := { s.ctl with volume := s.endVolume, state := r.1, latch := false, lastReport := s.counts, lastTolerance := s.tolerance }
  plan := { s.plan with incomingLost := lost }
  asm := { s.asm with stage := .idle } }

/-- MEMBER_LOST for a position newly missing. -/
def noteNews (news : List Layout) (s : State) : State := if news.isEmpty then s else raise .memberLost s

/-- The engine SUSPENDED with a state saved. -/
def suspended (st : EngineState) (layout : Option (LayoutId × Nat)) (s : State) : State := { s with
  ctl := { s.ctl with state := .suspended, saved := some st, latch := true, cause := .memberLost, faultLayout := layout }
  win := { s.win with events := { s.win.events with engineSuspended := true } } }

theorem noteNews_frame (news : List Layout) (s : State) : noteNews news s = { s with win := (noteNews news s).win } := by
  unfold noteNews
  split <;> rfl

/-- The incoming bay is lost by the loaded state, or as its bay is FAILED now. -/
def State.lostNow (s : State) : Bool :=
  s.asm.incomingLost || (s.plan.incoming.any (fun i => (s.bay i.slot).role == .failed))

/-- The state the loaded plan and front give, with the lost incoming bay. -/
def State.endState (s : State) : EngineState × Phase :=
  State.tableState { s with plan := { s.plan with incomingLost := s.lostNow } }

/-- A newly missing position in a layout above the tolerance. -/
def State.beyond (s : State) : Bool := s.newlyMissing.any (fun l => s.tolerance < s.missingCount l)

theorem endAssembly_eq (s : State) : endAssembly s = takePages (
    if s.beyond && s.endState.1 != .idle then
      suspended s.endState.1 (firstExceeding s.tolerance s.counts) (noteNews s.newlyMissing (tabled s s.lostNow s.endState))
    else noteNews s.newlyMissing (tabled s s.lostNow s.endState)) := by
  have same : (noteNews s.newlyMissing (tabled s s.lostNow s.endState)).tolerance = s.tolerance
      ∧ (noteNews s.newlyMissing (tabled s s.lostNow s.endState)).missingCount = s.missingCount := by
    rw [noteNews_frame]
    exact ⟨rfl, rfl⟩
  obtain ⟨tol, count⟩ := same
  have unfolded : endAssembly s = takePages (
      if (s.newlyMissing.any (fun l => (noteNews s.newlyMissing (tabled s s.lostNow s.endState)).tolerance
          < (noteNews s.newlyMissing (tabled s s.lostNow s.endState)).missingCount l)) && s.endState.1 != .idle then
        suspended s.endState.1 (firstExceeding (noteNews s.newlyMissing (tabled s s.lostNow s.endState)).tolerance s.counts)
          (noteNews s.newlyMissing (tabled s s.lostNow s.endState))
      else noteNews s.newlyMissing (tabled s s.lostNow s.endState)) := rfl
  rw [unfolded, tol, count]
  rfl

/-- What the engine state is judged by. -/
theorem endState_read (s : State) : ∃ u : State, s.endState = u.tableState ∧ u.planInstalled = s.planInstalled
    ∧ u.mover = s.mover ∧ u.growthEnd = s.growthEnd ∧ u.rows = s.rows ∧ u.plan.incomingLost = s.lostNow :=
  ⟨{ s with plan := { s.plan with incomingLost := s.lostNow } }, rfl, rfl, rfl, rfl, rfl, rfl⟩

theorem endState_idle {s : State} (h : ¬(s.plan.stage ≠ .none ∧ s.plan.stage ≠ .waiting) ∨ s.mover.phase = .none) :
    s.endState = (.idle, s.mover.phase) := by
  obtain ⟨u, state, installed, mover, -, -, -⟩ := endState_read s
  rw [state]
  unfold State.tableState
  rw [installed, mover]
  by_cases plan : s.planInstalled = true
  · have none : s.mover.phase = .none := h.resolve_left (not_not_intro (planInstalled_iff.mp plan))
    simp [plan, none]
  · simp [plan]

/-- The engine state and the phase by the loaded phase and front. -/
theorem endState_working {s : State} (h : s.plan.stage ≠ .none ∧ s.plan.stage ≠ .waiting) :
    (s.mover.phase = .migrate → (s.mover.front < s.growthEnd → s.endState = (.running, .migrate))
        ∧ (s.growthEnd ≤ s.mover.front → s.mover.front < s.rows → s.endState = (.settling, .settle))
        ∧ (s.growthEnd ≤ s.mover.front → s.rows ≤ s.mover.front → s.endState = (.closing, .migrate)))
      ∧ (s.mover.phase = .settle → s.endState = (if s.mover.front < s.rows then .settling else .closing, .settle))
      ∧ (s.mover.phase = .rebuild →
          s.endState = (if s.lostNow = true ∨ s.rows ≤ s.mover.front then .closing else .running, .rebuild))
      ∧ (s.mover.phase = .form → s.endState = (if s.mover.front < s.rows then .running else .closing, .form)) := by
  obtain ⟨u, state, same, mover, growth, rows, gone⟩ := endState_read s
  have installed : u.planInstalled = true := same.trans (planInstalled_iff.mpr h)
  rw [state]
  unfold State.tableState
  rw [installed, mover, growth, rows, gone]
  refine ⟨fun migrate => ?_, fun settle => ?_, fun rebuild => ?_, fun form => ?_⟩
  · simp only [migrate, Bool.not_true, Bool.false_eq_true, if_false]
    exact ⟨fun lt => if_pos lt, fun le lt => (if_neg (Nat.not_lt.mpr le)).trans (if_pos lt),
      fun le more => (if_neg (Nat.not_lt.mpr le)).trans (if_neg (Nat.not_lt.mpr more))⟩
  · simp only [settle, Bool.not_true, Bool.false_eq_true, if_false]
    split <;> rfl
  · simp only [rebuild, Bool.not_true, Bool.false_eq_true, if_false, Bool.or_eq_true, decide_eq_true_eq]
    split <;> rfl
  · simp only [form, Bool.not_true, Bool.false_eq_true, if_false]
    split <;> rfl

theorem lostNow_iff {s : State} : s.lostNow = true ↔
    s.asm.incomingLost = true ∨ ∃ c, s.plan.incoming = some c ∧ (s.bay c.slot).role = .failed := by
  unfold State.lostNow
  cases inc : s.plan.incoming <;> simp

theorem beyond_iff {s : State} : s.beyond = true ↔ ∃ x ∈ s.newlyMissing, s.tolerance < s.missingCount x := by
  simp [State.beyond]

theorem noteNews_win (news : List Layout) (s : State) : (noteNews news s).win
    = { s.win with events := { s.win.events with memberLost := (noteNews news s).win.events.memberLost } } := by
  unfold noteNews
  split <;> rfl

theorem noteNews_memberLost {news : List Layout} {s : State} :
    (noteNews news s).win.events.memberLost = true ↔ s.win.events.memberLost = true ∨ ∃ x, x ∈ news := by
  unfold noteNews
  cases news with
  | nil => simp
  | cons x l => simp [Events.set]

theorem counts_beyond {s : State} {x : Layout} (hx : x ∈ s.newlyMissing) (lt : s.tolerance < s.missingCount x) :
    ∃ c ∈ s.counts, s.tolerance < c.2 :=
  ⟨(x.id, s.missingCount x), List.mem_map.mpr ⟨x, (mem_newlyMissing.mp hx).1, rfl⟩, lt⟩

theorem endVolume_forming {s : State} : (s.planInstalled && s.activeKind == .form) = true ↔
    (s.plan.stage ≠ .none ∧ s.plan.stage ≠ .waiting) ∧ s.plan.active ≠ none ∧ s.plan.planKind = .form := by
  rw [Bool.and_eq_true, planInstalled_iff]
  unfold State.activeKind
  cases active : s.plan.active <;> simp

/-- The state assembly leaves to the page writes that waited. -/
theorem endAssembly_outcome (s : State) : ∃ v, endAssembly s = takePages v ∧ v.ctl.volume = s.endVolume
    ∧ v.plan.incomingLost = s.lostNow
    ∧ (v.win.events.memberLost = true ↔ s.win.events.memberLost = true ∨ ∃ x, x ∈ s.newlyMissing)
    ∧ (¬(s.endState.1 ≠ .idle ∧ ∃ x ∈ s.newlyMissing, s.tolerance < s.missingCount x) →
        v.ctl = { s.ctl with
          state := s.endState.1, volume := v.ctl.volume, latch := false, lastReport := s.counts, lastTolerance := s.tolerance }
        ∧ v.win = { s.win with events := { s.win.events with memberLost := v.win.events.memberLost } })
    ∧ ((s.endState.1 ≠ .idle ∧ ∃ x ∈ s.newlyMissing, s.tolerance < s.missingCount x) →
        (∃ c ∈ s.counts, v.ctl.faultLayout = some c ∧ s.tolerance < c.2
          ∧ ∀ d ∈ s.counts, s.tolerance < d.2 → c.1 = .only ∨ (d.1 ≠ .only ∧ (c.1 = .old ∨ d.1 = .new)))
        ∧ v.ctl = { s.ctl with
          state := .suspended, saved := some s.endState.1, latch := true, cause := .memberLost, faultLayout := v.ctl.faultLayout
          volume := v.ctl.volume, lastReport := s.counts, lastTolerance := s.tolerance }
        ∧ v.win = { s.win with events := { s.win.events with
            memberLost := v.win.events.memberLost, engineSuspended := true } })
    ∧ v = { s with
        mover := { s.mover with phase := s.endState.2 }, ctl := v.ctl, win := v.win
        plan := { s.plan with incomingLost := v.plan.incomingLost }, asm := { s.asm with stage := .idle } } := by
  have member := noteNews_memberLost (news := s.newlyMissing) (s := tabled s s.lostNow s.endState)
  have flags := noteNews_win s.newlyMissing (tabled s s.lostNow s.endState)
  have others := noteNews_frame s.newlyMissing (tabled s s.lostNow s.endState)
  have fault_iff : (s.beyond && s.endState.1 != .idle) = true
      ↔ s.endState.1 ≠ .idle ∧ ∃ x ∈ s.newlyMissing, s.tolerance < s.missingCount x := by
    rw [Bool.and_eq_true, beyond_iff, bne_iff_ne, and_comm]
  rw [endAssembly_eq]
  obtain ⟨n, hn⟩ : ∃ n, noteNews s.newlyMissing (tabled s s.lostNow s.endState) = n := ⟨_, rfl⟩
  rw [hn] at member flags others ⊢
  by_cases h : (s.beyond && s.endState.1 != .idle) = true
  · have faults := fault_iff.mp h
    obtain ⟨-, x, hx, lt⟩ := faults
    obtain ⟨c, first, mem, beyond, least⟩ := firstExceeding_first (counts_beyond hx lt)
    rw [if_pos h]
    refine ⟨suspended s.endState.1 (firstExceeding s.tolerance s.counts) n, rfl, ?_, ?_, member,
      fun calm => absurd (fault_iff.mp h) calm, fun _ => ⟨⟨c, mem, first, beyond, least⟩, ?_, ?_⟩, ?_⟩
    · rw [others]; rfl
    · rw [others]; rfl
    · rw [others]; rfl
    · show ({ n.win with events := { n.win.events with engineSuspended := true } } : WindowUnit) = _
      rw [flags]; rfl
    · rw [others]; rfl
  · rw [if_neg h]
    refine ⟨n, rfl, ?_, ?_, member, fun _ => ⟨?_, flags⟩, fun fault => absurd (fault_iff.mpr fault) h, ?_⟩
    · rw [others]; rfl
    · rw [others]; rfl
    · rw [others]; rfl
    · rw [others]; rfl

/-- Settles O57: the label handed to each serving bay, then the state the loaded plan and front give, with the newly missing
positions told and judged. -/
theorem assemblyEnds : Obligations.AssemblyEnds := by
  refine ⟨fun s off => ?_, fun s => ⟨fun going => if_neg ?_, fun ended nodup => ?_⟩⟩
  · intro state l
    have label : s.endLabel = l := congrArg (fun m => { s.labelNow (s.mark.generation + 1) s.mover.front with markState := m })
      (endLabel_markState off)
    have writes : (fun (x : State) i => handReserve i .mark
          (.write 0 (labelBlocks l (l.seat i).1 (l.seat i).2 (s.serialAt i))) (.assemblyLabel false) x)
        = fun (x : State) i => handReserve i .mark (.write 0 (labelBlocks l (l.seat i).1 (l.seat i).2 (match (s.bay i).ident with
            | some x => x.1
            | none => 0#64))) (.assemblyLabel false) x := by
      funext x i
      unfold State.serialAt
      cases (s.bay i).ident <;> rfl
    refine ⟨s.serving, serving_pairwise s, fun i => mem_serving, ?_⟩
    have handed := handLabels_hands l (.assemblyLabel false) (s := s) (t := labelFlight s) ⟨rfl, rfl, rfl, rfl, rfl⟩ s.serving rfl
    rw [writes] at handed
    rw [beginAssemblyEnd_labels, label]
    exact handed
  · simpa [and_assoc] using going
  · obtain ⟨stage, done, copies⟩ := ended
    have runs : ruleAssemblyEnd s = some (endAssembly s) := if_pos (by simp [stage, done, copies])
    obtain ⟨off, deg, on⟩ := volumeOf_cases s.counts
    obtain ⟨v, ends, volume, gone, member, calm, fault, frame⟩ := endAssembly_outcome s
    have news (x : Layout) := mem_newlyMissing (s := s) (x := x)
    simp only [recorded_iff] at news
    have faults : (s.endState.1 ≠ .idle ∧ ∃ x ∈ s.newlyMissing, s.tolerance < s.missingCount x)
        ↔ (s.endState.1 ≠ .idle ∧ ∃ x, _ ∧ s.tolerance < s.missingCount x) :=
      and_congr_right fun _ => exists_congr fun x => and_congr_left fun _ => news x
    refine ⟨s.endState.1, s.endState.2, v, by rw [runs, ends], fun h => ?_, fun planned migrate => ?_, fun planned settle => ?_,
      fun planned rebuild => ?_, fun planned form => ?_, fun planned active form => ?_, fun no => ?_, ?_, ?_, ⟨?_, ?_⟩, ?_⟩
    · rw [endState_idle h]
      exact ⟨rfl, rfl⟩
    · obtain ⟨low, past, last⟩ := (endState_working planned).1 migrate
      exact ⟨fun lt => by rw [low lt]; exact ⟨rfl, rfl⟩, fun le lt => by rw [past le lt]; exact ⟨rfl, rfl⟩,
        fun le more => by rw [last le more]; exact ⟨rfl, rfl⟩⟩
    · rw [(endState_working planned).2.1 settle]
      exact ⟨fun lt => if_pos lt, fun le => if_neg (Nat.not_lt.mpr le), rfl⟩
    · rw [(endState_working planned).2.2.1 rebuild]
      refine ⟨fun held lt => if_neg ?_, fun lost => if_pos ?_, rfl⟩
      · exact not_or.mpr ⟨mt lostNow_iff.mp held, Nat.not_le.mpr lt⟩
      · exact lost.imp_left lostNow_iff.mpr
    · rw [(endState_working planned).2.2.2 form]
      exact ⟨fun lt => if_pos lt, fun le => if_neg (Nat.not_lt.mpr le), rfl⟩
    · rw [volume]
      exact if_pos (by rw [endVolume_forming]; exact ⟨planned, active, form⟩)
    · have serving : v.ctl.volume = volumeOf s.counts := volume.trans (if_neg (by rw [endVolume_forming]; exact no))
      rw [serving]
      exact ⟨off, deg, on⟩
    · rw [gone]
      exact lostNow_iff
    · rw [member]
      exact or_congr_right (exists_congr news)
    · exact fun h => calm (mt faults.mp h)
    · intro h
      obtain ⟨exceeding, ctl, win⟩ := fault (faults.mpr h)
      exact ⟨exceeding, ctl, win⟩
    · exact frame
end Sys2Proof.Machine
end

