-- ==== Sys2Proof/Proofs/Labels.lean ====
section
/-! PROOFS. Label writes: their beginning, their completion, and what the causes they serve learn (R65, R80 to R85, R91, R155,
R192). -/

namespace Sys2Proof.Machine

/-! ## Adoption (R79, R82, R85, R92) -/

theorem refreshMark_frame (s : State) :
    refreshMark s = { s with mark := { s.mark with state := (refreshMark s).mark.state } } := by
  unfold refreshMark
  split <;> rfl

theorem refreshMark_rest {s : State} (h : s.mark.state = .off ∨ s.mark.state = .initial) : refreshMark s = s := by
  unfold refreshMark
  rcases h with h | h <;> simp only [h]

theorem refreshMark_state {s : State} (h : s.mark.state = .clean ∨ s.mark.state = .dirty) :
    (refreshMark s).mark.state = if s.mover.front = s.mark.front ∧ s.atRest = true then .clean else .dirty := by
  unfold refreshMark
  rcases h with h | h <;> simp only [h, Bool.and_eq_true, beq_iff_eq]

/-- What a completed label write leaves in the mark unit, its state apart. -/
def flown (f : Flight) (s : State) : State := { s with mark := { s.mark with
  front := f.front, generation := f.generation, unmarked := s.mark.unmarked - f.noted, flight := none
  bar := match s.mark.bar with
    | some b => if b < f.front then none else some b
    | none => none
  spill := match s.mark.spill with
    | .standing _ => .none
    | x => x } }

theorem adoptLabel_eq (f : Flight) (s : State) : adoptLabel f s
    = { flown f s with mark := { (flown f s).mark with state := (adoptLabel f s).mark.state } } :=
  refreshMark_frame (flown f s)

/-- The second part of the statement of O47. -/
theorem adoptLabel_adopts (f : Flight) (s : State) : let t := adoptLabel f s
    t.mark.front = f.front ∧ t.mark.generation = f.generation ∧ t.mark.unmarked = s.mark.unmarked - f.noted
      ∧ t.mark.flight = none
      ∧ (∀ r, s.mark.spill = .standing r → t.mark.spill = .none)
      ∧ ((∀ r, s.mark.spill ≠ .standing r) → t.mark.spill = s.mark.spill)
      ∧ (∀ b, s.mark.bar = some b → t.mark.bar = if b < f.front then none else some b)
      ∧ ((s.mark.state = .off ∨ s.mark.state = .initial) → t.mark.state = s.mark.state)
      ∧ ((s.mark.state = .clean ∨ s.mark.state = .dirty) →
          (t.mark.state = .clean ↔ s.mover.front = f.front ∧ s.atRest = true)
          ∧ (t.mark.state ≠ .clean → t.mark.state = .dirty))
      ∧ t = { s with mark :=
          { s.mark with
            front := t.mark.front, generation := t.mark.generation, unmarked := t.mark.unmarked, flight := none
            bar := t.mark.bar, spill := t.mark.spill, state := t.mark.state } } := by
  intro t
  have eq := adoptLabel_eq f s
  have spill : t.mark.spill = (flown f s).mark.spill := congrArg (·.mark.spill) eq
  have bar : t.mark.bar = (flown f s).mark.bar := congrArg (·.mark.bar) eq
  have front : t.mark.front = f.front := congrArg (·.mark.front) eq
  have generation : t.mark.generation = f.generation := congrArg (·.mark.generation) eq
  have unmarked : t.mark.unmarked = s.mark.unmarked - f.noted := congrArg (·.mark.unmarked) eq
  refine ⟨front, generation, unmarked, congrArg (·.mark.flight) eq, fun r standing => ?_, fun other => ?_, fun b barred => ?_, fun rest => ?_, fun moving => ?_, ?_⟩
  · rw [spill]
    simp only [flown, standing]
  · rw [spill]
    unfold flown
    dsimp only
    split
    next r standing => exact absurd standing (other r)
    next => rfl
  · rw [bar]
    simp only [flown, barred]
  · exact congrArg (·.mark.state) (refreshMark_rest (s := flown f s) rest)
  · have state : t.mark.state = if s.mover.front = f.front ∧ s.atRest = true then .clean else .dirty :=
      refreshMark_state (s := flown f s) moving
    rw [state]
    split <;> simp_all
  · refine eq.trans ?_
    rw [front, generation, unmarked, bar, spill]
    rfl

/-! ## A completed label write (R65, R82, R83, R91) -/

theorem find?_steps {s : State} {p : Staging × Step → Bool} {g : Staging} {t : Step} (ht : s.stepIn g = some t) (hp : p (g, t) = true)
    (only : ∀ x r, s.stepIn x = some r → p (x, r) = true → x = g) : s.steps.find? p = some (g, t) := by
  have mem : (g, t) ∈ s.steps := mem_steps.mpr ht
  obtain ⟨⟨x, r⟩, found⟩ := Option.isSome_iff_exists.mp (List.find?_isSome.mpr ⟨(g, t), mem, hp⟩)
  have hr : s.stepIn x = some r := mem_steps.mp (List.mem_of_find?_eq_some found)
  obtain rfl : x = g := only x r hr (List.find?_some found)
  obtain rfl : t = r := Option.some.inj (ht.symm.trans hr)
  exact found

theorem find?_steps_none {s : State} {p : Staging × Step → Bool} (none : ∀ g t, s.stepIn g = some t → ¬p (g, t) = true) :
    s.steps.find? p = Option.none :=
  List.find?_eq_none.mpr fun x hx => none x.1 x.2 (mem_steps.mp hx)

theorem satisfied_iff {f : Flight} {c : Cause} : c.satisfied f = true ↔
    (∃ n, (c.kind = .step n ∨ c.kind = .forced n) ∧ n ≤ f.front)
      ∨ (c.served = true ∧ (c.kind = .loss ∨ (∃ w, c.kind = .plan w) ∨ ∃ i, c.kind = .remaps i)) := by
  unfold Cause.satisfied
  cases kind : c.kind <;> simp

theorem planWrite_iff {k : CauseKind} {w : PlanWrite} : k.planWrite = some w ↔ k = .plan w := by
  cases k <;> simp [CauseKind.planWrite]

theorem remapsSlot_iff {k : CauseKind} {i : Slot} : k.remapsSlot = some i ↔ k = .remaps i := by
  cases k <;> simp [CauseKind.remapsSlot]

/-- Of the satisfied causes those of the plan unit are the ones served. -/
theorem planWrites_served (f : Flight) (l : List Cause) : (l.filter (Cause.satisfied f)).filterMap (·.kind.planWrite)
    = (l.filter (fun c => c.kind.planWrite.isSome && c.served)).filterMap (·.kind.planWrite) := by
  induction l with
  | nil => rfl
  | cons c l ih =>
    by_cases plan : ∃ w, c.kind = .plan w
    · obtain ⟨w, plan⟩ := plan
      have sat : c.satisfied f = c.served := by simp only [Cause.satisfied, plan]
      have own : c.kind.planWrite = some w := planWrite_iff.mpr plan
      cases served : c.served <;> simp [sat, served, own, ih]
    · have other : c.kind.planWrite = none := Option.eq_none_iff_forall_ne_some.mpr fun w h => plan ⟨w, planWrite_iff.mp h⟩
      by_cases sat : c.satisfied f = true <;> simp [sat, other, ih]

theorem remaps_served {f : Flight} {l : List Cause} : (l.filter (Cause.satisfied f)).any (fun c => c.kind.remapsSlot.isSome) = true
    ↔ ∃ c ∈ l, (∃ i, c.kind = .remaps i) ∧ c.served = true := by
  have remaps (c : Cause) : c.kind.remapsSlot.isSome = true ↔ ∃ i, c.kind = .remaps i := by
    rw [Option.isSome_iff_exists]
    exact exists_congr fun i => remapsSlot_iff
  rw [List.any_eq_true]
  constructor
  · rintro ⟨c, hc, some_⟩
    obtain ⟨mem, sat⟩ := List.mem_filter.mp hc
    obtain ⟨i, kind⟩ := (remaps c).mp some_
    refine ⟨c, mem, ⟨i, kind⟩, ?_⟩
    simpa [Cause.satisfied, kind] using sat
  · rintro ⟨c, mem, ⟨i, kind⟩, served⟩
    exact ⟨c, List.mem_filter.mpr ⟨mem, by simpa [Cause.satisfied, kind] using served⟩, (remaps c).mpr ⟨i, kind⟩⟩

/-- The releases of a completed label write: satisfied causes and known losses gone, the holds released. -/
def released (f : Flight) (a : State) : State := { a with
  mark := { a.mark with
    causes := a.mark.causes.filter (fun c => !Cause.satisfied f c), losses := a.mark.losses.filter (fun x => !x.2), judgeBand := true }
  holds := a.holds.filter (fun h => !a.labelReleases f h.reason)
  todo := a.todo ++ (a.holds.filter (fun h => a.labelReleases f h.reason)).map (fun h => Ev.release h.arrival) }

/-- What the plan unit is told, and the finish of a KEEP-REMAPS. -/
def toldPlan (f : Flight) (a w : State) : State :=
  ((a.mark.causes.filter (Cause.satisfied f)).filterMap (·.kind.planWrite)).foldl (fun s w => tellPlan f.generation w s) w

def kept (f : Flight) (a x : State) : State :=
  if (a.mark.causes.filter (Cause.satisfied f)).any (fun c => c.kind.remapsSlot.isSome) then finishDirective .done x else x

theorem wakeRows_eq (s : State) : wakeRows s = { s with
    todo := s.todo ++ (s.port.entries.filter (fun e => e.kind == .write && !e.rows.isEmpty)).map (fun e => Ev.advance e.arrival) } :=
  foldl_push (fun e : Entry => Ev.advance e.arrival) _ _

theorem serveCauses_eq (f : Flight) (a : State) :
    serveCauses f a = wakeRows (kept f a (toldPlan f a (retireMarked f (released f a)))) := by
  have rel := releaseHolds_eq (a.labelReleases f) { a with mark := { a.mark with
    causes := a.mark.causes.filter (fun c => !Cause.satisfied f c), losses := a.mark.losses.filter (fun x => !x.2), judgeBand := true } }
  unfold released
  rw [← rel]
  rfl

theorem labelReleases_iff {s : State} {f : Flight} {r : HoldReason} : s.labelReleases f r = true ↔
    r = .mark ∨ ∃ g t, (s.stepIn g = some t ∧ t.stage = .mark ∧ t.front + t.rows ≤ f.front) ∧ r = .step t.front := by
  cases r with
  | mark => simp [State.labelReleases]
  | step n =>
    unfold State.labelReleases
    simp only [List.any_eq_true, Prod.exists, mem_steps, Bool.and_eq_true, beq_iff_eq, decide_eq_true_eq, reduceCtorEq, false_or,
      HoldReason.step.injEq]
    exact exists_congr fun g => exists_congr fun t => by
      constructor
      · rintro ⟨ht, ⟨stage, le⟩, e⟩
        exact ⟨⟨ht, stage, le⟩, e.symm⟩
      · rintro ⟨⟨ht, stage, le⟩, e⟩
        exact ⟨ht, ⟨stage, le⟩, e.symm⟩

theorem finishDirective_some {d : Directive} {s : State} (o : DirOutcome) (h : s.win.current = some d) :
    finishDirective o s = { s with win := { s.win with
      result := { code := d.code, seq := d.args.seq, outcome := o }, current := s.win.waiting, taken := false, waiting := none } } := by
  simp only [finishDirective, h]

theorem retireMarked_none {f : Flight} {v : State}
    (none : ∀ g t, ¬(v.stepIn g = some t ∧ t.stage = .mark ∧ t.front + t.rows ≤ f.front)) : retireMarked f v = v := by
  have nothing : v.steps.find? (fun p => p.2.stage == .mark && p.2.front + p.2.rows ≤ f.front) = Option.none :=
    find?_steps_none fun g t ht h => none g t ⟨ht, by simpa using h⟩
  unfold retireMarked
  rw [nothing]

theorem retireMarked_step {f : Flight} {v : State} {g : Staging} {t : Step}
    (marked : v.stepIn g = some t ∧ t.stage = .mark ∧ t.front + t.rows ≤ f.front)
    (only : ∀ x r, v.stepIn x = some r ∧ r.stage = .mark ∧ r.front + r.rows ≤ f.front → x = g) :
    retireMarked f v = retire g t true v := by
  have found : v.steps.find? (fun p => p.2.stage == .mark && p.2.front + p.2.rows ≤ f.front) = some (g, t) :=
    find?_steps marked.1 (by simpa using marked.2) fun x r hr h => only x r ⟨hr, by simpa using h⟩
  unfold retireMarked
  rw [found]

/-- The part of O47 on a label write's completion. -/
theorem ruleLabelDone_serves {s : State} {f : Flight} (flight : s.mark.flight = some f) (ended : f.outstanding = 0)
    (own : f.assembly = false) : let a := adoptLabel f s
    let satisfied (c : Cause) : Prop := (∃ n, (c.kind = .step n ∨ c.kind = .forced n) ∧ n ≤ f.front)
      ∨ (c.served = true ∧ (c.kind = .loss ∨ (∃ w, c.kind = .plan w) ∨ ∃ i, c.kind = .remaps i))
    let marked (g : Staging) (t : Step) : Prop := a.stepIn g = some t ∧ t.stage = .mark ∧ t.front + t.rows ≤ f.front
    let freed (r : HoldReason) : Prop := r = .mark ∨ ∃ g t, marked g t ∧ r = .step t.front
    ∃ (v w x y u : State), ruleLabelDone s = some u
      ∧ v = { a with mark := v.mark, holds := v.holds, todo := v.todo }
      ∧ v.mark = { a.mark with causes := v.mark.causes, losses := a.mark.losses.filter (fun x => !x.2), judgeBand := true }
      ∧ (∀ c, c ∈ v.mark.causes ↔ c ∈ a.mark.causes ∧ ¬satisfied c)
      ∧ (∀ h, h ∈ v.holds ↔ h ∈ a.holds ∧ ¬freed h.reason) ∧ v.holds.Sublist a.holds
      ∧ (∃ out : List HoldEntry, v.todo = a.todo ++ out.map (fun h => Ev.release h.arrival) ∧ out.Sublist a.holds
          ∧ ∀ h, h ∈ out ↔ h ∈ a.holds ∧ freed h.reason)
      ∧ ((∀ g t, ¬marked g t) → w = v)
      ∧ (∀ g t, marked g t → (∀ x r, marked x r → x = g) → w = retire g t true v)
      ∧ ((∀ c ∈ a.mark.causes, ∀ p, c.kind = .plan p → c.served = false) → x = w)
      ∧ (∀ p, a.mark.causes.filter (fun c => c.kind.planWrite.isSome && c.served) = [{ kind := .plan p, served := true }] →
          (p = .install → x = { w with plan := { w.plan with installed := true } })
          ∧ (p = .close → x = completeClose f.generation w) ∧ (p = .remove → x = completeRemove f.generation w))
      ∧ ((∀ c ∈ a.mark.causes, ∀ i, c.kind = .remaps i → c.served = false) → y = x)
      ∧ ((∃ c ∈ a.mark.causes, (∃ i, c.kind = .remaps i) ∧ c.served = true) →
          (x.win.current = none → y = x)
          ∧ ∀ d, x.win.current = some d → y = { x with win := { x.win with
              result := { code := d.code, seq := d.args.seq, outcome := .done }
              current := x.win.waiting, taken := false, waiting := none } })
      ∧ (let rows := y.port.entries.filter (fun e => e.kind == .write && !e.rows.isEmpty)
         u = { y with todo := y.todo ++ rows.map (fun e => Ev.advance e.arrival) }) := by
  intro a satisfied marked freed
  have runs : ruleLabelDone s = some (serveCauses f a) := by
    unfold ruleLabelDone
    simp only [flight, ended, own, beq_self_eq_true, if_true, Bool.false_eq_true, if_false]
    rfl
  have free (r : HoldReason) : a.labelReleases f r = true ↔ freed r := labelReleases_iff
  have none_free (r : HoldReason) : (!a.labelReleases f r) = true ↔ ¬freed r := by rw [← free, Bool.not_eq_true', Bool.not_eq_true]
  have tells : toldPlan f a = fun w =>
      ((a.mark.causes.filter (fun c => c.kind.planWrite.isSome && c.served)).filterMap (·.kind.planWrite)).foldl
        (fun s w => tellPlan f.generation w s) w := by
    funext w
    unfold toldPlan
    rw [planWrites_served]
  obtain ⟨w, hw⟩ : ∃ w, retireMarked f (released f a) = w := ⟨_, rfl⟩
  obtain ⟨x, hx⟩ : ∃ x, toldPlan f a w = x := ⟨_, rfl⟩
  obtain ⟨y, hy⟩ : ∃ y, kept f a x = y := ⟨_, rfl⟩
  refine ⟨released f a, w, x, y, wakeRows y, by rw [runs, serveCauses_eq, hw, hx, hy], rfl, rfl, fun c => ?_, fun h => ?_,
    List.filter_sublist, ⟨_, rfl, List.filter_sublist, fun h => ?_⟩, fun none => ?_, fun g t mark only => ?_, fun none => ?_,
    fun p only => ?_, fun none => ?_, fun some_ => ?_, wakeRows_eq y⟩
  · exact List.mem_filter.trans (and_congr_right fun _ => by rw [Bool.not_eq_true', ← Bool.not_eq_true, satisfied_iff])
  · exact List.mem_filter.trans (and_congr_right fun _ => none_free _)
  · exact List.mem_filter.trans (and_congr_right fun _ => free _)
  · exact hw.symm.trans (retireMarked_none none)
  · exact hw.symm.trans (retireMarked_step mark only)
  · have nothing : a.mark.causes.filter (fun c => c.kind.planWrite.isSome && c.served) = [] := by
      refine List.filter_eq_nil_iff.mpr fun c hc h => ?_
      obtain ⟨plan, served⟩ := Bool.and_eq_true_iff.mp h
      obtain ⟨p, plan⟩ := Option.isSome_iff_exists.mp plan
      rw [none c hc p (planWrite_iff.mp plan)] at served
      cases served
    rw [← hx, tells, nothing]
    rfl
  · have told : x = tellPlan f.generation p w := by
      rw [← hx, tells, only]
      rfl
    rw [told]
    exact ⟨fun e => by rw [e]; rfl, fun e => by rw [e]; rfl, fun e => by rw [e]; rfl⟩
  · refine hy.symm.trans (if_neg fun h => ?_)
    obtain ⟨c, hc, ⟨i, kind⟩, served⟩ := remaps_served.mp h
    rw [none c hc i kind] at served
    cases served
  · have finish : y = finishDirective .done x := hy.symm.trans (if_pos (remaps_served.mpr some_))
    exact ⟨fun idle => finish.trans (finishDirective_none _ idle), fun d current => finish.trans (finishDirective_some _ current)⟩

/-! ## BAND (R83) -/

theorem bandHeld_iff {s : State} : s.bandHeld = true ↔ ∃ h ∈ s.holds, ∃ e, s.req h.arrival = some e ∧ s.inBand e.lba e.count = true := by
  unfold State.bandHeld
  rw [List.any_eq_true]
  refine exists_congr fun h => and_congr_right fun _ => ?_
  cases s.req h.arrival <;> simp

theorem ruleBand_judges {s : State} (h : s.mark.judgeBand = true) :
    let held : Prop := ∃ h ∈ s.holds, ∃ e, s.req h.arrival = some e ∧ s.inBand e.lba e.count = true
    (held → ruleBand s = some { s with mark := { s.mark with judgeBand := false } })
      ∧ (¬held → ruleBand s = some { s with mark := { s.mark with
          judgeBand := false, causes := s.mark.causes.filter (fun c => c.kind != .band) } }) := by
  intro held
  have band : (State.bandHeld { s with mark := { s.mark with judgeBand := false } }) = true ↔ held := bandHeld_iff
  have runs : ruleBand s = some (if State.bandHeld { s with mark := { s.mark with judgeBand := false } } then
      { s with mark := { s.mark with judgeBand := false } }
    else { s with mark := { s.mark with judgeBand := false, causes := s.mark.causes.filter (fun c => c.kind != .band) } }) := if_pos h
  exact ⟨fun yes => runs.trans (by rw [if_pos (band.mpr yes)]), fun no => runs.trans (by rw [if_neg (mt band.mp no)])⟩

/-! ## A label write begins (R80, R81, R83 to R85, R155) -/

/-- The SOFT entries of a bay made HARD, those filling apart. -/
def Bay.hardened (b : Bay) : Bay :=
  { b with remaps := b.remaps.map (fun r => if r.filling then r else { r with hard := true }) }

theorem hardened_hardened (b : Bay) : b.hardened.hardened = b.hardened := by
  unfold Bay.hardened
  dsimp only
  rw [List.map_map]
  congr 2
  funext r
  cases filling : r.filling <;> simp [filling]

theorem hardened_remaps (b : Bay) : b.hardened = { b with remaps := b.remaps.map (fun r => { r with hard := r.hard || !r.filling }) } := by
  unfold Bay.hardened
  congr 2
  funext r
  obtain ⟨row, spare, hard, filling⟩ := r
  cases filling <;> simp

/-- Bays that differ in their remap tables alone. -/
def Bay.Alike (b c : Bay) : Prop := c = { b with remaps := c.remaps }

theorem hardened_alike (b : Bay) : b.Alike b.hardened := rfl

theorem foldl_hardenRemaps (l : List Slot) : ∀ s : State, Rebay s (l.foldl (fun s i => hardenRemaps i s) s)
    ∧ ∀ j, (l.foldl (fun s i => hardenRemaps i s) s).bay j = if j ∈ l then (s.bay j).hardened else s.bay j := by
  induction l with
  | nil => exact fun s => ⟨Rebay.refl s, fun j => rfl⟩
  | cons i l ih =>
    intro s
    obtain ⟨rebay, bays⟩ := ih (hardenRemaps i s)
    refine ⟨(updBay_rebay i _ s).trans rebay, fun j => (bays j).trans ?_⟩
    by_cases e : j = i
    · subst e
      have same : (hardenRemaps j s).bay j = (s.bay j).hardened := updBay_bay_same ..
      rw [same, hardened_hardened, ite_self, if_pos List.mem_cons_self]
    · have same : (hardenRemaps i s).bay j = s.bay j := updBay_bay_ne _ _ e
      rw [same]
      simp [e]

/-- The state in which a label write hands its label over, but for the mark unit. -/
def State.hardState (s : State) : State :=
  (s.mark.causes.filterMap (fun c => c.kind.remapsSlot)).foldl (fun s i => hardenRemaps i s) s

theorem hardState_rebay (s : State) : Rebay s s.hardState := (foldl_hardenRemaps _ s).1

theorem Rebay.put {s h : State} (r : Rebay s h) (mark : MarkUnit) (shelf : ShelfUnit) (todo : List Ev) :
    { h with mark := mark, shelf := shelf, todo := todo } = { s with mark := mark, shelf := shelf, todo := todo } := by
  rw [r]

theorem mem_remapsSlots {l : List Cause} {i : Slot} :
    i ∈ l.filterMap (fun c => c.kind.remapsSlot) ↔ ∃ c ∈ l, c.kind = .remaps i := by
  rw [List.mem_filterMap]
  exact exists_congr fun c => and_congr_right fun _ => remapsSlot_iff

theorem hardState_bay_named {s : State} {i : Slot} (h : ∃ c ∈ s.mark.causes, c.kind = .remaps i) :
    s.hardState.bay i = (s.bay i).hardened := ((foldl_hardenRemaps _ s).2 i).trans (if_pos (mem_remapsSlots.mpr h))

theorem hardState_bay_other {s : State} {i : Slot} (h : ∀ c ∈ s.mark.causes, c.kind ≠ .remaps i) :
    s.hardState.bay i = s.bay i :=
  ((foldl_hardenRemaps _ s).2 i).trans (if_neg fun m => by
    obtain ⟨c, hc, kind⟩ := mem_remapsSlots.mp m
    exact h c hc kind)

theorem hardState_alike (s : State) (i : Slot) : (s.bay i).Alike (s.hardState.bay i) := by
  by_cases h : ∃ c ∈ s.mark.causes, c.kind = .remaps i
  · rw [hardState_bay_named h]
    exact hardened_alike _
  · rw [hardState_bay_other (by simpa using h)]
    rfl

section labels
variable {s h : State} (rebay : Rebay s h) (alike : ∀ i, (s.bay i).Alike (h.bay i))
include alike

theorem alike_role (i : Slot) : (h.bay i).role = (s.bay i).role := by rw [alike i]
theorem alike_present (i : Slot) : (h.bay i).present = (s.bay i).present := by rw [alike i]
theorem alike_ident (i : Slot) : (h.bay i).ident = (s.bay i).ident := by rw [alike i]

theorem alike_roleMissing (i : Slot) : h.roleMissing i = s.roleMissing i := by
  unfold State.roleMissing
  rw [alike_role alike]

theorem alike_posMissing : h.posMissing = s.posMissing := by
  funext l p
  unfold State.posMissing
  cases l.slotAt p with
  | none => rfl
  | some i => exact alike_roleMissing alike i

include rebay

theorem alike_missing : h.missing = s.missing := by
  have plan : h.plan = s.plan := by rw [rebay]
  have mover : h.mover = s.mover := by rw [rebay]
  funext l p
  unfold State.missing State.incomingMissing
  rw [alike_posMissing alike, plan, mover]
  cases s.plan.incoming with
  | none => rfl
  | some c =>
    dsimp only
    rw [alike_role alike]

/-- The label of the state as it stands, but for the HARD entries. -/
theorem alike_labelNow (gen front : Nat) : h.labelNow gen front = { s.labelNow gen front with hard := h.hardEntries } := by
  have plan : h.plan = s.plan := by rw [rebay]
  have mover : h.mover = s.mover := by rw [rebay]
  have mark : h.mark = s.mark := by rw [rebay]
  have rows : h.rows = s.rows := by rw [rebay]; rfl
  have missing := alike_missing rebay alike
  have role : (fun i : Incoming => ({ record := i, missing := h.roleMissing i.slot } : LabelIncoming))
      = fun i => { record := i, missing := s.roleMissing i.slot } := by
    funext i
    rw [alike_roleMissing alike]
  unfold State.labelNow State.activeKind
  rw [plan, mover, mark, rows, missing, role]

theorem alike_labelAlone (gen : Nat) (l : Layout) (capacity : Nat) :
    h.labelAlone gen l capacity = { s.labelAlone gen l capacity with hard := h.hardEntries } := by
  have after : h.chainAfter = s.chainAfter := by rw [rebay]; rfl
  unfold State.labelAlone
  rw [after, alike_posMissing alike, alike_labelNow rebay alike]

end labels

theorem mayBeginLabel_iff {s : State} : s.mayBeginLabel = true ↔ s.mark.flight = none
    ∧ ¬(s.ctl.state = .halted ∧ s.ctl.cause = .recoveryFailed) ∧ s.ctl.volume ≠ .assembling
    ∧ (s.mark.bar = none ∨ ∃ c ∈ s.mark.causes, ∃ n, c.kind = .step n) := by
  unfold State.mayBeginLabel
  simp only [Bool.and_eq_true, Bool.or_eq_true, List.any_eq_true, Option.isNone_iff_eq_none, Bool.not_eq_true', bne_iff_ne,
    Bool.and_eq_false_iff, beq_eq_false_iff_ne, ne_eq, not_and_or, and_assoc]
  refine and_congr_right fun _ => and_congr_right fun _ => and_congr_right fun _ => or_congr_right
    (exists_congr fun c => and_congr_right fun _ => ?_)
  cases c.kind <;> simp

/-- The plan unit's request a label write serves. -/
def State.writePlan (s : State) : Option PlanWrite := (s.mark.causes.filterMap (fun c => c.kind.planWrite)).head?

/-- The mark front it carries. -/
def State.writeFront (s : State) : Nat :=
  match s.writePlan with
  | some .close | some .remove => 0
  | _ => s.placedFront

/-- What it notes. -/
def State.writeFlight (s : State) (n : Nat) : Flight :=
  { generation := s.mark.generation + 1, front := s.writeFront, noted := s.mark.unmarked, plan := s.writePlan
    assembly := false, outstanding := n }

theorem mem_planWrites {l : List Cause} {w : PlanWrite} :
    w ∈ l.filterMap (fun c => c.kind.planWrite) ↔ ∃ c ∈ l, c.kind = .plan w := by
  rw [List.mem_filterMap]
  exact exists_congr fun c => and_congr_right fun _ => planWrite_iff

theorem writePlan_none {s : State} (h : ∀ c ∈ s.mark.causes, ∀ w, c.kind ≠ .plan w) : s.writePlan = none := by
  have nothing : s.mark.causes.filterMap (fun c => c.kind.planWrite) = [] :=
    List.eq_nil_iff_forall_not_mem.mpr fun w hw => by
      obtain ⟨c, hc, kind⟩ := mem_planWrites.mp hw
      exact h c hc w kind
  unfold State.writePlan
  rw [nothing]
  rfl

theorem writePlan_some {s : State} {w : PlanWrite} (one : ∃ c ∈ s.mark.causes, c.kind = .plan w)
    (only : ∀ c ∈ s.mark.causes, ∀ x, c.kind = .plan x → x = w) : s.writePlan = some w := by
  have mem := mem_planWrites.mpr one
  unfold State.writePlan
  cases list : s.mark.causes.filterMap (fun c => c.kind.planWrite) with
  | nil => rw [list] at mem; cases mem
  | cons x l =>
    have first : x ∈ s.mark.causes.filterMap (fun c => c.kind.planWrite) := by rw [list]; exact List.mem_cons_self
    obtain ⟨c, hc, kind⟩ := mem_planWrites.mp first
    rw [only c hc x kind]
    rfl

theorem writeFront_end {s : State} (h : s.writePlan = some .close ∨ s.writePlan = some .remove) : s.writeFront = 0 := by
  unfold State.writeFront
  rcases h with h | h <;> rw [h]

theorem writeFront_placed {s : State} (close : s.writePlan ≠ some .close) (remove : s.writePlan ≠ some .remove) :
    s.writeFront = s.placedFront := by
  unfold State.writeFront
  split
  next h => exact absurd h close
  next h => exact absurd h remove
  next => rfl

theorem placedFront_marked {s : State} {g : Staging} {t : Step} (ht : s.stepIn g = some t) (stage : t.stage = .mark)
    (only : ∀ x v, x ≠ g → s.stepIn x = some v → v.stage ≠ .mark) : s.placedFront = t.front + t.rows := by
  have found : s.steps.find? (fun p => p.2.stage == .mark) = some (g, t) :=
    find?_steps ht (by simpa using stage) fun x v hv h => Classical.byContradiction fun ne => only x v ne hv (by simpa using h)
  unfold State.placedFront
  rw [found]

theorem placedFront_none {s : State} (h : ∀ g t, s.stepIn g = some t → t.stage ≠ .mark) : s.placedFront = s.mover.front := by
  have nothing : s.steps.find? (fun p => p.2.stage == .mark) = none := find?_steps_none fun g t ht => by simpa using h g t ht
  unfold State.placedFront
  rw [nothing]

/-- The state in which a label write hands its copies over. -/
def flying (s : State) (f : Flight) : State := { s.hardState with mark := { s.mark with
  flight := some f, causes := s.mark.causes.map (fun c => { c with served := true }), losses := s.mark.losses.map (fun x => (x.1, true)) } }

theorem beginLabel_eq (s : State) : beginLabel s = handLabels
    (s.hardState.labelFor (s.mark.generation + 1) s.writeFront s.writePlan) (.label false)
    (flying s (s.writeFlight s.hardState.serving.length)) := by
  have rebay := hardState_rebay s
  have mark : s.hardState.mark = s.mark := by rw [rebay]
  have plan : s.hardState.writePlan = s.writePlan := by rw [rebay]; rfl
  have front : s.hardState.writeFront = s.writeFront := by rw [rebay]; rfl
  have unfolded : beginLabel s = handLabels
      (s.hardState.labelFor (s.hardState.mark.generation + 1) s.hardState.writeFront s.hardState.writePlan) (.label false)
      { s.hardState with mark := { s.hardState.mark with
          flight := some (s.hardState.writeFlight s.hardState.serving.length)
          causes := s.hardState.mark.causes.map (fun c => { c with served := true })
          losses := s.hardState.mark.losses.map (fun x => (x.1, true)) } } := rfl
  have flight (n : Nat) : s.hardState.writeFlight n = s.writeFlight n := by
    unfold State.writeFlight
    rw [mark, plan, front]
  rw [unfolded, flight, mark, plan, front]
  rfl

/-- Settles O47: the label of the hardened state handed to each serving bay; the causes a completed one serves, one after the
other; the judgement of BAND; and the adoption. -/
theorem labelWrites : Obligations.LabelWrites := by
  refine ⟨⟨fun s => ?_, fun s f flight => ⟨fun under => ?_, ruleLabelDone_serves flight⟩, fun s => ruleBand_judges⟩,
    fun s f => adoptLabel_adopts f s⟩
  · intro leave entries state now alone
    have may : (!s.mark.causes.isEmpty && !s.mark.judgeBand && s.mayBeginLabel) = true ↔ leave := by
      rw [Bool.and_eq_true, Bool.and_eq_true, mayBeginLabel_iff]
      simp [leave, and_assoc]
    refine ⟨fun no => if_neg (mt may.mp no), fun yes => ?_⟩
    have rebay := hardState_rebay s
    have alike := hardState_alike s
    have stored : state = storedMark s.mark.state := by
      show (if s.mark.state = .off then MarkState.off else if s.mark.state = .initial then .initial else .clean) = _
      cases s.mark.state <;> rfl
    have labelNow (front : Nat) : s.hardState.labelNow (s.mark.generation + 1) front = now s.hardState front := by
      rw [alike_labelNow rebay alike]
      show _ = ({ now s.hardState front with markState := state } : Label)
      rw [stored]
      rfl
    have labelAlone (l : Layout) (capacity : Nat) :
        s.hardState.labelAlone (s.mark.generation + 1) l capacity = alone s.hardState l capacity := by
      have held : (chainFlags s.chainAfter.2 false).1 = (s.chainAfter.2 == .held) := by simp [chainFlags]
      rw [alike_labelAlone rebay alike]
      show ({ alone s.hardState l capacity with held := (chainFlags s.chainAfter.2 false).1 } : Label) = _
      rw [held]
    have closing : s.hardState.closingLayout = s.closingLayout := by rw [rebay]; rfl
    have closed : s.hardState.closingCapacity = s.closingCapacity := by rw [rebay]; rfl
    have former : s.hardState.formerLayout = s.formerLayout := by rw [rebay]; rfl
    have capacity : s.hardState.plan.capacity = s.plan.capacity := by rw [rebay]
    obtain ⟨l, hl⟩ : ∃ l, s.hardState.labelFor (s.mark.generation + 1) s.writeFront s.writePlan = l := ⟨_, rfl⟩
    have writes : (fun (x : State) i => handReserve i .mark
          (.write 0 (labelBlocks l (l.seat i).1 (l.seat i).2 (s.hardState.serialAt i))) (.label false) x)
        = fun (x : State) i => handReserve i .mark (.write 0 (labelBlocks l (l.seat i).1 (l.seat i).2 (match (s.bay i).ident with
            | some x => x.1
            | none => 0#64))) (.label false) x := by
      funext x i
      unfold State.serialAt
      rw [alike_ident alike]
      cases (s.bay i).ident <;> rfl
    have handed := handLabels_hands l (.label false) (s := s.hardState)
      (t := flying s (s.writeFlight s.hardState.serving.length)) ⟨rfl, rfl, rfl, rfl, rfl⟩ s.hardState.serving rfl
    rw [writes] at handed
    have begun := (beginLabel_eq s).trans (by rw [hl])
    refine ⟨_, s.hardState, l, s.writeFlight s.hardState.serving.length, s.hardState.serving, if_pos (may.mpr yes), rebay,
      fun i named => (hardState_bay_named named).trans (hardened_remaps _), fun i other => hardState_bay_other other,
      fun i => by rw [mem_serving, alike_present alike, alike_role alike], serving_pairwise _, rfl, rfl, rfl, rfl, writePlan_none,
      fun w => writePlan_some, writeFront_end, fun close remove => ⟨fun g t ht stage only => ?_, fun none => ?_⟩, fun plain => ?_,
      fun close x hx => ?_, fun remove x hx => ?_, fun remove none => ?_, ?_, ?_⟩
    · exact (writeFront_placed close remove).trans (placedFront_marked ht stage only)
    · exact (writeFront_placed close remove).trans (placedFront_none none)
    · rw [← hl, ← labelNow]
      have kind : s.writePlan = none ∨ s.writePlan = some .install := plain
      rcases kind with kind | kind <;> rw [kind] <;> rfl
    · have kind : s.writePlan = some .close := close
      have label : s.hardState.labelFor (s.mark.generation + 1) s.writeFront (some .close)
          = s.hardState.labelAlone (s.mark.generation + 1) x s.hardState.closingCapacity := by
        unfold State.labelFor
        simp only [closing, hx]
      rw [← hl, kind, label, closed, labelAlone]
    · have kind : s.writePlan = some .remove := remove
      have label : s.hardState.labelFor (s.mark.generation + 1) s.writeFront (some .remove)
          = s.hardState.labelAlone (s.mark.generation + 1) x s.hardState.plan.capacity := by
        unfold State.labelFor
        simp only [former, hx]
      rw [← hl, kind, label, capacity, labelAlone]
    · have kind : s.writePlan = some .remove := remove
      rw [← hl, kind]
      unfold State.labelFor
      simp only [former, none]
    · exact congrArg (·.mark) (begun.trans handed)
    · have mark := congrArg (·.mark) (begun.trans handed)
      dsimp only at mark ⊢
      rw [mark]
      exact begun.trans (handed.trans (rebay.put _ _ _))
  · unfold ruleLabelDone
    simp only [flight, beq_false_of_ne under, Bool.false_eq_true, if_false]
end Sys2Proof.Machine
end

