-- ==== Sys2Proof/Proofs/Placing.lean ====
section
/-! PROOFS. SPILL, PLACE, the mark that is due, and the retirement of a step (R46, R58 to R62, R65, R79, R89, R92). -/

namespace Sys2Proof.Machine

/-! ## A step of the mover -/

theorem setStep_frame (g : Staging) (v : Option Step) (s : State) : setStep g v s = { s with mover := (setStep g v s).mover } := by
  cases g <;> rfl

theorem updStep_at {s : State} {g : Staging} {t : Step} (ht : s.stepIn g = some t) (f : Step → Step) :
    updStep g f s = setStep g (some (f t)) s := by
  unfold updStep
  rw [ht]
  rfl

/-- A step as it was seen takes another's place, and the other slot is as it was. -/
def StepSet (g : Staging) (v : Option Step) (s u : State) : Prop := u.stepIn g = v ∧ ∀ h, h ≠ g → u.stepIn h = s.stepIn h

theorem setStep_set (g : Staging) (v : Option Step) (s : State) : StepSet g v s (setStep g v s) :=
  ⟨by rw [setStep_stepIn, if_pos rfl], fun h ne => by rw [setStep_stepIn, if_neg ne]⟩

theorem StepSet.congr {g : Staging} {v : Option Step} {s u w : State} (h : StepSet g v s u) (mover : w.mover = u.mover) :
    StepSet g v s w := by
  have same (x : Staging) : w.stepIn x = u.stepIn x := by
    unfold State.stepIn
    rw [mover]
  exact ⟨(same g).trans h.1, fun x ne => (same x).trans (h.2 x ne)⟩

theorem setStep_agrees (g : Staging) (v : Option Step) (s : State) : Agrees s (setStep g v s) := by
  rw [setStep_frame]
  exact ⟨rfl, rfl, rfl, rfl, rfl⟩

/-- Handing over behind a step that is set. -/
theorem Hands.set {f : State → State} (hf : Hands f) (g : Staging) (v : Option Step) (s : State) :
    StepSet g v s (f (setStep g v s)) ∧ f (setStep g v s) = { s with
      mover := (f (setStep g v s)).mover, shelf := (f s).shelf, integ := (f s).integ, todo := (f s).todo } := by
  have handed := hf s (setStep g v s) (setStep_agrees g v s)
  refine ⟨(setStep_set g v s).congr (congrArg (·.mover) handed), ?_⟩
  rw [congrArg (·.mover) handed]
  refine handed.trans ?_
  rw [setStep_frame]
  rfl

/-! ## SPILL (R58, R92) -/

theorem mem_presentPositions {s : State} {l : Layout} {p : Nat} {i : Slot} :
    (p, i) ∈ s.presentPositions l ↔ p < l.n ∧ s.missing l p = false ∧ l.slotAt p = some i := by
  unfold State.presentPositions
  rw [List.mem_filterMap]
  constructor
  · rintro ⟨q, hq, h⟩
    by_cases gone : s.missing l q = true
    · rw [if_pos gone] at h; cases h
    · rw [if_neg gone] at h
      obtain ⟨j, slot, h⟩ := Option.map_eq_some_iff.mp h
      obtain ⟨rfl, rfl⟩ := Prod.mk.inj h
      exact ⟨List.mem_range.mp hq, by simpa using gone, slot⟩
  · rintro ⟨lt, present, slot⟩
    exact ⟨p, List.mem_range.mpr lt, by rw [present, slot]; rfl⟩

theorem presentPositions_pairwise (s : State) (l : Layout) : (s.presentPositions l).Pairwise (fun x y => x.1 < y.1) := by
  refine List.Pairwise.filterMap _ (fun p q lt x hx y hy => ?_) List.pairwise_lt_range
  have first {p : Nat} {x : Nat × Slot} (h : (if s.missing l p then none else (l.slotAt p).map (fun i => (p, i))) = some x) : x.1 = p := by
    by_cases gone : s.missing l p = true
    · rw [if_pos gone] at h; cases h
    · rw [if_neg gone] at h
      obtain ⟨j, -, rfl⟩ := Option.map_eq_some_iff.mp h
      rfl
  rw [first hx, first hy]
  exact lt

section steps
variable {s : State} {l : Layout} {g : Staging} {t : Step} (written : s.written = some l) (ht : s.stepIn g = some t)

theorem find?_stage {p : Staging × Step → Bool} {stage : Stage} (hp : p (g, t) = true) (ht : s.stepIn g = some t)
    (stages : ∀ x : Staging × Step, p x = true → x.2.stage = stage)
    (others : ∀ h v, h ≠ g → s.stepIn h = some v → v.stage ≠ stage) : s.steps.find? p = some (g, t) :=
  find?_steps ht hp fun x r hr h => Classical.byContradiction fun ne => others x r ne hr (stages (x, r) h)

theorem spilling (ht : s.stepIn g = some t) (stage : t.stage = .spill)
    (others : ∀ h v, h ≠ g → s.stepIn h = some v → v.stage ≠ .spill) :
    s.steps.find? (fun p => p.2.stage == .spill) = some (g, t) :=
  find?_stage (by simpa using stage) ht (fun _ h => by simpa using h) others

include written

theorem ruleSpill_hands (ht : s.stepIn g = some t) (stage : t.stage = .spill)
    (others : ∀ h v, h ≠ g → s.stepIn h = some v → v.stage ≠ .spill) (handed : t.handed = false) :
    ∃ u, ruleSpill s = some u
      ∧ StepSet g (some { t with handed := true, outstanding := (s.presentPositions l).length }) s u
      ∧ (let z := (s.presentPositions l).foldl (fun (x : State) p =>
            handReserve p.2 .mover (.write 1024 (t.column p.1 t.front t.rows)) (.spillColumn g false) x) s
         u = { s with mover := u.mover, shelf := z.shelf, todo := z.todo }) := by
  obtain ⟨hands, integ⟩ := foldl_handReserve_hands (fun p : Nat × Slot => p.2) .mover
    (fun p => .write 1024 (t.column p.1 t.front t.rows)) (.spillColumn g false) (s.presentPositions l)
  obtain ⟨set, frame⟩ := hands.set g (some { t with handed := true, outstanding := (s.presentPositions l).length }) s
  rw [integ s] at frame
  refine ⟨_, ?_, set, frame⟩
  unfold ruleSpill
  rw [spilling ht stage others, written]
  simp only [handed, Bool.not_false, if_true, handSpill, updStep_at ht]
  rfl

theorem ruleSpill_waits (ht : s.stepIn g = some t) (stage : t.stage = .spill)
    (others : ∀ h v, h ≠ g → s.stepIn h = some v → v.stage ≠ .spill) (handed : t.handed = true) (under : t.outstanding ≠ 0) :
    ruleSpill s = none := by
  unfold ruleSpill
  rw [spilling ht stage others, written]
  simp [handed, under]

theorem ruleSpill_asks (ht : s.stepIn g = some t) (stage : t.stage = .spill)
    (others : ∀ h v, h ≠ g → s.stepIn h = some v → v.stage ≠ .spill) (handed : t.handed = true) (ended : t.outstanding = 0)
    (idle : s.mark.spill = .none ∨ ∃ r, s.mark.spill = .standing r) :
    ruleSpill s = some { s with mark := { s.mark with spill := .asked g } } := by
  unfold ruleSpill
  rw [spilling ht stage others, written]
  rcases idle with idle | ⟨r, idle⟩ <;> simp [handed, ended, idle]

theorem ruleSpillRecord_hands (ht : s.stepIn g = some t) (asked : s.mark.spill = .asked g) (flight : s.mark.flight = none) :
    ∃ (u : State) (targets : List Slot), ruleSpillRecord s = some u
      ∧ (∀ i, i ∈ targets ↔ ∃ p, p < l.n ∧ s.missing l p = false ∧ l.slotAt p = some i ∧ (s.bay i).present = true)
      ∧ (let r : SpillRecord :=
           { front := t.front, rows := t.rows, first := t.first, stop := t.stop, generation := s.mark.generation }
         let z := targets.foldl (fun (x : State) i =>
           handReserve i .mark (.write 1023 [spillBlock r]) (.spillRecord false) x) s
         u = { s with mark := { s.mark with spill := .writing g r targets.length }, shelf := z.shelf, todo := z.todo }) := by
  obtain ⟨r, hr⟩ : ∃ r : SpillRecord,
    { front := t.front, rows := t.rows, first := t.first, stop := t.stop, generation := s.mark.generation } = r := ⟨_, rfl⟩
  obtain ⟨targets, htargets⟩ : ∃ ts, ((s.presentPositions l).filter (fun x => (s.bay x.2).present)).map (·.2) = ts := ⟨_, rfl⟩
  obtain ⟨hands, integ⟩ := foldl_handReserve_hands (fun i : Slot => i) .mark (fun _ => .write 1023 [spillBlock r])
    (.spillRecord false) targets
  have runs : ruleSpillRecord s = some (targets.foldl (fun (x : State) i =>
      handReserve i .mark (.write 1023 [spillBlock r]) (.spillRecord false) x)
      { s with mark := { s.mark with spill := .writing g r targets.length } }) := by
    unfold ruleSpillRecord
    simp only [asked, flight, ht, written]
    rw [← htargets, List.foldl_map, List.length_map, hr]
    rfl
  refine ⟨_, targets, runs, fun i => ?_, ?_⟩
  · rw [← htargets, List.mem_map]
    constructor
    · rintro ⟨⟨p, j⟩, mem, rfl⟩
      obtain ⟨mem, present⟩ := List.mem_filter.mp mem
      obtain ⟨lt, there, slot⟩ := mem_presentPositions.mp mem
      exact ⟨p, lt, there, slot, present⟩
    · rintro ⟨p, lt, there, slot, present⟩
      exact ⟨(p, i), List.mem_filter.mpr ⟨mem_presentPositions.mpr ⟨lt, there, slot⟩, present⟩, rfl⟩
  · rw [hr]
    refine (hands s { s with mark := { s.mark with spill := .writing g r targets.length } } ⟨rfl, rfl, rfl, rfl, rfl⟩).trans ?_
    unfold State.onto
    rw [integ s]

omit written

theorem ruleSpillRecord_places (ht : s.stepIn g = some t) {r : SpillRecord} (ended : s.mark.spill = .writing g r 0) :
    ∃ u, ruleSpillRecord s = some u ∧ StepSet g (some { t with stage := .place, handed := false, outstanding := 0 }) s u
      ∧ u = { s with mover := u.mover, mark := { s.mark with spill := .standing r } } := by
  have runs : ruleSpillRecord s = some (updStep g (Step.enter .place) { s with mark := { s.mark with spill := .standing r } }) := by
    unfold ruleSpillRecord
    simp only [ended]
  have set := setStep_set g (some (t.enter .place)) { s with mark := { s.mark with spill := .standing r } }
  rw [updStep_at (s := { s with mark := { s.mark with spill := .standing r } }) ht] at runs
  exact ⟨_, runs, ⟨set.1, set.2⟩, setStep_frame ..⟩

/-! ## PLACE (R59) -/

theorem placing (ht : s.stepIn g = some t) (stage : t.stage = .place) (handed : t.handed = false)
    (others : ∀ h v, h ≠ g → s.stepIn h = some v → v.stage ≠ .place) :
    s.steps.find? (fun p => p.2.stage == .place && !p.2.handed) = some (g, t) :=
  find?_stage (by simp [stage, handed]) ht (fun _ h => by simpa using (Bool.and_eq_true_iff.mp h).1) others

theorem mem_placeWrites (kind : t.kind ≠ .rebuild) {w : PlaceWrite} : w ∈ t.placeWrites s l ↔
    ∃ p i r n, p < l.n ∧ s.missing l p = false ∧ l.slotAt p = some i ∧ (r, n) ∈ cutRows s i t.front t.rows
      ∧ w = { slot := i, row := r, off := 0, blocks := t.column p r n } := by
  have writes : t.placeWrites s l = (s.presentPositions l).flatMap (fun x => t.columnWrites s x.1 x.2) := by
    unfold Step.placeWrites
    split
    next rebuild _ => exact absurd rebuild kind
    next => rfl
  rw [writes, List.mem_flatMap]
  constructor
  · rintro ⟨⟨p, i⟩, mem, hw⟩
    obtain ⟨lt, there, slot⟩ := mem_presentPositions.mp mem
    obtain ⟨⟨r, n⟩, cut, rfl⟩ := List.mem_map.mp hw
    exact ⟨p, i, r, n, lt, there, slot, cut, rfl⟩
  · rintro ⟨p, i, r, n, lt, there, slot, cut, rfl⟩
    exact ⟨(p, i), mem_presentPositions.mpr ⟨lt, there, slot⟩, List.mem_map.mpr ⟨(r, n), cut, rfl⟩⟩

/-- A host read is in flight on blocks of a place write. -/
theorem readOn_iff {unit : Nat} {w : PlaceWrite} : s.readOn unit w = true ↔
    ∃ op ∈ s.allOps, (∃ a k, op.owner = .hostRead a k) ∧ op.slot = w.slot
      ∧ op.kind.span.1 < s.physical w.slot unit w.row w.off + w.blocks.length
      ∧ s.physical w.slot unit w.row w.off < op.kind.span.1 + op.kind.span.2 := by
  unfold State.readOn
  rw [List.any_eq_true]
  refine exists_congr fun op => and_congr_right fun _ => ?_
  cases op.owner <;> simp [overlaps]

include written

theorem rulePlace_held (ht : s.stepIn g = some t) (stage : t.stage = .place) (handed : t.handed = false)
    (others : ∀ h v, h ≠ g → s.stepIn h = some v → v.stage ≠ .place)
    (read : ∃ w ∈ t.placeWrites s l, s.readOn l.unit w = true) : rulePlace s = none := by
  unfold rulePlace
  rw [placing ht stage handed others, written]
  dsimp only
  rw [if_pos (List.any_eq_true.mpr read)]

theorem rulePlace_hands (ht : s.stepIn g = some t) (stage : t.stage = .place) (handed : t.handed = false)
    (others : ∀ h v, h ≠ g → s.stepIn h = some v → v.stage ≠ .place)
    (free : ∀ w ∈ t.placeWrites s l, ¬s.readOn l.unit w = true) :
    ∃ u, rulePlace s = some u ∧ StepSet g (some { t with handed := true, outstanding := (t.placeWrites s l).length }) s u
      ∧ (let z := (t.placeWrites s l).foldl (fun (x : State) w =>
            handUnit w.slot .mover l.unit w.row w.off (fun b => .write b w.blocks) (.place g) x) s
         u = { s with mover := u.mover, shelf := z.shelf, integ := z.integ, todo := z.todo }) := by
  have hands : Hands ((t.placeWrites s l).foldl (fun (x : State) w =>
      handUnit w.slot .mover l.unit w.row w.off (fun b => .write b w.blocks) (.place g) x)) :=
    Hands.foldl (fun w => handUnit_hands _ _ _ _ _ _ _) _
  obtain ⟨set, frame⟩ := hands.set g (some { t with handed := true, outstanding := (t.placeWrites s l).length }) s
  refine ⟨_, ?_, set, frame⟩
  unfold rulePlace
  rw [placing ht stage handed others, written]
  dsimp only
  rw [if_neg (by simpa using free), updStep_at ht]

omit written

end steps

/-! ## The poison a step has written (R59, R146, R149) -/

theorem mem_insertLeft {α : Type} {key : α → Nat} {a x : α} {l : List α} : x ∈ insertLeft key a l ↔ x = a ∨ x ∈ l := by
  induction l with
  | nil => simp [insertLeft]
  | cons b l ih =>
    unfold insertLeft
    split
    · exact List.mem_cons
    · rw [List.mem_cons, ih, List.mem_cons]
      tauto

theorem length_insertLeft {α : Type} (key : α → Nat) (a : α) (l : List α) : (insertLeft key a l).length = l.length + 1 := by
  induction l with
  | nil => rfl
  | cons b l ih =>
    unfold insertLeft
    split
    · rfl
    · rw [List.length_cons, ih, List.length_cons]

theorem mem_sortBy {α : Type} {key : α → Nat} {x : α} {l : List α} : x ∈ sortBy key l ↔ x ∈ l := by
  unfold sortBy
  induction l with
  | nil => rfl
  | cons a l ih => rw [List.foldr_cons, mem_insertLeft, ih, List.mem_cons]

theorem length_sortBy {α : Type} (key : α → Nat) (l : List α) : (sortBy key l).length = l.length := by
  unfold sortBy
  induction l with
  | nil => rfl
  | cons a l ih => rw [List.foldr_cons, length_insertLeft, ih, List.length_cons]

/-- What captures of poison change: the capture record, its counts and DATA_ERROR. -/
structure PoisonCaptured (n : Nat) (s u : State) : Prop where
  eq    : u = { s with
    integ := { s.integ with capture := u.integ.capture, counts := u.integ.counts }
    win := { s.win with events := { s.win.events with dataError := s.win.events.dataError || n != 0 } } }
  none  : n = 0 → u = s
  some  : n ≠ 0 → u.integ.capture ≠ Option.none
  count : s.integ.counts.poisonWritten ≤ 65535 → u.integ.counts.poisonWritten = min 65535 (s.integ.counts.poisonWritten + n)

theorem foldl_takeCapture (caps : List Capture) : (∀ c ∈ caps, c.kind = .poisonWritten) → ∀ s : State,
    PoisonCaptured caps.length s (caps.foldl (fun s c => takeCapture c s) s) := by
  induction caps with
  | nil =>
    intro _ s
    refine ⟨?_, fun _ => rfl, fun h => absurd rfl h, fun le => (Nat.min_eq_right le).symm⟩
    simp
  | cons c caps ih =>
    intro kinds s
    have kind := kinds c List.mem_cons_self
    have first := takeCapture_eq c s
    have last := ih (fun d hd => kinds d (List.mem_cons_of_mem _ hd)) (takeCapture c s)
    obtain ⟨u, hu⟩ : ∃ u, takeCapture c s = u := ⟨_, rfl⟩
    rw [hu] at first last
    have counted : u.integ.counts.poisonWritten = bump s.integ.counts.poisonWritten := by
      rw [first, kind]
      rfl
    have captured : u.integ.capture ≠ none := by
      rw [first]
      cases old : s.integ.capture <;> cases s.ctl.tuning.captureLatest <;> simp
    rw [List.foldl_cons, hu, List.length_cons]
    refine ⟨?_, fun h => absurd h (Nat.succ_ne_zero _), fun _ => ?_, fun le => ?_⟩
    · refine last.eq.trans ?_
      rw [first]
      simp
    · by_cases more : caps.length = 0
      · rw [last.none more]
        exact captured
      · exact last.some more
    · rw [bump_eq] at counted
      have low : u.integ.counts.poisonWritten ≤ 65535 := by rw [counted]; split <;> omega
      rw [last.count low, counted]
      split <;> omega

theorem capturePoison_captures (unit : Nat) (ps : List (Option Slot × Cell × Option Nat)) (s : State) :
    PoisonCaptured ps.length s (capturePoison unit ps s) := by
  unfold capturePoison
  obtain ⟨caps, hcaps⟩ : ∃ caps : List Capture, ps.map (fun p =>
    { kind := .poisonWritten, slot := p.1, block := some (s.blockFor p.1 unit p.2.1.row p.2.1.off),
      row := some p.2.1.row, lba := p.2.2 : Capture }) = caps := ⟨_, rfl⟩
  have kinds : ∀ c ∈ sortBy (fun c => c.block.getD 0) caps, c.kind = .poisonWritten := by
    intro c hc
    rw [mem_sortBy, ← hcaps] at hc
    obtain ⟨p, -, rfl⟩ := List.mem_map.mp hc
    rfl
  have count : (sortBy (fun c => c.block.getD 0) caps).length = ps.length := by
    rw [length_sortBy, ← hcaps, List.length_map]
  have done := foldl_takeCapture (sortBy (fun c => c.block.getD 0) caps) kinds s
  rw [count] at done
  dsimp only
  rw [hcaps]
  exact done

/-! ## The end of PLACE (R59 to R61, R67, R79, R89) -/

/-- What the end of a step's PLACE does before the step leaves the stage. -/
def placeEnded (t : Step) (l : Layout) (s : State) : State :=
  let s := capturePoison l.unit (t.poisonWritten l) s
  let s := if (t.poisonWritten l).isEmpty then s else raise .dataLost s
  match t.arrival with
  | some a => leaveLocks a s
  | none => s

/-- What it leaves as it was and what it changes. -/
structure PlaceEnded (t : Step) (s u : State) : Prop where
  eq : u = { s with
    locks := u.locks, win := u.win, integ := { s.integ with capture := u.integ.capture, counts := u.integ.counts } }
  quiet : t.poisoned = [] → u.win = s.win ∧ u.integ = s.integ
  loud : t.poisoned ≠ [] → u.win = { s.win with events := { s.win.events with dataError := true, dataLost := true } }
    ∧ u.integ.capture ≠ none
    ∧ (s.integ.counts.poisonWritten ≤ 65535 →
        u.integ.counts.poisonWritten = min 65535 (s.integ.counts.poisonWritten + t.poisoned.length))
  kept : t.arrival = none → u.locks = s.locks
  gone : ∀ a, t.arrival = some a →
    (∀ e ∈ u.locks.entries, e.holder ≠ some a ∧ a ∉ e.readers ∧ ∀ x ∈ e.waiters, x.arrival ≠ a)
      ∧ ∀ q ∈ u.locks.queued, q.arrival ≠ a

theorem leaveLocks_gone (a : Nat) (s : State) :
    (∀ e ∈ (leaveLocks a s).locks.entries, e.holder ≠ some a ∧ a ∉ e.readers ∧ ∀ x ∈ e.waiters, x.arrival ≠ a)
      ∧ ∀ q ∈ (leaveLocks a s).locks.queued, q.arrival ≠ a := by
  have without := leaveLocks_without a s
  refine ⟨fun e he => ?_, fun q hq => ?_⟩
  · obtain ⟨f, -, rfl⟩ := without.only e he
    refine ⟨?_, by simp [LockEntry.strip], by simp [LockEntry.strip]⟩
    cases hold : f.holder <;> simp [LockEntry.strip, hold]
  · rw [without.queued] at hq
    simpa using (List.mem_filter.mp hq).2

theorem placeEnded_ends (t : Step) (l : Layout) (s : State) : PlaceEnded t s (placeEnded t l s) := by
  have captured := capturePoison_captures l.unit (t.poisonWritten l) s
  have count : (t.poisonWritten l).length = t.poisoned.length := List.length_map _
  obtain ⟨c, hc⟩ : ∃ c, capturePoison l.unit (t.poisonWritten l) s = c := ⟨_, rfl⟩
  rw [hc, count] at captured
  obtain ⟨d, hd⟩ : ∃ d, (if (t.poisonWritten l).isEmpty then c else raise .dataLost c) = d := ⟨_, rfl⟩
  have told : PlaceEnded { t with arrival := none } s d := by
    by_cases none : t.poisoned = []
    · have same : d = s := by
        rw [← hd, if_pos (by simp [Step.poisonWritten, none])]
        exact captured.none (by simp [none])
      rw [same]
      exact ⟨rfl, fun _ => ⟨rfl, rfl⟩, fun h => absurd none h, fun _ => rfl, fun a h => by cases h⟩
    · have some_ : t.poisoned.length ≠ 0 := by simpa using none
      have told : d = raise .dataLost c := by
        rw [← hd, if_neg (by simpa [Step.poisonWritten] using none)]
      have eq := captured.eq
      have win : d.win = { s.win with events := { s.win.events with dataError := true, dataLost := true } } := by
        rw [told]
        show { c.win with events := c.win.events.set .dataLost } = _
        rw [eq]
        simp [Events.set, some_]
      refine ⟨?_, fun h => absurd h none, fun _ => ⟨win, ?_, fun le => ?_⟩, fun _ => ?_, fun a h => by cases h⟩
      · rw [told, eq]; rfl
      · rw [told]; exact captured.some some_
      · rw [told]; exact captured.count le
      · rw [told, eq]; rfl
  have whole : placeEnded t l s = (match t.arrival with
      | some a => leaveLocks a d
      | none => d) := by
    rw [← hd, ← hc]
    rfl
  rw [whole]
  cases arrival : t.arrival with
  | none => exact ⟨told.eq, told.quiet, told.loud, fun _ => told.kept rfl, fun a h => absurd (arrival.symm.trans h) (by simp)⟩
  | some a =>
    refine ⟨?_, told.quiet, told.loud, fun h => absurd (arrival.symm.trans h) (by simp), fun b h => ?_⟩
    · show leaveLocks a d = _
      rw [leaveLocks_eq]
      have eq := told.eq
      rw [eq]
      rfl
    · obtain rfl : a = b := Option.some.inj (arrival.symm.trans h)
      exact leaveLocks_gone a d

theorem markDue_iff {s : State} {t : Step} : s.markDue t = true ↔ t.spill = true ∨ s.ctl.tuning.markInterval ≤ s.mark.unmarked + 1
    ∨ (t.kind = .migrate ∧ t.front + t.rows = s.growthEnd)
    ∨ ∃ h ∈ s.holds, ∃ e, s.req h.arrival = some e ∧ s.inBand e.lba e.count = true := by
  unfold State.markDue
  simp only [Bool.or_eq_true, Bool.and_eq_true, decide_eq_true_eq, beq_iff_eq, bandHeld_iff, or_assoc]

theorem PlaceEnded.markDue {t : Step} {s u : State} (h : PlaceEnded t s u) : u.markDue t = s.markDue t := by
  rw [h.eq]
  rfl

/-- A retired step's state, before the counts are reported. -/
def retired (g : Staging) (t : Step) (s : State) : State :=
  let s := releaseHolds (fun r => r == .step t.front) (setStep g none { s with mover := { s.mover with front := t.front + t.rows } })
  let s := { s with mark := { s.mark with unmarked := s.mark.unmarked + 1 } }
  endMigrate (match s.mark.state with
    | .initial => s
    | _ => refreshMark s)

theorem retire_eq (g : Staging) (t : Step) (s : State) :
    retire g t false s = if (retired g t s).counts = (retired g t s).ctl.lastReport then retired g t s
      else reportCounts (retired g t s) := reportChange_eq _

theorem endMigrate_eq (s : State) : endMigrate s = { s with mover := { s.mover with
    phase := if s.mover.phase = .migrate ∧ s.mover.front = s.growthEnd then .settle else s.mover.phase } } := by
  unfold endMigrate
  by_cases h : s.mover.phase = .migrate ∧ s.mover.front = s.growthEnd
  · rw [if_pos (by simpa using h), if_pos h]
  · rw [if_neg (by simpa using h), if_neg h]

/-- The behaviour of a retirement. -/
structure Retires (g : Staging) (t : Step) (s u : State) : Prop where
  eq : u = { s with todo := u.todo, holds := u.holds, mover := u.mover, mark := u.mark }
  set : StepSet g none s u
  front : u.mover.front = t.front + t.rows
  phase : u.mover.phase = if s.mover.phase = .migrate ∧ t.front + t.rows = s.growthEnd then .settle else s.mover.phase
  holds : u.holds = s.holds.filter (fun h => h.reason != .step t.front)
  todo : u.todo = s.todo ++ (s.holds.filter (fun h => h.reason == .step t.front)).map (fun h => Ev.release h.arrival)
  mark : u.mark = { s.mark with unmarked := s.mark.unmarked + 1, state := u.mark.state }
  resting : (s.mark.state = .off ∨ s.mark.state = .initial) → u.mark.state = s.mark.state
  moving : (s.mark.state = .clean ∨ s.mark.state = .dirty) →
    (u.mark.state = .clean ↔ t.front + t.rows = s.mark.front
        ∧ ∀ h v, h ≠ g → s.stepIn h = some v → v.stage ≠ .freeze ∧ v.stage ≠ .spill ∧ v.stage ≠ .place ∧ v.stage ≠ .mark)
      ∧ (u.mark.state = .clean ∨ u.mark.state = .dirty)

theorem retired_retires (g : Staging) (t : Step) (s : State) : Retires g t s (retired g t s) := by
  have frame := setStep_frame g none { s with mover := { s.mover with front := t.front + t.rows } }
  have set : StepSet g none s (setStep g none { s with mover := { s.mover with front := t.front + t.rows } }) :=
    setStep_set g none { s with mover := { s.mover with front := t.front + t.rows } }
  have front : (setStep g none { s with mover := { s.mover with front := t.front + t.rows } }).mover.front = t.front + t.rows := by
    cases g <;> rfl
  have phase : (setStep g none { s with mover := { s.mover with front := t.front + t.rows } }).mover.phase = s.mover.phase := by
    cases g <;> rfl
  obtain ⟨a, ha⟩ : ∃ a, setStep g none { s with mover := { s.mover with front := t.front + t.rows } } = a := ⟨_, rfl⟩
  rw [ha] at frame set front phase
  have freed := releaseHolds_eq (fun r => r == .step t.front) a
  obtain ⟨c, hc⟩ : ∃ c : State, { a with
    mark := { a.mark with unmarked := a.mark.unmarked + 1 }
    holds := a.holds.filter (fun h => !(h.reason == .step t.front))
    todo := a.todo ++ (a.holds.filter (fun h => h.reason == .step t.front)).map (fun h => Ev.release h.arrival) } = c := ⟨_, rfl⟩
  obtain ⟨d, hd⟩ : ∃ d : State, (match c.mark.state with
    | .initial => c
    | _ => refreshMark c) = d := ⟨_, rfl⟩
  have whole : retired g t s = endMigrate d := by
    unfold retired
    dsimp only
    rw [ha, freed, ← hd, ← hc]
  have same : d = refreshMark c := by
    rw [← hd]
    split
    next initial => exact (refreshMark_rest (.inr initial)).symm
    next => rfl
  have refreshed := refreshMark_frame c
  have mark : c.mark = { s.mark with unmarked := s.mark.unmarked + 1 } := by rw [← hc, frame]
  have mover : c.mover = a.mover := by rw [← hc]
  have moved : d.mover = a.mover := by rw [same, refreshed, mover]
  have growth : d.growthEnd = s.growthEnd := by rw [same, refreshed, ← hc, frame]; rfl
  rw [whole, endMigrate_eq, moved, phase, front, growth]
  refine ⟨?_, ?_, front, rfl, ?_, ?_, ?_, fun rest => ?_, fun moving => ?_⟩
  · rw [same, refreshed, ← hc, frame]
  · have steps (p : Phase) (x : Staging) : State.stepIn { d with mover := { a.mover with phase := p } } x = a.stepIn x := by
      cases x <;> rfl
    exact ⟨(steps _ g).trans set.1, fun h ne => (steps _ h).trans (set.2 h ne)⟩
  · rw [same, refreshed, ← hc, frame]; rfl
  · rw [same, refreshed, ← hc, frame]
  · rw [same, refreshed, mark]
  · show d.mark.state = _
    rw [same, refreshMark_rest (by rw [mark]; exact rest), mark]
  · have state : d.mark.state = if c.mover.front = c.mark.front ∧ c.atRest = true then .clean else .dirty := by
      rw [same]
      exact refreshMark_state (by rw [mark]; exact moving)
    have rest : c.atRest = true ↔ ∀ h v, h ≠ g → s.stepIn h = some v →
        v.stage ≠ .freeze ∧ v.stage ≠ .spill ∧ v.stage ≠ .place ∧ v.stage ≠ .mark := by
      rw [atRest_iff]
      have steps (h : Staging) : c.stepIn h = a.stepIn h := by
        unfold State.stepIn
        rw [mover]
      constructor
      · intro all h v ne hv
        exact all h v ((steps h).trans ((set.2 h ne).trans hv))
      · intro others h v hv
        rw [steps] at hv
        by_cases e : h = g
        · subst e
          rw [set.1] at hv
          cases hv
        · exact others h v e ((set.2 h e).symm.trans hv)
    show (d.mark.state = .clean ↔ _) ∧ (d.mark.state = .clean ∨ d.mark.state = .dirty)
    rw [state, ← rest, mover, front, mark]
    by_cases clean : t.front + t.rows = s.mark.front ∧ c.atRest = true
    · rw [if_pos clean]
      exact ⟨iff_of_true rfl clean, .inl rfl⟩
    · rw [if_neg clean]
      exact ⟨iff_of_false (by decide) clean, .inr rfl⟩

theorem placed_due {s : State} {l : Layout} {g : Staging} {t : Step} (ht : s.stepIn g = some t) (due : s.markDue t = true) :
    ∃ u, endPlace g t l s = u ∧ PlaceEnded t s { u with mover := s.mover, mark := s.mark }
      ∧ StepSet g (some { t with stage := .mark, handed := false, outstanding := 0 }) s u
      ∧ u = { s with
          locks := u.locks, win := u.win, integ := u.integ, mover := u.mover, mark := { s.mark with causes := u.mark.causes } }
      ∧ u.mover.front = s.mover.front ∧ u.mover.phase = s.mover.phase
      ∧ (∃ c ∈ u.mark.causes, c.kind = .step (t.front + t.rows) ∧ c.served = false)
      ∧ ∀ c, c.kind ≠ .step (t.front + t.rows) → (c ∈ u.mark.causes ↔ c ∈ s.mark.causes) := by
  have ended := placeEnded_ends t l s
  have same : (placeEnded t l s).markDue t = true := ended.markDue.trans due
  have runs : endPlace g t l s = raiseCause (.step (t.front + t.rows)) (updStep g (Step.enter .mark) (placeEnded t l s)) := if_pos same
  obtain ⟨p, hp⟩ : ∃ p, placeEnded t l s = p := ⟨_, rfl⟩
  rw [hp] at ended runs
  have there : p.stepIn g = some t := by rw [ended.eq]; exact ht
  have mover : p.mover = s.mover := by rw [ended.eq]
  rw [updStep_at there] at runs
  have set := setStep_set g (some (t.enter .mark)) p
  have frame := setStep_frame g (some (t.enter .mark)) p
  have front : (setStep g (some (t.enter .mark)) p).mover.front = p.mover.front ∧ (setStep g (some (t.enter .mark)) p).mover.phase = p.mover.phase := by
    cases g <;> exact ⟨rfl, rfl⟩
  obtain ⟨q, hq⟩ : ∃ q, setStep g (some (t.enter .mark)) p = q := ⟨_, rfl⟩
  rw [hq] at runs set frame front
  obtain ⟨waits, others⟩ := raiseCause_causes (.step (t.front + t.rows)) q
  have raised := raiseCause_eq (.step (t.front + t.rows)) q
  obtain ⟨u, hu⟩ : ∃ u, raiseCause (.step (t.front + t.rows)) q = u := ⟨_, rfl⟩
  rw [hu] at runs waits others raised
  have mark : q.mark = s.mark := by rw [frame, ended.eq]
  refine ⟨u, runs, ?_, ?_, ?_, ?_, ?_, waits, fun c hc => (others c hc).trans (by rw [mark])⟩
  · have back : ({ u with mover := s.mover, mark := s.mark } : State) = p := by
      rw [raised, frame, ended.eq]
    rw [back]
    exact ended
  · have steps (x : Staging) : p.stepIn x = s.stepIn x := by
      unfold State.stepIn
      rw [mover]
    refine StepSet.congr (u := q) ⟨set.1, fun h ne => (set.2 h ne).trans (steps h)⟩ ?_
    rw [raised]
  · rw [raised, frame, ended.eq]
  · rw [raised]
    exact front.1.trans (by rw [mover])
  · rw [raised]
    exact front.2.trans (by rw [mover])

/-- The end of PLACE without a mark due. -/
theorem placed_retires {s : State} {l : Layout} {g : Staging} {t : Step} (due : ¬s.markDue t = true) :
    ∃ p w, endPlace g t l s = (if w.counts = s.ctl.lastReport then w else reportCounts w) ∧ PlaceEnded t s p ∧ Retires g t p w := by
  have ended := placeEnded_ends t l s
  have same : ¬(placeEnded t l s).markDue t = true := mt ended.markDue.symm.trans due
  have runs : endPlace g t l s = retire g t false (placeEnded t l s) := if_neg same
  have retires := retired_retires g t (placeEnded t l s)
  have reports := retire_eq g t (placeEnded t l s)
  have report : (retired g t (placeEnded t l s)).ctl.lastReport = s.ctl.lastReport := by
    rw [retires.eq, ended.eq]
  rw [report] at reports
  exact ⟨placeEnded t l s, retired g t (placeEnded t l s), runs.trans reports, ended, retires⟩

/-- Settles O45: the four rules of a step behind FREEZE, its PLACE's end by whether a mark is due. -/
theorem spillPlaceRetire : Obligations.SpillPlaceRetire := by
  intro s l g t written ht others step
  refine ⟨fun stage alone => ⟨fun handed => ?_, ruleSpill_waits written ht stage alone, ruleSpill_asks written ht stage alone,
      fun asked flight => ?_, fun asked flight => ?_, fun r ended => ruleSpillRecord_places ht ended, fun r n writing => ?_⟩,
    fun stage alone => ⟨fun handed => ⟨fun kind w => mem_placeWrites kind, ?_, fun free => ?_⟩, fun handed ended own => ?_⟩⟩
  · obtain ⟨u, runs, set, frame⟩ := ruleSpill_hands written ht stage alone handed
    exact ⟨u, s.presentPositions l, runs, fun p i => mem_presentPositions, presentPositions_pairwise s l, set, frame⟩
  · unfold ruleSpillRecord
    rw [asked]
    cases inFlight : s.mark.flight with
    | none => exact absurd inFlight flight
    | some f => rfl
  · obtain ⟨u, targets, runs, mem, frame⟩ := ruleSpillRecord_hands written ht asked flight
    exact ⟨u, targets, runs, mem, frame⟩
  · unfold ruleSpillRecord
    simp only [writing]
  · rintro ⟨w, hw, read⟩
    exact rulePlace_held written ht stage handed alone ⟨w, hw, readOn_iff.mpr read⟩
  · refine rulePlace_hands written ht stage handed alone fun w hw read => ?_
    obtain ⟨op, hop, owner, slot, below, above⟩ := readOn_iff.mp read
    exact free w hw op hop owner slot below above
  · intro due kept
    have found : s.steps.find? (fun p => p.2.stage == .place && p.2.handed && p.2.outstanding == 0 && !p.2.restore) = some (g, t) :=
      find?_stage (by simp [stage, handed, ended, own]) ht (fun x h => by
        simp only [Bool.and_eq_true, beq_iff_eq] at h
        exact h.1.1.1) alone
    have runs : rulePlaced s = some (endPlace g t l s) := by
      unfold rulePlaced
      rw [found, written]
    refine ⟨fun h => ?_, fun h => ?_⟩
    · obtain ⟨u, eq, ends, set, frame, front, phase, waits, causes⟩ := placed_due (l := l) ht (markDue_iff.mpr h)
      have holds : u.holds = s.holds := by rw [frame]
      have todo : u.todo = s.todo := by rw [frame]
      have mark : u.mark = { s.mark with causes := u.mark.causes } := by rw [frame]
      refine ⟨u, runs.trans (congrArg some eq), ⟨?_, ends.quiet, ends.loud, ends.kept, ends.gone⟩, set, front, phase, holds, todo,
        mark, waits, causes⟩
      have integ : u.integ = { s.integ with capture := u.integ.capture, counts := u.integ.counts } := congrArg (·.integ) ends.eq
      refine frame.trans ?_
      rw [holds, todo, ← mark, ← integ]
    · obtain ⟨p, w, eq, ends, retires⟩ := placed_retires (g := g) (l := l) (mt markDue_iff.mp h)
      have locks : w.locks = p.locks := by rw [retires.eq]
      have win : w.win = p.win := by rw [retires.eq]
      have integ : w.integ = p.integ := by rw [retires.eq]
      have growth : p.growthEnd = s.growthEnd := by rw [ends.eq]; rfl
      have steps (x : Staging) : p.stepIn x = s.stepIn x := by rw [ends.eq]; rfl
      have mark : p.mark = s.mark := by rw [ends.eq]
      have phase := retires.phase
      have holds := retires.holds
      have todo := retires.todo
      have marks := retires.mark
      have resting := retires.resting
      have moving := retires.moving
      have before : p.mover = s.mover ∧ p.holds = s.holds ∧ p.todo = s.todo := by rw [ends.eq]; exact ⟨rfl, rfl, rfl⟩
      rw [before.1, growth] at phase
      rw [before.2.1] at holds todo
      rw [before.2.2] at todo
      rw [mark] at marks resting moving
      simp only [steps] at moving
      refine ⟨_, w, runs, eq, ⟨?_, ?_, ?_, ?_, ?_⟩, retires.set.1, fun x ne => (retires.set.2 x ne).trans (steps x), retires.front,
        fun migrate last => phase.trans (if_pos ⟨migrate, last⟩), fun no => phase.trans (if_neg no), holds, todo, marks, resting,
        moving⟩
      · refine retires.eq.trans ?_
        rw [locks, win, integ]
        conv_lhs => rw [ends.eq]
      · rw [win, integ]
        exact ends.quiet
      · rw [win, integ]
        exact ends.loud
      · rw [locks]
        exact ends.kept
      · rw [locks]
        exact ends.gone
end Sys2Proof.Machine
end

