-- ==== Sys2Proof/Proofs/Freezing.lean ====
section
/-! PROOFS. FREEZE, the rows a step builds, and the pre-place decision (R52, R56, R57, R67 to R70, R79, R87, R88). -/

namespace Sys2Proof.Machine

/-! ## When a step freezes (R56) -/

theorem Fetch.done_iff {f : Fetch} : f.done = true ↔ (∀ x ∈ f.cells, ∀ id, x.2 ≠ .waiting id)
    ∧ ∀ c ∈ f.wanted, ∃ v, f.at c = some v ∧ v ≠ .bad ∧ ∀ id, v ≠ .waiting id := by
  unfold Fetch.done
  rw [Bool.and_eq_true, List.all_eq_true, List.all_eq_true]
  refine and_congr (forall₂_congr fun x _ => ?_) (forall₂_congr fun c _ => ?_)
  · cases x.2 <;> simp
  · cases f.at c with
    | none => simp
    | some v => cases v <;> simp [CellState.final]

theorem gathered_iff {t : Step} (kind : t.kind ≠ .none) : t.gathered = true ↔ (t.kind = .settle → t.granted = true)
    ∧ (t.kind = .migrate ∨ t.kind = .rebuild →
        (∀ x ∈ t.fetch.cells, ∀ id, x.2 ≠ .waiting id)
        ∧ ∀ c ∈ t.fetch.wanted, ∃ v, t.fetch.at c = some v ∧ v ≠ .bad ∧ ∀ id, v ≠ .waiting id) := by
  rw [← Fetch.done_iff]
  unfold Step.gathered
  cases h : t.kind <;> simp_all

/-- A row of a host write that contains a block of a step. -/
theorem meetsRow_iff {t : Step} {w : RowWork} (range : t.first < t.stop ∨ t.kind ≠ .migrate) (wide : 1 ≤ w.layout.rowBlocks) :
    t.meetsRow w = true ↔ (t.kind = .migrate ∧ ∃ b, t.first ≤ b ∧ b < t.stop ∧ w.row * w.layout.rowBlocks ≤ b
        ∧ b < (w.row + 1) * w.layout.rowBlocks)
      ∨ (t.kind = .rebuild ∧ t.front ≤ w.row ∧ w.row < t.front + t.rows) := by
  unfold Step.meetsRow
  cases h : t.kind with
  | migrate =>
    have lt : t.first < t.stop := range.resolve_right (not_not_intro h)
    have row : (w.row + 1) * w.layout.rowBlocks = w.row * w.layout.rowBlocks + w.layout.rowBlocks := Nat.succ_mul _ _
    rw [row]
    simp only [Bool.and_eq_true, decide_eq_true_eq, true_and, reduceCtorEq, false_and, or_false]
    constructor
    · rintro ⟨below, above⟩
      exact ⟨max t.first (w.row * w.layout.rowBlocks), by omega, by omega, by omega, by omega⟩
    · rintro ⟨b, h1, h2, h3, h4⟩
      omega
  | rebuild => simp
  | settle | form | none => simp

theorem finishedAs_none {w : RowWork} : w.finishedAs = none ↔ ∀ o, w.stage ≠ .finished o := by
  unfold RowWork.finishedAs
  cases w.stage <;> simp

theorem ofHostWrite_iff {o : Owner} : o.ofHostWrite = true ↔ ∃ a k, o = .hostWriteRead a k ∨ o = .hostWriteWrite a k := by
  cases o <;> simp [Owner.ofHostWrite]

theorem readAt_some {s : State} {t : Step} {i : Slot} {rows : List Nat} : (!(s.readAt t i rows).isEmpty) = true ↔
    ∃ row ∈ rows, ∃ x ∈ t.readSet, x.row = row ∧ s.bayAt t.fetch.layout x.row x.pos = some i := by
  rw [Bool.not_eq_true', List.isEmpty_eq_false_iff_exists_mem]
  simp only [mem_readAt]
  constructor
  · rintro ⟨x, mem, row, bay⟩
    exact ⟨x.row, row, x, mem, rfl, bay⟩
  · rintro ⟨row, mem, x, hx, rfl, bay⟩
    exact ⟨x, hx, mem, bay⟩

theorem hostWriteOn_iff {s : State} {t : Step} : s.hostWriteOn t = false ↔
    (∀ op ∈ s.allOps, (∃ a k, op.owner = .hostWriteRead a k ∨ op.owner = .hostWriteWrite a k) → ∀ row ∈ s.rowsOf op,
        ¬∃ x ∈ t.readSet, x.row = row ∧ s.bayAt t.fetch.layout x.row x.pos = some op.slot)
      ∧ ∀ f ∈ s.integ.fills, (∃ a k, f.failed.owner = .hostWriteRead a k ∨ f.failed.owner = .hostWriteWrite a k) →
        ¬∃ x ∈ t.readSet, x.row = f.row ∧ s.bayAt t.fetch.layout x.row x.pos = some f.slot := by
  unfold State.hostWriteOn
  simp only [Bool.or_eq_false_iff, List.any_eq_false, List.mem_filter, ofHostWrite_iff, readAt_some, and_imp]
  refine and_congr (forall₃_congr fun op _ _ => ?_) (forall₃_congr fun f _ _ => ?_)
  · simp only [not_exists, not_and]
  · simp only [List.mem_singleton, exists_eq_left, not_exists, not_and]

theorem writeMeets_iff {s : State} {t : Step} (range : t.first < t.stop ∨ t.kind ≠ .migrate)
    (wide : ∀ e ∈ s.port.entries, ∀ w ∈ e.rows, 1 ≤ w.layout.rowBlocks) : s.writeMeets t = false ↔
    ∀ e ∈ s.port.entries, ∀ w ∈ e.rows, (∀ o, w.stage ≠ .finished o) →
      ¬((t.kind = .migrate ∧ ∃ b, t.first ≤ b ∧ b < t.stop ∧ w.row * w.layout.rowBlocks ≤ b ∧ b < (w.row + 1) * w.layout.rowBlocks)
        ∨ (t.kind = .rebuild ∧ t.front ≤ w.row ∧ w.row < t.front + t.rows)) := by
  unfold State.writeMeets
  simp only [List.any_eq_false, Bool.not_eq_true]
  refine forall₂_congr fun e he => forall₂_congr fun w hw => ?_
  rw [← meetsRow_iff range (wide e he w hw), ← finishedAs_none, Bool.and_eq_false_iff]
  cases w.finishedAs <;> simp

/-- The last condition for the freeze of a step that gathers. -/
theorem mayFreeze_iff {s : State} {t : Step} (stage : t.stage = .gather) (kind : t.kind ≠ .none) :
    s.mayFreeze t = true ↔ ((t.kind = .settle → t.granted = true) ∧ (t.kind = .migrate ∨ t.kind = .rebuild →
          (∀ x ∈ t.fetch.cells, ∀ id, x.2 ≠ .waiting id)
          ∧ ∀ c ∈ t.fetch.wanted, ∃ v, t.fetch.at c = some v ∧ v ≠ .bad ∧ ∀ id, v ≠ .waiting id))
      ∧ t.stained = [] ∧ (∀ h v, s.stepIn h = some v → v.stage ≠ .freeze ∧ v.stage ≠ .spill ∧ v.stage ≠ .place ∧ v.stage ≠ .mark)
      ∧ (t.kind = .migrate ∨ t.kind = .rebuild → s.writeMeets t = false ∧ s.hostWriteOn t = false) := by
  unfold State.mayFreeze
  simp only [Bool.and_eq_true, beq_iff_eq, stage, true_and, gathered_iff kind, List.isEmpty_iff, atRest_iff, and_assoc]
  refine and_congr_right fun _ => and_congr_right fun _ => and_congr_right fun _ => and_congr_right fun _ => ?_
  cases h : t.kind <;> simp_all

theorem find?_mayFreeze {s : State} {g : Staging} {t : Step} (ht : s.stepIn g = some t)
    (others : ∀ h v, h ≠ g → s.stepIn h = some v → v.stage ≠ .gather) :
    s.steps.find? (fun p => s.mayFreeze p.2) = if s.mayFreeze t = true then some (g, t) else none := by
  have gathers (v : Step) (h : s.mayFreeze v = true) : v.stage = .gather := by
    unfold State.mayFreeze at h
    simp only [Bool.and_eq_true, beq_iff_eq, and_assoc] at h
    exact h.1
  by_cases may : s.mayFreeze t = true
  · rw [if_pos may]
    exact find?_stage may ht (fun x h => gathers x.2 h) others
  · rw [if_neg may]
    refine find?_steps_none fun h v hv freezes => ?_
    by_cases e : h = g
    · subst e
      obtain rfl : t = v := Option.some.inj (ht.symm.trans hv)
      exact may freezes
    · exact others h v e hv (gathers v freezes)

/-! ## The rows a step builds (R17, R18, R56, R67 to R70) -/

/-- A staged unit is found by its row and position when no two entries of one unit differ. -/
theorem column_of {t : Step} {u : RowUnit} {bs : List Block} (mem : (u, bs) ∈ t.built)
    (keyed : ∀ x ∈ t.built, x.1 = u → x.2 = bs) : t.column u.pos u.row 1 = bs := by
  have one : t.column u.pos u.row 1 = ((t.built.find? (fun x => x.1 == u)).map (·.2)).getD [] := by
    simp [Step.column]
  rw [one]
  have some_ : (t.built.find? (fun x => x.1 == u)).isSome = true := List.find?_isSome.mpr ⟨(u, bs), mem, beq_self_eq_true u⟩
  obtain ⟨x, found⟩ := Option.isSome_iff_exists.mp some_
  rw [found]
  exact keyed x (List.mem_of_find?_eq_some found) (by simpa using List.find?_some found)

/-- The logical block of a data index at an offset of a row. -/
def Layout.lbaAt (l : Layout) (row d o : Nat) : Nat := row * l.rowBlocks + d * l.unit + o

/-- The unit of a row at a data index. -/
def Step.dataUnit (t : Step) (l : Layout) (row d : Nat) : List Block := l.offsets.map (fun o => (t.dataBlock (l.lbaAt row d o)).block)

def Step.parityUnit (t : Step) (l : Layout) (row : Nat) : List Block :=
  l.offsets.map (fun o => stagedParity ((List.range l.d).map (fun d => t.dataBlock (l.lbaAt row d o))))

theorem mem_buildRow {t : Step} {l : Layout} {row : Nat} {x : RowUnit × List Block} : x ∈ t.buildRow l row ↔
    (∃ d, d < l.d ∧ x = ({ row := row, pos := l.dataPos row d }, t.dataUnit l row d))
      ∨ x = ({ row := row, pos := l.parity row }, t.parityUnit l row) := by
  unfold Step.buildRow
  rw [List.mem_append, List.mem_map, List.mem_singleton]
  refine or_congr ?_ Iff.rfl
  constructor
  · rintro ⟨d, hd, rfl⟩
    exact ⟨d, List.mem_range.mp hd, rfl⟩
  · rintro ⟨d, hd, rfl⟩
    exact ⟨d, List.mem_range.mpr hd, rfl⟩

/-- The rows of a step built whole. -/
def Step.rowsBuilt (t : Step) (l : Layout) : List (RowUnit × List Block) :=
  (List.range t.rows).flatMap (fun i => t.buildRow l (t.front + i))

theorem mem_rowsBuilt {t : Step} {l : Layout} {x : RowUnit × List Block} : x ∈ t.rowsBuilt l ↔
    ∃ row, t.front ≤ row ∧ row < t.front + t.rows ∧ x ∈ t.buildRow l row := by
  unfold Step.rowsBuilt
  rw [List.mem_flatMap]
  constructor
  · rintro ⟨i, hi, hx⟩
    exact ⟨t.front + i, by omega, by have := List.mem_range.mp hi; omega, hx⟩
  · rintro ⟨row, low, high, hx⟩
    exact ⟨row - t.front, List.mem_range.mpr (by omega), by rwa [Nat.add_sub_cancel' low]⟩

theorem column_data {t v : Step} {l : Layout} (two : 2 ≤ l.n) (built : v.built = t.rowsBuilt l) {row d : Nat} (low : t.front ≤ row)
    (high : row < t.front + t.rows) (hd : d < l.d) : v.column (l.dataPos row d) row 1 = t.dataUnit l row d := by
  refine column_of (u := { row := row, pos := l.dataPos row d }) ?_ fun x hx key => ?_
  · rw [built]
    exact mem_rowsBuilt.mpr ⟨row, low, high, mem_buildRow.mpr (.inl ⟨d, hd, rfl⟩)⟩
  · rw [built] at hx
    obtain ⟨r, -, -, hx⟩ := mem_rowsBuilt.mp hx
    rcases mem_buildRow.mp hx with ⟨e, he, rfl⟩ | rfl
    · obtain ⟨rfl, pos⟩ := RowUnit.mk.inj key
      have same : e = d := by rw [← l.dataIndex_dataPos two r he, ← l.dataIndex_dataPos two r hd, pos]
      rw [same]
    · obtain ⟨rfl, pos⟩ := RowUnit.mk.inj key
      exact absurd pos.symm (Layout.dataPos_ne_parity two r hd)

theorem column_parity {t v : Step} {l : Layout} (two : 2 ≤ l.n) (built : v.built = t.rowsBuilt l) {row : Nat} (low : t.front ≤ row)
    (high : row < t.front + t.rows) : v.column (l.parity row) row 1 = t.parityUnit l row := by
  refine column_of (u := { row := row, pos := l.parity row }) ?_ fun x hx key => ?_
  · rw [built]
    exact mem_rowsBuilt.mpr ⟨row, low, high, mem_buildRow.mpr (.inr rfl)⟩
  · rw [built] at hx
    obtain ⟨r, -, -, hx⟩ := mem_rowsBuilt.mp hx
    rcases mem_buildRow.mp hx with ⟨e, he, rfl⟩ | rfl
    · obtain ⟨rfl, pos⟩ := RowUnit.mk.inj key
      exact absurd pos (Layout.dataPos_ne_parity two r he)
    · obtain ⟨rfl, -⟩ := RowUnit.mk.inj key
      rfl

theorem build_rows {t : Step} {s : State} {l : Layout} (kind : t.kind ≠ .rebuild) : (t.build s l).built = t.rowsBuilt l
    ∧ (t.build s l).lost = if t.kind == .migrate then t.lostPlaces l else [] := by
  unfold Step.build
  dsimp only
  rw [if_neg (by simpa using kind)]
  exact ⟨rfl, rfl⟩

theorem build_rebuild {t : Step} {s : State} {l : Layout} (kind : t.kind = .rebuild) :
    (t.build s l).built = t.source.map (fun u => (u, (l.unitCells u).map (t.columnBlock s l))) := by
  unfold Step.build
  dsimp only
  rw [if_pos (by simpa using kind)]

theorem build_frame (t : Step) (s : State) (l : Layout) : t.build s l = { t with
    stage := .freeze, built := (t.build s l).built, lost := (t.build s l).lost, repairs := (t.build s l).repairs
    fetch := (t.build s l).fetch } := by
  unfold Step.build
  dsimp only
  split <;> rfl

/-- A unit a REBUILD step has, block by block. -/
theorem column_rebuild {t v : Step} {s : State} {l : Layout} {x : RowUnit}
    (built : v.built = t.source.map (fun u => (u, (l.unitCells u).map (t.columnBlock s l)))) (hx : x ∈ t.source) {o : Nat}
    (ho : o < l.unit) : (v.column x.pos x.row 1)[o]? = some (t.columnBlock s l { row := x.row, pos := x.pos, off := o }) := by
  have column : v.column x.pos x.row 1 = (l.unitCells x).map (t.columnBlock s l) := by
    refine column_of (u := x) (by rw [built]; exact List.mem_map.mpr ⟨x, hx, rfl⟩) fun y hy key => ?_
    rw [built] at hy
    obtain ⟨u, -, rfl⟩ := List.mem_map.mp hy
    rw [show u = x from key]
  rw [column]
  simp [Layout.unitCells, Layout.offsets, ho]

theorem columnBlock_held {t : Step} {s : State} {l : Layout} {c : Cell} {b : Block}
    (h : t.fetch.at c = some (.got b) ∨ t.fetch.at c = some (.rebuilt b) ∨ t.fetch.at c = some (.poison b)) :
    t.columnBlock s l c = b := by
  unfold Step.columnBlock
  rcases h with h | h | h <;> rw [h]

theorem columnBlock_lost {t : Step} {s : State} {l : Layout} {c : Cell} {k : Bool} (h : t.fetch.at c = some (.lost k)) :
    t.columnBlock s l c = if c.pos = l.parity c.row then t.repairParity s l c else poisonBlock := by
  unfold Step.columnBlock
  rw [h]
  simp only [beq_iff_eq]

/-- The parity of a row's data as it stands, poison and what is not to be had counting as zero. -/
theorem repairParity_eq (t : Step) (s : State) (l : Layout) (c : Cell) : t.repairParity s l c
    = parityBlock ((l.dataPositions c.row).map (fun p => match Fetch.knows s t.fetch { c with pos := p } with
        | .known false b => (b.data, b.app)
        | _ => (zeroData, 0#16))) := by
  unfold Step.repairParity stagedParity Layout.dataCells
  rw [List.map_map, List.map_map]
  congr 2
  funext p
  dsimp only [Function.comp]
  unfold Step.standing
  cases Fetch.knows s t.fetch { c with pos := p } with
  | known q b => cases q <;> rfl
  | absent | waits | fails => rfl

/-- What a data place has: whether it is poison, and its block. -/
theorem dataBlock_eq (t : Step) (a : Nat) : ((t.dataBlock a).poison, (t.dataBlock a).block) =
    if t.kind = .migrate ∧ a < t.stop then
      match t.fetch.at (t.fetch.layout.cellOf a) with
      | some (.got b) => (false, b)
      | some (.rebuilt b) => (false, b)
      | some (.poison b) => (true, b)
      | _ => (true, poisonBlock)
    else (false, zeroBlock a) := by
  unfold Step.dataBlock
  by_cases h : t.kind = .migrate ∧ a < t.stop
  · rw [if_pos (by simpa using h), if_pos h]
    cases t.fetch.at (t.fetch.layout.cellOf a) with
    | none => rfl
    | some v => cases v <;> rfl
  · rw [if_neg (by simpa using h), if_neg h]

theorem dataBlock_lost {t : Step} {a : Nat} (kind : t.kind = .migrate) (lt : a < t.stop) : (t.dataBlock a).lost = true ↔
    ∀ b, t.fetch.at (t.fetch.layout.cellOf a) ≠ some (.got b) ∧ t.fetch.at (t.fetch.layout.cellOf a) ≠ some (.rebuilt b)
      ∧ t.fetch.at (t.fetch.layout.cellOf a) ≠ some (.poison b) := by
  unfold Step.dataBlock
  rw [if_pos (by simp [kind, lt])]
  cases t.fetch.at (t.fetch.layout.cellOf a) with
  | none => simp [stagedOf]
  | some v => cases v <;> simp [stagedOf]

theorem mem_lostPlaces {t : Step} {l : Layout} (kind : t.kind = .migrate) {c : Cell} : c ∈ t.lostPlaces l ↔
    ∃ a, t.first ≤ a ∧ a < t.stop ∧ c = l.cellOf a
      ∧ ∀ b, t.fetch.at (t.fetch.layout.cellOf a) ≠ some (.got b) ∧ t.fetch.at (t.fetch.layout.cellOf a) ≠ some (.rebuilt b)
        ∧ t.fetch.at (t.fetch.layout.cellOf a) ≠ some (.poison b) := by
  unfold Step.lostPlaces runOf
  simp only [List.mem_map, List.mem_filter, List.mem_range]
  constructor
  · rintro ⟨a, ⟨⟨k, hk, rfl⟩, lost⟩, rfl⟩
    have lt : t.first + k < t.stop := by omega
    exact ⟨t.first + k, by omega, lt, rfl, (dataBlock_lost kind lt).mp lost⟩
  · rintro ⟨a, low, high, rfl, lost⟩
    exact ⟨a, ⟨⟨a - t.first, by omega, by omega⟩, (dataBlock_lost kind high).mpr lost⟩, rfl⟩

/-! ## The pre-place decision (R57, R87, R88) -/

section deciding
variable {s : State} {g : Staging} {t : Step} (ht : s.stepIn g = some t) (stage : t.stage = .freeze)
  (others : ∀ h v, h ≠ g → s.stepIn h = some v → v.stage ≠ .freeze)

/-- A step that must spill: a MIGRATE step whose last row is not below the safe row of the mark. -/
def State.mustSpill (s : State) (t : Step) : Bool := t.kind == .migrate && s.safeRow.any (· ≤ t.front + t.rows - 1)

theorem mustSpill_iff (rows : 1 ≤ t.rows) : s.mustSpill t = true ↔
    t.kind = .migrate ∧ ∃ o n, s.growing = some (o, n) ∧ s.mark.front * n.d / o.d < t.front + t.rows := by
  unfold State.mustSpill State.safeRow safeRowOf
  cases growing : s.growing with
  | none => simp
  | some p =>
    obtain ⟨o, n⟩ := p
    simp only [Option.map_some, Option.any_some, Bool.and_eq_true, beq_iff_eq, decide_eq_true_eq, Option.some.injEq, Prod.mk.injEq]
    refine and_congr_right fun _ => ⟨fun h => ⟨o, n, ⟨rfl, rfl⟩, by omega⟩, ?_⟩
    rintro ⟨o', n', ⟨rfl, rfl⟩, lt⟩
    omega

include ht stage others

theorem ruleDecide_eq : ruleDecide s =
    if s.mustSpill t then
      if s.mark.front == t.front then
        some (updStep g (fun t => { t.enter .spill with spill := true })
          { s with mark := { s.mark with bar := some t.front } })
      else if s.mark.causes.any (fun c => c.kind == .forced t.front) then none
      else some (raiseCause (.forced t.front) s)
    else some (updStep g (Step.enter .place) s) := by
  have found : s.steps.find? (fun p => p.2.stage == .freeze) = some (g, t) :=
    find?_stage (by simpa using stage) ht (fun _ h => by simpa using h) others
  unfold ruleDecide
  rw [found]
  rfl

end deciding

/-- Settles O44: the freeze by its conditions, the rows built unit by unit, and the decision before PLACE. -/
theorem freezeAndDecide : Obligations.FreezeAndDecide := by
  refine ⟨?_, ?_⟩
  · intro s l g t written ht stage others finished meets reads writes have_
    refine ⟨fun kind range wide => ?_, fun u hu => ?_⟩
    · have freezes : (ruleFreeze s).isSome = true ↔ s.mayFreeze t = true := by
        unfold ruleFreeze
        rw [find?_mayFreeze ht others, written]
        by_cases may : s.mayFreeze t = true
        · rw [if_pos may]
          exact iff_of_true rfl may
        · rw [if_neg may]
          exact iff_of_false (by simp) may
      rw [freezes, mayFreeze_iff stage kind, writeMeets_iff range wide, hostWriteOn_iff]
    · have may : s.mayFreeze t = true := by
        by_contra no
        unfold ruleFreeze at hu
        rw [find?_mayFreeze ht others, if_neg no] at hu
        cases hu
      obtain ⟨m, hm⟩ : ∃ m, strikeReader (.step g) { s with mark := { s.mark with state := markFreeze s.mark.state } } = m := ⟨_, rfl⟩
      have runs : u = setStep g (some (t.build s l)) m := by
        unfold ruleFreeze at hu
        rw [find?_mayFreeze ht others, if_pos may, written] at hu
        rw [← hm]
        exact (Option.some.inj hu).symm
      have set := setStep_set g (some (t.build s l)) m
      have frame := setStep_frame g (some (t.build s l)) m
      rw [← runs] at set frame
      have marked : markFreeze s.mark.state = if s.mark.state = .off then .off else .dirty := by cases s.mark.state <;> rfl
      refine ⟨t.build s l, set.1, fun h ne => (set.2 h ne).trans (by rw [← hm]; rfl), build_frame t s l, ?_,
        fun kind two row low high o ho => ?_, fun migrate c => ?_, fun rebuild x hx o ho => ?_⟩
      · refine frame.trans ?_
        rw [← marked, ← hm]
        rfl
      · intro lba
        have staged (a : Nat) : ((t.dataBlock a).poison, (t.dataBlock a).block) = have_ a := dataBlock_eq t a
        have poison (a : Nat) : (t.dataBlock a).poison = (have_ a).1 := congrArg (·.1) (staged a)
        have block (a : Nat) : (t.dataBlock a).block = (have_ a).2 := congrArg (·.2) (staged a)
        have built := (build_rows (s := s) (l := l) kind).1
        refine ⟨fun d hd => ?_, ?_⟩
        · rw [column_data two built low high hd, ← block]
          simp [Step.dataUnit, Layout.offsets, ho, lba, Layout.lbaAt]
        · rw [column_parity two built low high]
          have sources : (List.range l.d).map (fun d =>
                if (have_ (lba d)).1 then (zeroData, 0#16) else ((have_ (lba d)).2.data, (have_ (lba d)).2.app))
              = ((List.range l.d).map (fun d => t.dataBlock (l.lbaAt row d o))).map (fun b => sourceOf b.poison b.block) := by
            rw [List.map_map]
            refine List.map_congr_left fun d _ => ?_
            show _ = sourceOf (t.dataBlock (lba d)).poison (t.dataBlock (lba d)).block
            rw [poison, block]
            rfl
          rw [sources]
          simp [Step.parityUnit, Layout.offsets, ho, stagedParity]
      · rw [(build_rows (by rw [migrate]; decide)).2, if_pos (by simpa using migrate)]
        exact mem_lostPlaces migrate
      · have built := build_rebuild (s := s) (l := l) rebuild
        rw [column_rebuild built hx ho]
        intro c
        exact ⟨fun b h => congrArg some (columnBlock_held h),
          fun k h ne => congrArg some ((columnBlock_lost h).trans (if_neg ne)),
          fun k h e => congrArg some ((columnBlock_lost h).trans ((if_pos e).trans (repairParity_eq t s l c)))⟩
  · intro s g t ht stage rows others mustSpill entered
    have decides := ruleDecide_eq ht stage others
    have must := mustSpill_iff (s := s) rows
    refine ⟨fun no => ?_, fun yes front => ?_, fun yes front new => ?_, fun yes front old => ?_⟩
    · rw [if_neg (mt must.mp no), updStep_at ht] at decides
      have set := setStep_set g (some (t.enter .place)) s
      exact ⟨_, decides, set.1, set.2, setStep_frame ..⟩
    · obtain ⟨m, hm⟩ : ∃ m : State, { s with mark := { s.mark with bar := some t.front } } = m := ⟨_, rfl⟩
      have there : m.stepIn g = some t := by rw [← hm]; exact ht
      rw [if_pos (must.mpr yes), if_pos (by simpa using front), hm, updStep_at there] at decides
      have set := setStep_set g (some { t.enter .spill with spill := true }) m
      refine ⟨_, decides, set.1, fun h ne => (set.2 h ne).trans (by rw [← hm]; rfl), ?_⟩
      refine (setStep_frame ..).trans ?_
      rw [← hm]
    · have none : ¬s.mark.causes.any (fun c => c.kind == .forced t.front) = true := by simpa using new
      rw [if_pos (must.mpr yes), if_neg (by simpa using front), if_neg none] at decides
      refine decides.trans ?_
      unfold raiseCause
      rw [if_neg none]
    · rw [if_pos (must.mpr yes), if_neg (by simpa using front), if_pos (by simpa using old)] at decides
      exact decides
end Sys2Proof.Machine
end

