-- ==== Sys2Proof/Proofs/Asking.lean ====
section
/-! PROOFS. What a step asks for when it begins and when it copies again: the READs of whole units, one for each, and the places
they are to fill (R51, R54, R68). -/

namespace Sys2Proof.Machine

/-! ## Handing over leaves roles as they are and takes one operation number -/

theorem enqueue_nextOp (op : MemberOp) (s : State) : (enqueue op s).shelf.nextOp = s.shelf.nextOp := by
  unfold enqueue
  dsimp only
  split <;> rfl

theorem handData_nextOp (op : MemberOp) (s : State) : (handData op s).shelf.nextOp = s.shelf.nextOp := by
  have struck (o : MemberOp) (s : State) : (strikeCovered o s).shelf = s.shelf := by
    unfold strikeCovered
    split <;> rfl
  have noted (o : MemberOp) (s : State) : (noteRepair o s).shelf = s.shelf := by
    unfold noteRepair
    split <;> rfl
  unfold handData
  dsimp only
  split
  · show (strikeCovered (redirect s op) s).shelf.nextOp = _
    rw [struck]
  · rw [enqueue_nextOp, noted, struck]

theorem handUnit_nextOp (i : Slot) (cls : OpClass) (unit row off : Nat) (kind : Nat → OpKind) (owner : Owner) (s : State) :
    (handUnit i cls unit row off kind owner s).shelf.nextOp = s.shelf.nextOp + 1 := handData_nextOp _ _

/-- Two states with the layouts, the front and the roles alike: positions are missing and bays hold them alike. -/
structure Placed (s t : State) : Prop where
  plan  : t.plan = s.plan
  mover : t.mover = s.mover
  role  : ∀ i, (t.bay i).role = (s.bay i).role

theorem Placed.refl (s : State) : Placed s s := ⟨rfl, rfl, fun _ => rfl⟩

theorem Placed.trans {s t u : State} (h : Placed s t) (g : Placed t u) : Placed s u :=
  ⟨g.plan.trans h.plan, g.mover.trans h.mover, fun i => (g.role i).trans (h.role i)⟩

theorem Placed.bayAt {s t : State} (h : Placed s t) : t.bayAt = s.bayAt := by
  funext l row pos
  unfold State.bayAt State.onIncoming
  rw [h.plan, h.mover]

theorem Placed.missingInRow {s t : State} (h : Placed s t) : t.missingInRow = s.missingInRow := by
  funext l row pos
  unfold State.missingInRow
  rw [h.bayAt]
  cases s.bayAt l row pos with
  | none => rfl
  | some i =>
    show t.roleMissing i = s.roleMissing i
    unfold State.roleMissing
    rw [h.role]

theorem handUnit_placed (i : Slot) (cls : OpClass) (unit row off : Nat) (kind : Nat → OpKind) (owner : Owner) (s : State) :
    Placed s (handUnit i cls unit row off kind owner s) := by
  have hands := (handUnit_hands i cls unit row off kind owner).self s
  refine ⟨by rw [hands]; rfl, by rw [hands]; rfl, fun j => ?_⟩
  have handed := handUnit_handed i cls unit row off kind owner s
  by_cases e : j = i
  · subst e
    exact handed.role
  · rw [handed.other j e]

/-! ## The places a fetch waits for -/

/-- The unit a place lies in, and the operation it waits for. -/
def waitsFor (x : Cell × CellState) : Option (RowUnit × Nat) :=
  match x.2 with
  | .waiting id => some ({ row := x.1.row, pos := x.1.pos }, id)
  | _ => none

theorem waitsFor_none {x : Cell × CellState} : waitsFor x = none ↔ ∀ id, x.2 ≠ .waiting id := by
  unfold waitsFor
  cases x.2 <;> simp

/-- A fetch with some place of a unit asked for or marked. -/
def Fetch.holds (f : Fetch) (w : RowUnit) : Bool := f.cells.any (fun x => x.1.row == w.row && x.1.pos == w.pos)

theorem holds_iff {f : Fetch} {w : RowUnit} : f.holds w = true ↔ ∃ x ∈ f.cells, x.1.row = w.row ∧ x.1.pos = w.pos := by
  simp [Fetch.holds]

theorem at_none_of_not_holds {f : Fetch} {w : RowUnit} (h : ¬f.holds w = true) (o : Nat) :
    f.at { row := w.row, pos := w.pos, off := o } = none := by
  unfold Fetch.at
  rw [Option.map_eq_none_iff, List.find?_eq_none]
  intro x hx same
  exact h (holds_iff.mpr ⟨x, hx, by simp_all⟩)

theorem at_append {f : Fetch} (more : List (Cell × CellState)) (c : Cell) :
    Fetch.at { f with cells := f.cells ++ more } c = (f.at c).or ((more.find? (·.1 == c)).map (·.2)) := by
  unfold Fetch.at
  dsimp only
  rw [List.find?_append]
  cases f.cells.find? (·.1 == c) <;> rfl

theorem eraseDups_flatMap_replicate {α : Type} [BEq α] [LawfulBEq α] {k : Nat} (hk : 1 ≤ k) : ∀ l : List α, l.Nodup →
    (l.flatMap (fun x => List.replicate k x)).eraseDups = l := by
  obtain ⟨j, rfl⟩ : ∃ j, k = j + 1 := ⟨k - 1, by omega⟩
  intro l
  induction l with
  | nil => exact fun _ => rfl
  | cons a l ih =>
    intro nodup
    obtain ⟨new, nodup⟩ := List.nodup_cons.mp nodup
    have others : (l.flatMap (fun x => List.replicate (j + 1) x)).filter (fun b => !b == a)
        = l.flatMap (fun x => List.replicate (j + 1) x) := by
      refine List.filter_eq_self.mpr fun b hb => ?_
      obtain ⟨x, hx, hb⟩ := List.mem_flatMap.mp hb
      rw [List.eq_of_mem_replicate hb]
      simpa using fun e : x = a => new (e ▸ hx)
    have own : (List.replicate j a).filter (fun b => !b == a) = [] := by simp
    rw [List.flatMap_cons, List.replicate_succ, List.cons_append, List.eraseDups_cons, List.filter_append, own, List.nil_append,
      others, ih nodup]

/-- The units and operations of READs that ask for whole units in turn. -/
def asked (first unit : Nat) (us : List RowUnit) : List (RowUnit × Nat) :=
  (us.zipIdx first).flatMap (fun x => List.replicate unit x)

theorem reading_eq {f : Fetch} {first unit : Nat} {us : List RowUnit} (h : f.cells.filterMap waitsFor = asked first unit us)
    (hu : 1 ≤ unit) (nodup : us.Nodup) : f.reading = us := by
  have units : f.cells.filterMap (fun x => match x.2 with
      | .waiting _ => some ({ row := x.1.row, pos := x.1.pos } : RowUnit)
      | _ => none) = (f.cells.filterMap waitsFor).map (·.1) := by
    rw [List.map_filterMap]
    refine List.filterMap_congr fun x _ => ?_
    unfold waitsFor
    cases x.2 <;> rfl
  have listed : ((us.zipIdx first).flatMap (fun x => List.replicate unit x)).map (·.1)
      = us.flatMap (fun w => List.replicate unit w) := by
    rw [List.map_flatMap]
    conv_rhs => rw [← List.zipIdx_map_fst first us, List.flatMap_map]
    simp only [List.map_replicate]
  unfold Fetch.reading
  refine (congrArg List.eraseDups (units.trans ?_)).trans (eraseDups_flatMap_replicate hu us nodup)
  rw [h]
  exact listed

theorem underWay_eq {f : Fetch} {first unit : Nat} {us : List RowUnit} (h : f.cells.filterMap waitsFor = asked first unit us)
    (hu : 1 ≤ unit) : f.underWay = us.length := by
  have ids : f.cells.filterMap (fun x => match x.2 with
      | .waiting op => some op
      | _ => none) = (f.cells.filterMap waitsFor).map (·.2) := by
    rw [List.map_filterMap]
    refine List.filterMap_congr fun x _ => ?_
    unfold waitsFor
    cases x.2 <;> rfl
  have listed : ((us.zipIdx first).flatMap (fun x => List.replicate unit x)).map (·.2)
      = (List.range' first us.length).flatMap (fun k => List.replicate unit k) := by
    rw [List.map_flatMap]
    conv_rhs => rw [← List.zipIdx_map_snd first us, List.flatMap_map]
    simp only [List.map_replicate]
  unfold Fetch.underWay
  refine (congrArg (fun l : List Nat => l.eraseDups.length) (ids.trans ?_)).trans
    ((congrArg List.length (eraseDups_flatMap_replicate hu (List.range' first us.length) List.nodup_range')).trans List.length_range')
  rw [h]
  exact listed

/-! ## Places marked as not to be had -/

theorem put_bad_waits {f : Fetch} {c : Cell} (quiet : ∀ x ∈ f.cells, x.1 = c → waitsFor x = none) :
    (f.put c .bad).cells.filterMap waitsFor = f.cells.filterMap waitsFor := by
  unfold Fetch.put
  split
  · dsimp only
    rw [List.filterMap_map]
    refine List.filterMap_congr fun x hx => ?_
    by_cases e : x.1 = c
    · rw [quiet x hx e, Function.comp, if_pos (by simpa using e)]
      rfl
    · simp [e]
  · dsimp only
    rw [List.filterMap_append]
    simp [waitsFor]

theorem put_frame (f : Fetch) (c : Cell) (v : CellState) : f.put c v = { f with cells := (f.put c v).cells } := by
  unfold Fetch.put
  split <;> rfl

theorem mem_put {f : Fetch} {c : Cell} {v : CellState} {x : Cell × CellState} (h : x ∈ (f.put c v).cells) : x = (c, v) ∨ x ∈ f.cells := by
  unfold Fetch.put at h
  split at h
  · obtain ⟨y, hy, rfl⟩ := List.mem_map.mp h
    by_cases e : (y.1 == c) = true
    · exact .inl (if_pos e)
    · exact .inr (by rw [if_neg e]; exact hy)
  · exact (List.mem_append.mp h).elim .inr (fun m => .inl (List.mem_singleton.mp m))

theorem put_holds {f : Fetch} {c : Cell} {v : CellState} {w : RowUnit} (h : f.holds w = true) : (f.put c v).holds w = true := by
  obtain ⟨x, hx, row, pos⟩ := holds_iff.mp h
  unfold Fetch.put
  split
  · by_cases e : (x.1 == c) = true
    · have same : x.1 = c := by simpa using e
      exact holds_iff.mpr ⟨(c, v), List.mem_map.mpr ⟨x, hx, if_pos e⟩, same ▸ row, same ▸ pos⟩
    · exact holds_iff.mpr ⟨x, List.mem_map.mpr ⟨x, hx, if_neg e⟩, row, pos⟩
  · exact holds_iff.mpr ⟨x, List.mem_append_left _ hx, row, pos⟩

/-- What marking the places of a unit as not to be had does, when no READ of them is under way. -/
structure Marked (u : RowUnit) (f v : Fetch) : Prop where
  fetch  : v = { f with cells := v.cells }
  waits  : v.cells.filterMap waitsFor = f.cells.filterMap waitsFor
  quiet  : ∀ x ∈ v.cells, x.1.row = u.row ∧ x.1.pos = u.pos → waitsFor x = none
  held   : ∀ w, v.holds w = true → f.holds w = true ∨ w = u
  holds  : ∀ w, f.holds w = true → v.holds w = true
  others : ∀ c : Cell, ({ row := c.row, pos := c.pos } : RowUnit) ≠ u → v.at c = f.at c

theorem Marked.refl {u : RowUnit} {f : Fetch} (quiet : ∀ x ∈ f.cells, x.1.row = u.row ∧ x.1.pos = u.pos → waitsFor x = none) :
    Marked u f f := ⟨rfl, rfl, quiet, fun _ h => .inl h, fun _ h => h, fun _ _ => rfl⟩

theorem Marked.put {u : RowUnit} {f v : Fetch} (h : Marked u f v) {c : Cell} (row : c.row = u.row) (pos : c.pos = u.pos) :
    Marked u f (v.put c .bad) where
  fetch := by rw [put_frame, h.fetch]
  waits := (put_bad_waits fun x hx e => h.quiet x hx ⟨by rw [e, row], by rw [e, pos]⟩).trans h.waits
  quiet x hx at_ := (mem_put hx).elim (fun e => by rw [e]; rfl) (fun m => h.quiet x m at_)
  held w hw := by
    obtain ⟨x, hx, hr, hp⟩ := holds_iff.mp hw
    rcases mem_put hx with rfl | hx
    · refine .inr ?_
      obtain ⟨wr, wp⟩ := w
      obtain ⟨ur, up⟩ := u
      simp_all
    · exact h.held w (holds_iff.mpr ⟨x, hx, hr, hp⟩)
  holds w hw := put_holds (h.holds w hw)
  others d hd := (Fetch.put_other v c d .bad (fun e => hd (by rw [e, row, pos]))).trans (h.others d hd)

theorem markBad_marks {l : Layout} {u : RowUnit} {f : Fetch}
    (quiet : ∀ x ∈ f.cells, x.1.row = u.row ∧ x.1.pos = u.pos → waitsFor x = none) : Marked u f (markBad (l.unitCells u) f) := by
  have all (cs : List Cell) : (∀ c ∈ cs, c.row = u.row ∧ c.pos = u.pos) → ∀ v, Marked u f v →
      Marked u f (cs.foldl (fun f c => f.put c .bad) v) := by
    induction cs with
    | nil => exact fun _ v h => h
    | cons c cs ih =>
      intro own v h
      obtain ⟨row, pos⟩ := own c List.mem_cons_self
      exact ih (fun d hd => own d (List.mem_cons_of_mem _ hd)) _ (h.put row pos)
  refine all (l.unitCells u) (fun c hc => ?_) f (Marked.refl quiet)
  obtain ⟨o, -, rfl⟩ := List.mem_map.mp hc
  exact ⟨rfl, rfl⟩

/-! ## Whole units asked for in turn (R51, R54) -/

/-- The READ of a whole unit handed to the bay that holds it. -/
def askUnit (owner : Owner) (m : Layout) (s x : State) (w : RowUnit) : State :=
  match s.bayAt m w.row w.pos with
  | some i => handUnit i .mover m.unit w.row 0 (fun b => .read b m.unit) owner x
  | none => x

theorem askUnit_placed (owner : Owner) (m : Layout) (s x : State) (w : RowUnit) : Placed x (askUnit owner m s x w) := by
  unfold askUnit
  split
  · exact handUnit_placed _ _ _ _ _ _ _ _
  · exact Placed.refl x

theorem askUnit_hands (owner : Owner) (m : Layout) (s : State) (w : RowUnit) : Hands (fun x => askUnit owner m s x w) := by
  unfold askUnit
  cases s.bayAt m w.row w.pos with
  | none => exact Hands.id
  | some i => exact handUnit_hands _ _ _ _ _ _ _

theorem foldl_askUnit_placed (owner : Owner) (m : Layout) (s : State) (us : List RowUnit) : ∀ x,
    Placed x (us.foldl (askUnit owner m s) x) := by
  induction us with
  | nil => exact Placed.refl
  | cons w us ih => exact fun x => (askUnit_placed owner m s x w).trans (ih _)

/-- What has become of a reader after some units have been asked for, each once and whole, and others marked as missing. -/
structure Asked (owner : Owner) (s : State) (f : Fetch) (us marks : List RowUnit) (p : State × Fetch) : Prop where
  state   : p.1 = us.foldl (askUnit owner f.layout s) s
  nextOp  : p.1.shelf.nextOp = s.shelf.nextOp + us.length
  fetch   : p.2 = { f with cells := p.2.cells }
  nodup   : us.Nodup
  present : ∀ w ∈ us, s.missingInRow f.layout w.row w.pos = false
  fresh   : ∀ w ∈ us, ¬f.holds w = true
  marked  : ∀ w ∈ marks, s.missingInRow f.layout w.row w.pos = true
  waits   : p.2.cells.filterMap waitsFor = asked s.shelf.nextOp f.layout.unit us
  held    : ∀ w, p.2.holds w = true → f.holds w = true ∨ w ∈ us ∨ w ∈ marks
  holds   : ∀ w, f.holds w = true ∨ w ∈ us → p.2.holds w = true
  waiting : ∀ w ∈ us, ∀ o, o < f.layout.unit → ∃ id, p.2.at { row := w.row, pos := w.pos, off := o } = some (.waiting id)
              ∧ s.shelf.nextOp ≤ id
  others  : ∀ c : Cell, ({ row := c.row, pos := c.pos } : RowUnit) ∉ us → ({ row := c.row, pos := c.pos } : RowUnit) ∉ marks →
              p.2.at c = f.at c

section asking
variable {owner : Owner} {s : State} {f : Fetch} {us marks : List RowUnit} {p : State × Fetch}

theorem Asked.begin (quiet : ∀ x ∈ f.cells, ∀ id, x.2 ≠ .waiting id) : Asked owner s f [] [] (s, f) where
  state := rfl
  nextOp := rfl
  fetch := rfl
  nodup := List.nodup_nil
  present _ hw := absurd hw List.not_mem_nil
  fresh _ hw := absurd hw List.not_mem_nil
  marked _ hw := absurd hw List.not_mem_nil
  waits := List.filterMap_eq_nil_iff.mpr fun x hx => waitsFor_none.mpr (quiet x hx)
  held _ h := .inl h
  holds _ h := h.resolve_right List.not_mem_nil
  waiting _ hw := absurd hw List.not_mem_nil
  others _ _ _ := rfl

theorem Asked.placed (h : Asked owner s f us marks p) : Placed s p.1 := by
  rw [h.state]
  exact foldl_askUnit_placed _ _ _ _ _

theorem Asked.layout (h : Asked owner s f us marks p) : p.2.layout = f.layout := by rw [h.fetch]

/-- A READ of a whole unit that no place has been asked of. -/
theorem readRun_unit {w : RowUnit} {i : Slot} {p : State × Fetch} (hi : p.1.bayAt p.2.layout w.row w.pos = some i)
    (new : ¬p.2.holds w = true) : readRun owner .mover w.row w.pos 0 p.2.layout.unit p
      = (handUnit i .mover p.2.layout.unit w.row 0 (fun b => .read b p.2.layout.unit) owner p.1,
         { p.2 with cells := p.2.cells ++ (p.2.layout.unitCells w).map (fun c => (c, .waiting p.1.shelf.nextOp)) }) := by
  have all : ((List.range p.2.layout.unit).map (fun o => ({ row := w.row, pos := w.pos, off := 0 + o } : Cell))).filter
      (fun c => (p.2.at c).isNone) = p.2.layout.unitCells w := by
    unfold Layout.unitCells Layout.offsets
    simp only [Nat.zero_add]
    refine List.filter_eq_self.mpr fun c hc => ?_
    obtain ⟨o, -, rfl⟩ := List.mem_map.mp hc
    rw [at_none_of_not_holds new]
    rfl
  unfold readRun
  dsimp only
  rw [hi, all]

theorem Asked.ask (h : Asked owner s f us marks p) (hu : 1 ≤ f.layout.unit) {w : RowUnit}
    (there : s.missingInRow f.layout w.row w.pos = false) (new : ¬p.2.holds w = true) :
    Asked owner s f (us ++ [w]) marks (readRun owner .mover w.row w.pos 0 p.2.layout.unit p) := by
  obtain ⟨i, hi⟩ : ∃ i, s.bayAt f.layout w.row w.pos = some i := by
    unfold State.missingInRow at there
    cases bay : s.bayAt f.layout w.row w.pos with
    | none => rw [bay] at there; cases there
    | some i => exact ⟨i, rfl⟩
  have bay : p.1.bayAt p.2.layout w.row w.pos = some i := by rw [h.placed.bayAt, h.layout, hi]
  have notIn : w ∉ us := fun m => new (h.holds w (.inr m))
  have reads : askUnit owner f.layout s p.1 w
      = handUnit i .mover f.layout.unit w.row 0 (fun b => .read b f.layout.unit) owner p.1 := by
    unfold askUnit
    rw [hi]
  have one : ∀ c ∈ f.layout.unitCells w, c.row = w.row ∧ c.pos = w.pos := by
    intro c hc
    obtain ⟨o, -, rfl⟩ := List.mem_map.mp hc
    exact ⟨rfl, rfl⟩
  rw [readRun_unit bay new, h.layout]
  exact {
    state := by
      rw [List.foldl_append, ← h.state]
      exact reads.symm
    nextOp := by
      show (handUnit _ _ _ _ _ _ _ _).shelf.nextOp = _
      rw [handUnit_nextOp, h.nextOp, List.length_append]
      rfl
    fetch := by
      show ({ p.2 with cells := _ } : Fetch) = _
      rw [h.fetch]
    nodup := List.nodup_append.mpr ⟨h.nodup, List.nodup_singleton w, fun a ha b hb e => notIn (by simp_all)⟩
    present := fun v hv => (List.mem_append.mp hv).elim (h.present v) (fun e => by rw [List.mem_singleton.mp e]; exact there)
    fresh := fun v hv => (List.mem_append.mp hv).elim (h.fresh v)
      (fun e => by rw [List.mem_singleton.mp e]; exact fun held => new (h.holds w (.inl held)))
    marked := h.marked
    waits := by
      show (p.2.cells ++ (f.layout.unitCells w).map (fun c => (c, CellState.waiting p.1.shelf.nextOp))).filterMap waitsFor = _
      have own : ((f.layout.unitCells w).map (fun c => (c, CellState.waiting p.1.shelf.nextOp))).filterMap waitsFor
          = List.replicate f.layout.unit (w, s.shelf.nextOp + us.length) := by
        rw [← h.nextOp, List.filterMap_map]
        simp [Function.comp_def, waitsFor, Layout.unitCells, Layout.offsets]
      rw [List.filterMap_append, h.waits, own]
      simp [asked, List.zipIdx_append]
    held := fun v hv => by
      obtain ⟨x, hx, row, pos⟩ := holds_iff.mp hv
      rcases List.mem_append.mp hx with hx | hx
      · exact (h.held v (holds_iff.mpr ⟨x, hx, row, pos⟩)).imp_right (Or.imp_left (List.mem_append_left _))
      · obtain ⟨c, hc, rfl⟩ := List.mem_map.mp hx
        obtain ⟨hr, hp⟩ := one c hc
        have same : v = w := by
          obtain ⟨r, q⟩ := v
          obtain ⟨r', q'⟩ := w
          simp_all
        exact .inr (.inl (by simp [same]))
    holds := fun v hv => by
      have old : f.holds v = true ∨ v ∈ us → Fetch.holds { p.2 with
          cells := p.2.cells ++ (f.layout.unitCells w).map (fun c => (c, CellState.waiting p.1.shelf.nextOp)) } v = true := fun held => by
        obtain ⟨x, hx, at_⟩ := holds_iff.mp (h.holds v held)
        exact holds_iff.mpr ⟨x, List.mem_append_left _ hx, at_⟩
      rcases hv with held | mem
      · exact old (.inl held)
      · rcases List.mem_append.mp mem with mem | mem
        · exact old (.inr mem)
        · rw [List.mem_singleton.mp mem]
          have first : ({ row := w.row, pos := w.pos, off := 0 } : Cell) ∈ f.layout.unitCells w :=
            List.mem_map.mpr ⟨0, List.mem_range.mpr hu, rfl⟩
          exact holds_iff.mpr ⟨_, List.mem_append_right _ (List.mem_map.mpr ⟨_, first, rfl⟩), rfl, rfl⟩
    waiting := fun v hv o ho => by
      rcases List.mem_append.mp hv with hv | hv
      · obtain ⟨id, at_, le⟩ := h.waiting v hv o ho
        exact ⟨id, by rw [at_append, at_]; rfl, le⟩
      · obtain rfl := List.mem_singleton.mp hv
        refine ⟨p.1.shelf.nextOp, ?_, by rw [h.nextOp]; omega⟩
        rw [at_append, at_none_of_not_holds new, Option.none_or, Option.map_eq_some_iff]
        have mem : ({ row := v.row, pos := v.pos, off := o } : Cell) ∈ f.layout.unitCells v := List.mem_map.mpr ⟨o, List.mem_range.mpr ho, rfl⟩
        have found : (((f.layout.unitCells v).map (fun c => (c, CellState.waiting p.1.shelf.nextOp))).find?
            (fun x => x.1 == { row := v.row, pos := v.pos, off := o })).isSome = true :=
          List.find?_isSome.mpr ⟨_, List.mem_map.mpr ⟨_, mem, rfl⟩, beq_self_eq_true _⟩
        obtain ⟨x, hx⟩ := Option.isSome_iff_exists.mp found
        obtain ⟨c, -, rfl⟩ := List.mem_map.mp (List.mem_of_find?_eq_some hx)
        exact ⟨_, hx, rfl⟩
    others := fun c hus hmarks => by
      rw [at_append, h.others c (fun m => hus (List.mem_append_left _ m)) hmarks]
      have nothing : ((f.layout.unitCells w).map (fun c => (c, CellState.waiting p.1.shelf.nextOp))).find? (fun x => x.1 == c) = none := by
        refine List.find?_eq_none.mpr fun x hx same => ?_
        obtain ⟨d, hd, rfl⟩ := List.mem_map.mp hx
        obtain ⟨hr, hp⟩ := one d hd
        have e : d = c := by simpa using same
        exact hus (List.mem_append_right _ (by rw [← e, hr, hp]; simp))
      rw [nothing]
      exact Option.or_none }

theorem Asked.mark (h : Asked owner s f us marks p) {u : RowUnit} (gone : s.missingInRow f.layout u.row u.pos = true) :
    Asked owner s f us (marks ++ [u]) (p.1, markBad (p.2.layout.unitCells u) p.2) := by
  have notIn : u ∉ us := fun m => by
    have := h.present u m
    rw [gone] at this
    cases this
  have quiet : ∀ x ∈ p.2.cells, x.1.row = u.row ∧ x.1.pos = u.pos → waitsFor x = none := by
    rintro x hx ⟨row, pos⟩
    cases waits : waitsFor x with
    | none => rfl
    | some y =>
      have mem : y ∈ p.2.cells.filterMap waitsFor := List.mem_filterMap.mpr ⟨x, hx, waits⟩
      rw [h.waits] at mem
      obtain ⟨z, hz, hy⟩ := List.mem_flatMap.mp mem
      have unit : y.1 = u := by
        unfold waitsFor at waits
        split at waits
        · obtain rfl := Option.some.inj waits
          obtain ⟨ur, up⟩ := u
          simp_all
        · cases waits
      have inUs : z.1 ∈ us := by
        have := List.mem_map_of_mem (f := Prod.fst) hz
        rwa [List.zipIdx_map_fst] at this
      rw [← List.eq_of_mem_replicate hy, unit] at inUs
      exact absurd inUs notIn
  have done := markBad_marks (l := p.2.layout) quiet
  exact {
    state := h.state
    nextOp := h.nextOp
    fetch := done.fetch.trans
      (congrArg (fun g : Fetch => { g with cells := (markBad (p.2.layout.unitCells u) p.2).cells }) h.fetch)
    nodup := h.nodup
    present := h.present
    fresh := h.fresh
    marked := fun w hw => (List.mem_append.mp hw).elim (h.marked w) (fun e => by rw [List.mem_singleton.mp e]; exact gone)
    waits := done.waits.trans h.waits
    held := fun w hw => by
      rcases done.held w hw with old | rfl
      · exact (h.held w old).imp_right (Or.imp_right (List.mem_append_left _))
      · exact .inr (.inr (by simp))
    holds := fun w hw => done.holds w (h.holds w hw)
    waiting := fun w hw o ho => by
      obtain ⟨id, at_, le⟩ := h.waiting w hw o ho
      exact ⟨id, (done.others _ (fun e => notIn (e ▸ hw))).trans at_, le⟩
    others := fun c hus hmarks => (done.others c (fun e => hmarks (by rw [e]; simp))).trans
      (h.others c hus (fun m => hmarks (List.mem_append_left _ m))) }

/-! ## Source units (R51, R68) -/

/-- Something to be asked for: a unit, or a missing unit marked as not to be had. -/
inductive Want where
  | ask (u : RowUnit)
  | mark (u : RowUnit)

def Want.marked : Want → Option RowUnit
  | .ask _ => none
  | .mark u => some u

@[simp] theorem marked_ask (u : RowUnit) (l : List Want) : (Want.ask u :: l).filterMap Want.marked = l.filterMap Want.marked := rfl

@[simp] theorem marked_mark (u : RowUnit) (l : List Want) :
    (Want.mark u :: l).filterMap Want.marked = u :: l.filterMap Want.marked := rfl

def Want.run (owner : Owner) (p : State × Fetch) : Want → State × Fetch
  | .ask u => readUnit owner u p
  | .mark u => (p.1, markBad (p.2.layout.unitCells u) p.2)

/-- Units asked for one by one: each that is not missing and not yet held is read once. -/
theorem foldl_wants (hu : 1 ≤ f.layout.unit) (wants : List Want) : ∀ us marks p, Asked owner s f us marks p →
    (∀ u, Want.mark u ∈ wants → s.missingInRow f.layout u.row u.pos = true) →
    ∃ more, Asked owner s f (us ++ more) (marks ++ wants.filterMap Want.marked) (wants.foldl (Want.run owner) p)
      ∧ ∀ u, u ∈ us ++ more ↔ u ∈ us
        ∨ (Want.ask u ∈ wants ∧ s.missingInRow f.layout u.row u.pos = false ∧ ¬f.holds u = true) := by
  induction wants with
  | nil => exact fun us marks p h _ => ⟨[], by simpa using h, by simp⟩
  | cons w wants ih =>
    intro us marks p h gone
    have rest : ∀ u, Want.mark u ∈ wants → s.missingInRow f.layout u.row u.pos = true :=
      fun u hu => gone u (List.mem_cons_of_mem _ hu)
    cases w with
    | mark u =>
      obtain ⟨more, asked, mem⟩ := ih us (marks ++ [u]) _ (h.mark (gone u List.mem_cons_self)) rest
      refine ⟨more, by simpa [Want.run] using asked, fun v => (mem v).trans ?_⟩
      simp
    | ask u =>
      have layout : p.2.layout = f.layout := h.layout
      by_cases skip : p.1.missingInRow p.2.layout u.row u.pos = true ∨ p.2.holds u = true
      · have same : readUnit owner u p = p := if_pos (by simpa [Fetch.holds] using skip)
        obtain ⟨more, asked, mem⟩ := ih us marks p h rest
        refine ⟨more, by simpa [Want.run, same] using asked, fun v => (mem v).trans (or_congr_right' fun new => ?_)⟩
        rw [List.mem_cons, Want.ask.injEq]
        refine and_congr_left fun ⟨there, unheld⟩ => (or_iff_right ?_).symm
        rintro rfl
        rcases skip with missing | held
        · rw [h.placed.missingInRow, layout, there] at missing
          cases missing
        · rcases h.held v held with old | mem | mem
          · exact unheld old
          · exact new mem
          · rw [h.marked v mem] at there
            cases there
      · obtain ⟨there, unheld⟩ := not_or.mp skip
        have read : readUnit owner u p = readRun owner .mover u.row u.pos 0 p.2.layout.unit p :=
          if_neg (by simpa [Fetch.holds] using skip)
        rw [h.placed.missingInRow, layout, Bool.not_eq_true] at there
        obtain ⟨more, asked, mem⟩ := ih (us ++ [u]) marks _ (h.ask hu there unheld) rest
        refine ⟨u :: more, by simpa [Want.run, read] using asked, fun v => ?_⟩
        have step := mem v
        rw [List.append_assoc, List.singleton_append] at step
        rw [step, List.mem_append, List.mem_singleton, List.mem_cons, Want.ask.injEq, or_assoc]
        refine or_congr_right ⟨?_, ?_⟩
        · rintro (rfl | ⟨wanted, fresh⟩)
          · exact ⟨.inl rfl, there, fun held => unheld (h.holds v (.inl held))⟩
          · exact ⟨.inr wanted, fresh⟩
        · rintro ⟨rfl | wanted, fresh⟩
          · exact .inl rfl
          · exact .inr ⟨wanted, fresh⟩

/-- A reader under the layout and with the bays it began with. -/
def Beside (s : State) (f : Fetch) (p : State × Fetch) : Prop := Placed s p.1 ∧ p.2.layout = f.layout

theorem run_beside (h : Beside s f p) (w : Want) : Beside s f (w.run owner p) := by
  obtain ⟨placed, layout⟩ := h
  cases w with
  | mark u =>
    refine ⟨placed, ?_⟩
    have all (cs : List Cell) : ∀ v : Fetch, (cs.foldl (fun f c => f.put c .bad) v).layout = v.layout := by
      induction cs with
      | nil => exact fun _ => rfl
      | cons c cs ih =>
        intro v
        rw [List.foldl_cons, ih, put_frame]
    exact (all _ _).trans layout
  | ask u =>
    show Beside s f (readUnit owner u p)
    unfold readUnit
    split
    · exact ⟨placed, layout⟩
    · unfold readRun
      dsimp only
      split
      · exact ⟨placed, layout⟩
      · have reads := fun i => handUnit_placed i .mover p.2.layout.unit u.row 0 (fun b => .read b p.2.layout.unit) owner p.1
        exact ⟨placed.trans (reads _), layout⟩

theorem foldl_run_beside (wants : List Want) : ∀ p, Beside s f p → Beside s f (wants.foldl (Want.run owner) p) := by
  induction wants with
  | nil => exact fun _ h => h
  | cons w wants ih => exact fun p h => ih _ (run_beside h w)

/-- Units asked for by lists of wants, one after the other. -/
theorem foldl_flatMap_wants {ask : RowUnit → State × Fetch → State × Fetch} {wants : RowUnit → List Want}
    (one : ∀ u p, Beside s f p → ask u p = (wants u).foldl (Want.run owner) p) (us : List RowUnit) : ∀ p, Beside s f p →
    us.foldl (fun p u => ask u p) p = (us.flatMap wants).foldl (Want.run owner) p := by
  induction us with
  | nil => exact fun _ _ => rfl
  | cons u us ih =>
    intro p h
    rw [List.foldl_cons, one u p h, List.flatMap_cons, List.foldl_append]
    exact ih _ (foldl_run_beside _ p h)

/-- What a source unit asks for: itself, or in place of a missing one the rest of its row. -/
def sourceWants (s : State) (m : Layout) (u : RowUnit) : List Want :=
  if s.missingInRow m u.row u.pos then
    ((List.range m.n).filter (· != u.pos)).map (fun k => .ask { row := u.row, pos := k }) ++ [.mark u]
  else [.ask u]

theorem readSource_wants (u : RowUnit) (p : State × Fetch) (h : Beside s f p) :
    readSource owner u p = (sourceWants s f.layout u).foldl (Want.run owner) p := by
  have missing : p.1.missingInRow p.2.layout u.row u.pos = s.missingInRow f.layout u.row u.pos := by
    rw [h.1.missingInRow, h.2]
  unfold readSource sourceWants
  rw [missing]
  split
  · rw [List.foldl_append, List.foldl_map, h.2]
    rfl
  · rfl

theorem mem_sourceWants_ask {m : Layout} {u v : RowUnit} : Want.ask v ∈ sourceWants s m u ↔
    (v = u ∧ s.missingInRow m u.row u.pos = false)
      ∨ (s.missingInRow m u.row u.pos = true ∧ v.pos < m.n ∧ u.row = v.row ∧ u.pos ≠ v.pos) := by
  unfold sourceWants
  by_cases gone : s.missingInRow m u.row u.pos = true
  · rw [if_pos gone]
    simp only [gone, List.mem_append, List.mem_map, List.mem_filter, List.mem_range, bne_iff_ne, Want.ask.injEq, List.mem_singleton,
      reduceCtorEq, or_false, and_false, false_or, true_and]
    constructor
    · rintro ⟨k, ⟨lt, ne⟩, rfl⟩
      exact ⟨lt, rfl, fun e => ne e.symm⟩
    · rintro ⟨lt, row, ne⟩
      exact ⟨v.pos, ⟨lt, fun e => ne e.symm⟩, by rw [row]⟩
  · rw [if_neg gone]
    simp [gone]

theorem mem_sourceWants_mark {m : Layout} {u v : RowUnit} : Want.mark v ∈ sourceWants s m u ↔
    v = u ∧ s.missingInRow m u.row u.pos = true := by
  unfold sourceWants
  by_cases gone : s.missingInRow m u.row u.pos = true
  · rw [if_pos gone]
    simp [gone]
  · rw [if_neg gone]
    simp [gone]

/-- The units a list of source units asks for at the beginning. -/
theorem foldl_readSource (hu : 1 ≤ f.layout.unit) (none_ : f.cells = []) (source : List RowUnit) :
    ∃ us marks, Asked owner s f us marks (source.foldl (fun p u => readSource owner u p) (s, f))
      ∧ ∀ v, v ∈ us ↔ s.missingInRow f.layout v.row v.pos = false ∧ (v ∈ source
          ∨ (v.pos < f.layout.n ∧ ∃ w ∈ source, w.row = v.row ∧ w.pos ≠ v.pos ∧ s.missingInRow f.layout w.row w.pos = true)) := by
  have quiet : ∀ x ∈ f.cells, ∀ id, x.2 ≠ .waiting id := by simp [none_]
  have unheld (u : RowUnit) : ¬f.holds u = true := by simp [Fetch.holds, none_]
  obtain ⟨us, asked, mem⟩ := foldl_wants (owner := owner) hu (source.flatMap (sourceWants s f.layout)) [] [] (s, f)
    (Asked.begin quiet) fun u hu => by
      obtain ⟨w, -, hw⟩ := List.mem_flatMap.mp hu
      obtain ⟨rfl, gone⟩ := mem_sourceWants_mark.mp hw
      exact gone
  rw [← foldl_flatMap_wants readSource_wants source (s, f) ⟨Placed.refl s, rfl⟩] at asked
  refine ⟨_, _, asked, fun v => (mem v).trans ?_⟩
  rw [and_iff_left (a := s.missingInRow f.layout v.row v.pos = false) (unheld v)]
  simp only [List.not_mem_nil, false_or, List.mem_flatMap, mem_sourceWants_ask]
  constructor
  · rintro ⟨⟨w, hw, ⟨rfl, -⟩ | ⟨gone, lt, row, ne⟩⟩, there⟩
    · exact ⟨there, .inl hw⟩
    · exact ⟨there, .inr ⟨lt, w, hw, row, ne, gone⟩⟩
  · rintro ⟨there, hv | ⟨lt, w, hw, row, ne, gone⟩⟩
    · exact ⟨⟨v, hv, .inl ⟨rfl, there⟩⟩, there⟩
    · exact ⟨⟨w, hw, .inr ⟨gone, lt, row, ne⟩⟩, there⟩

end asking
end Sys2Proof.Machine
end

