-- ==== Sys2Proof/Proofs/Recopies.lean ====
section
/-! PROOFS. Stains, recopies and pins of a step that gathers (R51, R53 to R55). -/

namespace Sys2Proof.Machine

/-! ## What a recopy forgets (R54) -/

/-- A place of a row with a stained unit that has been rebuilt or lost is to be made again. -/
def remade (us : List RowUnit) (c : Cell) : CellState → CellState
  | .rebuilt b => if us.any (·.row == c.row) then .bad else .rebuilt b
  | .lost o => if us.any (·.row == c.row) then .bad else .lost o
  | v => v

theorem forget_cells (f : Fetch) (us : List RowUnit) : (f.forget us).cells =
    (f.cells.filter (fun x => !us.contains { row := x.1.row, pos := x.1.pos })).map (fun x => (x.1, remade us x.1 x.2)) := by
  unfold Fetch.forget
  refine List.map_congr_left fun x _ => ?_
  obtain ⟨c, v⟩ := x
  cases v <;> simp only [remade] <;> split <;> rfl

theorem remade_waiting {us : List RowUnit} {c : Cell} {v : CellState} {id : Nat} (h : remade us c v = .waiting id) :
    v = .waiting id := by
  cases v with
  | rebuilt b | lost o =>
    unfold remade at h
    dsimp only at h
    split at h <;> cases h
  | waiting n | got b | poison b | bad => exact h

theorem forget_holds {f : Fetch} {us : List RowUnit} {w : RowUnit} : (f.forget us).holds w = true ↔ f.holds w = true ∧ w ∉ us := by
  simp only [holds_iff, forget_cells]
  constructor
  · rintro ⟨y, hy, row, pos⟩
    obtain ⟨x, hx, rfl⟩ := List.mem_map.mp hy
    obtain ⟨hx, other⟩ := List.mem_filter.mp hx
    refine ⟨⟨x, hx, row, pos⟩, fun mem => ?_⟩
    have same : ({ row := x.1.row, pos := x.1.pos } : RowUnit) = w := by
      obtain ⟨r, q⟩ := w
      simp_all
    rw [same] at other
    simp [mem] at other
  · rintro ⟨⟨x, hx, row, pos⟩, other⟩
    have kept : x ∈ f.cells.filter (fun x => !us.contains { row := x.1.row, pos := x.1.pos }) :=
      List.mem_filter.mpr ⟨hx, by rw [row, pos]; simpa using other⟩
    exact ⟨_, List.mem_map.mpr ⟨x, kept, rfl⟩, row, pos⟩

theorem forget_at {f : Fetch} {us : List RowUnit} {c : Cell} (other : ({ row := c.row, pos := c.pos } : RowUnit) ∉ us) :
    (f.forget us).at c = (f.at c).map (remade us c) := by
  have same : (f.cells.filter (fun x => !us.contains { row := x.1.row, pos := x.1.pos })).find? (fun x => x.1 == c)
      = f.cells.find? (fun x => x.1 == c) := by
    rw [List.find?_filter]
    congr 1
    funext x
    by_cases e : x.1 = c
    · simp [e, other]
    · simp [e]
  unfold Fetch.at
  rw [forget_cells, List.find?_map]
  have key : (fun x : Cell × CellState => x.1 == c) ∘ (fun x : Cell × CellState => (x.1, remade us x.1 x.2)) = fun x => x.1 == c := rfl
  rw [key, same]
  cases found : f.cells.find? (fun x => x.1 == c) with
  | none => rfl
  | some x =>
    obtain rfl : x.1 = c := by simpa using List.find?_some found
    rfl

theorem forget_quiet {f : Fetch} (quiet : ∀ x ∈ f.cells, ∀ id, x.2 ≠ .waiting id) (us : List RowUnit) :
    ∀ x ∈ (f.forget us).cells, ∀ id, x.2 ≠ .waiting id := by
  intro x hx id
  rw [forget_cells] at hx
  obtain ⟨y, hy, rfl⟩ := List.mem_map.mp hx
  exact fun waits => quiet y (List.mem_filter.mp hy).1 id (remade_waiting waits)

/-! ## What it asks for again -/

/-- What a stained unit asks for: what a source unit does, or itself. -/
def rereadWants (s : State) (m : Layout) (source : List RowUnit) (u : RowUnit) : List Want :=
  if source.contains u then sourceWants s m u else [.ask u]

theorem rereadUnit_wants {owner : Owner} {s : State} {f : Fetch} (source : List RowUnit) (u : RowUnit) (p : State × Fetch)
    (h : Beside s f p) : rereadUnit owner source u p = (rereadWants s f.layout source u).foldl (Want.run owner) p := by
  unfold rereadUnit rereadWants
  split
  · exact readSource_wants u p h
  · rfl

theorem mem_rereadWants_ask {s : State} {m : Layout} {source : List RowUnit} {u v : RowUnit}
    (there : s.missingInRow m v.row v.pos = false) : Want.ask v ∈ rereadWants s m source u ↔ v = u
      ∨ (u ∈ source ∧ s.missingInRow m u.row u.pos = true ∧ v.pos < m.n ∧ u.row = v.row ∧ u.pos ≠ v.pos) := by
  unfold rereadWants
  by_cases own : u ∈ source
  · rw [if_pos (by simpa using own), mem_sourceWants_ask]
    refine or_congr ⟨fun h => h.1, fun e => ⟨e, by rw [← e]; exact there⟩⟩ ?_
    simp [own]
  · rw [if_neg (by simpa using own)]
    simp [own]

theorem rereadWants_mark {s : State} {m : Layout} {source : List RowUnit} {u v : RowUnit}
    (h : Want.mark v ∈ rereadWants s m source u) : v = u ∧ s.missingInRow m v.row v.pos = true := by
  unfold rereadWants at h
  split at h
  · obtain ⟨rfl, gone⟩ := mem_sourceWants_mark.mp h
    exact ⟨rfl, gone⟩
  · simp at h

/-- The READs of a recopy. -/
theorem foldl_rereadUnit {owner : Owner} {s : State} {f : Fetch} (hu : 1 ≤ f.layout.unit)
    (quiet : ∀ x ∈ f.cells, ∀ id, x.2 ≠ .waiting id) (source stained : List RowUnit)
    (forgotten : ∀ w ∈ stained, ¬f.holds w = true) :
    ∃ us marks, Asked owner s f us marks (stained.foldl (fun p u => rereadUnit owner source u p) (s, f))
      ∧ (∀ v, v ∈ us ↔ s.missingInRow f.layout v.row v.pos = false ∧ (v ∈ stained ∨ (¬f.holds v = true ∧ v.pos < f.layout.n
          ∧ ∃ x ∈ stained, x ∈ source ∧ s.missingInRow f.layout x.row x.pos = true ∧ x.row = v.row ∧ x.pos ≠ v.pos)))
      ∧ ∀ v ∈ marks, v ∈ stained := by
  obtain ⟨us, asked, mem⟩ := foldl_wants (owner := owner) hu (stained.flatMap (rereadWants s f.layout source)) [] [] (s, f)
    (Asked.begin quiet) fun u hu => by
      obtain ⟨w, -, hw⟩ := List.mem_flatMap.mp hu
      exact (rereadWants_mark hw).2
  rw [← foldl_flatMap_wants (rereadUnit_wants source) stained (s, f) ⟨Placed.refl s, rfl⟩] at asked
  refine ⟨_, _, asked, fun v => (mem v).trans ?_, fun v hv => ?_⟩
  · rw [or_iff_right List.not_mem_nil]
    constructor
    · rintro ⟨wanted, there, unheld⟩
      obtain ⟨u, hu, hv⟩ := List.mem_flatMap.mp wanted
      rcases (mem_rereadWants_ask there).mp hv with rfl | ⟨own, gone, lt, row, ne⟩
      · exact ⟨there, .inl hu⟩
      · exact ⟨there, .inr ⟨unheld, lt, u, hu, own, gone, row, ne⟩⟩
    · rintro ⟨there, hv | ⟨unheld, lt, u, hu, own, gone, row, ne⟩⟩
      · exact ⟨List.mem_flatMap.mpr ⟨v, hv, (mem_rereadWants_ask there).mpr (.inl rfl)⟩, there, forgotten v hv⟩
      · exact ⟨List.mem_flatMap.mpr ⟨u, hu, (mem_rereadWants_ask there).mpr (.inr ⟨own, gone, lt, row, ne⟩)⟩, there, unheld⟩
  · obtain ⟨w, hw, marked⟩ := List.mem_filterMap.mp hv
    obtain ⟨u, hu, hw⟩ := List.mem_flatMap.mp hw
    cases w with
    | ask x => cases marked
    | mark x =>
      obtain rfl := Option.some.inj marked
      rw [(rereadWants_mark hw).1]
      exact hu

/-! ## The recopy (R54, R55) -/

theorem mem_fetched_readSet {t : Step} {f : Fetch} {us : List RowUnit} (reading : f.reading = us) {w : RowUnit} :
    w ∈ (t.fetched f).readSet ↔ w ∈ t.readSet ∨ w ∈ us := by
  unfold Step.fetched
  rw [reading]
  simp only [List.mem_append, List.mem_filter, Bool.not_eq_true', List.contains_eq_mem, decide_eq_false_iff_not]
  tauto

/-- A state handed READs for a step that is then set, and told to advance. -/
theorem asked_set {owner : Owner} {s : State} {f : Fetch} {us marks : List RowUnit} {p : State × Fetch}
    (h : Asked owner s f us marks p) (g : Staging) (v : Option Step) :
    let u := push (.stepAdvance g) (setStep g v p.1)
    let z := us.foldl (askUnit owner f.layout s) s
    StepSet g v s u ∧ u = { s with mover := u.mover, shelf := z.shelf, integ := z.integ, todo := z.todo ++ [.stepAdvance g] } := by
  intro u z
  have hands : Hands (fun x => us.foldl (askUnit owner f.layout s) x) := Hands.foldl (fun w => askUnit_hands owner f.layout s w) us
  have self := hands.self s
  have set := setStep_set g v p.1
  have frame := setStep_frame g v p.1
  have state := h.state
  have steps (x : Staging) : p.1.stepIn x = s.stepIn x := by
    unfold State.stepIn
    rw [h.placed.mover]
  refine ⟨⟨set.1, fun x ne => (set.2 x ne).trans (steps x)⟩, ?_⟩
  show push (.stepAdvance g) (setStep g v p.1) = _
  have pushed : push (.stepAdvance g) (setStep g v p.1) = { p.1 with
      mover := u.mover, todo := p.1.todo ++ [.stepAdvance g] } := by
    show ({ setStep g v p.1 with todo := (setStep g v p.1).todo ++ [.stepAdvance g] } : State) = _
    rw [frame]
    rfl
  rw [pushed, state]
  show ({ z with mover := u.mover, todo := z.todo ++ [.stepAdvance g] } : State) = _
  have onto : z = s.onto z := self
  obtain ⟨y, hy⟩ : ∃ y, z = y := ⟨_, rfl⟩
  rw [hy] at onto ⊢
  conv_lhs => rw [onto]
  rfl

theorem ruleRecopy_eq {s : State} {g : Staging} {t : Step} (ht : s.stepIn g = some t) (stage : t.stage = .gather)
    (gathered : t.gathered = true) (stained : t.stained ≠ [])
    (others : ∀ h v, h ≠ g → s.stepIn h = some v → v.stage ≠ .gather) : ruleRecopy s = some (recopy g t s) := by
  have found : s.steps.find? (fun p => p.2.stage == .gather && p.2.gathered && !p.2.stained.isEmpty) = some (g, t) :=
    find?_stage (by simp [stage, gathered, stained]) ht (fun x h => by
      simp only [Bool.and_eq_true, beq_iff_eq] at h
      exact h.1.1) others
  unfold ruleRecopy
  rw [found]
  rfl

/-- The step behind a recopy, by the READs it has under way. -/
def Step.recopied (t : Step) (s : State) (f : Fetch) : Step :=
  { t.fetched f with
    stained := [], stains := min 7 (t.stains + 1), pinned := t.pinned || s.ctl.tuning.stainLimit ≤ min 7 (t.stains + 1) }

theorem recopy_eq {s : State} {g : Staging} {t : Step} (ht : s.stepIn g = some t) {p : State × Fetch} (placed : Placed s p.1)
    (reads : t.stained.foldl (fun p u => rereadUnit (.gather g) t.source u p) (s, t.fetch.forget t.stained) = p) :
    recopy g t s = push (.stepAdvance g) (setStep g (some (t.recopied s p.2)) p.1) := by
  have there : p.1.stepIn g = some t := by
    unfold State.stepIn
    rw [placed.mover]
    exact ht
  unfold recopy
  dsimp only
  rw [reads, updStep_at there]
  rfl

/-- Settles O43: the stains of an ended host WRITE, the pin of a lowered limit, and the recopy unit by unit. -/
theorem stainsAndRecopies : Obligations.StainsAndRecopies := by
  refine ⟨stainSteps_stains, repin_pins, ?_⟩
  intro s g t ht stage stained kind done unit others m held gone
  have gathered : t.gathered = true := by
    unfold Step.gathered
    rcases kind with kind | kind <;> rw [kind] <;> exact done
  obtain ⟨quiet, -⟩ := Fetch.done_iff.mp done
  obtain ⟨again, marks, asked, mem, marked⟩ := foldl_rereadUnit (owner := .gather g) (s := s) (f := t.fetch.forget t.stained) unit
    (forget_quiet quiet t.stained) t.source t.stained (fun w hw h => (forget_holds.mp h).2 hw)
  obtain ⟨p, hp⟩ : ∃ p, t.stained.foldl (fun p u => rereadUnit (.gather g) t.source u p) (s, t.fetch.forget t.stained) = p := ⟨_, rfl⟩
  rw [hp] at asked
  obtain ⟨set, frame⟩ := asked_set asked g (some (t.recopied s p.2))
  have reading : p.2.reading = again := reading_eq asked.waits unit asked.nodup
  have runs := (ruleRecopy_eq ht stage gathered stained others).trans (congrArg some (recopy_eq ht asked.placed hp))
  refine ⟨_, t.recopied s p.2, again, runs, set.1, set.2, rfl, ?_, fun w => ?_, asked.nodup, underWay_eq asked.waits unit,
    fun w => mem_fetched_readSet reading, frame, asked.waiting, fun c clean fresh row state => ?_, fun c clean fresh row => ?_⟩
  · simp [Step.recopied]
  · rw [mem]
    by_cases own : w ∈ t.stained
    · simp [own, gone, m, Fetch.forget]
    · have kept : ¬(t.fetch.forget t.stained).holds w = true ↔ ¬held w := by
        rw [forget_holds, holds_iff]
        exact not_congr (and_iff_left own)
      rw [kept]
      simp [own, gone, m, Fetch.forget]
  · refine (asked.others c fresh (fun m => clean (marked _ m))).trans ?_
    rw [forget_at clean]
    have any : t.stained.any (·.row == c.row) = true := by simpa using row
    rcases state with ⟨b, state⟩ | ⟨o, state⟩ <;> rw [state] <;> simp only [Option.map_some, remade, any, if_true]
  · refine (asked.others c fresh (fun m => clean (marked _ m))).trans ?_
    rw [forget_at clean]
    have none_ : t.stained.any (·.row == c.row) = false := by simpa using row
    cases state : t.fetch.at c with
    | none => rfl
    | some v => cases v <;> simp [remade, none_]
end Sys2Proof.Machine
end

