-- ==== Sys2Proof/Proofs/Beginning.lean ====
section
/-! PROOFS. When the mover begins a step, the record it begins with, and what it asks for (R48, R49, R51, R67 to R69). -/

namespace Sys2Proof.Machine

/-! ## Row lock entries joined or queued for (R27) -/

theorem mem_insertWaiter (w : Waiter) (l : List Waiter) : ∃ x ∈ insertWaiter w l, x.arrival = w.arrival := by
  induction l with
  | nil => exact ⟨w, List.mem_singleton.mpr rfl, rfl⟩
  | cons y l ih =>
    unfold insertWaiter
    split
    · exact ⟨w, List.mem_cons_self, rfl⟩
    · split
      next same => exact ⟨y, List.mem_cons_self, by simpa using Eq.symm (by simpa using same)⟩
      next =>
        obtain ⟨x, hx, same⟩ := ih
        exact ⟨x, List.mem_cons_of_mem _ hx, same⟩

/-- After joining, every key has an entry, with the one that joined among its waiters. -/
theorem joinKeys_waits {a : Nat} {write : Bool} {ks : List Key} {s : State} {k : Key} (hk : k ∈ ks) :
    ∃ e ∈ (joinKeys a write ks s).locks.entries, e.key = k ∧ ∃ w ∈ e.waiters, w.arrival = a := by
  have there : ∃ e ∈ s.locks.entries ++ (s.newKeys ks).map (fun k => { key := k, holder := none, readers := [], waiters := [] : LockEntry }),
      e.key = k := by
    cases at_ : s.lockAt k with
    | some e =>
      have key : e.key = k := by
        have found := List.find?_some (show s.locks.entries.find? (·.key == k) = some e from at_)
        simpa using found
      exact ⟨e, List.mem_append_left _ (List.mem_of_find?_eq_some at_), key⟩
    | none =>
      have new : k ∈ s.newKeys ks := List.mem_filter.mpr ⟨hk, by rw [at_]; rfl⟩
      exact ⟨_, List.mem_append_right _ (List.mem_map.mpr ⟨k, new, rfl⟩), rfl⟩
  obtain ⟨e, he, key⟩ := there
  refine ⟨_, List.mem_map.mpr ⟨e, he, rfl⟩, ?_⟩
  have own : ks.contains e.key = true := by simpa [key] using hk
  rw [if_pos own]
  exact ⟨key, mem_insertWaiter { arrival := a, write := write } e.waiters⟩

theorem insertQueued_split (q : QueuedLock) (l : List QueuedLock) : ∃ before after, l = before ++ after
    ∧ (∀ x ∈ before, x.arrival ≤ q.arrival) ∧ insertQueued q l = before ++ [q] ++ after := by
  induction l with
  | nil => exact ⟨[], [], rfl, by simp, rfl⟩
  | cons x l ih =>
    by_cases lt : q.arrival < x.arrival
    · exact ⟨[], x :: l, rfl, by simp, if_pos lt⟩
    · obtain ⟨before, after, split, low, inserted⟩ := ih
      refine ⟨x :: before, after, by rw [split]; rfl, fun y hy => ?_, (if_neg lt).trans (by rw [inserted]; rfl)⟩
      rcases List.mem_cons.mp hy with rfl | hy
      · exact Nat.le_of_not_lt lt
      · exact low y hy

theorem lockFits_iff {s : State} {ks : List Key} : s.lockFits ks = true ↔ s.locks.entries.length + (s.newKeys ks).length ≤ 160 :=
  decide_eq_true_iff

/-- Whether keys are joined at once: they fit the table and none is queued ahead. -/
theorem joinOrQueue_joins {a : Nat} {write : Bool} {ks : List Key} {s : State}
    (h : s.locks.entries.length + (s.newKeys ks).length ≤ 160 ∧ ∀ q ∈ s.locks.queued, a < q.arrival) :
    joinOrQueue a write ks s = (joinKeys a write ks s, true) :=
  if_pos (by simpa [lockFits_iff] using h)

theorem joinOrQueue_queues {a : Nat} {write : Bool} {ks : List Key} {s : State}
    (h : ¬(s.locks.entries.length + (s.newKeys ks).length ≤ 160 ∧ ∀ q ∈ s.locks.queued, a < q.arrival)) :
    joinOrQueue a write ks s = ({ s with locks :=
      { s.locks with queued := insertQueued { arrival := a, write := write, keys := ks } s.locks.queued } }, false) :=
  if_neg (by simpa [lockFits_iff] using h)

theorem joinOrQueue_frame (a : Nat) (write : Bool) (ks : List Key) (s : State) :
    (joinOrQueue a write ks s).1 = { s with locks := (joinOrQueue a write ks s).1.locks } := by
  unfold joinOrQueue
  split <;> rfl

/-! ## When a step begins (R48) -/

theorem mayMove_iff {s : State} : s.mayMove = true ↔ (s.ctl.state = .running ∨ s.ctl.state = .settling) ∧ s.mover.phase ≠ .none
    ∧ s.ctl.pauseRequest = false ∧ s.ctl.faultPending = false ∧ s.plan.incomingLost = false ∧ s.plan.dropAsked = false := by
  simp [State.mayMove, and_assoc]

theorem beginRow_behind {s : State} {g : Staging} {t : Step}
    (frozen : s.stepIn g = some t ∧ (t.stage = .freeze ∨ t.stage = .spill ∨ t.stage = .place ∨ t.stage = .mark))
    (only : ∀ h v, s.stepIn h = some v ∧ (v.stage = .freeze ∨ v.stage = .spill ∨ v.stage = .place ∨ v.stage = .mark) → h = g) :
    s.beginRow = t.front + t.rows := by
  have found : s.steps.find? (fun p => p.2.stage.pastFreeze) = some (g, t) :=
    find?_steps frozen.1 ((pastFreeze_iff _).mpr frozen.2) fun h v hv past => only h v ⟨hv, (pastFreeze_iff _).mp past⟩
  unfold State.beginRow
  rw [found]

theorem beginRow_front {s : State}
    (none : ∀ g t, ¬(s.stepIn g = some t ∧ (t.stage = .freeze ∨ t.stage = .spill ∨ t.stage = .place ∨ t.stage = .mark))) :
    s.beginRow = s.mover.front := by
  have nothing : s.steps.find? (fun p => p.2.stage.pastFreeze) = Option.none :=
    find?_steps_none fun g t ht past => none g t ⟨ht, (pastFreeze_iff _).mp past⟩
  unfold State.beginRow
  rw [nothing]

/-- The slot a step takes. -/
def State.taking (s : State) : Staging := if s.mover.slotA = none then .a else .b

theorem freeSlot_eq (s : State) : s.freeSlot = if s.mover.slotA = none ∨ s.mover.slotB = none then some s.taking else none := by
  unfold State.freeSlot State.taking
  cases s.mover.slotA <;> cases s.mover.slotB <;> rfl

/-- Leave to begin, the slots and the row. -/
def State.mayBegin (s : State) : Prop := s.mayMove = true ∧ (∀ h t, s.stepIn h = some t → t.stage ≠ .gather)
  ∧ (s.mover.slotA = none ∨ s.mover.slotB = none) ∧ s.beginRow < s.endRow

theorem ruleBegin_begins {s : State} {l : Layout} (written : s.written = some l) (h : s.mayBegin) :
    ruleBegin s = some (beginStep s.taking l s) := by
  obtain ⟨move, gather, slot, row⟩ := h
  unfold ruleBegin
  rw [if_pos (by simpa [move, row, mem_steps] using fun g t ht => gather g t ht), freeSlot_eq, if_pos slot, written]

theorem ruleBegin_none {s : State} (h : ¬s.mayBegin) : ruleBegin s = none := by
  unfold ruleBegin
  split
  next cond =>
    simp only [Bool.and_eq_true, decide_eq_true_eq, List.all_eq_true, Prod.forall, mem_steps, bne_iff_ne] at cond
    rw [freeSlot_eq, if_neg fun slot => h ⟨cond.1.1, fun g t ht => cond.1.2 g t ht, slot, cond.2⟩]
  next => rfl

/-! ## What a step asks for when it begins (R51, R68) -/

/-- The record a step begins with, in every phase. -/
structure Fresh (k : Phase) (front rows : Nat) (t : Step) : Prop where
  eq : t = { kind := k, front := front, rows := rows, first := t.first, stop := t.stop, source := t.source, readSet := [],
             stage := .gather, stained := [], stains := 0, pinned := false, spill := false, arrival := none, granted := false,
             outstanding := 0, fetch := t.fetch, built := [], lost := [], repairs := [], handed := false, restore := false,
             poisoned := [] }
  cells : t.fetch.cells = []

theorem nextStep_fresh (s : State) (l : Layout) :
    Fresh s.mover.phase s.beginRow (min (effectiveStep s.ctl.tuning.stepRows l) (s.endRow - s.beginRow)) (s.nextStep l) := by
  unfold State.nextStep
  dsimp only
  split
  next _ phase _ => rw [phase]; exact ⟨rfl, rfl⟩
  next phase => rw [phase]; exact ⟨rfl, rfl⟩
  next => exact ⟨rfl, rfl⟩

/-- A state that differs from another in what handing over touches. -/
def Onto (s x : State) : Prop := x = s.onto x

theorem Onto.refl (s : State) : Onto s s := rfl

theorem Onto.hands {f : State → State} (hf : Hands f) {s x : State} (h : Onto s x) : Onto s (f x) := by
  have self := hf.self x
  have before : x = s.onto x := h
  show f x = s.onto (f x)
  refine self.trans ?_
  obtain ⟨y, hy⟩ : ∃ y, f x = y := ⟨_, rfl⟩
  rw [hy]
  conv_lhs => rw [before]
  rfl

theorem Onto.handUnit {s x : State} (h : Onto s x) (i : Slot) (cls : OpClass) (unit row off : Nat) (kind : Nat → OpKind)
    (owner : Owner) : Onto s (handUnit i cls unit row off kind owner x) := h.hands (handUnit_hands _ _ _ _ _ _ _)

theorem Placed.handUnit {s x : State} (h : Placed s x) (i : Slot) (cls : OpClass) (unit row off : Nat) (kind : Nat → OpKind)
    (owner : Owner) : Placed s (handUnit i cls unit row off kind owner x) := h.trans (handUnit_placed _ _ _ _ _ _ _ _)

theorem Onto.stepIn {s x : State} (h : Onto s x) (g : Staging) : x.stepIn g = s.stepIn g := by
  unfold State.stepIn
  rw [show x = s.onto x from h]
  rfl

theorem readUnit_onto (owner : Owner) {s : State} (u : RowUnit) (p : State × Fetch) (h : Onto s p.1) : Onto s (readUnit owner u p).1 := by
  unfold readUnit
  split
  · exact h
  · unfold readRun
    dsimp only
    split
    · exact h
    · dsimp only
      exact h.handUnit ..

theorem readSource_onto (owner : Owner) {s : State} (u : RowUnit) (p : State × Fetch) (h : Onto s p.1) :
    Onto s (readSource owner u p).1 := by
  have all (ks : List Nat) : ∀ p : State × Fetch, Onto s p.1 →
      Onto s (ks.foldl (fun p k => readUnit owner { row := u.row, pos := k } p) p).1 := by
    induction ks with
    | nil => exact fun _ h => h
    | cons k ks ih => exact fun p h => ih _ (readUnit_onto owner _ p h)
  unfold readSource
  split
  · exact all _ p h
  · exact readUnit_onto owner u p h

theorem readColumn_onto (owner : Owner) {s : State} (row pos n : Nat) (p : State × Fetch) (h : Onto s p.1) :
    Onto s (readColumn owner row pos n p).1 := by
  unfold readColumn
  dsimp only
  split
  · exact h
  · dsimp only
    exact h.handUnit ..

theorem foldl_onto {α : Type} {s : State} {f : State × Fetch → α → State × Fetch} (hf : ∀ p a, Onto s p.1 → Onto s (f p a).1)
    (l : List α) : ∀ p, Onto s p.1 → Onto s (l.foldl f p).1 := by
  induction l with
  | nil => exact fun _ h => h
  | cons a l ih => exact fun p h => ih _ (hf p a h)

theorem beginReads_onto (g : Staging) (t : Step) (s : State) : Onto s (beginReads g t s).1 := by
  have sources := foldl_onto (f := fun p u => readSource (.gather g) u p) (fun p u h => readSource_onto (.gather g) u p h)
    t.source (s, t.fetch) (Onto.refl s)
  unfold beginReads
  split
  · split
    · split
      · exact sources
      · exact foldl_onto (fun p r h => readColumn_onto (.gather g) _ _ _ p h) _ _ (Onto.refl s)
    · exact sources
  · exact sources

/-- A step that does not settle, as it begins. -/
theorem beginStep_reads {g : Staging} {l : Layout} {s : State} (kind : (s.nextStep l).kind ≠ .settle) :
    beginStep g l s = push (.stepAdvance g)
      (setStep g (some ((s.nextStep l).fetched (beginReads g (s.nextStep l) s).2)) (beginReads g (s.nextStep l) s).1) :=
  if_neg (by simpa using kind)

theorem beginStep_settle {g : Staging} {l : Layout} {s : State} (kind : (s.nextStep l).kind = .settle) :
    beginStep g l s = settleJoin g (s.nextStep l) s := if_pos (by simpa using kind)

/-- What a step asked by whole units has to show. -/
theorem asks_units {s : State} {t : Step} {g : Staging} {us marks : List RowUnit} {p : State × Fetch}
    (asked : Asked (.gather g) s t.fetch us marks p) (unit : 1 ≤ t.fetch.layout.unit) (none_ : t.readSet = []) :
    (t.fetched p.2).readSet = us ∧ (t.fetched p.2).outstanding = us.length := by
  have reading : p.2.reading = us := reading_eq asked.waits unit asked.nodup
  unfold Step.fetched
  rw [none_, reading]
  exact ⟨by simp, underWay_eq asked.waits unit⟩

/-! ## The column of a replacement (R68) -/

theorem cutRows_ge {s : State} {i : Slot} {row n : Nat} {r : Nat × Nat} (h : r ∈ cutRows s i row n) : row ≤ r.1 := by
  have all (rows : List Nat) : (∀ x ∈ rows, row ≤ x) → ∀ acc : List (Nat × Nat), (∀ x ∈ acc, row ≤ x.1) →
      ∀ x ∈ rows.foldl (fun acc r =>
        let special := (s.bay i).remaps.any (·.row == r)
        match acc.getLast? with
        | none => [(r, 1)]
        | some (r0, k) =>
          if special || (s.bay i).remaps.any (·.row == r0) then acc ++ [(r, 1)] else acc.dropLast ++ [(r0, k + 1)]) acc, row ≤ x.1 := by
    induction rows with
    | nil => exact fun _ acc h => h
    | cons a rows ih =>
      intro low acc h
      refine ih (fun x hx => low x (List.mem_cons_of_mem _ hx)) _ fun x hx => ?_
      have own := low a List.mem_cons_self
      dsimp only at hx
      split at hx
      · rw [List.mem_singleton.mp hx]
        exact own
      next r0 k last =>
        have before := h (r0, k) (List.mem_of_getLast? last)
        split at hx
        · rcases List.mem_append.mp hx with hx | hx
          · exact h x hx
          · rw [List.mem_singleton.mp hx]
            exact own
        · rcases List.mem_append.mp hx with hx | hx
          · exact h x (List.dropLast_subset acc hx)
          · rw [List.mem_singleton.mp hx]
            exact before
  refine all _ (fun x hx => ?_) [] (by simp) r h
  obtain ⟨k, -, rfl⟩ := List.mem_map.mp hx
  exact Nat.le_add_right row k

/-- Behind the front a position's bay does not depend on the row. -/
theorem bayAt_behind {s : State} {l : Layout} {row r q : Nat} (front : s.mover.front ≤ row) (le : row ≤ r) :
    s.bayAt l r q = s.bayAt l row q := by
  have none_ (x : Nat) (h : s.mover.front ≤ x) : s.onIncoming l x q = none := by
    unfold State.onIncoming
    split
    · rfl
    · exact if_neg (by simp; omega)
  unfold State.bayAt
  rw [none_ r (front.trans le), none_ row front]

/-- The READs of a column hand over one operation for each piece. -/
theorem foldl_readColumn {s : State} {f : Fetch} {owner : Owner} {i : Slot} {q : Nat} (cut : List (Nat × Nat))
    (bay : ∀ r ∈ cut, s.bayAt f.layout r.1 q = some i) : ∀ p, Beside s f p →
    (cut.foldl (fun p r => readColumn owner r.1 q r.2 p) p).1 = cut.foldl (fun (x : State) r =>
      handUnit i .mover f.layout.unit r.1 0 (fun b => .read b (r.2 * f.layout.unit)) owner x) p.1 := by
  induction cut with
  | nil => exact fun _ _ => rfl
  | cons r cut ih =>
    intro p h
    have here : p.1.bayAt p.2.layout r.1 q = some i := by rw [h.1.bayAt, h.2]; exact bay r List.mem_cons_self
    have one : readColumn owner r.1 q r.2 p = (handUnit i .mover f.layout.unit r.1 0 (fun b => .read b (r.2 * f.layout.unit)) owner p.1,
        (readColumn owner r.1 q r.2 p).2) ∧ (readColumn owner r.1 q r.2 p).2.layout = f.layout := by
      unfold readColumn
      dsimp only
      rw [here, h.2]
      exact ⟨rfl, rfl⟩
    rw [List.foldl_cons, List.foldl_cons, ih (fun x hx => bay x (List.mem_cons_of_mem _ hx)) _ ?_, one.1]
    rw [one.1]
    refine ⟨?_, one.2⟩
    dsimp only
    exact h.1.handUnit ..

/-! ## The record and the READs in each phase -/

/-- Source units asked for at the beginning, with the state behind them. -/
theorem asks_source {s : State} {t : Step} (g : Staging) (fetch : t.fetch.cells = []) (unit : 1 ≤ t.fetch.layout.unit)
    (none_ : t.readSet = []) {p : State × Fetch} (reads : t.source.foldl (fun p u => readSource (.gather g) u p) (s, t.fetch) = p) :
    let m := t.fetch.layout
    let v := t.fetched p.2
    let u := push (.stepAdvance g) (setStep g (some v) p.1)
    (∀ w : RowUnit, w ∈ v.readSet ↔ s.missingInRow m w.row w.pos = false ∧
        (w ∈ v.source ∨ (w.pos < m.n ∧ ∃ x ∈ v.source, x.row = w.row ∧ x.pos ≠ w.pos ∧ s.missingInRow m x.row x.pos = true)))
      ∧ v.readSet.Nodup ∧ v.outstanding = v.readSet.length
      ∧ (let z := v.readSet.foldl (fun (x : State) w => match s.bayAt m w.row w.pos with
            | some i => handUnit i .mover m.unit w.row 0 (fun b => .read b m.unit) (.gather g) x
            | none => x) s
         u.shelf = z.shelf ∧ u.integ = z.integ ∧ u.todo = z.todo ++ [.stepAdvance g]) := by
  intro m v u
  obtain ⟨us, marks, asked, mem⟩ := foldl_readSource (owner := .gather g) (s := s) unit fetch t.source
  rw [reads] at asked
  obtain ⟨set, under⟩ := asks_units asked unit none_
  have frame := (asked_set asked g (some v)).2
  have readSet : v.readSet = us := set
  refine ⟨fun w => by rw [readSet]; exact mem w, by rw [readSet]; exact asked.nodup, by rw [readSet]; exact under, ?_⟩
  rw [readSet]
  exact ⟨congrArg (·.shelf) frame, congrArg (·.integ) frame, congrArg (·.todo) frame⟩

theorem nextStep_migrate {s : State} {o n : Layout} (l : Layout) (phase : s.mover.phase = .migrate) (growing : s.growing = some (o, n)) :
    (s.nextStep l).first = s.beginRow * n.rowBlocks
      ∧ (s.nextStep l).stop = stepStop o n s.beginRow (min (effectiveStep s.ctl.tuning.stepRows l) (s.endRow - s.beginRow))
      ∧ (s.nextStep l).source = growthSource o (s.nextStep l).first (s.nextStep l).stop ∧ (s.nextStep l).fetch.layout = o := by
  unfold State.nextStep
  dsimp only
  rw [phase, growing]
  exact ⟨rfl, rfl, rfl, rfl⟩

theorem nextStep_rebuild {s : State} {inc : Incoming} (l : Layout) (phase : s.mover.phase = .rebuild) (incoming : s.plan.incoming = some inc) :
    (s.nextStep l).source = (List.range (min (effectiveStep s.ctl.tuning.stepRows l) (s.endRow - s.beginRow))).map
        (fun k => { row := s.beginRow + k, pos := inc.q })
      ∧ (s.nextStep l).fetch.layout = l := by
  unfold State.nextStep
  dsimp only
  rw [phase, incoming]
  exact ⟨rfl, rfl⟩

theorem nextStep_plain {s : State} (l : Layout) (phase : s.mover.phase = .form ∨ s.mover.phase = .settle) :
    (s.nextStep l).source = [] ∧ (s.nextStep l).fetch = Fetch.fresh l [] := by
  unfold State.nextStep
  dsimp only
  rcases phase with phase | phase <;> rw [phase] <;> exact ⟨rfl, rfl⟩

/-- A step that reads its source unit by unit: any but a REBUILD step whose position still has its bay. -/
theorem beginReads_source {g : Staging} {t : Step} {s : State}
    (h : t.kind ≠ .rebuild ∨ ∃ inc, s.plan.incoming = some inc
      ∧ ∀ i, s.bayAt t.fetch.layout t.front inc.q = some i → s.roleMissing i = true) :
    beginReads g t s = t.source.foldl (fun p u => readSource (.gather g) u p) (s, t.fetch) := by
  unfold beginReads
  split
  next inc kind incoming =>
    obtain ⟨c, same, gone⟩ := h.resolve_left (not_not_intro kind)
    obtain rfl : inc = c := Option.some.inj (incoming.symm.trans same)
    split
    next i bay => rw [if_pos (gone i bay)]
    next => rfl
  next => rfl

theorem beginReads_column {g : Staging} {t : Step} {s : State} {inc : Incoming} {i : Slot} (kind : t.kind = .rebuild)
    (incoming : s.plan.incoming = some inc) (bay : s.bayAt t.fetch.layout t.front inc.q = some i) (there : s.roleMissing i = false) :
    beginReads g t s = (cutRows s i t.front t.rows).foldl (fun p r => readColumn (.gather g) r.1 inc.q r.2 p) (s, t.fetch) := by
  unfold beginReads
  rw [kind, incoming]
  dsimp only
  rw [bay]
  dsimp only
  rw [if_neg (by simp [there])]

theorem setStep_front (g : Staging) (v : Option Step) (s : State) :
    (setStep g v s).mover.front = s.mover.front ∧ (setStep g v s).mover.phase = s.mover.phase := by
  cases g <;> exact ⟨rfl, rfl⟩

/-- A step told to advance behind READs that touch nothing else. -/
theorem pushed_set {s x : State} (h : Onto s x) (g : Staging) (v : Option Step) :
    let u := push (.stepAdvance g) (setStep g v x)
    StepSet g v s u ∧ (u.mover.front = s.mover.front ∧ u.mover.phase = s.mover.phase)
      ∧ u = { s with mover := u.mover, shelf := x.shelf, integ := x.integ, todo := x.todo ++ [.stepAdvance g] } := by
  intro u
  have set := setStep_set g v x
  have frame := setStep_frame g v x
  have mover : x.mover = s.mover := by rw [show x = s.onto x from h]; rfl
  refine ⟨⟨set.1, fun k ne => (set.2 k ne).trans (h.stepIn k)⟩, by rw [← mover]; exact setStep_front g v x, ?_⟩
  have pushed : u = { x with mover := u.mover, todo := x.todo ++ [.stepAdvance g] } := by
    show ({ setStep g v x with todo := (setStep g v x).todo ++ [.stepAdvance g] } : State) = _
    rw [frame]
    rfl
  refine pushed.trans ?_
  obtain ⟨m, hm⟩ : ∃ m, u.mover = m := ⟨_, rfl⟩
  rw [hm]
  conv_lhs => rw [show x = s.onto x from h]
  rfl

/-- A SETTLE step takes an arrival number and joins the row lock entries of its rows, or queues for them. -/
theorem settleJoin_joins (g : Staging) (t : Step) (s : State) :
    let u := settleJoin g t s
    let a := s.port.nextArrival
    StepSet g (some { t with arrival := some a }) s u ∧ (u.mover.front = s.mover.front ∧ u.mover.phase = s.mover.phase)
      ∧ u = { s with mover := u.mover, port := { s.port with nextArrival := a + 1 }, locks := u.locks }
      ∧ ((s.locks.entries.length + (s.newKeys t.keys).length ≤ 160 ∧ ∀ q ∈ s.locks.queued, a < q.arrival) →
          u.locks.queued = s.locks.queued ∧ ∀ k ∈ t.keys, ∃ e ∈ u.locks.entries, e.key = k ∧ ∃ w ∈ e.waiters, w.arrival = a)
      ∧ (¬(s.locks.entries.length + (s.newKeys t.keys).length ≤ 160 ∧ ∀ q ∈ s.locks.queued, a < q.arrival) →
          u.locks.entries = s.locks.entries
          ∧ ∃ before after, s.locks.queued = before ++ after ∧ (∀ q ∈ before, q.arrival ≤ a)
            ∧ u.locks.queued = before ++ [{ arrival := a, write := true, keys := t.keys }] ++ after) := by
  intro u a
  obtain ⟨m, hm⟩ : ∃ m : State, setStep g (some { t with arrival := some a }) { s with port := { s.port with nextArrival := a + 1 } } = m :=
    ⟨_, rfl⟩
  have set := setStep_set g (some { t with arrival := some a }) { s with port := { s.port with nextArrival := a + 1 } }
  have frame := setStep_frame g (some { t with arrival := some a }) { s with port := { s.port with nextArrival := a + 1 } }
  have front := setStep_front g (some { t with arrival := some a }) { s with port := { s.port with nextArrival := a + 1 } }
  rw [hm] at set frame front
  have locks : m.locks = s.locks := by rw [frame]
  have joined : u = (joinOrQueue a true t.keys m).1 := by
    show (joinOrQueue a true t.keys (setStep g (some { t with arrival := some a }) { s with port := { s.port with nextArrival := a + 1 } })).1 = _
    rw [hm]
  have newKeys : m.newKeys t.keys = s.newKeys t.keys := by
    unfold State.newKeys State.lockAt
    rw [locks]
  have rest := joinOrQueue_frame a true t.keys m
  rw [← joined] at rest
  refine ⟨StepSet.congr (u := m) ⟨set.1, set.2⟩ (by rw [rest]), by rw [rest]; exact front, ?_, fun fits => ?_, fun full => ?_⟩
  · refine rest.trans ?_
    rw [rest]
    conv_lhs => rw [frame]
  · rw [← newKeys, ← locks] at fits
    rw [joined, joinOrQueue_joins fits, ← locks]
    exact ⟨rfl, fun k hk => joinKeys_waits hk⟩
  · rw [← newKeys, ← locks] at full
    rw [joined, joinOrQueue_queues full, ← locks]
    exact ⟨rfl, insertQueued_split { arrival := a, write := true, keys := t.keys } m.locks.queued⟩

/-- Settles O42: leave to begin, the record by phase, its READs, and the row locks of a SETTLE step. -/
theorem moverBegins : Obligations.MoverBegins := by
  intro s row l written unit oldUnit frozen one place rows g
  have begins : s.beginRow = row := by
    rcases place with ⟨h, v, past, row⟩ | ⟨none_, row⟩
    · exact (beginRow_behind past fun x y other => one x h y v other past).trans row.symm
    · exact (beginRow_front none_).trans row.symm
  have may : s.mayBegin ↔ (s.ctl.state = .running ∨ s.ctl.state = .settling) ∧ s.mover.phase ≠ .none ∧ s.ctl.pauseRequest = false
      ∧ s.ctl.faultPending = false ∧ s.plan.incomingLost = false ∧ s.plan.dropAsked = false
      ∧ (∀ h t, s.stepIn h = some t → t.stage ≠ .gather) ∧ (s.mover.slotA = none ∨ s.mover.slotB = none) ∧ row < s.endRow := by
    unfold State.mayBegin
    rw [mayMove_iff, begins]
    simp only [and_assoc]
  refine ⟨?_, fun u hu => ?_⟩
  · rw [← may]
    by_cases h : s.mayBegin
    · rw [ruleBegin_begins written h]
      exact iff_of_true rfl h
    · rw [ruleBegin_none h]
      exact iff_of_false (by simp) h
  · have leave : s.mayBegin := by
      by_contra h
      rw [ruleBegin_none h] at hu
      cases hu
    have begun : beginStep g l s = u := Option.some.inj ((ruleBegin_begins written leave).symm.trans hu)
    have fresh := nextStep_fresh s l
    have migrating := fun o n => nextStep_migrate (s := s) (o := o) (n := n) l
    have rebuilding := fun inc => nextStep_rebuild (s := s) (inc := inc) l
    have plain := nextStep_plain (s := s) l
    have reads := beginStep_reads (g := g) (l := l) (s := s)
    have settles := beginStep_settle (g := g) (l := l) (s := s)
    rw [begins] at fresh migrating rebuilding
    obtain ⟨t0, ht⟩ : ∃ t, s.nextStep l = t := ⟨_, rfl⟩
    rw [ht] at fresh plain reads settles
    simp only [ht] at migrating rebuilding
    have kind : t0.kind = s.mover.phase := by rw [fresh.eq]
    have front : t0.front = row := by rw [fresh.eq]
    have size : t0.rows = rows := by rw [fresh.eq]
    have readSet : t0.readSet = [] := by rw [fresh.eq]
    have stage : t0.stage = .gather := by rw [fresh.eq]
    have stained : t0.stained = [] := by rw [fresh.eq]
    have stains : t0.stains = 0 := by rw [fresh.eq]
    have pinned : t0.pinned = false := by rw [fresh.eq]
    have spill : t0.spill = false := by rw [fresh.eq]
    have handed : t0.handed = false := by rw [fresh.eq]
    have arrival : t0.arrival = none := by rw [fresh.eq]
    have granted : t0.granted = false := by rw [fresh.eq]
    have outstanding : t0.outstanding = 0 := by rw [fresh.eq]
    by_cases settle : s.mover.phase = .settle
    · obtain ⟨set, moved, frame, joins, queues⟩ := settleJoin_joins g t0 s
      have joined : settleJoin g t0 s = u := (settles (kind.trans settle)).symm.trans begun
      rw [joined] at set moved frame joins queues
      obtain ⟨source, fetch⟩ := plain (.inr settle)
      have keys : t0.keys = (List.range rows).map (fun k => { layout := .new, row := row + k }) := by
        unfold Step.keys
        rw [front, size]
      rw [keys] at joins queues
      have other {k : Phase} (ne : k ≠ .settle) (is : s.mover.phase = k) : False := ne (is.symm.trans settle)
      refine ⟨_, set.1, set.2, kind, front, size, stage, stained, stains, pinned, spill, handed, moved.1, moved.2, by rw [frame],
        by rw [frame], by rw [frame], by rw [frame], by rw [frame], by rw [frame], fun ne => absurd (kind.trans settle) ne,
        ⟨fun _ _ is => (other (by decide) is).elim, fun _ is => (other (by decide) is).elim⟩,
        fun is => (other (by decide) is).elim, fun _ => ⟨source, readSet, outstanding, by rw [frame], by rw [frame], by rw [frame],
          granted, rfl, by rw [frame], joins, queues⟩⟩
    · obtain ⟨p, hp⟩ : ∃ p, beginReads g t0 s = p := ⟨_, rfl⟩
      have onto := beginReads_onto g t0 s
      have pushed := reads (fun e => settle (kind.symm.trans e))
      rw [hp] at onto pushed
      obtain ⟨set, moved, frame⟩ := pushed_set onto g (some (t0.fetched p.2))
      have state := pushed.symm.trans begun
      rw [state] at set moved frame
      have out : u.out = s.out := by rw [frame]
      refine ⟨_, set.1, set.2, kind, front, size, stage, stained, stains, pinned, spill, handed, moved.1, moved.2, out,
        by rw [frame], by rw [frame], by rw [frame], by rw [frame], by rw [frame], fun _ => ⟨arrival, by rw [frame], by rw [frame]⟩,
        ⟨fun o n migrate growing => ?_, fun inc rebuild incoming => ?_⟩, fun form => ?_, fun is => absurd is settle⟩
      · obtain ⟨first, stop, source, layout⟩ := migrating o n migrate growing
        have whole : t0.kind ≠ .rebuild := by rw [kind, migrate]; decide
        have asked := asks_source (s := s) g fresh.cells (by rw [layout]; exact oldUnit o n growing) readSet
          ((beginReads_source (.inl whole)).symm.trans hp)
        dsimp only at asked
        rw [state, layout] at asked
        exact ⟨first, stop, source, asked⟩
      · obtain ⟨source, layout⟩ := rebuilding inc rebuild incoming
        have units (gone : ∀ i, s.bayAt l row inc.q = some i → s.roleMissing i = true) :=
          asks_source (s := s) g fresh.cells (by rw [layout]; exact unit) readSet
            ((beginReads_source (.inr ⟨inc, incoming, by rw [layout, front]; exact gone⟩)).symm.trans hp)
        dsimp only at units
        rw [state, layout] at units
        refine ⟨source, fun i bay gone => units fun j here => ?_, fun none_ => units fun j here => ?_, fun i bay there behind => ?_⟩
        · rw [← Option.some.inj (bay.symm.trans here)]
          exact gone
        · rw [none_] at here
          cases here
        · have column := (beginReads_column (g := g) (t := t0) (kind.trans rebuild) incoming (by rw [layout, front]; exact bay) there).symm.trans hp
          have reads := foldl_readColumn (s := s) (f := t0.fetch) (owner := .gather g) (i := i) (q := inc.q) (cutRows s i t0.front t0.rows)
            (fun r hr => by
              rw [layout, bayAt_behind behind (by rw [← front]; exact cutRows_ge hr)]
              exact bay) (s, t0.fetch) ⟨Placed.refl s, rfl⟩
          rw [column, layout, front, size] at reads
          dsimp only at reads
          dsimp only
          rw [← reads]
          exact ⟨by rw [frame], by rw [frame], by rw [frame]⟩
      · obtain ⟨source, fetch⟩ := plain (.inl form)
        have whole : t0.kind ≠ .rebuild := by rw [kind, form]; decide
        have same : p = (s, t0.fetch) := hp.symm.trans (by rw [beginReads_source (.inl whole), source]; rfl)
        rw [same] at frame ⊢
        refine ⟨source, ?_, ?_, by rw [frame], by rw [frame], by rw [frame]⟩
        · unfold Step.fetched Fetch.reading
          rw [fetch, readSet]
          rfl
        · unfold Step.fetched Fetch.underWay
          rw [fetch]
          rfl
end Sys2Proof.Machine
end

