-- ==== Sys2Proof/Proofs/Fetching.lean ====
section
/-! PROOFS. Verification, the fetch of a record, and the wait for bays (R96, R101 to R105). -/

namespace Sys2Proof.Machine

/-! ## Checks in order (R102 to R104) -/

/-- The checks of the model against their conditions, each as long as those before it hold. -/
def Judges : List (Bool × PlanOutcome) → List (Prop × PlanOutcome) → Prop
  | [], [] => True
  | b :: bs, c :: cs => b.2 = c.2 ∧ (b.1 = true ↔ c.1) ∧ (c.1 → Judges bs cs)
  | [], _ :: _ => False
  | _ :: _, [] => False

/-- The first condition that fails gives the refusal. -/
theorem Judges.judged : ∀ {bs : List (Bool × PlanOutcome)} {cs : List (Prop × PlanOutcome)}, Judges bs cs →
    (firstRefusal bs = none ↔ ∀ c ∈ cs, c.1)
      ∧ ∀ o, firstRefusal bs = some o ↔ ∃ (n : Nat) (c : Prop × PlanOutcome), cs[n]? = some c ∧ ¬c.1 ∧ c.2 = o
        ∧ ∀ (m : Nat) (d : Prop × PlanOutcome), m < n → cs[m]? = some d → d.1
  | [], [], _ => ⟨by simp [firstRefusal], by simp [firstRefusal]⟩
  | [], _ :: _, h => h.elim
  | _ :: _, [], h => h.elim
  | b :: bs, c :: cs, ⟨outcome, iff, more⟩ => by
    by_cases holds : c.1
    · obtain ⟨all, first⟩ := (more holds).judged
      have step : firstRefusal (b :: bs) = firstRefusal bs := if_pos (iff.mpr holds)
      rw [step]
      refine ⟨all.trans (by simp [holds]), fun o => (first o).trans ⟨?_, ?_⟩⟩
      · rintro ⟨n, d, at_, fails, out, before⟩
        refine ⟨n + 1, d, at_, fails, out, fun m e lt he => ?_⟩
        cases m with
        | zero =>
          obtain rfl := Option.some.inj he
          exact holds
        | succ m => exact before m e (by omega) he
      · rintro ⟨n, d, at_, fails, out, before⟩
        cases n with
        | zero =>
          obtain rfl := Option.some.inj at_
          exact absurd holds fails
        | succ n => exact ⟨n, d, at_, fails, out, fun m e lt he => before (m + 1) e (by omega) he⟩
    · have step : firstRefusal (b :: bs) = some b.2 := if_neg (mt iff.mp holds)
      rw [step]
      refine ⟨by simp [holds], fun o => ?_⟩
      rw [Option.some.injEq]
      constructor
      · rintro rfl
        exact ⟨0, c, rfl, holds, outcome.symm, fun m d lt => absurd lt (Nat.not_lt_zero m)⟩
      · rintro ⟨n, d, at_, fails, out, before⟩
        cases n with
        | zero =>
          obtain rfl := Option.some.inj at_
          exact outcome.trans out
        | succ n => exact absurd (before 0 c (Nat.succ_pos n) rfl) holds

theorem Judges.refusal {bs : List (Bool × PlanOutcome)} {cs : List (Prop × PlanOutcome)} {v : Option PlanOutcome}
    (h : Judges bs cs) (e : v = firstRefusal bs) : (v = none ↔ ∀ c ∈ cs, c.1)
      ∧ ∀ o, v = some o ↔ ∃ (n : Nat) (c : Prop × PlanOutcome), cs[n]? = some c ∧ ¬c.1 ∧ c.2 = o
        ∧ ∀ (m : Nat) (d : Prop × PlanOutcome), m < n → cs[m]? = some d → d.1 :=
  e ▸ h.judged

/-! ## The conditions (R95, R102 to R104) -/

theorem slotOfByte_iff {b : BitVec 8} {i : Slot} : slotOfByte b = some i ↔ b.toNat = i.val := by
  unfold slotOfByte
  split
  · simp [Fin.ext_iff]
  next h =>
    refine iff_of_false (by simp) fun e => h ?_
    rw [e]
    exact i.isLt

theorem mem_planSlots {r : PlanRecord} {i : Slot} : i ∈ r.slots ↔ ∃ b ∈ r.bays.take r.listLength.toNat, b.toNat = i.val := by
  unfold PlanRecord.slots PlanRecord.list
  rw [List.mem_filterMap]
  exact exists_congr fun b => and_congr_right fun _ => slotOfByte_iff

theorem inUse_iff {s : State} {i : Slot} : s.inUse i = true ↔
    (s.bay i).role = .member ∨ (s.bay i).role = .joining ∨ (s.bay i).role = .failed ∨ (s.bay i).role = .stale := by
  unfold State.inUse
  cases (s.bay i).role <;> simp

theorem listGood_iff {r : PlanRecord} : r.listGood = true ↔
    1 ≤ r.listLength.toNat ∧ r.listLength.toNat ≤ 32 ∧ ∀ b ∈ r.bays.take r.listLength.toNat, b.toNat < 64 := by
  unfold PlanRecord.listGood PlanRecord.list
  simp only [Bool.and_eq_true, decide_eq_true_eq, List.all_eq_true, and_assoc]

theorem legalUnit_iff {u : Nat} : legalUnit u = true ↔ u = 16 ∨ u = 32 ∨ u = 64 ∨ u = 128 ∨ u = 256 := by
  simp [legalUnit]

theorem not_any_inUse {s : State} {r : PlanRecord} : (!r.slots.any s.inUse) = true ↔
    ∀ i, (∃ b ∈ r.bays.take r.listLength.toNat, b.toNat = i.val) →
      ¬((s.bay i).role = .member ∨ (s.bay i).role = .joining ∨ (s.bay i).role = .failed ∨ (s.bay i).role = .stale) := by
  rw [Bool.not_eq_true', List.any_eq_false]
  exact forall_congr' fun i => by rw [mem_planSlots, inUse_iff]

theorem not_any_foreign {s : State} {r : PlanRecord} : (!r.slots.any (fun i => s.ready i && (s.bay i).role == .foreign)) = true ↔
    ∀ i, (∃ b ∈ r.bays.take r.listLength.toNat, b.toNat = i.val) → ¬(s.ready i = true ∧ (s.bay i).role = .foreign) := by
  rw [Bool.not_eq_true', List.any_eq_false]
  exact forall_congr' fun i => by rw [mem_planSlots, Bool.and_eq_true, beq_iff_eq]

theorem missingOther_iff {s : State} {l : Layout} {q : Option Nat} (only : s.layout .only = some l) : (!s.missingOther q) = true ↔
    ∀ p, p < l.n → some p ≠ q → s.missing l p = false := by
  unfold State.missingOther
  rw [only]
  simp

theorem onlyCount_eq {s : State} {l : Layout} (only : s.layout .only = some l) : s.onlyCount = l.n := by
  unfold State.onlyCount
  rw [only]
  rfl

/-- The smallest of some capacities, some given, by what it is at least. -/
theorem le_smallest {s : State} {is : List Slot} {n : Nat} (some_ : is ≠ []) : n ≤ s.smallest is ↔ ∀ i ∈ is, n ≤ s.capacityOf i := by
  unfold State.smallest
  cases least : (is.map s.capacityOf).min? with
  | none =>
    rw [List.min?_eq_none_iff, List.map_eq_nil_iff] at least
    exact absurd least some_
  | some m =>
    simpa using List.le_min?_iff least (x := n)

/-! ## Verification of each kind -/

theorem verify_form {s : State} {r : PlanRecord} (kind : r.kind.toNat = 1) : s.verify r = s.verifyForm r := by
  simp only [State.verify, kind, kindOfCode]

theorem verify_grow {s : State} {r : PlanRecord} (kind : r.kind.toNat = 2) : s.verify r = s.verifyGrow r := by
  simp only [State.verify, kind, kindOfCode]

theorem verify_replace {s : State} {r : PlanRecord} (kind : r.kind.toNat = 3) : s.verify r = s.verifyReplace r := by
  simp only [State.verify, kind, kindOfCode]

theorem verify_other {s : State} {r : PlanRecord} (form : r.kind.toNat ≠ 1) (grow : r.kind.toNat ≠ 2) (replace : r.kind.toNat ≠ 3) :
    s.verify r = some .badKind := by
  have code : kindOfCode r.kind.toNat = some .empty ∨ kindOfCode r.kind.toNat = none := by
    unfold kindOfCode
    split
    next => exact .inl rfl
    next h => exact absurd h form
    next h => exact absurd h grow
    next h => exact absurd h replace
    next => exact .inr rfl
  unfold State.verify
  rcases code with code | code <;> rw [code]

/-- What a block count of a bay is in the statement of O50. -/
theorem capacityOf_eq (s : State) (i : Slot) : s.capacityOf i = match (s.bay i).ident with
    | some x => x.2
    | none => 0 := by
  unfold State.capacityOf
  cases (s.bay i).ident <;> rfl

theorem form_fits {s : State} {r : PlanRecord} (unit : 1 ≤ r.unit.toNat) (some_ : r.slots ≠ []) :
    (!r.slots.all s.ready || decide (r.unit.toNat ≤ s.smallest r.slots - Config.dataBase)) = true ↔
      ((∀ i ∈ r.slots, s.ready i = true) → ∀ i ∈ r.slots, 16384 + r.unit.toNat ≤ s.capacityOf i) := by
  have least : r.unit.toNat ≤ s.smallest r.slots - Config.dataBase ↔ 16384 + r.unit.toNat ≤ s.smallest r.slots := by
    unfold Config.dataBase
    omega
  rw [← le_smallest some_, ← least, Bool.or_eq_true, Bool.not_eq_true', decide_eq_true_eq, ← Bool.not_eq_true, List.all_eq_true,
    ← imp_iff_not_or]

theorem verifyForm_judges (s : State) (r : PlanRecord) :
    let named (i : Slot) : Prop := ∃ b ∈ r.bays.take r.listLength.toNat, b.toNat = i.val
    Judges
      [(legalUnit r.unit.toNat && r.listGood, .badKind), (s.ctl.volume == .none, .volumeExists),
       (r.slots.Nodup, .bayDuplicate), (3 ≤ r.slots.length, .tooManyMembers), (!r.slots.any s.inUse, .bayInUse),
       (!r.slots.any (fun i => s.ready i && (s.bay i).role == .foreign), .bayForeign),
       (!r.slots.all s.ready || r.unit.toNat ≤ s.smallest r.slots - Config.dataBase, .bayTooSmall)]
      [((r.unit.toNat = 16 ∨ r.unit.toNat = 32 ∨ r.unit.toNat = 64 ∨ r.unit.toNat = 128 ∨ r.unit.toNat = 256)
          ∧ 1 ≤ r.listLength.toNat ∧ r.listLength.toNat ≤ 32 ∧ ∀ b ∈ r.bays.take r.listLength.toNat, b.toNat < 64, .badKind),
       (s.ctl.volume = .none, .volumeExists), (r.slots.Nodup, .bayDuplicate), (3 ≤ r.slots.length, .tooManyMembers),
       ((∀ i, named i →
          ¬((s.bay i).role = .member ∨ (s.bay i).role = .joining ∨ (s.bay i).role = .failed ∨ (s.bay i).role = .stale)), .bayInUse),
       ((∀ i, named i → ¬(s.ready i = true ∧ (s.bay i).role = .foreign)), .bayForeign),
       (((∀ i, named i → s.ready i = true) → ∀ i, named i → 16384 + r.unit.toNat ≤ s.capacityOf i), .bayTooSmall)] := by
  intro named
  refine ⟨rfl, by rw [Bool.and_eq_true, legalUnit_iff, listGood_iff], fun sizes => ⟨rfl, beq_iff_eq, fun _ => ⟨rfl, decide_eq_true_iff,
    fun _ => ⟨rfl, decide_eq_true_iff, fun three => ⟨rfl, not_any_inUse, fun _ => ⟨rfl, not_any_foreign, fun _ => ⟨rfl, ?_,
      fun _ => trivial⟩⟩⟩⟩⟩⟩⟩
  have some_ : r.slots ≠ [] := fun none_ => by rw [none_] at three; cases three
  refine (form_fits (s := s) (by omega) some_).trans ?_
  simp only [mem_planSlots, named]

theorem grow_fits {s : State} {r : PlanRecord} : r.slots.all (fun i => !s.ready i || s.joining ≤ s.capacityOf i) = true ↔
    ∀ i, (∃ b ∈ r.bays.take r.listLength.toNat, b.toNat = i.val) → s.ready i = true → 16384 + s.rows * s.unit ≤ s.capacityOf i := by
  rw [List.all_eq_true]
  refine forall_congr' fun i => ?_
  rw [mem_planSlots, Bool.or_eq_true, Bool.not_eq_true', decide_eq_true_eq, ← Bool.not_eq_true, ← imp_iff_not_or]
  rfl

theorem verifyGrow_judges {s : State} {l : Layout} (r : PlanRecord) (only : s.layout .only = some l) :
    let named (i : Slot) : Prop := ∃ b ∈ r.bays.take r.listLength.toNat, b.toNat = i.val
    Judges
      [(r.listGood, .badKind), (s.ctl.volume != .none, .noVolume), (r.slots.Nodup, .bayDuplicate),
       (s.onlyCount + r.slots.length ≤ 32, .tooManyMembers), (!r.slots.any s.inUse, .bayInUse),
       (!r.slots.any (fun i => s.ready i && (s.bay i).role == .foreign), .bayForeign),
       (r.slots.all (fun i => !s.ready i || s.joining ≤ s.capacityOf i), .bayTooSmall),
       (s.rows * s.unit * (s.onlyCount + r.slots.length - 1) ≤ 2 ^ 40, .capacityLimit), (!s.missingOther none, .layoutDegraded)]
      [(1 ≤ r.listLength.toNat ∧ r.listLength.toNat ≤ 32 ∧ ∀ b ∈ r.bays.take r.listLength.toNat, b.toNat < 64, .badKind),
       (s.ctl.volume ≠ .none, .noVolume), (r.slots.Nodup, .bayDuplicate), (l.n + r.slots.length ≤ 32, .tooManyMembers),
       ((∀ i, named i →
          ¬((s.bay i).role = .member ∨ (s.bay i).role = .joining ∨ (s.bay i).role = .failed ∨ (s.bay i).role = .stale)), .bayInUse),
       ((∀ i, named i → ¬(s.ready i = true ∧ (s.bay i).role = .foreign)), .bayForeign),
       ((∀ i, named i → s.ready i = true → 16384 + s.rows * s.unit ≤ s.capacityOf i), .bayTooSmall),
       (s.rows * s.unit * (l.n + r.slots.length - 1) ≤ 2 ^ 40, .capacityLimit),
       ((∀ p, p < l.n → s.missing l p = false), .layoutDegraded)] := by
  intro named
  refine ⟨rfl, listGood_iff, fun _ => ⟨rfl, bne_iff_ne, fun _ => ⟨rfl, decide_eq_true_iff, fun _ => ⟨rfl, ?_, fun _ =>
    ⟨rfl, not_any_inUse, fun _ => ⟨rfl, not_any_foreign, fun _ => ⟨rfl, grow_fits, fun _ => ⟨rfl, ?_, fun _ => ⟨rfl, ?_,
      fun _ => trivial⟩⟩⟩⟩⟩⟩⟩⟩⟩
  · rw [onlyCount_eq only]
    exact decide_eq_true_iff
  · rw [onlyCount_eq only]
    exact decide_eq_true_iff
  · rw [missingOther_iff only]
    simp

theorem verifyReplace_eq {s : State} {r : PlanRecord} {l : Layout} {b : Slot} (byte : r.replacement.toNat = b.val)
    (only : s.layout .only = some l) : s.verifyReplace r = firstRefusal
      [(s.ctl.volume != .none, .noVolume), (r.position.toNat < s.onlyCount, .badPosition),
       (!s.inUse b || (l.slotAt r.position.toNat == some b && s.roleMissing b), .bayInUse),
       (!(s.ready b && (s.bay b).role == .foreign), .bayForeign), (!s.ready b || s.joining ≤ s.capacityOf b, .bayTooSmall),
       (!s.missingOther (some r.position.toNat), .layoutDegraded)] := by
  simp only [State.verifyReplace, slotOfByte_iff.mpr byte, only]

theorem verifyReplace_judges {s : State} {l : Layout} {b : Slot} (r : PlanRecord) (only : s.layout .only = some l) :
    let inUse (i : Slot) : Prop :=
      (s.bay i).role = .member ∨ (s.bay i).role = .joining ∨ (s.bay i).role = .failed ∨ (s.bay i).role = .stale
    Judges
      [(s.ctl.volume != .none, .noVolume), (r.position.toNat < s.onlyCount, .badPosition),
       (!s.inUse b || (l.slotAt r.position.toNat == some b && s.roleMissing b), .bayInUse),
       (!(s.ready b && (s.bay b).role == .foreign), .bayForeign), (!s.ready b || s.joining ≤ s.capacityOf b, .bayTooSmall),
       (!s.missingOther (some r.position.toNat), .layoutDegraded)]
      [(s.ctl.volume ≠ .none, .noVolume), (r.position.toNat < l.n, .badPosition),
       ((inUse b → l.slotAt r.position.toNat = some b ∧ ((s.bay b).role = .failed ∨ (s.bay b).role = .stale)), .bayInUse),
       (¬(s.ready b = true ∧ (s.bay b).role = .foreign), .bayForeign),
       ((s.ready b = true → 16384 + s.rows * s.unit ≤ s.capacityOf b), .bayTooSmall),
       ((∀ p, p < l.n → p ≠ r.position.toNat → s.missing l p = false), .layoutDegraded)] := by
  intro inUse
  refine ⟨rfl, bne_iff_ne, fun _ => ⟨rfl, ?_, fun _ => ⟨rfl, ?_, fun _ => ⟨rfl, ?_, fun _ => ⟨rfl, ?_, fun _ => ⟨rfl, ?_,
    fun _ => trivial⟩⟩⟩⟩⟩⟩
  · rw [onlyCount_eq only]
    exact decide_eq_true_iff
  · rw [Bool.or_eq_true, Bool.not_eq_true', ← Bool.not_eq_true, ← imp_iff_not_or, inUse_iff]
    simp [State.roleMissing, inUse]
  · rw [Bool.not_eq_true', ← Bool.not_eq_true, Bool.and_eq_true, beq_iff_eq]
  · rw [Bool.or_eq_true, Bool.not_eq_true', ← Bool.not_eq_true, decide_eq_true_eq, ← imp_iff_not_or]
    rfl
  · rw [missingOther_iff only]
    simp

theorem verifyGrow_noVolume {s : State} {r : PlanRecord} (listed : r.listGood = true) (none_ : s.ctl.volume = .none) :
    s.verifyGrow r = some .noVolume := by
  simp [State.verifyGrow, firstRefusal, listed, none_]

theorem verifyReplace_noVolume {s : State} {r : PlanRecord} (slot : r.replacement.toNat < 64) (none_ : s.ctl.volume = .none) :
    s.verifyReplace r = some .noVolume := by
  unfold State.verifyReplace
  rw [slotOfByte_iff (i := ⟨_, slot⟩) |>.mpr rfl]
  simp [firstRefusal, none_]

theorem verifyReplace_noSlot {s : State} {r : PlanRecord} (slot : 64 ≤ r.replacement.toNat) :
    s.verifyReplace r = some .badKind := by
  have none_ : slotOfByte r.replacement = none := dif_neg (by omega)
  unfold State.verifyReplace
  rw [none_]

/-! ## The fetch (R101) -/

theorem fetch_enters {s : State} (due : s.plan.status = .due) (idle : s.ctl.state = .idle) (out : s.ctl.volume ≠ .assembling) :
    ruleFetch s = fetchOnce s := by
  unfold ruleFetch
  rw [if_pos (by simp [due, idle, out])]

theorem fetchOnce_ended {s : State} (h : 64 ≤ s.plan.pointer ∨ (s.record s.plan.pointer).kind = 0#8) :
    fetchOnce s = some (moveChain (s.plan.pointer, .ended) s) := by
  unfold fetchOnce
  dsimp only
  by_cases past : 64 ≤ s.plan.pointer
  · rw [if_pos past]
  · rw [if_neg past, if_pos (by simpa using h.resolve_left past)]

/-- A page write of the record has not taken its content (R101). -/
def State.pageWaits (s : State) (i : Nat) : Bool := s.plan.areaWrites.any (fun w => w.index == i && !w.begun && w.content.isSome)

theorem pageWaits_iff {s : State} {i : Nat} : s.pageWaits i = true ↔
    ∃ w ∈ s.plan.areaWrites, w.index = i ∧ w.begun = false ∧ w.content ≠ none := by
  unfold State.pageWaits
  simp [Option.isSome_iff_ne_none, and_assoc]

theorem fetchOnce_waits {s : State} (inside : s.plan.pointer < 64) (kind : (s.record s.plan.pointer).kind ≠ 0#8)
    (waits : s.pageWaits s.plan.pointer = true) : fetchOnce s = none := by
  unfold fetchOnce
  dsimp only
  rw [if_neg (by omega), if_neg (by simpa using kind)]
  exact if_pos waits

theorem fetchOnce_refuses {s : State} {o : PlanOutcome} (inside : s.plan.pointer < 64)
    (kind : (s.record s.plan.pointer).kind ≠ 0#8) (waits : s.pageWaits s.plan.pointer ≠ true)
    (refused : s.verify (s.record s.plan.pointer) = some o) : fetchOnce s = some (refuseFetched s.plan.pointer o s) := by
  unfold fetchOnce
  dsimp only
  rw [if_neg (by omega), if_neg (by simpa using kind), refused]
  exact if_neg waits

theorem fetchOnce_accepts {s : State} (inside : s.plan.pointer < 64) (kind : (s.record s.plan.pointer).kind ≠ 0#8)
    (waits : s.pageWaits s.plan.pointer ≠ true) (good : s.verify (s.record s.plan.pointer) = none) :
    fetchOnce s = some (activate s.plan.pointer (s.record s.plan.pointer) s) := by
  unfold fetchOnce
  dsimp only
  rw [if_neg (by omega), if_neg (by simpa using kind), good]
  exact if_neg waits

/-- A refused record's residue, its place in the table kept apart. -/
def refusedRecord (s : State) (i : Nat) (o : PlanOutcome) : PlanRecord :=
  { s.record i with outcome := o, rowsDone := 0, capacity := s.plan.capacity, generation := s.mark.generation }

theorem refuseFetched_eq {s : State} {i : Nat} (o : PlanOutcome) (h : i < s.plan.table.length) :
    refuseFetched i o s = writeBehind i { s with
      win := { s.win with events := { s.win.events with
        planDone := s.win.events.planDone || !(s.record i).quiet, chainEnd := s.win.events.chainEnd || !(s.record i).cont } }
      plan := { s.plan with
        table := s.plan.table.set i (refusedRecord s i o), hold := false, keepHold := false, beforeFirst := false
        pointer := if (s.record i).cont = true then i + 1 else i, status := if (s.record i).cont = true then .due else .ended } } := by
  have record : (setRecord i (refusedRecord s i o) s).record i = refusedRecord s i o := by rw [record_set _ h, if_pos rfl]
  obtain ⟨v, hv⟩ : ∃ v, planDone i (setRecord i (refusedRecord s i o) s) = v := ⟨_, rfl⟩
  have set : v = { setRecord i (refusedRecord s i o) s with
      win := { s.win with events := { s.win.events with planDone := s.win.events.planDone || !(s.record i).quiet } } } := by
    rw [← hv, planDone_eq, record]
    rfl
  have cont : (v.record i).cont = (s.record i).cont := by
    rw [show v.record i = refusedRecord s i o from (record_congr (by rw [set]) i).trans record]
    rfl
  have eq : refuseFetched i o s
      = writeBehind i (if (v.record i).cont then moveChain (i + 1, .due) v else moveChain (i, .ended) v) := by
    rw [← hv]
    rfl
  rw [eq, cont, set]
  cases (s.record i).cont <;> simp [moveChain, raise, Events.set, setRecord]

theorem writeBehind_areaWrites (i : Nat) (s : State) : (s.plan.layouts = [] → writeBehind i s = s)
    ∧ (s.plan.layouts ≠ [] →
      writeBehind i s = queueRecord { index := i, source := .behind, content := none, begun := false, left := 0 } s) := by
  unfold writeBehind
  exact ⟨fun h => if_pos (by simpa using h), fun h => if_neg (by simpa using h)⟩

theorem refuseFetched_record {s : State} {i j : Nat} (o : PlanOutcome) (h : i < s.plan.table.length) :
    (refuseFetched i o s).record j = if j = i then refusedRecord s i o else s.record j := by
  rw [← record_set (refusedRecord s i o) h]
  refine record_congr ?_ j
  rw [refuseFetched_eq o h, writeBehind_eq]
  rfl

theorem refuseFetched_areaWrites {s : State} {i : Nat} (o : PlanOutcome) (h : i < s.plan.table.length) :
    (s.plan.layouts = [] → (refuseFetched i o s).plan.areaWrites = s.plan.areaWrites)
    ∧ (s.plan.layouts ≠ [] → (refuseFetched i o s).plan.areaWrites
        = s.plan.areaWrites ++ [{ index := i, source := .behind, content := none, begun := false, left := 0 }]) := by
  rw [refuseFetched_eq o h]
  constructor <;> intro layouts
  · exact (congrArg (fun t : State => t.plan.areaWrites) ((writeBehind_areaWrites i _).1 (by exact layouts))).trans rfl
  · exact (congrArg (fun t : State => t.plan.areaWrites) ((writeBehind_areaWrites i _).2 (by exact layouts))).trans rfl

/-- An accepted record as the active plan, its bays not yet looked at (R96, R101). -/
def State.activated (s : State) (i : Nat) : State :=
  clearOutcome i { s with plan := { s.plan with
    status := .active, active := some i, stage := .waiting, hold := s.plan.keepHold, keepHold := false
    planKind := (kindOfCode (s.record i).kind.toNat).getD .empty } }

theorem activate_eq (i : Nat) (s : State) : activate i (s.record i) s
    = if (s.record i).named.all s.ready then install (s.record i) (s.activated i) else setEngine .waiting (s.activated i) := rfl

theorem activated_record {s : State} {i j : Nat} (h : i < s.plan.table.length) :
    (s.activated i).record j = if j = i then { s.record i with outcome := .none } else s.record j :=
  record_set (s := { s with plan := { s.plan with
    status := .active, active := some i, stage := .waiting, hold := s.plan.keepHold, keepHold := false
    planKind := (kindOfCode (s.record i).kind.toNat).getD .empty } }) _ h

/-! ## The wait for bays (R105) -/

theorem activeRecord_eq {s : State} {i : Nat} (active : s.plan.active = some i) (h : i < s.plan.table.length) :
    s.activeRecord = some (s.record i) := by
  unfold State.activeRecord State.record
  rw [active, List.getD_eq_getElem _ _ h]
  exact List.getElem?_eq_getElem h

section
variable {s : State} {r : PlanRecord}

/-- The engine waits with the plan of record `r`, and nothing else is asked of it. -/
structure AwaitsBays (s : State) (r : PlanRecord) : Prop where
  waiting : s.ctl.state = .waiting
  stage   : s.plan.stage = .waiting
  record  : s.activeRecord = some r
  fault   : s.ctl.faultPending = false
  drop    : s.plan.dropAsked = false

theorem AwaitsBays.asks (h : AwaitsBays s r) :
    (s.ctl.state == .waiting && s.plan.stage == .waiting && !s.ctl.faultPending && !s.plan.dropAsked) = true := by
  simp [h.waiting, h.stage, h.fault, h.drop]

theorem ruleWaiting_stays (h : AwaitsBays s r) (unready : ∃ b ∈ r.named, s.ready b = false) : ruleWaiting s = none := by
  have some_ : r.named.all s.ready = false := by
    obtain ⟨b, listed, unready⟩ := unready
    exact List.all_eq_false.mpr ⟨b, listed, by simp [unready]⟩
  simp only [ruleWaiting, h.asks, h.record, some_, if_true, Bool.false_eq_true, if_false]

theorem ruleWaiting_installs (h : AwaitsBays s r) (ready : ∀ b ∈ r.named, s.ready b = true) (good : s.verify r = none) :
    ruleWaiting s = some (install r s) := by
  simp only [ruleWaiting, h.asks, h.record, List.all_eq_true.mpr ready, good, if_true]

theorem ruleWaiting_refuses {o : PlanOutcome} (h : AwaitsBays s r) (ready : ∀ b ∈ r.named, s.ready b = true)
    (refused : s.verify r = some o) : ruleWaiting s = some (endUninstalled o s) := by
  simp only [ruleWaiting, h.asks, h.record, List.all_eq_true.mpr ready, refused, if_true]

end

/-! ## O50 -/

/-- Settles O50: the checks of a kind against their conditions one by one; the fetch by the record at the pointer; the wait by
whether the named bays are ready, and the second verification. -/
theorem plansFetched : Obligations.PlansFetched := by
  unfold Obligations.PlansFetched
  refine ⟨?_, fun s table => ⟨?_, ?_⟩⟩
  · intro s r judged inUse listed named blocks foreign
    have same : s.capacityOf = blocks := funext (capacityOf_eq s)
    refine ⟨fun kind => ?_, fun kind l only => ?_, fun kind slot => (verify_replace kind).trans (verifyReplace_noSlot slot),
      fun kind b l byte only => ?_, verify_other, fun _ => ⟨fun kind none_ list => ?_, fun kind none_ slot =>
        (verify_replace kind).trans (verifyReplace_noVolume slot none_)⟩⟩
    · have h := Judges.refusal (verifyForm_judges s r) (verify_form kind)
      rw [same] at h
      exact h
    · have h := Judges.refusal (verifyGrow_judges r only) (verify_grow kind)
      rw [same] at h
      exact h
    · have h := Judges.refusal (verifyReplace_judges (b := b) r only) ((verify_replace kind).trans (verifyReplace_eq byte only))
      rw [same] at h
      exact h
    · exact (verify_grow kind).trans (verifyGrow_noVolume (listGood_iff.mpr list) none_)
  · intro due idle out i r quietDone
    refine ⟨fun h => ?_, fun inside kind => ⟨fun waits => ?_, fun begun => ?_⟩⟩
    · rw [fetch_enters due idle out, fetchOnce_ended h, moveChain_eq, moveChain_win]
      simp
    · rw [fetch_enters due idle out]
      exact fetchOnce_waits inside kind (pageWaits_iff.mpr waits)
    · have listed : i < s.plan.table.length := by rw [table]; exact inside
      have waits : s.pageWaits i ≠ true := by
        rw [Ne, pageWaits_iff]
        rintro ⟨w, hw, index, unbegun, content⟩
        rw [begun w hw index content] at unbegun
        cases unbegun
      refine ⟨fun o refused => ?_, fun good => ?_⟩
      · refine ⟨refuseFetched i o s, (fetch_enters due idle out).trans (fetchOnce_refuses inside kind waits refused), ?_,
          (refuseFetched_record o listed).trans (if_pos rfl), fun j other => (refuseFetched_record o listed).trans (if_neg other),
          (refuseFetched_areaWrites o listed).1, (refuseFetched_areaWrites o listed).2, ?_⟩
        · show (refuseFetched i o s).win = _
          rw [refuseFetched_eq o listed, writeBehind_eq]
        · rw [refuseFetched_eq o listed, writeBehind_eq]
      · refine ⟨s.activated i, fun j other => (activated_record listed).trans (if_neg other),
          (activated_record listed).trans (if_pos rfl), rfl, fun form => ?_, fun grow => ?_, fun replace => ?_,
          fun ready => ?_, fun unready => ?_⟩
        · show (kindOfCode r.kind.toNat).getD .empty = _
          rw [form]
          rfl
        · show (kindOfCode r.kind.toNat).getD .empty = _
          rw [grow]
          rfl
        · show (kindOfCode r.kind.toNat).getD .empty = _
          rw [replace]
          rfl
        · rw [fetch_enters due idle out, fetchOnce_accepts inside kind waits good, activate_eq]
          exact congrArg some (if_pos (List.all_eq_true.mpr ready))
        · rw [fetch_enters due idle out, fetchOnce_accepts inside kind waits good, activate_eq]
          obtain ⟨b, named, unready⟩ := unready
          exact congrArg some (if_neg fun all => by simp [List.all_eq_true.mp all b named] at unready)
  · intro i waiting stage active inside fault drop r
    have listed : i < s.plan.table.length := by rw [table]; exact inside
    have awaits : AwaitsBays s r := ⟨waiting, stage, activeRecord_eq active listed, fault, drop⟩
    refine ⟨ruleWaiting_stays awaits, ruleWaiting_installs awaits, fun ready o refused =>
      ⟨endUninstalled o s, ruleWaiting_refuses awaits ready refused, ?_⟩⟩
    have ends := endUninstalled_ends (o := o) active listed
    obtain ⟨pointer, status⟩ : (endUninstalled o s).plan.pointer = (s.chainNext (s.record i).cont).1
        ∧ (endUninstalled o s).plan.status = (s.chainNext (s.record i).cont).2 := Prod.ext_iff.mp ends.chain
    refine ⟨ends.record, ends.records, ends.active, ends.idle (by rw [waiting]; simp), fun quiet => ?_, fun quiet => ?_,
      fun stop => ?_, fun stop hold => ?_, fun stop hold cont => ?_, fun stop hold cont => ?_,
      ends.layouts, ends.shelf, ends.mover, ends.mark, ends.port⟩
    · rw [ends.done, show (s.record i).quiet = false from quiet]
      simp
    · rw [ends.done, show (s.record i).quiet = true from quiet]
      simp
    · have next : s.chainNext (s.record i).cont = (s.plan.pointer, .ended) := by simp [State.chainNext, stop]
      exact ⟨by rw [pointer, next], by rw [status, next], by rw [ends.stops, next]; simp⟩
    · have next : s.chainNext (s.record i).cont = (s.plan.pointer, .held) := by simp [State.chainNext, stop, hold]
      exact ⟨by rw [pointer, next], by rw [status, next], ends.hold, by rw [ends.stops, next]; simp⟩
    · have next : s.chainNext (s.record i).cont = (s.plan.pointer + 1, .due) := by
        rw [show (s.record i).cont = true from cont]
        simp [State.chainNext, stop, hold]
      exact ⟨by rw [pointer, next], by rw [status, next],
        by rw [ends.stops, next]; exact (Bool.or_false _).trans (Bool.or_false _)⟩
    · have next : s.chainNext (s.record i).cont = (s.plan.pointer, .ended) := by
        rw [show (s.record i).cont = false from cont]
        simp [State.chainNext, stop, hold]
      exact ⟨by rw [pointer, next], by rw [status, next], by rw [ends.stops, next]; simp⟩
end Sys2Proof.Machine
end

