-- ==== Sys2Proof/Proofs/Installing.lean ====
section
/-! PROOFS. Installation of a plan, and the end of PREPARING (R106, R107). -/

namespace Sys2Proof.Machine

/-! ## Roles given to a list of bays (R106) -/

/-- Each listed bay takes its role and its place in the list as position; the others stay. -/
structure RolesGiven (r : Role) (first : Nat) (is : List Slot) (s t : State) : Prop where
  rebay  : Rebay s t
  listed : ∀ (n : Nat) (i : Slot), is[n]? = some i → t.bay i = { s.bay i with role := r, position := some (first + n), incoming := false }
  others : ∀ i, i ∉ is → t.bay i = s.bay i

theorem foldl_giveRole (r : Role) : ∀ (is : List Slot) (first : Nat) (s : State), is.Nodup →
    RolesGiven r first is s
      ((is.zip (List.range' first is.length)).foldl (fun s x => giveRole x.1 r (some x.2) false s) s)
  | [], _, s, _ => ⟨Rebay.refl s, fun n i h => by simp at h, fun _ _ => rfl⟩
  | i :: is, first, s, nodup => by
    obtain ⟨new, nodup⟩ := List.nodup_cons.mp nodup
    obtain ⟨rebay, listed, others⟩ := foldl_giveRole r is (first + 1) (giveRole i r (some first) false s) nodup
    have own : (giveRole i r (some first) false s).bay i = { s.bay i with role := r, position := some first, incoming := false } :=
      updBay_bay_same _ _ s
    have other (j : Slot) (hj : j ≠ i) : (giveRole i r (some first) false s).bay j = s.bay j := updBay_bay_ne _ s hj
    rw [List.length_cons, List.range'_succ, List.zip_cons_cons, List.foldl_cons]
    refine ⟨(updBay_rebay _ _ s).trans rebay, fun n j at_ => ?_, fun j hj => ?_⟩
    · cases n with
      | zero =>
        obtain rfl := Option.some.inj at_
        exact (others _ new).trans own
      | succ n =>
        have later : j ≠ i := fun e => new (e ▸ List.mem_of_getElem? at_)
        rw [listed n j at_, other j later, Nat.add_right_comm first 1 n]
        rfl
    · rw [List.mem_cons, not_or] at hj
      exact (others j hj.2).trans (other j hj.1)

theorem giveRoles_given {is : List Slot} (r : Role) (first : Nat) (s : State) (nodup : is.Nodup) :
    RolesGiven r first is s (giveRoles r first is s) := by
  have shifted : giveRoles r first is s
      = (is.zip (List.range' first is.length)).foldl (fun s x => giveRole x.1 r (some x.2) false s) s := by
    unfold giveRoles
    rw [show List.range' first is.length = (List.range is.length).map (first + ·) by
      rw [List.range_eq_range', List.map_add_range', Nat.add_zero], List.zip_map_right, List.foldl_map]
    rfl
  rw [shifted]
  exact foldl_giveRole r is first s nodup

theorem RolesGiven.memberOf {r : Role} {first : Nat} {is : List Slot} {s t : State} (h : RolesGiven r first is s t) (i : Slot) :
    t.memberOf i = s.memberOf i := by
  have ident : (t.bay i).ident = (s.bay i).ident := by
    by_cases hi : i ∈ is
    · obtain ⟨n, at_⟩ := List.mem_iff_getElem?.mp hi
      rw [h.listed n i at_]
    · rw [h.others i hi]
  unfold State.memberOf State.serialAt
  rw [ident]

/-- The smallest of some capacities is the one that every other is at least. -/
theorem smallest_eq {s : State} {is : List Slot} {m : Nat} (least : ∀ i ∈ is, m ≤ s.capacityOf i)
    (one : ∃ i ∈ is, s.capacityOf i = m) : s.smallest is = m := by
  obtain ⟨i, listed, eq⟩ := one
  have some_ : is ≠ [] := List.ne_nil_of_mem listed
  exact Nat.le_antisymm (eq ▸ (le_smallest some_).mp (Nat.le_refl _) i listed) ((le_smallest some_).mpr least)

/-! ## What every installation does (R106) -/

/-- What follows the roles and layouts of a kind at an installation. -/
def beginInstall (r : PlanRecord) (s : State) : State :=
  rebaseCounts (raiseCause (.plan .install) (setEngine .preparing
    { s with
      mark := { s.mark with state := .initial, front := 0 }
      plan :=
        { s.plan with
          stage := .installing, installed := false, copies := r.named.length
          areaOps := s.plan.areaOps ++ r.named.map (fun i => { slot := i, what := .copy false }) } }))

theorem install_form {s : State} {r : PlanRecord} (kind : r.kind.toNat = 1) :
    install r s = beginInstall r (installForm r s) := by
  simp only [install, kind, kindOfCode]
  rfl

theorem install_grow {s : State} {r : PlanRecord} (kind : r.kind.toNat = 2) :
    install r s = beginInstall r (installGrow r s) := by
  simp only [install, kind, kindOfCode]
  rfl

theorem install_replace {s : State} {r : PlanRecord} (kind : r.kind.toNat = 3) :
    install r s = beginInstall r (installReplace r s) := by
  simp only [install, kind, kindOfCode]
  rfl

theorem rebaseCounts_eq (s : State) : rebaseCounts s = { s with
    ctl := { s.ctl with lastReport := s.counts, lastTolerance := s.tolerance, volume := (rebaseCounts s).ctl.volume } } := by
  unfold rebaseCounts
  exact setVolume_eq _

theorem rebaseCounts_forming {s : State} (forming : s.ctl.volume = .forming) : (rebaseCounts s).ctl.volume = .forming := by
  unfold rebaseCounts setVolume
  dsimp only
  rw [forming]

/-- What an installation's own part leaves for what is common to all of them. -/
structure TakesUp (p : Phase) (s t : State) : Prop where
  mover : t.mover = { s.mover with front := 0, phase := p }
  mark  : t.mark = s.mark
  plan  : t.plan = { s.plan with
    layouts := t.plan.layouts, identity := t.plan.identity, incoming := t.plan.incoming, inPlace := t.plan.inPlace }
  win   : t.win = s.win
  holds : t.holds = s.holds
  out   : t.out = s.out

/-- The frame of an installation after its own part. -/
structure Begun (r : PlanRecord) (t u : State) : Prop where
  state  : u.ctl.state = .preparing
  latch  : u.ctl.latch = false
  mover  : u.mover = t.mover
  mark   : u.mark = { t.mark with state := .initial, front := 0, causes := u.mark.causes }
  asked  : ∃ c ∈ u.mark.causes, c.kind = .plan .install ∧ c.served = false
  causes : ∀ c, c.kind ≠ .plan .install → (c ∈ u.mark.causes ↔ c ∈ t.mark.causes)
  plan   : u.plan = { t.plan with
    stage := .installing, installed := false, copies := r.named.length
    areaOps := t.plan.areaOps ++ r.named.map (fun i => { slot := i, what := .copy false }) }
  rest   : u.win = t.win ∧ u.holds = t.holds ∧ u.out = t.out ∧ u.locks = t.locks ∧ u.shelf = t.shelf
  volume : t.ctl.volume = .forming → u.ctl.volume = .forming

theorem beginInstall_begun (r : PlanRecord) (t : State) : Begun r t (beginInstall r t) := by
  obtain ⟨v, hv⟩ : ∃ v, setEngine .preparing
    { t with
      mark := { t.mark with state := .initial, front := 0 }
      plan :=
        { t.plan with
          stage := .installing, installed := false, copies := r.named.length
          areaOps := t.plan.areaOps ++ r.named.map (fun i => { slot := i, what := .copy false }) } } = v := ⟨_, rfl⟩
  have eq : beginInstall r t = rebaseCounts (raiseCause (.plan .install) v) := by rw [← hv]; rfl
  have causes := raiseCause_causes (.plan .install) v
  have before : v.mark.causes = t.mark.causes := by rw [← hv]; rfl
  have forming (h : t.ctl.volume = .forming) : (beginInstall r t).ctl.volume = .forming := by
    rw [eq]
    refine rebaseCounts_forming ?_
    rw [raiseCause_eq, ← hv]
    exact h
  have marks : (beginInstall r t).mark = (raiseCause (.plan .install) v).mark := by rw [eq, rebaseCounts_eq]
  refine ⟨?_, ?_, ?_, ?_, marks ▸ causes.1, fun c hc => ?_, ?_, ?_, forming⟩
  · rw [eq, rebaseCounts_eq, raiseCause_eq, ← hv]
    rfl
  · rw [eq, rebaseCounts_eq, raiseCause_eq, ← hv]
    rfl
  · rw [eq, rebaseCounts_eq, raiseCause_eq, ← hv]
    rfl
  · rw [marks, raiseCause_eq, ← hv]
    rfl
  · rw [marks, causes.2 c hc, before]
  · rw [eq, rebaseCounts_eq, raiseCause_eq, ← hv]
    rfl
  · rw [eq, rebaseCounts_eq, raiseCause_eq, ← hv]
    exact ⟨rfl, rfl, rfl, rfl, rfl⟩

theorem Begun.of_eq {r : PlanRecord} {t u : State} (h : u = beginInstall r t) : Begun r t u := h ▸ beginInstall_begun r t

theorem TakesUp.common {p : Phase} {r : PlanRecord} {s t u : State} (h : TakesUp p s t) (b : Begun r t u) :
    u.ctl.state = .preparing ∧ u.ctl.latch = false ∧ u.mover = { s.mover with front := 0, phase := p }
      ∧ u.mark = { s.mark with state := .initial, front := 0, causes := u.mark.causes }
      ∧ (∃ c ∈ u.mark.causes, c.kind = .plan .install ∧ c.served = false)
      ∧ (∀ c, c.kind ≠ .plan .install → (c ∈ u.mark.causes ↔ c ∈ s.mark.causes))
      ∧ u.plan = { s.plan with
          stage := .installing, installed := false, copies := r.named.length
          areaOps := s.plan.areaOps ++ r.named.map (fun i => { slot := i, what := .copy false })
          layouts := u.plan.layouts, identity := u.plan.identity, incoming := u.plan.incoming, inPlace := u.plan.inPlace }
      ∧ u.win = s.win ∧ u.holds = s.holds ∧ u.out = s.out := by
  obtain ⟨win, holds, out, -, -⟩ := b.rest
  refine ⟨b.state, b.latch, b.mover.trans h.mover, h.mark ▸ b.mark, b.asked, fun c hc => ?_, ?_, win.trans h.win, holds.trans h.holds,
    out.trans h.out⟩
  · rw [b.causes c hc, h.mark]
  · rw [b.plan, h.plan]

theorem Begun.bay {r : PlanRecord} {t u : State} (b : Begun r t u) (i : Slot) : u.bay i = t.bay i := by
  obtain ⟨-, -, -, -, shelf⟩ := b.rest
  unfold State.bay
  rw [shelf]

theorem Begun.locks {r : PlanRecord} {t u : State} (b : Begun r t u) : u.locks = t.locks := by
  obtain ⟨-, -, -, locks, -⟩ := b.rest
  exact locks

/-! ## The part of each kind -/

theorem bay_congr {s t : State} (h : t.shelf = s.shelf) (i : Slot) : t.bay i = s.bay i := by
  unfold State.bay
  rw [h]

/-- The layout a FORM makes (R11, R106). -/
def State.formed (s : State) (r : PlanRecord) : Layout :=
  { id := .only, unit := r.unit.toNat, members := r.slots.map s.memberOf
    rows := formRows (s.smallest r.slots) r.unit.toNat (r.slots.length - 1) }

theorem installForm_eq (r : PlanRecord) (s : State) : installForm r s = startPhase .form
    { giveRoles .member 0 r.slots s with
      plan := { (giveRoles .member 0 r.slots s).plan with
        layouts := [s.formed r], identity := ((r.slots.head?).map s.serialAt).getD 0#64 }
      ctl := { (giveRoles .member 0 r.slots s).ctl with volume := .forming } } := rfl

theorem installForm_takesUp {r : PlanRecord} (s : State) (nodup : r.slots.Nodup) : TakesUp .form s (installForm r s) := by
  have given := giveRoles_given .member 0 s nodup
  rw [installForm_eq, given.rebay]
  exact ⟨rfl, rfl, rfl, rfl, rfl, rfl⟩

/-- The layouts of a GROW (R3). -/
def State.grown (s : State) (r : PlanRecord) (l : Layout) : List Layout :=
  [{ l with id := .old }, { l with id := .new, members := l.members ++ r.slots.map s.memberOf }]

theorem installGrow_eq {r : PlanRecord} {s : State} {l : Layout} (only : s.layout .only = some l) (nodup : r.slots.Nodup) :
    installGrow r s = startPhase .migrate (syncLayouts (renameKeys .only .old
      { giveRoles .joining l.n r.slots s with
        plan := { (giveRoles .joining l.n r.slots s).plan with layouts := s.grown r l } })) := by
  have members : r.slots.map (giveRoles .joining l.n r.slots s).memberOf = r.slots.map s.memberOf :=
    List.map_congr_left fun i _ => (giveRoles_given .joining l.n s nodup).memberOf i
  unfold installGrow State.grown
  rw [only, ← members]

theorem installGrow_takesUp {r : PlanRecord} {s : State} {l : Layout} (only : s.layout .only = some l) (nodup : r.slots.Nodup) :
    TakesUp .migrate s (installGrow r s) := by
  have given := giveRoles_given .joining l.n s nodup
  rw [installGrow_eq only nodup, given.rebay]
  exact ⟨rfl, rfl, rfl, rfl, rfl, rfl⟩

/-- Position q made VACANT for a rebuild in place (R106). -/
def vacateOwn (l : Layout) (q : Nat) (b : Slot) (s : State) : State :=
  if l.slotAt q == some b then
    { s with plan :=
      { s.plan with layouts := [l.withMember q none], inPlace := some ((s.bay b).role, (l.serialOf b).getD 0#64) } }
  else s

theorem vacateOwn_eq (l : Layout) (q : Nat) (b : Slot) (s : State) : vacateOwn l q b s = { s with
    plan := { s.plan with layouts := (vacateOwn l q b s).plan.layouts, inPlace := (vacateOwn l q b s).plan.inPlace } } := by
  unfold vacateOwn
  split <;> rfl

theorem installReplace_eq {r : PlanRecord} {s : State} {l : Layout} {b : Slot} (only : s.layout .only = some l)
    (byte : r.replacement.toNat = b.val) :
    installReplace r s = startPhase .rebuild (syncLayouts (giveRole b .joining (some r.position.toNat) true
      { vacateOwn l r.position.toNat b s with plan := { (vacateOwn l r.position.toNat b s).plan with
        incoming := some { q := r.position.toNat, slot := b, serial := s.serialAt b } } })) := by
  unfold installReplace
  rw [only, slotOfByte_iff.mpr byte]
  rfl

theorem installReplace_takesUp {r : PlanRecord} {s : State} {l : Layout} {b : Slot} (only : s.layout .only = some l)
    (byte : r.replacement.toNat = b.val) : TakesUp .rebuild s (installReplace r s) := by
  rw [installReplace_eq only byte, vacateOwn_eq]
  exact ⟨rfl, rfl, rfl, rfl, rfl, rfl⟩

/-! ## O51 -/

/-- Settles O51: the common part once for the three kinds, then the roles, layouts and keys of each; the end of PREPARING is its
rule's own condition. -/
theorem planInstalled : Obligations.PlanInstalled := by
  unfold Obligations.PlanInstalled
  refine ⟨?_, fun s preparing stage fault => ⟨fun installed copies => ?_, fun installed => ?_, fun copies => ?_⟩⟩
  · intro s r u serial blocks member common
    have capacity : s.capacityOf = blocks := funext (capacityOf_eq s)
    have serials : s.serialAt = serial := funext (serialAt_eq s)
    have members : s.memberOf = member := funext fun i => by
      show some _ = some _
      rw [serials]
    refine ⟨?_, ?_, ?_⟩
    · intro kind nodup
      have begun : Begun r (installForm r s) u := Begun.of_eq (install_form kind)
      have given := giveRoles_given .member 0 s nodup
      have bay (i : Slot) : u.bay i = (giveRoles .member 0 r.slots s).bay i := (begun.bay i).trans rfl
      have plan : u.plan.layouts = [s.formed r] ∧ u.plan.identity = ((r.slots.head?).map s.serialAt).getD 0#64
          ∧ u.plan.incoming = s.plan.incoming ∧ u.plan.inPlace = s.plan.inPlace := by
        rw [begun.plan, installForm_eq, given.rebay]
        exact ⟨rfl, rfl, rfl, rfl⟩
      obtain ⟨layouts, identity, incoming, inPlace⟩ := plan
      refine ⟨(installForm_takesUp s nodup).common begun, begun.volume rfl, fun i head => ?_, fun n i at_ => ?_, fun i hi => ?_,
        incoming, inPlace, fun m least one => ?_⟩
      · rw [identity, head, serials]
        rfl
      · rw [bay, given.listed n i at_, Nat.zero_add]
      · rw [bay, given.others i hi]
      · rw [← capacity] at least one
        rw [layouts, State.formed, smallest_eq least one, members]
        rfl
    · intro kind nodup l only
      have begun : Begun r (installGrow r s) u := Begun.of_eq (install_grow kind)
      have given := giveRoles_given .joining l.n s nodup
      have bay (i : Slot) : u.bay i = (giveRoles .joining l.n r.slots s).bay i := by
        rw [begun.bay i, installGrow_eq only nodup]
        rfl
      have plan : u.plan.layouts = s.grown r l ∧ u.plan.identity = s.plan.identity
          ∧ u.plan.incoming = s.plan.incoming ∧ u.plan.inPlace = s.plan.inPlace := by
        rw [begun.plan, installGrow_eq only nodup, given.rebay]
        exact ⟨rfl, rfl, rfl, rfl⟩
      obtain ⟨layouts, identity, incoming, inPlace⟩ := plan
      refine ⟨(installGrow_takesUp only nodup).common begun, identity, fun n i at_ => ?_, fun i hi => ?_, incoming, inPlace, ?_, ?_⟩
      · rw [bay, given.listed n i at_]
      · rw [bay, given.others i hi]
      · rw [layouts, State.grown, members]
      · rw [begun.locks, installGrow_eq only nodup, given.rebay]
        refine List.map_congr_left fun e _ => ?_
        simp only [Key.rename, beq_iff_eq]
    · intro kind l b only byte
      have begun : Begun r (installReplace r s) u := Begun.of_eq (install_replace kind)
      have eq := installReplace_eq only byte
      have bays : u.bay b = { s.bay b with role := .joining, position := some r.position.toNat, incoming := true }
          ∧ ∀ i, i ≠ b → u.bay i = s.bay i := by
        obtain ⟨v, hv⟩ : ∃ v, { vacateOwn l r.position.toNat b s with plan := { (vacateOwn l r.position.toNat b s).plan with
          incoming := some { q := r.position.toNat, slot := b, serial := s.serialAt b } } } = v := ⟨_, rfl⟩
        have bay (i : Slot) : u.bay i = (giveRole b .joining (some r.position.toNat) true v).bay i := by
          rw [begun.bay i, eq, hv]
          exact bay_congr rfl i
        have before (i : Slot) : v.bay i = s.bay i := bay_congr (by rw [← hv, vacateOwn_eq]) i
        exact ⟨by rw [bay, ← before]; exact updBay_bay_same _ _ v, fun i hi => by
          rw [bay, ← before]; exact updBay_bay_ne _ v hi⟩
      have plan : u.plan.identity = s.plan.identity
          ∧ u.plan.incoming = some { q := r.position.toNat, slot := b, serial := s.serialAt b } := by
        rw [begun.plan, eq, vacateOwn_eq]
        exact ⟨rfl, rfl⟩
      have vacated : u.plan.layouts = (vacateOwn l r.position.toNat b s).plan.layouts
          ∧ u.plan.inPlace = (vacateOwn l r.position.toNat b s).plan.inPlace := by
        rw [begun.plan, eq]
        exact ⟨rfl, rfl⟩
      refine ⟨(installReplace_takesUp only byte).common begun, plan.1, by rw [plan.2, serials], bays.1, bays.2, ?_,
        fun own => ?_, fun other => ?_⟩
      · rw [begun.locks, eq, vacateOwn_eq]
        rfl
      · have here : vacateOwn l r.position.toNat b s = { s with plan := { s.plan with
            layouts := [l.withMember r.position.toNat none], inPlace := some ((s.bay b).role, (l.serialOf b).getD 0#64) } } :=
          if_pos (by simpa using own)
        rw [vacated.1, vacated.2, here]
        exact ⟨rfl, _, rfl, fun y found => by rw [found]; rfl⟩
      · have here : vacateOwn l r.position.toNat b s = s := if_neg (by simpa using other)
        rw [vacated.1, vacated.2, here]
        exact ⟨rfl, rfl⟩
  · unfold ruleInstalled
    rw [if_pos (by simp [preparing, stage, fault, installed, copies])]
    rfl
  · unfold ruleInstalled
    rw [if_neg (by simp [installed])]
  · unfold ruleInstalled
    rw [if_neg (by simp [copies])]
end Sys2Proof.Machine
end

