-- ==== Sys2Proof/Proofs/Ending.lean ====
section
/-! PROOFS. The end of a plan at its closing or removal label (R3, R109 to R112, R116, R118). -/

namespace Sys2Proof.Machine

/-! ## Released labels (R111) -/

theorem handReserve_regrant (i : Slot) (cls : OpClass) (kind : OpKind) (owner : Owner) (s : State) (j : Slot) :
    Regrant (s.bay j) ((handReserve i cls kind owner s).bay j) := by
  have waits (op : MemberOp) (b : Bay) : Regrant b (waitIn op b) := by
    unfold waitIn
    split <;> exact ⟨rfl⟩
  have enters (op : MemberOp) (t : State) : Regrant (t.bay j) ((enqueue op t).bay j) := by
    unfold enqueue
    dsimp only
    split
    · exact Regrant.refl _
    · by_cases e : j = op.slot
      · subst e
        rw [grants, updBay_bay_same, updBay_bay_same]
        exact (waits op _).trans (grantBay_regrant _ _ _)
      · rw [grants, updBay_bay_ne _ _ e, updBay_bay_ne _ _ e]
        exact Regrant.refl _
  exact enters _ (takeOp s).2

theorem foldl_handReserve_regrant {α : Type} (slot : α → Slot) (cls : OpClass) (kind : α → OpKind) (owner : Owner) (l : List α)
    (j : Slot) : ∀ s, Regrant (s.bay j) ((l.foldl (fun x a => handReserve (slot a) cls (kind a) owner x) s).bay j) := by
  induction l with
  | nil => exact fun s => Regrant.refl _
  | cons a l ih => exact fun s => (handReserve_regrant _ _ _ _ s j).trans (ih _)

theorem Regrant.eqs {b c : Bay} (h : Regrant b c) : c.present = b.present ∧ c.ident = b.ident ∧ c.role = b.role := by
  rw [h.eq]
  exact ⟨rfl, rfl, rfl⟩

/-- The WRITEs of the released labels to some bays of a state. -/
def sendReleased (gen : Nat) (v : State) (targets : List Slot) (s : State) : State :=
  targets.foldl (fun x j => handReserve j .mark (.write 0 (labelBlocks (releasedLabel gen) 0 false (v.serialAt j))) (.releasedLabel false) x) s

theorem sendReleased_hands (gen : Nat) (v : State) (targets : List Slot) : Hands (sendReleased gen v targets) :=
  (foldl_handReserve_hands (fun j => j) .mark
    (fun j => .write 0 (labelBlocks (releasedLabel gen) 0 false (v.serialAt j))) (.releasedLabel false) targets).1

theorem sendReleased_regrant (gen : Nat) (v : State) (targets : List Slot) (s : State) (j : Slot) :
    Regrant (s.bay j) ((sendReleased gen v targets s).bay j) :=
  foldl_handReserve_regrant (fun j => j) .mark
    (fun j => .write 0 (labelBlocks (releasedLabel gen) 0 false (v.serialAt j))) (.releasedLabel false) targets j s

/-- The count of released labels under way, changed. -/
def State.releasing (s : State) (n : Nat) : State := { s with plan := { s.plan with released := s.plan.released + n } }

theorem handReleased_eq {gen : Nat} {i : Slot} {s v : State} (alike : ∀ j, Regrant (v.bay j) (s.bay j)) :
    handReleased gen i s = if (v.bay i).present = true then sendReleased gen v [i] (s.releasing 1) else s := by
  have serial : s.serialAt i = v.serialAt i := by
    unfold State.serialAt
    rw [(alike i).eqs.2.1]
  unfold handReleased
  rw [(alike i).eqs.1, serial]
  rfl

/-- Released labels go to the present bays of a list, and each is counted. -/
theorem foldl_handReleased (gen : Nat) (v : State) : ∀ (js : List Slot) (s : State), (∀ j, Regrant (v.bay j) (s.bay j)) →
    js.foldl (fun s i => handReleased gen i s) s
      = (sendReleased gen v (js.filter fun j => (v.bay j).present) s).releasing (js.filter fun j => (v.bay j).present).length
  | [], _, _ => rfl
  | i :: js, s, alike => by
    rw [List.foldl_cons, handReleased_eq alike]
    by_cases present : (v.bay i).present = true
    · obtain ⟨n, hn⟩ : ∃ n, (js.filter fun j => (v.bay j).present).length = n := ⟨_, rfl⟩
      have after : ∀ j, Regrant (v.bay j) ((sendReleased gen v [i] (s.releasing 1)).bay j) := fun j =>
        (alike j).trans (sendReleased_regrant gen v [i] (s.releasing 1) j)
      rw [if_pos present, foldl_handReleased gen v js _ after, List.filter_cons_of_pos (p := fun j => (v.bay j).present) present, List.length_cons, hn]
      have all : sendReleased gen v (js.filter fun j => (v.bay j).present) (sendReleased gen v [i] (s.releasing 1))
          = (s.releasing 1).onto (sendReleased gen v (i :: js.filter fun j => (v.bay j).present) s) :=
        sendReleased_hands gen v (i :: js.filter fun j => (v.bay j).present) s (s.releasing 1) ⟨rfl, rfl, rfl, rfl, rfl⟩
      rw [all, (sendReleased_hands gen v (i :: js.filter fun j => (v.bay j).present)).self s]
      unfold State.releasing State.onto
      simp only [Nat.add_assoc, Nat.add_comm 1 n]
    · rw [if_neg present, foldl_handReleased gen v js s alike, List.filter_cons_of_neg (p := fun j => (v.bay j).present) present]

/-! ## The layouts replaced (R3, R134) -/

/-- A bay's record with role NONE (R134). -/
def Bay.freed (b : Bay) : Bay := { b with role := .none, position := none, incoming := false, remaps := [] }

/-- No layout gives the bay a position. -/
def Unheld (ls : List Layout) (j : Slot) : Prop := ∀ l ∈ ls, ∀ p, p < l.n → l.slotAt p ≠ some j

theorem posOf_isSome {l : Layout} {j : Slot} : (l.posOf j).isSome = true ↔ ∃ p, p < l.n ∧ l.slotAt p = some j := by
  unfold Layout.posOf
  simp [List.find?_isSome]

theorem unheld_iff {ls : List Layout} {j : Slot} : ls.any (fun l => (l.posOf j).isSome) = false ↔ Unheld ls j := by
  rw [← Bool.not_eq_true, List.any_eq_true]
  constructor
  · exact fun h l hl p lt at_ => h ⟨l, hl, posOf_isSome.mpr ⟨p, lt, at_⟩⟩
  · rintro h ⟨l, hl, some_⟩
    obtain ⟨p, lt, at_⟩ := posOf_isSome.mp some_
    exact h l hl p lt at_

theorem foldl_roleNone {js : List Slot} (nodup : js.Nodup) (s : State) : Rebay s (js.foldl (fun s i => roleNone i s) s)
    ∧ ∀ j, (js.foldl (fun s i => roleNone i s) s).bay j = if j ∈ js then (s.bay j).freed else s.bay j :=
  foldl_bays s (fun s i => roleNone i s) (fun _ => Bay.freed)
    (fun t _ _ => ⟨updBay_rebay _ _ t, updBay_bay_same _ _ t, fun _ hj => updBay_bay_ne _ t hj⟩) js nodup s (Rebay.refl s)

/-- What the end of a plan leaves of a bay's record under the layouts then in force. -/
structure Leaves (ls : List Layout) (j : Slot) (b c : Bay) : Prop where
  gone : b.role = .failed → Unheld ls j → c = b.freed
  kept : ¬(b.role = .failed ∧ Unheld ls j) → c = b

/-- One bay's part of `releaseFailed`. -/
def releaseOne (s : State) (i : Slot) : State :=
  if (s.bay i).role == .failed
      && !(s.plan.layouts.any (fun l => (l.posOf i).isSome) || s.plan.incoming.any (·.slot == i)) then roleNone i s else s

theorem releaseFailed_eq (s : State) : releaseFailed s = allSlots.foldl releaseOne s := rfl

theorem releaseFailed_bays {s : State} (none_ : s.plan.incoming = none) :
    Rebay s (releaseFailed s) ∧ ∀ j, Leaves s.plan.layouts j (s.bay j) ((releaseFailed s).bay j) := by
  obtain ⟨g, hg⟩ : ∃ g : Slot → Bay → Bay, g = fun j b =>
      if (b.role == .failed && !s.plan.layouts.any (fun l => (l.posOf j).isSome)) = true then b.freed else b := ⟨_, rfl⟩
  have all := foldl_allSlots s releaseOne g fun t ht k => by
        have plan : t.plan = s.plan := by rw [ht]
        unfold releaseOne
        rw [hg, plan, none_]
        simp only [Option.any_none, Bool.or_false]
        by_cases cond : ((t.bay k).role == .failed && !s.plan.layouts.any (fun l => (l.posOf k).isSome)) = true
        · rw [if_pos cond, if_pos cond]
          exact ⟨updBay_rebay _ _ t, updBay_bay_same _ _ t, fun _ hj => updBay_bay_ne _ t hj⟩
        · rw [if_neg cond, if_neg cond]
          exact ⟨Rebay.refl t, rfl, fun _ _ => rfl⟩
  rw [releaseFailed_eq]
  refine ⟨all.1, fun j => ⟨fun failed unheld => ?_, fun other => ?_⟩⟩
  · refine (all.2 j).trans ?_
    rw [hg]
    exact if_pos (by simp [failed, unheld_iff.mpr unheld])
  · refine (all.2 j).trans ?_
    rw [hg]
    refine if_neg fun cond => other ?_
    rw [Bool.and_eq_true, beq_iff_eq, Bool.not_eq_true', unheld_iff] at cond
    exact cond

/-- What the replacement of the layouts comes to. -/
structure Replaced (ls : List Layout) (s t : State) : Prop where
  frame  : t = { s with
    plan := { s.plan with layouts := ls, incoming := none }
    mover := { s.mover with front := 0, phase := .none }
    mark := { s.mark with state := .off, front := 0 }
    shelf := t.shelf, port := t.port, integ := t.integ, ctl := t.ctl }
  bay    : ∀ j, Leaves ls j (s.bay j) (t.bay j)
  counts : (s.ctl.volume = .online ∨ s.ctl.volume = .degraded ∨ s.ctl.volume = .offline) →
    ¬(s.ctl.state = .halted ∧ s.ctl.cause = .recoveryFailed) → t.ctl.volume = volumeOf t.counts
  none_  : s.ctl.volume = .none → t.ctl.volume = .none

theorem syncLayouts_shelf (s : State) : (syncLayouts s).shelf = s.shelf := rfl

theorem rebaseCounts_shelf (s : State) : (rebaseCounts s).shelf = s.shelf := by rw [rebaseCounts_eq]

theorem rebaseCounts_counts (s : State) : (rebaseCounts s).counts = s.counts := by
  rw [rebaseCounts_eq]
  rfl

theorem rebaseCounts_volume {s : State} (service : s.ctl.volume = .online ∨ s.ctl.volume = .degraded ∨ s.ctl.volume = .offline)
    (going : ¬(s.ctl.state = .halted ∧ s.ctl.cause = .recoveryFailed)) : (rebaseCounts s).ctl.volume = volumeOf s.counts := by
  unfold rebaseCounts setVolume
  dsimp only
  rw [if_neg (by simpa using going)]
  rcases service with h | h | h <;> rw [h] <;> rfl

theorem rebaseCounts_none {s : State} (none_ : s.ctl.volume = .none) : (rebaseCounts s).ctl.volume = .none := by
  unfold rebaseCounts setVolume
  dsimp only
  rw [none_]

theorem replaceLayouts_replaced (ls : List Layout) (s : State) : Replaced ls s (replaceLayouts ls s) := by
  obtain ⟨v, hv⟩ : ∃ v, ({ s with
    plan := { s.plan with layouts := ls, incoming := none }
    mover := { s.mover with front := 0, phase := .none }
    mark := { s.mark with state := .off, front := 0 } } : State) = v := ⟨_, rfl⟩
  have leaves := releaseFailed_bays (s := v) (by rw [← hv])
  have eq : replaceLayouts ls s = rebaseCounts (syncLayouts (releaseFailed v)) := by rw [← hv]; rfl
  obtain ⟨w, hw⟩ : ∃ w, releaseFailed v = w := ⟨_, rfl⟩
  rw [hw] at leaves eq
  obtain ⟨frame, leaves⟩ := leaves
  have before (j : Slot) : v.bay j = s.bay j := bay_congr (by rw [← hv]) j
  have layouts : v.plan.layouts = ls := by rw [← hv]
  have shelf : (replaceLayouts ls s).shelf = w.shelf := by rw [eq, rebaseCounts_shelf, syncLayouts_shelf]
  have ctl : (syncLayouts w).ctl = s.ctl := by
    rw [frame, ← hv]
    rfl
  refine ⟨?_, fun j => ?_, fun service going => ?_, fun none_ => ?_⟩
  · rw [eq, rebaseCounts_eq, frame, ← hv]
    rfl
  · rw [bay_congr shelf, ← before, ← layouts]
    exact leaves j
  · rw [eq, rebaseCounts_counts]
    exact rebaseCounts_volume (by rw [ctl]; exact service) (by rw [ctl]; exact going)
  · rw [eq]
    exact rebaseCounts_none (by rw [ctl]; exact none_)

/-! ## The residue (R112) -/

theorem beginResidue_eq {o : PlanOutcome} {rows gen i : Nat} {t : State} (active : t.plan.active = some i) :
    beginResidue o rows gen t = { t with plan := { t.plan with
      table := t.plan.table.set i
        { t.record i with outcome := o, rowsDone := rows, capacity := t.plan.capacity, generation := gen }
      stage := .residue
      areaWrites := t.plan.areaWrites ++ [{ index := i, source := .ending, content := none, begun := false, left := 0 }] } } := by
  unfold beginResidue
  rw [active]
  rfl

/-- The state at a plan's end in which its residue is then noted. -/
structure Stood (ls : List Layout) (s t : State) : Prop where
  layouts  : t.plan.layouts = ls
  incoming : t.plan.incoming = none
  mover    : t.mover = { s.mover with front := 0, phase := .none }
  mark     : t.mark = { s.mark with front := 0, state := .off, generation := t.mark.generation }
  active   : t.plan.active = s.plan.active
  table    : t.plan.table = s.plan.table
  writes   : t.plan.areaWrites = s.plan.areaWrites

theorem Replaced.stood {ls : List Layout} {s x y : State} (h : Replaced ls x y) (mover : x.mover = s.mover) (mark : x.mark = s.mark)
    (active : x.plan.active = s.plan.active) (table : x.plan.table = s.plan.table)
    (writes : x.plan.areaWrites = s.plan.areaWrites) : Stood ls s y := by
  rw [h.frame]
  refine ⟨rfl, rfl, ?_, ?_, active, table, writes⟩
  · rw [← mover]
  · rw [← mark]

/-- The volume a FORM makes enters service by its counts (R109, R168). -/
def enterService (s : State) : State := { s with ctl := { s.ctl with volume := volumeOf s.counts } }

theorem enterService_kept (s : State) : (enterService s).win = s.win ∧ (enterService s).shelf = s.shelf
    ∧ (enterService s).plan = s.plan ∧ (enterService s).ctl.volume = volumeOf (enterService s).counts := ⟨rfl, rfl, rfl, rfl⟩

theorem Stood.serves {ls : List Layout} {s t : State} (h : Stood ls s t) : Stood ls s (enterService t) :=
  ⟨h.layouts, h.incoming, h.mover, h.mark, h.active, h.table, h.writes⟩

theorem Replaced.kept {ls : List Layout} {x y : State} (h : Replaced ls x y) : y.win = x.win ∧ y.todo = x.todo
    ∧ y.plan.capacity = x.plan.capacity ∧ y.plan.released = x.plan.released := by
  rw [h.frame]
  exact ⟨rfl, rfl, rfl, rfl⟩

section
variable {ls : List Layout} {s t u : State} {o : PlanOutcome} {rows gen i : Nat}

theorem Stood.ended (h : Stood ls s t) (hu : u = beginResidue o rows gen t) (active : s.plan.active = some i)
    (inside : i < s.plan.table.length) :
    u.plan.layouts = ls ∧ u.plan.incoming = none ∧ u.mover = { s.mover with front := 0, phase := .none }
      ∧ u.mark = { s.mark with front := 0, state := .off, generation := u.mark.generation } ∧ u.plan.stage = .residue
      ∧ u.record i = { s.record i with outcome := o, rowsDone := rows, capacity := u.plan.capacity, generation := gen }
      ∧ (∀ j, j ≠ i → u.record j = s.record j)
      ∧ u.plan.areaWrites = s.plan.areaWrites ++ [{ index := i, source := .ending, content := none, begun := false, left := 0 }] := by
  subst hu
  have here : i < t.plan.table.length := by rw [h.table]; exact inside
  have record (j : Nat) : t.record j = s.record j := record_congr h.table j
  obtain ⟨r, hr⟩ : ∃ r : PlanRecord, { t.record i with
    outcome := o, rowsDone := rows, capacity := t.plan.capacity, generation := gen } = r := ⟨_, rfl⟩
  have eq := beginResidue_eq (o := o) (rows := rows) (gen := gen) (h.active.trans active)
  rw [hr] at eq
  have records (j : Nat) : (beginResidue o rows gen t).record j = if j = i then r else s.record j := by
    rw [← record j, ← record_set r here]
    exact record_congr (by rw [eq]; rfl) j
  refine ⟨?_, ?_, ?_, ?_, ?_, ?_, fun j hj => (records j).trans (if_neg hj), ?_⟩
  · rw [eq]
    exact h.layouts
  · rw [eq]
    exact h.incoming
  · rw [eq]
    exact h.mover
  · rw [eq]
    exact h.mark
  · rw [eq]
  · rw [records, if_pos rfl, ← hr, record, eq]
  · rw [eq, ← h.writes]

theorem counts_congr {s t : State} (layouts : t.plan.layouts = s.plan.layouts) (incoming : t.plan.incoming = s.plan.incoming)
    (front : t.mover.front = s.mover.front) (roles : ∀ j, (t.bay j).role = (s.bay j).role) : t.counts = s.counts := by
  have missing (l : Layout) (p : Nat) : t.missing l p = s.missing l p := by
    unfold State.missing State.posMissing State.incomingMissing State.roleMissing
    simp only [incoming, front, roles]
  unfold State.counts State.missingCount
  rw [layouts]
  refine List.map_congr_left fun l _ => ?_
  rw [show t.missing l = s.missing l from funext (missing l)]

/-- What the noting of the residue leaves as it is. -/
structure Noted (t u : State) : Prop where
  win      : u.win = t.win
  ctl      : u.ctl = t.ctl
  mark     : u.mark = t.mark
  shelf    : u.shelf = t.shelf
  todo     : u.todo = t.todo
  capacity : u.plan.capacity = t.plan.capacity
  identity : u.plan.identity = t.plan.identity
  released : u.plan.released = t.plan.released
  counts   : u.counts = t.counts

theorem Stood.noted (h : Stood ls s t) (hu : u = beginResidue o rows gen t) (active : s.plan.active = some i) : Noted t u := by
  subst hu
  have eq := beginResidue_eq (o := o) (rows := rows) (gen := gen) (h.active.trans active)
  refine ⟨?_, ?_, ?_, ?_, ?_, ?_, ?_, ?_, counts_congr ?_ ?_ ?_ fun j => congrArg Bay.role (bay_congr ?_ j)⟩ <;> rw [eq]

end

/-! ## Released labels at a plan's end -/

/-- What sending the released labels of a list of bays comes to. -/
structure Sent (gen : Nat) (v : State) (js : List Slot) (t : State) : Prop where
  frame   : t = { v with
    shelf := t.shelf, integ := t.integ, todo := t.todo, plan := { v.plan with released := t.plan.released } }
  shelf   : t.shelf = (sendReleased gen v (js.filter fun j => (v.bay j).present) v).shelf
  todo    : t.todo = (sendReleased gen v (js.filter fun j => (v.bay j).present) v).todo
  count   : t.plan.released = v.plan.released + (js.filter fun j => (v.bay j).present).length
  regrant : ∀ j, Regrant (v.bay j) (t.bay j)

theorem foldl_handReleased_sent (gen : Nat) (v : State) (js : List Slot) :
    Sent gen v js (js.foldl (fun s i => handReleased gen i s) v) := by
  rw [foldl_handReleased gen v js v fun j => Regrant.refl _]
  obtain ⟨ks, hk⟩ : ∃ ks, (js.filter fun j => (v.bay j).present) = ks := ⟨_, rfl⟩
  have eq : (sendReleased gen v ks v).releasing ks.length = (v.onto (sendReleased gen v ks v)).releasing ks.length := by
    rw [← (sendReleased_hands gen v ks).self v]
  refine ⟨?_, ?_, ?_, ?_, fun j => ?_⟩
  · rw [hk, eq]
    rfl
  · rw [hk]
    rfl
  · rw [hk]
    rfl
  · rw [hk, eq]
    rfl
  · rw [hk]
    exact sendReleased_regrant gen v ks v j

theorem Sent.counts {gen : Nat} {v t : State} {js : List Slot} (h : Sent gen v js t) : t.counts = v.counts := by
  refine counts_congr ?_ ?_ ?_ fun j => (h.regrant j).eqs.2.2 <;> rw [h.frame]

theorem Sent.stood {gen : Nat} {s v t : State} {js : List Slot} {ls : List Layout} (h : Sent gen v js t) (g : Stood ls s v) :
    Stood ls s t := by
  rw [h.frame]
  exact ⟨g.layouts, g.incoming, g.mover, g.mark, g.active, g.table, g.writes⟩

/-- What a removed FORM leaves of the volume's identity (R116). -/
def forgetVolume (s : State) : State :=
  { s with mark := { s.mark with generation := 0 }, plan := { s.plan with identity := 0#64 } }

theorem Stood.forget {s t : State} {ls : List Layout} (h : Stood ls s t) : Stood ls s (forgetVolume t) := by
  refine ⟨h.layouts, h.incoming, h.mover, ?_, h.active, h.table, h.writes⟩
  show { t.mark with generation := 0 } = _
  rw [h.mark]
  rfl

theorem Sent.kept {gen : Nat} {v t : State} {js : List Slot} (h : Sent gen v js t) : t.win = v.win ∧ t.ctl = v.ctl
    ∧ t.mark = v.mark ∧ t.plan.capacity = v.plan.capacity := by
  rw [h.frame]
  exact ⟨rfl, rfl, rfl, rfl⟩

/-! ## The layouts in force at the end -/

theorem capacity_eq (l : Layout) : l.capacity = l.rows * l.unit * (l.n - 1) := (Nat.mul_assoc _ _ _).symm

section
variable {s : State} {l o n : Layout} {inc : Incoming} {gen : Nat}

theorem closingLayout_form (alone : s.growing = none) (only : s.layout .only = some l) (incoming : s.plan.incoming = none) :
    s.closingLayout = some l := by
  unfold State.closingLayout
  rw [alone, only, incoming]

theorem closingLayout_grow (growing : s.growing = some (o, n)) : s.closingLayout = some { n with id := .only } := by
  unfold State.closingLayout
  rw [growing]

theorem closingLayout_replace (alone : s.growing = none) (only : s.layout .only = some l) (incoming : s.plan.incoming = some inc) :
    s.closingLayout = some (l.withMember inc.q (some { slot := inc.slot, serial := inc.serial })) := by
  unfold State.closingLayout
  rw [alone, only, incoming]

theorem completeClose_form (kind : s.activeKind = .form) (closing : s.closingLayout = some l) :
    completeClose gen s = beginResidue .done s.rows gen
      (enterService (replaceLayouts [l] (newCapacity l.capacity s))) := by
  have cap : s.closingCapacity = l.capacity := by simp [State.closingCapacity, kind, closing]
  simp only [completeClose, closing, kind, cap, enterService]

theorem completeClose_grow (kind : s.activeKind = .grow) (closing : s.closingLayout = some l) :
    completeClose gen s = beginResidue .done s.rows gen
      (replaceLayouts [l] (newCapacity l.capacity (renameKeys .new .only (joinedToMember s)))) := by
  have cap : s.closingCapacity = l.capacity := by simp [State.closingCapacity, kind, closing]
  simp only [completeClose, closing, kind, cap]

/-- The former bay of a replaced position, when it is another than the incoming one (R109). -/
def formerBays (l : Layout) (inc : Incoming) : List Slot := (l.slotAt inc.q).toList.filter (· != inc.slot)

theorem mem_formerBays {j : Slot} : j ∈ formerBays l inc ↔ l.slotAt inc.q = some j ∧ j ≠ inc.slot := by
  simp [formerBays]

theorem formerBays_nodup : (formerBays l inc).Nodup := by
  refine List.Nodup.filter _ ?_
  cases l.slotAt inc.q <;> simp

/-- The incoming bay at its position (R109). -/
def seatIncoming (inc : Incoming) (s : State) : State :=
  updBay inc.slot (fun b => { b with incoming := false, position := some inc.q }) (joinedToMember s)

theorem closeReplace_eq {m : Layout} (only : s.layout .only = some l) (incoming : s.plan.incoming = some inc) :
    closeReplace gen m s = (formerBays l inc).foldl (fun s i => handReleased gen i s)
      (replaceLayouts [m] ((formerBays l inc).foldl (fun s i => roleNone i s) (seatIncoming inc s))) := by
  unfold closeReplace formerBays
  rw [incoming]
  dsimp only
  rw [only, Option.bind_some]
  cases at_ : l.slotAt inc.q with
  | none => simp [seatIncoming]
  | some i =>
    by_cases own : i = inc.slot
    · simp [own, seatIncoming]
    · simp [own, seatIncoming]

theorem completeClose_replace {m : Layout} (kind : s.activeKind = .replace) (closing : s.closingLayout = some m) :
    completeClose gen s = beginResidue .done s.rows gen (closeReplace gen m s) := by
  simp only [completeClose, closing, kind]

end

section
variable {s : State} {l o n : Layout} {inc : Incoming} {gen : Nat}

theorem formerLayout_grow (growing : s.growing = some (o, n)) : s.formerLayout = some { o with id := .only } := by
  unfold State.formerLayout
  rw [growing]

/-- The layout a REPLACE gives back: position q holds its former bay again after a rebuild in place (R116). -/
theorem formerLayout_kept (kind : s.activeKind ≠ .form) (alone : s.growing = none) (only : s.layout .only = some l)
    (inPlace : s.plan.inPlace = none) : s.formerLayout = some l := by
  unfold State.formerLayout
  simp only [alone, only, inPlace, beq_eq_false_iff_ne.mpr kind]
  cases s.plan.incoming <;> rfl

theorem formerLayout_inPlace {former : Role × BitVec 64} (kind : s.activeKind ≠ .form) (alone : s.growing = none)
    (only : s.layout .only = some l) (incoming : s.plan.incoming = some inc) (inPlace : s.plan.inPlace = some former) :
    s.formerLayout = some (l.withMember inc.q (some { slot := inc.slot, serial := former.2 })) := by
  unfold State.formerLayout
  simp only [alone, only, incoming, inPlace, beq_eq_false_iff_ne.mpr kind]
  rfl

theorem mem_removed_grow (growing : s.growing = some (o, n)) {j : Slot} : j ∈ s.removedBays ↔
    (∃ p, p < n.n ∧ n.slotAt p = some j) ∧ (∀ p, p < o.n → o.slotAt p ≠ some j) ∧ (s.bay j).role = .none := by
  have outside : (o.posOf j).isNone = true ↔ ∀ p, p < o.n → o.slotAt p ≠ some j := by
    rw [Option.isNone_iff_eq_none, ← Option.not_isSome_iff_eq_none, posOf_isSome]
    simp
  unfold State.removedBays
  simp only [growing]
  rw [List.mem_filter, Bool.and_eq_true, Bool.and_eq_true, posOf_isSome, outside, beq_iff_eq, and_assoc]
  exact and_iff_right (mem_allSlots j)

theorem removed_grow_nodup (growing : s.growing = some (o, n)) : s.removedBays.Nodup := by
  unfold State.removedBays
  simp only [growing]
  exact List.Nodup.filter _ (List.nodup_finRange 64)

theorem removed_replace (alone : s.growing = none) (incoming : s.plan.incoming = some inc) :
    s.removedBays = if (s.bay inc.slot).role == .none then [inc.slot] else [] := by
  unfold State.removedBays
  simp only [alone, incoming]

theorem completeRemove_grow (kind : s.activeKind ≠ .form) (former : s.formerLayout = some l) (incoming : s.plan.incoming = none) :
    completeRemove gen s = beginResidue .dropped s.mover.front gen (s.removedBays.foldl (fun s i => handReleased gen i s)
      (replaceLayouts [l] (renameKeys .old .only s))) := by
  simp only [completeRemove, beq_eq_false_iff_ne.mpr kind, former, incoming, Bool.false_eq_true, if_false, Option.toList_some]

theorem completeRemove_replace (kind : s.activeKind ≠ .form) (former : s.formerLayout = some l)
    (incoming : s.plan.incoming = some inc) :
    completeRemove gen s = beginResidue .dropped s.mover.front gen (s.removedBays.foldl (fun s i => handReleased gen i s)
      (replaceLayouts [l] (renameKeys .old .only (updBay inc.slot (fun b => { b with incoming := false }) s)))) := by
  simp only [completeRemove, beq_eq_false_iff_ne.mpr kind, former, incoming, Bool.false_eq_true, if_false, Option.toList_some]

/-- The bays of a FORM: the members and those that came back STALE (R116, R134). -/
def State.formingBays (s : State) : List Slot := allSlots.filter (fun i => (s.bay i).role == .member || (s.bay i).role == .stale)

theorem mem_formingBays {j : Slot} : j ∈ s.formingBays ↔ (s.bay j).role = .member ∨ (s.bay j).role = .stale := by
  simp [State.formingBays, mem_allSlots]

theorem formingBays_nodup (s : State) : s.formingBays.Nodup := List.Nodup.filter _ (List.nodup_finRange 64)

/-- A removed FORM before its labels: no volume, no layout, its bays NONE (R116). -/
def unform (s : State) : State :=
  replaceLayouts [] { s.formingBays.foldl (fun s i => roleNone i s) s with
    ctl := { (s.formingBays.foldl (fun s i => roleNone i s) s).ctl with volume := .none } }

theorem completeRemove_form (kind : s.activeKind = .form) :
    completeRemove gen s = beginResidue .dropped s.mover.front gen
      (forgetVolume (s.formingBays.foldl (fun s i => handReleased gen i s) (unform s))) := by
  simp only [completeRemove, kind, beq_self_eq_true, if_true]
  rfl

end

/-! ## The end of the plan (R112) -/

theorem rulePlanEnd_waits {s : State} (h : s.plan.released ≠ 0 ∨ (∃ w ∈ s.plan.areaWrites, w.source = .ending)
    ∨ (s.ctl.faultPending = true ∧ s.ctl.state = .closing)) : rulePlanEnd s = none := by
  unfold rulePlanEnd
  refine if_neg fun cond => ?_
  rw [Bool.and_eq_true, Bool.and_eq_true, Bool.and_eq_true, beq_iff_eq, beq_iff_eq, Bool.not_eq_true', Bool.not_eq_true'] at cond
  obtain ⟨⟨⟨-, released⟩, writes⟩, fault⟩ := cond
  rcases h with h | ⟨w, hw, ending⟩ | ⟨pending, closing⟩
  · exact h released
  · rw [List.any_eq_false] at writes
    exact writes w hw (by simp [ending])
  · simp [pending, closing] at fault

/-- The plan gone, its chain moved on (R112). -/
def planGone (i : Nat) (s : State) : State := clearActive (moveChain (planDone i s).chainAfter (planDone i s))

theorem rulePlanEnd_ends {s : State} {i : Nat} (stage : s.plan.stage = .residue) (active : s.plan.active = some i)
    (h : ¬(s.plan.released ≠ 0 ∨ (∃ w ∈ s.plan.areaWrites, w.source = .ending)
      ∨ (s.ctl.faultPending = true ∧ s.ctl.state = .closing))) :
    rulePlanEnd s = some (if (planGone i s).ctl.state == .closing then setEngine .idle (planGone i s) else planGone i s) := by
  have released : s.plan.released = 0 := by
    by_contra n
    exact h (.inl n)
  have writes : s.plan.areaWrites.any (·.source == .ending) = false := by
    rw [List.any_eq_false]
    exact fun w hw ending => h (.inr (.inl ⟨w, hw, by simpa using ending⟩))
  have fault : (s.ctl.faultPending && s.ctl.state == .closing) = false := by
    rw [← Bool.not_eq_true, Bool.and_eq_true, beq_iff_eq]
    exact fun both => h (.inr (.inr both))
  unfold rulePlanEnd
  rw [if_pos (by simp [stage, released, writes, fault]), active]
  rfl

theorem planGone_eq {s : State} {i : Nat} (active : s.plan.active = some i) (inside : i < s.plan.table.length) :
    planGone i s = clearActive { s with
      plan := { s.plan with
        pointer := (s.chainNext (s.record i).cont).1, status := (s.chainNext (s.record i).cont).2
        hold := false, keepHold := false, beforeFirst := false }
      win := { s.win with events := { s.win.events with
        planDone := s.win.events.planDone || !(s.record i).quiet
        chainEnd := s.win.events.chainEnd || (s.chainNext (s.record i).cont).2 == .ended || (s.chainNext (s.record i).cont).2 == .held } } } := by
  have after : (planDone i s).chainAfter = s.chainNext (s.record i).cont := by
    rw [planDone_eq]
    exact chainAfter_eq (s := { s with win := { s.win with events := { s.win.events with
      planDone := s.win.events.planDone || !(s.record i).quiet } } }) active inside
  unfold planGone
  rw [after, planDone_eq, moveChain_eq, moveChain_win]

/-! ## O53 -/

section
variable {s t v u : State} {ls : List Layout} {gen i rows : Nat} {o : PlanOutcome} {js : List Slot}

/-- What the released labels of a plan's end come to, once the residue is noted. -/
theorem Sent.released (h : Sent gen v js t) (noted : Noted t u) (nodup : js.Nodup) (todo : v.todo = s.todo)
    (count : v.plan.released = s.plan.released) :
    (js.filter fun j => (v.bay j).present).Nodup
      ∧ u.shelf = (sendReleased gen v (js.filter fun j => (v.bay j).present) v).shelf ∧ v.todo = s.todo
      ∧ u.todo = (sendReleased gen v (js.filter fun j => (v.bay j).present) v).todo
      ∧ u.plan.released = s.plan.released + (js.filter fun j => (v.bay j).present).length :=
  ⟨nodup.filter _, noted.shelf.trans h.shelf, todo, noted.todo.trans h.todo,
    noted.released.trans (h.count.trans (by rw [count]))⟩

/-- What a plan's end looks at besides the bays and the layouts is as it was. -/
structure Book (s x : State) : Prop where
  mover    : x.mover = s.mover
  mark     : x.mark = s.mark
  active   : x.plan.active = s.plan.active
  table    : x.plan.table = s.plan.table
  writes   : x.plan.areaWrites = s.plan.areaWrites
  todo     : x.todo = s.todo
  released : x.plan.released = s.plan.released

theorem Rebay.book {s x : State} (h : Rebay s x) : Book s x := by
  rw [h]
  exact ⟨rfl, rfl, rfl, rfl, rfl, rfl, rfl⟩

/-- What a plan's end with released labels comes to, `v` the state before they are sent. -/
structure Releases (gen : Nat) (ls : List Layout) (js : List Slot) (s x v u : State) : Prop where
  win      : u.win = x.win
  capacity : u.plan.capacity = x.plan.capacity
  counts   : (x.ctl.volume = .online ∨ x.ctl.volume = .degraded ∨ x.ctl.volume = .offline) →
    ¬(x.ctl.state = .halted ∧ x.ctl.cause = .recoveryFailed) → u.ctl.volume = volumeOf u.counts
  sent     : (js.filter fun j => (v.bay j).present).Nodup
      ∧ u.shelf = (sendReleased gen v (js.filter fun j => (v.bay j).present) v).shelf ∧ v.todo = s.todo
      ∧ u.todo = (sendReleased gen v (js.filter fun j => (v.bay j).present) v).todo
      ∧ u.plan.released = s.plan.released + (js.filter fun j => (v.bay j).present).length
  bay      : ∀ j, Leaves ls j (x.bay j) (v.bay j)

theorem Leaves.present {j : Slot} {b c : Bay} (h : Leaves ls j b c) : c.present = b.present := by
  by_cases leaves : b.role = .failed ∧ Unheld ls j
  · rw [h.gone leaves.1 leaves.2]
    rfl
  · rw [h.kept leaves]

theorem Releases.targets {x : State} (h : Releases gen ls js s x v u) (present : ∀ j, (x.bay j).present = (s.bay j).present) (j : Slot) :
    j ∈ (js.filter fun j => (v.bay j).present) ↔ j ∈ js ∧ (s.bay j).present = true := by
  rw [List.mem_filter, (h.bay j).present, present]

/-- The end of a plan whose layouts are replaced and whose leaving bays are written released labels. -/
theorem releases {x : State} (book : Book s x) (nodup : js.Nodup) (active : s.plan.active = some i)
    (hu : u = beginResidue o rows gen (js.foldl (fun s i => handReleased gen i s) (replaceLayouts ls x))) :
    ∃ t v, Stood ls s t ∧ u = beginResidue o rows gen t ∧ Releases gen ls js s x v u := by
  have replaced := replaceLayouts_replaced ls x
  obtain ⟨v, hv⟩ : ∃ v, replaceLayouts ls x = v := ⟨_, rfl⟩
  rw [hv] at hu replaced
  have sent := foldl_handReleased_sent gen v js
  obtain ⟨t, ht⟩ : ∃ t, js.foldl (fun s i => handReleased gen i s) v = t := ⟨_, rfl⟩
  rw [ht] at hu sent
  have stood := sent.stood (replaced.stood book.mover book.mark book.active book.table book.writes)
  have noted := stood.noted hu active
  obtain ⟨win, todo, capacity, released⟩ := replaced.kept
  obtain ⟨winSent, ctlSent, -, capacitySent⟩ := sent.kept
  refine ⟨t, v, stood, hu, noted.win.trans (winSent.trans win), noted.capacity.trans (capacitySent.trans capacity), fun service going => ?_,
    sent.released noted nodup (todo.trans book.todo) (released.trans book.released), replaced.bay⟩
  rw [noted.ctl, noted.counts, ctlSent, sent.counts]
  exact replaced.counts service going

theorem Leaves.freed {j : Slot} {b c : Bay} (h : Leaves ls j b.freed c) : c = b.freed := h.kept fun failed => by cases failed.1

theorem slotAt_withMember {l : Layout} {q : Nat} {m : Member} (h : q < l.n) : (l.withMember q (some m)).slotAt q = some m.slot := by
  unfold Layout.slotAt Layout.withMember
  rw [List.getD_eq_getElem?_getD, List.getElem?_set_self h]
  rfl

theorem byCounts_of (h : u.ctl.volume = volumeOf u.counts) :
    ((∃ c ∈ u.counts, 2 ≤ c.2) → u.ctl.volume = .offline)
      ∧ ((∀ c ∈ u.counts, c.2 < 2) → (∃ c ∈ u.counts, c.2 = 1) → u.ctl.volume = .degraded)
      ∧ ((∀ c ∈ u.counts, c.2 = 0) → u.ctl.volume = .online) :=
  h ▸ volumeOf_cases u.counts

theorem joinedToMember_bay (s : State) (j : Slot) : (joinedToMember s).bay j
    = if (s.bay j).role = .joining then { s.bay j with role := .member, incoming := false } else s.bay j := by
  unfold joinedToMember
  rw [updAllBays_bay]
  simp only [beq_iff_eq]

theorem seatIncoming_bays {inc : Incoming} (alone : ∀ j, (s.bay j).role = .joining → j = inc.slot) :
    ((s.bay inc.slot).role = .joining → (seatIncoming inc s).bay inc.slot
        = { s.bay inc.slot with role := .member, position := some inc.q, incoming := false })
      ∧ ((s.bay inc.slot).role ≠ .joining →
        (seatIncoming inc s).bay inc.slot = { s.bay inc.slot with position := some inc.q, incoming := false })
      ∧ ∀ j, j ≠ inc.slot → (seatIncoming inc s).bay j = s.bay j := by
  unfold seatIncoming
  refine ⟨fun joining => ?_, fun other => ?_, fun j hj => ?_⟩
  · rw [updBay_bay_same, joinedToMember_bay, if_pos joining]
  · rw [updBay_bay_same, joinedToMember_bay, if_neg other]
  · rw [updBay_bay_ne _ _ hj, joinedToMember_bay, if_neg (mt (alone j) hj)]

end

/-- Settles O53: each kind's closing and removal is a replacement of the layouts, what it leaves of the bays, the released labels
sent, and the residue noted, each by its own lemma; the plan's end by its rule. -/
theorem planEnds : Obligations.PlanEnds := by
  unfold Obligations.PlanEnds
  refine ⟨?_, ?_⟩
  · intro s gen i table active inside ended grown byCounts inService gone unheld released
    have listed : i < s.plan.table.length := by rw [table]; exact inside
    refine ⟨?_, ?_, ?_, ?_, ?_, ?_⟩
    · intro l kind alone only incoming u
      have close : u = _ := completeClose_form (gen := gen) kind (closingLayout_form alone only incoming)
      have replaced := replaceLayouts_replaced [l] (newCapacity l.capacity s)
      obtain ⟨y, hy⟩ : ∃ y, replaceLayouts [l] (newCapacity l.capacity s) = y := ⟨_, rfl⟩
      rw [hy] at close replaced
      have stood := (replaced.stood (s := s) rfl rfl rfl rfl rfl).serves
      have noted := stood.noted close active
      obtain ⟨win, shelf, plan, volume⟩ := enterService_kept y
      have bay (j : Slot) : u.bay j = y.bay j := bay_congr (noted.shelf.trans shelf) j
      refine ⟨stood.ended close active listed, ⟨?_, ?_⟩, byCounts_of ?_, fun j h => ?_, fun j h => ?_⟩
      · rw [noted.capacity, plan, ← capacity_eq]
        exact replaced.kept.2.2.1
      · rw [noted.win, win]
        exact replaced.kept.1
      · rw [noted.ctl, noted.counts, volume]
      · exact (bay j).trans ((replaced.bay j).gone h.1 h.2)
      · exact (bay j).trans ((replaced.bay j).kept h)
    · intro o n kind growing u l
      have close : u = _ := completeClose_grow (gen := gen) kind (closingLayout_grow growing)
      obtain ⟨x, hx⟩ : ∃ x, newCapacity l.capacity (renameKeys .new .only (joinedToMember s)) = x := ⟨_, rfl⟩
      rw [hx] at close
      have replaced := replaceLayouts_replaced [l] x
      have stood := replaced.stood (s := s) (by rw [← hx]; rfl) (by rw [← hx]; rfl) (by rw [← hx]; rfl) (by rw [← hx]; rfl)
        (by rw [← hx]; rfl)
      have noted := stood.noted close active
      have before (j : Slot) : x.bay j = (joinedToMember s).bay j := bay_congr (by rw [← hx]; rfl) j
      have bay (j : Slot) : Leaves [l] j ((joinedToMember s).bay j) (u.bay j) := by
        rw [← before j, bay_congr noted.shelf j]
        exact replaced.bay j
      obtain ⟨win, -, capacity, -⟩ := replaced.kept
      refine ⟨stood.ended close active listed, ⟨?_, ?_⟩, fun service => byCounts_of ?_, fun j joining => ?_, fun j h => ?_,
        fun j other h => ?_⟩
      · rw [noted.capacity, capacity, ← capacity_eq, ← hx]
        rfl
      · rw [noted.win, win, ← hx]
        rfl
      · rw [noted.ctl, noted.counts]
        exact replaced.counts (by rw [← hx]; exact service.1) (by rw [← hx]; exact service.2)
      · have here := bay j
        rw [joinedToMember_bay, if_pos joining] at here
        exact here.kept fun failed => by cases failed.1
      · have here := bay j
        rw [joinedToMember_bay, if_neg (by rw [h.1]; simp)] at here
        exact here.gone h.1 h.2
      · have here := bay j
        rw [joinedToMember_bay, if_neg other] at here
        exact here.kept h
    · intro l inc kind alone only incoming position joining u m former
      have close : u = _ := completeClose_replace (gen := gen) kind (closingLayout_replace alone only incoming)
      rw [closeReplace_eq only incoming] at close
      obtain ⟨x, hx⟩ : ∃ x, (formerBays l inc).foldl (fun s i => roleNone i s) (seatIncoming inc s) = x := ⟨_, rfl⟩
      obtain ⟨rebay, freed⟩ := foldl_roleNone (formerBays_nodup (l := l) (inc := inc)) (seatIncoming inc s)
      rw [hx] at close rebay freed
      have frame : Rebay s x := Rebay.trans (by rfl) rebay
      obtain ⟨member, other, others⟩ := seatIncoming_bays joining
      have incomingStays : x.bay inc.slot = (seatIncoming inc s).bay inc.slot :=
        (freed inc.slot).trans (if_neg fun h => (mem_formerBays.mp h).2 rfl)
      have formerLeaves (j : Slot) (h : former j) : x.bay j = (s.bay j).freed := by
        rw [freed j, if_pos (mem_formerBays.mpr h), others j h.2]
      have otherStays (j : Slot) (hj : j ≠ inc.slot) (h : ¬former j) : x.bay j = s.bay j := by
        rw [freed j, if_neg (mt mem_formerBays.mp h), others j hj]
      have held : ¬Unheld [m] inc.slot := fun h =>
        h m (List.mem_singleton_self m) inc.q (by rw [show m.n = l.n from List.length_set]; exact position) (slotAt_withMember position)
      have present (j : Slot) : (x.bay j).present = (s.bay j).present := by
        by_cases hj : j = inc.slot
        · rw [hj, incomingStays]
          by_cases joins : (s.bay inc.slot).role = .joining
          · rw [member joins]
          · rw [other joins]
        · by_cases leaves : former j
          · rw [formerLeaves j leaves]
            rfl
          · rw [otherStays j hj leaves]
      obtain ⟨t, v, stood, ht, h⟩ := releases frame.book formerBays_nodup active close
      have incomingKept : v.bay inc.slot = (seatIncoming inc s).bay inc.slot :=
        ((h.bay inc.slot).kept fun leaves => held leaves.2).trans incomingStays
      refine ⟨stood.ended ht active listed, ?_, ?_, fun service => byCounts_of (h.counts ?_ ?_), v, _, h.sent,
        fun j => (h.targets present j).trans (and_congr_left fun _ => mem_formerBays), fun joins => incomingKept.trans (member joins),
        fun stays => incomingKept.trans (other stays), fun j leaves => ?_, fun j hj leaves => ?_, fun j hj notFormer held => ?_⟩
      · rw [h.capacity, frame]
      · rw [h.win, frame]
      · rw [frame]
        exact service.1
      · rw [frame]
        exact service.2
      · have here := h.bay j
        rw [formerLeaves j leaves] at here
        exact here.freed
      · have here := h.bay j
        by_cases goes : former j
        · rw [formerLeaves j goes] at here
          exact here.freed
        · rw [otherStays j hj goes] at here
          exact here.gone leaves.1 leaves.2
      · have here := h.bay j
        rw [otherStays j hj notFormer] at here
        exact here.kept held
    · intro kind u
      have close : u = _ := completeRemove_form (gen := gen) kind
      unfold unform at close
      obtain ⟨rebay, freed⟩ := foldl_roleNone (formingBays_nodup s) s
      obtain ⟨w, hw⟩ : ∃ w, s.formingBays.foldl (fun s i => roleNone i s) s = w := ⟨_, rfl⟩
      rw [hw] at close rebay freed
      obtain ⟨x, hx⟩ : ∃ x, ({ w with ctl := { w.ctl with volume := .none } } : State) = x := ⟨_, rfl⟩
      have replaced := replaceLayouts_replaced [] x
      obtain ⟨v, hv⟩ : ∃ v, replaceLayouts [] x = v := ⟨_, rfl⟩
      have sent := foldl_handReleased_sent gen v s.formingBays
      obtain ⟨t, ht⟩ : ∃ t, s.formingBays.foldl (fun s i => handReleased gen i s) v = t := ⟨_, rfl⟩
      rw [hx, hv, ht] at close
      rw [hv] at replaced
      rw [ht] at sent
      have frame : x = { s with shelf := x.shelf, ctl := { s.ctl with volume := .none } } := by
        rw [← hx]
        rw [rebay]
      have same (j : Slot) : x.bay j = if j ∈ s.formingBays then (s.bay j).freed else s.bay j :=
        (bay_congr (by rw [← hx]) j).trans (freed j)
      have stood := sent.stood (replaced.stood (s := s) (by rw [frame]) (by rw [frame]) (by rw [frame]) (by rw [frame]) (by rw [frame]))
      have noted := stood.forget.noted close active
      obtain ⟨win, todo, capacity, count⟩ := replaced.kept
      obtain ⟨winSent, ctlSent, -, capacitySent⟩ := sent.kept
      have gone_ (j : Slot) (h : j ∈ s.formingBays ∨ (s.bay j).role = .failed) : gone v j := by
        have here := replaced.bay j
        rw [same] at here
        by_cases forming : j ∈ s.formingBays
        · rw [if_pos forming] at here
          exact here.freed
        · rw [if_neg forming] at here
          exact here.gone (h.resolve_left forming) fun l hl => (List.not_mem_nil hl).elim
      have present (j : Slot) : (v.bay j).present = (s.bay j).present := by
        rw [(replaced.bay j).present, same]
        split <;> rfl
      refine ⟨stood.forget.ended close active listed, ?_, ?_, ?_, ?_, ?_, v, s.formingBays.filter fun j => (v.bay j).present,
        ⟨(formingBays_nodup s).filter _, noted.shelf.trans sent.shelf, ?_, noted.todo.trans sent.todo, ?_⟩, fun j => ?_, fun j leaves => ?_,
        fun j member stale failed => ?_⟩
      · rw [noted.ctl]
        show t.ctl.volume = _
        rw [ctlSent]
        exact replaced.none_ (by rw [← hx])
      · rw [noted.mark]
        rfl
      · rw [noted.identity]
        rfl
      · rw [noted.capacity]
        show t.plan.capacity = _
        rw [capacitySent, capacity, frame]
      · rw [noted.win]
        show t.win = _
        rw [winSent, win, frame]
      · rw [todo, frame]
      · rw [noted.released]
        show t.plan.released = _
        rw [sent.count, count, frame]
      · rw [List.mem_filter, mem_formingBays, present]
      · exact gone_ j (leaves.elim (fun h => .inl (mem_formingBays.mpr (.inl h)))
          fun h => h.elim (fun h => .inl (mem_formingBays.mpr (.inr h))) .inr)
      · have here := replaced.bay j
        rw [same, if_neg (fun h => (mem_formingBays.mp h).elim member stale)] at here
        exact here.kept fun leaves => failed leaves.1
    · intro o n kind growing incoming u l
      have close : u = _ := completeRemove_grow (gen := gen) (by rw [kind]; simp) (formerLayout_grow growing) incoming
      obtain ⟨x, hx⟩ : ∃ x, renameKeys .old .only s = x := ⟨_, rfl⟩
      rw [hx] at close
      have book : Book s x := by
        rw [← hx]
        exact ⟨rfl, rfl, rfl, rfl, rfl, rfl, rfl⟩
      have same (j : Slot) : x.bay j = s.bay j := bay_congr (by rw [← hx]; rfl) j
      obtain ⟨t, v, stood, ht, h⟩ := releases book (removed_grow_nodup growing) active close
      refine ⟨stood.ended ht active listed, ?_, ?_, fun service => byCounts_of (h.counts ?_ ?_), v, _, h.sent,
        fun j => (h.targets (fun j => by rw [same]) j).trans ?_, fun j leaves => ?_, fun j held => ?_⟩
      · rw [h.capacity, ← hx]
        rfl
      · rw [h.win, ← hx]
        rfl
      · rw [← hx]
        exact service.1
      · rw [← hx]
        exact service.2
      · rw [mem_removed_grow growing, and_assoc, and_assoc]
      · have here := h.bay j
        rw [same] at here
        exact here.gone leaves.1 leaves.2
      · have here := h.bay j
        rw [same] at here
        exact here.kept held
    · intro l inc kind alone only incoming u back
      have notForm : s.activeKind ≠ .form := by rw [kind]; simp
      have former : s.formerLayout = some back := by
        cases inPlace : s.plan.inPlace with
        | none => exact (formerLayout_kept notForm alone only inPlace).trans (by simp [back, inPlace])
        | some _ => exact (formerLayout_inPlace notForm alone only incoming inPlace).trans (by simp [back, inPlace, Layout.withMember])
      have close : u = _ := completeRemove_replace (gen := gen) notForm former incoming
      obtain ⟨x, hx⟩ : ∃ x, renameKeys .old .only (updBay inc.slot (fun b => { b with incoming := false }) s) = x := ⟨_, rfl⟩
      rw [hx] at close
      have book : Book s x := by
        rw [← hx]
        exact ⟨rfl, rfl, rfl, rfl, rfl, rfl, rfl⟩
      have before (j : Slot) : x.bay j = (updBay inc.slot (fun b => { b with incoming := false }) s).bay j :=
        bay_congr (by rw [← hx]; rfl) j
      have own : x.bay inc.slot = { s.bay inc.slot with incoming := false } := (before _).trans (updBay_bay_same _ _ s)
      have others (j : Slot) (hj : j ≠ inc.slot) : x.bay j = s.bay j := (before j).trans (updBay_bay_ne _ s hj)
      have present (j : Slot) : (x.bay j).present = (s.bay j).present := by
        by_cases hj : j = inc.slot
        · rw [hj, own]
        · rw [others j hj]
      have nodup : s.removedBays.Nodup := by
        rw [removed_replace alone incoming]
        split <;> simp
      obtain ⟨t, v, stood, ht, h⟩ := releases book nodup active close
      refine ⟨stood.ended ht active listed, ?_, ?_, fun service => byCounts_of (h.counts ?_ ?_), v, _, h.sent,
        fun j => (h.targets present j).trans ?_, fun j leaves => ?_, fun j hj held => ?_, fun held => ?_⟩
      · rw [h.capacity, ← hx]
        rfl
      · rw [h.win, ← hx]
        rfl
      · rw [← hx]
        exact service.1
      · rw [← hx]
        exact service.2
      · rw [removed_replace alone incoming]
        by_cases none_ : (s.bay inc.slot).role = .none
        · rw [if_pos (by simpa using none_), List.mem_singleton]
          exact ⟨fun ⟨e, p⟩ => ⟨e, e ▸ none_, p⟩, fun ⟨e, _, p⟩ => ⟨e, p⟩⟩
        · rw [if_neg (by simpa using none_)]
          exact ⟨fun ⟨e, _⟩ => (List.not_mem_nil e).elim, fun ⟨e, r, _⟩ => absurd (e ▸ r) none_⟩
      · have here := h.bay j
        by_cases hj : j = inc.slot
        · subst hj
          rw [own] at here
          exact here.gone leaves.1 leaves.2
        · rw [others j hj] at here
          exact here.gone leaves.1 leaves.2
      · have here := h.bay j
        rw [others j hj] at here
        exact here.kept held
      · have here := h.bay inc.slot
        rw [own] at here
        exact here.kept held
  · intro s i stage table active inside waits r p
    have listed : i < s.plan.table.length := by rw [table]; exact inside
    refine ⟨rulePlanEnd_waits, fun ready => ⟨_, rulePlanEnd_ends stage active ready, ?_⟩⟩
    obtain ⟨z, hz⟩ : ∃ z, planGone i s = z := ⟨_, rfl⟩
    have gone := hz
    rw [planGone_eq active listed] at gone
    rw [hz]
    have ctl : z.ctl = s.ctl := by rw [← gone]; rfl
    obtain ⟨u, hu⟩ : ∃ u, (if z.ctl.state == .closing then setEngine .idle z else z) = u := ⟨_, rfl⟩
    have same : u.plan = z.plan ∧ u.win = z.win ∧ u.shelf = z.shelf ∧ u.mark = z.mark ∧ u.mover = z.mover := by
      rw [← hu]
      split <;> exact ⟨rfl, rfl, rfl, rfl, rfl⟩
    obtain ⟨plan, win, shelf, mark, mover⟩ := same
    have stops : u.win.events.chainEnd = (s.win.events.chainEnd || p.2 == .ended || p.2 == .held) := by
      rw [win, ← gone]
      rfl
    rw [hu]
    refine ⟨?_, ?_, ?_, ?_, ?_, ?_, ?_, fun stopped => ?_, fun due => ?_, fun closing => ?_, fun other => ?_, ?_, ?_, ?_⟩
    · rw [plan, ← gone]
      rfl
    · rw [plan, ← gone]
      rfl
    · rw [plan, ← gone]
      rfl
    · rw [plan, ← gone]
      rfl
    · rw [plan, ← gone]
      rfl
    · rw [plan, ← gone]
      rfl
    · rw [win, ← gone]
      rfl
    · rw [stops]
      rcases stopped with e | e <;> rw [e]
      · rw [show (ChainStatus.ended == ChainStatus.ended) = true from rfl, Bool.or_true, Bool.true_or]
      · rw [show (ChainStatus.held == ChainStatus.held) = true from rfl, Bool.or_true]
    · rw [stops, due]
      exact (Bool.or_false _).trans (Bool.or_false _)
    · rw [← hu, if_pos (by rw [ctl, closing]; rfl), setEngine, ctl]
    · rw [← hu, if_neg (by rw [ctl]; simpa using other), ctl]
    · rw [shelf, ← gone]
      rfl
    · rw [mark, ← gone]
      rfl
    · rw [mover, ← gone]
      rfl
end Sys2Proof.Machine
end

