-- ==== Sys2Proof/Proofs/Recovering.lean ====
section
/-! PROOFS. Recovery at assembly (R33, R143, R182 to R185). -/

namespace Sys2Proof.Machine

/-! ## The bays at NEW positions (R182) -/

section
variable {s : State} {o n : Layout}

theorem newBays_eq (growing : s.growing = some (o, n)) : s.newBays = (List.range n.n).filterMap (fun p =>
    (n.slotAt p).bind (fun i => if s.asm.current.contains i then some (p, i) else none)) := by
  unfold State.newBays
  rw [growing]

theorem newBays_filter (growing : s.growing = some (o, n)) (ok : Slot → Bool) :
    s.newBays.filter (fun p => ok p.2) = (List.range n.n).filterMap (fun p =>
      ((n.slotAt p).filter (fun i => s.asm.current.contains i && ok i)).map (fun i => (p, i))) := by
  rw [newBays_eq growing, List.filter_filterMap]
  refine List.filterMap_congr fun p _ => ?_
  cases n.slotAt p with
  | none => rfl
  | some i =>
    by_cases hc : i ∈ s.asm.current <;> cases ho : ok i <;> simp [Option.filter, hc, ho]

theorem newBays_fst (growing : s.growing = some (o, n)) : (s.newBays.map (·.1)).Nodup := by
  rw [newBays_eq growing]
  have own : (List.range n.n).Pairwise fun p q => p ≠ q := List.nodup_range
  refine List.pairwise_map.mpr (List.Pairwise.filterMap _ ?_ own)
  intro p q ne x hx y hy
  have first {p : Nat} {x : Nat × Slot}
      (h : x ∈ (n.slotAt p).bind (fun i => if s.asm.current.contains i then some (p, i) else none)) : x.1 = p := by
    obtain ⟨i, -, h⟩ := Option.bind_eq_some_iff.mp h
    split at h
    · exact (congrArg Prod.fst (Option.some.inj h)).symm
    · cases h
  rw [first hx, first hy]
  exact ne

end

/-! ## The spill records (R182) -/

section
variable {s : State} {o n : Layout}

theorem mayRestore_iff : s.mayRestore = true ↔
    (s.plan.stage ≠ .none ∧ s.plan.stage ≠ .waiting) ∧ (∃ g, s.growing = some g) ∧ s.mover.phase = .migrate := by
  unfold State.mayRestore
  rw [Bool.and_eq_true, Bool.and_eq_true, planInstalled_iff, Option.isSome_iff_exists, beq_iff_eq, and_assoc]

theorem beginRecovery_ends (h : ¬s.mayRestore = true) : beginRecovery s = beginAssemblyEnd s := if_neg h

theorem beginRecovery_asks (h : s.mayRestore = true) : beginRecovery s = s.newBays.foldl
    (fun x p => handReserve p.2 .mark (.read 1023 1) .assemblySpillRead x)
    { s with asm := { s.asm with asked := 1, reads := s.newBays.length } } := by
  unfold beginRecovery
  rw [if_pos h]
  dsimp only
  rw [List.foldl_map, List.length_map]
  rfl

theorem spillChosen_lowest {i : Slot} {r : SpillRecord} (mem : (i, r) ∈ s.asm.spills) (low : ∀ x ∈ s.asm.spills, i ≤ x.1)
    (one : ∀ x ∈ s.asm.spills, x.1 = i → x.2 = r) : s.spillChosen = some r := by
  obtain ⟨y, found⟩ : ∃ y, s.asm.spills.find? (·.1 == i) = some y :=
    Option.isSome_iff_exists.mp (List.find?_isSome.mpr ⟨(i, r), mem, beq_self_eq_true i⟩)
  have key : y.1 = i := by simpa using List.find?_some found
  have value : y.2 = r := one y (List.mem_of_find?_eq_some found) key
  obtain ⟨zs, hz⟩ : ∃ zs, allSlots.filterMap (fun i => s.asm.spills.find? (·.1 == i)) = zs := ⟨_, rfl⟩
  have listed : y ∈ zs := hz ▸ List.mem_filterMap.mpr ⟨i, mem_allSlots i, found⟩
  have inside : ∀ z ∈ zs, z ∈ s.asm.spills := by
    rintro z hz'
    obtain ⟨j, -, found⟩ := List.mem_filterMap.mp (hz ▸ hz')
    exact List.mem_of_find?_eq_some found
  have ascending : zs.Pairwise fun a b => a.1 < b.1 := by
    rw [← hz]
    refine List.Pairwise.filterMap _ (fun j k lt a ha b hb => ?_) allSlots_pairwise
    have hj : a.1 = j := by simpa using List.find?_some ha
    have hk : b.1 = k := by simpa using List.find?_some hb
    rw [hj, hk]
    exact lt
  unfold State.spillChosen
  rw [hz]
  cases zs with
  | nil => exact (List.not_mem_nil listed).elim
  | cons z zs =>
    rcases List.mem_cons.mp listed with rfl | later
    · exact congrArg some value
    · have before := (List.pairwise_cons.mp ascending).1 y later
      rw [key] at before
      exact absurd (low z (inside z List.mem_cons_self)) (not_le.mpr before)

end

/-! ## The step restored (R183) -/

/-- The places of a column, in order, waiting for one READ. -/
def columnCells (n : Layout) (front len id p : Nat) : List (Cell × CellState) :=
  (List.range len).map (fun k => (columnCell n front p k, CellState.waiting id))

/-- The places the column READs under way are to bring, the READs numbered from the first on. -/
def restoreCells (n : Layout) (front len : Nat) : Nat → List (Nat × Slot) → List (Cell × CellState)
  | _, [] => []
  | id, u :: us => columnCells n front len id u.1 ++ restoreCells n front len (id + 1) us

theorem mem_restoreCells {n : Layout} {front len : Nat} {x : Cell × CellState} : ∀ {id : Nat} {us : List (Nat × Slot)},
    x ∈ restoreCells n front len id us ↔ ∃ j p i k, us[j]? = some (p, i) ∧ k < len
      ∧ x = (columnCell n front p k, CellState.waiting (id + j))
  | _, [] => by simp [restoreCells]
  | id, u :: us => by
    rw [restoreCells, List.mem_append, mem_restoreCells, columnCells, List.mem_map]
    constructor
    · rintro (⟨k, hk, rfl⟩ | ⟨j, p, i, k, at_, hk, rfl⟩)
      · exact ⟨0, u.1, u.2, k, rfl, List.mem_range.mp hk, rfl⟩
      · exact ⟨j + 1, p, i, k, at_, hk, by rw [Nat.add_assoc, Nat.add_comm 1 j]⟩
    · rintro ⟨j, p, i, k, at_, hk, rfl⟩
      cases j with
      | zero =>
        obtain rfl := Option.some.inj at_
        exact .inl ⟨k, List.mem_range.mpr hk, rfl⟩
      | succ j => exact .inr ⟨j, p, i, k, at_, hk, by rw [Nat.add_assoc, Nat.add_comm 1 j]⟩

theorem handReserve_nextOp (i : Slot) (cls : OpClass) (kind : OpKind) (owner : Owner) (s : State) :
    (handReserve i cls kind owner s).shelf.nextOp = s.shelf.nextOp + 1 := enqueue_nextOp _ _

/-- One column READ handed over and its places noted. -/
def askColumn (n : Layout) (front len : Nat) (q : State × Fetch) (u : Nat × Slot) : State × Fetch :=
  (handReserve u.2 .mover (.read Config.spillBase len) .assemblyColumnRead q.1,
   { q.2 with cells := q.2.cells ++ columnCells n front len q.1.shelf.nextOp u.1 })

theorem foldl_askColumn (n : Layout) (front len : Nat) : ∀ (us : List (Nat × Slot)) (s : State) (f : Fetch),
    us.foldl (askColumn n front len) (s, f)
      = (us.foldl (fun x p => handReserve p.2 .mover (.read 1024 len) .assemblyColumnRead x) s,
         { f with cells := f.cells ++ restoreCells n front len s.shelf.nextOp us })
  | [], s, f => by simp [restoreCells]
  | u :: us, s, f => by
    rw [List.foldl_cons, askColumn, foldl_askColumn, handReserve_nextOp, restoreCells, List.append_assoc]
    rfl

theorem at_of_keyed {f : Fetch} {c : Cell} {v : CellState} (some_ : ∃ x ∈ f.cells, x.1 = c)
    (keyed : ∀ x ∈ f.cells, x.1 = c → x.2 = v) : f.at c = some v := by
  obtain ⟨x, hx, key⟩ := some_
  obtain ⟨y, found⟩ : ∃ y, f.cells.find? (·.1 == c) = some y :=
    Option.isSome_iff_exists.mp (List.find?_isSome.mpr ⟨x, hx, by simp [key]⟩)
  unfold Fetch.at
  rw [found]
  exact congrArg some (keyed y (List.mem_of_find?_eq_some found) (by simpa using List.find?_some found))

theorem markBad_frame (cs : List Cell) : ∀ f : Fetch, markBad cs f = { f with cells := (markBad cs f).cells } := by
  induction cs with
  | nil => exact fun _ => rfl
  | cons c cs ih =>
    intro f
    have step : markBad (c :: cs) f = markBad cs (f.put c .bad) := rfl
    rw [step, ih, put_frame f c]

theorem mem_markBad {cs : List Cell} {x : Cell × CellState} : ∀ {f : Fetch}, x ∈ (markBad cs f).cells →
    x ∈ f.cells ∨ (x.1 ∈ cs ∧ x.2 = .bad) := by
  induction cs with
  | nil => exact fun h => .inl h
  | cons c cs ih =>
    intro f h
    rcases ih (f := f.put c .bad) h with old | ⟨mem, bad⟩
    · rcases mem_put old with rfl | old
      · exact .inr ⟨List.mem_cons_self, rfl⟩
      · exact .inl old
    · exact .inr ⟨List.mem_cons_of_mem _ mem, bad⟩

theorem markBad_at {cs : List Cell} {c : Cell} : ∀ {f : Fetch}, f.at c = some .bad ∨ c ∈ cs → (markBad cs f).at c = some .bad := by
  induction cs with
  | nil => exact fun h => h.elim id fun h => (List.not_mem_nil h).elim
  | cons d cs ih =>
    intro f h
    refine ih (f := f.put d .bad) ?_
    by_cases e : c = d
    · subst e
      exact .inl (Fetch.put_at f c .bad)
    · rcases h with h | h
      · exact .inl ((Fetch.put_other f d c .bad e).trans h)
      · exact .inr ((List.mem_cons.mp h).resolve_left e)

theorem columnCell_inj {n : Layout} {front p q j k : Nat} (h : columnCell n front p j = columnCell n front q k) :
    p = q ∧ j = k := by
  obtain ⟨row, pos, off⟩ := Cell.mk.inj h
  refine ⟨pos, ?_⟩
  rw [← Nat.div_add_mod j n.unit, ← Nat.div_add_mod k n.unit, off, Nat.add_left_cancel row]

/-- The restored step's blocks as its column READs begin (R183). -/
def restoreFetch (n : Layout) (front len first : Nat) (cols : List (Nat × Slot)) : Fetch :=
  let f := markBad (((List.range n.n).filter (fun p => !cols.any (·.1 == p))).flatMap (fun p => (List.range len).map (columnCell n front p)))
    (Fetch.fresh n ((List.range n.n).flatMap (fun p => (List.range len).map (columnCell n front p))))
  { f with cells := f.cells ++ restoreCells n front len first cols }

section
variable {n : Layout} {front len first : Nat} {cols : List (Nat × Slot)}

theorem restoreFetch_layout : (restoreFetch n front len first cols).layout = n := by
  unfold restoreFetch
  dsimp only
  rw [markBad_frame]
  rfl

theorem restoreFetch_wanted {c : Cell} : c ∈ (restoreFetch n front len first cols).wanted ↔
    ∃ p k, p < n.n ∧ k < len ∧ c = columnCell n front p k := by
  unfold restoreFetch
  dsimp only
  rw [markBad_frame]
  simp only [Fetch.fresh, List.mem_flatMap, List.mem_map, List.mem_range]
  constructor
  · rintro ⟨p, hp, k, hk, rfl⟩
    exact ⟨p, k, hp, hk, rfl⟩
  · rintro ⟨p, k, hp, hk, rfl⟩
    exact ⟨p, hp, k, hk, rfl⟩

/-- Every place known of the restored step: not to be had where no column is usable, else waiting for its column. -/
theorem mem_restoreFetch {x : Cell × CellState} (h : x ∈ (restoreFetch n front len first cols).cells) :
    (∃ p k, (∀ y ∈ cols, y.1 ≠ p) ∧ x = (columnCell n front p k, .bad))
      ∨ ∃ j p i k, cols[j]? = some (p, i) ∧ k < len ∧ x = (columnCell n front p k, .waiting (first + j)) := by
  rcases List.mem_append.mp h with h | h
  · rcases mem_markBad h with h | ⟨mem, bad⟩
    · exact (List.not_mem_nil h).elim
    · obtain ⟨p, hp, mem⟩ := List.mem_flatMap.mp mem
      obtain ⟨k, -, key⟩ := List.mem_map.mp mem
      have lack := (List.mem_filter.mp hp).2
      rw [Bool.not_eq_true', List.any_eq_false] at lack
      exact .inl ⟨p, k, fun y hy e => lack y hy (by simp [e]), Prod.ext key.symm bad⟩
  · exact .inr (mem_restoreCells.mp h)

theorem restoreFetch_waits (own : (cols.map (·.1)).Nodup) {j p k : Nat} {i : Slot} (at_ : cols[j]? = some (p, i)) (hk : k < len) :
    (restoreFetch n front len first cols).at (columnCell n front p k) = some (.waiting (first + j)) := by
  refine at_of_keyed ⟨_, List.mem_append_right _ (mem_restoreCells.mpr ⟨j, p, i, k, at_, hk, rfl⟩), rfl⟩ fun x hx key => ?_
  rcases mem_restoreFetch hx with ⟨q, m, lack, rfl⟩ | ⟨j', q, i', m, at', -, rfl⟩
  · obtain ⟨rfl, -⟩ := columnCell_inj key
    exact absurd rfl (lack (q, i) (List.mem_of_getElem? at_))
  · obtain ⟨rfl, -⟩ := columnCell_inj key
    have fst (m : Nat) (i : Slot) (h : cols[m]? = some (q, i)) : (cols.map (·.1))[m]? = some q := by
      rw [List.getElem?_map, h]
      rfl
    have lt : j < (cols.map (·.1)).length := (List.getElem?_eq_some_iff.mp (fst j i at_)).1
    have same : j = j' := (List.getElem?_inj lt own).mp (by rw [fst j i at_, fst j' i' at'])
    rw [same]

theorem restoreFetch_lacks {p k : Nat} (hp : p < n.n) (lack : ∀ y ∈ cols, y.1 ≠ p) (hk : k < len) :
    (restoreFetch n front len first cols).at (columnCell n front p k) = some .bad := by
  unfold restoreFetch
  dsimp only
  rw [at_append, markBad_at (.inr (List.mem_flatMap.mpr ⟨p, ?_, List.mem_map.mpr ⟨k, List.mem_range.mpr hk, rfl⟩⟩))]
  · rfl
  · refine List.mem_filter.mpr ⟨List.mem_range.mpr hp, ?_⟩
    rw [Bool.not_eq_true', List.any_eq_false]
    exact fun y hy e => lack y hy (by simpa using e)

end

/-- The restored step as its column READs begin (R183). -/
def restoreStep (n : Layout) (r : SpillRecord) (source : List RowUnit) (first : Nat) (cols : List (Nat × Slot)) : Step :=
  { newStep .migrate n r.front r.rows r.first r.stop source with
    stage := .place, spill := true, handed := true, restore := true, outstanding := cols.length
    fetch := restoreFetch n r.front (r.rows * n.unit) first cols }

theorem beginRestore_eq (r : SpillRecord) (o n : Layout) (s : State) :
    beginRestore r o n s = { setStep .a (some (restoreStep n r (growthSource o r.first r.stop) s.shelf.nextOp s.usable))
        (s.usable.foldl (fun x p => handReserve p.2 .mover (.read 1024 (r.rows * n.unit)) .assemblyColumnRead x) s) with
      mark := { (s.usable.foldl (fun x p => handReserve p.2 .mover (.read 1024 (r.rows * n.unit)) .assemblyColumnRead x) s).mark with
        state := markFreeze
          (s.usable.foldl (fun x p => handReserve p.2 .mover (.read 1024 (r.rows * n.unit)) .assemblyColumnRead x) s).mark.state }
      asm := { (s.usable.foldl (fun x p => handReserve p.2 .mover (.read 1024 (r.rows * n.unit)) .assemblyColumnRead x) s).asm with
        stage := .columns, reads := s.usable.length } } := by
  have fold := foldl_askColumn n r.front (r.rows * n.unit) s.usable s
    (markBad (((List.range n.n).filter (fun p => !s.usable.any (·.1 == p))).flatMap
      (fun p => (List.range (r.rows * n.unit)).map (columnCell n r.front p)))
      (Fetch.fresh n ((List.range n.n).flatMap (fun p => (List.range (r.rows * n.unit)).map (columnCell n r.front p)))))
  unfold beginRestore restoreStep restoreFetch
  dsimp only
  unfold askColumn columnCells at fold
  rw [fold]
  rfl

theorem markFreeze_eq (m : MarkState) : markFreeze m = if m = .off then .off else .dirty := by
  cases m <;> rfl

/-- What the step's set-up changes, the READs handed over (R183). -/
theorem setUp_frame {s z : State} (h : z = { s with shelf := z.shelf, todo := z.todo }) (t : Step) (n : Nat) :
    ({ setStep .a (some t) z with
      mark := { z.mark with state := markFreeze z.mark.state }, asm := { z.asm with stage := .columns, reads := n } } : State)
    = { s with
      shelf := z.shelf, todo := z.todo, mover := (setStep .a (some t) z).mover
      mark := { s.mark with state := if s.mark.state = .off then .off else .dirty }
      asm := { s.asm with stage := .columns, reads := n } } := by
  rw [h, ← markFreeze_eq]
  rfl

theorem records_recovers {s : State} (stage : s.asm.stage = .records) (asked : s.asm.asked = 0) :
    ruleRecords s = some (beginRecovery s) := by
  unfold ruleRecords
  rw [if_pos (by simp [stage]), if_pos (by simp [asked])]

theorem records_waits {s : State} (asked : s.asm.asked ≠ 0) (reads : s.asm.reads ≠ 0) : ruleRecords s = none := by
  unfold ruleRecords
  simp [asked, reads]

theorem records_restores {s : State} {r : SpillRecord} {o n : Layout} (stage : s.asm.stage = .records) (asked : s.asm.asked ≠ 0)
    (reads : s.asm.reads = 0) (chosen : s.spillChosen = some r) (growing : s.growing = some (o, n)) :
    ruleRecords s = some (beginRestore r o n s) := by
  unfold ruleRecords
  rw [if_pos (by simp [stage]), if_neg (by simpa using asked), if_pos (by simp [reads]), chosen, growing]

theorem records_ends {s : State} (stage : s.asm.stage = .records) (asked : s.asm.asked ≠ 0) (reads : s.asm.reads = 0)
    (h : s.asm.spills = [] ∨ s.growing = none) : ruleRecords s = some (beginAssemblyEnd s) := by
  unfold ruleRecords
  rw [if_pos (by simp [stage]), if_neg (by simpa using asked), if_pos (by simp [reads])]
  rcases h with spills | growing
  · have none_ : s.spillChosen = none := by simp [State.spillChosen, spills]
    rw [none_]
  · rw [growing]
    cases s.spillChosen <;> rfl

/-! ## The columns judged (R183, R184) -/

theorem unobtained_iff {f : Fetch} {c : Cell} : c ∈ f.unobtained ↔ c ∈ f.wanted ∧ f.at c = some .bad := by
  unfold Fetch.unobtained
  rw [List.mem_filter, beq_iff_eq]

theorem twoGone_iff {f : Fetch} : f.twoGone = true ↔ ∃ c d, (c ∈ f.wanted ∧ f.at c = some .bad)
    ∧ (d ∈ f.wanted ∧ f.at d = some .bad) ∧ c.row = d.row ∧ c.off = d.off ∧ c.pos ≠ d.pos := by
  unfold Fetch.twoGone
  simp only [List.any_eq_true, unobtained_iff, Bool.and_eq_true, beq_iff_eq, bne_iff_ne]
  constructor
  · rintro ⟨c, hc, d, hd, ⟨row, off⟩, pos⟩
    exact ⟨c, d, hc, hd, row.symm, off.symm, pos.symm⟩
  · rintro ⟨c, d, hc, hd, row, off, pos⟩
    exact ⟨c, hc, d, hd, ⟨row.symm, off.symm⟩, pos.symm⟩

section
variable {s : State} {t : Step} {o n : Layout}

theorem columns_waits (h : s.asm.stage ≠ .columns ∨ s.asm.reads ≠ 0) : ruleColumns s = none := by
  unfold ruleColumns
  refine if_neg fun cond => ?_
  rw [Bool.and_eq_true, beq_iff_eq, beq_iff_eq] at cond
  exact h.elim (fun h => h cond.1) fun h => h cond.2

theorem columns_judges (stage : s.asm.stage = .columns) (reads : s.asm.reads = 0) (slot : s.stepIn .a = some t)
    (growing : s.growing = some (o, n)) :
    ruleColumns s = some (if t.fetch.twoGone = true then recoveryFails s else placeRestored t n s) := by
  unfold ruleColumns
  rw [if_pos (by simp [stage, reads]), show s.mover.slotA = some t from slot, growing]

theorem recoveryFails_eq : recoveryFails s = takePages { s with
    mover := { s.mover with slotA := none }
    ctl := { s.ctl with
      state := .halted, volume := .offline, cause := .recoveryFailed, faultLayout := none, latch := true
      saved := some .running, lastReport := s.counts
      lastTolerance := if s.ctl.tuning.degradedContinue = true then 1 else 0 }
    mark := { s.mark with state := (s.asm.chosen.map (·.markState)).getD s.mark.state }
    win := { s.win with events := { s.win.events with engineHalted := true } }
    asm := { s.asm with stage := .idle } } := rfl

/-- The units of the restored rows, every position's. -/
def Step.restoredUnits (t : Step) (n : Layout) : List RowUnit :=
  (List.range n.n).flatMap (fun p => (List.range t.rows).map (fun k => ({ row := t.front + k, pos := p } : RowUnit)))

/-- The restored step with its rows built (R183). -/
def Step.restored (t : Step) (n : Layout) : Step :=
  { t with
    built := (t.restoredUnits n).map (fun u => (u, (n.unitCells u).map (restoredBlock t.fetch)))
    fetch := Fetch.fresh n [] }

/-- The writes of a restored step (R183, R59). -/
def Step.restoreWrites (t : Step) (n : Layout) (s : State) : List PlaceWrite :=
  ((List.range n.n).filterMap (fun p => (n.slotAt p).bind (fun i => if s.serves i then some (p, i) else none))).flatMap
    (fun x => (t.restored n).columnWrites s x.1 x.2)

theorem mem_restoredUnits {u : RowUnit} : u ∈ t.restoredUnits n ↔ ∃ p k, p < n.n ∧ k < t.rows ∧ u = { row := t.front + k, pos := p } := by
  simp only [Step.restoredUnits, List.mem_flatMap, List.mem_map, List.mem_range]
  constructor
  · rintro ⟨p, hp, k, hk, rfl⟩
    exact ⟨p, k, hp, hk, rfl⟩
  · rintro ⟨p, k, hp, hk, rfl⟩
    exact ⟨p, hp, k, hk, rfl⟩

theorem restored_column {v : Step} (built : v.built = (t.restored n).built) {p k off : Nat} (hp : p < n.n) (hk : k < t.rows)
    (ho : off < n.unit) :
    (v.column p (t.front + k) 1)[off]? = some (restoredBlock t.fetch { row := t.front + k, pos := p, off := off }) := by
  have column : v.column p (t.front + k) 1
      = (n.unitCells { row := t.front + k, pos := p }).map (restoredBlock t.fetch) := by
    refine column_of (u := { row := t.front + k, pos := p }) ?_ fun y hy key => ?_
    · rw [built]
      exact List.mem_map.mpr ⟨_, mem_restoredUnits.mpr ⟨p, k, hp, hk, rfl⟩, rfl⟩
    · rw [built] at hy
      obtain ⟨u, -, rfl⟩ := List.mem_map.mp hy
      rw [show u = _ from key]
  rw [column]
  simp [Layout.unitCells, Layout.offsets, ho]

theorem restoredBlock_held {f : Fetch} {c : Cell} {b : Block}
    (h : f.at c = some (.got b) ∨ f.at c = some (.poison b) ∨ f.at c = some (.rebuilt b)) : restoredBlock f c = b := by
  unfold restoredBlock
  rcases h with h | h | h <;> rw [h]

theorem makeBlock_fields (d : Data) (ref : BitVec 32) (app : BitVec 16) :
    (makeBlock d ref app).guard = guardOf (makeBlock d ref app).data
      ∧ ((makeBlock d ref app).data, (makeBlock d ref app).app) = (d, app) ∧ (makeBlock d ref app).ref = ref := by
  simp only [makeBlock, and_self]

theorem rebuildBlock_good (l : Layout) (c : Cell) (srcs : List (Data × BitVec 16)) :
    (rebuildBlock l c srcs).guard = guardOf (rebuildBlock l c srcs).data
      ∧ ((rebuildBlock l c srcs).data, (rebuildBlock l c srcs).app) = xorAll srcs ∧ (rebuildBlock l c srcs).ref = l.refOf c := by
  have made : rebuildBlock l c srcs = makeBlock (xorAll srcs).1 (l.refOf c) (xorAll srcs).2 := by
    unfold rebuildBlock Layout.refOf
    cases l.lbaOf c with
    | none => rfl
    | some _ => rfl
  rw [made]
  exact makeBlock_fields _ _ _

theorem restoredBlock_bad {f : Fetch} {c : Cell} {src : Nat → Data × BitVec 16} (bad : f.at c = some .bad)
    (known : ∀ q, q < f.layout.n → q ≠ c.pos → ∃ b, (f.at { c with pos := q } = some (.got b) ∧ src q = (b.data, b.app))
      ∨ (f.at { c with pos := q } = some (.poison b) ∧ src q = (zeroData, 0#16))) :
    restoredBlock f c = rebuildBlock f.layout c (((List.range f.layout.n).filter (· != c.pos)).map src) := by
  have sources : (f.layout.others c).filterMap (fun o => ((f.at o).bind CellState.block).map (fun b => sourceOf b.1 b.2))
      = ((List.range f.layout.n).filter (· != c.pos)).map src := by
    unfold Layout.others
    rw [List.filterMap_map, ← List.filterMap_eq_map]
    refine List.filterMap_congr fun q hq => ?_
    obtain ⟨lt, ne⟩ := List.mem_filter.mp hq
    obtain ⟨b, ⟨at_, e⟩ | ⟨at_, e⟩⟩ := known q (List.mem_range.mp lt) (by simpa using ne)
    · simp [at_, e, CellState.block, sourceOf]
    · simp [at_, e, CellState.block, sourceOf]
  unfold restoredBlock
  rw [bad]
  exact congrArg (rebuildBlock f.layout c) sources

theorem mem_restoreWrites {w : PlaceWrite} : w ∈ t.restoreWrites n s ↔ ∃ p i r m, p < n.n ∧ n.slotAt p = some i
    ∧ (s.bay i).present = true ∧ ((s.bay i).role = .member ∨ (s.bay i).role = .joining) ∧ (r, m) ∈ cutRows s i t.front t.rows
    ∧ w = { slot := i, row := r, off := 0, blocks := (t.restored n).column p r m } := by
  have serves (i : Slot) : s.serves i = true ↔ (s.bay i).present = true ∧ ((s.bay i).role = .member ∨ (s.bay i).role = .joining) := by
    simp [State.serves]
  unfold Step.restoreWrites Step.columnWrites
  simp only [List.mem_flatMap, List.mem_filterMap, List.mem_range, Option.bind_eq_some_iff, List.mem_map]
  constructor
  · rintro ⟨x, ⟨p, hp, i, slot, target⟩, c, hc, rfl⟩
    split at target
    next there =>
      obtain rfl := Option.some.inj target
      obtain ⟨present, role⟩ := (serves i).mp there
      exact ⟨p, i, c.1, c.2, hp, slot, present, role, hc, rfl⟩
    next => cases target
  · rintro ⟨p, i, r, m, hp, slot, present, role, hc, rfl⟩
    exact ⟨(p, i), ⟨p, hp, i, slot, if_pos ((serves i).mpr ⟨present, role⟩)⟩, (r, m), hc, rfl⟩

/-- The writes of a restored step handed over. -/
def handRestored (n : Layout) (ws : List PlaceWrite) (s : State) : State :=
  ws.foldl (fun s w => handUnit w.slot .mover n.unit w.row w.off (fun b => .write b w.blocks) .restorePlace s) s

theorem handRestored_hands (n : Layout) (ws : List PlaceWrite) : Hands (handRestored n ws) :=
  Hands.foldl (f := fun s (w : PlaceWrite) => handUnit w.slot .mover n.unit w.row w.off (fun b => .write b w.blocks) .restorePlace s)
    (fun w => handUnit_hands w.slot .mover n.unit w.row w.off (fun b => .write b w.blocks) .restorePlace) ws

theorem placeRestored_eq : placeRestored t n s = handRestored n (t.restoreWrites n s)
    { setStep .a (some { t.restored n with outstanding := (t.restoreWrites n s).length }) s with
      asm := { s.asm with stage := .placing } } := rfl

theorem restored_waits {k : Nat} (slot : s.stepIn .a = some t) (out : t.outstanding = k + 1) : ruleRestored s = none := by
  unfold ruleRestored
  rw [show s.mover.slotA = some t from slot]
  simp [out]

theorem restored_ends (stage : s.asm.stage = .placing) (slot : s.stepIn .a = some t) (out : t.outstanding = 0) :
    ruleRestored s = some (beginAssemblyEnd { s with
      mover := { s.mover with front := t.front + t.rows, slotA := none }, asm := { s.asm with restored := true } }) := by
  unfold ruleRestored
  rw [if_pos (by simp [stage]), show s.mover.slotA = some t from slot]
  exact if_pos (by simp [out])

end

/-! ## O56 -/

/-- Settles O56: each rule of recovery by its conditions; the restored step's places by where their columns stand, its blocks by
what became of them. -/
theorem assemblyRecovers : Obligations.AssemblyRecovers := by
  unfold Obligations.AssemblyRecovers
  refine ⟨?_, ?_, ?_⟩
  · intro s restorable
    refine ⟨fun stage => if_neg (by simpa using stage), fun stage asked none_ => ?_, fun stage asked reads => records_waits asked reads,
      fun stage asked reads h => records_ends stage asked reads h, ?_⟩
    · rw [records_recovers stage asked, beginRecovery_ends (mt mayRestore_iff.mp none_)]
    · intro o n growing stage held
      have usable (ok : Slot → Bool) : held ok = s.newBays.filter (fun p => ok p.2) := (newBays_filter growing ok).symm
      refine ⟨fun asked restore => ?_, ?_⟩
      · have all : held (fun _ => true) = s.newBays := (usable _).trans (List.filter_true _)
        rw [records_recovers stage asked, beginRecovery_asks (mayRestore_iff.mpr restore), all]
      · intro i r asked reads mem low one cols cell z
        have same : cols = s.usable := usable _
        have eq := (records_restores stage asked reads (spillChosen_lowest mem low one) growing).trans
          (congrArg some (beginRestore_eq r o n s))
        rw [← same] at eq
        have own : (cols.map (·.1)).Nodup := by
          rw [same]
          exact (newBays_fst growing).sublist (List.Sublist.map _ List.filter_sublist)
        obtain ⟨hands, integ⟩ := foldl_handReserve_hands (fun p : Nat × Slot => p.2) .mover
          (fun _ => .read 1024 (r.rows * n.unit)) .assemblyColumnRead cols
        have sent : z = s.onto z := hands.self s
        have quiet : z.integ = s.integ := integ s
        have mover : z.mover = s.mover := by rw [sent]; rfl
        refine ⟨_, _, eq, rfl, ?_, rfl, rfl, rfl, rfl, rfl, rfl, rfl, rfl, rfl, rfl, restoreFetch_layout, fun c => restoreFetch_wanted,
          fun j p i at_ k hk => restoreFetch_waits own at_ hk, fun p hp lack k hk => restoreFetch_lacks hp lack hk, ?_⟩
        · show z.mover.slotB = _
          rw [mover]
          rfl
        · exact setUp_frame (sent.trans (by rw [State.onto, quiet])) _ _
  · refine fun s => ⟨columns_waits, ?_⟩
    intro o n t stage reads slot growing bad fails
    have judged := columns_judges stage reads slot growing
    refine ⟨fun fail => ?_, fun fine layout => ?_⟩
    · rw [if_pos (twoGone_iff.mpr fail), recoveryFails_eq] at judged
      refine ⟨_, judged, ?_⟩
      cases s.asm.chosen <;> rfl
    · rw [if_neg (mt twoGone_iff.mp fine), placeRestored_eq] at judged
      obtain ⟨ws, hws⟩ : ∃ ws, t.restoreWrites n s = ws := ⟨_, rfl⟩
      obtain ⟨v, hv⟩ : ∃ v, ({ t.restored n with outstanding := ws.length } : Step) = v := ⟨_, rfl⟩
      rw [hws, hv, handRestored_hands n ws s _ (by exact ⟨rfl, rfl, rfl, rfl, rfl⟩)] at judged
      have at_ (p k off : Nat) (hp : p < n.n) (hk : k < t.rows) (ho : off < n.unit) :=
        restored_column (v := v) (by rw [← hv]) hp hk ho
      refine ⟨_, v, ws, judged, rfl, rfl, ?_, ?_, fun w => ?_, rfl⟩
      · rw [← hv]
        rfl
      · intro p k off hp hk ho c
        refine ⟨fun b held => ?_, fun lost src known => ?_⟩
        · rw [at_ p k off hp hk ho, restoredBlock_held held]
        · have block := restoredBlock_bad (c := c) (src := src) lost (by rw [layout]; exact known)
          obtain ⟨guard, sum, ref⟩ := rebuildBlock_good t.fetch.layout c (((List.range t.fetch.layout.n).filter (· != c.pos)).map src)
          rw [← block] at guard sum ref
          refine ⟨_, at_ p k off hp hk ho, guard, ?_, ?_⟩
          · rw [layout] at sum
            exact sum
          · rw [layout] at ref
            refine ref.trans ?_
            unfold Layout.refOf
            cases n.lbaOf c <;> rfl
      · rw [← hws, ← hv]
        exact mem_restoreWrites
  · intro s t stage slot
    refine ⟨fun out => ?_, restored_ends stage slot⟩
    obtain ⟨k, hk⟩ := Nat.exists_eq_succ_of_ne_zero out
    exact restored_waits slot hk
end Sys2Proof.Machine
end

