-- ==== Sys2Proof/Proofs/Matching.lean ====
section
/-! PROOFS. Matching of members by serial, and the state loaded from the chosen label (R99, R151, R177 to R181). -/

namespace Sys2Proof.Machine

/-! ## Drives found and their labels (R177, R178) -/

/-- A scanned bay whose drive gave the serial. -/
def State.Drive (s : State) (serial : BitVec 64) (i : Slot) : Prop :=
  i ∈ s.asm.scanSet ∧ (s.bay i).readiness = .ready ∧ ∃ c, (s.bay i).ident = some (serial, c)

/-- A READY bay's label. -/
def State.Labelled (s : State) (i : Slot) (m : Label) : Prop := (s.bay i).readiness = .ready ∧ (s.bay i).label = some m

/-- A bay whose label names another volume. -/
def State.Foreign (s : State) (l : Label) (i : Slot) : Prop := ∃ m, s.Labelled i m ∧ m.identity ≠ 0#64 ∧ m.identity ≠ l.identity

/-- The bay a serial's drive is found in. -/
def State.Found (s : State) (l : Label) (serial : BitVec 64) (i : Slot) : Prop :=
  s.Drive serial i ∧ (∀ j, j < i → ¬s.Drive serial j) ∧ ¬s.Foreign l i

/-- The label records a serial's position missing. -/
def Label.Records (l : Label) (serial : BitVec 64) : Prop :=
  (∃ x ∈ l.layouts, ∃ e ∈ x.entries, e.missing = true ∧ ∃ m, e.member = some m ∧ m.serial = serial)
    ∨ ∃ c, l.incoming = some c ∧ c.record.serial = serial ∧ c.missing = true

/-- A bay's label is current for a serial. -/
def State.Current (s : State) (l : Label) (serial : BitVec 64) (i : Slot) : Prop := ∃ m, s.Labelled i m ∧ m.identity ≠ 0#64
  ∧ m.identity = l.identity ∧ (m.generation = l.generation ∨ (m.generation + 1 = l.generation ∧ ¬l.Records serial))

/-- The label names a serial. -/
def Label.Names (l : Label) (serial : BitVec 64) : Prop :=
  (∃ x ∈ l.layouts, ∃ e ∈ x.entries, ∃ m, e.member = some m ∧ m.serial = serial)
    ∨ ∃ c, l.incoming = some c ∧ c.record.serial = serial

/-- A named drive was found in the bay. -/
def State.Taken (s : State) (l : Label) (i : Slot) : Prop := ∃ serial, l.Names serial ∧ s.Found l serial i

/-- The bay stands for a member, as found or as recorded. -/
def State.Stands (s : State) (l : Label) (m : Member) (i : Slot) : Prop :=
  s.Found l m.serial i ∨ ((∀ j, ¬s.Found l m.serial j) ∧ ¬s.Taken l m.slot ∧ i = m.slot)

section
variable {s : State} {l : Label} {serial : BitVec 64} {i j : Slot}

theorem mem_scanned : i ∈ s.scanned ↔ i ∈ s.asm.scanSet := by
  simp [State.scanned, mem_allSlots]

theorem find?_ascending {p : Slot → Bool} : ∀ {is : List Slot}, is.Pairwise (· < ·) →
    (is.find? p = some i ↔ i ∈ is ∧ p i = true ∧ ∀ j ∈ is, j < i → ¬p j = true)
  | [], _ => by simp
  | a :: is, asc => by
    obtain ⟨first, asc⟩ := List.pairwise_cons.mp asc
    by_cases ha : p a = true
    · rw [List.find?_cons_of_pos ha, Option.some.injEq]
      constructor
      · rintro rfl
        refine ⟨List.mem_cons_self, ha, fun j hj lt => ?_⟩
        rcases List.mem_cons.mp hj with rfl | hj
        · exact (lt_irrefl _ lt).elim
        · exact (lt_asymm lt (first j hj)).elim
      · rintro ⟨hi, -, low⟩
        rcases List.mem_cons.mp hi with rfl | hi
        · rfl
        · exact absurd ha (low a List.mem_cons_self (first i hi))
    · rw [List.find?_cons_of_neg ha, find?_ascending asc]
      constructor
      · rintro ⟨hi, good, low⟩
        refine ⟨List.mem_cons_of_mem _ hi, good, fun j hj lt => ?_⟩
        rcases List.mem_cons.mp hj with rfl | hj
        · exact ha
        · exact low j hj lt
      · rintro ⟨hi, good, low⟩
        refine ⟨(List.mem_cons.mp hi).resolve_left fun e => ha (e ▸ good), good, fun j hj lt => low j (List.mem_cons_of_mem _ hj) lt⟩

theorem driveOf_iff : s.driveOf serial = some i ↔ s.Drive serial i ∧ ∀ j, j < i → ¬s.Drive serial j := by
  have ident (i : Slot) : (s.bay i).ident.map (·.1) = some serial ↔ ∃ c, (s.bay i).ident = some (serial, c) := by
    cases (s.bay i).ident with
    | none => simp
    | some x =>
      simp only [Option.map_some, Option.some.injEq]
      exact ⟨fun e => ⟨x.2, Prod.ext e rfl⟩, fun ⟨c, e⟩ => by rw [e]⟩
  have asks (i : Slot) : ((s.bay i).readiness == .ready && (s.bay i).ident.map (·.1) == some serial) = true ↔
      (s.bay i).readiness = .ready ∧ ∃ c, (s.bay i).ident = some (serial, c) := by
    rw [Bool.and_eq_true, beq_iff_eq, beq_iff_eq, ident]
  have ascending : s.scanned.Pairwise (· < ·) := allSlots_pairwise.filter _
  unfold State.driveOf State.Drive
  rw [find?_ascending ascending, asks, mem_scanned]
  refine and_assoc.symm.trans (and_congr_right fun _ => forall_congr' fun j => ?_)
  rw [mem_scanned, asks]
  exact ⟨fun h lt both => h both.1 lt both.2, fun h scan lt rest => h lt ⟨scan, rest⟩⟩

theorem scanLabel_iff {m : Label} : s.scanLabel i = some m ↔ s.Labelled i m := by
  unfold State.scanLabel State.Labelled
  by_cases ready : (s.bay i).readiness = .ready
  · rw [if_pos (by simpa using ready)]
    exact (and_iff_right ready).symm
  · rw [if_neg (by simpa using ready)]
    exact iff_of_false (by simp) fun h => ready h.1

theorem foreignTo_iff : s.foreignTo l i = true ↔ s.Foreign l i := by
  unfold State.foreignTo State.Foreign
  rw [Option.any_eq_true]
  simp only [scanLabel_iff, Bool.and_eq_true, bne_iff_ne]

theorem recordsMissing_iff : l.recordsMissing serial = true ↔ l.Records serial := by
  unfold Label.recordsMissing Label.Records
  simp only [Bool.or_eq_true, List.any_eq_true, Option.any_eq_true, Bool.and_eq_true, beq_iff_eq]

/-- Where a bay stands by the label a scanned bay gave (R177, R178). -/
theorem standing_cases :
    (s.Foreign l i ∧ s.standing l i serial = .other) ∨ (s.Current l serial i ∧ ¬s.Foreign l i ∧ s.standing l i serial = .current)
      ∨ (¬s.Foreign l i ∧ ¬s.Current l serial i ∧ (s.standing l i serial = .behind ∨ s.standing l i serial = .blank)) := by
  have only (m n : Label) (h : s.scanLabel i = some m) (g : s.Labelled i n) : n = m :=
    Option.some.inj ((scanLabel_iff.mpr g).symm.trans h)
  unfold State.standing
  cases label : s.scanLabel i with
  | none =>
    have none_ (m : Label) : ¬s.Labelled i m := fun h => by rw [scanLabel_iff.mpr h] at label; cases label
    exact .inr (.inr ⟨fun ⟨m, h, _⟩ => none_ m h, fun ⟨m, h, _⟩ => none_ m h, .inr rfl⟩)
  | some m =>
    have here := scanLabel_iff.mp label
    have other (h : m.identity = 0#64 ∨ m.identity = l.identity) : ¬s.Foreign l i := by
      rintro ⟨n, g, zero, ne⟩
      rw [only m n label g] at zero ne
      exact h.elim zero ne
    dsimp only
    by_cases zero : m.identity = 0#64
    · rw [if_pos (by simpa using zero)]
      refine .inr (.inr ⟨other (.inl zero), ?_, .inr rfl⟩)
      rintro ⟨n, g, some_, -⟩
      rw [only m n label g] at some_
      exact some_ zero
    · rw [if_neg (by simpa using zero)]
      by_cases same : m.identity = l.identity
      · rw [if_neg (by simpa using same)]
        have iff : (m.generation == l.generation || (m.generation + 1 == l.generation && !l.recordsMissing serial)) = true ↔
            m.generation = l.generation ∨ (m.generation + 1 = l.generation ∧ ¬l.Records serial) := by
          rw [Bool.or_eq_true, Bool.and_eq_true, beq_iff_eq, beq_iff_eq, Bool.not_eq_true', ← Bool.not_eq_true, recordsMissing_iff]
        by_cases recent : m.generation = l.generation ∨ (m.generation + 1 = l.generation ∧ ¬l.Records serial)
        · rw [if_pos (iff.mpr recent)]
          exact .inr (.inl ⟨⟨m, here, zero, same, recent⟩, other (.inr same), rfl⟩)
        · rw [if_neg (mt iff.mp recent)]
          refine .inr (.inr ⟨other (.inr same), ?_, .inl rfl⟩)
          rintro ⟨n, g, -, -, late⟩
          rw [only m n label g] at late
          exact recent late
      · rw [if_pos (by simpa using same)]
        exact .inl ⟨⟨m, here, zero, same⟩, rfl⟩

theorem matchOf_found (found : s.Found l serial i) : s.matchOf l serial = some (i, s.standing l i serial) := by
  obtain ⟨drive, first, known⟩ := found
  unfold State.matchOf
  rw [driveOf_iff.mpr ⟨drive, first⟩]
  rcases standing_cases (s := s) (l := l) (serial := serial) (i := i) with ⟨foreign, -⟩ | ⟨-, -, stands⟩ | ⟨-, -, stands | stands⟩
  · exact absurd foreign known
  all_goals simp only [stands]

theorem matchOf_none (lost : ∀ i, ¬s.Found l serial i) : s.matchOf l serial = none := by
  unfold State.matchOf
  cases drive : s.driveOf serial with
  | none => rfl
  | some i =>
    obtain ⟨own, first⟩ := driveOf_iff.mp drive
    rcases standing_cases (s := s) (l := l) (serial := serial) (i := i) with ⟨-, stands⟩ | ⟨-, known, -⟩ | ⟨known, -, -⟩
    · simp only [stands]
    · exact absurd ⟨own, first, known⟩ (lost i)
    · exact absurd ⟨own, first, known⟩ (lost i)

theorem matchOf_iff {x : Standing} : s.matchOf l serial = some (i, x) ↔ s.Found l serial i ∧ x = s.standing l i serial := by
  constructor
  · intro h
    by_cases lost : ∀ j, ¬s.Found l serial j
    · rw [matchOf_none lost] at h
      cases h
    · obtain ⟨j, found⟩ := not_forall_not.mp lost
      rw [matchOf_found found] at h
      obtain ⟨rfl, rfl⟩ := Prod.ext_iff.mp (Option.some.inj h)
      exact ⟨found, rfl⟩
  · rintro ⟨found, rfl⟩
    exact matchOf_found found

theorem Found.unique (h : s.Found l serial i) (g : s.Found l serial j) : i = j :=
  congrArg Prod.fst (Option.some.inj ((matchOf_found h).symm.trans (matchOf_found g)))

theorem current_standing (found : s.Found l serial i) : s.standing l i serial = .current ↔ s.Current l serial i := by
  rcases standing_cases (s := s) (l := l) (serial := serial) (i := i) with ⟨foreign, -⟩ | ⟨current, -, stands⟩ | ⟨-, behind, stands⟩
  · exact absurd foreign found.2.2
  · exact iff_of_true stands current
  · exact iff_of_false (by rcases stands with stands | stands <;> rw [stands] <;> simp) behind

/-! ## The members named, and their bays (R178) -/

theorem names_iff : l.Names serial ↔ ∃ m ∈ l.named, m.serial = serial := by
  unfold Label.Names Label.named
  constructor
  · rintro (⟨x, hx, e, he, m, member, key⟩ | ⟨c, incoming, key⟩)
    · exact ⟨m, List.mem_append_left _ (List.mem_flatMap.mpr ⟨x, hx, List.mem_filterMap.mpr ⟨e, he, member⟩⟩), key⟩
    · exact ⟨_, List.mem_append_right _ (by rw [incoming]; exact List.mem_singleton_self _), key⟩
  · rintro ⟨m, hm, key⟩
    rcases List.mem_append.mp hm with hm | hm
    · obtain ⟨x, hx, hm⟩ := List.mem_flatMap.mp hm
      obtain ⟨e, he, member⟩ := List.mem_filterMap.mp hm
      exact .inl ⟨x, hx, e, he, m, member, key⟩
    · obtain ⟨c, incoming, rfl⟩ := Option.map_eq_some_iff.mp (Option.mem_toList.mp hm)
      exact .inr ⟨c, incoming, key⟩

theorem mem_matched : i ∈ s.matched l ↔ s.Taken l i := by
  unfold State.matched State.Taken
  rw [List.mem_filterMap]
  constructor
  · rintro ⟨m, named, found⟩
    obtain ⟨⟨j, x⟩, match_, rfl⟩ := Option.map_eq_some_iff.mp found
    exact ⟨m.serial, names_iff.mpr ⟨m, named, rfl⟩, (matchOf_iff.mp match_).1⟩
  · rintro ⟨serial, named, found⟩
    obtain ⟨m, hm, rfl⟩ := names_iff.mp named
    exact ⟨m, hm, by rw [matchOf_found found]; rfl⟩

theorem mem_currentBays : i ∈ s.currentBays l ↔ ∃ serial, l.Names serial ∧ s.Found l serial i ∧ s.Current l serial i := by
  unfold State.currentBays
  rw [List.mem_filter, List.any_eq_true]
  simp only [beq_iff_eq, matchOf_iff]
  constructor
  · rintro ⟨-, m, named, found, stands⟩
    exact ⟨m.serial, names_iff.mpr ⟨m, named, rfl⟩, found, (current_standing found).mp stands.symm⟩
  · rintro ⟨serial, named, found, current⟩
    obtain ⟨m, hm, rfl⟩ := names_iff.mp named
    exact ⟨mem_allSlots i, m, hm, found, ((current_standing found).mpr current).symm⟩

section
variable {e : LabelEntry} {m : Member}

theorem matchEntry_found (member : e.member = some m) (found : s.Found l m.serial i) :
    s.matchEntry l e = some ({ m with slot := i }, some (s.standing l i m.serial)) := by
  unfold State.matchEntry
  simp only [member, matchOf_found found]

theorem matchEntry_kept (member : e.member = some m) (lost : ∀ j, ¬s.Found l m.serial j) (free : ¬s.Taken l m.slot) :
    s.matchEntry l e = some (m, none) := by
  unfold State.matchEntry
  simp only [member, matchOf_none lost]
  exact if_neg (by simpa [List.contains_iff_mem, mem_matched] using free)

theorem matchEntry_vacant (member : e.member = some m) (lost : ∀ j, ¬s.Found l m.serial j) (taken : s.Taken l m.slot) :
    s.matchEntry l e = none := by
  unfold State.matchEntry
  simp only [member, matchOf_none lost]
  exact if_pos (by simpa [List.contains_iff_mem, mem_matched] using taken)

theorem matchEntry_stands (member : e.member = some m) (stands : s.Stands l m i) :
    ∃ st, s.matchEntry l e = some ({ m with slot := i }, st) := by
  rcases stands with found | ⟨lost, free, rfl⟩
  · exact ⟨_, matchEntry_found member found⟩
  · exact ⟨none, matchEntry_kept member lost free⟩

theorem matchEntry_none (member : e.member = some m) (none_ : ∀ i, ¬s.Stands l m i) : s.matchEntry l e = none := by
  have lost (j : Slot) : ¬s.Found l m.serial j := fun h => none_ j (.inl h)
  by_cases free : s.Taken l m.slot
  · exact matchEntry_vacant member lost free
  · exact absurd (.inr ⟨lost, free, rfl⟩) (none_ m.slot)

/-- What an entry was matched to. -/
theorem matchEntry_inv {y : Member} {st : Option Standing} (h : s.matchEntry l e = some (y, st)) : ∃ m, e.member = some m
    ∧ s.Stands l m y.slot ∧ y = { m with slot := y.slot }
    ∧ (s.Found l m.serial y.slot → st = some (s.standing l y.slot m.serial)) ∧ (¬s.Found l m.serial y.slot → st = none) := by
  cases member : e.member with
  | none =>
    unfold State.matchEntry at h
    simp [member] at h
  | some m =>
    by_cases lost : ∀ j, ¬s.Found l m.serial j
    · by_cases free : s.Taken l m.slot
      · rw [matchEntry_vacant member lost free] at h
        cases h
      · rw [matchEntry_kept member lost free] at h
        obtain ⟨rfl, rfl⟩ := Prod.ext_iff.mp (Option.some.inj h)
        exact ⟨m, rfl, .inr ⟨lost, free, rfl⟩, rfl, fun found => absurd found (lost _), fun _ => rfl⟩
    · obtain ⟨j, found⟩ := not_forall_not.mp lost
      rw [matchEntry_found member found] at h
      obtain ⟨rfl, rfl⟩ := Prod.ext_iff.mp (Option.some.inj h)
      exact ⟨m, rfl, .inl found, rfl, fun _ => rfl, fun other => absurd found other⟩

end

end

/-! ## The roles given (R178, R179) -/

/-- An installed growth adds the position. -/
def Label.Adds (l : Label) (p : Nat) : Prop :=
  (l.planKind ≠ .empty ∧ l.markState ≠ .off) ∧ ∃ o n, l.layouts = [o, n] ∧ o.entries.length ≤ p

/-- An installed REPLACE replaces the position. -/
def Label.Replaces (l : Label) (p : Nat) : Prop :=
  (l.planKind ≠ .empty ∧ l.markState ≠ .off) ∧ l.planKind = .replace ∧ ∃ c, l.incoming = some c ∧ c.record.q = p

/-- A role the chosen label gives a bay (R178, R179). -/
def State.Seat (s : State) (l : Label) (i : Slot) (r : Role) (p : Nat) (inc : Bool) : Prop :=
  (inc = false ∧ ∃ x e m, l.layouts.getLast? = some x ∧ x.entries[p]? = some e ∧ e.member = some m ∧ s.Stands l m i
    ∧ (s.Found l m.serial i → s.Current l m.serial i → (l.Adds p → r = .joining) ∧ (¬l.Adds p → l.Replaces p → r = .stale)
        ∧ (¬l.Adds p → ¬l.Replaces p → r = .member))
    ∧ (s.Found l m.serial i → ¬s.Current l m.serial i → r = .stale) ∧ (¬s.Found l m.serial i → r = .failed))
  ∨ (inc = true ∧ ∃ c, l.incoming = some c ∧ p = c.record.q
    ∧ s.Stands l { slot := c.record.slot, serial := c.record.serial } i
    ∧ (s.Found l c.record.serial i ∧ s.Current l c.record.serial i → r = .joining)
    ∧ (¬(s.Found l c.record.serial i ∧ s.Current l c.record.serial i) → r = .failed))

section
variable {s : State} {l : Label}

theorem installed_iff : l.installed = true ↔ l.planKind ≠ .empty ∧ l.markState ≠ .off := by
  unfold Label.installed
  rw [Bool.and_eq_true, bne_iff_ne, bne_iff_ne]

theorem firstAdded_iff {p : Nat} : l.firstAdded.any (· ≤ p) = true ↔ l.Adds p := by
  have alone (xs : List LabelLayout) (h : l.layouts = xs) (none_ : l.firstAdded = none)
      (short : ∀ o n, xs ≠ [o, n]) : (l.firstAdded.any (· ≤ p) = true ↔ l.Adds p) := by
    rw [none_]
    refine iff_of_false (by simp) ?_
    rintro ⟨-, o, n, two, -⟩
    exact short o n (h.symm.trans two)
  rcases h : l.layouts with _ | ⟨o, _ | ⟨n, _ | ⟨k, rest⟩⟩⟩
  · exact alone _ h (by simp only [Label.firstAdded, h]) (by simp)
  · exact alone _ h (by simp only [Label.firstAdded, h]) (by simp)
  · unfold Label.Adds Label.firstAdded
    rw [h, ← installed_iff]
    by_cases inst : l.installed = true <;> simp [inst]
  · exact alone _ h (by simp only [Label.firstAdded, h]) (by simp)

/-- The role of a position's bay by its standing (R178). -/
def Label.placedRole (l : Label) (p : Nat) (st : Option Standing) : Role :=
  if l.installed && l.planKind == .replace && l.incoming.map (·.record.q) == some p
      && roleOf (if l.firstAdded.any (· ≤ p) then .joining else .member) st == .member then .stale
  else roleOf (if l.firstAdded.any (· ≤ p) then .joining else .member) st

theorem replaces_iff {p : Nat} : (l.installed && l.planKind == .replace && l.incoming.map (·.record.q) == some p) = true ↔
    l.Replaces p := by
  unfold Label.Replaces
  rw [Bool.and_eq_true, Bool.and_eq_true, installed_iff, beq_iff_eq, beq_iff_eq, Option.map_eq_some_iff, and_assoc]

theorem placedRole_current {p : Nat} : (l.Adds p → l.placedRole p (some .current) = .joining)
    ∧ (¬l.Adds p → l.Replaces p → l.placedRole p (some .current) = .stale)
    ∧ (¬l.Adds p → ¬l.Replaces p → l.placedRole p (some .current) = .member) := by
  have base : roleOf (if l.firstAdded.any (· ≤ p) then .joining else .member) (some .current)
      = if l.firstAdded.any (· ≤ p) then .joining else .member := rfl
  unfold Label.placedRole
  rw [base]
  refine ⟨fun adds => ?_, fun adds replaces => ?_, fun adds replaces => ?_⟩
  · rw [if_pos (firstAdded_iff.mpr adds)]
    exact if_neg (by simp)
  · rw [if_neg (mt firstAdded_iff.mp adds), replaces_iff.mpr replaces]
    rfl
  · rw [if_neg (mt firstAdded_iff.mp adds), Bool.eq_false_iff.mpr (mt replaces_iff.mp replaces)]
    rfl

theorem placedRole_behind {p : Nat} {st : Standing} (h : st = .behind ∨ st = .blank) : l.placedRole p (some st) = .stale := by
  unfold Label.placedRole
  rcases h with rfl | rfl <;> exact ite_self _

theorem placedRole_lost {p : Nat} : l.placedRole p none = .failed := by
  unfold Label.placedRole
  exact if_neg (by simp [roleOf])

/-- An entry with the incoming drive of a label (R179). -/
def LabelIncoming.entry (c : LabelIncoming) : LabelEntry :=
  { member := some { slot := c.record.slot, serial := c.record.serial }, missing := false }

theorem mem_zip_places {α : Type} {xs : List α} {x : α} {p : Nat} : (x, p) ∈ xs.zip (List.range xs.length) ↔ xs[p]? = some x := by
  rw [List.mem_iff_getElem?]
  simp only [List.getElem?_zip_eq_some]
  constructor
  · rintro ⟨k, hx, hp⟩
    obtain ⟨_, rfl⟩ := List.getElem?_eq_some_iff.mp hp
    rw [List.getElem_range]
    exact hx
  · intro at_
    have lt : p < xs.length := (List.getElem?_eq_some_iff.mp at_).1
    exact ⟨p, at_, List.getElem?_eq_some_iff.mpr ⟨by simpa using lt, List.getElem_range _⟩⟩

theorem mem_matchedRoles {i : Slot} {r : Role} {p : Nat} {inc : Bool} : (i, r, p, inc) ∈ s.matchedRoles l ↔
    (inc = false ∧ ∃ x e y st, l.layouts.getLast? = some x ∧ x.entries[p]? = some e ∧ s.matchEntry l e = some (y, st)
      ∧ y.slot = i ∧ r = l.placedRole p st)
    ∨ (inc = true ∧ ∃ c y st, l.incoming = some c ∧ s.matchEntry l c.entry = some (y, st) ∧ y.slot = i ∧ p = c.record.q
      ∧ r = if st == some .current then .joining else .failed) := by
  unfold State.matchedRoles
  dsimp only
  rw [List.mem_append]
  refine or_congr ?_ ?_
  · cases last : l.layouts.getLast? with
    | none => simp
    | some x =>
      simp only [List.mem_filterMap, Option.map_eq_some_iff, Prod.exists, mem_zip_places]
      constructor
      · rintro ⟨e, q, at_, y, st, entry, eq⟩
        simp only [Prod.mk.injEq] at eq
        obtain ⟨rfl, rfl, rfl, rfl⟩ := eq
        exact ⟨rfl, x, e, y, st, rfl, at_, entry, rfl, rfl⟩
      · rintro ⟨rfl, z, e, y, st, same, at_, entry, rfl, rfl⟩
        obtain rfl := Option.some.inj same
        exact ⟨e, p, at_, y, st, entry, rfl⟩
  · cases incoming : l.incoming with
    | none => simp
    | some c =>
      simp only [LabelIncoming.entry]
      cases entry : s.matchEntry l { member := some { slot := c.record.slot, serial := c.record.serial }, missing := false } with
      | none =>
        refine iff_of_false List.not_mem_nil ?_
        rintro ⟨-, d, y, st, same, matched, -⟩
        obtain rfl := Option.some.inj same
        rw [entry] at matched
        cases matched
      | some z =>
        rw [List.mem_singleton, Prod.mk.injEq, Prod.mk.injEq, Prod.mk.injEq]
        constructor
        · rintro ⟨rfl, rfl, rfl, rfl⟩
          exact ⟨rfl, c, z.1, z.2, rfl, entry, rfl, rfl, rfl⟩
        · rintro ⟨rfl, d, y, st, same, matched, rfl, rfl, rfl⟩
          obtain rfl := Option.some.inj same
          obtain rfl := Option.some.inj (entry.symm.trans matched)
          exact ⟨rfl, rfl, rfl, rfl⟩

theorem matchedRoles_seat {i : Slot} {r : Role} {p : Nat} {inc : Bool} (h : (i, r, p, inc) ∈ s.matchedRoles l) : s.Seat l i r p inc := by
  rcases mem_matchedRoles.mp h with ⟨flag, x, e, y, st, last, at_, entry, rfl, rfl⟩ | ⟨flag, c, y, st, incoming, entry, rfl, q, rfl⟩
  · obtain ⟨m, member, stands, -, found, lost⟩ := matchEntry_inv entry
    refine .inl ⟨flag, x, e, m, last, at_, member, stands, fun here current => ?_, fun here behind => ?_, fun none_ => ?_⟩
    · rw [found here, (current_standing here).mpr current]
      exact placedRole_current
    · rw [found here]
      rcases standing_cases (s := s) (l := l) (serial := m.serial) (i := y.slot) with ⟨foreign, -⟩ | ⟨current, -⟩ | ⟨-, -, late⟩
      · exact absurd foreign here.2.2
      · exact absurd current behind
      · exact placedRole_behind late
    · rw [lost none_]
      exact placedRole_lost
  · obtain ⟨m, member, stands, -, found, lost⟩ := matchEntry_inv entry
    obtain rfl : ({ slot := c.record.slot, serial := c.record.serial } : Member) = m := Option.some.inj member
    refine .inr ⟨flag, c, incoming, q, stands, fun ⟨here, current⟩ => ?_, fun other => ?_⟩
    · rw [found here, (current_standing here).mpr current]
      rfl
    · by_cases here : s.Found l c.record.serial y.slot
      · rw [found here]
        refine if_neg fun same => other ⟨here, (current_standing here).mp ?_⟩
        simpa using same
      · rw [lost here]
        rfl

theorem seat_matchedRoles {i : Slot} {r : Role} {p : Nat} {inc : Bool} (h : s.Seat l i r p inc) :
    ∃ r', (i, r', p, inc) ∈ s.matchedRoles l := by
  rcases h with ⟨flag, x, e, m, last, at_, member, stands, -⟩ | ⟨flag, c, incoming, q, stands, -⟩
  · obtain ⟨st, entry⟩ := matchEntry_stands member stands
    exact ⟨_, mem_matchedRoles.mpr (.inl ⟨flag, x, e, _, st, last, at_, entry, rfl, rfl⟩)⟩
  · obtain ⟨st, entry⟩ := matchEntry_stands (e := c.entry) rfl stands
    exact ⟨_, mem_matchedRoles.mpr (.inr ⟨flag, c, _, st, incoming, entry, rfl, q, rfl⟩)⟩

/-- The remap entries the label has for a bay's drive (R151). -/
def State.hardOf (s : State) (l : Label) (i : Slot) : List Remap :=
  (l.hard.filter (fun h => (s.bay i).ident.map (·.1) == some h.serial)).map (fun h =>
    { row := h.row, spare := h.spare, hard := true, filling := false : Remap })

/-- What the choice makes of a bay's record. -/
structure Seated (s : State) (l : Label) (i : Slot) (b : Bay) : Prop where
  free   : (∀ r p inc, ¬s.Seat l i r p inc) → (s.Foreign l i ∧ i ∈ s.asm.scanSet → b.role = .foreign)
    ∧ (¬(s.Foreign l i ∧ i ∈ s.asm.scanSet) → b.role = .none)
    ∧ b = { s.bay i with role := b.role, position := none, incoming := false, remaps := [] }
  placed : (∃ r p inc, s.Seat l i r p inc) → ∃ r p inc, s.Seat l i r p inc
    ∧ (s.Taken l i → b = { s.bay i with role := r, position := some p, incoming := inc, remaps := (s.hardOf l i).take 8 })
    ∧ (¬s.Taken l i → b = { s.bay i with role := r, position := some p, incoming := inc, remaps := [] })

/-- The record a bay takes from the role given it, if any. -/
def State.seatBay (s : State) (l : Label) (i : Slot) (b : Bay) : Option (Slot × Role × Nat × Bool) → Bay
  | some (_, r, p, inc) =>
    { b with role := r, position := some p, incoming := inc
             remaps := (if (s.matched l).contains i then s.hardOf l i else []).take 8 }
  | none =>
    { b with role := if s.asm.scanSet.contains i && s.foreignTo l i then Role.foreign else .none
             position := none, incoming := false, remaps := [] }

theorem setRoles_bays (s : State) (l : Label) : Rebay s (setRoles l s)
    ∧ ∀ i, (setRoles l s).bay i = s.seatBay l i (s.bay i) ((s.matchedRoles l).find? (·.1 == i)) := by
  unfold setRoles
  refine foldl_allSlots s _ (fun i b => s.seatBay l i b ((s.matchedRoles l).find? (·.1 == i))) fun t _ i => ?_
  dsimp only
  cases (s.matchedRoles l).find? (·.1 == i) with
  | none => exact ⟨updBay_rebay _ _ t, updBay_bay_same _ _ t, fun _ hj => updBay_bay_ne _ t hj⟩
  | some x => exact ⟨updBay_rebay _ _ t, updBay_bay_same _ _ t, fun _ hj => updBay_bay_ne _ t hj⟩

theorem setRoles_seated (s : State) (l : Label) (i : Slot) : Seated s l i ((setRoles l s).bay i) := by
  rw [(setRoles_bays s l).2 i]
  have matched : (s.matched l).contains i = true ↔ s.Taken l i := by
    rw [List.contains_iff_mem, mem_matched]
  cases found : (s.matchedRoles l).find? (·.1 == i) with
  | none =>
    refine ⟨fun _ => ⟨fun h => ?_, fun h => ?_, rfl⟩, fun ⟨r, p, inc, seat⟩ => ?_⟩
    · exact if_pos (by rw [Bool.and_eq_true, List.contains_iff_mem, foreignTo_iff]; exact h.symm)
    · exact if_neg (by rw [Bool.and_eq_true, List.contains_iff_mem, foreignTo_iff]; exact fun g => h g.symm)
    · obtain ⟨r', mem⟩ := seat_matchedRoles seat
      exact absurd (beq_self_eq_true i) (List.find?_eq_none.mp found _ mem)
  | some x =>
    obtain ⟨j, r, p, inc⟩ := x
    have mem := List.mem_of_find?_eq_some found
    obtain rfl : j = i := by simpa using List.find?_some found
    have seat := matchedRoles_seat mem
    refine ⟨fun none_ => absurd seat (none_ r p inc), fun _ => ⟨r, p, inc, seat, fun taken => ?_, fun other => ?_⟩⟩
    · unfold State.seatBay
      dsimp only
      rw [if_pos (matched.mpr taken)]
    · unfold State.seatBay
      dsimp only
      rw [if_neg (mt matched.mp other)]
      rfl

end

/-! ## The label loaded (R180) -/

section
variable {l : Label} {p : PlanUnit}

theorem loadChain_installed (h : l.planKind ≠ .empty ∧ l.markState ≠ .off) : loadChain l p = { p with
    pointer := l.activeSlot, status := .active, hold := l.held, active := some l.activeSlot, stage := .working
    installed := true, planKind := l.planKind } := by
  unfold loadChain
  rw [if_pos (by simpa using h.1), if_pos (installed_iff.mpr h)]

theorem loadChain_due (kind : l.planKind ≠ .empty) (mark : l.markState = .off) :
    loadChain l p = { p with pointer := l.activeSlot, status := .due, keepHold := l.held } := by
  unfold loadChain
  rw [if_pos (by simpa using kind), if_neg (mt installed_iff.mp fun h => h.2 mark)]

theorem loadChain_idle (kind : l.planKind = .empty) : loadChain l p = { p with
    pointer := l.pointer, status := if l.ended then .ended else if l.held then .held else .due } := by
  unfold loadChain
  rw [if_neg (by simp [kind])]

theorem loadChain_layouts : (loadChain l p).layouts = p.layouts ∧ (loadChain l p).incoming = p.incoming := by
  unfold loadChain
  split
  · split <;> exact ⟨rfl, rfl⟩
  · exact ⟨rfl, rfl⟩

end

theorem incomingLost_iff {s : State} {l : Label} :
    (l.installed && l.planKind == .replace && !((s.matchedRoles l).any (fun r => r.2.2.2 && r.2.1 == .joining))) = true ↔
      (l.planKind ≠ .empty ∧ l.markState ≠ .off) ∧ l.planKind = .replace
        ∧ ¬∃ c i, l.incoming = some c ∧ s.Found l c.record.serial i ∧ s.Current l c.record.serial i := by
  have some_ : (s.matchedRoles l).any (fun r => r.2.2.2 && r.2.1 == .joining) = true ↔
      ∃ c i, l.incoming = some c ∧ s.Found l c.record.serial i ∧ s.Current l c.record.serial i := by
    rw [List.any_eq_true]
    constructor
    · rintro ⟨⟨i, r, p, inc⟩, mem, both⟩
      rw [Bool.and_eq_true, beq_iff_eq] at both
      obtain ⟨rfl, rfl⟩ : inc = true ∧ r = .joining := both
      rcases matchedRoles_seat mem with ⟨flag, -⟩ | ⟨-, c, incoming, -, -, -, other⟩
      · cases flag
      · by_contra none_
        exact absurd (other fun h => none_ ⟨c, i, incoming, h⟩) (by simp)
    · rintro ⟨c, i, incoming, found, current⟩
      obtain ⟨st, entry⟩ := matchEntry_stands (s := s) (l := l) (e := c.entry) rfl (.inl found)
      have mem := mem_matchedRoles (s := s) (l := l).mpr (.inr ⟨rfl, c, _, st, incoming, entry, rfl, rfl, rfl⟩)
      rcases matchedRoles_seat mem with ⟨flag, -⟩ | ⟨-, d, same, -, -, joins, -⟩
      · cases flag
      · obtain rfl := Option.some.inj (incoming.symm.trans same)
        exact ⟨_, mem, by rw [joins ⟨found, current⟩]; rfl⟩
  rw [Bool.and_eq_true, Bool.and_eq_true, installed_iff, beq_iff_eq, Bool.not_eq_true', ← Bool.not_eq_true, some_, and_assoc]

theorem loadLabel_frame {s : State} {l : Label} (h : Rebay s (setRoles l s)) : loadLabel l s = { s with
    shelf := { s.shelf with bays := (loadLabel l s).shelf.bays }, plan := (loadLabel l s).plan
    mover := { front := l.markFront, phase := l.phase, slotA := none, slotB := none }
    mark := { State.resetMark with front := l.markFront, state := l.markState, generation := l.generation }
    asm := { s.asm with
      stage := .loading, chosen := some l, current := (loadLabel l s).asm.current, wanted := List.range 64, asked := 0, reads := 0
      incomingLost := (loadLabel l s).asm.incomingLost } } := by
  unfold loadLabel
  dsimp only
  obtain ⟨w, hw⟩ : ∃ w, setRoles l s = w := ⟨_, rfl⟩
  rw [hw] at h ⊢
  conv_lhs => rw [h]

/-! ## The plan areas read (R181) -/

theorem runsOf_flatMap : ∀ ns : List Nat, (runsOf ns).flatMap (fun r => List.range' r.1 r.2) = ns
  | [] => rfl
  | n :: ns => by
    have ih := runsOf_flatMap ns
    unfold runsOf
    cases runs : runsOf ns with
    | nil =>
      rw [runs] at ih
      rw [← ih]
      rfl
    | cons r rest =>
      rw [runs, List.flatMap_cons] at ih
      dsimp only
      by_cases next : r.1 = n + 1
      · rw [if_pos (by simpa using next), List.flatMap_cons, ← ih, List.range'_succ, next]
        rfl
      · rw [if_neg (by simpa using next), List.flatMap_cons, List.flatMap_cons, ← ih]
        rfl

theorem runsOf_pos : ∀ {ns : List Nat}, ∀ r ∈ runsOf ns, 1 ≤ r.2
  | [], r, h => (List.not_mem_nil h).elim
  | n :: ns, r, h => by
    have ih := runsOf_pos (ns := ns)
    unfold runsOf at h
    cases runs : runsOf ns with
    | nil =>
      rw [runs] at h
      obtain rfl := List.mem_singleton.mp h
      exact Nat.le_refl 1
    | cons x rest =>
      rw [runs] at h ih
      dsimp only at h
      split at h
      · rcases List.mem_cons.mp h with rfl | h
        · exact Nat.le_add_left 1 _
        · exact ih r (List.mem_cons_of_mem _ h)
      · rcases List.mem_cons.mp h with rfl | h
        · exact Nat.le_refl 1
        · exact ih r h

theorem runsOf_chain : ∀ ns : List Nat, (runsOf ns).IsChain (fun a b => a.1 + a.2 ≠ b.1)
  | [] => List.IsChain.nil
  | n :: ns => by
    have ih := runsOf_chain ns
    unfold runsOf
    cases runs : runsOf ns with
    | nil => exact List.IsChain.singleton _
    | cons x rest =>
      rw [runs] at ih
      dsimp only
      by_cases next : x.1 = n + 1
      · rw [if_pos (by simpa using next)]
        cases rest with
        | nil => exact List.IsChain.singleton _
        | cons y rest =>
          rw [List.isChain_cons_cons] at ih ⊢
          exact ⟨by have := ih.1; dsimp only; omega, ih.2⟩
      · rw [if_neg (by simpa using next), List.isChain_cons_cons]
        exact ⟨fun e => next e.symm, ih⟩

theorem askRecords_eq (i : Slot) (s : State) : askRecords i s = (runsOf s.asm.wanted).foldl
    (fun (x : State) r => handReserve i .mark (.read (Config.planBase + r.1) r.2) .assemblyPlanRead x)
    { s with asm := { s.asm with asked := s.asm.asked + 1, reads := (runsOf s.asm.wanted).length } } := rfl

section
variable {s : State}

theorem loading_waits (h : s.asm.stage ≠ .loading ∨ s.asm.reads ≠ 0) : ruleLoading s = none := by
  unfold ruleLoading
  refine if_neg fun cond => ?_
  rw [Bool.and_eq_true, beq_iff_eq, beq_iff_eq] at cond
  exact h.elim (fun h => h cond.1) fun h => h cond.2

theorem loading_asks {i : Slot} (stage : s.asm.stage = .loading) (reads : s.asm.reads = 0)
    (next : s.asm.current[s.asm.asked]? = some i) (some_ : s.asm.wanted ≠ []) : ruleLoading s = some (askRecords i s) := by
  unfold ruleLoading
  rw [if_pos (by simp [stage, reads]), next]
  exact if_neg (by simpa using some_)

theorem loading_fills (stage : s.asm.stage = .loading) (reads : s.asm.reads = 0)
    (h : s.asm.wanted = [] ∨ s.asm.current[s.asm.asked]? = none) :
    ruleLoading s = some { fillRecords s with asm := { s.asm with stage := .records, asked := 0 } } := by
  unfold ruleLoading
  rw [if_pos (by simp [stage, reads])]
  cases next : s.asm.current[s.asm.asked]? with
  | none => rfl
  | some i =>
    rw [next] at h
    exact if_pos (by simpa using h)

/-- The record a slot has once those no bay supplied are set (R181). -/
def State.supplied (s : State) (k : Nat) (l : Label) : PlanRecord :=
  if l.planKind ≠ .empty ∧ k = l.activeSlot ∧ s.asm.wanted.contains k = true then
    { State.resetRecord with kind := BitVec.ofNat 8 (kindCode l.planKind) } else s.record k

theorem supplyRecords_frame (s : State) :
    supplyRecords s = { s with plan := { s.plan with table := (supplyRecords s).plan.table } } := by
  unfold supplyRecords
  cases s.asm.chosen with
  | none => rfl
  | some l =>
    dsimp only
    split <;> rfl

theorem supplyRecords_none (chosen : s.asm.chosen = none) : supplyRecords s = s := by
  unfold supplyRecords
  rw [chosen]

theorem supplyRecords_some {l : Label} {k : Nat} (chosen : s.asm.chosen = some l) (inside : k < s.plan.table.length) :
    (supplyRecords s).record k = s.supplied k l := by
  unfold supplyRecords State.supplied
  rw [chosen]
  dsimp only
  by_cases sets : (l.planKind != .empty && s.asm.wanted.contains l.activeSlot) = true
  · rw [if_pos sets]
    rw [Bool.and_eq_true, bne_iff_ne] at sets
    by_cases own : k = l.activeSlot
    · subst own
      rw [record_set _ inside, if_pos rfl, if_pos ⟨sets.1, rfl, sets.2⟩]
    · rw [if_neg fun h => own h.2.1]
      by_cases there : l.activeSlot < s.plan.table.length
      · rw [record_set _ there, if_neg own]
      · refine record_congr ?_ k
        exact List.set_eq_of_length_le (by omega)
  · rw [if_neg sets]
    refine (if_neg ?_).symm
    rintro ⟨kind, rfl, wanted⟩
    exact sets (by rw [Bool.and_eq_true, bne_iff_ne]; exact ⟨kind, wanted⟩)

theorem fillRecords_frame (s : State) : fillRecords s = { s with plan := { s.plan with table := (fillRecords s).plan.table } } := by
  have frame := supplyRecords_frame s
  unfold fillRecords
  dsimp only
  cases (supplyRecords s).plan.active with
  | none => exact frame
  | some i =>
    dsimp only
    rw [frame]
    rfl

theorem fillRecords_record {k : Nat} (inside : k < s.plan.table.length) : (fillRecords s).record k
    = if s.plan.active = some k then { (supplyRecords s).record k with outcome := .none } else (supplyRecords s).record k := by
  have frame := supplyRecords_frame s
  have active : (supplyRecords s).plan.active = s.plan.active := by rw [frame]
  have length : (supplyRecords s).plan.table.length = s.plan.table.length := by
    unfold supplyRecords
    cases s.asm.chosen with
    | none => rfl
    | some l =>
      dsimp only
      split
      · exact List.length_set
      · rfl
  unfold fillRecords
  dsimp only
  rw [active]
  cases s.plan.active with
  | none => rw [if_neg (by simp)]
  | some i =>
    dsimp only
    unfold clearOutcome
    by_cases own : i = k
    · subst own
      rw [record_set _ (by rw [length]; exact inside), if_pos rfl, if_pos rfl]
    · rw [if_neg (by simpa using own)]
      by_cases there : i < s.plan.table.length
      · rw [record_set _ (by rw [length]; exact there), if_neg (Ne.symm own)]
      · refine record_congr ?_ k
        exact List.set_eq_of_length_le (by rw [length]; omega)

end

/-! ## O55 -/

/-- Settles O55: the members found by serial, the roles by the seats the label gives, the label's own values, and the records read
run by run. -/
theorem assemblyMatched : Obligations.AssemblyMatched := by
  unfold Obligations.AssemblyMatched
  refine ⟨?_, ?_⟩
  · intro s l u label drive foreign found recorded current named taken installed adds replaces stands seat
    obtain ⟨rebay, bays⟩ := setRoles_bays s l
    have bay (i : Slot) : u.bay i = (setRoles l s).bay i := bay_congr rfl i
    have seated (i : Slot) : Seated s l i (u.bay i) := bay i ▸ setRoles_seated s l i
    obtain ⟨layouts, incoming⟩ : u.plan.layouts = s.matchedLayouts l ∧ u.plan.incoming = s.matchedIncoming l := loadChain_layouts
    refine ⟨⟨?_, ?_⟩, fun i => (seated i).free, fun i => (seated i).placed, fun none_ => ?_, ?_, fun i => mem_currentBays,
      show (s.currentBays l).Pairwise (· < ·) from allSlots_pairwise.filter _, incomingLost_iff, ⟨fun h => ?_, fun kind mark => ?_, fun kind ended => ?_,
        fun kind ended held => ?_, fun kind ended held => ?_⟩, ?_⟩
    · rw [layouts]
      exact List.length_map _
    · intro k x at_
      refine ⟨_, by rw [layouts, State.matchedLayouts, List.getElem?_map, at_]; rfl, rfl, rfl, rfl, List.length_map _, ?_⟩
      intro p e entry
      have member : (x.entries.map (fun e => (s.matchEntry l e).map (·.1)))[p]? = some ((s.matchEntry l e).map (·.1)) := by
        rw [List.getElem?_map, entry]
        rfl
      refine ⟨fun none_ => ?_, fun m some_ => ⟨fun i stand => ?_, fun nowhere => ?_⟩⟩
      · refine member.trans ?_
        unfold State.matchEntry
        rw [none_]
        rfl
      · obtain ⟨st, matched⟩ := matchEntry_stands some_ stand
        rw [member, matched]
        rfl
      · rw [member, matchEntry_none some_ nowhere]
        rfl
    · rw [incoming, State.matchedIncoming, none_]
      rfl
    · intro c some_ m
      have eq : u.plan.incoming = (s.matchEntry l c.entry).map (fun m => { c.record with slot := m.1.slot }) := by
        rw [incoming, State.matchedIncoming, some_]
        rfl
      refine ⟨fun i stand => ?_, fun nowhere => ?_⟩
      · obtain ⟨st, matched⟩ := matchEntry_stands (e := c.entry) rfl stand
        rw [eq, matched]
        rfl
      · rw [eq, matchEntry_none (e := c.entry) rfl nowhere]
        rfl
    · rw [layouts, incoming]
      exact loadChain_installed h
    · rw [layouts, incoming]
      exact loadChain_due kind mark
    · rw [layouts, incoming]
      refine (loadChain_idle kind).trans ?_
      rw [ended]
      rfl
    · rw [layouts, incoming]
      refine (loadChain_idle kind).trans ?_
      rw [ended, held]
      rfl
    · rw [layouts, incoming]
      refine (loadChain_idle kind).trans ?_
      rw [ended, held]
      rfl
    · exact loadLabel_frame rebay
  · refine fun s => ⟨loading_waits, fun stage reads => ⟨fun i next some_ => ⟨runsOf s.asm.wanted, runsOf_flatMap _, runsOf_chain _,
      runsOf_pos, ?_⟩, fun h table => ⟨_, loading_fills stage reads h, ?_, fun k inside => ?_⟩⟩⟩
    · rw [loading_asks stage reads next some_, askRecords_eq]
    · conv_lhs => rw [fillRecords_frame]
    · have inside' : k < s.plan.table.length := by rw [table]; exact inside
      have filled := fillRecords_record (s := s) inside'
      intro r
      have same : r = (supplyRecords s).record k := by
        show (match s.asm.chosen with
          | none => _
          | some l => _) = _
        cases chosen : s.asm.chosen with
        | none => rw [supplyRecords_none chosen]
        | some l => exact (supplyRecords_some chosen inside').symm
      rw [same]
      exact filled
end Sys2Proof.Machine
end

