-- ==== Sys2Proof/Proofs/Rebuilding.lean ====
section
/-! PROOFS. Sums of blocks by XOR, and reconstruction (R33, R36, R143). -/

namespace Sys2Proof.Machine

/-! ## Sums by XOR -/

/-- The XOR of two blocks' data and application fields. -/
def xorPair (a b : Data × BitVec 16) : Data × BitVec 16 := (a.1 ^^^ b.1, a.2 ^^^ b.2)

theorem xorPair_comm (a b : Data × BitVec 16) : xorPair a b = xorPair b a := by
  unfold xorPair
  rw [BitVec.xor_comm a.1, BitVec.xor_comm a.2]

theorem xorPair_assoc (a b c : Data × BitVec 16) : xorPair (xorPair a b) c = xorPair a (xorPair b c) := by
  unfold xorPair
  rw [BitVec.xor_assoc, BitVec.xor_assoc]

theorem xorPair_left_comm (a b c : Data × BitVec 16) : xorPair a (xorPair b c) = xorPair b (xorPair a c) := by
  rw [← xorPair_assoc, xorPair_comm a b, xorPair_assoc]

theorem xorPair_zero (a : Data × BitVec 16) : xorPair a (zeroData, 0#16) = a := by
  unfold xorPair zeroData
  rw [BitVec.xor_zero, BitVec.xor_zero]

theorem zero_xorPair (a : Data × BitVec 16) : xorPair (zeroData, 0#16) a = a := by rw [xorPair_comm, xorPair_zero]

theorem xorPair_self (a : Data × BitVec 16) : xorPair a a = (zeroData, 0#16) := by
  unfold xorPair zeroData
  rw [BitVec.xor_self, BitVec.xor_self]

theorem xorPair_cancel (a b : Data × BitVec 16) : xorPair a (xorPair a b) = b := by
  rw [← xorPair_assoc, xorPair_self, zero_xorPair]

theorem foldl_xorPair (bs : List (Data × BitVec 16)) : ∀ a, bs.foldl xorPair a = xorPair a (xorAll bs) := by
  induction bs with
  | nil => exact fun a => (xorPair_zero a).symm
  | cons b bs ih =>
    intro a
    have all : xorAll (b :: bs) = bs.foldl xorPair (xorPair (zeroData, 0#16) b) := rfl
    rw [all, List.foldl_cons, ih, ih, zero_xorPair, xorPair_assoc]

theorem xorAll_nil : xorAll [] = (zeroData, 0#16) := rfl

theorem xorAll_cons (b : Data × BitVec 16) (bs : List (Data × BitVec 16)) : xorAll (b :: bs) = xorPair b (xorAll bs) := by
  have all : xorAll (b :: bs) = bs.foldl xorPair (xorPair (zeroData, 0#16) b) := rfl
  rw [all, foldl_xorPair, zero_xorPair]

section
variable {α : Type} (f g : α → Data × BitVec 16)

/-- A sum over a list is that over the places a condition picks and that over the rest. -/
theorem xorAll_filter (p : α → Bool) (xs : List α) :
    xorAll (xs.map f) = xorPair (xorAll ((xs.filter p).map f)) (xorAll ((xs.filter (fun x => !p x)).map f)) := by
  induction xs with
  | nil => exact (xorPair_zero _).symm
  | cons x xs ih =>
    rw [List.map_cons, xorAll_cons, ih]
    by_cases hx : p x = true
    · rw [List.filter_cons_of_pos hx, List.filter_cons_of_neg (by simp [hx]), List.map_cons, xorAll_cons, xorPair_assoc]
    · rw [List.filter_cons_of_neg hx, List.filter_cons_of_pos (by simp [hx]), List.map_cons, xorAll_cons, xorPair_left_comm]

theorem xorAll_append (as bs : List (Data × BitVec 16)) : xorAll (as ++ bs) = xorPair (xorAll as) (xorAll bs) := by
  induction as with
  | nil => exact (zero_xorPair _).symm
  | cons a as ih => rw [List.cons_append, xorAll_cons, xorAll_cons, ih, xorPair_assoc]

theorem xorAll_map_xorPair (xs : List α) :
    xorAll (xs.map fun x => xorPair (f x) (g x)) = xorPair (xorAll (xs.map f)) (xorAll (xs.map g)) := by
  induction xs with
  | nil => exact (xorPair_zero _).symm
  | cons x xs ih =>
    rw [List.map_cons, List.map_cons, List.map_cons, xorAll_cons, xorAll_cons, xorAll_cons, ih, xorPair_assoc, xorPair_assoc,
      xorPair_left_comm (g x)]

theorem xorAll_zeros (xs : List α) (h : ∀ x ∈ xs, f x = (zeroData, 0#16)) : xorAll (xs.map f) = (zeroData, 0#16) := by
  induction xs with
  | nil => rfl
  | cons x xs ih =>
    rw [List.map_cons, xorAll_cons, h x List.mem_cons_self, zero_xorPair, ih fun y hy => h y (List.mem_cons_of_mem _ hy)]

end

/-- The sum of all but one of a list's places is the one, when the whole sum is zero. -/
theorem xorAll_rest {α : Type} [DecidableEq α] {f : α → Data × BitVec 16} {xs : List α} {x : α} (nodup : xs.Nodup) (mem : x ∈ xs)
    (zero : xorAll (xs.map f) = (zeroData, 0#16)) : xorAll ((xs.filter (· != x)).map f) = f x := by
  have own : xs.filter (fun y => !(y != x)) = [x] := by
    have same : (fun y => !(y != x)) = (· == x) := funext fun y => Bool.not_not _
    rw [same, List.filter_beq, List.count_eq_one_of_mem nodup mem]
    rfl
  have split := xorAll_filter f (· != x) xs
  rw [own, zero, List.map_singleton, xorAll_cons, xorAll_nil, xorPair_zero] at split
  calc xorAll ((xs.filter (· != x)).map f)
      = xorPair (f x) (xorPair (f x) (xorAll ((xs.filter (· != x)).map f))) := (xorPair_cancel _ _).symm
    _ = f x := by rw [xorPair_comm (f x) (xorAll _), ← split, xorPair_zero]

/-! ## The verdict on a block that cannot be had (R33) -/

section
variable {s : State} {f : Fetch} {c : Cell}

theorem mem_others {l : Layout} {d : Cell} : d ∈ l.others c ↔ ∃ p, p < l.n ∧ p ≠ c.pos ∧ d = { c with pos := p } := by
  simp only [Layout.others, List.mem_map, List.mem_filter, List.mem_range, bne_iff_ne, and_assoc]
  exact exists_congr fun p => and_congr_right fun _ => and_congr_right fun _ => eq_comm

/-- What is known of another place of the row. -/
def Has (s : State) (f : Fetch) (c : Cell) (p : Nat) (k : Known) : Prop :=
  p < f.layout.n ∧ p ≠ c.pos ∧ Fetch.knows s f { c with pos := p } = k

theorem contains_known {k : Known} : ((f.layout.others c).map (Fetch.knows s f)).contains k = true ↔ ∃ p, Has s f c p k := by
  rw [List.contains_iff_mem, List.mem_map]
  constructor
  · rintro ⟨d, hd, rfl⟩
    obtain ⟨p, hp, ne, rfl⟩ := mem_others.mp hd
    exact ⟨p, hp, ne, rfl⟩
  · rintro ⟨p, hp, ne, rfl⟩
    exact ⟨_, mem_others.mpr ⟨p, hp, ne, rfl⟩, rfl⟩

/-- The places still to be asked for. -/
def Fetch.unasked (s : State) (f : Fetch) (c : Cell) : List Cell := (f.layout.others c).filter (fun o => Fetch.knows s f o == .absent)

theorem mem_unasked {d : Cell} : d ∈ Fetch.unasked s f c ↔ ∃ p, d = { c with pos := p } ∧ Has s f c p .absent := by
  unfold Fetch.unasked
  rw [List.mem_filter, mem_others, beq_iff_eq]
  constructor
  · rintro ⟨⟨p, hp, ne, rfl⟩, absent⟩
    exact ⟨p, rfl, hp, ne, absent⟩
  · rintro ⟨p, rfl, hp, ne, absent⟩
    exact ⟨⟨p, hp, ne, rfl⟩, absent⟩

theorem unasked_nil (h : ∀ p, ¬Has s f c p .absent) : Fetch.unasked s f c = [] := by
  refine List.eq_nil_iff_forall_not_mem.mpr fun d hd => ?_
  obtain ⟨p, -, has⟩ := mem_unasked.mp hd
  exact h p has

theorem verdict_eq : Fetch.verdict s f c =
    if (Fetch.unasked s f c).isEmpty = false then .needs (Fetch.unasked s f c)
    else if ((f.layout.others c).map (Fetch.knows s f)).contains .waits = true then .waits
    else if ((f.layout.others c).map (Fetch.knows s f)).contains .fails = true then .lost
    else .rebuilt (rebuildBlock f.layout c (((f.layout.others c).map (Fetch.knows s f)).filterMap Known.source)) := by
  unfold Fetch.verdict Fetch.unasked
  dsimp only
  simp only [Bool.not_eq_true']

theorem sources_eq {src : Nat → Data × BitVec 16} (known : ∀ p, p < f.layout.n → p ≠ c.pos → ∃ poison b,
    Fetch.knows s f { c with pos := p } = .known poison b ∧ src p = if poison then (zeroData, 0#16) else (b.data, b.app)) :
    ((f.layout.others c).map (Fetch.knows s f)).filterMap Known.source = ((List.range f.layout.n).filter (· != c.pos)).map src := by
  unfold Layout.others
  rw [List.map_map, List.filterMap_map, ← List.filterMap_eq_map]
  refine List.filterMap_congr fun p hp => ?_
  obtain ⟨lt, ne⟩ := List.mem_filter.mp hp
  obtain ⟨poison, b, knows, value⟩ := known p (List.mem_range.mp lt) (by simpa using ne)
  show Known.source (Fetch.knows s f { c with pos := p }) = some (src p)
  rw [knows, value]
  rfl

end

/-- Settles O14: what is known of the other places decides the verdict; the sum of the others is the block's own content when the
whole row's sum is zero. -/
theorem rebuildVerdict : Obligations.RebuildVerdict := by
  unfold Obligations.RebuildVerdict
  intro s f c src inside at_ has
  refine ⟨fun ⟨p, absent⟩ => ⟨Fetch.unasked s f c, ?_, fun d => mem_unasked⟩, fun asked ⟨p, waits⟩ => ?_, fun asked ended ⟨p, fails⟩ => ?_,
    fun known zero => ?_⟩
  · have some_ : (Fetch.unasked s f c).isEmpty = false := by
      rw [List.isEmpty_eq_false_iff]
      exact List.ne_nil_of_mem (mem_unasked.mpr ⟨p, rfl, absent⟩)
    rw [verdict_eq, if_pos some_]
  · rw [verdict_eq, unasked_nil asked, if_neg (by simp), if_pos (contains_known.mpr ⟨p, waits⟩)]
  · rw [verdict_eq, unasked_nil asked, if_neg (by simp), if_neg fun h => (contains_known.mp h).elim ended,
      if_pos (contains_known.mpr ⟨p, fails⟩)]
  · have other (k : Known) (unlike : ∀ poison b, k ≠ .known poison b) (p : Nat) : ¬Has s f c p k := by
      rintro ⟨hp, ne, knows⟩
      obtain ⟨poison, b, knows', -⟩ := known p hp ne
      exact unlike poison b (knows.symm.trans knows')
    rw [verdict_eq, unasked_nil (other .absent (by simp)), if_neg (by simp),
      if_neg fun h => (contains_known.mp h).elim (other .waits (by simp)),
      if_neg fun h => (contains_known.mp h).elim (other .fails (by simp)), sources_eq known]
    obtain ⟨guard, sum, ref⟩ := rebuildBlock_good f.layout c (((List.range f.layout.n).filter (· != c.pos)).map src)
    rw [xorAll_rest List.nodup_range (List.mem_range.mpr inside) zero] at sum
    obtain ⟨data, app⟩ := Prod.ext_iff.mp sum
    refine ⟨_, rfl, data, app, guard, ref.trans ?_⟩
    unfold Layout.refOf
    cases f.layout.lbaOf c <;> rfl
end Sys2Proof.Machine
end

