-- ==== Sys2Proof/Proofs/RowWriting.lean ====
section
/-! PROOFS. The write path of a row, what it reads, and the parity it writes (R35 to R37, R143, R147). -/

namespace Sys2Proof.Machine

/-! ## The offsets a row's new blocks are at (R35) -/

theorem mem_insertAsc {n m : Nat} : ∀ {ms : List Nat}, n ∈ insertAsc m ms ↔ n = m ∨ n ∈ ms
  | [] => by simp [insertAsc]
  | k :: ms => by
    unfold insertAsc
    split
    · exact List.mem_cons
    · split
      next _ same =>
        obtain rfl : m = k := by simpa using same
        simp
      next =>
        rw [List.mem_cons, mem_insertAsc, List.mem_cons]
        tauto

theorem mem_ascending {n : Nat} {ns : List Nat} : n ∈ ascending ns ↔ n ∈ ns := by
  have general (ns : List Nat) : ∀ acc, n ∈ ns.foldl (fun acc n => insertAsc n acc) acc ↔ n ∈ acc ∨ n ∈ ns := by
    induction ns with
    | nil => exact fun acc => by simp
    | cons m ns ih =>
      intro acc
      rw [List.foldl_cons, ih, mem_insertAsc, List.mem_cons]
      tauto
  exact (general ns []).trans (by simp)

theorem mem_affected {news : List (Cell × Block)} {o : Nat} : o ∈ affected news ↔ ∃ n ∈ news, n.1.off = o := by
  unfold affected
  rw [mem_ascending, List.mem_map]

/-! ## The path and its reads (R35) -/

section
variable {s : State} {l : Layout} {row : Nat} {news : List (Cell × Block)}

theorem pathOf_parityMissing (lost : s.missingInRow l row (l.parity row) = true) : s.pathOf l row news = .parityMissing := if_pos lost

theorem pathOf_fullRow (there : ¬s.missingInRow l row (l.parity row) = true) (all : news.length = l.rowBlocks) :
    s.pathOf l row news = .fullRow := (if_neg there).trans (if_pos (by simpa using all))

theorem pathOf_reconstructWrite (there : ¬s.missingInRow l row (l.parity row) = true) (part : news.length ≠ l.rowBlocks)
    (lost : ∃ n ∈ news, s.missingInRow l row n.1.pos = true) : s.pathOf l row news = .reconstructWrite :=
  (if_neg there).trans ((if_neg (by simpa using part)).trans (if_pos (List.any_eq_true.mpr lost)))

theorem pathOf_readModifyWrite (there : ¬s.missingInRow l row (l.parity row) = true) (part : news.length ≠ l.rowBlocks)
    (held : ∀ n ∈ news, ¬s.missingInRow l row n.1.pos = true) : s.pathOf l row news = .readModifyWrite :=
  (if_neg there).trans ((if_neg (by simpa using part)).trans (if_neg fun h => by
    obtain ⟨n, hn, lost⟩ := List.any_eq_true.mp h
    exact held n hn lost))

theorem mem_reads_reconstructWrite {c : Cell} : c ∈ s.pathReads l row news .reconstructWrite ↔
    c.row = row ∧ c.pos < l.n ∧ ¬s.missingInRow l row c.pos = true ∧ ∃ n ∈ news, n.1.off = c.off := by
  simp only [State.pathReads, List.mem_flatMap, List.mem_filter, List.mem_range, List.mem_map, mem_affected, Bool.not_eq_true',
    Bool.not_eq_true]
  constructor
  · rintro ⟨p, ⟨hp, there⟩, o, off, rfl⟩
    exact ⟨rfl, hp, there, off⟩
  · rintro ⟨rfl, hp, there, off⟩
    exact ⟨c.pos, ⟨hp, there⟩, c.off, off, rfl⟩

theorem mem_reads_readModifyWrite {c : Cell} : c ∈ s.pathReads l row news .readModifyWrite ↔
    (∃ n ∈ news, n.1 = c) ∨ (c.row = row ∧ c.pos = l.parity row ∧ ∃ n ∈ news, n.1.off = c.off) := by
  simp only [State.pathReads, List.mem_append, List.mem_map, mem_affected]
  refine or_congr_right ⟨?_, ?_⟩
  · rintro ⟨o, off, rfl⟩
    exact ⟨rfl, rfl, off⟩
  · rintro ⟨rfl, pos, off⟩
    refine ⟨c.off, off, ?_⟩
    rw [← pos]

end

/-! ## Sums over the data of a row -/

theorem xorAll_filterMap {α : Type} (g : α → Option (Data × BitVec 16)) (xs : List α) :
    xorAll (xs.filterMap g) = xorAll (xs.map fun x => (g x).getD (zeroData, 0#16)) := by
  induction xs with
  | nil => rfl
  | cons x xs ih =>
    rw [List.map_cons, xorAll_cons, ← ih]
    cases h : g x with
    | none => rw [List.filterMap_cons_none h, Option.getD_none, zero_xorPair]
    | some v => rw [List.filterMap_cons_some h, xorAll_cons, Option.getD_some]

theorem xorAll_flatMap {α : Type} (g : α → List (Data × BitVec 16)) (xs : List α) :
    xorAll (xs.flatMap g) = xorAll (xs.map fun x => xorAll (g x)) := by
  induction xs with
  | nil => rfl
  | cons x xs ih => rw [List.flatMap_cons, xorAll_append, ih, List.map_cons, xorAll_cons]

theorem xorAll_perm {as bs : List (Data × BitVec 16)} (h : as.Perm bs) : xorAll as = xorAll bs := by
  induction h with
  | nil => rfl
  | cons a _ ih => rw [xorAll_cons, xorAll_cons, ih]
  | swap a b l => rw [xorAll_cons, xorAll_cons, xorAll_cons, xorAll_cons, xorPair_left_comm]
  | trans _ _ ih ih' => exact ih.trans ih'

theorem dataPositions_nodup (l : Layout) (row : Nat) : (l.dataPositions row).Nodup := List.nodup_range.filter _

theorem parity_not_data (l : Layout) (row : Nat) : l.parity row ∉ l.dataPositions row := by
  simp [Layout.dataPositions]

/-! ## The blocks of a row by place -/

/-- A place of the row at an offset. -/
def RowWork.cell (w : RowWork) (off p : Nat) : Cell := { row := w.row, pos := p, off := off }

/-- What a place of the row holds after the write, its old content given. -/
def RowWork.after (w : RowWork) (off : Nat) (old : Nat → Data × BitVec 16) (p : Nat) : Data × BitVec 16 :=
  ((w.new (w.cell off p)).map asSource).getD (old p)

/-- What the row has of a place after the write: its new block, else its old content if in hand. -/
def RowWork.inHand (w : RowWork) (off p : Nat) : Option (Data × BitVec 16) :=
  ((w.new (w.cell off p)).map asSource).or (w.old (w.cell off p))

/-- The data places in hand after the write. -/
def RowWork.afters (w : RowWork) (off : Nat) : List (Data × BitVec 16) := (w.layout.dataPositions w.row).filterMap (w.inHand off)

section
variable {w : RowWork} {off : Nat} {old : Nat → Data × BitVec 16}

theorem afters_eq (w : RowWork) (off : Nat) : (w.layout.dataPositions w.row).filterMap
    (fun p => match w.new { row := w.row, pos := p, off := off } with
      | some b => some (asSource b)
      | none => w.old { row := w.row, pos := p, off := off }) = w.afters off := by
  unfold RowWork.afters RowWork.inHand RowWork.cell
  refine List.filterMap_congr fun p _ => ?_
  cases w.new { row := w.row, pos := p, off := off } <;> rfl

theorem sources_plain (h : w.path = .fullRow ∨ w.whole off = false) : w.paritySources off = w.afters off := by
  rw [← afters_eq]
  unfold RowWork.paritySources
  exact if_pos (by rcases h with h | h <;> simp [h])

theorem sources_readModifyWrite (path : w.path = .readModifyWrite) (whole : w.whole off = true) : w.paritySources off
    = (w.old (w.cell off (w.layout.parity w.row))).toList
      ++ (w.news.filter (·.1.off == off)).flatMap (fun n => [asSource n.2] ++ (w.old n.1).toList) := by
  unfold RowWork.paritySources
  dsimp only
  rw [if_neg (by simp [path, whole]), path]
  rfl

theorem sources_reconstructWrite (path : w.path = .reconstructWrite) (whole : w.whole off = true) : w.paritySources off
    = w.afters off ++ (if ((w.layout.dataPositions w.row).filter
        (fun p => (w.old (w.cell off p)).isNone && (w.new (w.cell off p)).isNone)).isEmpty = true then []
      else (w.old (w.cell off (w.layout.parity w.row))).toList
        ++ (w.layout.dataPositions w.row).filterMap (fun p => w.old (w.cell off p))) := by
  rw [← afters_eq]
  unfold RowWork.paritySources
  dsimp only
  rw [if_neg (by simp [path, whole]), path]
  rfl

theorem xorAll_afters (h : ∀ p ∈ w.layout.dataPositions w.row, (w.inHand off p).getD (zeroData, 0#16) = old p) :
    xorAll (w.afters off) = xorAll ((w.layout.dataPositions w.row).map old) := by
  unfold RowWork.afters
  rw [xorAll_filterMap, List.map_congr_left h]

theorem inHand_new {p : Nat} (h : (w.new (w.cell off p)).isSome = true) : w.inHand off p = some (w.after off old p) := by
  obtain ⟨b, hb⟩ := Option.isSome_iff_exists.mp h
  unfold RowWork.inHand RowWork.after
  rw [hb]
  rfl

theorem inHand_old {p : Nat} (h : w.new (w.cell off p) = none) : w.inHand off p = w.old (w.cell off p) := by
  unfold RowWork.inHand
  rw [h]
  rfl

theorem after_old {p : Nat} (h : w.new (w.cell off p) = none) : w.after off old p = old p := by
  unfold RowWork.after
  rw [h]
  rfl

/-- With every data place in hand the sum is that of the data as they stand after the write. -/
theorem xorAll_afters_whole (h : ∀ p ∈ w.layout.dataPositions w.row, w.new (w.cell off p) = none → w.old (w.cell off p) = some (old p)) :
    xorAll (w.afters off) = xorAll ((w.layout.dataPositions w.row).map (w.after off old)) := by
  refine xorAll_afters fun p hp => ?_
  cases new : w.new (w.cell off p) with
  | some b => rw [inHand_new (old := old) (by rw [new]; rfl), Option.getD_some]
  | none => rw [inHand_old new, h p hp new, after_old new, Option.getD_some]

/-! ## Read-modify-write (R36) -/

theorem new_of_mem {n : Cell × Block} (nodup : (w.news.map (·.1)).Nodup) (mem : n ∈ w.news) : w.new n.1 = some n.2 := by
  obtain ⟨m, found⟩ : ∃ m, w.news.find? (·.1 == n.1) = some m :=
    Option.isSome_iff_exists.mp (List.find?_isSome.mpr ⟨n, mem, beq_self_eq_true n.1⟩)
  have key : m.1 = n.1 := by simpa using List.find?_some found
  have same : m = n := List.inj_on_of_nodup_map nodup (List.mem_of_find?_eq_some found) mem key
  unfold RowWork.new
  rw [found, same]
  rfl

theorem new_isSome {c : Cell} : (w.new c).isSome = true ↔ ∃ n ∈ w.news, n.1 = c := by
  unfold RowWork.new
  rw [Option.isSome_map, List.find?_isSome]
  simp only [beq_iff_eq]

/-- The data places the row writes at an offset. -/
def RowWork.written (w : RowWork) (off : Nat) : List Nat :=
  (w.layout.dataPositions w.row).filter (fun p => (w.new (w.cell off p)).isSome)

section
variable (nodup : (w.news.map (·.1)).Nodup) (placed : ∀ n ∈ w.news, n.1.row = w.row ∧ n.1.pos ∈ w.layout.dataPositions w.row)
include nodup placed

/-- The new blocks at an offset are at the written data places, one each. -/
theorem written_perm : ((w.news.filter (·.1.off == off)).map (fun n => n.1.pos)).Perm (w.written off) := by
  have cellOf {n : Cell × Block} (hn : n ∈ w.news.filter (·.1.off == off)) : n ∈ w.news ∧ n.1 = w.cell off n.1.pos := by
    obtain ⟨mem, at_⟩ := List.mem_filter.mp hn
    obtain ⟨row, -⟩ := placed n mem
    refine ⟨mem, ?_⟩
    unfold RowWork.cell
    rw [← row, ← show n.1.off = off by simpa using at_]
  refine (List.perm_ext_iff_of_nodup ?_ ((dataPositions_nodup _ _).filter _)).mpr fun p => ?_
  · refine List.Nodup.map_on (fun n hn m hm pos => ?_) (nodup.of_map _ |>.filter _)
    have cells : n.1 = m.1 := by rw [(cellOf hn).2, (cellOf hm).2, pos]
    exact List.inj_on_of_nodup_map nodup (cellOf hn).1 (cellOf hm).1 cells
  · rw [List.mem_map, List.mem_filter, new_isSome]
    constructor
    · rintro ⟨n, hn, rfl⟩
      exact ⟨(placed n (cellOf hn).1).2, n, (cellOf hn).1, (cellOf hn).2⟩
    · rintro ⟨hp, n, mem, key⟩
      exact ⟨n, List.mem_filter.mpr ⟨mem, by rw [key]; exact beq_self_eq_true off⟩, by rw [key]; rfl⟩

/-- The change of each written place. -/
theorem xorAll_changes (olds : ∀ p ∈ w.layout.dataPositions w.row, (w.new (w.cell off p)).isSome = true →
    w.old (w.cell off p) = some (old p)) :
    xorAll ((w.news.filter (·.1.off == off)).flatMap (fun n => [asSource n.2] ++ (w.old n.1).toList))
      = xorAll ((w.layout.dataPositions w.row).map (fun p => xorPair (w.after off old p) (old p))) := by
  have each : ∀ n ∈ w.news.filter (·.1.off == off),
      xorAll ([asSource n.2] ++ (w.old n.1).toList) = xorPair (w.after off old n.1.pos) (old n.1.pos) := by
    intro n hn
    obtain ⟨mem, at_⟩ := List.mem_filter.mp hn
    obtain ⟨row, data⟩ := placed n mem
    have key : n.1 = w.cell off n.1.pos := by
      unfold RowWork.cell
      rw [← row, ← show n.1.off = off by simpa using at_]
    have new := new_of_mem nodup mem
    rw [key] at new
    have after : w.after off old n.1.pos = asSource n.2 := by
      unfold RowWork.after
      rw [new]
      rfl
    rw [key, olds n.1.pos data (by rw [new]; rfl)]
    show xorAll [asSource n.2, old n.1.pos] = xorPair (w.after off old n.1.pos) (old n.1.pos)
    rw [after, xorAll_cons, xorAll_cons, xorAll_nil, xorPair_zero]
  have rest : ∀ p ∈ (w.layout.dataPositions w.row).filter (fun p => !(w.new (w.cell off p)).isSome),
      xorPair (w.after off old p) (old p) = (zeroData, 0#16) := by
    intro p hp
    have none_ : w.new (w.cell off p) = none := by simpa using (List.mem_filter.mp hp).2
    rw [after_old none_, xorPair_self]
  calc xorAll ((w.news.filter (·.1.off == off)).flatMap (fun n => [asSource n.2] ++ (w.old n.1).toList))
      = xorAll ((w.news.filter (·.1.off == off)).map (fun n => xorPair (w.after off old n.1.pos) (old n.1.pos))) := by
        rw [xorAll_flatMap, List.map_congr_left each]
    _ = xorAll (((w.news.filter (·.1.off == off)).map (fun n => n.1.pos)).map (fun p => xorPair (w.after off old p) (old p))) := by
        rw [List.map_map]
        rfl
    _ = xorAll ((w.written off).map (fun p => xorPair (w.after off old p) (old p))) :=
        xorAll_perm ((written_perm nodup placed).map _)
    _ = xorAll ((w.layout.dataPositions w.row).map (fun p => xorPair (w.after off old p) (old p))) := by
        rw [xorAll_filter _ (fun p => (w.new (w.cell off p)).isSome) (w.layout.dataPositions w.row), xorAll_zeros _ _ rest,
          xorPair_zero]
        rfl

theorem xorAll_readModifyWrite (path : w.path = .readModifyWrite) (whole : w.whole off = true)
    (parity : w.old (w.cell off (w.layout.parity w.row)) = some (xorAll ((w.layout.dataPositions w.row).map old)))
    (olds : ∀ p ∈ w.layout.dataPositions w.row, (w.new (w.cell off p)).isSome = true → w.old (w.cell off p) = some (old p)) :
    xorAll (w.paritySources off) = xorAll ((w.layout.dataPositions w.row).map (w.after off old)) := by
  rw [sources_readModifyWrite path whole, parity, xorAll_append, xorAll_changes nodup placed olds, xorAll_map_xorPair,
    Option.toList_some, xorAll_cons, xorAll_nil, xorPair_zero, xorPair_comm (xorAll ((w.layout.dataPositions w.row).map (w.after off old))),
    xorPair_cancel]

end

/-! ## Reconstruct-write (R36) -/

/-- The data places neither read nor written. -/
def RowWork.unknown (w : RowWork) (off : Nat) : List Nat :=
  (w.layout.dataPositions w.row).filter (fun p => (w.old (w.cell off p)).isNone && (w.new (w.cell off p)).isNone)

theorem mem_unknown {p : Nat} : p ∈ w.unknown off ↔
    p ∈ w.layout.dataPositions w.row ∧ w.old (w.cell off p) = none ∧ w.new (w.cell off p) = none := by
  unfold RowWork.unknown
  rw [List.mem_filter, Bool.and_eq_true, Option.isNone_iff_eq_none, Option.isNone_iff_eq_none]

theorem xorAll_reconstructWrite {q : Nat} (path : w.path = .reconstructWrite) (whole : w.whole off = true)
    (right : ∀ p ∈ w.layout.dataPositions w.row, ∀ x, w.old (w.cell off p) = some x → x = old p)
    (parity : ∀ x, w.old (w.cell off (w.layout.parity w.row)) = some x → x = xorAll ((w.layout.dataPositions w.row).map old))
    (but : ∀ p, (p ∈ w.layout.dataPositions w.row ∨ p = w.layout.parity w.row) → p ≠ q → (w.old (w.cell off p)).isSome = true) :
    xorAll (w.paritySources off) = xorAll ((w.layout.dataPositions w.row).map (w.after off old)) := by
  have got (p : Nat) (hp : p ∈ w.layout.dataPositions w.row) (there : (w.old (w.cell off p)).isSome = true) :
      w.old (w.cell off p) = some (old p) := by
    obtain ⟨x, hx⟩ := Option.isSome_iff_exists.mp there
    rw [hx, right p hp x hx]
  have sources := sources_reconstructWrite path whole
  by_cases none_ : w.unknown off = []
  · rw [if_pos (by rw [List.isEmpty_iff]; exact none_), List.append_nil] at sources
    rw [sources]
    refine xorAll_afters_whole fun p hp new => got p hp ?_
    by_contra lost
    have : p ∈ w.unknown off := mem_unknown.mpr ⟨hp, by simpa using lost, new⟩
    rw [none_] at this
    exact List.not_mem_nil this
  · rw [if_neg (by rw [List.isEmpty_iff]; exact none_)] at sources
    obtain ⟨k, hk⟩ := List.exists_mem_of_ne_nil _ none_
    obtain ⟨data, lost, unwritten⟩ := mem_unknown.mp hk
    have only : k = q := by
      by_contra ne
      have := but k (.inl data) ne
      rw [lost] at this
      cases this
    subst only
    have parityKnown : w.old (w.cell off (w.layout.parity w.row)) = some (xorAll ((w.layout.dataPositions w.row).map old)) := by
      obtain ⟨x, hx⟩ := Option.isSome_iff_exists.mp (but _ (.inr rfl) fun e => parity_not_data _ _ (e ▸ data))
      rw [hx, parity x hx]
    have each : ∀ p ∈ w.layout.dataPositions w.row, xorPair ((w.inHand off p).getD (zeroData, 0#16))
        (xorPair (old p) ((w.old (w.cell off p)).getD (zeroData, 0#16))) = w.after off old p := by
      intro p hp
      by_cases e : p = k
      · rw [e, inHand_old unwritten, lost, Option.getD_none, xorPair_zero, zero_xorPair, after_old unwritten]
      · have known := got p hp (but p (.inl hp) e)
        rw [known, Option.getD_some, xorPair_self, xorPair_zero]
        cases new : w.new (w.cell off p) with
        | some b => rw [inHand_new (old := old) (by rw [new]; rfl), Option.getD_some]
        | none => rw [inHand_old new, known, after_old new, Option.getD_some]
    calc xorAll (w.paritySources off)
        = xorPair (xorAll ((w.layout.dataPositions w.row).map fun p => (w.inHand off p).getD (zeroData, 0#16)))
            (xorPair (xorAll ((w.layout.dataPositions w.row).map old))
              (xorAll ((w.layout.dataPositions w.row).map fun p => (w.old (w.cell off p)).getD (zeroData, 0#16)))) := by
          rw [sources, xorAll_append, xorAll_append, parityKnown, Option.toList_some, xorAll_cons, xorAll_nil, xorPair_zero,
            xorAll_filterMap, RowWork.afters, xorAll_filterMap]
      _ = xorAll ((w.layout.dataPositions w.row).map (w.after off old)) := by
          rw [← xorAll_map_xorPair, ← xorAll_map_xorPair, List.map_congr_left each]

/-! ## Poison and the blocks written (R37) -/

theorem mem_poisons {c : Cell} : c ∈ w.poisons ↔ ∃ p ∈ w.layout.dataPositions w.row, c = w.cell c.off p
    ∧ (∃ n ∈ w.news, n.1.off = c.off) ∧ w.whole c.off = false ∧ w.new c = none ∧ w.old c = none := by
  unfold RowWork.poisons
  simp only [List.mem_flatMap, List.mem_filter, mem_affected, List.mem_map, Bool.and_eq_true, Option.isNone_iff_eq_none,
    Bool.not_eq_true']
  constructor
  · rintro ⟨o, ⟨at_, part⟩, ⟨p, hp, rfl⟩, new, lost⟩
    exact ⟨p, hp, rfl, at_, part, new, lost⟩
  · rintro ⟨p, hp, key, at_, part, new, lost⟩
    exact ⟨c.off, ⟨at_, part⟩, ⟨p, hp, key.symm⟩, new, lost⟩

theorem parity_written (path : w.path ≠ .parityMissing) (at_ : ∃ n ∈ w.news, n.1.off = off) :
    (w.cell off (w.layout.parity w.row), parityBlock (w.paritySources off)) ∈ w.writes := by
  unfold RowWork.writes
  rw [if_neg (by simpa using path)]
  exact List.mem_append_left _ (List.mem_append_right _ (List.mem_map.mpr ⟨off, mem_affected.mpr at_, rfl⟩))

theorem after_match (w : RowWork) (off : Nat) (old : Nat → Data × BitVec 16) (p : Nat) : w.after off old p
    = match w.new { row := w.row, pos := p, off := off } with
      | some b => (b.data, b.app)
      | none => old p := by
  unfold RowWork.after RowWork.cell
  cases w.new { row := w.row, pos := p, off := off } <;> rfl

end

/-- Settles O13: the path by its four conditions; the parity of each path as a sum over the row's data places. -/
theorem writePaths : Obligations.WritePaths := by
  unfold Obligations.WritePaths
  refine ⟨?_, ?_⟩
  · intro s l row news lost reads
    refine ⟨fun missing => ?_, fun there => ⟨fun all => ?_, fun part some_ => ?_, fun part held => ?_⟩⟩
    · have path := pathOf_parityMissing (news := news) missing
      exact ⟨path, congrArg (s.pathReads l row news) path⟩
    · have path := pathOf_fullRow there all
      exact ⟨path, congrArg (s.pathReads l row news) path⟩
    · have path := pathOf_reconstructWrite there part some_
      have same : reads = s.pathReads l row news .reconstructWrite := congrArg (s.pathReads l row news) path
      exact ⟨path, fun c => by rw [same]; exact mem_reads_reconstructWrite⟩
    · have path := pathOf_readModifyWrite there part held
      have same : reads = s.pathReads l row news .readModifyWrite := congrArg (s.pathReads l row news) path
      exact ⟨path, fun c => by rw [same]; exact mem_reads_readModifyWrite⟩
  · intro w off old l cell ds after nodup placed at_ path
    have same : after = w.after off old := funext fun p => (after_match w off old p).symm
    refine ⟨fun whole right parity full modify reconstruct => ?_, fun part right => ⟨?_, fun p => ?_⟩, parity_written path at_,
      fun n hn => ?_, fun c hc => ?_⟩
    · refine ⟨?_, fun p poison => ?_⟩
      · rw [same]
        cases kind : w.path with
        | parityMissing => exact absurd kind path
        | fullRow =>
          rw [sources_plain (.inl kind)]
          refine xorAll_afters_whole fun p hp new => ?_
          have := full kind p hp
          rw [show w.new (cell p) = none from new] at this
          cases this
        | readModifyWrite =>
          obtain ⟨held, olds⟩ := modify kind
          obtain ⟨x, hx⟩ := Option.isSome_iff_exists.mp held
          refine xorAll_readModifyWrite nodup placed kind whole (hx.trans (by rw [parity x hx])) fun p hp new => ?_
          obtain ⟨y, hy⟩ := Option.isSome_iff_exists.mp (olds p hp new)
          exact hy.trans (by rw [right p hp y hy])
        | reconstructWrite =>
          obtain ⟨q, but⟩ := reconstruct kind
          exact xorAll_reconstructWrite kind whole right parity but
      · obtain ⟨_, -, -, -, part, -⟩ := mem_poisons.mp poison
        rw [show w.whole off = true from whole] at part
        cases part
    · rw [same, sources_plain (.inr part)]
      refine xorAll_afters fun p hp => ?_
      have held : w.old (w.cell off p) = none ∨ w.old (w.cell off p) = some (old p) := right p hp
      show _ = if (w.new (w.cell off p)).isNone && (w.old (w.cell off p)).isNone then (zeroData, 0#16) else w.after off old p
      cases new : w.new (w.cell off p) with
      | some b =>
        rw [inHand_new (old := old) (by rw [new]; rfl), Option.getD_some]
        rfl
      | none =>
        rw [inHand_old new, after_old new]
        rcases held with h | h <;> rw [h] <;> rfl
    · rw [mem_poisons]
      constructor
      · rintro ⟨k, hk, key, -, -, new, lost⟩
        obtain rfl : p = k := congrArg Cell.pos key
        exact ⟨hk, new, lost⟩
      · rintro ⟨hp, new, lost⟩
        exact ⟨p, hp, rfl, at_, part, new, lost⟩
    · exact List.mem_append_left _ (List.mem_append_left _ hn)
    · exact List.mem_append_right _ (List.mem_map.mpr ⟨c, hc, rfl⟩)
end Sys2Proof.Machine
end

