-- ==== Sys2Proof/Proofs/HoldQuestion.lean ====
section
/-! PROOFS. The hold question, the hold queue and its releases (R26, R27, R64 to R66, R90). -/

namespace Sys2Proof.Machine

/-! ## What the steps and the unmarked band hold (R64, R90) -/

/-- Whether a step holds a request (R64), as `HoldQuestion` spells it. -/
def Step.Holds (s : State) (e : Entry) (t : Step) : Prop :=
  ((t.kind = .migrate ∧ t.first < e.lba + e.count ∧ e.lba < t.stop)
    ∨ (t.kind = .rebuild ∧ ∃ p ∈ s.places e.lba e.count, t.front ≤ p.2.1.row ∧ p.2.1.row < t.front + t.rows))
  ∧ (t.stage = .place ∨ t.stage = .mark
    ∨ (e.kind = .write ∧ (t.stage = .freeze ∨ t.stage = .spill ∨ (t.stage = .gather ∧ t.pinned = true))))

/-- Whether a request is a write with a block in the unmarked band (R90). -/
def Entry.Banded (s : State) (e : Entry) : Prop :=
  e.kind = .write ∧ ∃ o n b, s.growing = some (o, n) ∧ e.lba ≤ b ∧ b < e.lba + e.count
    ∧ s.mark.front * n.rowBlocks ≤ b ∧ b < s.mover.front * n.rowBlocks ∧ b < o.capacity

theorem holdsKind_iff {t : Step} {write : Bool} : t.holdsKind write = true ↔ t.stage = .place ∨ t.stage = .mark
    ∨ (write = true ∧ (t.stage = .freeze ∨ t.stage = .spill ∨ (t.stage = .gather ∧ t.pinned = true))) := by
  unfold Step.holdsKind
  cases t.stage <;> simp

theorem hasBlockIn_iff {s : State} {t : Step} {lba count : Nat} : s.hasBlockIn t lba count = true ↔
    (t.kind = .migrate ∧ t.first < lba + count ∧ lba < t.stop)
    ∨ (t.kind = .rebuild ∧ ∃ p ∈ s.places lba count, t.front ≤ p.2.1.row ∧ p.2.1.row < t.front + t.rows) := by
  unfold State.hasBlockIn
  cases t.kind <;> simp [List.any_eq_true]

theorem step_holds_iff {s : State} {e : Entry} {t : Step} :
    (t.holdsKind (e.kind == .write) && s.hasBlockIn t e.lba e.count) = true ↔ t.Holds s e := by
  rw [Bool.and_eq_true, holdsKind_iff, hasBlockIn_iff, beq_iff_eq]
  exact and_comm

theorem inBand_iff {s : State} {lba count : Nat} (some_block : 1 ≤ count) : s.inBand lba count = true ↔
    ∃ o n b, s.growing = some (o, n) ∧ lba ≤ b ∧ b < lba + count
      ∧ s.mark.front * n.rowBlocks ≤ b ∧ b < s.mover.front * n.rowBlocks ∧ b < o.capacity := by
  unfold State.inBand State.band
  cases hg : s.growing with
  | none => simp
  | some p =>
    obtain ⟨o, n⟩ := p
    simp only [Option.map_some, Bool.and_eq_true, decide_eq_true_eq, lt_min_iff]
    constructor
    · rintro ⟨⟨⟨below, belowOld⟩, reaches⟩, nonempty, nonemptyOld⟩
      exact ⟨o, n, max lba (s.mark.front * n.rowBlocks), rfl, le_max_left _ _, max_lt (by omega) reaches,
        le_max_right _ _, max_lt below nonempty, max_lt belowOld nonemptyOld⟩
    · rintro ⟨_, _, b, ⟨⟩, place⟩
      omega

theorem banded_iff {s : State} {e : Entry} (some_block : 1 ≤ e.count) :
    (e.kind == .write && s.inBand e.lba e.count) = true ↔ e.Banded s := by
  rw [Bool.and_eq_true, beq_iff_eq, inBand_iff some_block]
  exact Iff.rfl

/-! ## The answer to the hold question (R26, R64) -/

theorem mem_holding_fronts {s : State} {e : Entry} {f : Nat} :
    f ∈ (s.steps.filter (fun p => p.2.holdsKind (e.kind == .write) && s.hasBlockIn p.2 e.lba e.count)).map (·.2.front)
      ↔ ∃ g t, s.stepIn g = some t ∧ t.Holds s e ∧ t.front = f := by
  simp only [List.mem_map, List.mem_filter, Prod.exists, mem_steps, step_holds_iff, and_assoc]

theorem holdReason_step {s : State} {e : Entry} {g : Staging} {t : Step} (at_slot : s.stepIn g = some t)
    (holds : t.Holds s e) (lowest : ∀ k v, s.stepIn k = some v → v.Holds s e → t.front ≤ v.front) :
    s.holdReason e = some (.step t.front) := by
  have step : s.holdingStep (e.kind == .write) e.lba e.count = some t.front := by
    refine List.min?_eq_some_iff.mpr ⟨mem_holding_fronts.mpr ⟨g, t, at_slot, holds, rfl⟩, fun f hf => ?_⟩
    obtain ⟨k, v, slot, hv, rfl⟩ := mem_holding_fronts.mp hf
    exact lowest k v slot hv
  simp only [State.holdReason, step]

theorem holdReason_no_step {s : State} {e : Entry} (free : ∀ g t, s.stepIn g = some t → ¬t.Holds s e) :
    s.holdReason e = if e.kind == .write && s.inBand e.lba e.count then some .mark else none := by
  have step : s.holdingStep (e.kind == .write) e.lba e.count = none := by
    refine List.min?_eq_none_iff.mpr (List.eq_nil_iff_forall_not_mem.mpr fun f hf => ?_)
    obtain ⟨g, t, slot, holds, -⟩ := mem_holding_fronts.mp hf
    exact free g t slot holds
  simp only [State.holdReason, step]

/-! ## A request held whole (R26, R65) -/

theorem insertHold_split (h : HoldEntry) (l : List HoldEntry) : ∃ before after, l = before ++ after
    ∧ insertHold h l = before ++ [h] ++ after ∧ (∀ x ∈ before, x.arrival ≤ h.arrival)
    ∧ ∀ x, after.head? = some x → h.arrival < x.arrival := by
  induction l with
  | nil => exact ⟨[], [], rfl, rfl, by simp, by simp⟩
  | cons x l ih =>
    by_cases lt : h.arrival < x.arrival
    · exact ⟨[], x :: l, rfl, if_pos lt, by simp, by rintro y ⟨⟩; exact lt⟩
    · obtain ⟨before, after, split, inserted, low, high⟩ := ih
      refine ⟨x :: before, after, by rw [split]; rfl, (if_neg lt).trans (by rw [inserted]; rfl), fun y hy => ?_, high⟩
      rcases List.mem_cons.mp hy with rfl | hy
      · omega
      · exact low y hy

/-- What holding a request for a reason does. -/
structure Held (s : State) (e : Entry) (r : HoldReason) (u : State) : Prop where
  queue : ∃ before after, s.holds = before ++ after
    ∧ u.holds = before ++ [{ tag := e.tag, arrival := e.arrival, reason := r }] ++ after
    ∧ (∀ x ∈ before, x.arrival ≤ e.arrival) ∧ ∀ x, after.head? = some x → e.arrival < x.arrival
  frame : u = { s with
    holds := u.holds
    port := { s.port with
      entries := s.port.entries.map (fun x => if x.arrival = e.arrival then { x with state := .held } else x) }
    mark := { s.mark with causes := u.mark.causes } }
  raised : e.Banded s → ∃ c ∈ u.mark.causes, c.kind = .band ∧ c.served = false
  others : ∀ c, c.kind ≠ .band → (c ∈ u.mark.causes ↔ c ∈ s.mark.causes)
  quiet : ¬e.Banded s → u.mark.causes = s.mark.causes

theorem updReq_held (a : Nat) (s : State) : updReq a (fun e => { e with state := .held }) s = { s with port := { s.port with
    entries := s.port.entries.map (fun x => if x.arrival = a then { x with state := .held } else x) } } := by
  simp only [updReq, beq_iff_eq]

theorem holdRequest_held {s : State} {e : Entry} {r : HoldReason} (some_block : 1 ≤ e.count) :
    Held s e r (holdRequest e r s) := by
  obtain ⟨before, after, split, inserted, low, high⟩ :=
    insertHold_split { tag := e.tag, arrival := e.arrival, reason := r } s.holds
  obtain ⟨q, hq⟩ : ∃ q, { s with
      holds := insertHold { tag := e.tag, arrival := e.arrival, reason := r } s.holds
      port := { s.port with
        entries := s.port.entries.map (fun x : Entry => if x.arrival = e.arrival then { x with state := .held } else x) } } = q := ⟨_, rfl⟩
  have eq : holdRequest e r s = if e.kind == .write && q.inBand e.lba e.count then raiseCause .band q else q := by
    rw [← hq]
    unfold holdRequest
    simp only [updReq_held]
  have same : q.inBand e.lba e.count = s.inBand e.lba e.count := hq ▸ rfl
  have causes : q.mark = s.mark := hq ▸ rfl
  have queue : q.holds = insertHold { tag := e.tag, arrival := e.arrival, reason := r } s.holds := hq ▸ rfl
  rw [same] at eq
  by_cases band : e.Banded s
  · rw [if_pos ((banded_iff some_block).mpr band)] at eq
    obtain ⟨raised, others⟩ := raiseCause_causes .band q
    rw [eq]
    refine ⟨⟨before, after, split, queue.trans inserted, low, high⟩, ?_, fun _ => raised, fun c hc => ?_, fun no => absurd band no⟩
    · exact (raiseCause_eq .band q).trans (by rw [← hq]; rfl)
    · rw [others c hc, causes]
  · rw [if_neg (mt (banded_iff some_block).mp band)] at eq
    rw [eq]
    refine ⟨⟨before, after, split, queue.trans inserted, low, high⟩, ?_, fun yes => absurd yes band, fun c _ => by rw [causes],
      fun _ => by rw [causes]⟩
    rw [← hq]

/-! ## A request that goes to the row locks (R27) -/

theorem updReq_req {a : Nat} {f : Entry → Entry} (kept : ∀ e, (f e).arrival = e.arrival) (s : State) :
    (updReq a f s).req a = (s.req a).map f := by
  unfold State.req updReq
  dsimp only
  induction s.port.entries with
  | nil => rfl
  | cons x l ih =>
    by_cases hx : (x.arrival == a) = true
    · have hf : ((f x).arrival == a) = true := by rw [kept, hx]
      rw [List.map_cons, if_pos hx, List.find?_cons_of_pos (p := fun e : Entry => e.arrival == a) hf,
        List.find?_cons_of_pos (p := fun e : Entry => e.arrival == a) hx, Option.map_some]
    · rw [List.map_cons, if_neg hx, List.find?_cons_of_neg (p := fun e : Entry => e.arrival == a) hx,
        List.find?_cons_of_neg (p := fun e : Entry => e.arrival == a) hx, ih]

theorem req_arrival {s : State} {a : Nat} {e : Entry} (h : s.req a = some e) : e.arrival = a := by
  simpa using List.find?_some h

/-- What sending a request to the row lock table does. -/
structure Queues (s : State) (a : Nat) (e : Entry) (u : State) : Prop where
  holds : u.holds = s.holds
  mark : u.mark = s.mark
  todo : u.todo = s.todo
  out : u.out = s.out
  entry : ∃ e', u.req a = some e' ∧ e'.keys = s.keysFor e.lba e.count
    ∧ ((s.locks.entries.length + (s.newKeys e'.keys).length ≤ 160 ∧ ∀ q ∈ s.locks.queued, a < q.arrival) →
      e'.state = .locking ∧ u.locks.queued = s.locks.queued)
    ∧ (¬(s.locks.entries.length + (s.newKeys e'.keys).length ≤ 160 ∧ ∀ q ∈ s.locks.queued, a < q.arrival) →
      e'.state = .queued ∧ u.locks.entries = s.locks.entries
      ∧ ∃ before after, s.locks.queued = before ++ after ∧ (∀ q ∈ before, q.arrival ≤ a)
        ∧ u.locks.queued = before ++ [{ arrival := a, write := e.kind == .write, keys := e'.keys }] ++ after)

theorem enterPath_queues {s : State} {a : Nat} {e : Entry} (he : s.req a = some e) (free : s.holdReason e = none) :
    Queues s a e (enterPath a s) := by
  obtain ⟨ks, hks⟩ : ∃ ks, s.keysFor e.lba e.count = ks := ⟨_, rfl⟩
  obtain ⟨r, hr⟩ : ∃ r, joinOrQueue a (e.kind == .write) ks s = r := ⟨_, rfl⟩
  have eq : enterPath a s
      = updReq a (fun e => { e with keys := ks, state := if r.2 then .locking else .queued }) r.1 := by
    simp only [enterPath, he, free, hks, hr]
  have frame : r.1 = { s with locks := r.1.locks } := hr ▸ joinOrQueue_frame a (e.kind == .write) ks s
  have entry : (enterPath a s).req a = some { e with keys := ks, state := if r.2 then .locking else .queued } := by
    rw [eq, updReq_req (by intro x; rfl), show r.1.req a = some e from frame ▸ he]
    rfl
  have locks : (enterPath a s).locks = r.1.locks := by rw [eq]; rfl
  refine ⟨by rw [eq, updReq_holds, frame], by rw [eq, updReq_mark, frame], by rw [eq, updReq_todo, frame],
    by rw [eq, updReq_out, frame], _, entry, hks.symm, ?_, ?_⟩
  · intro joins
    obtain rfl := hr.symm.trans (joinOrQueue_joins joins)
    exact ⟨rfl, by rw [locks]; rfl⟩
  · intro waits
    obtain rfl := hr.symm.trans (joinOrQueue_queues waits)
    obtain ⟨before, after, split, low, inserted⟩ :=
      insertQueued_split { arrival := a, write := e.kind == .write, keys := ks } s.locks.queued
    exact ⟨rfl, by rw [locks], before, after, split, low, by rw [locks]; exact inserted⟩

/-! ## A release (R66) -/

theorem releaseRequest_eq {s : State} {a : Nat} {e : Entry} (he : s.req a = some e) : releaseRequest a s
    = if e.state != .held then s else if s.ctl.volume == .offline then complete e .notReady none [] s else enterPath a s := by
  simp only [releaseRequest, he]

/-- Settles O12: the answer to the hold question selects `holdRequest_held` or `enterPath_queues`. -/
theorem holdQuestion : Obligations.HoldQuestion := by
  unfold Obligations.HoldQuestion
  refine ⟨fun s a e he some_block => ?_, fun s p => releaseHolds_eq p s, fun s a e he => ⟨?_, ?_, ?_⟩⟩
  · obtain rfl := req_arrival he
    intro u holds banded held
    have answer {r : HoldReason} (hr : s.holdReason e = some r) : held r := by
      have hu : u = holdRequest e r s := by simp only [u, enterPath, he, hr]
      obtain ⟨queue, frame, raised, others, quiet⟩ := (holdRequest_held (r := r) some_block : Held s e r (holdRequest e r s))
      rw [← hu] at queue frame raised others quiet
      exact ⟨queue, frame, raised, fun c hc kind => (others c kind).mp hc, fun c hc kind => (others c kind).mpr hc, quiet⟩
    refine ⟨fun g t slot ht lowest => answer (holdReason_step slot ht lowest), fun free => ⟨fun band => answer ?_, fun band => ?_⟩⟩
    · exact (holdReason_no_step free).trans (if_pos ((banded_iff some_block).mpr band))
    · obtain ⟨hholds, hmark, htodo, hout, entry⟩ := enterPath_queues he
        ((holdReason_no_step free).trans (if_neg (mt (banded_iff some_block).mp band)))
      exact ⟨hholds, hmark, htodo, hout, entry⟩
  · intro held offline
    exact (releaseRequest_eq he).trans (by rw [held, offline]; rfl)
  · intro held online
    exact (releaseRequest_eq he).trans (by rw [held]; exact if_neg (mt eq_of_beq online))
  · intro other
    exact (releaseRequest_eq he).trans (if_pos (by simpa using other))
end Sys2Proof.Machine
end

