-- ==== Sys2Proof/Proofs/RequestEnding.lean ====
section
/-! PROOFS. How a READ and a WRITE end, and what a completion takes along (R24, R29, R34, R38, R144). -/

namespace Sys2Proof.Machine

/-! ## What a completion takes along (R24, R29, R144) -/

/-- What the completion of a request leaves, in terms of the state in which the request was looked at. -/
structure Ended (s : State) (e : Entry) (st : Status) (failing : Option Nat) (data : List Block) (u : State) : Prop where
  out : u.out = s.out ++ [{ tag := e.tag, status := st, failing := failing, marker := marker s, data := data }]
  gone : u.req e.arrival = none
  unlocked : ∀ l ∈ u.locks.entries, l.holder ≠ some e.arrival ∧ e.arrival ∉ l.readers ∧ ∀ w ∈ l.waiters, w.arrival ≠ e.arrival
  struck : ∀ k ∈ u.integ.candidates, ∀ i, k.reader ≠ .part e.arrival i ∧ k.reader ≠ .row e.arrival i
  frame : u = { s with
    port := u.port, locks := u.locks, integ := { s.integ with candidates := u.integ.candidates }, out := u.out }

theorem without_clear (a : Nat) (l : LockEntry) :
    (l.without a).holder ≠ some a ∧ a ∉ (l.without a).readers ∧ ∀ w ∈ (l.without a).waiters, w.arrival ≠ a := by
  refine ⟨?_, by simp [LockEntry.without], by simp [LockEntry.without]⟩
  by_cases h : l.holder = some a <;> simp [LockEntry.without, h]

theorem complete_ended {s t : State} {e : Entry} (st : Status) (failing : Option Nat) (data : List Block)
    (frame : t = { s with port := t.port, locks := t.locks }) :
    Ended s e st failing data (complete e st failing data t) where
  out := by rw [frame]; rfl
  gone := List.find?_eq_none.mpr fun x hx => by
    have other := (List.mem_filter.mp hx).2
    simpa using other
  unlocked l hl := by
    obtain ⟨⟨l₀, -, rfl⟩, -⟩ := mem_updLocks.mp hl
    exact without_clear e.arrival l₀
  struck k hk i := by
    have other := (List.mem_filter.mp hk).2
    refine ⟨?_, ?_⟩ <;> intro reader <;> simp [reader, Reader.ofRequest] at other
  frame := by
    obtain ⟨port, hport⟩ : ∃ port, t.port = port := ⟨_, rfl⟩
    obtain ⟨locks, hlocks⟩ : ∃ locks, t.locks = locks := ⟨_, rfl⟩
    rw [hport, hlocks] at frame
    subst frame
    rfl

/-! ## Keys given up (R29) -/

/-- Whether no lock entry of a key has a request as its holder. -/
def State.Freed (a : Nat) (k : Key) (s : State) : Prop := ∀ l ∈ s.locks.entries, l.key = k → l.holder ≠ some a

theorem giveUpKey_eq (a : Nat) (k : Key) (s : State) : giveUpKey a k s = { s with locks := (giveUpKey a k s).locks } := rfl

theorem giveUpKey_freed (a : Nat) (k : Key) (s : State) : (giveUpKey a k s).Freed a k := by
  intro l hl key
  obtain ⟨⟨l₀, -, rfl⟩, -⟩ := mem_updLocks.mp hl
  split at key
  next same => rw [if_pos same]; exact (without_clear a l₀).1
  next other => exact absurd (beq_iff_eq.mpr key) other

theorem giveUpKey_stays_freed {a : Nat} {k : Key} (k' : Key) {s : State} (h : s.Freed a k) : (giveUpKey a k' s).Freed a k := by
  intro l hl key
  obtain ⟨⟨l₀, mem, rfl⟩, -⟩ := mem_updLocks.mp hl
  split at key
  next same => rw [if_pos same]; exact (without_clear a l₀).1
  next other => rw [if_neg other]; exact h l₀ mem key

theorem foldl_giveUp_eq (a : Nat) (p : Key → Bool) (ks : List Key) (s : State) :
    ∃ locks, ks.foldl (fun s k => if p k then giveUpKey a k s else s) s = { s with locks := locks } := by
  induction ks generalizing s with
  | nil => exact ⟨s.locks, rfl⟩
  | cons k ks ih =>
    rw [List.foldl_cons]
    split
    · obtain ⟨locks, h⟩ := ih (giveUpKey a k s)
      exact ⟨locks, h⟩
    · exact ih s

/-! ## A READ with nothing to mend (R33, R34) -/

theorem settleFetch_idle {r : Reader} {owner : Owner} {cls : OpClass} {overwrites : Cell → Bool} {s : State} {f : Fetch}
    (idle : f.mending s r = []) : settleFetch r owner cls overwrites (s, f) = (s, f) := by
  simp [settleFetch, Fetch.verdicts, idle, writeBacks, strikeLost, backRuns, coveringReads]

theorem mending_nil {s : State} {r : Reader} {f : Fetch} (good : ∀ c ∈ f.wanted, f.at c ≠ some .bad)
    (free : ∀ k ∈ s.integ.candidates, k.reader ≠ r) : f.mending s r = [] := by
  have bad : f.wanted.filter (fun c => f.at c == some .bad) = [] :=
    List.filter_eq_nil_iff.mpr fun c hc => by simpa using good c hc
  have noted : s.integ.candidates.filter (fun k => k.reader == r) = [] :=
    List.filter_eq_nil_iff.mpr fun k hk => by simpa using free k hk
  simp [Fetch.mending, bad, noted]

theorem foldl_collect {α : Type} (step : State → α × Nat → State × α) (s : State) (xs : List (α × Nat)) (acc : List α)
    (idle : ∀ x ∈ xs, step s x = (s, x.1)) :
    xs.foldl (fun (q : State × List α) x => ((step q.1 x).1, q.2 ++ [(step q.1 x).2])) (s, acc) = (s, acc ++ xs.map (·.1)) := by
  induction xs generalizing acc with
  | nil => simp
  | cons x xs ih =>
    rw [List.foldl_cons, idle x List.mem_cons_self, ih _ fun y hy => idle y (List.mem_cons_of_mem _ hy)]
    simp

theorem map_fst_zip_range {α : Type} (xs : List α) : (xs.zip (List.range xs.length)).map (·.1) = xs :=
  List.map_fst_zip (by simp)

/-- A READ with nothing to mend gives up keys, and completes when all is known. -/
theorem advanceRead_idle {s : State} {e : Entry} (good : ∀ f ∈ e.reads, ∀ c ∈ f.wanted, f.at c ≠ some .bad)
    (free : ∀ k ∈ s.integ.candidates, ∀ i, k.reader ≠ .part e.arrival i) :
    ∃ locks, advanceRead e s =
      let t := updReq e.arrival (fun x => { x with reads := e.reads }) { s with locks := locks }
      if e.reads.all Fetch.done then
        if (readFailures e.reads).2 then complete e .notReady none [] t
        else match (readFailures e.reads).1.min? with
          | some a => complete e .medium (some a) [] t
          | none => complete e .good none (readData e.reads) t
      else t := by
  have parts := foldl_collect (fun q x => settleFetch (.part e.arrival x.2) (.hostRead e.arrival x.2) .host (fun _ => false) (q, x.1))
    s (e.reads.zip (List.range e.reads.length)) [] fun x hx =>
      settleFetch_idle (mending_nil (good x.1 (List.of_mem_zip hx).1) fun k hk => free k hk x.2)
  rw [map_fst_zip_range, List.nil_append] at parts
  obtain ⟨locks, given⟩ := foldl_giveUp_eq e.arrival
    (fun k => e.reads.all (fun f => f.layout.id != k.layout || f.rowDone k.row)) e.keys
    (updReq e.arrival (fun x => { x with reads := e.reads }) s)
  refine ⟨locks, ?_⟩
  unfold advanceRead
  dsimp only at parts ⊢
  rw [parts]
  dsimp only
  rw [given]
  rfl

/-! ## The failing blocks and the data of a READ (R24, R34) -/

/-- The failing block a place gives a READ. -/
def Fetch.failing (f : Fetch) (c : Cell) : List Nat :=
  match f.at c with
  | some (.poison _) | some (.lost false) => (f.layout.lbaOf c).toList
  | _ => []

theorem Fetch.mem_failing {f : Fetch} {c : Cell} {b : Nat} : b ∈ f.failing c ↔
    f.layout.lbaOf c = some b ∧ ((∃ x, f.at c = some (.poison x)) ∨ f.at c = some (.lost false)) := by
  unfold Fetch.failing
  rcases h : f.at c with _ | v
  · simp
  · cases v with
    | lost o => cases o <;> simp
    | _ => simp

theorem foldl_gather {α : Type} (step : List Nat × Bool → α → List Nat × Bool) (g : α → List Nat) (p : α → Bool)
    (step_eq : ∀ q x, step q x = (q.1 ++ g x, q.2 || p x)) (xs : List α) (q : List Nat × Bool) :
    xs.foldl step q = (q.1 ++ xs.flatMap g, q.2 || xs.any p) := by
  induction xs generalizing q with
  | nil => simp
  | cons x xs ih =>
    rw [List.foldl_cons, ih, step_eq]
    simp [Bool.or_assoc]

theorem readFailures_eq (fs : List Fetch) : readFailures fs = (fs.flatMap (fun f => f.wanted.flatMap f.failing),
    fs.any (fun f => f.wanted.any (fun c => decide (f.at c = some (.lost true))))) := by
  unfold readFailures
  rw [foldl_gather _ (fun f => f.wanted.flatMap f.failing) (fun f => f.wanted.any (fun c => decide (f.at c = some (.lost true))))]
  · simp
  · intro q f
    refine foldl_gather _ f.failing _ (fun q c => ?_) f.wanted q
    unfold Fetch.failing
    rcases h : f.at c with _ | v
    · simp
    · cases v with
      | lost o => cases o <;> simp
      | _ => simp

theorem mem_readFailures {fs : List Fetch} {b : Nat} : b ∈ (readFailures fs).1 ↔ ∃ f ∈ fs, ∃ c ∈ f.wanted,
    f.layout.lbaOf c = some b ∧ ((∃ x, f.at c = some (.poison x)) ∨ f.at c = some (.lost false)) := by
  rw [readFailures_eq]
  simp only [List.mem_flatMap, Fetch.mem_failing]

theorem readFailures_offline {fs : List Fetch} :
    (readFailures fs).2 = true ↔ ∃ f ∈ fs, ∃ c ∈ f.wanted, f.at c = some (.lost true) := by
  rw [readFailures_eq]
  simp [List.any_eq_true]

theorem forall₂_filterMap {α β : Type} {R : α → β → Prop} {g : α → Option β} (xs : List α)
    (each : ∀ x ∈ xs, ∃ b, g x = some b ∧ R x b) : List.Forall₂ R xs (xs.filterMap g) := by
  induction xs with
  | nil => exact .nil
  | cons x xs ih =>
    obtain ⟨b, hb, hr⟩ := each x List.mem_cons_self
    rw [List.filterMap_cons_some hb]
    exact .cons hr (ih fun y hy => each y (List.mem_cons_of_mem _ hy))

theorem readData_eq (fs : List Fetch) : readData fs = (fs.flatMap (fun f => f.wanted.map (fun c => (f, c)))).filterMap
    (fun x => ((x.1.at x.2).bind CellState.block).map (·.2)) := by
  simp only [readData, List.filterMap_flatMap, List.filterMap_map, Function.comp_def]

/-- A READ of which every block has come has its blocks as its data, in order. -/
theorem readData_forall₂ {fs : List Fetch}
    (each : ∀ f ∈ fs, ∀ c ∈ f.wanted, ∃ b, f.at c = some (.got b) ∨ f.at c = some (.rebuilt b)) :
    List.Forall₂ (fun (x : Fetch × Cell) b => x.1.at x.2 = some (.got b) ∨ x.1.at x.2 = some (.rebuilt b))
      (fs.flatMap (fun f => f.wanted.map (fun c => (f, c)))) (readData fs) := by
  rw [readData_eq]
  refine forall₂_filterMap _ fun x hx => ?_
  obtain ⟨f, hf, hx⟩ := List.mem_flatMap.mp hx
  obtain ⟨c, hc, rfl⟩ := List.mem_map.mp hx
  obtain ⟨b, hb⟩ := each f hf c hc
  exact ⟨b, by rcases hb with h | h <;> simp [h, CellState.block], hb⟩

/-! ## The rows of a WRITE (R29, R38) -/

/-- Whether the member writes of a row have run. -/
def RowWork.Ran (w : RowWork) : Prop := w.stage = .ended ∨ (w.stage = .writing ∧ w.outstanding = 0)

/-- Whether a label write is still to record the loss of one of a row's missing positions. -/
def RowWork.Waits (s : State) (w : RowWork) : Prop :=
  ∃ p i, p < w.layout.n ∧ s.bayAt w.layout w.row p = some i ∧ s.roleMissing i = true ∧ ∃ x ∈ s.mark.losses, x.1 = i

/-- What a row past its reads has become once it is taken as far as it can go. -/
structure Drives (s : State) (w x : RowWork) : Prop where
  stays : ¬w.Ran → x = w
  waits : w.Ran → w.Waits s → x = { w with stage := .ended }
  finishes : w.Ran → ¬w.Waits s → x = { w with stage := .finished (s.ctl.volume == .offline) }

theorem lossWaits_iff {s : State} {w : RowWork} : s.lossWaits w.layout w.row = true ↔ w.Waits s := by
  have at_ (p : Nat) : (match s.bayAt w.layout w.row p with
      | none => false
      | some i => s.roleMissing i && s.mark.losses.any (·.1 == i)) = true
      ↔ ∃ i, s.bayAt w.layout w.row p = some i ∧ s.roleMissing i = true ∧ ∃ x ∈ s.mark.losses, x.1 = i := by
    rcases s.bayAt w.layout w.row p with _ | i <;> simp [List.any_eq_true]
  refine List.any_eq_true.trans ⟨?_, ?_⟩
  · rintro ⟨p, hp, ht⟩
    obtain ⟨i, h⟩ := (at_ p).mp ht
    exact ⟨p, i, List.mem_range.mp hp, h⟩
  · rintro ⟨p, i, hp, h⟩
    exact ⟨p, List.mem_range.mpr hp, (at_ p).mpr ⟨i, h⟩⟩

theorem advanceRow_finished {a i : Nat} {w : RowWork} {s : State} {o : Bool} (h : w.stage = .finished o) :
    advanceRow a i w s = (s, w) := by
  simp only [advanceRow, h]

theorem advanceRow_busy {a i : Nat} {w : RowWork} {s : State} (h : w.stage = .writing) (busy : w.outstanding ≠ 0) :
    advanceRow a i w s = (s, w) := by
  simp [advanceRow, h, busy]

theorem advanceRow_written {a i : Nat} {w : RowWork} {s : State} (h : w.stage = .writing) (done : w.outstanding = 0) :
    advanceRow a i w s = (giveUpKey a { layout := w.layout.id, row := w.row } s, { w with stage := .ended }) := by
  simp [advanceRow, h, done]

theorem advanceRow_waits {a i : Nat} {w : RowWork} {s : State} (h : w.stage = .ended) (waits : w.Waits s) :
    advanceRow a i w s = (s, w) := by
  simp [advanceRow, h, lossWaits_iff.mpr waits]

theorem advanceRow_finishes {a i : Nat} {w : RowWork} {s : State} (h : w.stage = .ended) (free : ¬w.Waits s) :
    advanceRow a i w s = (s, { w with stage := .finished (s.ctl.volume == .offline) }) := by
  simp [advanceRow, h, mt lossWaits_iff.mp free]

/-- What driving a row past its reads does: keys may be given up, and the row becomes what `Drives` says. -/
structure Driven (s : State) (a : Nat) (w : RowWork) (t : State) (r : State × RowWork) : Prop where
  locks : ∃ locks, r.1 = { t with locks := locks }
  row : Drives s w r.2
  freed : w.stage = .writing → w.outstanding = 0 → r.1.Freed a { layout := w.layout.id, row := w.row }
  keeps : ∀ k, t.Freed a k → r.1.Freed a k

theorem driveRow_stays {s t : State} {a i : Nat} {w : RowWork} (still : advanceRow a i w t = (t, w)) (idle : ¬w.Ran) :
    Driven s a w t (driveRow a i w t) := by
  have eq : driveRow a i w t = (t, w) := by simp only [driveRow, still]
  rw [eq]
  exact ⟨⟨t.locks, rfl⟩, ⟨fun _ => rfl, fun h => absurd h idle, fun h => absurd h idle⟩,
    fun h d => absurd (.inr ⟨h, d⟩) idle, fun _ h => h⟩

theorem driveRow_ended {s t : State} {a i : Nat} {w : RowWork} (frame : ∃ locks, t = { s with locks := locks })
    (h : w.stage = .ended) : ∃ x, Drives s w x ∧ advanceRow a i w t = (t, x) ∧ advanceRow a i x t = (t, x) := by
  obtain ⟨locks, rfl⟩ := frame
  have same : { w with stage := .ended } = w := by rw [← h]
  by_cases waits : w.Waits s
  · exact ⟨w, ⟨fun _ => rfl, fun _ _ => same.symm, fun _ free => absurd waits free⟩, advanceRow_waits h waits, advanceRow_waits h waits⟩
  · exact ⟨_, ⟨fun idle => absurd (.inl h) idle, fun _ yes => absurd yes waits, fun _ _ => rfl⟩, advanceRow_finishes h waits,
      advanceRow_finished rfl⟩

theorem driveRow_driven {s t : State} {a i : Nat} {w : RowWork} (frame : ∃ locks, t = { s with locks := locks })
    (past : w.stage ≠ .reading) : Driven s a w t (driveRow a i w t) := by
  cases h : w.stage with
  | reading => exact absurd h past
  | finished o => exact driveRow_stays (advanceRow_finished h) (by simp [RowWork.Ran, h])
  | ended =>
    obtain ⟨x, drives, first, again⟩ := driveRow_ended (a := a) (i := i) frame h
    have eq : driveRow a i w t = (t, x) := by simp only [driveRow, first, again]
    rw [eq]
    exact ⟨⟨t.locks, rfl⟩, drives, fun writing => by rw [h] at writing; exact absurd writing (by decide), fun _ f => f⟩
  | writing =>
    by_cases done : w.outstanding = 0
    · obtain ⟨u, hu⟩ : ∃ u, giveUpKey a { layout := w.layout.id, row := w.row } t = u := ⟨_, rfl⟩
      have given : ∃ locks, u = { t with locks := locks } := ⟨_, hu.symm.trans (giveUpKey_eq a _ t)⟩
      have onto : ∃ locks, u = { s with locks := locks } := by
        obtain ⟨locks, rfl⟩ := frame
        exact given
      obtain ⟨x, drives, first, again⟩ := driveRow_ended (a := a) (i := i) (w := { w with stage := .ended }) onto rfl
      have eq : driveRow a i w t = (u, x) := by simp only [driveRow, advanceRow_written h done, hu, first, again]
      rw [eq]
      have ran : w.Ran := .inr ⟨h, done⟩
      refine ⟨given, ⟨fun idle => absurd ran idle, fun _ => drives.waits (.inl rfl), fun _ => drives.finishes (.inl rfl)⟩,
        fun _ _ => ?_, fun k hk => ?_⟩
      · exact hu ▸ giveUpKey_freed a _ t
      · exact hu ▸ giveUpKey_stays_freed _ hk
    · exact driveRow_stays (advanceRow_busy h done) (by simp [RowWork.Ran, h, done])

/-- The rows of a WRITE, all past their reads, taken one after another. -/
theorem driveRows {s : State} {a : Nat} (xs : List (RowWork × Nat)) (t : State) (acc : List RowWork)
    (frame : ∃ locks, t = { s with locks := locks }) (past : ∀ x ∈ xs, x.1.stage ≠ .reading) :
    ∃ locks rows, xs.foldl (fun (q : State × List RowWork) x =>
        ((driveRow a x.2 x.1 q.1).1, q.2 ++ [(driveRow a x.2 x.1 q.1).2])) (t, acc) = ({ s with locks := locks }, acc ++ rows)
      ∧ List.Forall₂ (Drives s) (xs.map (·.1)) rows
      ∧ (∀ x ∈ xs, x.1.stage = .writing → x.1.outstanding = 0 →
          State.Freed a { layout := x.1.layout.id, row := x.1.row } { s with locks := locks })
      ∧ ∀ k, t.Freed a k → State.Freed a k { s with locks := locks } := by
  induction xs generalizing t acc with
  | nil =>
    obtain ⟨locks, rfl⟩ := frame
    exact ⟨locks, [], by simp, .nil, by simp, fun _ h => h⟩
  | cons x xs ih =>
    obtain ⟨⟨locks₁, first⟩, row, freed, keeps⟩ :=
      driveRow_driven (a := a) (i := x.2) frame (past x List.mem_cons_self)
    have onto : ∃ locks, (driveRow a x.2 x.1 t).1 = { s with locks := locks } := by
      obtain ⟨locks, rfl⟩ := frame
      exact ⟨locks₁, first⟩
    obtain ⟨locks, rows, eq, drives, later, kept⟩ :=
      ih _ (acc ++ [(driveRow a x.2 x.1 t).2]) onto fun y hy => past y (List.mem_cons_of_mem _ hy)
    refine ⟨locks, (driveRow a x.2 x.1 t).2 :: rows, ?_, .cons row drives, fun y hy => ?_, fun k hk => kept k (keeps k hk)⟩
    · rw [List.foldl_cons]
      exact eq.trans (by rw [List.append_assoc]; rfl)
    · rcases List.mem_cons.mp hy with rfl | hy
      · exact fun writing done => kept _ (freed writing done)
      · exact later y hy

/-- A WRITE with its rows past their reads: the rows driven, and the completion when all have finished. -/
theorem advanceWrite_driven {s : State} {e : Entry} (issued : e.state = .issued) (past : ∀ w ∈ e.rows, w.stage ≠ .reading) :
    ∃ locks rows, advanceWrite e s =
        (let t := updReq e.arrival (fun x => { x with rows := rows }) { s with locks := locks }
        if rows.all (fun w => w.finishedAs.isSome) then
          complete e (if rows.any (fun w => w.finishedAs == some true) then .notReady else .good) none [] t
        else t)
      ∧ List.Forall₂ (Drives s) e.rows rows
      ∧ ∀ w ∈ e.rows, w.stage = .writing → w.outstanding = 0 →
          State.Freed e.arrival { layout := w.layout.id, row := w.row } { s with locks := locks } := by
  obtain ⟨locks, rows, eq, drives, freed, -⟩ := driveRows (s := s) (a := e.arrival) (e.rows.zip (List.range e.rows.length)) s []
    ⟨s.locks, rfl⟩ fun x hx => past x.1 (List.of_mem_zip hx).1
  rw [map_fst_zip_range] at drives
  refine ⟨locks, rows, ?_, drives, fun w hw => ?_⟩
  · unfold advanceWrite
    dsimp only at eq ⊢
    rw [eq]
    simp only [issued, List.nil_append, beq_self_eq_true, Bool.true_and]
  · rw [← map_fst_zip_range e.rows] at hw
    obtain ⟨x, hx, rfl⟩ := List.mem_map.mp hw
    exact freed x hx

/-! ## How a WRITE's rows end it (R38) -/

theorem finishedAs_iff {w : RowWork} {o : Bool} : w.finishedAs = some o ↔ w.stage = .finished o := by
  unfold RowWork.finishedAs
  cases w.stage <;> simp

theorem finishedAs_isSome {w : RowWork} : w.finishedAs.isSome = true ↔ ∃ o, w.stage = .finished o := by
  rw [Option.isSome_iff_exists]
  exact exists_congr fun _ => finishedAs_iff

theorem Drives.finished_iff {s : State} {w x : RowWork} (h : Drives s w x) : (∃ o, x.stage = .finished o) ↔
    (∃ o, w.stage = .finished o) ∨ (w.Ran ∧ ¬w.Waits s) := by
  by_cases ran : w.Ran
  · have unfinished : ¬∃ o, w.stage = .finished o := by
      rintro ⟨o, ho⟩
      rcases ran with h | h <;> simp [ho] at h
    by_cases waits : w.Waits s
    · rw [h.waits ran waits]
      simp [unfinished, waits]
    · rw [h.finishes ran waits]
      simp [ran, waits]
  · rw [h.stays ran]
    simp [ran]

theorem Drives.offline_iff {s : State} {w x : RowWork} (h : Drives s w x)
    (ends : (∃ o, w.stage = .finished o) ∨ (w.Ran ∧ ¬w.Waits s)) :
    x.stage = .finished true ↔ w.stage = .finished true ∨ (s.ctl.volume = .offline ∧ w.Ran) := by
  rcases ends with ⟨o, ho⟩ | ⟨ran, free⟩
  · have idle : ¬w.Ran := by simp [RowWork.Ran, ho]
    rw [h.stays idle]
    simp [idle]
  · have unfinished : w.stage ≠ .finished true := by
      rcases ran with h | ⟨h, -⟩ <;> simp [h]
    rw [h.finishes ran free]
    simp [ran, unfinished]

theorem all_finished_iff {s : State} {ws xs : List RowWork} (h : List.Forall₂ (Drives s) ws xs) :
    xs.all (fun w => w.finishedAs.isSome) = true ↔ ∀ w ∈ ws, (∃ o, w.stage = .finished o) ∨ (w.Ran ∧ ¬w.Waits s) := by
  simp only [List.all_eq_true, finishedAs_isSome]
  induction h with
  | nil => simp
  | cons hr _ ih => rw [List.forall_mem_cons, List.forall_mem_cons, hr.finished_iff, ih]

theorem any_offline_iff {s : State} {ws xs : List RowWork} (h : List.Forall₂ (Drives s) ws xs)
    (ends : ∀ w ∈ ws, (∃ o, w.stage = .finished o) ∨ (w.Ran ∧ ¬w.Waits s)) :
    xs.any (fun w => w.finishedAs == some true) = true ↔
      (∃ w ∈ ws, w.stage = .finished true) ∨ (s.ctl.volume = .offline ∧ ∃ w ∈ ws, w.Ran) := by
  simp only [List.any_eq_true, beq_iff_eq, finishedAs_iff]
  induction h with
  | nil => simp
  | cons hr _ ih =>
    obtain ⟨first, later⟩ := List.forall_mem_cons.mp ends
    rw [List.exists_mem_cons_iff, List.exists_mem_cons_iff, List.exists_mem_cons_iff, hr.offline_iff first, ih later]
    rw [or_or_or_comm, ← and_or_left]

/-! ## A request looked at (R24) -/

/-- A READ with no bad block and no candidate of its own left: how it ends (R24, R34). -/
theorem advanceRead_ends {s : State} {e : Entry} (he : s.req e.arrival = some e)
    (good : ∀ f ∈ e.reads, ∀ c ∈ f.wanted, f.at c ≠ some .bad)
    (free : ∀ k ∈ s.integ.candidates, ∀ i, k.reader ≠ .part e.arrival i) :
    ((∃ f ∈ e.reads, f.done = false) → (advanceRead e s).out = s.out ∧ (advanceRead e s).req e.arrival = some e)
    ∧ ((∀ f ∈ e.reads, f.done = true) →
      ((readFailures e.reads).2 = true → Ended s e .notReady none [] (advanceRead e s))
      ∧ ((readFailures e.reads).2 = false →
        (∀ b, (readFailures e.reads).1.min? = some b → Ended s e .medium (some b) [] (advanceRead e s))
        ∧ ((readFailures e.reads).1 = [] → Ended s e .good none (readData e.reads) (advanceRead e s)))) := by
  obtain ⟨locks, eq⟩ := advanceRead_idle good free
  obtain ⟨t, ht⟩ : ∃ t, updReq e.arrival (fun x => { x with reads := e.reads }) { s with locks := locks } = t := ⟨_, rfl⟩
  have frame : t = { s with port := t.port, locks := t.locks } := ht ▸ rfl
  have entry : t.req e.arrival = some e := by
    rw [← ht, updReq_req (by intro x; rfl), show State.req { s with locks := locks } e.arrival = some e from he]
    rfl
  simp only [ht] at eq
  rw [eq]
  refine ⟨fun ⟨f, hf, undone⟩ => ?_, fun done => ?_⟩
  · rw [if_neg (by simpa using ⟨f, hf, undone⟩)]
    exact ⟨by rw [frame], entry⟩
  · rw [if_pos (List.all_eq_true.mpr done)]
    refine ⟨fun offline => ?_, fun online => ⟨fun b least => ?_, fun none_fails => ?_⟩⟩
    · rw [if_pos offline]
      exact complete_ended .notReady none [] frame
    · rw [if_neg (by simp [online])]
      simp only [least]
      exact complete_ended .medium (some b) [] frame
    · rw [if_neg (by simp [online])]
      simp only [none_fails, List.min?_nil]
      exact complete_ended .good none _ frame

/-- A WRITE with its rows past their reads: its rows as they are driven, and how it ends (R24, R38). -/
theorem advanceWrite_ends {s : State} {e : Entry} (he : s.req e.arrival = some e) (issued : e.state = .issued)
    (past : ∀ w ∈ e.rows, w.stage ≠ .reading) : ∃ rows, List.Forall₂ (Drives s) e.rows rows
      ∧ (rows.all (fun w => w.finishedAs.isSome) = false → (advanceWrite e s).out = s.out
        ∧ (advanceWrite e s).req e.arrival = some { e with rows := rows }
        ∧ ∀ w ∈ e.rows, w.stage = .writing → w.outstanding = 0 →
          (advanceWrite e s).Freed e.arrival { layout := w.layout.id, row := w.row })
      ∧ (rows.all (fun w => w.finishedAs.isSome) = true →
        Ended s e (if rows.any (fun w => w.finishedAs == some true) then .notReady else .good) none [] (advanceWrite e s)) := by
  obtain ⟨locks, rows, eq, drives, freed⟩ := advanceWrite_driven issued past
  obtain ⟨t, ht⟩ : ∃ t, updReq e.arrival (fun x => { x with rows := rows }) { s with locks := locks } = t := ⟨_, rfl⟩
  have frame : t = { s with port := t.port, locks := t.locks } := ht ▸ rfl
  have entry : t.req e.arrival = some { e with rows := rows } := by
    rw [← ht, updReq_req (by intro x; rfl), show State.req { s with locks := locks } e.arrival = some e from he]
    rfl
  dsimp only at eq
  rw [ht] at eq
  rw [eq]
  refine ⟨rows, drives, fun unfinished => ?_, fun finished => ?_⟩
  · rw [if_neg (by simp [unfinished])]
    exact ⟨by rw [frame], entry, fun w hw writing done => ht ▸ freed w hw writing done⟩
  · rw [if_pos finished]
    exact complete_ended _ none [] frame

theorem advanceRequest_read {s : State} {e : Entry} (he : s.req e.arrival = some e) (issued : e.state = .issued)
    (kind : e.kind = .read) : advanceRequest e.arrival s = advanceRead e s := by
  simp only [advanceRequest, he, issued, kind]

theorem advanceRequest_write {s : State} {e : Entry} (he : s.req e.arrival = some e) (issued : e.state = .issued)
    (kind : e.kind = .write) : advanceRequest e.arrival s = advanceWrite e s := by
  simp only [advanceRequest, he, issued, kind]

/-- Settles O15: a READ by `advanceRead_ends`, a WRITE by `advanceWrite_ends`. -/
theorem requestEnds : Obligations.RequestEnds := by
  unfold Obligations.RequestEnds
  intro s e he issued a u ended
  have ends {st : Status} {failing : Option Nat} {data : List Block} (h : Ended s e st failing data u) :
      ended st failing data := ⟨h.out, h.gone, h.unlocked, h.struck, h.frame⟩
  refine ⟨?_, ?_⟩
  · intro kind good free known failing
    have hu : u = advanceRead e s := advanceRequest_read he issued kind
    obtain ⟨waits, completes⟩ := advanceRead_ends he good free
    rw [← hu] at waits completes
    have done_iff (f : Fetch) (hf : f ∈ e.reads) : f.done = true ↔ known f := by
      refine Fetch.done_iff.trans (and_congr_right fun _ => forall₂_congr fun c hc => exists_congr fun v => ?_)
      refine and_congr_right fun hv => and_iff_right ?_
      rintro rfl
      exact good f hf c hc hv
    refine ⟨?_, ?_⟩
    · rintro ⟨f, hf, unknown⟩
      obtain ⟨out, entry⟩ := waits ⟨f, hf, by simpa using mt (done_iff f hf).mp unknown⟩
      exact ⟨out, e, entry, issued, rfl⟩
    · intro all
      obtain ⟨notReady, online⟩ := completes fun f hf => (done_iff f hf).mpr (all f hf)
      refine ⟨fun lost => ends (notReady (readFailures_offline.mpr lost)), fun kept => ?_⟩
      obtain ⟨medium, full⟩ := online (by
        refine Bool.eq_false_iff.mpr fun h => ?_
        obtain ⟨f, hf, c, hc, lost⟩ := readFailures_offline.mp h
        exact kept f hf c hc lost)
      refine ⟨fun b hb least => ends (medium b ?_), fun sound placed => ⟨readData e.reads, ends (full ?_), readData_forall₂ ?_⟩⟩
      · exact List.min?_eq_some_iff.mpr ⟨mem_readFailures.mpr hb, fun c hc => least c (mem_readFailures.mp hc)⟩
      · exact List.eq_nil_iff_forall_not_mem.mpr fun b hb => sound b (mem_readFailures.mp hb)
      · intro f hf c hc
        obtain ⟨b, hb⟩ := placed f hf c hc
        obtain ⟨v, hv, quiet⟩ := (all f hf).2 c hc
        cases v with
        | waiting id => exact absurd rfl (quiet id)
        | got x => exact ⟨x, .inl hv⟩
        | rebuilt x => exact ⟨x, .inr hv⟩
        | bad => exact absurd hv (good f hf c hc)
        | poison x => exact absurd ⟨f, hf, c, hc, hb, .inl ⟨x, hv⟩⟩ (sound b)
        | lost o =>
          cases o with
          | true => exact absurd hv (kept f hf c hc)
          | false => exact absurd ⟨f, hf, c, hc, hb, .inr hv⟩ (sound b)
  · intro kind past ran waits
    have hu : u = advanceWrite e s := advanceRequest_write he issued kind
    obtain ⟨rows, drives, goes_on, finishes⟩ := advanceWrite_ends he issued past
    rw [← hu] at goes_on finishes
    refine ⟨?_, ?_⟩
    · rintro ⟨w, hw, open_, blocked⟩
      obtain ⟨out, entry, freed⟩ := goes_on (by
        refine Bool.eq_false_iff.mpr fun all => ?_
        rcases (all_finished_iff drives).mp all w hw with ⟨o, ho⟩ | ⟨hran, free⟩
        · exact open_ o ho
        · exact free (blocked hran))
      exact ⟨out, _, entry, issued, drives.imp fun _ _ h => ⟨h.stays, h.waits, h.finishes⟩, freed⟩
    · intro all
      have final := finishes ((all_finished_iff drives).mpr all)
      refine ⟨fun offline => ends ?_, fun online => ends ?_⟩
      · rwa [if_pos ((any_offline_iff drives all).mpr offline)] at final
      · rwa [if_neg (mt (any_offline_iff drives all).mp online)] at final
end Sys2Proof.Machine
end
